-- ==== Sys2Proof/Word.lean ====
section
/-! DEFINITION. The word types of the GV8 model and their plainest arithmetic. -/

namespace Sys2Proof

/-- A byte: the smallest addressable unit of every memory of the module. -/
abbrev Byte := BitVec 8
/-- A 32-bit word: a thread register, a vector element, a tile-store offset. -/
abbrev Word := BitVec 32
/-- A 64-bit word: a control-core register, a command operand word, a table word (R8, R24). -/
abbrev DWord := BitVec 64

end Sys2Proof
end

