-- ==== Sys2Proof/Syntax.lean ====
section
/-! DEFINITION. The commands of the GV8 block: one constructor of Instr per row of spec/opcode_table.json, with
the operands of the row. Instruction rows carry the fields of their encoding format (R99, R103, R251), reserved
fields included, so that the meanings can judge an encoding. Command rows name a parsed command in flight. -/

namespace Sys2Proof

/-! ### Encoding formats of the control ISA (R99) -/

/-- Format CR of R99. -/
structure CrF where
  rd  : BitVec 6
  rs1 : BitVec 6
  rs2 : BitVec 6
  fn  : BitVec 8
  deriving DecidableEq, Repr

/-- Format CI of R99. -/
structure CiF where
  rd  : BitVec 6
  rs1 : BitVec 6
  imm : BitVec 14
  deriving DecidableEq, Repr

/-- Format CB of R99. -/
structure CbF where
  rs1 : BitVec 6
  rs2 : BitVec 6
  off : BitVec 14
  deriving DecidableEq, Repr

/-- Format CJ of R99. -/
structure CjF where
  rd  : BitVec 6
  off : BitVec 20
  deriving DecidableEq, Repr

/-- Format CL of R99. -/
structure ClF where
  rd    : BitVec 6
  k     : BitVec 2
  rsv   : BitVec 2
  imm16 : BitVec 16
  deriving DecidableEq, Repr

/-! ### Encoding formats of the thread ISA (R103) -/

/-- Format TR of R103, the opcode left out. -/
structure TrF where
  dst  : BitVec 8
  src1 : BitVec 8
  src2 : BitVec 8
  src3 : BitVec 8
  fn   : BitVec 8
  mod  : BitVec 4
  rsv  : BitVec 12
  deriving DecidableEq, Repr

/-- Format TI of R103, the opcode left out. -/
structure TiF where
  dst  : BitVec 8
  src1 : BitVec 8
  fn   : BitVec 8
  imm  : BitVec 32
  deriving DecidableEq, Repr

/-! ### Vector formats (R251) -/

/-- Format VV of R251. -/
structure VvF where
  vd  : BitVec 5
  vs1 : BitVec 5
  x   : BitVec 6
  sb  : BitVec 1
  rm  : BitVec 3
  fn  : BitVec 6
  deriving DecidableEq, Repr

/-- Format VS of R251. -/
structure VsF where
  rd  : BitVec 6
  vr  : BitVec 5
  ri  : BitVec 6
  rsv : BitVec 3
  fn  : BitVec 6
  deriving DecidableEq, Repr

/-- Format VM of R251. -/
structure VmF where
  vd  : BitVec 5
  rb  : BitVec 6
  rt  : BitVec 6
  w   : BitVec 2
  rsv : BitVec 1
  fn  : BitVec 6
  deriving DecidableEq, Repr

/-- A vector instruction as the control core places it in the vector queue (R247): its opcode OP [31:26], 0x20 for format
VC, and its format. -/
inductive VInstr where
  | vc (f : CrF)
  | vv (op : BitVec 6) (f : VvF)
  | vs (op : BitVec 6) (f : VsF)
  | vm (op : BitVec 6) (f : VmF)
  deriving DecidableEq, Repr

/-- An instruction that both ISAs have, with TR fields in the thread ISA (R113, R265, R274, R278). -/
inductive CrTr where
  | cc (f : CrF)
  | th (group : Nat) (f : TrF)
  deriving DecidableEq, Repr

/-- An instruction that both ISAs have, with TI fields in the thread ISA (R110). -/
inductive CrTi where
  | cc (f : CrF)
  | th (group : Nat) (f : TiF)
  deriving DecidableEq, Repr

/-- A tile site of the module: die × 192 + site, islands 0 to 383 of R397. -/
abbrev Site := Nat

/-- A parsed command in flight: its context, queue, ring index and list position (R82: 0 for a ring packet, n + 1
for the nth packet of a list). -/
structure CmdRef where
  ctx   : Nat
  queue : Nat
  index : Nat
  lpos  : Nat
  deriving DecidableEq, Repr

/-- What COMMAND_START starts: the choice of one engine class (R62), or the next control command of one queue
(R61, R72). -/
inductive StartOf where
  | engine (cls : Nat)
  | control (ctx queue : Nat)
  deriving DecidableEq, Repr

/-- A fault as a unit raises it: the fields of the fault record (R58) that the unit supplies. -/
structure FaultInfo where
  code    : BitVec 8
  queue   : Nat
  operand : DWord
  die     : BitVec 1
  unit    : BitVec 4
  tile    : BitVec 8
  group   : BitVec 6
  loc     : DWord
  mask    : Word
  detail  : DWord
  deriving DecidableEq, Repr

/-- No issuer: every field zero. -/
def FaultInfo.none : FaultInfo :=
  { code := 0, queue := 0, operand := 0, die := 0, unit := 0, tile := 0, group := 0, loc := 0, mask := 0, detail := 0 }

/-- Outcome of the checksum comparisons of one instruction (R157, R158, R161): the logical rows and columns whose
comparison failed. -/
structure Checks where
  rows  : List Nat
  cols  : List Nat
  deriving DecidableEq, Repr

/-- A bucket's summary in an agree round (R380, R381): word 1 [31:27] and e_amax. -/
structure Summary where
  pr   : Bool
  nf   : Bool
  ov   : Bool
  zero : Bool
  fail : Bool
  seamax : Option Int
  deriving DecidableEq, Repr

/-- Payload of a tree round (R374, R381, R382): the open round's values, whether they mismatched or were poisoned,
the bucket summaries of an agree run, and the digests and mismatch bits of a digest check. -/
structure TreeVal where
  epoch  : Word
  cdig   : BitVec 128
  rdig   : DWord
  mismatch : Bool
  poisoned : Bool
  sums   : List Summary
  digs   : List (BitVec 128 × Bool)
  deriving DecidableEq, Repr

/-- A fabric packet (R366): the header fields and the payload bytes, with the poison marking of its sectors; in place of
bytes, a tree packet carries its values and a relay head the epoch and configuration digest of its sender, whose
layouts the manual does not give. -/
structure Packet where
  type    : BitVec 6
  vc      : BitVec 2
  dnode   : BitVec 14
  snode   : BitVec 14
  sinc    : BitVec 8
  job     : BitVec 20
  window  : BitVec 16
  len     : BitVec 6
  offset  : BitVec 40
  tag     : BitVec 32
  dinc    : BitVec 8
  status  : BitVec 8
  opx     : BitVec 8
  scale   : BitVec 8
  arg     : DWord
  payload : List Byte
  poison  : List Bool
  tree    : Option TreeVal := none
  head    : Option (Word × BitVec 128) := none
  deriving DecidableEq, Repr

/-- A hello control flit of a fabric peer (R355). -/
structure Hello where
  verLo : BitVec 8
  verHi : BitVec 8
  prof  : BitVec 128
  node  : BitVec 14
  ninc  : BitVec 8
  port  : BitVec 8
  isSwitch : Bool
  deriving DecidableEq, Repr

/-- A flit as a port receives it (R348): its header fields, whether its CRC and FEC check (R357), the uncorrectable
codewords and the corrected symbols that its FEC met, and the packets that it completes. -/
structure Flit where
  seq  : BitVec 10
  ack  : BitVec 10
  cvc  : BitVec 2
  cred : BitVec 8
  good : Bool
  badWords : Nat := 0
  corrected : Nat := 0
  packets : List Packet
  deriving DecidableEq, Repr

/-- What a request asks of its home slice (R291, R299, R304). -/
inductive SliceOp where
  | read
  | write (data : List Byte)
  | atomic (fn : BitVec 8) (data cmp : DWord)
  | reduce (op : BitVec 8) (scale : BitVec 8) (data : List Byte)
  /-- One request of a thread group: its operation (ATOM FN), and each lane's byte offset in the sector and value, in
  lane order (R303). -/
  | reduceLanes (fn : BitVec 8) (lanes : List (Nat × DWord))
  | deadHint
  deriving DecidableEq, Repr

/-- A request as it reaches its home slice (R291): who sent it, the context and partition it is charged to, the
device physical address and size, and the operation; info holds the fields that a fault record of the request takes
from its issuer (R58), OPERAND being the virtual address. agent 0 to 351 is a tile index of a launch; 512 and above is
any other agent (R303). -/
structure SliceReq where
  requester : Nat
  agent : Nat
  ctx  : Nat
  part : Nat
  pa   : Nat
  bytes : Nat
  cp   : BitVec 2
  op   : SliceOp
  poison : Bool
  info : FaultInfo := FaultInfo.none
  deriving DecidableEq, Repr

/-- What a patrol read of a sector finds (R307, R308, R317). -/
inductive Finding where
  | clean
  | correctable
  | uncorrectable
  deriving DecidableEq, Repr

/-- A fault of the hardware that its detector has not met yet (R384, R405): the detector, what the finding will be (KIND of
R403), the unit as TARGET of R403 names it (a slice for 0x04 and 0x05), the storage array of it that fails, for a slice its
way (R398), and the physical address for 0x01 to 0x05. -/
structure Latent where
  det    : BitVec 8
  kind   : BitVec 2
  target : Nat
  array  : Nat
  pa     : Nat
  deriving DecidableEq, Repr

/-- What a period of the beat monitors brings: the measured count of each island named (R409), and the faults of the
hardware that have arisen in it (R384). -/
structure BeatIn where
  counts : List (Nat × Nat)
  faults : List Latent
  deriving DecidableEq, Repr

/-- A DIMM as its SPD describes it to boot step 0x0C (R314, R315). -/
structure Dimm where
  mrdimm   : Bool
  capGiB   : Nat
  rate     : Nat
  ranks    : Nat
  width    : Nat
  qualified : Bool
  trains   : Bool
  trainsAlt : Bool
  /-- What its SPD hub identifies it by (R440). -/
  spd      : BitVec 64 := 0
  deriving DecidableEq, Repr

/-- Outcome of a boot step for one unit: whether its primary treatment succeeds, and whether its alternate does
(R416, R417). -/
structure StepTrial where
  step    : Nat
  unit    : Nat
  primary : Bool
  alt     : Bool
  deriving DecidableEq, Repr

/-- A firmware image as the ROM judges it (R424 to R426): header fields, the two signature sets' key hashes and the
bytes they cover. -/
structure Image where
  magic  : Word
  hver   : Word
  len    : DWord
  svn    : Word
  build  : Word
  nsec   : BitVec 8
  stepg  : BitVec 8
  sections : List (BitVec 16 × BitVec 32)
  rsvZero : Bool
  body   : List Byte
  vendorKey : List Byte
  vendorRsa : List Byte
  vendorSlh : List Byte
  ownerSet  : Option (List Byte × List Byte × List Byte)
  deriving DecidableEq, Repr, Inhabited

/-- What the outside world and the parts present to a boot (POWER_UP, MOD_RESET): the step trials that do not pass on
the primary path, the fitted memory, the Sovel hello, and the SMC's random draw. Every unit not named in trials
passes on its primary treatment. -/
structure BootIn where
  trials  : List StepTrial
  dimms   : List (Option Dimm)
  cxlGiB  : List Nat
  sovLo   : BitVec 8
  sovHi   : BitVec 8
  wbase   : DWord
  hashKey : DWord
  /-- The boot hangs after the BEGIN of this step and unit, of the alternate where the flag is set (R417, R419). -/
  interrupted : Option (Nat × Nat × Bool)
  /-- Lanes and rate in GT/s of each CXL link as it trains; a port not named trains x8 at 64 GT/s (R318). -/
  cxlLinks : List (Nat × Nat) := []
  /-- The group of 32 of each wire of the die-to-die bridge that training finds bad (R402). -/
  bridgeBad : List Nat := []
  /-- Entries at the end of the step log that power loss has torn: their CRC fails (R419). -/
  torn : Nat := 0
  /-- Attempts of step 0x04 at training the Sovel lanes after the first (R462). -/
  sovRetries : Nat := 0
  /-- What the CXL device of each port identifies itself by (R440). -/
  cxlIds : List DWord := []
  deriving DecidableEq, Repr

/-- A life-cycle transition request (R433) with the key blocks and signatures that came with it (R434). -/
structure Transition where
  fromSt : BitVec 8
  target : BitVec 8
  devid  : DWord
  ogen   : BitVec 8
  newOwn : BitVec 384
  rsvZero : Bool
  sets   : List (Nat × List Byte × List Byte × List Byte)
  deriving DecidableEq, Repr

/-- The commands and events of the block: one constructor per row of spec/opcode_table.json. -/
inductive Instr where
  -- commands of the command front end (R73)
  | nop (c : CmdRef)
  | timeMark (c : CmdRef)
  | callList (c : CmdRef)
  | objFree (c : CmdRef)
  | ctxCreate (c : CmdRef)
  | ctxConfig (c : CmdRef)
  | ctxSuspend (c : CmdRef)
  | ctxResume (c : CmdRef)
  | contextKill (c : CmdRef)
  | faultResume (c : CmdRef)
  | queueConfig (c : CmdRef)
  | xlatInval (c : CmdRef)
  | objCreate (c : CmdRef)
  | objImport (c : CmdRef)
  | heapBind (c : CmdRef)
  | cmdAbort (c : CmdRef)
  | klaunch (c : CmdRef)
  | copy (c : CmdRef)
  | fill (c : CmdRef)
  | recSnapshot (c : CmdRef)
  | recClear (c : CmdRef)
  | errInjectArm (c : CmdRef)
  | errInjectDisarm (c : CmdRef)
  | errInjectSetFraction (c : CmdRef)
  | dispatchRoute (c : CmdRef)
  | dispatchCombine (c : CmdRef)
  | dispatchConfirm (c : CmdRef)
  | dispatchDiscard (c : CmdRef)
  | routeLoad (c : CmdRef)
  | collReduceScatter (c : CmdRef)
  | collAllReduce (c : CmdRef)
  | collAgree (c : CmdRef)
  | digestCheck (c : CmdRef)
  | rxtWrite (c : CmdRef)
  | rxtReadOut (c : CmdRef)
  | jobEpoch (c : CmdRef)
  | jobEpochDrop (c : CmdRef)
  | updateRun (c : CmdRef)
  | groupWrite (c : CmdRef)
  | groupReadOut (c : CmdRef)
  | groupAssign (c : CmdRef)
  | groupRelease (c : CmdRef)
  | stateMoveOut (c : CmdRef)
  | stateMoveIn (c : CmdRef)
  -- events of the command front end
  | doorbellWrite (ctx queue : Nat) (data : DWord) (stores : List (Nat × Byte))
  | queueBindFromWait
  | packetParse (ctx queue : Nat)
  | commandStart (w : StartOf)
  | arbitrationStarvationGuard (cls : Nat)
  | commandCompletion (c : CmdRef)
  | contextFault (ctx : Nat) (f : FaultInfo)
  | objectRelease (index : Nat)
  | objectScrubComplete (index : Nat)
  | contextEnterScrubbing (ctx : Nat)
  | contextReachFree (ctx : Nat)
  -- allocator instructions
  | halloc (site : Site) (i : CrTr)
  | hallocZ (site : Site) (i : CrTr)
  | hfree (site : Site) (i : CrTr)
  -- control core
  | ccAlu (site : Site) (f : CrF)
  | addi (site : Site) (f : CiF)
  | andi (site : Site) (f : CiF)
  | ori (site : Site) (f : CiF)
  | xori (site : Site) (f : CiF)
  | slti (site : Site) (f : CiF)
  | sltiu (site : Site) (f : CiF)
  | shli (site : Site) (f : CiF)
  | shri (site : Site) (f : CiF)
  | srai (site : Site) (f : CiF)
  | lim (site : Site) (f : ClF)
  | ldD (site : Site) (f : CiF)
  | ldW (site : Site) (f : CiF)
  | stD (site : Site) (f : CiF)
  | stW (site : Site) (f : CiF)
  | beq (site : Site) (f : CbF) (pred : Option DWord)
  | bne (site : Site) (f : CbF) (pred : Option DWord)
  | blt (site : Site) (f : CbF) (pred : Option DWord)
  | bge (site : Site) (f : CbF) (pred : Option DWord)
  | bltu (site : Site) (f : CbF) (pred : Option DWord)
  | bgeu (site : Site) (f : CbF) (pred : Option DWord)
  | jal (site : Site) (f : CjF)
  | jalr (site : Site) (f : CiF) (pred : Option DWord)
  | gStart (site : Site) (f : CrF)
  | gWait (site : Site) (f : CrF)
  | gStat (site : Site) (f : CrF)
  | tcfg (site : Site) (f : CrF)
  | sysNop (site : Site) (f : CrF)
  | endTile (site : Site) (f : CrF)
  | mfenceT (site : Site) (i : CrTi)
  | mfenceM (site : Site) (i : CrTi)
  | mfenceF (site : Site) (i : CrTi)
  | ccBranchResolve (site : Site)
  -- thread instructions
  | integerAlu (site : Site) (g : Nat) (f : TrF)
  | integerAluImmediate (site : Site) (g : Nat) (f : TiF)
  | floatAlu (site : Site) (g : Nat) (f : TrF)
  | conversion (site : Site) (g : Nat) (f : TrF)
  | ld (site : Site) (g : Nat) (f : TiF)
  | st (site : Site) (g : Nat) (f : TiF)
  | lds (site : Site) (g : Nat) (f : TiF)
  | sts (site : Site) (g : Nat) (f : TiF)
  | atom (site : Site) (g : Nat) (f : TrF)
  | pref (site : Site) (g : Nat) (f : TiF)
  | bra (site : Site) (g : Nat) (f : TiF)
  | brz (site : Site) (g : Nat) (f : TiF)
  | brnz (site : Site) (g : Nat) (f : TiF)
  | call (site : Site) (g : Nat) (f : TiF)
  | callr (site : Site) (g : Nat) (f : TiF)
  | jmp (site : Site) (g : Nat) (f : TiF)
  | ret (site : Site) (g : Nat) (f : TiF)
  | threadNop (site : Site) (g : Nat) (f : TiF)
  | exit (site : Site) (g : Nat) (f : TiF)
  | sreg (site : Site) (g : Nat) (f : TiF)
  | barG (site : Site) (g : Nat) (f : TiF)
  | barT (site : Site) (g : Nat) (f : TiF)
  | barTArv (site : Site) (g : Nat) (f : TiF)
  | tokWait (site : Site) (g : Nat) (f : TiF)
  | tokTest (site : Site) (g : Nat) (f : TiF)
  | groupStalledSentinel (site : Site) (g : Nat)
  | runAheadEnter (site : Site) (g : Nat)
  | l1MissReturn (site : Site) (g : Nat)
  -- matrix array
  | mma (site : Site) (g : Nat) (set : BitVec 2) (f : TrF)
  | mdrain (site : Site) (g : Nat) (f : TrF)
  | mzero (site : Site) (g : Nat) (f : TrF)
  | mload (site : Site) (g : Nat) (f : TrF)
  | maccStG (site : Site) (g : Nat) (f : TrF)
  | maccLdG (site : Site) (g : Nat) (f : TrF)
  | mregOpen (site : Site) (g : Nat) (f : TrF)
  | mregClose (site : Site) (g : Nat) (f : TrF)
  | arrayWindow (site : Site) (ready : Nat)
  | matrixVerdict (site : Site) (chk : Checks)
  | drainPathComplete (site : Site)
  -- dispatch engine and speculation events
  | arrivalRecordWrite (c : CmdRef) (expert : Nat)
  | combinePoll (c : CmdRef) (expert : Nat)
  | speculativeFillArrive (line : Nat)
  -- vector engine
  | vectorQueueIssue (site : Site) (i : VInstr)
  | vsetvlW32 (site : Site) (f : CrF)
  | vsetvlW16 (site : Site) (f : CrF)
  | vgetvl (site : Site) (f : CrF)
  | vwait (site : Site) (f : CrF)
  | vhbind (site : Site) (f : CrF)
  | vhclr (site : Site) (f : CrF)
  | vhread (site : Site) (f : CrF)
  | vectorInteger (site : Site) (f : VvF)
  | vectorFp32 (site : Site) (f : VvF)
  | vectorBf16 (site : Site) (f : VvF)
  | vectorConversion (site : Site) (f : VvF)
  | vectorBlockScaleEncode (site : Site) (f : VvF)
  | vectorBlockScaleDecode (site : Site) (f : VvF)
  | vectorReduction (site : Site) (f : VvF)
  | vbcast (site : Site) (f : VvF)
  | vbcastH (site : Site) (f : VvF)
  | viota (site : Site) (f : VvF)
  | vslidedn (site : Site) (f : VvF)
  | vslideup (site : Site) (f : VvF)
  | vperm (site : Site) (f : VvF)
  | vmov (site : Site) (f : VvF)
  | vmvXv (site : Site) (f : VsF)
  | vmvVx (site : Site) (f : VsF)
  | vldS (site : Site) (f : VmF)
  | vldSStr (site : Site) (f : VmF)
  | vldSIdx (site : Site) (f : VmF)
  | vstS (site : Site) (f : VmF)
  | vstSStr (site : Site) (f : VmF)
  | vstSIdx (site : Site) (f : VmF)
  | vldM (site : Site) (f : VmF)
  | vldMStr (site : Site) (f : VmF)
  | vldMIdx (site : Site) (f : VmF)
  | vstM (site : Site) (f : VmF)
  | vstMStr (site : Site) (f : VmF)
  | vstMIdx (site : Site) (f : VmF)
  -- stream engine
  | strmGet (site : Site) (i : CrTr)
  | strmPut (site : Site) (i : CrTr)
  | strmXfer (site : Site) (i : CrTr)
  | strmPref (site : Site) (i : CrTr)
  | strmRget (site : Site) (i : CrTr)
  | strmRput (site : Site) (i : CrTr)
  | strmWait (site : Site) (i : CrTr)
  | strmStat (site : Site) (i : CrTr)
  | strmCancel (site : Site) (i : CrTr)
  | freezeAcquire (site : Site) (slot : Nat)
  | streamRequestIssue (site : Site)
  | streamRequestComplete (site : Site) (slot : Nat) (req : Nat)
  | streamComplete (site : Site) (slot : Nat)
  -- batons
  | batonPut (site : Site) (i : CrTr)
  | batonTake (site : Site) (i : CrTr)
  | batonTry (site : Site) (i : CrTr)
  | bqArm (site : Site) (f : CrF)
  | bqDisarm (site : Site) (f : CrF)
  | bqCount (site : Site) (i : CrTr)
  | deferredBatonPost (site : Site)
  | armedQueueStart (site : Site) (queue : Nat)
  -- message path
  | msgSend (site : Site) (i : CrTr)
  | msgGet (site : Site) (i : CrTr)
  | msgFlush (site : Site) (i : CrTr)
  | messageDelivery (site : Site) (pos : Nat)
  -- slices and channels
  | sliceRequest (r : SliceReq)
  | creditReturn (slice : Nat)
  | channelTransferComplete (sector : Nat) (fnd : Finding)
  | sliceEviction (line : Nat)
  | adderBufferTimeout (sector : Nat)
  | orderedReductionApply (sector : Nat)
  | regulatorWindow (channel : Nat)
  | partitionCommit (data : DWord) (stores : List (Nat × Byte))
  | partitionCommitDone
  | refresh (channel : Nat) (temp : Int)
  | patrolRead (pa : Nat) (fnd : Finding)
  | tierLinkFlitRetry (chip : Nat)
  | tierLinkRetrain (chip : Nat) (pair01 pair23 : Bool)
  | cxlDeviceLost (port : Nat)
  | dimmThermalLimit (dimm : Nat) (temp : Int)
  -- update engines
  | updateGroupHold (c : CmdRef)
  | updateAgree (c : CmdRef)
  | updateChunk (c : CmdRef) (chip : Nat)
  -- fabric
  | laneTraining (port : Nat) (lanes : BitVec 9)
  | hello (port : Nat) (h : Hello)
  | dataFlitReceive (port : Nat) (f : Flit)
  | retryRequest (port : Nat) (seq : BitVec 10)
  | laneFailure (port lane : Nat)
  | readPkt (p : Packet)
  | writePkt (p : Packet)
  | reducePkt (p : Packet)
  | atomicPkt (p : Packet)
  | readRsp (p : Packet)
  | ack (p : Packet)
  | atomicRsp (p : Packet)
  | responseDeadline (tag : BitVec 32)
  | relayHead (p : Packet)
  | relayData (p : Packet)
  | relayTail (p : Packet)
  | treeUp (p : Packet)
  | treeDown (p : Packet)
  -- integrity
  | sampleVerdict (site : Site) (differs : Bool) (badSite : Nat)
  | tileSiteSpare (site : Site)
  | islandWindow (island : Nat)
  | beatMonitorPeriod (b : BeatIn)
  -- power and management
  | powerUp (vin10mV : Nat) (mate : Bool) (cool : BitVec 2) (b : BootIn)
  | modReset (b : BootIn)
  | powerOff (lowMs : Nat)
  | undervoltageTurnOff (vin10mV : Nat) (micros : Nat)
  | overvoltageTurnOff (vin10mV : Nat) (micros : Nat)
  | thermalTrip (island : Nat) (tj : Int)
  | breakerTrip (iin10mA : Nat) (micros : Nat)
  | governorPeriod (pW iin10mA vin10mV : Nat) (tj tinlet : Int)
  | currentEmergency (iin10mA : Nat)
  | recoveryFetch (data : DWord) (stores : List (Nat × Byte))
  | recoveryFetchComplete (img : Image) (b : BootIn)
  | firmwareUpdate (img : Image) (mailbox : Bool)
  | debugUnlock (tdi : BitVec 2048)
  | sovelLinkDown
  | sovelLinkRetrain (lo hi : BitVec 8) (wbase : DWord) (lanes : BitVec 9)
  | windowRead (offset : Nat) (bytes : Nat)
  | windowWrite (offset : Nat) (data : List Byte) (stores : List (Nat × Byte))
  | windowCompareAndSwap (offset : Nat) (expect new : DWord) (stores : List (Nat × Byte))
  | nconsWrite (value : Word) (stores : List (Nat × Byte))
  | mailboxSubmit (data : DWord) (stores : List (Nat × Byte))
  | mctpControl (msg : List Byte)
  | pldmSensorRead (sensor : Nat) (mailbox : Bool)
  | getProgress (mailbox : Bool)
  | getStepLog (first count : Nat) (mailbox : Bool)
  | resetStepLog (mailbox : Bool)
  | setEnvelopeCap (watts : Nat) (mailbox : Bool)
  | submitTransition (t : Transition) (mailbox : Bool)
  | getDebugChallenge (scope : BitVec 8) (mailbox : Bool)
  | debugResponse (keyBlock rsa slh : List Byte) (mailbox : Bool)
  | getPowerStatus (mailbox : Bool)
  | getVersion (mailbox : Bool)
  | getCapabilities (mailbox : Bool)
  | negotiateAlgorithms (req : List Byte) (mailbox : Bool)
  | getDigests (mailbox : Bool)
  | getCertificate (slot offset length : Nat) (mailbox : Bool)
  | challenge (slot : Nat) (nonce : BitVec 256) (mailbox : Bool)
  | getMeasurements (index : Nat) (raw : Bool) (nonce : BitVec 256) (slot : Nat) (mailbox : Bool)
  | setCertificate (slot : Nat) (cert : List Byte) (mailbox : Bool)
  | registerWrite (offset : Nat) (data : DWord) (bytes : Nat) (stores : List (Nat × Byte))
  | idleFlitReceive (port : Nat) (f : Flit)
  | sovelLaneFailure (lane : Nat)
  | cxlMediaErrorReport (port : Nat) (devAddr : Nat)
  | vendorKeyRevocationRequest (slot : Nat) (signer : List Byte) (rsa slh : List Byte)
      (owner : Option (List Byte × List Byte × List Byte))
  | recoveryWaitProgressAdvance
  | platformEventRetrieval
  | mateShortBreak
  | ownerDataWrite (data : List Byte)
  | dynamicAddressAssignment (addr : BitVec 7)
  deriving DecidableEq, Repr

end Sys2Proof
end

