-- ==== Sys2Proof/Decode.lean ====
section
/-! DEFINITION. Words to commands. spec/opcode_table.json gives no row of this block any bits, so no word spells a
command. -/

namespace Sys2Proof

/-- The command that a word spells by the table's bits: none, since the table gives bits to no row (DESIGN CHOICE,
notes/assumptions/28.md). -/
def decodeTableWord (_nbits _w : Nat) : Option Instr := none

end Sys2Proof
end

