-- ==== Sys2Proof/Machine/Bits.lean ====
section
/-! DEFINITION. Bit fields, sign extension and byte order (R8): the helpers that every unit reads its words with. -/

namespace Sys2Proof.Machine

/-- Bits [hi:lo] of a number. -/
def field (x hi lo : Nat) : Nat := (x >>> lo) % 2 ^ (hi + 1 - lo)

/-- Bits [hi:lo] of a 64-bit word, as a number. -/
def fld (x : DWord) (hi lo : Nat) : Nat := field x.toNat hi lo

/-- Bit n of a 64-bit word. -/
def bit (x : DWord) (n : Nat) : Bool := x.toNat.testBit n

/-- A number as a signed value of w bits. -/
def toSigned (w x : Nat) : Int := if x % 2 ^ w < 2 ^ (w - 1) then (x % 2 ^ w : Int) else (x % 2 ^ w : Int) - 2 ^ w

/-- A signed value as the number its w-bit two's complement spells. -/
def ofSigned (w : Nat) (x : Int) : Nat := (x % (2 ^ w : Int)).toNat

/-- The n low bytes of x, lowest first (R8). -/
def leBytes (x n : Nat) : List Byte :=
  match n with
  | 0 => []
  | n + 1 => BitVec.ofNat 8 x :: leBytes (x / 256) n

/-- The number that a little-endian byte string spells (R8). -/
def leNat (bs : List Byte) : Nat :=
  match bs with
  | [] => 0
  | b :: r => b.toNat + 256 * leNat r

/-- x rounded up to a multiple of m. -/
def roundUp (x m : Nat) : Nat := (x + m - 1) / m * m

/-- Number of set bits among the low n bits of x. -/
def popCount (x n : Nat) : Nat :=
  match n with
  | 0 => 0
  | n + 1 => (if x.testBit n then 1 else 0) + popCount x n

/-- Indices below n of the set bits of x, rising. -/
def setBits (x n : Nat) : List Nat := (List.range n).filter x.testBit

/-- Saturating addition on a word of w bits. -/
def satAdd {w : Nat} (a b : BitVec w) : BitVec w :=
  if a.toNat + b.toNat < 2 ^ w then a + b else BitVec.allOnes w

/-- x clamped to lo to hi. -/
def clampInt (x lo hi : Int) : Int := if x < lo then lo else if hi < x then hi else x

/-- The elements of a list at positions pos to pos + n − 1; d past its end. -/
def sliceList {α : Type} (d : α) (l : List α) (pos n : Nat) : List α :=
  (List.range n).map fun i => (l[pos + i]?).getD d

/-- Cut a list into pieces of n elements. -/
def chunksOf {α : Type} (n : Nat) (l : List α) : List (List α) :=
  (List.range ((l.length + n - 1) / n)).map fun i => (l.drop (i * n)).take n

/-- The first reason that a list of conditions gives. -/
def firstReason (l : List (Bool × Nat)) : Option Nat :=
  match l.find? (·.1) with
  | some c => some c.2
  | none => none

end Sys2Proof.Machine
end

