-- ==== Sys2Proof/Machine/Num.lean ====
section
/-! DEFINITION. Numerics (spec/07_numerics.md): the stored formats, exact values, the roundings with overflow and
saturation, seeded stochastic rounding, and the FP32 operations of R107. -/

namespace Sys2Proof.Machine

/-- The floating-point formats of R203. -/
inductive Fmt where
  | f32 | bf16 | f16 | e4m3 | e5m2 | e3m2 | e2m3 | e2m1
  deriving DecidableEq, Repr

/-- Width in bits (R203). -/
def Fmt.bits : Fmt → Nat
  | .f32 => 32 | .bf16 => 16 | .f16 => 16 | .e4m3 => 8 | .e5m2 => 8 | .e3m2 => 6 | .e2m3 => 6 | .e2m1 => 4

/-- Mantissa bits (R203). -/
def Fmt.mant : Fmt → Nat
  | .f32 => 23 | .bf16 => 7 | .f16 => 10 | .e4m3 => 3 | .e5m2 => 2 | .e3m2 => 2 | .e2m3 => 3 | .e2m1 => 1

/-- Exponent bias (R203). -/
def Fmt.bias : Fmt → Nat
  | .f32 => 127 | .bf16 => 127 | .f16 => 15 | .e4m3 => 7 | .e5m2 => 15 | .e3m2 => 3 | .e2m3 => 1 | .e2m1 => 1

/-- Magnitude bits of the largest finite value (R203). -/
def Fmt.maxFin : Fmt → Nat
  | .f32 => 0x7F7FFFFF | .bf16 => 0x7F7F | .f16 => 0x7BFF | .e4m3 => 0x7E | .e5m2 => 0x7B | .e3m2 => 0x1F
  | .e2m3 => 0x1F | .e2m1 => 0x7

/-- The encoding of +infinity, where the format has one (R203). -/
def Fmt.inf : Fmt → Option Nat
  | .f32 => some 0x7F800000 | .bf16 => some 0x7F80 | .f16 => some 0x7C00 | .e5m2 => some 0x7C | _ => none

/-- The default NaN (R207); the formats without NaN give the positive largest finite value (R212). -/
def Fmt.nan : Fmt → Nat
  | .f32 => 0x7FC00000 | .bf16 => 0x7FC0 | .f16 => 0x7E00 | .e4m3 => 0x7F | .e5m2 => 0x7E
  | .e3m2 => 0x1F | .e2m3 => 0x1F | .e2m1 => 0x7

/-- Largest normal exponent emax_f (R228); 127 for FP32. -/
def Fmt.emax : Fmt → Int
  | .f32 => 127 | .bf16 => 127 | .f16 => 15 | .e4m3 => 8 | .e5m2 => 15 | .e3m2 => 4 | .e2m3 => 2 | .e2m1 => 2

/-- An exact value: NaN, an infinity, or m × 2^e with a sign. sticky says that the true magnitude lies strictly
between m × 2^e and (m + 1) × 2^e. -/
inductive Val where
  | nan
  | inf (neg : Bool)
  | fin (neg : Bool) (m : Nat) (e : Int) (sticky : Bool)
  deriving DecidableEq, Repr

/-- Decode the bits of a format (R203, R205: subnormals at their value). -/
def decode (f : Fmt) (b : Nat) : Val :=
  let neg := b.testBit (f.bits - 1)
  let mag := b % 2 ^ (f.bits - 1)
  let ex := mag >>> f.mant
  let mn := mag % 2 ^ f.mant
  let isNan := match f with
    | .e4m3 => mag == 0x7F
    | .e3m2 | .e2m3 | .e2m1 => false
    | _ => decide (mag > f.inf.getD 0)
  let isInf := f.inf == some mag
  if isNan then .nan
  else if isInf then .inf neg
  else if ex = 0 then .fin neg mn (1 - (f.bias : Int) - f.mant) false
  else .fin neg (2 ^ f.mant + mn) ((ex : Int) - f.bias - f.mant) false

/-- Rounding modes of R210; sr carries the drawn number R of R214. -/
inductive RMode where
  | rne | rtz | rdn | rup
  | sr (r : Word)
  deriving DecidableEq, Repr

/-- The mode that a two-bit RND or MOD code names (R107, R143). -/
def RMode.ofCode : Nat → RMode
  | 0 => .rne | 1 => .rtz | 2 => .rdn | _ => .rup

/-- Whether a magnitude n + rem / 2^sh (and sticky beyond) is rounded away from zero (R210, R214). -/
def roundsAway (mode : RMode) (neg : Bool) (n rem sh : Nat) (sticky : Bool) : Bool :=
  let inexact := rem ≠ 0 || sticky
  match mode with
  | .rne => if sh = 0 then false else
      let half := 2 ^ (sh - 1)
      decide (rem > half) || (rem == half && (sticky || n % 2 == 1))
  | .rtz => false
  | .rdn => neg && inexact
  | .rup => !neg && inexact
  | .sr r => inexact && decide (((rem <<< 32) >>> sh) + r.toNat ≥ 2 ^ 32)

/-- Round m × 2^e to a multiple of 2^q: the multiple and whether it was rounded away from zero. -/
def roundAt (mode : RMode) (neg : Bool) (m : Nat) (e : Int) (sticky : Bool) (q : Int) : Nat × Bool :=
  if q ≤ e then (m <<< (e - q).toNat, false)
  else
    let sh := (q - e).toNat
    let n := m >>> sh
    let up := roundsAway mode neg n (m % 2 ^ sh) sh sticky
    (if up then n + 1 else n, up)

/-- Put a sign on magnitude bits. -/
def withSign (f : Fmt) (neg : Bool) (mag : Nat) : Nat := if neg then mag + 2 ^ (f.bits - 1) else mag

/-- The result of an overflow (R211). -/
def overflow (f : Fmt) (mode : RMode) (sat neg : Bool) : Nat :=
  let toMax := match mode with
    | .rtz => true
    | .rdn => !neg
    | .rup => neg
    | _ => false
  if sat || toMax then withSign f neg f.maxFin
  else match f.inf with
    | some i => withSign f neg i
    | none => if f = .e4m3 then 0x7F else withSign f neg f.maxFin

/-- Encode a magnitude n × 2^q that the precision of f holds. -/
def encodeMag (f : Fmt) (n : Nat) (q : Int) : Nat :=
  let (n, q) := if n = 2 ^ (f.mant + 1) then (n / 2, q + 1) else (n, q)
  if n < 2 ^ f.mant then n
  else ((q + f.mant + f.bias).toNat <<< f.mant) + (n - 2 ^ f.mant)

/-- Round an exact value to a format (R205, R207, R210 to R214). -/
def round (f : Fmt) (mode : RMode) (sat : Bool) (v : Val) : Nat :=
  match v with
  | .nan => f.nan
  | .inf neg => match f.inf with
    | some i => withSign f neg i
    | none => if f = .e4m3 then 0x7F else withSign f neg f.maxFin
  | .fin neg m e sticky =>
    if m = 0 ∧ !sticky then withSign f neg 0
    else
      let top : Int := e + (Nat.log2 m : Int)
      let emin : Int := 1 - (f.bias : Int)
      let q := (if top < emin then emin else top) - f.mant
      let maxN := f.maxFin % 2 ^ f.mant + 2 ^ f.mant
      let maxQ := f.emax - f.mant
      let above := decide (q > maxQ) || (q == maxQ && decide ((roundAt .rtz neg m e sticky q).1 ≥ maxN) &&
        (decide ((roundAt .rtz neg m e sticky q).1 > maxN) || sticky || decide (m <<< (e - q).toNat ≠ maxN <<< (q - e).toNat)))
      match mode with
      | .sr r =>
        if above then
          -- R211: above the largest finite value the next magnitude is 2^(emax + 1)
          if q > maxQ then overflow f mode sat neg
          else
            let gap := 2 ^ (f.mant + 1) - maxN
            let part := if q ≤ e then (m <<< (e - q).toNat) - maxN else 0
            let num := if q ≤ e then part <<< 32 else ((m <<< 32) >>> (q - e).toNat) - (maxN <<< 32)
            if num / gap + r.toNat ≥ 2 ^ 32 then overflow f mode sat neg else withSign f neg f.maxFin
        else withSign f neg (encodeMag f (roundAt mode neg m e sticky q).1 q)
      | _ =>
        let n := (roundAt mode neg m e sticky q).1
        if q > maxQ || (q == maxQ && n > maxN) then overflow f mode sat neg
        else withSign f neg (encodeMag f n q)

/-- Whether rounding a finite value overflows the format (R211). -/
def overflows (f : Fmt) (mode : RMode) (v : Val) : Bool :=
  match v with
  | .fin neg m e sticky =>
    let q := e + (Nat.log2 m : Int) - f.mant
    let maxN := f.maxFin % 2 ^ f.mant + 2 ^ f.mant
    let maxQ := f.emax - f.mant
    match mode with
    | .sr r =>
      if q ≠ maxQ then decide (maxQ < q)
      else
        let gap := 2 ^ (f.mant + 1) - maxN
        let num := ((m <<< 32) <<< (e - q).toNat >>> (q - e).toNat) - (maxN <<< 32)
        decide (num / gap + r.toNat ≥ 2 ^ 32)
    | _ => decide (m ≠ 0) && (decide (maxQ < q) || (q == maxQ && decide (maxN < (roundAt mode neg m e sticky q).1)))
  | _ => false

/-- Round to p bits of precision, nearest-even, with an unbounded exponent (the slice format of R155, R217). -/
def roundPrec (p : Nat) (v : Val) : Val :=
  match v with
  | .fin neg m e st =>
    if m = 0 then v
    else
      let q := e + (Nat.log2 m : Int) + 1 - p
      if q ≤ e then v else .fin neg (roundAt .rne neg m e st q).1 q false
  | _ => v

/-- Signed integer of m × 2^e at exponent q ≤ e. -/
def alignTo (q : Int) (neg : Bool) (m : Nat) (e : Int) : Int :=
  let k : Int := (m <<< (e - q).toNat : Nat)
  if neg then -k else k

/-- Exact sum (R213: the sign of an exact zero follows IEEE 754-2019; down is the mode toward −∞). -/
def addV (down : Bool) (a b : Val) : Val :=
  match a, b with
  | .nan, _ => .nan
  | _, .nan => .nan
  | .inf x, .inf y => if x = y then .inf x else .nan
  | .inf x, _ => .inf x
  | _, .inf y => .inf y
  | .fin na ma ea _, .fin nb mb eb _ =>
    if ma = 0 ∧ mb = 0 then .fin (if na = nb then na else down) 0 0 false
    else
      let q := min ea eb
      let s := alignTo q na ma ea + alignTo q nb mb eb
      if s = 0 then .fin down 0 0 false else .fin (decide (s < 0)) s.natAbs q false

/-- Exact product (R217). -/
def mulV (a b : Val) : Val :=
  match a, b with
  | .nan, _ => .nan
  | _, .nan => .nan
  | .inf x, .inf y => .inf (x != y)
  | .inf x, .fin n m _ _ => if m = 0 then .nan else .inf (x != n)
  | .fin n m _ _, .inf y => if m = 0 then .nan else .inf (n != y)
  | .fin na ma ea _, .fin nb mb eb _ => .fin (na != nb) (ma * mb) (ea + eb) false

/-- The value negated. -/
def negV : Val → Val
  | .nan => .nan
  | .inf n => .inf (!n)
  | .fin n m e st => .fin (!n) m e st

/-- The value times 2^s. -/
def scaleV (s : Int) : Val → Val
  | .fin n m e st => .fin n m (e + s) st
  | v => v

/-- Quotient, to at least 80 bits beyond the divisor's (R223). -/
def divV (a b : Val) : Val :=
  match a, b with
  | .nan, _ => .nan
  | _, .nan => .nan
  | .inf _, .inf _ => .nan
  | .inf x, .fin n _ _ _ => .inf (x != n)
  | .fin n _ _ _, .inf y => .fin (n != y) 0 0 false
  | .fin na ma ea _, .fin nb mb eb _ =>
    if mb = 0 then (if ma = 0 then .nan else .inf (na != nb))
    else
      let k := 81 + Nat.log2 mb
      let n := ma <<< k
      .fin (na != nb) (n / mb) (ea - eb - k) (n % mb ≠ 0)

/-- Integer square root, bit by bit from bit k − 1 down. -/
def isqrtFrom (n : Nat) (k r : Nat) : Nat :=
  match k with
  | 0 => r
  | k + 1 => if (r + 2 ^ k) * (r + 2 ^ k) ≤ n then isqrtFrom n k (r + 2 ^ k) else isqrtFrom n k r

/-- ⌊√n⌋. -/
def isqrt (n : Nat) : Nat := isqrtFrom n (Nat.log2 n / 2 + 1) 0

/-- Square root, to at least 80 bits (R223). -/
def sqrtV (a : Val) : Val :=
  match a with
  | .nan => .nan
  | .inf n => if n then .nan else .inf false
  | .fin n m e _ =>
    if m = 0 then .fin n 0 0 false
    else if n then .nan
    else
      let k := 160 + (e % 2).toNat
      let w := m <<< k
      let r := isqrt w
      .fin false r ((e - k) / 2) (r * r ≠ w)

/-- Product of 2^(2^-j) over the set bits of a k-bit binary fraction, first bit heaviest, in 256-bit fixed point;
c is 2^(2^-(j-1)). -/
def exp2Frac (frac k : Nat) (c acc : Nat) : Nat :=
  match k with
  | 0 => acc
  | k + 1 =>
    let c := isqrt (c <<< 256)
    exp2Frac frac k c (if frac.testBit k then (acc * c) >>> 256 else acc)

/-- 2^a (R107, R223). -/
def exp2V (a : Val) : Val :=
  match a with
  | .nan => .nan
  | .inf n => if n then .fin false 0 0 false else .inf false
  | .fin n m e _ =>
    if m = 0 then .fin false 1 0 false
    else if e + (Nat.log2 m : Int) ≥ 10 then .fin false 1 (if n then -5000 else 5000) true
    else
      -- a = i + frac / 2^k, with 0 ≤ frac < 2^k
      let k := (-e).toNat
      let s : Int := if n then -(m <<< e.toNat : Nat) else (m <<< e.toNat : Nat)
      let i := s / (2 ^ k : Int)
      let frac := (s % (2 ^ k : Int)).toNat
      if frac = 0 then .fin false 1 i false
      else .fin false (exp2Frac frac k (2 <<< 256) (1 <<< 256) >>> 16) (i - 240) true

/-- The first k fraction bits of log2 of x / 2^256, 1 ≤ x / 2^256 < 2, by repeated squaring. -/
def log2Frac (x k acc : Nat) : Nat :=
  match k with
  | 0 => acc
  | k + 1 =>
    let y := (x * x) >>> 256
    if y ≥ 2 <<< 256 then log2Frac (y >>> 1) k (2 * acc + 1) else log2Frac y k (2 * acc)

/-- log2 a (R107, R223). -/
def log2V (a : Val) : Val :=
  match a with
  | .nan => .nan
  | .inf n => if n then .nan else .inf false
  | .fin n m e _ =>
    if m = 0 then .inf true
    else if n then .nan
    else
      let top : Int := e + (Nat.log2 m : Int)
      if m = 2 ^ Nat.log2 m then
        .fin (decide (top < 0)) top.natAbs 0 false
      else
        let x := m <<< (256 - Nat.log2 m)
        let t : Int := top * 2 ^ 100 + log2Frac x 100 0
        if t ≥ 0 then .fin false t.natAbs (-100) true else .fin true (t.natAbs - 1) (-100) true

/-- Order of two values: none when either is NaN; −0 equals +0. -/
def cmpV (a b : Val) : Option Ordering :=
  match a, b with
  | .nan, _ => none
  | _, .nan => none
  | .inf x, .inf y => some (if x = y then .eq else if x then .lt else .gt)
  | .inf x, _ => some (if x then .lt else .gt)
  | _, .inf y => some (if y then .gt else .lt)
  | .fin na ma ea _, .fin nb mb eb _ =>
    let q := min ea eb
    some (compare (alignTo q na ma ea) (alignTo q nb mb eb))

def Val.isNan : Val → Bool
  | .nan => true
  | _ => false

def Val.isFinite : Val → Bool
  | .fin .. => true
  | _ => false

def Val.isZero : Val → Bool
  | .fin _ m _ st => m == 0 && !st
  | _ => false

def Val.neg : Val → Bool
  | .nan => false
  | .inf n => n
  | .fin n _ _ _ => n

/-- e(y) of R228 for a finite nonzero value; none otherwise. -/
def expOf : Val → Option Int
  | .fin _ m e _ => if m = 0 then none else some (e + (Nat.log2 m : Int))
  | _ => none

/-- The larger of two optional exponents. -/
def maxExp (a b : Option Int) : Option Int :=
  match a, b with
  | none, b => b
  | a, none => a
  | some x, some y => some (max x y)

/-! ### FP32 operations (R107) -/

def dec32 (x : Word) : Val := decode .f32 x.toNat
def rnd32 (m : RMode) (v : Val) : Word := BitVec.ofNat 32 (round .f32 m false v)
def isRdn : RMode → Bool
  | .rdn => true
  | _ => false

def fadd (m : RMode) (a b : Word) : Word := rnd32 m (addV (isRdn m) (dec32 a) (dec32 b))
def fsub (m : RMode) (a b : Word) : Word := rnd32 m (addV (isRdn m) (dec32 a) (negV (dec32 b)))
def fmul (m : RMode) (a b : Word) : Word := rnd32 m (mulV (dec32 a) (dec32 b))
def ffma (m : RMode) (a b c : Word) : Word := rnd32 m (addV (isRdn m) (mulV (dec32 a) (dec32 b)) (dec32 c))
def fdiv (m : RMode) (a b : Word) : Word := rnd32 m (divV (dec32 a) (dec32 b))
def fsqrt (m : RMode) (a : Word) : Word := rnd32 m (sqrtV (dec32 a))
def fneg (a : Word) : Word := a ^^^ 0x80000000
def fabs (a : Word) : Word := a &&& 0x7FFFFFFF

/-- minimumNumber and maximumNumber of IEEE 754-2019 on a format, −0 below +0 (R107, R207): wantMin selects. -/
def minMaxNum (f : Fmt) (wantMin : Bool) (a b : Nat) : Nat :=
  let va := decode f a
  let vb := decode f b
  match va.isNan, vb.isNan with
  | true, true => f.nan
  | true, false => b
  | false, true => a
  | false, false =>
    let aLess := match cmpV va vb with
      | some .lt => true
      | some .eq => va.neg && !vb.neg
      | _ => false
    if aLess = wantMin then a else b

/-- The seeded draw of R215: mix and R. -/
def mix (z : DWord) : DWord :=
  let z := (z ^^^ (z >>> 30)) * 0xBF58476D1CE4E5B9#64
  let z := (z ^^^ (z >>> 27)) * 0x94D049BB133111EB#64
  z ^^^ (z >>> 31)

/-- The key of R215. -/
def srKey (dom tile group pos sub : Nat) : DWord :=
  BitVec.ofNat 64 (((dom % 16) <<< 60) + ((tile % 512) <<< 51) + ((group % 64) <<< 45) + ((pos % 4096) <<< 33) +
    ((sub % 32) <<< 28))

/-- R of R215: bits [63:32] of h. -/
def srDraw (seed key count : DWord) : Word :=
  BitVec.ofNat 32 (fld (mix (seed ^^^ mix (key ^^^ mix count))) 63 32)

/-! ### Conversions (R108, R212) -/

/-- The conversion formats of R108. -/
inductive CFmt where
  | flt (f : Fmt)
  | i32
  | u32
  deriving DecidableEq, Repr

/-- The format of a conversion code (R108). -/
def CFmt.ofCode : Nat → Option CFmt
  | 0 => some (.flt .f32) | 1 => some (.flt .bf16) | 2 => some (.flt .f16) | 3 => some (.flt .e4m3)
  | 4 => some (.flt .e5m2) | 8 => some .i32 | 9 => some .u32 | _ => none

/-- Width in bits of a conversion format. -/
def CFmt.bits : CFmt → Nat
  | .flt f => f.bits
  | _ => 32

/-- The exact value that the bits of a conversion format spell (R204). -/
def CFmt.value : CFmt → Nat → Val
  | .flt f, b => decode f b
  | .i32, b => let s := toSigned 32 b; .fin (decide (s < 0)) s.natAbs 0 false
  | .u32, b => .fin false (b % 2 ^ 32) 0 false

/-- Conversion to an integer range: rounded, saturated, NaN to 0 (R108). -/
def toIntRange (mode : RMode) (lo hi : Int) (v : Val) : Int :=
  match v with
  | .nan => 0
  | .inf n => if n then lo else hi
  | .fin n m e st =>
    let k : Int := (roundAt mode n m e st 0).1
    clampInt (if n then -k else k) lo hi

/-- A conversion (R108, R210 to R212). -/
def convert (src dst : CFmt) (mode : RMode) (sat : Bool) (b : Nat) : Nat :=
  let v := src.value b
  match dst with
  | .flt f => round f mode sat v
  | .i32 => ofSigned 32 (toIntRange mode (-2147483648) 2147483647 v)
  | .u32 => (toIntRange mode 0 4294967295 v).toNat

/-- A conversion of an infinite source to a format without infinity, of a NaN to one without NaN, or one that overflows such a
format, counts in NONFIN (R212). -/
def countsNonfin (src dst : CFmt) (mode : RMode) (b : Nat) : Bool :=
  match dst with
  | .flt f => f.inf.isNone && (match src.value b with
    | .fin n m e st => overflows f mode (.fin n m e st)
    | .nan => decide (f.bits < 8)
    | _ => true)
  | _ => false

end Sys2Proof.Machine
end

