-- ==== Sys2Proof/Machine/Alu.lean ====
section
/-! DEFINITION. The integer functions of R106 and the float functions of R107, which the control core, the thread
ALU and, through the formats of R252, the vector engine share. -/

namespace Sys2Proof.Machine

/-- Bit reversal of the low w bits. -/
def brev (w x : Nat) : Nat := ((List.range w).map fun i => if x.testBit i then 2 ^ (w - 1 - i) else 0).sum

/-- Leading zeros of a w-bit number. -/
def clz (w x : Nat) : Nat := if x = 0 then w else w - 1 - Nat.log2 x

/-- The integer function fn on w-bit operands (R106): none where fn is reserved. -/
def intFn (w fn a b c : Nat) : Option Nat :=
  let m := 2 ^ w
  let sa := toSigned w a
  let sb := toSigned w b
  match fn with
  | 0x00 => some ((a + b) % m)
  | 0x01 => some ((a + m - b) % m)
  | 0x02 => some (a * b % m)
  | 0x03 => some (ofSigned w ((sa * sb) / (m : Int)))
  | 0x04 => some (a * b / m)
  | 0x05 => some ((a * b + c) % m)
  | 0x06 => some (if b = 0 then m - 1 else ofSigned w (sa.tdiv sb))
  | 0x07 => some (if b = 0 then m - 1 else a / b)
  | 0x08 => some (if b = 0 then a else ofSigned w (sa.tmod sb))
  | 0x09 => some (if b = 0 then a else a % b)
  | 0x0A => some (a &&& b)
  | 0x0B => some (a ||| b)
  | 0x0C => some (a ^^^ b)
  | 0x0D => some (a &&& (m - 1 - b))
  | 0x0E => some ((a <<< (b % w)) % m)
  | 0x0F => some (a >>> (b % w))
  | 0x10 => some (ofSigned w (sa / ((2 : Int) ^ (b % w))))
  | 0x11 => some (if sa ≤ sb then a else b)
  | 0x12 => some (if sa ≤ sb then b else a)
  | 0x13 => some (min a b)
  | 0x14 => some (max a b)
  | 0x15 => some (clz w a)
  | 0x16 => some (popCount a w)
  | 0x17 => some (brev w a)
  | 0x18 => some (if a = b then 1 else 0)
  | 0x19 => some (if a = b then 0 else 1)
  | 0x1A => some (if sa < sb then 1 else 0)
  | 0x1B => some (if a < b then 1 else 0)
  | 0x1C => some (if sa ≤ sb then 1 else 0)
  | 0x1D => some (if a ≤ b then 1 else 0)
  | 0x1E => some (if c ≠ 0 then a else b)
  | _ => none

/-- Sources that an integer function reads: one for CLZ, POPC and BREV, three for MAD and SEL (R106). -/
def intArity (fn : Nat) : Nat :=
  if fn = 0x05 ∨ fn = 0x1E then 3 else if 0x15 ≤ fn ∧ fn ≤ 0x17 then 1 else 2

/-- The float function fn of R107 on operands of a format, rounded once to it (R223): none where fn is reserved. -/
def fltFn (f : Fmt) (fn : Nat) (mode : RMode) (a b c : Nat) : Option Nat :=
  let va := decode f a
  let vb := decode f b
  let rnd (v : Val) : Option Nat := some (round f mode false v)
  let truth (x : Bool) : Option Nat := some (if x then 1 else 0)
  match fn with
  | 0x00 => rnd (addV (isRdn mode) va vb)
  | 0x01 => rnd (addV (isRdn mode) va (negV vb))
  | 0x02 => rnd (mulV va vb)
  | 0x03 => rnd (addV (isRdn mode) (mulV va vb) (decode f c))
  | 0x04 => rnd (divV va vb)
  | 0x05 => rnd (sqrtV va)
  | 0x06 => some (minMaxNum f true a b)
  | 0x07 => some (minMaxNum f false a b)
  | 0x08 => some (a % 2 ^ (f.bits - 1))
  | 0x09 => some (a ^^^ 2 ^ (f.bits - 1))
  | 0x0A => rnd (divV (.fin false 1 0 false) va)
  | 0x0B => rnd (exp2V va)
  | 0x0C => rnd (log2V va)
  | 0x10 => truth (cmpV va vb == some .eq)
  | 0x11 => truth (cmpV va vb == some .lt)
  | 0x12 => truth (cmpV va vb == some .lt || cmpV va vb == some .eq)
  | 0x13 => truth (cmpV va vb).isNone
  | _ => none

/-- The float function fn on FP32 registers (R107). -/
def floatFn (fn : Nat) (mode : RMode) (a b c : Word) : Option Word :=
  (fltFn .f32 fn mode a.toNat b.toNat c.toNat).map (BitVec.ofNat 32)

/-- Sources that a float function reads (R107). -/
def floatArity (fn : Nat) : Nat :=
  if fn = 0x03 then 3 else if fn = 0x05 ∨ (0x08 ≤ fn ∧ fn ≤ 0x0C) then 1 else 2

/-- Whether a float function takes a rounding mode in MOD (R107). -/
def floatRounds (fn : Nat) : Bool := decide (fn ≤ 0x05) || decide (0x0A ≤ fn ∧ fn ≤ 0x0C)

/-- The element function of ATOM (R109) on w-bit values: none where FN is reserved or not of this width. -/
def atomFn (w fn old v cmp : Nat) : Option Nat :=
  let s := toSigned w
  match fn with
  | 0 => some ((old + v) % 2 ^ w)
  | 1 => some (if s old ≤ s v then old else v)
  | 2 => some (if s old ≤ s v then v else old)
  | 3 => some (min old v)
  | 4 => some (max old v)
  | 5 => some (old &&& v)
  | 6 => some (old ||| v)
  | 7 => some (old ^^^ v)
  | 8 => some v
  | 9 => some (if old = cmp then v else old)
  | 0x10 => if w = 32 then some (fadd .rne (BitVec.ofNat 32 old) (BitVec.ofNat 32 v)).toNat else none
  | _ => none

end Sys2Proof.Machine
end

