-- ==== Sys2Proof/Machine/NSet.lean ====
section
/-! DEFINITION. Finite sets of natural numbers, as strictly rising lists: poisoned and dead sectors, frozen sectors,
retired frames. -/

namespace Sys2Proof.Machine

/-- A finite set of natural numbers. -/
abbrev NSet := List Nat

/-- k is in the set. -/
def NSet.has (l : NSet) (k : Nat) : Bool :=
  match l with
  | [] => false
  | j :: r => j == k || NSet.has r k

/-- l with k. -/
def NSet.add (l : NSet) (k : Nat) : NSet :=
  match l with
  | [] => [k]
  | j :: r => if k < j then k :: j :: r else if k = j then j :: r else j :: NSet.add r k

/-- l without k. -/
def NSet.del (l : NSet) (k : Nat) : NSet :=
  match l with
  | [] => []
  | j :: r => if j = k then NSet.del r k else j :: NSet.del r k

/-- l with k, or without it. -/
def NSet.set (l : NSet) (k : Nat) (on : Bool) : NSet := if on then NSet.add l k else NSet.del l k

/-- l without the numbers lo to lo + n − 1. -/
def NSet.delRange (l : NSet) (lo n : Nat) : NSet := l.filter fun k => k < lo || lo + n ≤ k

/-- The numbers rise strictly from lo on. -/
def NSet.risingFrom (lo : Nat) (l : NSet) : Bool :=
  match l with
  | [] => true
  | j :: r => decide (lo ≤ j) && NSet.risingFrom (j + 1) r

end Sys2Proof.Machine
end

