-- ==== Sys2Proof/Config.lean ====
section
/-! DEFINITION. What an implementation fixes and the manual leaves open: the free values of the model, opaque
constants that no proof can see through, and the algorithms the manual takes from other standards by name. -/

namespace Sys2Proof.Config

/-- DESIGN CHOICE, notes/assumptions/2.md. The free values of the model: the n-th value the manual leaves open, as
64 bits of which a use takes what it needs. State.freeCtr supplies n. -/
opaque freeWord : Nat → BitVec 64

/-- DESIGN CHOICE, notes/assumptions/2.md. The slice-hash key that the security and management core draws at each
boot (R286); no agent outside it can read the key. -/
opaque hashKey : BitVec 64

/-- DESIGN CHOICE, notes/assumptions/2.md. The 32-bit identifier by which the fabric transaction unit knows an issuer
(R360), by the model's own key of it. -/
opaque issuerId : Nat → BitVec 32

/-- DESIGN CHOICE, notes/assumptions/3.md. SHA-384 (R425, R433, R443). -/
opaque sha384 : List Byte → BitVec 384

/-- DESIGN CHOICE, notes/assumptions/3.md. RSASSA-PSS verification of R425: key block, 48-byte message digest,
signature. -/
opaque rsaVerify : List Byte → BitVec 384 → List Byte → Bool

/-- DESIGN CHOICE, notes/assumptions/3.md. SLH-DSA-SHA2-192s verification of R425. -/
opaque slhVerify : List Byte → BitVec 384 → List Byte → Bool

/-- DESIGN CHOICE, notes/assumptions/3.md. The SPDM answers that DSP0274 defines and the manual only names (R438):
request code, parameters, and the bytes that enter the answer. -/
opaque spdmAnswer : Nat → List Byte → List Byte

/-- DESIGN CHOICE, notes/assumptions/3.md. The signature pair of an attestation key over a message (R438, R439):
which key, the message. -/
opaque attestSign : Nat → List Byte → List Byte

/-- DESIGN CHOICE, notes/assumptions/3.md. The hash of the debug password, fused at manufacture (R443). -/
opaque debugPasswordHash : BitVec 384

/-- DESIGN CHOICE, notes/assumptions/3.md. The key hashes of the four vendor key slots, in the fuses (R427). -/
opaque vendorKeyHash : Nat → BitVec 384

/-- DESIGN CHOICE, notes/assumptions/3.md. The device identifier of the fuses (R433). -/
opaque devId : BitVec 64

/-- DESIGN CHOICE, notes/assumptions/3.md. The JEDEC identity of the mask ROM, measurement 0x01 (R440). -/
opaque romDigest : BitVec 384

/-- DESIGN CHOICE, notes/assumptions/3.md. The array repair entries that the factory test recorded (R163). -/
opaque factoryRepair : Nat → BitVec 64

/-- DESIGN CHOICE, notes/assumptions/3.md. The delay-margin setting that the factory recorded for each island
(R397). -/
opaque factoryMargin : Nat → BitVec 3

/-- DESIGN CHOICE, notes/assumptions/3.md. Which of the twelve uncore regions of its die holds a slice (R397). -/
opaque sliceRegion : Nat → BitVec 4

/-- DESIGN CHOICE, notes/assumptions/3.md. The firmware image that the flash holds from the factory (R423). -/
opaque factoryImage : Image

/-- DESIGN CHOICE, notes/assumptions/3.md. The digest that a vendor key revocation request of a slot signs, whose layout
the manual does not give (R427). -/
opaque revokeDigest : Nat → BitVec 384

/-- DESIGN CHOICE, notes/assumptions/3.md. The raw value of a measurement block, from its index and the numbers it reports
(R440). -/
opaque measurement : Nat → List Nat → List Byte

/-- DESIGN CHOICE, notes/assumptions/3.md. A PLDM, SPDM or MCTP control message as its standard lays it out: message type,
code, body (R468, R469). -/
opaque frame : Nat → Nat → List Byte → List Byte

/-- DESIGN CHOICE, notes/assumptions/3.md. The fallback states as GetStepLog returns them, whose layout the manual does
not give (R422): by step and unit. -/
opaque fallbackBytes : List (Nat × Nat) → List Byte

end Sys2Proof.Config
end

