-- ==== Sys2Proof/Machine/NMap.lean ====
section
/-! DEFINITION. Sparse tables: lists of key and value pairs in one canonical form, keys strictly rising and no entry
equal to what an unlisted key reads as. Memory, register files and the module's tables are held so. -/

namespace Sys2Proof.Machine

/-- A sparse table keyed by natural numbers. -/
abbrev NMap (β : Type) := List (Nat × β)

/-- The entry of key k, if one is listed. -/
def NMap.find {β : Type} (m : NMap β) (k : Nat) : Option β :=
  match m with
  | [] => none
  | (j, v) :: r => if j = k then some v else NMap.find r k

/-- The value of key k, d where none is listed. -/
def NMap.getD {β : Type} (m : NMap β) (k : Nat) (d : β) : β :=
  match NMap.find m k with
  | some v => v
  | none => d

/-- m without an entry of key k. -/
def NMap.erase {β : Type} (m : NMap β) (k : Nat) : NMap β :=
  match m with
  | [] => []
  | (j, v) :: r => if j = k then NMap.erase r k else (j, v) :: NMap.erase r k

/-- m with the entry (k, v), put where the rising order of the keys has it. -/
def NMap.insert {β : Type} (m : NMap β) (k : Nat) (v : β) : NMap β :=
  match m with
  | [] => [(k, v)]
  | (j, w) :: r =>
    if k < j then (k, v) :: (j, w) :: r
    else if k = j then (k, v) :: r
    else (j, w) :: NMap.insert r k v

/-- Store v at k, where d is what an unlisted key reads as: storing d removes the entry. -/
def NMap.put {β : Type} [DecidableEq β] (d : β) (m : NMap β) (k : Nat) (v : β) : NMap β :=
  if v = d then NMap.erase m k else NMap.insert m k v

/-- Every key of m is at least lo, and the keys rise strictly. -/
def NMap.risingFrom {β : Type} (lo : Nat) (m : NMap β) : Bool :=
  match m with
  | [] => true
  | (j, _) :: r => decide (lo ≤ j) && NMap.risingFrom (j + 1) r

/-- No entry of m holds d. -/
def NMap.noDefault {β : Type} [DecidableEq β] (d : β) (m : NMap β) : Bool :=
  match m with
  | [] => true
  | (_, v) :: r => decide (v ≠ d) && NMap.noDefault d r

/-- The canonical form: rising keys and no listed default. -/
def NMap.wf {β : Type} [DecidableEq β] (d : β) (m : NMap β) : Bool :=
  NMap.risingFrom 0 m && NMap.noDefault d m

end Sys2Proof.Machine
end

