-- ==== Sys2Proof/Machine/State.lean ====
section
/-! DEFINITION. The state of the GV8 block, as plain data: every register, table, store, queue, counter, mode and pin
that the manual gives the module, the waiting commands, and the module right after boot. -/

namespace Sys2Proof.Machine

/-! ### Contexts, objects, heaps (R22 to R55) -/

/-- Word 0 [63:61] of the context descriptor (R24). -/
inductive CtxState where
  | free | active | suspended | faulted | killing | scrubbing
  deriving DecidableEq, Repr

/-- A context descriptor (R24). QMASK is a view of the queue descriptors' BOUND fields and is not stored twice. -/
structure Ctx where
  state    : CtxState
  priv     : Bool
  deadchk  : Bool
  part     : BitVec 6
  job      : BitVec 20
  root     : BitVec 32
  heap0    : Word
  heap1    : Word
  heap2    : Word
  heap3    : Word
  frsize   : BitVec 4
  frbase   : BitVec 42
  /-- Set once a fault ring has been configured; until then context 0 has a ring of size zero (R67). -/
  frset    : Bool
  frprod   : Word
  frcons   : Word
  firstcode : Byte
  frlost   : Word
  fseq     : Word
  objcount : BitVec 20
  objquota : BitVec 20
  seed     : DWord
  /-- Bookkeeping of a teardown for event 0x02 of R411: commands dropped, waits abandoned, bytes scrubbed, and the
  commands that wait for FREE with the RESULT each gets (R75). -/
  dropped  : Nat
  abandoned : Nat
  scrubbed : Nat
  killers  : List (CmdRef × DWord)
  deriving DecidableEq, Repr

/-- The reset value of every context descriptor (R24). -/
def Ctx.empty : Ctx :=
  { state := .free, priv := false, deadchk := false, part := 0, job := 0, root := 0, heap0 := 0, heap1 := 0,
    heap2 := 0, heap3 := 0, frsize := 0, frbase := 0, frset := false, frprod := 0, frcons := 0, firstcode := 0,
    frlost := 0, fseq := 0, objcount := 0, objquota := 0, seed := 0, dropped := 0, abandoned := 0, scrubbed := 0,
    killers := [] }

/-- QSTATE of R64. -/
inductive QState where
  | disabled | enabled | stopped | halted
  deriving DecidableEq, Repr

/-- A command list being parsed in place of a ring (R74). -/
structure ListParse where
  call  : CmdRef
  va    : Nat
  next  : Nat
  stop  : Nat
  deriving DecidableEq, Repr

/-- The context fields under which a queue's traffic goes out (R28). -/
structure Setting where
  part    : BitVec 6
  job     : BitVec 20
  deadchk : Bool
  deriving DecidableEq, Repr

/-- A queue descriptor (R64), with the parse position inside a command list (R74). -/
structure Queue where
  qstate  : QState
  engine  : BitVec 3
  prio    : BitVec 2
  eval    : Bool
  bound   : Bool
  slot    : BitVec 14
  ring    : Word
  tail    : Word
  head    : Word
  cprod   : Word
  ccons   : Word
  retired : Word
  outst   : Word
  /-- The queue uses the rings of the bootstrap block (R67, R472). -/
  bootRings : Bool
  lists   : Option ListParse
  /-- The setting that the queue keeps until its next command boundary, after its context's has changed (R28). -/
  keep    : Option Setting
  deriving DecidableEq, Repr

/-- The reset value of every queue descriptor (R64). -/
def Queue.empty : Queue :=
  { qstate := .disabled, engine := 0, prio := 0, eval := false, bound := false, slot := 0, ring := 0, tail := 0,
    head := 0, cprod := 0, ccons := 0, retired := 0, outst := 0, bootRings := false, lists := none, keep := none }

/-- STATE of an object-table entry (R39). -/
inductive ObjState where
  | free | live | freePending
  deriving DecidableEq, Repr

/-- KIND of an object-table entry (R39). -/
inductive ObjKind where
  | buffer | heap | fence | ring | imported
  deriving DecidableEq, Repr

/-- An object-table entry (R39, R65, R78). Words 1 and 2 hold the layout of the entry's kind. -/
structure Obj where
  state    : ObjState
  kind     : ObjKind
  rights   : BitVec 3
  owner    : BitVec 12
  gen      : BitVec 12
  src      : BitVec 20
  w1       : DWord
  w2       : DWord
  impcount : BitVec 20
  inflight : BitVec 24
  /-- GEN history of R42: every generation but the current one has been issued. -/
  wrapped  : Bool
  /-- The release fence of OBJ_FREE and its value (R43, R47). -/
  relFence : Word
  relVal   : DWord
  /-- The release has cleared the leaves and its scrub is under way; the 64 KiB frames it zeroes (R47 step 4). -/
  scrubbing : Bool
  frames   : List Nat
  deriving DecidableEq, Repr

/-- The reset value of every object-table entry (R39): FREE with GEN = 0x001. -/
def Obj.empty : Obj :=
  { state := .free, kind := .buffer, rights := 0, owner := 0, gen := 1, src := 0, w1 := 0, w2 := 0, impcount := 0,
    inflight := 0, wrapped := false, relFence := 0, relVal := 0, scrubbing := false, frames := [] }

/-- Bookkeeping of a heap (R51 to R55): free and live blocks of the arena, each an offset and a base-2 logarithm of
its size, and the bookkeeping address that names the serving die. -/
structure Heap where
  book : Nat
  free : List (Nat × Nat)
  live : List (Nat × Nat)
  deriving DecidableEq, Repr

/-! ### Commands in flight (R43, R72, R82 to R87) -/

/-- How far a parsed command has come. -/
inductive Phase where
  | waiting | started | done
  deriving DecidableEq, Repr

/-- A parsed command that has not retired. -/
structure Cmd where
  ref    : CmdRef
  order  : Nat
  pktAddr : DWord
  opcode : Byte
  notify : Bool
  serial : Bool
  ignerr : Bool
  tag    : Word
  wfence : Word
  sfence : Word
  wval   : DWord
  sval   : DWord
  w0     : DWord
  w1     : DWord
  w2     : DWord
  w3     : DWord
  /-- Object-table indices on which the command holds a reference (R43). -/
  refs   : List Nat
  /-- A fence wait is pending: the fence's index (R78 WAITERS). -/
  waits  : Option Nat
  phase  : Phase
  /-- Arbitration decisions of the engine class that passed this ready command over (R63). -/
  passed : Nat
  status : Byte
  code   : Byte
  result : DWord
  /-- The completion signals SFENCE with the error bit and this code although the status is COMPLETED (R382). -/
  errSignal : Byte
  /-- Stopped at a preemption point by CTX_SUSPEND (R87, R88). -/
  stopped : Bool
  /-- Position of a preempted copy (R87), or a unit's own progress count. -/
  pos    : Nat
  deriving DecidableEq, Repr

/-- What a standing class R halt stopped (R56, R64). -/
inductive HaltOf where
  | stream (site slot : Nat)
  | update (c : CmdRef) (chip : Nat)
  deriving DecidableEq, Repr

/-- A standing class R halt (R56, R64, R270, R331). -/
structure Halt where
  ctx   : Nat
  queue : Nat
  seq   : Word
  what  : HaltOf
  deriving DecidableEq, Repr

/-! ### Tiles (R93 to R131) -/

/-- A 32-bit register with its poison bit (R112). -/
structure T32 where
  val    : Word
  poison : Bool
  deriving DecidableEq, Repr

/-- A 64-bit register with its poison bit (R112). -/
structure T64 where
  val    : DWord
  poison : Bool
  deriving DecidableEq, Repr

def T32.zero : T32 := { val := 0, poison := false }
def T64.zero : T64 := { val := 0, poison := false }

/-- A thread's wait at a barrier (R119 to R123): at the group barrier (none) or at a tile barrier, the barrier
instruction, the order of arrival, whether its arrival counts in the next phase, and whether it arrived without
waiting (R121). -/
structure BarWait where
  bar   : Option Nat
  pc    : DWord
  order : Nat
  early : Bool
  arv   : Bool
  deriving DecidableEq, Repr

/-- An open phase of the group barrier (R121): its instruction and the threads that have arrived. -/
structure GPhase where
  pc      : DWord
  arrived : Word
  deriving DecidableEq, Repr

/-- An open phase of a tile barrier (R121, R122): its mask and the threads that have arrived, group by group, and
the arrivals that count in the next phase with their mask. -/
structure TPhase where
  mask    : DWord
  arrived : NMap Word
  nextMask : DWord
  nextArr : NMap Word
  deriving DecidableEq, Repr

/-- Registers bound to a token by a group-wide matrix instruction (R168): registers lo to lo + n − 1 of the lanes of
mask, written (dst) or read by the transfer. -/
structure RegBind where
  token : Nat
  dst   : Bool
  lo    : Nat
  n     : Nat
  mask  : Word
  deriving DecidableEq, Repr

/-- A register field and the number of registers that it names. -/
structure RegUse where
  r : Nat
  n : Nat
  deriving DecidableEq, Repr

/-- What a group of the pending set waits for (R115): registers that its next instruction names, tokens, the end of
streams, a free stream slot, a baton in a queue of its tile, room in a queue of a tile site, or what only its next try can tell. -/
inductive GWait where
  | regs (uses : List RegUse) (dst : Option RegUse)
  | tokens (mask : Nat)
  | streams (mask : Nat)
  | slot (k : Nat)
  | take (queue : Nat)
  | post (site queue : Nat)
  | other
  deriving DecidableEq, Repr

/-- One thread group slot (R93, R101, R111). -/
structure TGroup where
  running  : Bool
  regs     : NMap T32
  pcs      : NMap DWord
  depths   : NMap Nat
  exited   : Word
  barWait  : NMap BarWait
  gphase   : Option GPhase
  tokens   : BitVec 8
  region   : Option Word
  matCount : Nat
  srCount  : NMap Nat
  sentinel : Nat
  /-- Destination registers of loads that missed the L1 and have not returned, keyed lane × 256 + register. -/
  missPend : List Nat
  bound    : List RegBind
  /-- The group holds a run-ahead slot (R128). -/
  runAhead : Bool
  /-- The group waits in the pending set and is not eligible (R115). -/
  parked   : Bool
  waitsOn  : Option GWait
  /-- Lanes that have performed their part of an instruction that waits (R114, R274, R278). -/
  laneDone : Word
  deriving DecidableEq, Repr

/-- A group slot that has not been started. -/
def TGroup.empty : TGroup :=
  { running := false, regs := [], pcs := [], depths := [], exited := 0xFFFFFFFF, barWait := [], gphase := none,
    tokens := 0, region := none, matCount := 0, srCount := [], sentinel := 0, missPend := [], bound := [],
    runAhead := false, parked := false, waitsOn := none,
    laneDone := 0 }

/-- Kind of an accumulator set (R139). -/
inductive AccKind where
  | empty | float | int
  deriving DecidableEq, Repr

/-- One element of an accumulator set: sum, error term, poison (R139, R170). -/
structure AccCell where
  sum    : Word
  err    : Word
  poison : Bool
  deriving DecidableEq, Repr

def AccCell.zero : AccCell := { sum := 0, err := 0, poison := false }

/-- An accumulator set (R139); cells keyed 64 i + j. -/
structure AccSet where
  kind  : AccKind
  cells : NMap AccCell
  deriving DecidableEq, Repr

/-- An accepted matrix instruction that has not completed its token (R140, R148). -/
inductive MatKind where
  | mma (fa fb : BitVec 4) (z : Bool) (aOff bOff : Nat)
  | mdrain (fmt : BitVec 4) (clr tr : Bool) (off : Nat)
  | mzero (sets : BitVec 4)
  | mload (fmt : BitVec 4) (kInt : Bool) (off : Nat)
  | stG (frag : Nat) (fmt : BitVec 2) (base : Nat)
  | ldG (frag : Nat) (fmt : BitVec 2) (base : Nat)
  deriving DecidableEq, Repr

/-- What called for a replay (R161, R403): a fault in one data cell, one not located to a cell, or an injection. -/
inductive ReplayCause where
  | cell | spread | injected
  deriving DecidableEq, Repr

/-- A matrix instruction that the array has accepted and whose token has not completed (R140, R148, R162). -/
structure MatInst where
  kind  : MatKind
  set   : Nat
  opts  : DWord
  token : Nat
  group : Nat
  mask  : Word
  pc    : DWord
  count : Nat
  /-- Slots of the span fed so far, and in all (R149, R177). -/
  fed   : Nat
  slots : Nat
  /-- The operand bytes captured by the replay buffer (R162, R169): A, B, scales, metadata, bitmaps, with the
  tile-store sectors that were poisoned. -/
  store : NMap Byte
  storePoison : List Nat
  replayed : Bool
  /-- An injection of detector 0x0A fired at its first verdict, of KIND 1: its replay fails as well (R403). -/
  doomed : Bool
  /-- The failing row and column of the verdict that called for the replay, 0x7F for none, and what it was. -/
  row : Nat
  col : Nat
  cause : ReplayCause
  deriving DecidableEq, Repr

/-- The matrix array of a tile (R132 to R171). -/
structure MatArray where
  acc0 : AccSet
  acc1 : AccSet
  acc2 : AccSet
  acc3 : AccSet
  accepted : List MatInst
  /-- Activity of the last window, windows left of the hold, and whether a valid slot has been fed (R165, R166). -/
  lastAct  : Nat
  holdLeft : Nat
  /-- Valid slots and span bubbles of a window that R152 holds before its end. -/
  winDone  : Option (Nat × Nat)
  deriving DecidableEq, Repr

def AccSet.none : AccSet := { kind := .empty, cells := [] }

def MatArray.empty : MatArray :=
  { acc0 := .none, acc1 := .none, acc2 := .none, acc3 := .none, accepted := [], lastAct := 0, holdLeft := 0,
    winDone := none }

/-- A vector instruction in the vector queue (R247, R248): the instruction, what was read from the control core at
issue, vl at issue, its address, and its stochastic-rounding count (R216). -/
structure VEntry where
  instr  : VInstr
  scalar : T64
  stride : T64
  vl     : Nat
  pc     : DWord
  srCount : Nat
  deriving DecidableEq, Repr

/-- An exponent-histogram unit and its record (R233, R234, R258). -/
structure Hist where
  bind   : Option Nat
  base   : BitVec 16
  emax   : BitVec 16
  amax   : Word
  zero   : Word
  nonfin : Word
  below  : Word
  above  : Word
  bins   : NMap Word
  total  : DWord
  deriving DecidableEq, Repr

/-- The reset record of R234, unbound (R246). -/
def Hist.reset : Hist :=
  { bind := none, base := 0xFF80, emax := 0x8000, amax := 0, zero := 0, nonfin := 0, below := 0, above := 0,
    bins := [], total := 0 }

/-- The vector engine of a tile (R243 to R261). regs and poison are keyed register × 4096 + byte: an element's poison
bit stands at each of its bytes. -/
structure VecUnit where
  regs   : NMap Byte
  /-- The registers hold the unspecified values that an earlier launch of the context left (R94): register bytes are
  held as differences from free values that begin here. -/
  junk   : Option Nat
  poison : List Nat
  vl     : Nat
  queue  : List VEntry
  srCount : Nat
  h0 : Hist
  h1 : Hist
  h2 : Hist
  h3 : Hist
  deriving DecidableEq, Repr

def VecUnit.reset : VecUnit :=
  { regs := [], junk := none, poison := [], vl := 0, queue := [], srCount := 0, h0 := .reset, h1 := .reset, h2 := .reset,
    h3 := .reset }

/-- A sector in a cache of a tile or a stream: 64 bytes and their poison marking (R289, R392). -/
structure Sector where
  data   : List Byte
  poison : Bool
  deriving DecidableEq, Repr

/-- Where a stream stands (R262 to R271). -/
inductive StrmState where
  | waitFreeze | active | halted
  /-- It has completed, and its baton has met a full queue (R274). -/
  | posting
  deriving DecidableEq, Repr

/-- A stream in a slot: its kind, its descriptor (R263), the issuer's instruction, and its requests, each named by
row × 2^24 + byte: the next to issue, the issued ones not yet performed, and those that met a fault, which the position
does not pass (R270). -/
structure Strm where
  kind   : Nat
  d0 : DWord
  d1 : DWord
  d2 : DWord
  d3 : DWord
  d4 : DWord
  d5 : DWord
  d6 : DWord
  d7 : DWord
  pc     : DWord
  group  : Option Nat
  st     : StrmState
  next   : Nat
  issued : List Nat
  failed : List Nat
  /-- The frozen device sectors (R268), and the source sectors that it has read, by address / 64 (R267). -/
  frozen : List Nat
  seen   : NMap Sector
  deriving DecidableEq, Repr

/-- A baton queue (R273, R275): its batons with their poison, and its arming (entry, group). -/
structure BQueue where
  items : List T64
  armed : Option (DWord × Nat)
  deriving DecidableEq, Repr

def BQueue.empty : BQueue := { items := [], armed := none }

/-- A baton of a stream (its slot) or a message (none) that met a full queue (R274): the tile site and queue it goes
to. -/
structure Deferred where
  slot  : Option Nat
  site  : Nat
  queue : Nat
  baton : T64
  /-- Its place in the order in which batons have met full queues (R273). -/
  order : Nat
  deriving DecidableEq, Repr

/-- A message on the message path (R279, R280). issuer is none for the control core, else group × 32 + lane. -/
structure Msg where
  issuer : Option Nat
  w0     : DWord
  w1     : DWord
  payload : List Byte
  poison : Bool
  pc     : DWord
  deriving DecidableEq, Repr

/-- The state kept while the control core runs past an unresolved branch (R102): its registers before the branch and
the address the branch really goes to. -/
structure CcSpec where
  regs   : NMap T64
  target : DWord
  guess  : DWord
  /-- Instructions from the branch on that retire, or are discarded, when it resolves. -/
  done   : Nat
  deriving DecidableEq, Repr

/-- A sample whose verdict has not come (R387, R389): the group, or none for the vector engine, the sampled instruction's
address and threads, the element group, whether its check fails by injection, and the instructions issued since. -/
structure Sample where
  group : Option Nat
  pc    : DWord
  mask  : Word
  part  : Nat
  bad   : Bool
  age   : Nat
  deriving DecidableEq, Repr

/-- One tile site (R93). -/
structure Tile where
  /-- The launch that holds the tile, and the tile's index in it (R94, R95). -/
  launch  : Option CmdRef
  index   : Nat
  /-- The logical tile number at the launch's start (R97). -/
  logical : Nat
  /-- The context whose launch last held the site (R94). -/
  lastCtx : Option Nat
  ccRegs  : NMap T64
  ccPc    : DWord
  spec    : Option CcSpec
  /-- Samples whose verdicts have not come, oldest first (R389). -/
  samples : List Sample
  runAheadOn : Bool
  /-- Groups that a G.START in progress has still to start (R101). -/
  startLeft : Option DWord
  groups  : NMap TGroup
  /-- Groups of the active set and eligible groups, in order (R115). -/
  active  : List Nat
  eligible : List Nat
  /-- Counts barrier arrivals on the tile, to order them (R123). -/
  arrivals : Nat
  bars    : NMap TPhase
  store   : NMap Byte
  /-- As VecUnit.junk, for the tile store. -/
  storeJunk : Option Nat
  storePoison : List Nat
  /-- The L1 and the instruction cache, by sector address, and the L1 miss registers in use, each with the group and the
  sector that it serves (R93, R131, R289). -/
  l1      : NMap Sector
  l1Miss  : List (Nat × Nat)
  icache  : NMap Sector
  array   : MatArray
  vec     : VecUnit
  streams : NMap Strm
  strmRr  : Nat
  bqs     : NMap BQueue
  /-- Of each group the queue to serve next among those armed on it (R275). -/
  bqRr    : NMap Nat
  deferred : List Deferred
  msgs    : List Msg
  /-- Count of eligible work of the site (R387). -/
  sampleCount : Nat
  deriving DecidableEq, Repr

/-- A tile site that no launch has held since the zeroing of boot step 0x0F (R436). -/
def Tile.empty : Tile :=
  { launch := none, index := 0, logical := 0, lastCtx := none, ccRegs := [], ccPc := 0, spec := none, samples := [],
    runAheadOn := true, startLeft := none, groups := [],
    active := [], eligible := [], arrivals := 0, bars := [], store := [], storeJunk := none, storePoison := [], l1 := [], l1Miss := [], icache := [],
    array := .empty, vec := .reset, streams := [], strmRr := 0, bqs := [], bqRr := [], deferred := [], msgs := [],
    sampleCount := 0 }

/-- A launch in progress (R94 to R98): its tile sites in tile-index order, its resources, and the tile indices whose
part has ended. saved holds the tiles of a suspended launch by tile index, with their dies (R88). -/
structure Launch where
  cmd    : CmdRef
  ctx    : Nat
  sites  : List Nat
  groups : Nat
  regs   : Nat
  store  : Nat
  code   : DWord
  arg    : DWord
  ended  : List Nat
  saved  : NMap Tile
  deriving DecidableEq, Repr

/-! ### Memory hierarchy (R282 to R311) -/

/-- A cached translation (R36): context, page number at 64 KiB, and the leaf that was read. -/
structure Xlat where
  ctx  : Nat
  page : Nat
  leaf : DWord
  lvl  : Nat
  deriving DecidableEq, Repr

/-- A word that a translation table held before a change, which the module may still have cached (R36): its address, and
the place of the change in the order of changes and invalidations. -/
structure OldPte where
  at_   : Nat
  word  : DWord
  stamp : Nat
  deriving DecidableEq, Repr

/-- A completed invalidation of cached translations (R36): n pages of a context from page first on. -/
structure Inval where
  ctx   : Nat
  first : Nat
  n     : Nat
  stamp : Nat
  deriving DecidableEq, Repr

/-- A line held in its home slice (R288, R290, R295): its way, the bytes written since the last write-back, the sectors
fetched whole from the channel, the sectors whose poison it keeps itself, and the partition of the last writer. -/
structure SLine where
  way    : Nat
  dirty  : NMap Byte
  filled : List Nat
  poisonOn  : List Nat
  poisonOff : List Nat
  part   : Nat
  deriving DecidableEq, Repr

/-- A speculative fill (R196 to R200), one per line, and the way it takes. -/
structure SpecFill where
  way   : Nat
  ctx   : Nat
  epoch : Nat
  entry : Nat
  arrived   : Bool
  confirmed : Bool
  deriving DecidableEq, Repr

/-- A speculation epoch of a context that is open (R197), and the run that opened it. -/
structure Epoch where
  ctx   : Nat
  epoch : Nat
  run   : CmdRef
  deriving DecidableEq, Repr

/-- A miss register of a slice (R297): whether it holds a forwarded request, whether it is the register kept for the
oldest waiting request (R298), and its waiters in order. -/
structure Miss where
  fwd     : Bool
  kept    : Bool
  waiters : List SliceReq
  deriving DecidableEq, Repr

/-- A request that waits in a bank or transit queue of its slice, or that its requester holds after a refusal (R298): its
place in the order of arrival, and the later requests for its sector that have joined it (R297). -/
structure Waiting where
  num    : Nat
  req    : SliceReq
  joined : List SliceReq
  deriving DecidableEq, Repr

/-- An answer of a slice or the fabric to a requester. -/
structure Answer where
  requester : Nat
  data   : List Byte
  poison : Bool
  status : Byte
  deriving DecidableEq, Repr

/-- One entry of the partition control block (R293). -/
structure PartEntry where
  w0 : DWord
  w1 : DWord
  w2 : DWord
  w3 : DWord
  deriving DecidableEq, Repr

/-- The reset entry of R293: PINW 0, LIMIT 0x40, WEIGHT 8. -/
def PartEntry.reset : PartEntry :=
  { w0 := 0x0810000000000000, w1 := 0, w2 := 0, w3 := 0 }

/-! ### Dispatch engine (R181 to R202) -/

/-- A route entry (R181): its four words, and how often ROUTE_LOAD has rewritten it (R195). -/
structure Route where
  w0 : DWord
  w1 : DWord
  w2 : DWord
  w3 : DWord
  loads : Nat
  deriving DecidableEq, Repr

def Route.empty : Route := { w0 := 0, w1 := 0, w2 := 0, w3 := 0, loads := 0 }

/-- An expert's part of a dispatch run: its route entry as the run read it, its count, whether its arrival record has
been sent or its output record has matched, and of its output rows the bytes asked for and the bytes and poisoned
sectors received. -/
structure DispPart where
  expert : Nat
  route  : Route
  count  : Nat
  done   : Bool
  asked  : Nat
  rows   : NMap Byte
  bad    : List Nat
  deriving DecidableEq, Repr

/-- A piece of a token row still to be sent: its expert, its fabric offset, its source and its size. -/
structure SendPiece where
  expert : Nat
  offset : Nat
  va     : Nat
  bytes  : Nat
  deriving DecidableEq, Repr

/-- A dispatch run in progress: its descriptor as read, its parts by ascending expert, the pieces to send, and the
RESULT it will have. -/
structure DispRun where
  cmd   : CmdRef
  desc  : List DWord
  combine : Bool
  parts : List DispPart
  sends : List SendPiece
  result : DWord
  deriving DecidableEq, Repr

/-! ### Tier chips and update engines (R312 to R345) -/

/-- State of a tier link (R313, R408 type 0x07). -/
inductive TierLink where
  | four | two | down
  deriving DecidableEq, Repr

/-- A tier chip: its link, its two DIMM capacities in GiB (0: channel idle), their type, whether their command rate
is halved (R460), their channel speed in MT/s (R314), and its CXL device's populated size in GiB, lost or not, with the lanes and
the rate of its link (R318, R319). -/
structure TierChip where
  link   : TierLink
  /-- Flits of the link in the present run of 2^20, and the retries among them (R313). -/
  flits  : Nat
  retries : Nat
  dimmA  : Nat
  dimmB  : Nat
  mrdimm : Bool
  x4     : Bool
  slowA  : Bool
  slowB  : Bool
  speed  : Nat
  cxl    : Nat
  cxlLost : Bool
  cxlLanes : Nat
  cxlRate : Nat
  /-- SPD identifiers of the DIMMs in use and the identifier of the CXL device in use (R440). -/
  spdA   : DWord
  spdB   : DWord
  cxlId  : DWord
  /-- CXL_PERST_N of the port (R459): true while asserted. -/
  perst  : Bool
  deriving DecidableEq, Repr

/-- A tier chip with nothing fitted (DESIGN CHOICE, notes/assumptions/8.md). -/
def TierChip.empty : TierChip :=
  { link := .four, flits := 0, retries := 0, dimmA := 0, dimmB := 0, mrdimm := true, x4 := true, slowA := false, slowB := false,
    speed := 0, cxl := 0, cxlLost := false, cxlLanes := 0, cxlRate := 0, spdA := 0, spdB := 0,
    cxlId := 0, perst := false }

/-- A parameter group entry (R321): its sixteen words, keyed by word; unlisted words hold the reset value. -/
abbrev GroupEntry := NMap DWord

/-- A run-list entry as the engine read it (R326). -/
structure RunEntry where
  w0 : DWord
  gva : DWord
  wva : DWord
  rva : DWord
  deriving DecidableEq, Repr

/-- Running sums of R255 for a group pass (R339), one per lane of the tree: lane and FP32 bits. -/
structure PassAcc where
  chunk  : Nat
  wn2    : NMap Word
  un2    : NMap Word
  /-- Lanes that hold a sum. -/
  emaxW  : Option Int
  emax1  : Option Int
  emax2  : Option Int
  digM   : BitVec 128
  digW   : BitVec 128
  guard  : Nat
  deriving DecidableEq, Repr

def PassAcc.start : PassAcc :=
  { chunk := 0, wn2 := [], un2 := [], emaxW := none, emax1 := none, emax2 := none, digM := 0, digW := 0,
    guard := 0 }

/-- Phases of an update-class command (R328, R329). -/
inductive UpdPhase where
  | hold | agree | skip | pass
  deriving DecidableEq, Repr

/-- An update run in progress: for each tier chip pos counts the entries of its own that it has ended, and acc holds the
pass of the one under way; a run that skips counts in pos 0 the result records written. Of a STATE_MOVE that a class R
fault has halted, pos 0 holds the bytes moved and acc 0 their digest. -/
structure UpdRun where
  cmd    : CmdRef
  step   : Word
  list   : List RunEntry
  phase  : UpdPhase
  pos    : NMap Nat
  acc    : NMap PassAcc
  guard  : Nat
  deriving DecidableEq, Repr

/-! ### Fabric and collectives (R346 to R382) -/

/-- A receive translation entry (R363). -/
structure Rxt where
  w0 : DWord
  w1 : DWord
  w2 : DWord
  w3 : DWord
  deriving DecidableEq, Repr

def Rxt.empty : Rxt := { w0 := 0, w1 := 0, w2 := 0, w3 := 0 }

/-- PSTATE of R354. -/
inductive PState where
  | off | down | trained | quarantine | active
  deriving DecidableEq, Repr

/-- A packet in a port's replay buffer (R357): the SEQ of its last flit, the flits it takes, the key of its issuer
(R360), and the packet. -/
structure Unacked where
  seq    : BitVec 10
  flits  : Nat
  issuer : Nat
  packet : Packet
  deriving DecidableEq, Repr

/-- A flit other than a data flit that a port has sent (R348): an idle flit with the acknowledgement and the credits that it
brings, a retry request that names the expected SEQ (R357), a hello (R355), or a lane map with the lanes in use (R358). -/
inductive SentFlit where
  | idle (seq ack : BitVec 10) (cvc : BitVec 2) (cred : BitVec 8)
  | retry (seq : BitVec 10)
  | hello (h : Hello)
  | laneMap (lanes : BitVec 9)
  deriving DecidableEq, Repr

/-- Credits that a sent packet has taken and its peer has not returned yet (R379): the virtual channel, the key of the
issuer, and their number. -/
structure Owed where
  vc     : Nat
  issuer : Nat
  n      : Nat
  deriving DecidableEq, Repr

/-- A fabric port: its status record (R354), its link-layer retry state (R357) and its credits (R348, R366). -/
structure Port where
  pstate  : PState
  qreason : BitVec 4
  lanes   : BitVec 9
  ver     : Byte
  peerport : Byte
  peersw  : Bool
  peerinc : Byte
  peernode : BitVec 14
  retries : Word
  changes : Word
  peerprof : BitVec 128
  failed  : BitVec 9
  txSeq   : BitVec 10
  rxSeq   : BitVec 10
  /-- A discard has begun and a retry request is outstanding (R357). -/
  rxGap   : Bool
  replay  : List Unacked
  /-- Bytes left in the last data flit, in which the next packet may begin (R348). -/
  room    : Nat
  /-- Credits taken and not yet returned, oldest first (R379). -/
  owed    : List Owed
  cred0   : Int
  cred1   : Int
  cred2   : Int
  /-- The lanes of the enabled port may train (R353, R355). -/
  training : Bool
  deriving DecidableEq, Repr

/-- The port record at reset (R346, R354) (DESIGN CHOICE, notes/assumptions/46.md). -/
def Port.reset : Port :=
  { pstate := .off, qreason := 0, lanes := 0x0FF, ver := 0, peerport := 0, peersw := false, peerinc := 0,
    peernode := 0, retries := 0, changes := 0, peerprof := 0, failed := 0, txSeq := 0, rxSeq := 0, rxGap := false,
    replay := [], room := 0, owed := [], cred0 := 0, cred1 := 0, cred2 := 0, training := false }

/-- What issued a remote request (R367, R368). -/
inductive RemoteOf where
  | stream (site slot req : Nat)
  | msgSend (site : Nat) (issuer : Option Nat)
  | msgGet (site : Nat) (issuer : Option Nat) (reg : Nat)
  | dispatchRow (c : CmdRef) (expert : Nat)
  | arrival (c : CmdRef) (expert : Nat)
  | combine (c : CmdRef) (expert : Nat) (row : Nat)
  deriving DecidableEq, Repr

/-- A remote request whose response has not arrived (R362, R368). -/
structure Remote where
  what   : RemoteOf
  ctx    : Nat
  queue  : Nat
  node   : BitVec 14
  window : BitVec 16
  offset : BitVec 40
  bytes  : Nat
  pc     : DWord
  /-- The request is a READ (R367). -/
  read   : Bool := false
  deriving DecidableEq, Repr

/-- A job record (R373, R381): epoch, configuration digest, and the flags of the last 256 steps that have become
final, oldest first. -/
structure Job where
  epoch : Word
  cdig  : BitVec 128
  flags : List (Word × Bool)
  deriving DecidableEq, Repr

/-- A bucket of a data run on this member (R377 to R379): the scale in its head, the final bytes gathered, its flags, the
status that its head gave it, whether a head of the present pass has come, and whether the member has done its part of
the running sum and of the result's pass. -/
structure Bucket where
  index : Nat
  s     : BitVec 8
  acc   : NMap Byte
  nf    : Bool
  ov    : Bool
  status : BitVec 8
  headIn : Bool
  sum   : Bool
  fin   : Bool
  deriving DecidableEq, Repr

/-- Rounds of a collective run: the open round and, for agree and digest runs, the round of their own, each before and
after the member's TREE.UP; the relays of a data run; and what is left after them (DESIGN CHOICE,
notes/assumptions/69.md). -/
inductive CollPhase where
  | openUp | openWait | roundUp | roundWait | data | finished
  deriving DecidableEq, Repr

/-- A collective run in progress (R374 to R382). mode 3 stands for DIGEST_CHECK, whose digests lie at src, belems of
them. epoch is none where the job has no record (R373). kids holds the TREE.UP values of the present round by member;
out the packets still to be sent, in order; fail the first nonzero status received. An aborted run has no command any
more and only serves the other members. -/
structure CollRun where
  cmd    : CmdRef
  job    : BitVec 20
  step   : Word
  mode   : Nat
  fmt    : Nat
  bid0   : Nat
  nb     : Nat
  belems : Nat
  n      : Nat
  me     : Nat
  members : List (BitVec 14)
  src    : Nat
  dst    : Nat
  stab   : Nat
  init   : Bool
  s0     : BitVec 8
  h0     : BitVec 4
  epoch  : Option (Word × BitVec 128)
  rdig   : DWord
  phase  : CollPhase
  kids   : NMap TreeVal
  buckets : List Bucket
  out    : List Packet
  fail   : BitVec 8
  aborted : Bool
  /-- An injection has inverted a bit of a digest that the member sent (R403, R410). -/
  injected : Bool := false
  deriving DecidableEq, Repr

/-! ### Integrity and the event recorder (R384 to R414) -/

/-- An island (R397, R398): trim, margin, rung and the counts toward its triggers. -/
structure Island where
  trim   : BitVec 2
  margin : BitVec 3
  rung   : BitVec 3
  /-- Cells and check cells with one event in this window (T1, T2). -/
  cells  : List Nat
  checks : List Nat
  /-- Correctable findings of each storage array in this window, keyed detector × 65,536 + array (T4). -/
  arrays : NMap Nat
  /-- Canary trips of this window (T5). -/
  trips  : Nat
  deriving DecidableEq, Repr

def Island.reset : Island :=
  { trim := 0, margin := 0, rung := 0, cells := [], checks := [], arrays := [], trips := 0 }

/-- An armed injection (R403, R404). -/
structure Injection where
  det    : Byte
  kind   : BitVec 2
  ctx    : Nat
  target : BitVec 16
  va     : BitVec 52
  deriving DecidableEq, Repr

/-- A log entry of the event recorder (R410), its EVENT, SEQ and the words it carries. -/
structure LogEntry where
  event : Byte
  die   : BitVec 1
  inj   : Bool
  queue : BitVec 4
  ctx   : BitVec 12
  seq   : Word
  arg0  : DWord
  arg1  : DWord
  arg2  : DWord
  deriving DecidableEq, Repr

/-! ### Boot, life cycle, power and the Sovel link (R415 to R471) -/

/-- Where the module stands in its life between power-on and power-off. -/
inductive Run where
  /-- Powered off. -/
  | off
  /-- In boot step 0x05, waiting for a recovery image (R429). -/
  | recovery
  /-- A boot hangs in a step (R417, R419). -/
  | hang
  /-- SCRAPPED: the ROM has stopped after step 0x04 (R441). -/
  | scrapped
  /-- A module stop stands (R385). -/
  | stop
  /-- Boot is complete. -/
  | up
  deriving DecidableEq, Repr

/-- Life-cycle states of R432. -/
inductive Life where
  | manufacture | vendor | owned | returned | scrapped
  deriving DecidableEq, Repr

/-- A step-log entry (R418). -/
structure StepEntry where
  boot : Word
  step : Byte
  kind : BitVec 4
  outcome : BitVec 4
  reason : Byte
  unit : Byte
  detail : DWord
  deriving DecidableEq, Repr

/-- What survives power-off: the fuses and the flash (R423, R427, R428, R432). -/
structure Persist where
  boot     : Word
  steplog  : List StepEntry
  /-- Fallback state by step × 1024 + unit: 0 primary, 1 alternate, 2 skipped (R420). -/
  fallback : NMap (BitVec 2)
  resetPending : Bool
  /-- The image region: none while it holds no whole image. -/
  image    : Option Image
  life     : Life
  ogen     : Nat
  ownerHash : Option (BitVec 384)
  ownerCert : List Byte
  ownerData : List Byte
  revoked  : BitVec 4
  svn      : Nat
  staged   : Option Transition
  stagedRevoke : Option Nat
  /-- A debug grant waiting for the next boot (R442), and the boots with debug open since the last transition. -/
  grant    : BitVec 8
  debugBoots : Nat
  /-- Sparing record and repair fuses (R401): islands, array repair entries, lifetime counts by die × 8 + word,
  substituted and disabled tile sites, spared slice ways. -/
  islands  : NMap Island
  repair   : NMap DWord
  lifetime : NMap DWord
  retiredSites : List Nat
  /-- Spared and lost slice ways, by slice (R401, R402). -/
  sparedWays : List Nat
  lostWays : List Nat
  /-- Rows in soft repair: the channel, or 256 + tier chip, and an address of the row. -/
  softRows : List (Nat × Nat)
  deriving DecidableEq, Repr

/-- Flash and fuses of a shipped module. -/
def Persist.shipped : Persist :=
  { boot := 0, steplog := [], fallback := [], resetPending := false, image := some Config.factoryImage, life := .vendor, ogen := 0,
    ownerHash := none, ownerCert := [], ownerData := [], revoked := 0, svn := 0, staged := none, stagedRevoke := none,
    grant := 0, debugBoots := 0, islands := [], repair := [], lifetime := [], retiredSites := [], sparedWays := [], lostWays := [],
    softRows := [] }

/-- The security and management core's own state of this boot. -/
structure Mgmt where
  /-- Boot progress: step ID and count (R421). -/
  progStep : Byte
  progCount : BitVec 24
  /-- Recovery block (R429). -/
  rstate : Byte
  rreason : Byte
  imgaddr : DWord
  imglen : Word
  /-- Scope of debug access open in this boot, failed unlock attempts, and the valid nonce with its scope (R442 to
  R445). -/
  scope  : BitVec 8
  fails  : Nat
  nonce  : Option (BitVec 256 × BitVec 8)
  /-- Reply shifted out of the unlock register (R442). -/
  unlockOut : BitVec 2048
  /-- Pending PLDM platform events (R469): 1 module stop, 2 boot complete, 3 thermal or current limit, 4 LSTATE. -/
  events : List Nat
  /-- Step and unit at which the boot has stopped (R417); 0xFF for a step without units. -/
  stopAt : Option (Nat × Nat)
  /-- I3C dynamic address (R469). -/
  dynAddr : BitVec 7
  deriving DecidableEq, Repr

/-- Registers of the bootstrap block other than the queue counts (R67, R467, R468). -/
structure Boot where
  rsize : BitVec 4
  rbase : BitVec 36
  csize : BitVec 4
  cbase : BitVec 42
  nsize : BitVec 4
  nbase : BitVec 44
  /-- Words 0 to 2 have become RO (R67). -/
  locked : Bool
  nprod : Word
  ncons : Word
  nlost : Word
  intaddr : BitVec 46
  inten : Bool
  intdata : Word
  /-- NPROD ≠ NCONS held at the last test (R466). -/
  intPrev : Bool
  reqlen : BitVec 16
  mbstate : BitVec 2
  rsplen : BitVec 16
  reqBuf : NMap Byte
  rspBuf : NMap Byte
  deriving DecidableEq, Repr

/-- A byte written to companion memory while the link is down (R463), and the issuer on a tile that wrote it, if one did:
the tile site, and the group × 32 + lane or none for the control core (R114, R291). -/
structure HeldByte where
  pa   : Nat
  byte : Byte
  site : Option (Nat × Option Nat)
  deriving DecidableEq, Repr

/-- The Sovel link (R461 to R467): state, lanes, negotiated version and window base, failed lanes, and the writes
that wait for the link, oldest first (R463). -/
structure Sovel where
  lstate : BitVec 4
  lanes  : BitVec 9
  sver   : Byte
  wbase  : DWord
  failed : BitVec 9
  dead   : Bool
  held   : List HeldByte
  deriving DecidableEq, Repr

/-- Power controller, governor and pins (R446 to R458, R467). -/
structure Power where
  /-- Pins of S1 and P1 that the module reads. -/
  pwrEn   : Bool
  mateShort : Bool
  coolId  : BitVec 2
  mgmtMode : Bool
  mgmtAddr : BitVec 2
  /-- Pins that the module drives: true while asserted (released for PWR_GOOD, low for the active-low pins). -/
  pwrGood : Bool
  thermTrip : Bool
  alert   : Bool
  /-- The module stays off until PWR_EN has been low for 100 ms (R451), or until VIN is below 61.0 V (R446). -/
  latch   : Bool
  overVolt : Bool
  envcap  : BitVec 12
  envreq  : BitVec 12
  opreq   : BitVec 2
  hmax    : BitVec 4
  eff     : BitVec 12
  ceil    : BitVec 5
  hold    : BitVec 4
  vcore   : BitVec 16
  pin     : BitVec 16
  iin     : BitVec 16
  vin     : BitVec 16
  tjmax   : BitVec 8
  tinlet  : BitVec 8
  limit   : BitVec 4
  /-- Last temperatures that stacks (by channel) and DIMMs have reported, in °C (R308, R460, R470). -/
  stackT  : NMap Int
  dimmT   : NMap Int
  deriving DecidableEq, Repr

/-- Power state of a module that is on with a cold plate fitted, at the reset values of R467. -/
def Power.reset : Power :=
  { pwrEn := true, mateShort := true, coolId := 0, mgmtMode := true, mgmtAddr := 0, pwrGood := true,
    thermTrip := false, alert := true, latch := false, overVolt := false, envcap := 0x44C, envreq := 0, opreq := 1, hmax := 0xF,
    eff := 0x44C, ceil := 16, hold := 0, vcore := 0x2BC, pin := 0, iin := 0, vin := 0, tjmax := 0, tinlet := 0,
    limit := 0, stackT := [], dimmT := [] }

/-- What the module last answered to the companion processor, the board management controller or a slice requester
(DESIGN CHOICE, notes/assumptions/16.md). -/
inductive Reply where
  | none
  | data (bytes : List Byte) (poison : Bool)
  | pldm (code : Nat) (bytes : List Byte)
  | spdm (code : Nat) (bytes : List Byte)
  | slice (as : List Answer)
  deriving DecidableEq, Repr

/-! ### The whole state -/

/-- The state of the module. -/
structure State where
  /-- Commands that are waiting, first in, first out. -/
  pending : List Instr
  /-- Counts the free values taken (the model's own field). -/
  freeCtr : Nat
  run     : Run
  ctxs    : NMap Ctx
  queues  : NMap Queue
  /-- Unbound queues that wait for a slot (R66), and queues by their last doorbell, oldest first. -/
  waiting : List Nat
  bells   : List Nat
  objs    : NMap Obj
  /-- Free list of the object table (R40): indices from objNext to 1,048,575, then objFreed. -/
  objNext : Nat
  objFreed : List Nat
  heaps   : NMap Heap
  cmds    : List Cmd
  cmdCtr  : Nat
  /-- Packets of unparsed targets that an abort has won (R85). -/
  doomed  : List CmdRef
  /-- Round-robin position of each engine class: the slot served last (R62). -/
  rr      : NMap Nat
  halts   : List Halt
  launches : List Launch
  /-- Memory by device physical address, with the poisoned and the dead sectors (R282, R306, R307). -/
  mem     : NMap Byte
  poison  : List Nat
  dead    : List Nat
  /-- Frames recorded for retirement, and those whose retirement has taken effect (R309). -/
  retire  : List Nat
  retired : List Nat
  xlats   : List Xlat
  /-- Earlier words of the translation tables and the invalidations that have completed, each with its stamp, and the
  next stamp (R36). -/
  oldPtes : List OldPte
  invals  : List Inval
  pteCtr  : Nat
  hashKey : DWord
  lines   : NMap SLine
  fills   : NMap SpecFill
  epochs  : List Epoch
  lastEpoch : NMap Nat
  /-- Reduction-buffer entries by sector, and the adders' sector buffers with the partition each is charged to (R300,
  R301). -/
  redBufs : List Nat
  addBufs : List (Nat × Nat)
  /-- NEXT of each sector of an ordered range (R303) and the requests that wait for their turn. -/
  nexts   : NMap Nat
  turns   : List SliceReq
  misses  : NMap Miss
  /-- Requests waiting in bank and transit queues, refused requests, oldest first, and the count of both and of the batons
  that met a full queue (R273, R298). -/
  bankQ   : List Waiting
  refused : List Waiting
  reqCtr  : Nat
  /-- Sector transfers issued in this window, by channel × 64 + partition, and of each channel the partition that had the
  last slot with the slots it has had in its turn (R296). -/
  credits : NMap Nat
  chanTurn : NMap (Nat × Nat)
  parts   : NMap PartEntry
  staged  : NMap PartEntry
  /-- A commit is in progress: the partition and the entry that the slices take (R294). -/
  pcbNext : Option (Nat × PartEntry)
  pcbLast : Byte
  pcbResult : Byte
  tiles   : NMap Tile
  /-- Logical tile number to site of each die, and spare sites left (R95, R399, R400). -/
  map0    : List Nat
  map1    : List Nat
  spares0 : List Nat
  spares1 : List Nat
  /-- Tile sites marked for sparing (R399). -/
  marked  : List Nat
  routes  : NMap Route
  dispRuns : List DispRun
  chips   : NMap TierChip
  groups  : NMap GroupEntry
  heldGroups : List (Nat × CmdRef)
  updRuns : List UpdRun
  rxt     : NMap Rxt
  nodeRoute : NMap Word
  peerInc : NMap Byte
  fabCfg  : NMap DWord
  ports   : NMap Port
  remotes : NMap Remote
  tagCtr  : Nat
  jobs    : NMap Job
  collRuns : List CollRun
  /-- Packets received and not yet performed, oldest first, with the port on which each arrived; 20 stands for the
  module itself (R359). -/
  inbox   : List (Nat × Packet)
  /-- Packets the module has sent, oldest first: port and packet. -/
  outbox  : List (Nat × Packet)
  /-- Idle, retry and control flits the module has sent, oldest first, by port (R348, R355, R357, R358). -/
  flits   : List (Nat × SentFlit)
  /-- Packets of the replay buffer of a port gone DOWN that wait for another port, oldest first (R358). -/
  rehomed : List Unacked
  injections : List Injection
  /-- Faults of the hardware that no detector has met yet, oldest first (R384, R405). -/
  latents : List Latent
  fraction : BitVec 3
  islands : NMap Island
  repair  : NMap DWord
  /-- Groups of 32 wires of the die-to-die bridge whose spare serves (R402). -/
  bridge  : List Nat
  log0    : List LogEntry
  log1    : List LogEntry
  seq0    : Word
  seq1    : Word
  /-- Body words of the unit records, keyed type × 2^24 + index × 64 + word (R408). -/
  counters : NMap DWord
  /-- Temperature words of the records that have had a reading since reset, by key (R406). -/
  tempSeen : List Nat
  /-- Correctable sectors found in this patrol pass, by row (R308, R317). -/
  patrol  : NMap (List Nat)
  spareRows : NMap Nat
  persist : Persist
  mgmt    : Mgmt
  boot    : Boot
  sovel   : Sovel
  power   : Power
  reply   : Reply
  deriving DecidableEq, Repr

/-- Why a step stops the model with a fault. -/
inductive Fault where
  /-- Raised by a physical access outside every range of R282, which the manual calls a hole and gives no behaviour:
  safe. -/
  | hole (pa : Nat)
  deriving DecidableEq, Repr

/-- Why a step has no meaning. -/
inductive Refusal where
  /-- Raised by an arm of Dispatch whose row has no meaning yet: safe. -/
  | notModelled (mnemonic : String)
  deriving DecidableEq, Repr

/-- Context 0 at the end of boot (R67). -/
def Ctx.zero : Ctx := { Ctx.empty with state := .active, priv := true }

/-- Context 0, queue 0 at the end of boot (R67): ENABLED, copy class, PRIO 3, with the rings of the bootstrap
block. -/
def Queue.zero : Queue :=
  { Queue.empty with qstate := .enabled, engine := 1, prio := 3, bootRings := true }

/-- The bootstrap block at reset (R67, R467). -/
def Boot.reset : Boot :=
  { rsize := 0, rbase := 0, csize := 0, cbase := 0, nsize := 0, nbase := 0, locked := false, nprod := 0, ncons := 0,
    nlost := 0, intaddr := 0, inten := false, intdata := 0, intPrev := false, reqlen := 0, mbstate := 0, rsplen := 0,
    reqBuf := [], rspBuf := [] }

/-- The Sovel link at reset (R467): version 1, eight lanes, active. -/
def Sovel.reset : Sovel :=
  { lstate := 2, lanes := 0x0FF, sver := 1, wbase := 0, failed := 0, dead := false, held := [] }

/-- The management core at the end of boot: step 0x13 reported, and the event boot complete pending (R416, R421, R469). -/
def Mgmt.reset : Mgmt :=
  { progStep := 0x13, progCount := 0, rstate := 0x01, rreason := 0, imgaddr := 0, imglen := 0, scope := 0, fails := 0,
    nonce := none, unlockOut := 0, events := [2], stopAt := none, dynAddr := 0 }

/-- The module right after reset: boot has reached handover (step 0x13), every field at the value the manual gives
for reset, memory with nothing listed. notes/assumptions/1.md says which values the manual does not give. -/
def State.reset : State :=
  { pending := [], freeCtr := 0, run := .up, ctxs := [(0, Ctx.zero)], queues := [(0, Queue.zero)], waiting := [],
    bells := [], objs := [], objNext := 1, objFreed := [], heaps := [], cmds := [], cmdCtr := 0, doomed := [],
    rr := [], halts := [], launches := [], mem := [], poison := [], dead := [], retire := [], retired := [],
    xlats := [], oldPtes := [], invals := [], pteCtr := 0, hashKey := Config.hashKey, lines := [], fills := [], epochs := [], lastEpoch := [],
    redBufs := [], addBufs := [], nexts := [], turns := [], misses := [],
    bankQ := [], refused := [], reqCtr := 0, credits := [], chanTurn := [], parts := [], staged := [], pcbNext := none, pcbLast := 0,
    pcbResult := 0, tiles := [], map0 := List.range 176, map1 := List.range 176,
    spares0 := (List.range 16).map (· + 176), spares1 := (List.range 16).map (· + 176), marked := [], routes := [],
    dispRuns := [], chips := [], groups := [], heldGroups := [], updRuns := [], rxt := [], nodeRoute := [],
    peerInc := [], fabCfg := [], ports := [], remotes := [], tagCtr := 0, jobs := [], collRuns := [],
    inbox := [], outbox := [], flits := [], rehomed := [], injections := [], latents := [], fraction := 1, islands := [], repair := [], bridge := [], log0 := [],
    log1 := [], seq0 := 0, seq1 := 0, counters := [], tempSeen := [], patrol := [], spareRows := [], persist := .shipped,
    mgmt := .reset, boot := .reset, sovel := .reset, power := .reset, reply := .none }

end Sys2Proof.Machine
end

