-- ==== Sys2Proof/Machine/Ops.lean ====
section
/-! DEFINITION. The named operations over memory, counters, the log, notifications and interrupts. Every unit reads
and writes memory and the recorder through these. -/

namespace Sys2Proof.Machine

/-! ### Outcomes of a meaning -/

/-- The effect of a command on a module that runs; a module that is off, in recovery or stopped does nothing
(notes/assumptions/4.md). -/
def whenUp (s : State) (f : State → State) : Host.Outcome State Fault Refusal :=
  match s.run with
  | .up => .next (f s)
  | _ => .next s

/-- Result of a memory access by a context: a value, a fault, or a wait for a link (R463). -/
inductive MRes (α : Type) where
  | ok (a : α)
  | fault (code : Nat) (va : DWord) (detail : Nat)
  | wait
  deriving DecidableEq, Repr

/-! ### Free values -/

/-- The next free value (notes/assumptions/2.md). -/
def takeFree (s : State) : DWord × State := (Config.freeWord s.freeCtr, { s with freeCtr := s.freeCtr + 1 })

/-- A stored byte as it reads, or a byte as it is stored, at place k of a store that holds unspecified values of an
earlier launch (R94): its difference from a free value. -/
def junkByte (junk : Option Nat) (k : Nat) (b : Byte) : Byte :=
  match junk with
  | none => b
  | some n => b ^^^ BitVec.ofNat 8 (Config.freeWord (n + k)).toNat

/-- A free choice between two alternatives. -/
def takeBool (s : State) : Bool × State := ((Config.freeWord s.freeCtr).toNat % 2 == 1, { s with freeCtr := s.freeCtr + 1 })

/-! ### Event recorder: counters and log (R406 to R411) -/

/-- Key of body word w of the unit record (type, index). -/
def ckey (type index word : Nat) : Nat := type * 16777216 + index * 64 + word

/-- Body word w of a unit record. -/
def counter (s : State) (type index word : Nat) : DWord := NMap.getD s.counters (ckey type index word) 0

/-- Set a body word. -/
def setCounter (s : State) (type index word : Nat) (v : DWord) : State :=
  { s with counters := NMap.put 0 s.counters (ckey type index word) v }

/-- Add n to a counter; counters saturate (R406). -/
def bump (s : State) (type index word n : Nat) : State :=
  if n = 0 then s
  else setCounter s type index word (satAdd (counter s type index word) (BitVec.ofNat 64 (min n (2 ^ 64 - 1))))

/-- Keep the greatest value seen (R406). -/
def keepMax (s : State) (type index word n : Nat) : State :=
  if (counter s type index word).toNat < n then setCounter s type index word (BitVec.ofNat 64 n) else s

/-- Add n to a lifetime total of a die (R408 type 0x08), kept in the sparing record. -/
def bumpLife (s : State) (die word n : Nat) : State :=
  let k := die * 8 + word
  let total := satAdd (NMap.getD s.persist.lifetime k 0) (BitVec.ofNat 64 n)
  { s with persist := { s.persist with lifetime := NMap.put 0 s.persist.lifetime k total } }

/-- Write a log entry on a die (R406, R410). -/
def logEvent (s : State) (die event queue ctx : Nat) (a0 a1 a2 : DWord) (inj : Bool := false) : State :=
  let e (seq : Word) : LogEntry :=
    { event := BitVec.ofNat 8 event, die := BitVec.ofNat 1 die, inj := inj, queue := BitVec.ofNat 4 queue,
      ctx := BitVec.ofNat 12 ctx, seq := seq, arg0 := a0, arg1 := a1, arg2 := a2 }
  if die = 0 then
    { s with log0 := (s.log0 ++ [e s.seq0]).drop (s.log0.length + 1 - 65536), seq0 := s.seq0 + 1 }
  else
    { s with log1 := (s.log1 ++ [e s.seq1]).drop (s.log1.length + 1 - 65536), seq1 := s.seq1 + 1 }

/-- Write a step-log entry of this boot (R418, R419, R422). -/
def addStep (s : State) (step kind outcome reason unit : Nat) (detail : DWord) : State :=
  let e : StepEntry :=
    { boot := s.persist.boot, step := BitVec.ofNat 8 step, kind := BitVec.ofNat 4 kind, outcome := BitVec.ofNat 4 outcome,
      reason := BitVec.ofNat 8 reason, unit := BitVec.ofNat 8 unit, detail := detail }
  { s with persist := { s.persist with
      steplog := (s.persist.steplog ++ [e]).drop (s.persist.steplog.length + 1 - 32768) } }

/-! ### Table entries of the state -/

def ctxOf (s : State) (c : Nat) : Ctx := NMap.getD s.ctxs c Ctx.empty
def setCtx (s : State) (c : Nat) (d : Ctx) : State := { s with ctxs := NMap.put Ctx.empty s.ctxs c d }
def updCtx (s : State) (c : Nat) (f : Ctx → Ctx) : State := setCtx s c (f (ctxOf s c))

/-- Index of a queue descriptor (R64). -/
def qidx (ctx queue : Nat) : Nat := ctx * 16 + queue
def queueOf (s : State) (ctx queue : Nat) : Queue := NMap.getD s.queues (qidx ctx queue) Queue.empty
def setQueue (s : State) (ctx queue : Nat) (q : Queue) : State :=
  { s with queues := NMap.put Queue.empty s.queues (qidx ctx queue) q }
def updQueue (s : State) (ctx queue : Nat) (f : Queue → Queue) : State := setQueue s ctx queue (f (queueOf s ctx queue))

/-- The setting of a context as its descriptor has it. -/
def Ctx.setting (d : Ctx) : Setting := { part := d.part, job := d.job, deadchk := d.deadchk }

/-- The setting under which a queue of a context works (R28). -/
def settingOf (s : State) (ctx queue : Nat) : Setting := (queueOf s ctx queue).keep.getD (ctxOf s ctx).setting

/-- JOB of the commands of a queue (R28). -/
def jobFor (s : State) (ctx queue : Nat) : BitVec 20 := (settingOf s ctx queue).job

/-- Settings that queues of a context keep. -/
def keptSettings (s : State) (ctx : Nat) : List Setting :=
  s.queues.filterMap fun e => if e.1 / 16 = ctx then e.2.keep else none

/-- The setting of an access of a context whose queue is not told: the descriptor's where no queue keeps another, else
any of those that its queues work under (R28; DESIGN CHOICE, notes/assumptions/82.md). -/
def anySetting (s : State) (ctx : Nat) : Setting :=
  match keptSettings s ctx with
  | [] => (ctxOf s ctx).setting
  | l => (l[(Config.freeWord s.freeCtr).toNat % (l.length + 1)]?).getD (ctxOf s ctx).setting

/-- The partition to which an access of a context is charged (R29, R30). -/
def ctxPart (s : State) (ctx : Nat) : Nat := (anySetting s ctx).part.toNat

def objOf (s : State) (i : Nat) : Obj := NMap.getD s.objs i Obj.empty
def setObj (s : State) (i : Nat) (o : Obj) : State := { s with objs := NMap.put Obj.empty s.objs i o }
def updObj (s : State) (i : Nat) (f : Obj → Obj) : State := setObj s i (f (objOf s i))

def tileOf (s : State) (site : Nat) : Tile := NMap.getD s.tiles site Tile.empty
def setTile (s : State) (site : Nat) (t : Tile) : State := { s with tiles := NMap.put Tile.empty s.tiles site t }
def updTile (s : State) (site : Nat) (f : Tile → Tile) : State := setTile s site (f (tileOf s site))

def chipOf (s : State) (c : Nat) : TierChip := NMap.getD s.chips c TierChip.empty
def setChip (s : State) (c : Nat) (t : TierChip) : State := { s with chips := NMap.put TierChip.empty s.chips c t }

def partOf (s : State) (p : Nat) : PartEntry := NMap.getD s.parts p PartEntry.reset

/-- An island that no trigger has moved: the factory's margin, trim and rung 0 (R397). -/
def factoryIsland (i : Nat) : Island := { Island.reset with margin := Config.factoryMargin i }
def islandOf (s : State) (i : Nat) : Island := NMap.getD s.islands i (factoryIsland i)
def setIsland (s : State) (i : Nat) (d : Island) : State := { s with islands := NMap.insert s.islands i d }

/-- The array repair entry of a tile site, as fused where no substitution has changed it (R163). -/
def repairOf (s : State) (site : Nat) : DWord :=
  NMap.getD s.repair site (Config.factoryRepair site &&& 0xFFFF0000#64)
def setRepair (s : State) (site : Nat) (e : DWord) : State := { s with repair := NMap.insert s.repair site e }

def routeOf (s : State) (i : Nat) : Route := NMap.getD s.routes i Route.empty
def setRoute (s : State) (i : Nat) (r : Route) : State := { s with routes := NMap.put Route.empty s.routes i r }

def portOf (s : State) (p : Nat) : Port := NMap.getD s.ports p Port.reset
def setPort (s : State) (p : Nat) (d : Port) : State := { s with ports := NMap.put Port.reset s.ports p d }

/-- The parsed command that a reference names. -/
def cmdOf (s : State) (c : CmdRef) : Option Cmd := s.cmds.find? fun x => x.ref == c

/-- Change one parsed command. -/
def updCmd (s : State) (c : CmdRef) (f : Cmd → Cmd) : State :=
  { s with cmds := s.cmds.map fun x => if x.ref == c then f x else x }

/-! ### Device address map (R282) -/

/-- Regions of R282. -/
inductive Region where
  | fast | reserved | slow (chip : Nat) | far (chip : Nat) | regs | sovel | hole
  deriving DecidableEq, Repr

/-- The region of a device physical address (R282). -/
def regionOf (pa : Nat) : Region :=
  if pa < 0xBC00000000 then .fast
  else if pa < 0xC000000000 then .reserved
  else if pa < 0x010000000000 then .hole
  else if pa < 0x030000000000 then .slow ((pa - 0x010000000000) / 0x8000000000)
  else if pa < 0x040000000000 then .hole
  else if pa < 0x140000000000 then .far ((pa - 0x040000000000) / 0x40000000000)
  else if 0x7F0000000000 ≤ pa ∧ pa < 0x7F0100000000 then .regs
  else if 0x800000000000 ≤ pa ∧ pa < 0x1000000000000 then .sovel
  else .hole

/-- Bytes of tier chip c's slow range that fitted DIMMs back (R316). -/
def slowBytes (s : State) (c : Nat) : Nat := ((chipOf s c).dimmA + (chipOf s c).dimmB) * 2 ^ 30

/-- Bytes of port c's far range that its device backs (R319). -/
def farBytes (s : State) (c : Nat) : Nat := min ((chipOf s c).cxl * 2 ^ 30) 0x40000000000

/-- The n bytes at pa lie wholly in one place that a leaf may name (R283): the fast tier, the reserved region, the
populated part of the slow or far tier, or the Sovel window. -/
def backed (s : State) (pa n : Nat) : Bool :=
  let last := pa + n - 1
  match regionOf pa with
  | .fast => regionOf last == .fast || regionOf last == .reserved
  | .reserved => regionOf last == .reserved
  | .slow c => decide (last - (0x010000000000 + c * 0x8000000000) < slowBytes s c)
  | .far c => decide (last - (0x040000000000 + c * 0x40000000000) < farBytes s c)
  | .sovel => decide (last < 0x1000000000000)
  | _ => false

/-- Some byte of the n bytes at pa lies in the module-reserved region. -/
def touchesReserved (pa n : Nat) : Bool := decide (pa < 0xC000000000 ∧ 0xBC00000000 < pa + n)

/-- An address in a driver pool of R285, six GiB at offset 2 GiB of each half. -/
def inDriverPool (pa : Nat) : Bool :=
  decide ((0xBC80000000 ≤ pa ∧ pa < 0xBE00000000) ∨ (0xBE80000000 ≤ pa ∧ pa < 0xC000000000))

/-- Accesses to the address complete poisoned and writes are lost: its tier link is down (R313) or its CXL device
lost (R319). -/
def tierLost (s : State) (pa : Nat) : Bool :=
  match regionOf pa with
  | .slow c => (chipOf s c).link == .down
  | .far c => (chipOf s c).link == .down || (chipOf s c).cxlLost
  | _ => false

/-- The Sovel link carries traffic (R463, R467). -/
def linkUp (s : State) : Bool := decide (s.sovel.lstate = 2 ∨ s.sovel.lstate = 3)

/-! ### Homes (R286, R287) -/

/-- The home slice of a granule (R286), bit 7 the die. -/
def homeSlice (s : State) (pa : Nat) : Nat :=
  if regionOf pa = .reserved then
    let die := if pa < 0xBE00000000 then 0 else 1
    let block := pa >>> 17
    die * 128 + ((field pa 16 10) ^^^ ((mix (s.hashKey ^^^ BitVec.ofNat 64 block)).toNat % 128))
  else
    let block := pa >>> 18
    (field pa 17 10) ^^^ ((mix (s.hashKey ^^^ BitVec.ofNat 64 block)).toNat % 256)

/-- The die of an address's home. -/
def homeDie (s : State) (pa : Nat) : Nat := homeSlice s pa / 128

/-- Granule index in the channel (R287). -/
def granuleIndex (pa : Nat) : Nat :=
  if regionOf pa = .reserved then
    3080192 + ((pa >>> 17) - (if pa < 0xBE00000000 then 0xBC00000000 >>> 17 else 0xBE00000000 >>> 17))
  else pa >>> 18

/-- Bank of the granule (R287). -/
def bankOf (pa : Nat) : Nat := (field (granuleIndex pa) 4 0) ^^^ (field (granuleIndex pa) 9 5)

/-- Set of the line in its slice (R287). -/
def setOf (pa : Nat) : Nat := (granuleIndex pa * 4 + field pa 9 8) % 192

/-! ### Bytes at the channel, the DIMM, the device or the companion processor -/

/-- The byte that memory holds at pa, below the slices; a byte that nothing has written reads 0 (R436,
notes/assumptions/5.md). -/
def memByte (s : State) (pa : Nat) : Byte := NMap.getD s.mem pa 0

/-- Store bytes from pa on. -/
def memPut (m : NMap Byte) (pa : Nat) (bs : List Byte) : NMap Byte :=
  match bs with
  | [] => m
  | b :: r => memPut (NMap.put 0 m pa b) (pa + 1) r

/-- The stored bytes are in canonical form. -/
abbrev Memory.wf (s : State) : Bool := NMap.wf 0 s.mem

/-- Store the cells of a companion agent, in order. -/
def memCells (m : NMap Byte) (cells : List (Nat × Byte)) : NMap Byte :=
  match cells with
  | [] => m
  | (a, b) :: r => memCells (NMap.put 0 m (0x800000000000 + a % 0x800000000000) b) r

/-- Stores of a companion processor to its own memory that its memory model orders before a window access (R465),
by companion physical address. -/
def companionStores (s : State) (cells : List (Nat × Byte)) : State := { s with mem := memCells s.mem cells }

/-- A module write to companion memory: performed at once while the link is up, kept until it retrains otherwise
(R463, R465). -/
def companionWrite (s : State) (pa : Nat) (bs : List Byte) : State :=
  if linkUp s then { s with mem := memPut s.mem pa bs }
  else { s with sovel := { s.sovel with held := s.sovel.held ++ (List.range bs.length).zipWith (fun i b => { pa := pa + i, byte := b, site := none }) bs } }

/-- Name the issuer of the bytes held from the n-th on. -/
def markHeld (s : State) (n site : Nat) (issuer : Option Nat) : State :=
  if s.sovel.held.length ≤ n then s
  else { s with sovel := { s.sovel with
    held := s.sovel.held.take n ++ (s.sovel.held.drop n).map fun (h : HeldByte) => { h with site := some (site, issuer) } } }

/-- Deliver the writes that waited for the link, in order (R463). -/
def deliverHeld (s : State) : State :=
  { s with mem := s.sovel.held.foldl (fun m c => NMap.put 0 m c.pa c.byte) s.mem, sovel := { s.sovel with held := [] } }

/-! ### Slice lines (R288, R290, R295, R304) -/

/-- The coherent byte at pa, as its home slice answers (R291). -/
def cohByte (s : State) (pa : Nat) : Byte :=
  match NMap.find s.lines (pa / 256) with
  | some l => (NMap.find l.dirty (pa % 256)).getD (memByte s pa)
  | none => memByte s pa

/-- n coherent bytes from pa on. -/
def cohBytes (s : State) (pa n : Nat) : List Byte := (List.range n).map fun i => cohByte s (pa + i)

/-- The sector at pa is poisoned, as its home slice answers (R307, R392). -/
def cohPoison (s : State) (pa : Nat) : Bool :=
  match NMap.find s.lines (pa / 256) with
  | some l =>
    if NSet.has l.poisonOn (pa / 64) then true
    else if NSet.has l.poisonOff (pa / 64) then false
    else NSet.has s.poison (pa / 64)
  | none => NSet.has s.poison (pa / 64)

/-- Store the written bytes of a line, listed by their offset in it. -/
def linePutBack (m : NMap Byte) (line : Nat) (dirty : NMap Byte) : NMap Byte :=
  match dirty with
  | [] => m
  | (o, b) :: r => if o < 256 then NMap.put 0 (linePutBack m line r) (line * 256 + o) b else linePutBack m line r

/-! ### Channel regulators (R30, R296) -/

/-- Sector transfers that a partition may issue on a channel in one window (R296). -/
def windowLimit (s : State) (part : Nat) : Nat := fld (partOf s part).w0 59 53 * 16

/-- A partition has a sector transfer left on a channel in this window. -/
def creditLeft (s : State) (channel part : Nat) : Bool :=
  decide (NMap.getD s.credits (channel * 64 + part) 0 < windowLimit s part)

/-- Charge n sector transfers at a channel to a partition and count them (R30, R296, R408). Transfers past the limit are
issued in later windows, whose passing the model does not show inside a step: the share of this one stays used up
(DESIGN CHOICE, notes/assumptions/80.md). -/
def useCredits (s : State) (channel part n : Nat) : State :=
  let k := channel * 64 + part
  let used := NMap.getD s.credits k 0
  bump { s with credits := NMap.put 0 s.credits k (if used < windowLimit s part then min (used + n) (windowLimit s part) else used) }
    3 channel 7 n

/-- Sectors of a line that hold written bytes, 0 to 3. -/
def dirtySectors (l : SLine) : List Nat := (List.range 4).filter fun i => l.dirty.any fun b => b.1 / 64 == i

/-- The line holds the n bytes at pa, within one sector (R290). -/
def lineHas (l : SLine) (pa n : Nat) : Bool :=
  NSet.has l.filled (pa / 64) || (List.range n).all fun i => (NMap.find l.dirty ((pa + i) % 256)).isSome

/-- Transfers of a write-back: one for each dirty sector, and one more to read a sector that is valid in part (R290). -/
def backTransfers (l : SLine) (line : Nat) : Nat :=
  ((dirtySectors l).map fun i => if lineHas l (line * 256 + i * 64) 64 then 1 else 2).sum

/-- Write a held line back to its channel and drop it from the slice: its dirty sectors, with their poison, charged to
the last writer's partition and counted (R290, R296). -/
def writeBack (s : State) (line : Nat) : State :=
  match NMap.find s.lines line with
  | none => s
  | some l =>
    let ds := dirtySectors l
    let moved (k : Nat) : Bool := ds.contains (k % 4)
    let s' := { s with
      mem := linePutBack s.mem line l.dirty
      poison := (l.poisonOn.filter moved).foldl NSet.add ((l.poisonOff.filter moved).foldl NSet.del s.poison)
      redBufs := s.redBufs.filter fun x => x / 4 != line
      lines := NMap.erase s.lines line }
    let slice := homeSlice s (line * 256)
    if ds = [] then s' else bump (useCredits s' slice l.part (backTransfers l line)) 2 slice 2 1

/-- The context counter of a discarded or superseded fill (R201, R408 type 0x05), and its removal. -/
def dropFill (s : State) (line word : Nat) : State :=
  match NMap.find s.fills line with
  | none => s
  | some f => bump { s with fills := NMap.erase s.fills line } 5 f.ctx word 1

/-- An access to a line before the confirmation of its speculative fill ends the fill: superseded (word 5) by a demand
read, discarded (word 4) by a write (R198, R199). -/
def endFill (s : State) (line word : Nat) : State :=
  match NMap.find s.fills line with
  | some f => if f.confirmed then s else dropFill s line word
  | none => s

/-- Pin ranges (base, size in 256 KiB units) of a partition (R293). -/
def pinRanges (e : PartEntry) : List (Nat × Nat) :=
  [(fld e.w1 63 34, fld e.w1 33 14), (fld e.w2 63 34, fld e.w2 33 14)]

/-- PINW of a partition. -/
def pinWays (e : PartEntry) : Nat := fld e.w0 63 60

/-- The partition that owns the pinned line at pa: the lowest-numbered one whose pin range covers it (R295). -/
def pinOwner (s : State) (pa : Nat) : Option Nat :=
  (List.range 63).find? fun p => (pinRanges (partOf s p)).any fun r => decide (r.1 ≤ pa >>> 18 ∧ pa >>> 18 < r.1 + r.2)

/-- The ordered range (base, size, contributors) that covers pa, if any (R293, R303). -/
def orderedAt (s : State) (pa : Nat) : Option Nat :=
  match (List.range 63).find? fun p =>
      let e := partOf s p
      decide (fld e.w3 63 34 ≤ pa >>> 18 ∧ pa >>> 18 < fld e.w3 63 34 + fld e.w3 33 14) with
  | some p => some (fld (partOf s p).w3 13 5)
  | none => none

/-- The partition in whose pinned ways a line at pa is allocated, if any (R295). -/
def lineOwner (s : State) (pa : Nat) : Option Nat :=
  match pinOwner s pa with
  | some p => if pinWays (partOf s p) = 0 then none else some p
  | none => none

/-- Ways pinned for the partitions below p (R295). -/
def pinnedBelow (s : State) (p : Nat) : Nat := ((List.range p).map fun q => pinWays (partOf s q)).sum

/-- Ways of pa's slice in which a line may be allocated: the pinned ways of its owner, counted from way 0 in ascending
partition number, or the unpinned ways (R295); a slice that has lost a way has one unpinned way less (R402). -/
def waysFor (s : State) (pa : Nat) (owner : Option Nat) : List Nat :=
  match owner with
  | some p => (List.range (pinWays (partOf s p))).map (· + pinnedBelow s p)
  | none =>
    (List.range (if NSet.has s.persist.lostWays (homeSlice s pa) then 15 else 16)).filter fun w => decide (pinnedBelow s 63 ≤ w)

/-- Lines and speculative fills that stand in the set of pa in its slice, each with its way. -/
def setPeers (s : State) (pa : Nat) : List (Nat × Nat) :=
  let same (l : Nat) : Bool := setOf (l * 256) == setOf pa && homeSlice s (l * 256) == homeSlice s pa
  ((s.lines.filter fun e => same e.1).map fun e => (e.1, e.2.way)) ++
    (s.fills.filter fun e => same e.1).map fun e => (e.1, e.2.way)

/-- Evict a line of a set, its way going to another: it is written back, or its speculative fill is discarded. -/
def evictLine (s : State) (line : Nat) : State := dropFill (writeBack s line) line 4

/-- A way for a line at pa among those of an owner: a free one, or that of a line which is evicted by the replacement
order that the manual does not fix (R295, notes/assumptions/12.md); no line of an ordered range is evicted (R303). -/
def takeWay (s : State) (pa : Nat) (owner : Option Nat) : State × Option Nat :=
  let peers := setPeers s pa
  let ways := waysFor s pa owner
  match ways.find? fun w => !peers.any fun e => e.2 == w with
  | some w => (s, some w)
  | none =>
    let cand := peers.filter fun e => ways.contains e.2 && (orderedAt s (e.1 * 256)).isNone
    match cand with
    | [] => (s, none)
    | c :: _ =>
      let v := (cand[(takeFree s).1.toNat % cand.length]?).getD c
      (evictLine (takeFree s).2 v.1, some v.2)

/-- Make sure the line at pa is held, where its ways have a place for it. -/
def allocLine (s : State) (pa part : Nat) : State :=
  match NMap.find s.lines (pa / 256) with
  | some _ => s
  | none =>
    match takeWay s pa (lineOwner s pa) with
    | (s, some w) =>
      let l : SLine := { way := w, dirty := [], filled := [], poisonOn := [], poisonOff := [], part := part }
      { s with lines := NMap.insert s.lines (pa / 256) l }
    | (s, none) => s

/-- The held line of a sector has fetched it from the channel: the whole sector is valid, with the poison it was read
with (R290, R307). -/
def fillSector (s : State) (pa : Nat) : State :=
  match NMap.find s.lines (pa / 256) with
  | none => s
  | some l =>
    let k := pa / 64
    let known := NSet.has l.poisonOn k || NSet.has l.poisonOff k
    let on := if !known && NSet.has s.poison k then NSet.add l.poisonOn k else l.poisonOn
    let off := if !known && !NSet.has s.poison k then NSet.add l.poisonOff k else l.poisonOff
    { s with lines := NMap.insert s.lines (pa / 256) { l with filled := NSet.add l.filled k, poisonOn := on, poisonOff := off } }

/-- A region whose lines slices hold (R283, R286). -/
def sliceHolds (pa : Nat) : Bool := regionOf pa == .fast || regionOf pa == .reserved

/-- A read of n bytes of a sector is answered from its home slice's line. -/
def sliceHit (s : State) (pa n : Nat) : Bool :=
  match NMap.find s.lines (pa / 256) with
  | some l => lineHas l pa n
  | none => false

/-- A memory-side adder writes a sector buffer back (R301). -/
def adderFlush (s : State) (b : Nat × Nat) : State :=
  useCredits { s with addBufs := s.addBufs.erase b } (homeSlice s (b.1 * 64)) b.2 1

/-- The adder writes its buffer of a sector back before a transfer that the slice issues after it (R301). -/
def adderYield (s : State) (sector : Nat) : State :=
  match s.addBufs.find? fun b => b.1 == sector with
  | some b => adderFlush s b
  | none => s

/-- Note a read of n bytes of a sector at its home slice: a pending speculative fill is superseded (R198), reduction
entries of the line are written into it (R300), and a miss fetches the sector over the channel, the line being allocated
by the cache policy (R288, R290, R303). -/
def touchRead (s : State) (pa n cp part : Nat) : State :=
  if sliceHolds pa then
    let slice := homeSlice s pa
    let s := endFill { s with redBufs := s.redBufs.filter fun x => x / 4 != pa / 256 } (pa / 256) 5
    if sliceHit s pa n then bump s 2 slice 0 1
    else
      let s := useCredits (adderYield (bump s 2 slice 1 1) (pa / 64)) slice part 1
      fillSector (if cp = 0 ∨ (orderedAt s pa).isSome then allocLine s pa part else s) pa
  else s

/-- Note a write of n bytes of a sector at its home slice: a speculative fill that waits for confirmation is discarded
(R199); the line is allocated by the cache policy; a write that passes to the channel moves a whole sector, which is
read first where n bytes do not fill it (R288, R290, R303). -/
def touchWrite (s : State) (pa n : Nat) (alloc : Bool) (part : Nat) : State :=
  if sliceHolds pa then
    let slice := homeSlice s pa
    let s := endFill s (pa / 256) 4
    match NMap.find s.lines (pa / 256) with
    | some _ => bump s 2 slice 0 1
    | none =>
      let s := bump s 2 slice 1 1
      let s := if alloc ∨ (orderedAt s pa).isSome then allocLine s pa part else s
      match NMap.find s.lines (pa / 256) with
      | some _ => s
      | none => useCredits (adderYield s (pa / 64)) slice part (if n = 64 then 1 else 2)
  else s

/-- Put bytes into a line's written bytes. -/
def linePut (m : NMap Byte) (off : Nat) (bs : List Byte) : NMap Byte :=
  match bs with
  | [] => m
  | b :: r => linePut (NMap.insert m off b) (off + 1) r

/-- Before a write to the line at pa: it is allocated when alloc says so and slices hold its region (R283), the dead bit
of the sector clears (R306), and a speculative fill of the line ends (R199). -/
def beforeWrite (s : State) (pa : Nat) (alloc : Bool) (part : Nat) : State :=
  let s := if alloc && sliceHolds pa then allocLine s pa part else s
  endFill { s with dead := NSet.del s.dead (pa / 64) } (pa / 256) 4

/-- Put bytes within one sector into a held line, else to the channel; poison of the sector is set by poisoned data and
cleared by a whole clean sector (R290, R307). -/
def storeSector (s : State) (pa : Nat) (bs : List Byte) (poison : Bool) (part : Nat) : State :=
  let whole := decide (bs.length = 64)
  match NMap.find s.lines (pa / 256) with
  | some l =>
    let on := if poison then NSet.add l.poisonOn (pa / 64)
      else if whole then NSet.del l.poisonOn (pa / 64) else l.poisonOn
    let off := if poison then NSet.del l.poisonOff (pa / 64)
      else if whole then NSet.add l.poisonOff (pa / 64) else l.poisonOff
    let l' : SLine :=
      { l with dirty := linePut l.dirty (pa % 256) bs, poisonOn := on, poisonOff := off, part := part }
    { s with lines := NMap.insert s.lines (pa / 256) l' }
  | none =>
    { s with
      mem := memPut s.mem pa bs
      poison := if poison then NSet.add s.poison (pa / 64)
        else if whole then NSet.del s.poison (pa / 64) else s.poison }

/-- The 64-bit word at a physical address (R8). -/
def physWord (s : State) (pa : Nat) : DWord := BitVec.ofNat 64 (leNat (cohBytes s pa 8))

/-- Keep the words from pa on that a write has changed, n of them: a cached translation may still hold one (R36). -/
def keepOld (old s : State) (pa n : Nat) : State :=
  match n with
  | 0 => s
  | n + 1 =>
    let s := if physWord old pa = physWord s pa then s
      else { s with oldPtes := s.oldPtes ++ [{ at_ := pa, word := physWord old pa, stamp := s.pteCtr }], pteCtr := s.pteCtr + 1 }
    keepOld old s (pa + 8) n

/-- Write bytes within one sector at the home of pa (R288, R290): to the companion processor in the Sovel window, lost
where the tier is lost (R313, R319). Translation tables lie in the driver pools (R284). -/
def cohWrite (s : State) (pa : Nat) (bs : List Byte) (poison alloc : Bool) (part : Nat) : State :=
  match regionOf pa with
  | .sovel => companionWrite s pa bs
  | _ =>
    if tierLost s pa then s
    else
      let s' := storeSector (beforeWrite s pa alloc part) pa bs poison part
      if inDriverPool pa then keepOld s s' (pa / 8 * 8) ((pa % 8 + bs.length + 7) / 8) else s'

/-- Drop a held line without writing it back (R47 step 4, R304). -/
def dropLine (s : State) (line : Nat) : State :=
  dropFill { s with lines := NMap.erase s.lines line, redBufs := s.redBufs.filter fun x => x / 4 != line } line 4

/-! ### Reads and writes of the module itself by physical address -/

/-- Cut the n bytes at address a at sector ends: (address, length) pieces. -/
def pieces (a n : Nat) : List (Nat × Nat) :=
  if n = 0 then []
  else (List.range ((a % 64 + n + 63) / 64)).map fun i =>
    let lo := if i = 0 then a else a / 64 * 64 + i * 64
    let hi := min (a + n) (a / 64 * 64 + i * 64 + 64)
    (lo, hi - lo)

/-- Any poisoned sector among the n bytes at pa. -/
def cohPoisonIn (s : State) (pa n : Nat) : Bool := (pieces pa n).any fun p => cohPoison s p.1

/-- Write unpoisoned bytes by physical address, piece by piece. -/
def physWrite (s : State) (pa : Nat) (bs : List Byte) (part : Nat) : State :=
  (pieces pa bs.length).foldl (fun s p => cohWrite s p.1 (sliceList 0 bs (p.1 - pa) p.2) false false part) s

/-! ### Notifications and interrupts (R68, R466) -/

/-- Send the interrupt message of R466. -/
def sendInterrupt (s : State) : State :=
  if s.boot.inten then
    companionWrite s (0x800000000000 + s.boot.intaddr.toNat * 4) (leBytes s.boot.intdata.toNat 4)
  else s

/-- The test of R466 after an increment of NPROD: one message when NPROD ≠ NCONS newly holds. -/
def testInterrupt (s : State) : State :=
  let ne := s.boot.nprod != s.boot.ncons
  let s' := if ne && !s.boot.intPrev then sendInterrupt s else s
  { s' with boot := { s'.boot with intPrev := ne } }

/-- Write a notification, or drop and count it (R67, R68). -/
def notify (s : State) (type queue ctx : Nat) (seq : Word) (code : Nat) : State :=
  let b := s.boot
  let size := 2 ^ (8 + b.nsize.toNat)
  let base := b.nbase.toNat * 16
  if base < 0x800000000000 ∨ ¬ (b.nprod - b.ncons).toNat < size then
    { s with boot := { b with nlost := b.nlost + 1 } }
  else
    let w0 := (type <<< 56) + (queue <<< 44) + (ctx <<< 32) + seq.toNat
    let s := companionWrite s (base + b.nprod.toNat % size * 16) (leBytes w0 8 ++ leBytes (code <<< 56) 8)
    testInterrupt { s with boot := { s.boot with nprod := s.boot.nprod + 1 } }

end Sys2Proof.Machine
end

