-- ==== Sys2Proof/Machine/Suspects.lean ====
section
/-! DEFINITION. Suspect triggers, rungs and spares (R397 to R402). -/

namespace Sys2Proof.Machine

/-- The die whose log names an island: that of its site or region; a tier chip's home die is that of its half
(R406). -/
def islandDie (i : Nat) : Nat :=
  if i < 384 then i / 192 else if i < 396 then 0 else if i < 408 then 1 else (i - 408) / 2

/-- Keep an island's trim, margin and rung in the sparing record too (R401). -/
def keepIsland (s : State) (i : Nat) (d : Island) : State :=
  let s := setIsland s i d
  let kept : Island := { Island.reset with trim := d.trim, margin := d.margin, rung := d.rung }
  { s with persist := { s.persist with islands := NMap.insert s.persist.islands i kept } }

/-- Mark a tile site for sparing (R399). -/
def markSite (s : State) (site : Nat) : State := { s with marked := NSet.add s.marked site }

/-- Bits of the array repair entry (R163). -/
def repairRv (e : DWord) : Bool := bit e 31
def repairCv (e : DWord) : Bool := bit e 23
def repairPend (e : DWord) : Bool := bit e 1

/-- Decide a substitution for the cell (row, col) of a site (R399 T1). -/
def decideSubst (s : State) (site row col : Nat) : State :=
  let e := repairOf s site
  if !repairRv e then
    setRepair s site ((e &&& ~~~0x7F000000#64) ||| BitVec.ofNat 64 (0x80000002 + (row <<< 24)))
  else if !repairCv e then
    setRepair s site ((e &&& ~~~0x7F0000#64) ||| BitVec.ofNat 64 (0x800002 + (col <<< 16)))
  else markSite (setRepair s site (e ||| 1)) site

/-- The island of the uncore region that holds a slice (R397); which of its die's twelve the manual does not say
(DESIGN CHOICE, notes/assumptions/94.md). -/
def sliceIsland (slice : Nat) : Nat := 384 + slice / 128 * 12 + (Config.sliceRegion slice).toNat % 12

/-- The lines and speculative fills of a slice that stand in a way. -/
def linesInWay (s : State) (slice way : Nat) : List Nat :=
  ((s.lines.filter fun e => homeSlice s (e.1 * 256) == slice && e.2.way == way).map (·.1)) ++
    (s.fills.filter fun e => homeSlice s (e.1 * 256) == slice && e.2.way == way).map (·.1)

/-- Way 15 of a slice serves under another number from now on, so that pinned ways keep theirs (R402; DESIGN CHOICE,
notes/assumptions/94.md). -/
def renumberWay (s : State) (slice way : Nat) : State :=
  { s with
    lines := s.lines.map fun (e : Nat × SLine) =>
      (e.1, if e.2.way = 15 ∧ homeSlice s (e.1 * 256) = slice then { e.2 with way := way } else e.2)
    fills := s.fills.map fun (e : Nat × SpecFill) =>
      (e.1, if e.2.way = 15 ∧ homeSlice s (e.1 * 256) = slice then { e.2 with way := way } else e.2) }

/-- A failing way of a slice is written back and invalidated; the spare way serves in its place, fused, logged and
counted (R399, R401, R408, R411), or, where the spare is in use, the slice runs with 15 ways from now on (R402). -/
def spareWay (s : State) (slice way : Nat) : State :=
  if way < 16 ∧ !NSet.has s.persist.lostWays slice then
    let s := (linesInWay s slice way).foldl evictLine s
    if !NSet.has s.persist.sparedWays slice then
      let s := { s with persist := { s.persist with sparedWays := NSet.add s.persist.sparedWays slice } }
      let s := bumpLife s (slice / 128) 4 1
      logEvent s (slice / 128) 0x07 0 0 (BitVec.ofNat 64 (4 + (slice <<< 16))) (BitVec.ofNat 64 (way + (16 <<< 16))) 0
    else
      renumberWay { s with persist := { s.persist with lostWays := NSet.add s.persist.lostWays slice } } slice way
  else s

/-- What fails where a trigger finds an island at rung 6. -/
inductive Failing where
  | cell (row col : Nat)
  | site
  | way (slice way : Nat)
  deriving DecidableEq, Repr

/-- The unit that fails at rung 6 is spared (R399); an uncore island or a tier chip has no other spare. -/
def spareFailing (s : State) (island : Nat) (what : Failing) : State :=
  match what with
  | .cell row col => if island < 384 then decideSubst s island row col else s
  | .site => if island < 384 then markSite s island else s
  | .way slice way => spareWay s slice way

/-- The treatment of R399: one rung up, or the failing unit is spared. -/
def trigger (s : State) (island trig : Nat) (loc : DWord) (what : Failing) : State :=
  let d := islandOf s island
  let s := bump s 6 island 2 1
  let rung := if d.rung.toNat < 6 then d.rung + 1 else d.rung
  let s := logEvent s (islandDie island) 0x06 0 0
    (BitVec.ofNat 64 (island + (trig <<< 16) + (rung.toNat <<< 24))) loc 0
  if d.rung.toNat < 6 then
    if rung.toNat % 2 = 1 then
      keepIsland s island { d with rung := rung, margin := if d.margin.toNat < 7 then d.margin + 1 else d.margin }
    else keepIsland s island { d with rung := rung, trim := if d.trim.toNat < 3 then d.trim + 1 else d.trim }
  else spareFailing s island what

/-- A correctable finding of detector 0x04, 0x07, 0x08 or 0x09 in a storage array of an island: the sixteenth of one window
raises T4, and its count starts again (R398). -/
def noteStorage (s : State) (island det array : Nat) (what : Failing) : State :=
  let d := islandOf s island
  let k := det * 65536 + array
  let n := NMap.getD d.arrays k 0 + 1
  if 16 ≤ n then
    trigger (setIsland s island { d with arrays := NMap.put 0 d.arrays k 0 }) island 4 (BitVec.ofNat 64 array) what
  else setIsland s island { d with arrays := NMap.put 0 d.arrays k n }

/-- A canary trip of an island is counted (R408); more than 256 in one window raise T5, and the count starts again
(R398). At rung 6 the failing unit is the tile site (R399; DEDUCED, notes/assumptions/90.md). -/
def noteCanary (s : State) (island : Nat) : State :=
  let s := bump s 6 island 1 1
  let d := islandOf s island
  if 256 ≤ d.trips then trigger (setIsland s island { d with trips := 0 }) island 5 0 .site
  else setIsland s island { d with trips := d.trips + 1 }

/-- Location argument of a cell: row [6:0], column [14:8]. -/
def cellLoc (row col : Nat) : DWord := BitVec.ofNat 64 (row + (col <<< 8))

/-- Event 0x0E: a corrected replay (R411); no row or no column is logged as 0x7F. -/
def logReplay (s : State) (site row col set : Nat) (inj : Bool) : State :=
  logEvent s (site / 192) 0x0E 0 0 (BitVec.ofNat 64 (site + (row <<< 16) + (col <<< 24) + (set <<< 32))) 0 0 inj

/-- A corrected replay located to a cell (R161); the second of one window raises T1 (R398). -/
def noteCell (s : State) (site row col set : Nat) : State :=
  let s := logReplay s site row col set false
  let d := islandOf s site
  let k := row * 64 + col
  if NSet.has d.cells k then
    trigger (setIsland s site { d with cells := NSet.del d.cells k }) site 1 (cellLoc row col) (.cell row col)
  else setIsland s site { d with cells := NSet.add d.cells k }

/-- A checksum-cell event (R161): row r is check cell r, column c is 64 + c; the second of one window raises T2. -/
def noteCheck (s : State) (site k : Nat) : State :=
  let s := bump s 1 site 7 1
  let d := islandOf s site
  if NSet.has d.checks k then
    trigger (setIsland s site { d with checks := NSet.del d.checks k }) site 2
      (if k < 64 then cellLoc k 0x7F else cellLoc 0x7F (k - 64)) .site
  else setIsland s site { d with checks := NSet.add d.checks k }

/-- A row (kind 0) or column (kind 1) substitution has taken effect: event 0x07 with the element and the spare, physical
row or column 64, and the lifetime total (R133, R408, R411). -/
def logSubst (s : State) (site kind elem : Nat) : State :=
  bumpLife (logEvent s (site / 192) 0x07 0 0 (BitVec.ofNat 64 (kind + (site <<< 16))) (BitVec.ofNat 64 (elem + (64 <<< 16))) 0)
    (site / 192) 2 1

/-- The substitutions of a site that wait take effect: they are fused, logged and counted (R164, R399, R401). -/
def applyRepair (s : State) (site : Nat) : State :=
  let e := repairOf s site
  if repairPend e then
    let e' := e &&& ~~~2#64
    let old := NMap.getD s.persist.repair site (Config.factoryRepair site &&& 0xFFFF0000#64)
    let s := setRepair s site e'
    let s := { s with persist := { s.persist with repair := NMap.insert s.persist.repair site e' } }
    let s := if repairRv e && !repairRv old then logSubst s site 0 (fld e 30 24) else s
    if repairCv e && !repairCv old then logSubst s site 1 (fld e 22 16) else s
  else s

end Sys2Proof.Machine
end

