-- ==== Sys2Proof/Machine/Faults.lean ====
section
/-! DEFINITION. Fault records and their effects (R25 to R28, R56 to R59): the one operation by which a unit raises a
fault, and the closing of speculation epochs (R202). -/

namespace Sys2Proof.Machine

/-- Class of a fault as its record holds it (R56, R58). -/
inductive FClass where
  | c | r | f
  deriving DecidableEq, Repr

def FClass.code : FClass → Nat
  | .c => 0
  | .r => 1
  | .f => 2

/-! Fault codes of R59. -/
def badHandle : Nat := 0x01
def staleHandle : Nat := 0x02
def wrongOwner : Nat := 0x03
def objectKind : Nat := 0x04
def objectRights : Nat := 0x05
def objectTableFull : Nat := 0x06
def objectQuota : Nat := 0x07
def heapBadFree : Nat := 0x08
def pageNotPresent : Nat := 0x10
def pagePermission : Nat := 0x11
def pteMalformed : Nat := 0x12
def addressRange : Nat := 0x13
def frozenWrite : Nat := 0x14
def deadLineRead : Nat := 0x15
def badOpcode : Nat := 0x20
def badPacket : Nat := 0x21
def privilegedCommand : Nat := 0x22
def commandListBounds : Nat := 0x23
def fenceAbandoned : Nat := 0x24
def opAborted : Nat := 0x25
def contextKilled : Nat := 0x26
def illegalInstruction : Nat := 0x30
def misaligned : Nat := 0x31
def barrierDivergence : Nat := 0x32
def groupStalled : Nat := 0x33
def matrixDivergent : Nat := 0x34
def matrixRegion : Nat := 0x35
def launchResources : Nat := 0x36
def streamDescriptor : Nat := 0x37
def batonInvalid : Nat := 0x38
def messageDest : Nat := 0x39
def dispatchDescriptor : Nat := 0x3A
def poisonConsumed : Nat := 0x40
def checksumUnrecovered : Nat := 0x41
def epochMismatch : Nat := 0x50
def remoteNoWindow : Nat := 0x51
def remotePermission : Nat := 0x52
def remoteUnreachable : Nat := 0x53
def digestMismatch : Nat := 0x54
def updateGroupInvalid : Nat := 0x60
def updateStateFormat : Nat := 0x61

/-- The class that R59 gives a code. PAGE_NOT_PRESENT is class R for a stream engine, the fabric transaction unit
acting for a stream, and an update engine; resumable says that the raising unit is one of these (DEDUCED,
notes/assumptions/37.md). -/
def faultClass (code : Nat) (resumable : Bool) : FClass :=
  if code < 0x08 ∨ (0x20 ≤ code ∧ code ≤ 0x26) ∨ code = 0x36 ∨ code = 0x50 ∨ 0x54 ≤ code then .c
  else if code = pageNotPresent ∧ resumable then .r
  else .f

/-- The 64 bytes of a fault record (R58). -/
def faultRecord (ctx : Nat) (seq : Word) (cls : FClass) (f : FaultInfo) : List Byte :=
  leBytes ((f.code.toNat <<< 56) + (cls.code <<< 54) + ((f.queue % 16) <<< 44) + ((ctx % 4096) <<< 32) + seq.toNat) 8 ++
  leBytes f.operand.toNat 8 ++
  leBytes ((f.die.toNat <<< 63) + (f.unit.toNat <<< 59) + (f.tile.toNat <<< 51) + (f.group.toNat <<< 45)) 8 ++
  leBytes f.loc.toNat 8 ++ leBytes f.mask.toNat 8 ++ leBytes f.detail.toNat 8 ++ leBytes 0 16

/-- Whether a physical address is one that module records can be written to; a record aimed elsewhere is lost
(notes/assumptions/17.md). -/
def recordTarget (s : State) (pa : Nat) : Bool := backed s pa 64

/-- Write a fault record, or drop it and count it; either way the fault takes the next FSEQ and the driver is
notified (R57, R67, R68). -/
def writeFaultRecord (s : State) (ctx : Nat) (cls : FClass) (f : FaultInfo) : State :=
  let d := ctxOf s ctx
  let seq := d.fseq
  let size := if d.frset then 2 ^ (6 + d.frsize.toNat) else 0
  if (d.frprod - d.frcons).toNat < size then
    let pa := d.frbase.toNat * 64 + d.frprod.toNat % size * 64
    let s := if recordTarget s pa then physWrite s pa (faultRecord ctx seq cls f) 63 else s
    let s := updCtx s ctx fun d => { d with frprod := d.frprod + 1, fseq := d.fseq + 1 }
    notify s 1 f.queue ctx seq f.code.toNat
  else
    let s := updCtx s ctx fun d => { d with frlost := d.frlost + 1, fseq := d.fseq + 1 }
    notify s 2 f.queue ctx seq f.code.toNat

/-- Close every open speculation epoch of a context: its pending fills end as false starts (R202). -/
def closeEpochs (s : State) (ctx : Nat) : State :=
  let s := (s.fills.filter fun e => e.2.ctx == ctx && !e.2.confirmed).foldl (fun s e => dropFill s e.1 4) s
  { s with epochs := s.epochs.filter fun e => e.ctx != ctx }

/-- QSTATE of every queue of a context, where it is not DISABLED. -/
def setQueues (s : State) (ctx : Nat) (st : QState) : State :=
  (List.range 16).foldl (fun s q => updQueue s ctx q fun d =>
    if d.qstate = .disabled then d else { d with qstate := st }) s

/-- The tile is free; what its stores hold stays until a launch takes it (R94). -/
def freeTile (t : Tile) : Tile :=
  { t with launch := none, bqs := [], groups := [], active := [], eligible := [], bars := [], spec := none, startLeft := none,
           streams := [], msgs := [], deferred := [], samples := [], l1Miss := [] }

/-- A tile that a launch loses: its array has discarded what has not committed, and its streams stop. -/
def stopTile (t : Tile) : Tile := { freeTile t with array := { t.array with accepted := [], winDone := none } }

/-- The request was issued on one of the sites. -/
def remoteOn (sites : List Nat) (w : RemoteOf) : Bool :=
  match w with
  | .stream site _ _ => sites.contains site
  | .msgSend site _ => sites.contains site
  | .msgGet site _ _ => sites.contains site
  | _ => false

/-- Forget the remote requests that p picks; their responses are discarded and counted when they come (R362). -/
def forgetRemotes (s : State) (p : Remote → Bool) : State :=
  { s with remotes := s.remotes.filter fun e => !p e.2 }

/-- Preempt every launch of a context and free its tiles: the arrays discard what has not committed (R171), and the
streams stop, post no baton and hold no freeze (R271). That a class F fault frees the tiles, as a kill and an abort do,
is DEDUCED (R86, R87, notes/assumptions/34.md). -/
def dropLaunches (s : State) (ctx : Nat) : State :=
  let ls := s.launches.filter fun l => l.ctx == ctx
  let s := { s with
    tiles := s.tiles.map fun (e : Nat × Tile) =>
      match e.2.launch with
      | some c => if c.ctx = ctx then (e.1, stopTile e.2) else e
      | none => e
    launches := s.launches.filter fun l => l.ctx != ctx }
  forgetRemotes s fun q => q.ctx == ctx && ls.any fun l => remoteOn l.sites q.what

/-- End the standing halts that p picks: a queue whose last halt ends returns from HALTED to ENABLED (R64). -/
def endHalts (s : State) (p : Halt → Bool) : State :=
  let left := s.halts.filter fun h => !p h
  let s' := { s with halts := left }
  (s.halts.filter p).foldl (fun s h =>
    let q := queueOf s h.ctx h.queue
    if q.qstate = .halted ∧ !(left.any fun k => k.ctx == h.ctx && k.queue == h.queue) then
      setQueue s h.ctx h.queue { q with qstate := .enabled }
    else s) s'

/-- The context enters FAULTED (R25, R26): its queues stop and its running work is preempted; a context that is
KILLING keeps its state (R92). -/
def enterFaulted (s : State) (ctx : Nat) (code : BitVec 8) : State :=
  let d := ctxOf s ctx
  let s := if d.firstcode = 0 then setCtx s ctx { d with firstcode := code } else s
  match d.state with
  | .active | .suspended =>
    dropLaunches (closeEpochs (setQueues (updCtx s ctx fun d => { d with state := .faulted }) ctx .stopped) ctx) ctx
  | _ => s

/-- Raise a fault against a context: the record, the count of type 0x05, and for class F the state FAULTED
(R56, R57). What a class C or class R fault does to its command or engine is the caller's. -/
def raiseFault (s : State) (ctx : Nat) (cls : FClass) (f : FaultInfo) : State :=
  let s := writeFaultRecord (bump s 5 ctx 7 1) ctx cls f
  if cls = .f then enterFaulted s ctx f.code else s

/-- Raise a class R fault: what stands halted under the SEQ of its record, and its queue (R56, R64). -/
def raiseHalt (s : State) (ctx : Nat) (f : FaultInfo) (what : HaltOf) : State :=
  let seq := (ctxOf s ctx).fseq
  let s := raiseFault s ctx .r f
  let s := { s with halts := s.halts ++ [{ ctx := ctx, queue := f.queue, seq := seq, what := what }] }
  updQueue s ctx f.queue fun q => if q.qstate = .enabled then { q with qstate := .halted } else q

/-- Fault information of a unit that runs a command outside the tiles, and the state after it (R58). Each die has such a
unit and the pair acts as one, so DIE is a free value; so is WHERE, but for unit 0, since the others run no instruction
(notes/assumptions/33.md). -/
def unitFault (s : State) (unit : Nat) (k : Cmd) (code : Nat) (operand detail : DWord) : FaultInfo × State :=
  let d := takeFree s
  let w := if unit = 0 then (k.pktAddr, d.2) else takeFree d.2
  ({ code := BitVec.ofNat 8 code, queue := k.ref.queue, operand := operand, die := BitVec.ofNat 1 d.1.toNat,
     unit := BitVec.ofNat 4 unit, tile := 0, group := 0, loc := w.1, mask := 0, detail := detail }, w.2)

end Sys2Proof.Machine
end

