-- ==== Sys2Proof/Machine/Tables.lean ====
section
/-! DEFINITION. The module's tables as words and bytes of the module-reserved region (R22, R24, R39, R64, R78, R163,
R181, R285): the view that the kernel driver and privileged contexts read. -/

namespace Sys2Proof.Machine

def CtxState.code : CtxState → Nat
  | .free => 0 | .active => 1 | .suspended => 2 | .faulted => 3 | .killing => 4 | .scrubbing => 5

def QState.code : QState → Nat
  | .disabled => 0 | .enabled => 1 | .stopped => 2 | .halted => 3

def ObjState.code : ObjState → Nat
  | .free => 0 | .live => 1 | .freePending => 2

def ObjKind.code : ObjKind → Nat
  | .buffer => 0 | .heap => 1 | .fence => 2 | .ring => 3 | .imported => 4

/-- QMASK of a context (R24): the queues bound to resident slots. -/
def qmask (s : State) (ctx : Nat) : Nat :=
  ((List.range 16).map fun q => if (queueOf s ctx q).bound then 2 ^ q else 0).sum

def b2n (b : Bool) : Nat := if b then 1 else 0

/-- The words of a context descriptor (R24). -/
def ctxWord (s : State) (ctx w : Nat) : Nat :=
  let d := ctxOf s ctx
  match w with
  | 0 => (d.state.code <<< 61) + (b2n d.priv <<< 60) + (b2n d.deadchk <<< 59) + (d.part.toNat <<< 48) +
      (d.job.toNat <<< 28) + ctx
  | 1 => d.root.toNat <<< 16
  | 2 => (d.heap1.toNat <<< 32) + d.heap0.toNat
  | 3 => (d.heap3.toNat <<< 32) + d.heap2.toNat
  | 4 => (d.frsize.toNat <<< 56) + (d.frbase.toNat <<< 6)
  | 5 => (d.frprod.toNat <<< 32) + d.frcons.toNat
  | 6 => (d.firstcode.toNat <<< 56) + d.frlost.toNat
  | 7 => (qmask s ctx <<< 48) + d.fseq.toNat
  | 8 => (d.objcount.toNat <<< 20) + d.objquota.toNat
  | 9 => d.seed.toNat
  | _ => 0

/-- The words of a queue descriptor (R64). -/
def queueWord (s : State) (ctx queue w : Nat) : Nat :=
  let q := queueOf s ctx queue
  match w with
  | 0 => (q.qstate.code <<< 61) + (q.engine.toNat <<< 58) + (q.prio.toNat <<< 56) + (b2n q.eval <<< 55) +
      (b2n q.bound <<< 54) + (q.slot.toNat <<< 40) + q.ring.toNat
  | 1 => (q.tail.toNat <<< 32) + q.head.toNat
  | 2 => (q.cprod.toNat <<< 32) + q.ccons.toNat
  | 3 => (q.retired.toNat <<< 32) + q.outst.toNat
  | _ => 0

/-- The words of an object-table entry (R39, R65, R78). -/
def objWord (s : State) (i w : Nat) : Nat :=
  let o := objOf s i
  match w with
  | 0 => (o.state.code <<< 62) + (o.kind.code <<< 59) + (o.rights.toNat <<< 56) + (o.owner.toNat <<< 44) +
      (o.gen.toNat <<< 32) + o.src.toNat
  | 1 => o.w1.toNat
  | 2 => o.w2.toNat
  | 3 => (o.impcount.toNat <<< 24) + o.inflight.toNat
  | _ => 0

/-- The words of a route table entry (R181). -/
def routeWord (s : State) (i w : Nat) : Nat :=
  let r := routeOf s i
  match w with
  | 0 => r.w0.toNat
  | 1 => r.w1.toNat
  | 2 => r.w2.toNat
  | _ => r.w3.toNat

/-- The array repair entry of a tile site of a die (R163), with its DIE and SITE fields. -/
def repairWord (s : State) (die site : Nat) : Nat :=
  if site < 192 then (die <<< 63) + (site <<< 55) + (repairOf s (die * 192 + site)).toNat % 2 ^ 32 else 0

/-- What an address of the module-reserved region belongs to (R285). -/
inductive ResArea where
  /-- A byte of a table that the model holds as fields. -/
  | table (b : Byte)
  /-- A table whose layout the manual does not give: the retirement bitmap and the dead-bit table. -/
  | opaqueTable
  | firmware
  | pool
  deriving DecidableEq, Repr

/-- Byte k of a number. -/
def byteOf (w k : Nat) : Byte := BitVec.ofNat 8 (w >>> (8 * k))

/-- The area of R285 at an address of the module-reserved region. -/
def resArea (s : State) (pa : Nat) : ResArea :=
  let die := if pa < 0xBE00000000 then 0 else 1
  let off := pa - 0xBC00000000 - die * 0x200000000
  let k := pa % 8
  if 0x80000000 ≤ off then .pool
  else if off < 0x80000 then
    if die = 0 then .table (byteOf (ctxWord s (off / 128) (off % 128 / 8)) k) else .firmware
  else if off < 0x480000 then
    let q := (off - 0x80000) / 64
    if die = 0 then .table (byteOf (queueWord s (q / 16) (q % 16) (off % 64 / 8)) k) else .firmware
  else if 0x1000000 ≤ off ∧ off < 0x3000000 then
    if die = 0 then .table (byteOf (objWord s ((off - 0x1000000) / 32) (off % 32 / 8)) k) else .firmware
  else if 0x4000000 ≤ off ∧ off < 0x4800000 then
    .table (byteOf (routeWord s ((off - 0x4000000) / 32) (off % 32 / 8)) k)
  else if 0x5000000 ≤ off ∧ off < 0x5000800 then
    .table (byteOf (repairWord s die ((off - 0x5000000) / 8)) k)
  else if 0x5001000 ≤ off ∧ off < 0x50C1000 then .opaqueTable
  else if 0x40000000 ≤ off ∧ off < 0x70000000 then .opaqueTable
  else .firmware

/-- What a read of the module-reserved region returns at pa: memory in a driver pool, the tables' words, and a free
value where the manual gives no layout or forbids the read (notes/assumptions/18.md). -/
def resByte (s : State) (pa : Nat) : Byte :=
  match resArea s pa with
  | .pool => cohByte s pa
  | .table b => b
  | .opaqueTable => BitVec.ofNat 8 (Config.freeWord s.freeCtr).toNat
  | .firmware => BitVec.ofNat 8 (Config.freeWord s.freeCtr).toNat

end Sys2Proof.Machine
end

