-- ==== Sys2Proof/Machine/Walk.lean ====
section
/-! DEFINITION. The walk of the translation tables (R31 to R34, R36, R283, R284), and the log of armed injections (R403,
R404). -/

namespace Sys2Proof.Machine

/-- Kind of an access (R34). -/
inductive Acc where
  | read | write | fetch
  deriving DecidableEq, Repr

/-- Fields of a translation table entry (R33). -/
def pteV (e : DWord) : Bool := bit e 0
def pteLeaf (e : DWord) : Bool := bit e 1
def pteRd (e : DWord) : Bool := bit e 2
def pteW (e : DWord) : Bool := bit e 3
def pteX (e : DWord) : Bool := bit e 4
def pteA (e : DWord) : Bool := bit e 5
def pteD (e : DWord) : Bool := bit e 6
def pteRmt (e : DWord) : Bool := bit e 7
def pteCp (e : DWord) : Nat := fld e 55 54
def ptePa (e : DWord) : Nat := fld e 47 16 * 65536
def pteNext (e : DWord) : Nat := fld e 47 8 * 256

/-- The malformed entries of R34 at a level. -/
def pteBad (lvl : Nat) (e : DWord) : Bool :=
  fld e 53 48 ≠ 0 || fld e 63 56 ≠ 0 ||
  (if pteLeaf e then
    lvl == 3 || fld e 15 8 ≠ 0 || pteCp e == 3 || (lvl == 2 && fld e 29 16 ≠ 0) || (lvl == 1 && fld e 20 16 ≠ 0)
  else
    lvl == 0 || fld e 55 54 ≠ 0 || fld e 7 2 ≠ 0 || ((lvl == 3 || lvl == 2) && fld e 11 8 ≠ 0))

/-- Bytes that a leaf at a level maps. -/
def pageSize (lvl : Nat) : Nat :=
  match lvl with
  | 0 => 65536
  | 1 => 2097152
  | _ => 1073741824

/-- Index of a virtual address in a table of a level. -/
def vaIndex (lvl va : Nat) : Nat :=
  match lvl with
  | 0 => field va 20 16
  | 1 => field va 29 21
  | 2 => field va 38 30
  | _ => field va 51 39

/-- Pages that no leaf may name (R283), and frames whose retirement has taken effect. -/
def leafForbidden (s : State) (ctx : Nat) (lvl : Nat) (e : DWord) : Bool :=
  let pa := ptePa e
  let n := pageSize lvl
  !backed s pa n || (touchesReserved pa n && !(ctxOf s ctx).priv) ||
    s.retired.any fun f => decide (pa ≤ f * 65536 ∧ f * 65536 < pa + n)

/-- Outcome of a walk: the leaf, its level and its address, or the code and detail of a fault. -/
inductive Walk where
  | leaf (e : DWord) (lvl at_ : Nat)
  | fault (code detail : Nat)
  deriving DecidableEq, Repr

/-- An invalidation of a context's translations of va has completed since a change (R36). -/
def invalidated (s : State) (ctx va stamp : Nat) : Bool :=
  s.invals.any fun i => i.ctx == ctx && decide (stamp < i.stamp ∧ i.first ≤ va / 65536 ∧ va / 65536 < i.first + i.n)

/-- Earlier words of the table entry at an address that the module may still use for va in a context: no invalidation
covers them since (R36). -/
def oldWords (s : State) (ctx va at_ : Nat) : List DWord :=
  (s.oldPtes.filter fun o => o.at_ == at_ && !invalidated s ctx va o.stamp).map (·.word)

/-- The table entry at an address that a walk uses at a level: the one that stands there, or an earlier one, as pick has
it; the flag says that the one in memory is read. -/
def pteAt (s : State) (ctx va pick lvl at_ : Nat) : DWord × Bool :=
  match oldWords s ctx va at_ with
  | [] => (physWord s at_, true)
  | o :: olds =>
    match pick / 65536 ^ lvl % (olds.length + 2) with
    | 0 => (physWord s at_, true)
    | n + 1 => (((o :: olds)[n]?).getD o, false)

/-- The walk from a table of level lvl − 1 down (R33, R34, R283, R284). -/
def walkFrom (s : State) (ctx va pick : Nat) (lvl table : Nat) : Walk :=
  match lvl with
  | 0 => .fault pteMalformed 0
  | lvl + 1 =>
    let at_ := table + vaIndex lvl va * 8
    let p := pteAt s ctx va pick lvl at_
    let e := p.1
    if !inDriverPool at_ then .fault pteMalformed 0
    else if p.2 && cohPoison s at_ then .fault poisonConsumed 0x09
    else if !pteV e then .fault pageNotPresent 0
    else if pteBad lvl e then .fault pteMalformed 0
    else if pteLeaf e then
      if leafForbidden s ctx lvl e then .fault pteMalformed 0 else .leaf e lvl at_
    else walkFrom s ctx va pick lvl (pteNext e)

/-- The walk of an address of a context from ROOT (R31, R32), pick choosing among the entries that may be used (R36). -/
def walkPick (s : State) (ctx : Nat) (va : DWord) (pick : Nat) : Walk :=
  if va.toNat ≥ 2 ^ 52 then .fault addressRange 0
  else if va.toNat < 65536 then .fault pageNotPresent 0
  else walkFrom s ctx va.toNat pick 4 ((ctxOf s ctx).root.toNat * 65536)

/-- The walk of the tables as they stand. -/
def walk (s : State) (ctx : Nat) (va : DWord) : Walk := walkPick s ctx va 0

/-- Addresses of the entries that a walk reads, from a table of level lvl − 1 down. -/
def walkReads (s : State) (ctx va pick lvl table : Nat) : List Nat :=
  match lvl with
  | 0 => []
  | lvl + 1 =>
    let at_ := table + vaIndex lvl va * 8
    let p := pteAt s ctx va pick lvl at_
    if !inDriverPool at_ then []
    else if !pteV p.1 || pteLeaf p.1 then [at_]
    else at_ :: walkReads s ctx va pick lvl (pteNext p.1)

/-- The leaf permits the access (R34). -/
def permits (acc : Acc) (e : DWord) : Bool :=
  match acc with
  | .read => pteRd e
  | .write => pteW e
  | .fetch => pteX e

/-- A translated access: device physical address, cache policy as it acts (R283), and the leaf. -/
structure Target where
  pa   : Nat
  cp   : Nat
  leaf : DWord
  deriving DecidableEq, Repr

/-- The target that a leaf of a level gives an address; cacheable leaves outside the fast tier act as streaming
(R283). -/
def targetOf (lvl : Nat) (e va : DWord) : Target :=
  let n := pageSize lvl
  let pa := ptePa e / n * n + va.toNat % n
  let cp := match regionOf pa with
    | .fast | .reserved => pteCp e
    | _ => if pteCp e = 0 then 1 else pteCp e
  { pa := pa, cp := cp, leaf := e }

/-! ### Injections (R403, R404) -/

/-- The die that logs an injection: that of the island, slice, tier chip, port or address's home, and die 0 for a digest
mismatch (R406); where the address has no home, a free value (notes/assumptions/57.md). -/
def injectionDie (s : State) (i : Injection) : Nat × State :=
  let det := i.det.toNat
  let t := i.target.toNat
  if (0x06 ≤ det ∧ det ≤ 0x0E) ∨ det = 0x13 then
    (if t < 384 then t / 192 else if t < 396 then 0 else if t < 408 then 1 else (t - 408) / 2, s)
  else if det = 0x0F then (t / 128, s)
  else if det = 0x10 then (t / 2, s)
  else if det = 0x11 then (t / 10, s)
  else if det = 0x14 then (0, s)
  else match walk s i.ctx (BitVec.ofNat 64 i.va.toNat) with
    | .leaf e lvl _ => (homeDie s (targetOf lvl e (BitVec.ofNat 64 i.va.toNat)).pa, s)
    | .fault .. => ((takeFree s).1.toNat % 2, (takeFree s).2)

/-- Log an injection (event 0x08) on a die: 0 armed, 1 fired, 2 discarded (notes/assumptions/20.md). -/
def logInjectionOn (s : State) (die : Nat) (i : Injection) (what : Nat) : State :=
  logEvent s die 0x08 0 i.ctx
    (BitVec.ofNat 64 (what + (i.det.toNat <<< 8) + (i.kind.toNat <<< 16))) (BitVec.ofNat 64 i.target.toNat)
    (BitVec.ofNat 64 i.va.toNat) true

/-- Log an injection on its die. -/
def logInjection (s : State) (i : Injection) (what : Nat) : State :=
  logInjectionOn (injectionDie s i).2 (injectionDie s i).1 i what

/-- Discard the armed injections that p picks, logging each (R404). -/
def discardInjections (s : State) (p : Injection → Bool) : State :=
  let s' := (s.injections.filter p).foldl (fun s i => logInjection s i 2) s
  { s' with injections := s'.injections.filter fun i => !p i }

/-- The first armed injection that p picks fires: it is logged, counted in the lifetime total of its die, and gone
(R403, R404). -/
def fireInjection (s : State) (p : Injection → Bool) : Option (Injection × State) :=
  match s.injections.find? p with
  | some i =>
    let d := injectionDie s i
    let s := bumpLife (logInjectionOn d.2 d.1 i 1) d.1 6 1
    some (i, { s with injections := s.injections.erase i })
  | none => none

end Sys2Proof.Machine
end

