-- ==== Sys2Proof/Machine/Findings.lean ====
section
/-! DEFINITION. What the detectors of storage find (R307 to R309, R317, R384, R385, R396, R398, R403 to R405): natural findings,
which stand as faults that no detector has met yet, and armed injections, each met at the next event of its point. -/

namespace Sys2Proof.Machine

/-! ### Meeting a fault (R405) -/

/-- What a detector meets at an event: the KIND of R403, the natural fault where it is one, and the state after it. -/
structure Met where
  kind    : Nat
  natural : Option Latent
  s       : State

/-- The finding of an event: the first natural fault that n picks, else the first armed injection that p picks, which
fires; where both stand, the injection stays armed (R405). -/
def meet (s : State) (n : Latent → Bool) (p : Injection → Bool) : Option Met :=
  match s.latents.find? n with
  | some l => some { kind := l.kind.toNat, natural := some l, s := { s with latents := s.latents.erase l } }
  | none =>
    match fireInjection s p with
    | some (i, s) => some { kind := i.kind.toNat, natural := none, s := s }
    | none => none

/-- A finding enters the lifetime totals of a die, corrected (0) or uncorrectable (1), unless it is injected (R404,
R408). -/
def lifeFinding (m : Met) (s : State) (die word : Nat) : State :=
  match m.natural with
  | some _ => bumpLife s die word 1
  | none => s

/-- A natural correctable finding of a storage array counts toward T4 (R398, R404). -/
def arrayFinding (m : Met) (s : State) (island : Nat) (what : Latent → Failing) : State :=
  match m.natural with
  | some l => noteStorage s island l.det.toNat l.array (what l)
  | none => s

/-! ### Rows, repair and retirement (R307 to R309, R316, R317) -/

/-- Where a slow-tier byte lies: its channel and its address in the DIMM (R316). With one DIMM in use, that is the
channel in use. -/
def dimmPlace (s : State) (c offset : Nat) : Nat × Nat :=
  let t := chipOf s c
  if t.dimmA ≠ 0 ∧ t.dimmB ≠ 0 then (field offset 10 10, (field offset 38 11 <<< 10) + offset % 1024)
  else (if t.dimmB = 0 then 0 else 1, offset)

/-- Row of an address within its bank: a granule lies wholly in one row, and the model takes one granule to a row
(DESIGN CHOICE, notes/assumptions/27.md). -/
def rowOf (s : State) (pa : Nat) : Nat :=
  match regionOf pa with
  | .slow c => (dimmPlace s c (pa - (0x010000000000 + c * 0x8000000000))).2 / 1024
  | .far c => (pa - (0x040000000000 + c * 0x40000000000)) / 1024
  | _ => granuleIndex pa / 32

/-- A row repair (event 0x05). -/
def logRepair (s : State) (unit bank row die : Nat) (hard : Bool) : State :=
  logEvent s die 0x05 0 0 (BitVec.ofNat 64 (unit + (bank <<< 8) + ((row % 2 ^ 32) <<< 16))) (if hard then 1 else 0) 0

/-- The frame is recorded for retirement, once (R309, R396): the record and event 0x04. -/
def markRetire (s : State) (pa det : Nat) : State :=
  let f := pa / 65536
  if NSet.has s.retire f then s
  else
    let die := homeDie s pa
    let s := match regionOf pa with
      | .slow _ | .far _ => s
      | _ => bump s 3 (homeSlice s pa) 4 1
    let s := bumpLife s die 5 1
    logEvent { s with retire := NSet.add s.retire f } die 0x04 0 0 (BitVec.ofNat 64 (f * 65536)) (BitVec.ofNat 64 det) 0

/-- Soft post-package repair of the row at pa: a spare row of its bank serves it, or the frame is retired where none is
left (R308, R309, R402). A DIMM's spare rows are its devices' affair. -/
def repairRow (s : State) (pa : Nat) : State :=
  match regionOf pa with
  | .slow c =>
    let b := takeBool s
    if b.1 then
      let s := { b.2 with persist := { b.2.persist with softRows := b.2.persist.softRows ++ [(256 + c, pa)] } }
      logRepair s c 0 (rowOf s pa) (c / 2) false
    else markRetire b.2 pa 0x02
  | _ =>
    let ch := homeSlice s pa
    let k := ch * 32 + bankOf pa
    let used := NMap.getD s.spareRows k 0
    if used < 2 then
      let s := { s with spareRows := NMap.put 0 s.spareRows k (used + 1)
                        persist := { s.persist with softRows := s.persist.softRows ++ [(ch, pa)] } }
      logRepair (bump s 3 ch 2 1) ch (bankOf pa) (rowOf s pa) (ch / 128) false
    else markRetire s pa 0x01

/-- Mark the sector at pa poisoned, where it is stored and as its home slice answers (R307). -/
def poisonSector (s : State) (pa : Nat) : State :=
  let k := pa / 64
  match NMap.find s.lines (pa / 256) with
  | some l =>
    { s with lines := NMap.insert s.lines (pa / 256) { l with poisonOn := NSet.add l.poisonOn k, poisonOff := NSet.del l.poisonOff k } }
  | none => { s with poison := NSet.add s.poison k }

/-- Count a correctable (word 0) or uncorrectable (word 1) finding of the channel or tier chip at pa (R408). -/
def countFinding (s : State) (pa word : Nat) : State :=
  match regionOf pa with
  | .slow c | .far c => bump s 7 c word 1
  | _ => bump s 3 (homeSlice s pa) word 1

/-- A correctable error found in a sector: counted, corrected in place, and the fourth of one row in a pass repairs the
row. -/
def noteCorrectable (s : State) (pa : Nat) : State :=
  let s := bumpLife (countFinding s pa 0) (homeDie s pa) 0 1
  let k := pa / 1024
  let found := NSet.add (NMap.getD s.patrol k []) (pa / 64)
  if 4 ≤ found.length then repairRow { s with patrol := NMap.put [] s.patrol k [] } pa
  else { s with patrol := NMap.put [] s.patrol k found }

/-- An uncorrectable error: the sector is poisoned where it is stored, and its frame is retired (R396). -/
def noteUncorrectable (s : State) (pa : Nat) : State :=
  let s := bumpLife (countFinding s pa 1) (homeDie s pa) 1 1
  let det := match regionOf pa with
    | .slow _ => 0x02
    | .far _ => 0x03
    | _ => 0x01
  markRetire { s with poison := NSet.add s.poison (pa / 64) } pa det

/-- What a read of a sector at its channel, DIMM or device finds. -/
def noteFinding (s : State) (pa : Nat) (fnd : Finding) : State :=
  match fnd with
  | .clean => s
  | .correctable => noteCorrectable s pa
  | .uncorrectable => noteUncorrectable s pa

/-- An uncorrectable slice-tag finding stops the module (R385): event 0x0D and the step log's entry (R419); only a module
reset ends it. -/
def moduleStop (s : State) (die det : Nat) (loc : DWord) (inj : Bool) : State :=
  let s := addStep (logEvent s die 0x0D 0 0 (BitVec.ofNat 64 det) loc 0 inj) 0xF0 1 1 det 0xFF loc
  { s with run := .stop, mgmt := { s.mgmt with events := s.mgmt.events ++ [1] }, power := { s.power with alert := true } }

/-! ### Findings of an access at its home slice and below (R384, R404) -/

/-- The device physical address at which an injection's VA stands in the tables of its context. -/
def injectionPa (s : State) (i : Injection) : Option Nat :=
  match walk s i.ctx (BitVec.ofNat 64 i.va.toNat) with
  | .leaf e lvl _ => some (targetOf lvl e (BitVec.ofNat 64 i.va.toNat)).pa
  | .fault .. => none

/-- An armed injection of a detector of the context stands at an address that p picks. -/
def injectionIn (s : State) (ctx det : Nat) (p : Nat → Bool) (i : Injection) : Bool :=
  i.det.toNat == det && i.ctx == ctx && match injectionPa s i with
    | some pa => p pa
    | none => false

/-- The detector of the sector code at an address, by its tier. -/
def sectorDetector (pa : Nat) : Nat :=
  match regionOf pa with
  | .slow _ => 0x02
  | .far _ => 0x03
  | _ => 0x01

/-- The sector code at a channel, a DIMM or a CXL device (0x01 to 0x03) meets a fault in a read of the sector at pa by a
context. An injected finding retires nothing and repairs nothing (R404). -/
def memoryFinding (s : State) (ctx pa : Nat) : State :=
  let det := sectorDetector pa
  match meet s (fun l => l.det.toNat == det && l.pa / 64 == pa / 64) (injectionIn s ctx det fun a => a / 64 == pa / 64) with
  | none => s
  | some m =>
    if m.kind = 0 then (if m.natural.isSome then noteCorrectable m.s pa else countFinding m.s pa 0)
    else if m.natural.isSome then noteUncorrectable m.s pa
    else poisonSector (countFinding m.s pa 1) pa

/-- The tag code of a slice (0x05) meets a fault in a tag read of the set of pa: corrected from the good copy, or a module
stop (R384, R385). -/
def tagFinding (s : State) (ctx pa : Nat) : State :=
  let slice := homeSlice s pa
  let here (a : Nat) : Bool := homeSlice s a == slice && setOf a == setOf pa
  match meet s (fun l => l.det.toNat == 0x05 && l.target == slice && setOf l.pa == setOf pa) (injectionIn s ctx 0x05 here) with
  | none => s
  | some m =>
    if m.kind = 0 then lifeFinding m (bump m.s 2 slice 9 1) (slice / 128) 0
    else moduleStop (lifeFinding m (bump m.s 2 slice 10 1) (slice / 128) 1) (slice / 128) 0x05 (BitVec.ofNat 64 pa) m.natural.isNone

/-- The data code of a slice (0x04) meets a fault in a read of the line at pa: corrected, or the sector is poisoned where
it holds written bytes and fetched again where it does not (R384). -/
def dataFinding (s : State) (ctx pa part : Nat) : State :=
  match NMap.find s.lines (pa / 256) with
  | none => s
  | some l =>
    let slice := homeSlice s pa
    match meet s (fun f => f.det.toNat == 0x04 && f.target == slice && f.pa / 256 == pa / 256)
        (injectionIn s ctx 0x04 fun a => a / 256 == pa / 256) with
    | none => s
    | some m =>
      if m.kind = 0 then
        arrayFinding m (lifeFinding m (bump m.s 2 slice 9 1) (slice / 128) 0) (sliceIsland slice) fun f => .way slice f.array
      else
        let s := lifeFinding m (bump m.s 2 slice 10 1) (slice / 128) 1
        if (dirtySectors l).contains (pa % 256 / 64) then poisonSector s pa else useCredits s slice part 1

/-- No detector has anything to meet. -/
def noFaults (s : State) : Bool := s.injections.isEmpty && s.latents.isEmpty

/-- What the tag and data codes of the home slice find at an access of a context. -/
def homeFindings (s : State) (ctx pa part : Nat) : State :=
  if noFaults s || !sliceHolds pa then s else dataFinding (tagFinding s ctx pa) ctx pa part

/-- An access of a context reads n bytes of a sector at its home (R288, R384): what the detectors find on the way, and what
the slice notes of it. -/
def readHome (s : State) (ctx pa n cp part : Nat) : State :=
  if noFaults s then touchRead s pa n cp part
  else if sliceHolds pa then
    let s := homeFindings s ctx pa part
    touchRead (if sliceHit s pa n then s else memoryFinding s ctx pa) pa n cp part
  else
    match regionOf pa with
    | .slow _ | .far _ => if tierLost s pa then s else memoryFinding s ctx pa
    | _ => s

/-- An access of a context writes n bytes of a sector at its home: the tag read, and the read of a sector that the channel
merges. -/
def writeHome (s : State) (ctx pa n : Nat) (alloc : Bool) (part : Nat) : State :=
  if noFaults s then touchWrite s pa n alloc part
  else if sliceHolds pa then
    let s := tagFinding s ctx pa
    touchWrite (if n < 64 ∧ !alloc ∧ (NMap.find s.lines (pa / 256)).isNone then memoryFinding s ctx pa else s) pa n alloc part
  else s

/-- A flit of a tier link: every 2^20 the count of retries starts again (R313). -/
def tierFlit (s : State) (c : Nat) : State :=
  let t := chipOf s c
  setChip s c (if t.flits + 1 < 1048576 then { t with flits := t.flits + 1 } else { t with flits := 0, retries := 0 })

/-- Event 0x0A of a tier chip: what is 0 DIMM A, 1 DIMM B, 2 CXL port, 3 tier link (DESIGN CHOICE,
notes/assumptions/59.md). -/
def logTier (s : State) (chip what reason : Nat) : State :=
  logEvent s (chip / 2) 0x0A 0 0 (BitVec.ofNat 64 (chip + (what <<< 8) + ((reason % 256) <<< 16))) 0 0

/-- Event 0x0A with a reason that the manual does not give. -/
def logTierFree (s : State) (chip what : Nat) : State := logTier (takeFree s).2 chip what (takeFree s).1.toNat

/-- A tier link retrains on a pair of lanes that trains, else it is down until the next module reset (R313). -/
def retrainTier (s : State) (chip : Nat) (pair01 pair23 : Bool) : State :=
  logTierFree (setChip s chip { chipOf s chip with
    link := if pair01 || pair23 then .two else .down, flits := 0, retries := 0 }) chip 3

/-- A flit of a tier link is sent again (R312, R408). More than 1,024 retries within 2^20 flits make the link retrain; the
lanes that train are the hardware's affair (R313). -/
def tierRetry (s : State) (c : Nat) : State :=
  let s := bump s 7 c 4 1
  let t := chipOf s c
  if t.retries < 1024 then setChip s c { t with retries := t.retries + 1 }
  else
    let a := takeBool s
    let b := takeBool a.2
    retrainTier b.2 c a.1 b.1

/-- Traffic crosses the tier link of a chip: a flit, and where detector 0x10 meets a fault its retry (R313, R385); a link
that is down carries none. -/
def tierTraffic (s : State) (c : Nat) : State :=
  if (chipOf s c).link == .down then s
  else
    let s := tierFlit s c
    match meet s (fun l => l.det.toNat == 0x10 && l.target == c) fun i => i.det.toNat == 0x10 && i.target.toNat == c with
    | some m => tierRetry m.s c
    | none => s

/-- Scrub and patrol of a place cross the tier link where it lies in the slow or far tier (R313). -/
def tierSweep (s : State) (pa : Nat) : State :=
  match regionOf pa with
  | .slow c | .far c => tierTraffic s c
  | _ => s

/-- A packet of the mesh or the die-to-die bridge is sent again (detector 0x0F) at an access of the home slice of pa, by a
natural fault or an injection; a flit of the tier link to it (0x10) (R385) (DEDUCED, notes/assumptions/56.md). -/
def linkFindings (s : State) (pa : Nat) : State :=
  match regionOf pa with
  | .slow c | .far c => tierTraffic s c
  | .fast | .reserved | .sovel =>
    if noFaults s then s
    else
      let slice := homeSlice s pa
      match meet s (fun l => l.det.toNat == 0x0F && l.target == slice) fun i => i.det.toNat == 0x0F && i.target.toNat == slice with
      | some m => m.s
      | none => s
  | _ => s

/-! ### Findings at a tile site (R384, R403) -/

/-- A detector of a tile site meets a fault in the work of a context there. -/
def fireTile (s : State) (ctx site det : Nat) : Option Met :=
  if noFaults s then none
  else meet s (fun l => l.det.toNat == det && l.target == site)
    fun i => i.det.toNat == det && i.ctx == ctx && i.target.toNat == site

/-- A correctable finding of a storage code of a tile site (R398, R408). -/
def tileCorrected (m : Met) (site : Nat) : State :=
  arrayFinding m (lifeFinding m (bump m.s 1 site 13 1) (site / 192) 0) site fun _ => .site

/-- An uncorrectable finding at a tile site. -/
def tileUncorrected (m : Met) (site : Nat) : State := lifeFinding m m.s (site / 192) 1

/-- A mismatch of detector 0x0B, 0x0C or 0x0D at a tile site; a natural one raises T3 (R386, R398, R404). -/
def tileMismatch (m : Met) (site : Nat) : State :=
  if m.natural.isSome then trigger m.s site 3 0 .site else m.s

end Sys2Proof.Machine
end

