-- ==== Sys2Proof/Machine/Translate.lean ====
section
/-! DEFINITION. Page translation (R35, R36) and accesses by a context through it, with the rules of freezes (R268), dead
bits (R306), poison (R392 to R394), lost links (R313, R463) and detectors (R384). -/

namespace Sys2Proof.Machine

/-- Remember a translation (R36). -/
def rememberXlat (s : State) (ctx : Nat) (va leaf : DWord) (lvl : Nat) : State :=
  let x : Xlat := { ctx := ctx, page := va.toNat / 65536, leaf := leaf, lvl := lvl }
  { s with xlats := x :: s.xlats.filter fun y => !(y.ctx == ctx && y.page == x.page) }

/-- The module writes a word of a translation table on behalf of a partition (R30). -/
def tableWrite (s : State) (at_ v part : Nat) : State := physWrite (touchWrite s at_ 8 false part) at_ (leBytes v 8) part

/-- Set A, and D on a write, by an atomic update of the entry (R33, R35), charged to the context's partition (R30). It is
no change of the entry that R36 speaks of. -/
def setAD (s : State) (ctx : Nat) (acc : Acc) (at_ : Nat) (e : DWord) : State :=
  let e' := e ||| (if acc = .write then 0x60#64 else 0x20#64)
  if e' = e then s
  else { tableWrite s at_ e'.toNat (ctxPart s ctx) with oldPtes := s.oldPtes, pteCtr := s.pteCtr }

/-- The translation-cache parity (0x12) meets a fault at a lookup of the context in VA's page: the entry is discarded, and
the tables are walked again; the flag says so. -/
def xlatFinding (s : State) (ctx : Nat) (va : DWord) : State × Bool :=
  if noFaults s then (s, false)
  else
    match meet s (fun l => l.det.toNat == 0x12)
        fun i => i.det.toNat == 0x12 && i.ctx == ctx && i.va.toNat / 65536 == va.toNat / 65536 with
    | none => (s, false)
    | some m => ({ m.s with xlats := m.s.xlats.filter fun x => !(x.ctx == ctx && x.page == va.toNat / 65536) }, true)

/-- The number by which a lookup chooses among the entries that it may use (R36): the tables as they stand where no other
does, or where the entry has been discarded (DESIGN CHOICE, notes/assumptions/10.md). -/
def takePick (s : State) (discarded : Bool) : Nat × State :=
  if s.oldPtes.isEmpty || discarded then (0, s) else ((takeFree s).1.toNat, (takeFree s).2)

/-- The reads of the tables by a walk, charged to the context's partition (R30); a cached translation needs none. -/
def chargeWalk (s : State) (ctx : Nat) (va : DWord) (pick : Nat) : State :=
  if s.xlats.any fun x => x.ctx == ctx && x.page == va.toNat / 65536 then s
  else if va.toNat < 65536 ∨ 2 ^ 52 ≤ va.toNat then s
  else
    (walkReads s ctx va.toNat pick 4 ((ctxOf s ctx).root.toNat * 65536)).foldl (fun s a =>
      touchRead s a 8 1 (ctxPart s ctx)) s

/-- Translate an access of a context (R31 to R36). A and D are set in the entry that stands in the tables; an earlier entry
of a changed one is used as it was. Poison of a table entry has no virtual address, so that OPERAND is zero (R395). -/
def translate (s : State) (ctx : Nat) (acc : Acc) (va : DWord) : State × MRes Target :=
  let f := xlatFinding s ctx va
  let p := takePick f.1 f.2
  let w := walkPick p.2 ctx va p.1
  let s := chargeWalk p.2 ctx va p.1
  let opnd := va &&& 0xFFFFFFFFFFFFF#64
  match w with
  | .fault code detail => (s, .fault code (if code = poisonConsumed then 0 else opnd) detail)
  | .leaf e lvl at_ =>
    if permits acc e then
      (rememberXlat (if physWord s at_ = e then setAD s ctx acc at_ e else s) ctx va e lvl, .ok (targetOf lvl e va))
    else (s, .fault pagePermission opnd 0)

/-- A cached translation of an address that permits an access (R102, R129). -/
def cachedTarget (s : State) (ctx : Nat) (acc : Acc) (va : DWord) : Option Target :=
  match s.xlats.find? fun x => x.ctx == ctx && x.page == va.toNat / 65536 && decide (va.toNat < 2 ^ 52) with
  | some x => if permits acc x.leaf then some (targetOf x.lvl x.leaf va) else none
  | none => none

/-- Every tile that holds work: at its site, or saved with a suspended launch (R88). -/
def allTiles (s : State) : List Tile := s.tiles.map (·.2) ++ (s.launches.map fun l => l.saved.map (·.2)).flatten

/-- A stream holds the device sector frozen; a suspended one too (R268). -/
def frozenSector (s : State) (sector : Nat) : Bool :=
  (allTiles s).any fun t => t.streams.any fun x => NSet.has x.2.frozen sector

/-- The free bytes that a lost tier link returns (R313), n of them (DESIGN CHOICE, notes/assumptions/78.md). -/
def freeBytes (s : State) (n : Nat) : List Byte × State :=
  ((List.range n).map fun i => BitVec.ofNat 8 ((Config.freeWord (s.freeCtr + i)).toNat), { s with freeCtr := s.freeCtr + n })

/-- Bytes and poison marking that a read by physical address within one sector returns, and the state after it:
lost links return poisoned data (R313, R319), and the module's tables read as R285 lays them out. -/
def readAt (s : State) (pa n : Nat) : State × (List Byte × Bool) :=
  if tierLost s pa then
    let f := freeBytes s n
    (f.2, (f.1, true))
  else if touchesReserved pa n ∧ !inDriverPool pa then
    ((takeFree s).2, ((List.range n).map fun i => resByte s (pa + i), false))
  else (s, (cohBytes s pa n, cohPoison s pa))

/-- A translated read within one sector. A dead sector faults (R306); a companion read waits for the link (R463). pass says
that the access allocates nothing, whatever the page's policy (R263); near, that a tier chip reads its own memory, over no
link (R19). -/
def readTarget (s : State) (ctx : Nat) (t : Target) (va : DWord) (n : Nat) (pass : Bool := false) (near : Bool := false) :
    State × MRes (List Byte × Bool) :=
  if regionOf t.pa = .sovel ∧ !linkUp s then (s, .wait)
  else if NSet.has s.dead (t.pa / 64) then (s, .fault deadLineRead (va &&& 0xFFFFFFFFFFFC0#64) 0)
  else
    let s' := if near then s else linkFindings s t.pa
    let r := readAt (readHome s' ctx t.pa n (if pass then 1 else t.cp) (ctxPart s ctx)) t.pa n
    (r.1, .ok r.2)

/-- A read by a context, within one sector. -/
def vRead (s : State) (ctx : Nat) (acc : Acc) (va : DWord) (n : Nat) (pass : Bool := false) :
    State × MRes (List Byte × Bool) :=
  match translate s ctx acc va with
  | (s, .ok t) => readTarget s ctx t va n pass
  | (s, .fault c v d) => (s, .fault c v d)
  | (s, .wait) => (s, .wait)

/-- A translated write within one sector. A frozen sector refuses it (R268); poison may not leave for the companion
(R394 case 0x04; OPERAND is zero, and who moves data from memory puts its address there, R395); no context writes the
module's tables or firmware (R39, R285). part names the partition that is charged where it is not the context's (R29); near
says that a tier chip writes its own memory (R19). -/
def writeAt (s : State) (ctx : Nat) (t : Target) (va : DWord) (bs : List Byte) (poison pass : Bool)
    (part : Option Nat := none) (near : Bool := false) : State × MRes Unit :=
  if frozenSector s (t.pa / 64) then (s, .fault frozenWrite (va &&& 0xFFFFFFFFFFFFF#64) 0)
  else if regionOf t.pa = .sovel ∧ poison then (s, .fault poisonConsumed 0 0x04)
  else if touchesReserved t.pa bs.length ∧ !inDriverPool t.pa then (s, .ok ())
  else
    let part := part.getD (ctxPart s ctx)
    let alloc := decide (t.cp = 0) && !pass
    let s := if near then s else linkFindings s t.pa
    (cohWrite (writeHome s ctx t.pa bs.length alloc part) t.pa bs poison alloc part, .ok ())

/-- A write by a context, within one sector. -/
def vWrite (s : State) (ctx : Nat) (va : DWord) (bs : List Byte) (poison : Bool) (pass : Bool := false)
    (part : Option Nat := none) : State × MRes Unit :=
  match translate s ctx .write va with
  | (s, .ok t) => writeAt s ctx t va bs poison pass part
  | (s, .fault c v d) => (s, .fault c v d)
  | (s, .wait) => (s, .wait)

/-- Reads of a list of pieces within sectors, in order, to the first that does not succeed. -/
def vReadPieces (s : State) (ctx : Nat) (acc : Acc) (ps : List (Nat × Nat)) : State × MRes (List Byte × Bool) :=
  match ps with
  | [] => (s, .ok ([], false))
  | p :: r =>
    match vRead s ctx acc (BitVec.ofNat 64 p.1) p.2 with
    | (s, .ok (bs, q)) =>
      match vReadPieces s ctx acc r with
      | (s, .ok (cs, q')) => (s, .ok (bs ++ cs, q || q'))
      | (s, .fault c v d) => (s, .fault c v d)
      | (s, .wait) => (s, .wait)
    | (s, .fault c v d) => (s, .fault c v d)
    | (s, .wait) => (s, .wait)

/-- A read of n bytes by a context. -/
def vReadN (s : State) (ctx : Nat) (va n : Nat) : State × MRes (List Byte × Bool) :=
  vReadPieces s ctx .read (pieces va n)

/-- Writes of consecutive pieces, in order, to the first that does not succeed. -/
def vWritePieces (s : State) (ctx : Nat) (base : Nat) (bs : List Byte) (poison : Nat → Bool) (pass : Bool)
    (part : Option Nat) (ps : List (Nat × Nat)) : State × MRes Unit :=
  match ps with
  | [] => (s, .ok ())
  | p :: r =>
    match vWrite s ctx (BitVec.ofNat 64 p.1) (sliceList 0 bs (p.1 - base) p.2) (poison (p.1 - base)) pass part with
    | (s, .ok ()) => vWritePieces s ctx base bs poison pass part r
    | (s, .fault c v d) => (s, .fault c v d)
    | (s, .wait) => (s, .wait)

/-- A write of bytes by a context; poison tells by offset whether a piece carries poison. -/
def vWriteN (s : State) (ctx : Nat) (va : Nat) (bs : List Byte) (poison : Nat → Bool := fun _ => false)
    (part : Option Nat := none) : State × MRes Unit :=
  vWritePieces s ctx va bs poison false part (pieces va bs.length)

/-- Translate a prefetch: the address where it would not fault, none where it is dropped (R109, R34). -/
def prefTarget (s : State) (ctx : Nat) (va : DWord) : Option Target :=
  match walk s ctx va with
  | .leaf e lvl _ => if pteRd e then some (targetOf lvl e va) else none
  | .fault .. => none

end Sys2Proof.Machine
end

