-- ==== Sys2Proof/Machine/SliceOps.lean ====
section
/-! DEFINITION. What home slices do with accesses of every unit: atomics, reductions and their order (R299 to R303), dead
hints (R304 to R306), and the reads of contexts cut at sector ends. -/

namespace Sys2Proof.Machine

/-! ### Accesses of contexts -/

/-- A read by a context within one sector. -/
def cRead (s : State) (ctx : Nat) (va : DWord) (n : Nat) (pass : Bool := false) : State × MRes (List Byte × Bool) :=
  vRead s ctx .read va n pass

/-- Reads of pieces in order. -/
def cReadPieces (s : State) (ctx : Nat) (ps : List (Nat × Nat)) : State × MRes (List Byte × List Bool) :=
  match ps with
  | [] => (s, .ok ([], []))
  | p :: r =>
    match cRead s ctx (BitVec.ofNat 64 p.1) p.2 with
    | (s, .ok (bs, q)) =>
      match cReadPieces s ctx r with
      | (s, .ok (cs, qs)) => (s, .ok (bs ++ cs, q :: qs))
      | (s, .fault c v d) => (s, .fault c v d)
      | (s, .wait) => (s, .wait)
    | (s, .fault c v d) => (s, .fault c v d)
    | (s, .wait) => (s, .wait)

/-- A read of n bytes, with the poison of each sector piece. -/
def cReadN (s : State) (ctx va n : Nat) : State × MRes (List Byte × List Bool) := cReadPieces s ctx (pieces va n)

/-- The first poisoned address among the pieces of n bytes at va, as OPERAND. -/
def poisonAt (va n : Nat) (ps : List Bool) : DWord :=
  match ((pieces va n).zip ps).find? (·.2) with
  | some e => BitVec.ofNat 64 (e.1.1 % 2 ^ 52)
  | none => BitVec.ofNat 64 (va % 2 ^ 52)

/-! ### Reductions (R299) -/

/-- Bytes of the stored element and of the contribution of a reduction operation. Codes 1 to 7 are those of R277;
the others are the model's (notes/assumptions/21.md). -/
def reduceWidths (op : Nat) : Nat × Nat :=
  match op with
  | 3 => (2, 2)
  | 8 => (8, 8)
  | 9 => (2, 2)
  | 10 => (1, 4)
  | 11 => (1, 4)
  | 12 => (8, 8)
  | 13 => (8, 8)
  | 16 => (8, 8)
  | 17 => (8, 8)
  | _ => (4, 4)

/-- Reduction operations that exist. -/
def reduceOp (op : Nat) : Bool := decide (1 ≤ op ∧ op ≤ 17)

/-- A scaled 8-bit addition (R299): q has scale exponent s, v is FP32. -/
def addScaled (f : Fmt) (s : Int) (q v : Nat) : Nat :=
  round f .rne false (scaleV s (addV false (scaleV (-s) (decode f q)) (decode .f32 v)))

/-- One element of a reduction (R222, R299). -/
def reduceElem (op : Nat) (scale : Int) (old v : Nat) : Nat :=
  let add (f : Fmt) : Nat := round f .rne false (addV false (decode f old) (decode f v))
  match op with
  | 1 => (old + v) % 2 ^ 32
  | 2 => add .f32
  | 3 => add .bf16
  | 4 => if toSigned 32 old ≤ toSigned 32 v then v else old
  | 5 => if toSigned 32 old ≤ toSigned 32 v then old else v
  | 6 => old ||| v
  | 7 => old &&& v
  | 8 => (old + v) % 2 ^ 64
  | 9 => add .f16
  | 10 => addScaled .e4m3 scale old v
  | 11 => addScaled .e5m2 scale old v
  | 12 => if toSigned 64 old ≤ toSigned 64 v then old else v
  | 13 => if toSigned 64 old ≤ toSigned 64 v then v else old
  | 14 => min old v
  | 15 => max old v
  | 16 => min old v
  | _ => max old v

/-- Write n bytes of a read-modify-write at pa: no allocation, poison kept or added (R393). -/
def rmwWrite (s : State) (pa n v : Nat) (poison : Bool) (part : Nat) : State :=
  cohWrite s pa (leBytes v n) (poison || cohPoison s pa) false part

/-- The stored element at pa. -/
def cohNat (s : State) (pa n : Nat) : Nat := leNat (cohBytes s pa n)

/-- Reduction-buffer entries of the slice that is home to pa (R300). -/
def redEntries (s : State) (pa : Nat) : List Nat := s.redBufs.filter fun k => homeSlice s (k * 64) == homeSlice s pa

/-- A reduction to a held line takes the reduction-buffer entry of its sector, or a free one of the 64; where none is free
the oldest is written back into its line, which frees it (R300). The value of an entry stands in the line: it is
written there before any read of the line and before a write-back, so that the two are never seen apart (DESIGN CHOICE,
notes/assumptions/81.md). The sector is fetched where the line does not hold it. -/
def takeEntry (s : State) (pa part : Nat) : State :=
  let s := if sliceHit s pa (64 - pa % 64) then bump s 2 (homeSlice s pa) 0 1
    else fillSector (useCredits (bump s 2 (homeSlice s pa) 1 1) (homeSlice s pa) part 1) pa
  let mine := redEntries s pa
  let l := if s.redBufs.contains (pa / 64) then s.redBufs
    else (if mine.length < 64 then s.redBufs else match mine with
      | old :: _ => s.redBufs.erase old
      | [] => s.redBufs) ++ [pa / 64]
  bump { s with redBufs := l } 2 (homeSlice s pa) 5 1

/-- A reduction to a line that the slice does not hold takes the sector buffer of its sector in the adder, which reads the
sector into it, or a free one of the 32; where none is free the oldest is written back (R301). -/
def takeAdder (s : State) (pa part : Nat) : State :=
  let slice := homeSlice s pa
  let s := bump (bump s 2 slice 1 1) 2 slice 6 1
  if s.addBufs.any fun b => b.1 == pa / 64 then s
  else
    let mine := s.addBufs.filter fun b => homeSlice s (b.1 * 64) == slice
    let s := if mine.length < 32 then s else match mine with
      | old :: _ => adderFlush s old
      | [] => s
    useCredits { s with addBufs := s.addBufs ++ [(pa / 64, part)] } slice part 1

/-- A reduction takes a reduction-buffer entry of a held line, or a sector buffer of the memory-side adder, and is
counted (R300, R301, R408). -/
def takeBuf (s : State) (pa part : Nat) : State :=
  if sliceHolds pa then
    if (NMap.find s.lines (pa / 256)).isSome then takeEntry s pa part else takeAdder s pa part
  else s

/-- Apply a reduction's contributions, one at a time (R299, R303). -/
def applyReduce (s : State) (r : SliceReq) : State :=
  let s := takeBuf (homeFindings (endFill s (r.pa / 256) 4) r.ctx r.pa r.part) r.pa r.part
  match r.op with
  | .reduce op scale data =>
    let w := reduceWidths op.toNat
    let n := data.length / w.2
    (List.range n).foldl (fun s i =>
      let pa := r.pa + i * w.1
      rmwWrite s pa w.1 (reduceElem op.toNat (toSigned 8 scale.toNat) (cohNat s pa w.1)
        (leNat (sliceList 0 data (i * w.2) w.2))) r.poison r.part) s
  | .reduceLanes fn lanes =>
    let n := if fn.toNat ≥ 128 then 8 else 4
    lanes.foldl (fun s l =>
      let pa := r.pa / 64 * 64 + l.1
      rmwWrite s pa n ((atomFn (8 * n) (fn.toNat % 128) (cohNat s pa n) (l.2.toNat % 2 ^ (8 * n)) 0).getD 0) r.poison r.part) s
  | _ => s

/-- Waiters in use in a slice: those that joined a miss register or a waiting request, and reductions that wait for
their turn (R297, R303). -/
def waitersUsed (s : State) (slice : Nat) : Nat :=
  ((s.misses.filter fun e => homeSlice s (e.1 * 64) == slice).map fun e => e.2.waiters.length - 1).sum +
    ((s.bankQ.filter fun q => homeSlice s q.req.pa == slice).map fun q => q.joined.length).sum +
    (s.turns.filter fun r => homeSlice s r.pa == slice).length

/-- A request is refused by credit: its requester keeps it, and the refusal is counted (R298). -/
def refuseReq (s : State) (r : SliceReq) : State :=
  bump { s with refused := s.refused ++ [{ num := s.reqCtr, req := r, joined := [] }], reqCtr := s.reqCtr + 1 }
    2 (homeSlice s r.pa) 3 1

/-- A reduction of a contributor waits for its turn in the waiter pool, or is refused where the pool is empty, one waiter
being kept for the oldest waiting request (R298, R303). -/
def waitTurn (s : State) (r : SliceReq) : State :=
  let slice := homeSlice s r.pa
  if waitersUsed s slice < 4095 then
    let s := { s with turns := s.turns ++ [r] }
    keepMax s 2 slice 11 (waitersUsed s slice)
  else refuseReq s r

/-- Take a reduction at its home: in an ordered range a contributor's request waits for its turn, behind an earlier one
of its tile; any other is applied at once and counted (R303). -/
def takeReduce (s : State) (r : SliceReq) : State :=
  match orderedAt s r.pa with
  | none => applyReduce s r
  | some cnt =>
    let k := r.pa / 64
    let s := allocLine s r.pa r.part
    if r.agent < cnt then
      let next := NMap.getD s.nexts k 0
      if r.agent = next ∧ !(s.turns.any fun q => q.pa / 64 == k && q.agent == r.agent) then
        let s := applyReduce s r
        { s with nexts := NMap.put 0 s.nexts k ((next + 1) % cnt) }
      else waitTurn s r
    else applyReduce (bump s 2 (homeSlice s r.pa) 7 1) r

/-- Judge a translated read-modify-write (R268, R306): its target, or a fault. -/
def rmwJudge (s : State) (t : Target) (va : DWord) : State × MRes Target :=
  if frozenSector s (t.pa / 64) then (s, .fault frozenWrite (va &&& 0xFFFFFFFFFFFFF#64) 0)
  else if NSet.has s.dead (t.pa / 64) then (s, .fault deadLineRead (va &&& 0xFFFFFFFFFFFC0#64) 0)
  else if regionOf t.pa = .sovel ∧ !linkUp s then (s, .wait)
  else (linkFindings s t.pa, .ok t)

/-- Translate a read-modify-write of a context and judge it (R34). -/
def rmwTarget (s : State) (ctx : Nat) (va : DWord) : State × MRes Target :=
  match translate s ctx .write va with
  | (s, .ok t) => rmwJudge s t va
  | (s, .fault c v d) => (s, .fault c v d)
  | (s, .wait) => (s, .wait)

/-- An atomic writes n bytes of a sector back to the channel where its slice does not hold the line (R288, R296). -/
def rmwBack (s : State) (pa part : Nat) : State :=
  if sliceHolds pa ∧ (NMap.find s.lines (pa / 256)).isNone then useCredits s (homeSlice s pa) part 1 else s

/-- A translated atomic at the home slice (R109, R299, R393): old value with its poison. Poison may not leave for the
companion (R394 case 0x04). -/
def atomicTarget (s : State) (ctx : Nat) (t : Target) (n fn v cmp : Nat) (poison : Bool) : State × MRes (Nat × Bool) :=
  if regionOf t.pa = .sovel ∧ poison then (s, .fault poisonConsumed 0 0x04)
  else
    let part := ctxPart s ctx
    let r := readAt (readHome (endFill s (t.pa / 256) 4) ctx t.pa n 1 part) t.pa n
    let old := leNat r.2.1
    let new := (atomFn (8 * n) fn old v cmp).getD old
    (cohWrite (rmwBack r.1 t.pa part) t.pa (leBytes new n) (poison || r.2.2) false part, .ok (old, r.2.2))

/-- An atomic of a context. -/
def atomicAt (s : State) (ctx : Nat) (va : DWord) (n fn v cmp : Nat) (poison : Bool) : State × MRes (Nat × Bool) :=
  match rmwTarget s ctx va with
  | (s, .ok t) => atomicTarget s ctx t n fn v cmp poison
  | (s, .fault c va d) => (s, .fault c va d)
  | (s, .wait) => (s, .wait)

/-! ### Dead hints (R304 to R306) -/

/-- A dead hint of a context to the line at pa: ignored outside the fast tier and in an ordered range; its reduction
entries, its copy in the slice and its fill end without a write-back; in dead-check mode (check) its sectors become dead.
The caller has judged freezes. -/
def deadHintAt (s : State) (check : Bool) (pa : Nat) : State :=
  match regionOf pa with
  | .fast | .reserved =>
    if (orderedAt s pa).isSome then s
    else
      let s := dropLine (bump s 2 (homeSlice s pa) 8 1) (pa / 256)
      if check then
        { s with dead := (List.range 4).foldl (fun d i => NSet.add d (pa / 256 * 4 + i)) s.dead }
      else s
  | _ => s

/-! ### The tile-store code (R384) -/

/-- The tile-store code (detector 0x07) meets a fault in a read of the tile store by a context at a site: corrected, or
the sector read is poisoned. -/
def storeFinding (s : State) (ctx site off : Nat) : State :=
  match fireTile s ctx site 0x07 with
  | none => s
  | some m =>
    if m.kind = 0 then tileCorrected m site
    else updTile (tileUncorrected m site) site fun t => { t with storePoison := NSet.add t.storePoison (off / 64) }

end Sys2Proof.Machine
end

