-- ==== Sys2Proof/Machine/Words.lean ====
section
/-! DEFINITION. Instruction words of the two ISAs: their fields (R99, R103, R251), and the row that a word spells (R100, R101,
R105, R109, R110, R113, R119, R141, R252, R265, R274, R278). A word that spells no row has a reserved opcode or function. -/

namespace Sys2Proof.Machine

/-! ### Fields of a control-core word (R99, R251) -/

def crOf (w : Nat) : CrF :=
  { rd := BitVec.ofNat 6 (field w 25 20), rs1 := BitVec.ofNat 6 (field w 19 14), rs2 := BitVec.ofNat 6 (field w 13 8)
    fn := BitVec.ofNat 8 (field w 7 0) }

def ciOf (w : Nat) : CiF :=
  { rd := BitVec.ofNat 6 (field w 25 20), rs1 := BitVec.ofNat 6 (field w 19 14), imm := BitVec.ofNat 14 (field w 13 0) }

def cbOf (w : Nat) : CbF :=
  { rs1 := BitVec.ofNat 6 (field w 25 20), rs2 := BitVec.ofNat 6 (field w 19 14), off := BitVec.ofNat 14 (field w 13 0) }

def cjOf (w : Nat) : CjF := { rd := BitVec.ofNat 6 (field w 25 20), off := BitVec.ofNat 20 (field w 19 0) }

def clOf (w : Nat) : ClF :=
  { rd := BitVec.ofNat 6 (field w 25 20), k := BitVec.ofNat 2 (field w 19 18), rsv := BitVec.ofNat 2 (field w 17 16)
    imm16 := BitVec.ofNat 16 (field w 15 0) }

def vvOf (w : Nat) : VvF :=
  { vd := BitVec.ofNat 5 (field w 25 21), vs1 := BitVec.ofNat 5 (field w 20 16), x := BitVec.ofNat 6 (field w 15 10)
    sb := BitVec.ofNat 1 (field w 9 9), rm := BitVec.ofNat 3 (field w 8 6), fn := BitVec.ofNat 6 (field w 5 0) }

def vsOf (w : Nat) : VsF :=
  { rd := BitVec.ofNat 6 (field w 25 20), vr := BitVec.ofNat 5 (field w 19 15), ri := BitVec.ofNat 6 (field w 14 9)
    rsv := BitVec.ofNat 3 (field w 8 6), fn := BitVec.ofNat 6 (field w 5 0) }

def vmOf (w : Nat) : VmF :=
  { vd := BitVec.ofNat 5 (field w 25 21), rb := BitVec.ofNat 6 (field w 20 15), rt := BitVec.ofNat 6 (field w 14 9)
    w := BitVec.ofNat 2 (field w 8 7), rsv := BitVec.ofNat 1 (field w 6 6), fn := BitVec.ofNat 6 (field w 5 0) }

/-! ### Fields of a thread word (R103) -/

def trOf (w : Nat) : TrF :=
  { dst := BitVec.ofNat 8 (field w 55 48), src1 := BitVec.ofNat 8 (field w 47 40), src2 := BitVec.ofNat 8 (field w 39 32)
    src3 := BitVec.ofNat 8 (field w 31 24), fn := BitVec.ofNat 8 (field w 23 16), mod := BitVec.ofNat 4 (field w 15 12)
    rsv := BitVec.ofNat 12 (field w 11 0) }

def tiOf (w : Nat) : TiF :=
  { dst := BitVec.ofNat 8 (field w 55 48), src1 := BitVec.ofNat 8 (field w 47 40), fn := BitVec.ofNat 8 (field w 39 32)
    imm := BitVec.ofNat 32 (field w 31 0) }

/-! ### Functions that both ISAs have -/

/-- The stream and baton function of an opcode below 0x38 (R265, R274), or the message function (R278). -/
def streamRow (site : Site) (op fn : Nat) (i : CrTr) : Option Instr :=
  match op, fn with
  | 0x30, 0x00 => some (.strmGet site i)
  | 0x30, 0x01 => some (.strmPut site i)
  | 0x30, 0x02 => some (.strmXfer site i)
  | 0x30, 0x03 => some (.strmPref site i)
  | 0x30, 0x04 => some (.strmRget site i)
  | 0x30, 0x05 => some (.strmRput site i)
  | 0x30, 0x10 => some (.strmWait site i)
  | 0x30, 0x11 => some (.strmStat site i)
  | 0x30, 0x12 => some (.strmCancel site i)
  | 0x31, 0x00 => some (.batonPut site i)
  | 0x31, 0x01 => some (.batonTake site i)
  | 0x31, 0x02 => some (.batonTry site i)
  | 0x31, 0x03 => match i with
    | .cc f => some (.bqArm site f)
    | .th .. => none
  | 0x31, 0x04 => match i with
    | .cc f => some (.bqDisarm site f)
    | .th .. => none
  | 0x31, 0x05 => some (.bqCount site i)
  | 0x38, 0x00 => some (.msgSend site i)
  | 0x38, 0x01 => some (.msgGet site i)
  | 0x38, 0x02 => some (.msgFlush site i)
  | _, _ => none

/-- The allocator function of a code (R113). -/
def allocRow (site : Site) (code : Nat) (i : CrTr) : Option Instr :=
  match code with
  | 0 => some (.halloc site i)
  | 1 => some (.hallocZ site i)
  | 2 => some (.hfree site i)
  | _ => none

/-! ### The control core -/

/-- The vector instruction of an opcode (R252). All enter the vector queue but VSETVL, VGETVL, VWAIT and VMV.XV (R247 to
R250). -/
def vectorRow (site : Site) (w : Nat) : Option Instr :=
  let queued (i : VInstr) : Option Instr := some (.vectorQueueIssue site i)
  let op := field w 31 26
  let o := BitVec.ofNat 6 op
  let fn := field w 5 0
  match op with
  | 0x20 => match field w 7 0 with
    | 0x00 => some (.vsetvlW32 site (crOf w))
    | 0x01 => some (.vsetvlW16 site (crOf w))
    | 0x02 => some (.vgetvl site (crOf w))
    | 0x03 => some (.vwait site (crOf w))
    | 0x08 => queued (.vc (crOf w))
    | 0x09 => queued (.vc (crOf w))
    | 0x0A => queued (.vc (crOf w))
    | _ => none
  | 0x27 =>
    if fn = 0x10 then some (.vmvXv site (vsOf w)) else if fn = 0x11 then queued (.vs o (vsOf w)) else queued (.vv o (vvOf w))
  | 0x28 => queued (.vm o (vmOf w))
  | 0x29 => queued (.vm o (vmOf w))
  | _ => if 0x21 ≤ op ∧ op ≤ 0x26 then queued (.vv o (vvOf w)) else none

/-- The row that a control-core word spells at a site (R99, R100); a branch that the core does not predict. -/
def ccDecode (site : Site) (w : Nat) : Option Instr :=
  let op := field w 31 26
  match op with
  | 0x01 => some (.ccAlu site (crOf w))
  | 0x02 => some (.addi site (ciOf w))
  | 0x03 => some (.andi site (ciOf w))
  | 0x04 => some (.ori site (ciOf w))
  | 0x05 => some (.xori site (ciOf w))
  | 0x06 => some (.slti site (ciOf w))
  | 0x07 => some (.sltiu site (ciOf w))
  | 0x08 => some (.shli site (ciOf w))
  | 0x09 => some (.shri site (ciOf w))
  | 0x0A => some (.srai site (ciOf w))
  | 0x0B => some (.lim site (clOf w))
  | 0x0C => some (.ldD site (ciOf w))
  | 0x0D => some (.ldW site (ciOf w))
  | 0x0E => some (.stD site (ciOf w))
  | 0x0F => some (.stW site (ciOf w))
  | 0x10 => some (.beq site (cbOf w) none)
  | 0x11 => some (.bne site (cbOf w) none)
  | 0x12 => some (.blt site (cbOf w) none)
  | 0x13 => some (.bge site (cbOf w) none)
  | 0x14 => some (.bltu site (cbOf w) none)
  | 0x15 => some (.bgeu site (cbOf w) none)
  | 0x16 => some (.jal site (cjOf w))
  | 0x17 => some (.jalr site (ciOf w) none)
  | 0x18 => match field w 7 0 with
    | 0x00 => some (.gStart site (crOf w))
    | 0x01 => some (.gWait site (crOf w))
    | 0x02 => some (.gStat site (crOf w))
    | 0x03 => some (.tcfg site (crOf w))
    | _ => none
  | 0x19 => allocRow site (field w 7 4) (.cc (crOf w))
  | 0x1A => match field w 7 0 with
    | 0x00 => some (.sysNop site (crOf w))
    | 0x01 => some (.endTile site (crOf w))
    | 0x02 => some (.mfenceT site (.cc (crOf w)))
    | 0x03 => some (.mfenceM site (.cc (crOf w)))
    | 0x04 => some (.mfenceF site (.cc (crOf w)))
    | _ => none
  | _ => if 0x20 ≤ op ∧ op < 0x30 then vectorRow site w else streamRow site op (field w 7 0) (.cc (crOf w))

/-! ### The threads -/

/-- The branch and system functions of opcodes 0x10 and 0x1C, and the barrier and token functions of 0x18 (R110, R119). -/
def controlRow (site : Site) (g op : Nat) (f : TiF) : Option Instr :=
  match op, f.fn.toNat with
  | 0x10, 0 => some (.bra site g f)
  | 0x10, 1 => some (.brz site g f)
  | 0x10, 2 => some (.brnz site g f)
  | 0x10, 3 => some (.call site g f)
  | 0x10, 4 => some (.callr site g f)
  | 0x10, 5 => some (.jmp site g f)
  | 0x10, 6 => some (.ret site g f)
  | 0x18, 0 => some (.barG site g f)
  | 0x18, 1 => some (.barT site g f)
  | 0x18, 2 => some (.barTArv site g f)
  | 0x18, 3 => some (.tokWait site g f)
  | 0x18, 4 => some (.tokTest site g f)
  | 0x1C, 0 => some (.threadNop site g f)
  | 0x1C, 1 => some (.exit site g f)
  | 0x1C, 2 => some (.mfenceT site (.th g f))
  | 0x1C, 3 => some (.mfenceM site (.th g f))
  | 0x1C, 4 => some (.mfenceF site (.th g f))
  | 0x1C, 5 => some (.sreg site g f)
  | _, _ => none

/-- The matrix instruction of an opcode (R141). -/
def matrixRow (site : Site) (g op : Nat) (f : TrF) : Option Instr :=
  match op with
  | 0x24 => some (.mdrain site g f)
  | 0x25 => some (.mzero site g f)
  | 0x26 => some (.mload site g f)
  | 0x28 => some (.maccStG site g f)
  | 0x29 => some (.maccLdG site g f)
  | 0x2A => if f.fn = 0 then some (.mregOpen site g f) else if f.fn = 1 then some (.mregClose site g f) else none
  | _ => if op < 0x24 then some (.mma site g (BitVec.ofNat 2 op) f) else none

/-- The row that a thread word spells for a group at a site (R103, R105). -/
def thDecode (site : Site) (g w : Nat) : Option Instr :=
  let op := field w 63 56
  match op with
  | 0x01 => some (.integerAlu site g (trOf w))
  | 0x02 => some (.integerAluImmediate site g (tiOf w))
  | 0x03 => some (.floatAlu site g (trOf w))
  | 0x04 => some (.conversion site g (trOf w))
  | 0x08 => some (.ld site g (tiOf w))
  | 0x09 => some (.st site g (tiOf w))
  | 0x0A => some (.lds site g (tiOf w))
  | 0x0B => some (.sts site g (tiOf w))
  | 0x0C => some (.atom site g (trOf w))
  | 0x0D => some (.pref site g (tiOf w))
  | 0x3C => allocRow site (field w 23 16) (.th g (trOf w))
  | _ =>
    if 0x20 ≤ op ∧ op < 0x30 then matrixRow site g op (trOf w)
    else if 0x30 ≤ op then streamRow site op (field w 23 16) (.th g (trOf w))
    else controlRow site g op (tiOf w)

end Sys2Proof.Machine
end

