-- ==== Sys2Proof/Machine/Operands.lean ====
section
/-! DEFINITION. Operand forms of the control core and the thread groups (R99, R103, R104), the conditions under which
their instructions issue, and the one frame in which every instruction of each ISA runs: fetch, encoding check, effect,
fault, retirement. -/

namespace Sys2Proof.Machine

/-! ### The launch on a tile -/

/-- The launch that holds a tile site and has not ended there, its context ACTIVE. -/
def runningLaunch (s : State) (site : Nat) : Option Launch :=
  match (tileOf s site).launch with
  | none => none
  | some c =>
    match s.launches.find? fun l => l.cmd == c with
    | some l => if (ctxOf s l.ctx).state = .active then some l else none
    | none => none

/-- The launch that holds a tile site, whatever the state of its context. -/
def launchOn (s : State) (site : Nat) : Option Launch :=
  match (tileOf s site).launch with
  | none => none
  | some c => s.launches.find? fun l => l.cmd == c

/-- Fault information of a unit of a tile (R58). -/
def tileFaultInfo (l : Launch) (site unit code : Nat) (operand loc detail : DWord) (group : Nat) (mask : Word) : FaultInfo :=
  { code := BitVec.ofNat 8 code, queue := l.cmd.queue, operand := operand, die := BitVec.ofNat 1 (site / 192),
    unit := BitVec.ofNat 4 unit, tile := BitVec.ofNat 8 (site % 192), group := BitVec.ofNat 6 group, loc := loc,
    mask := mask, detail := detail }

/-- A class F fault of a tile unit. -/
def tileFault (s : State) (l : Launch) (site unit code : Nat) (operand loc detail : DWord) (group : Nat := 0)
    (mask : Word := 0) : State :=
  raiseFault s l.ctx .f (tileFaultInfo l site unit code operand loc detail group mask)

/-- A fault of the device allocator: UNIT 12 and the die of the heap's bookkeeping (R58). -/
def allocFault (s : State) (l : Launch) (die code : Nat) (operand loc detail : DWord) : State :=
  raiseFault s l.ctx .f
    { code := BitVec.ofNat 8 code, queue := l.cmd.queue, operand := operand, die := BitVec.ofNat 1 die, unit := 12,
      tile := 0, group := 0, loc := loc, mask := 0, detail := detail }

/-! ### Checking by replay samples (R387 to R389) -/

/-- 65,536 f for a fraction code (R388). -/
def fractionLimit (code : Nat) : Nat :=
  match code with
  | 0 => 0
  | 1 => 1024
  | 2 => 4096
  | 3 => 16384
  | _ => 65536

/-- The eligible work number count of a site is chosen as a sample (R387). -/
def sampled (s : State) (count : Nat) : Bool :=
  decide ((mix (s.hashKey ^^^ BitVec.ofNat 64 count)).toNat % 65536 < fractionLimit s.fraction.toNat)

/-- Count n instructions issued by a group, or by the control core, against its samples (R389). -/
def ageSamples (t : Tile) (who : Option Nat) (n : Nat := 1) : Tile :=
  { t with samples := t.samples.map fun x => if x.group = who then { x with age := x.age + n } else x }

/-- Instructions of the control core that an unresolved branch holds back from retiring (R102). -/
def specDone (t : Tile) : Nat :=
  match t.spec with
  | some c => c.done
  | none => 0

/-- The verdict of a sample must come before the 512th instruction after it (R389); a thread group's own sampled
instruction counts once when it retires. -/
def sampleBlocked (t : Tile) (who : Option Nat) : Bool :=
  t.samples.any fun x => x.group == who && decide ((if who.isSome then 512 else 511) ≤ x.age + (if who.isSome then 0 else specDone t))

/-! ### The L1 and the instruction cache (R93, R131, R288, R289) -/

/-- Lines of a tile's cache. -/
def cacheLines (m : NMap Sector) : List Nat := (m.map fun e => e.1 / 4).eraseDups

/-- Put sector k into a cache of n lines. A line that finds no place takes that of another, by a replacement order that the
manual does not fix (notes/assumptions/11.md). -/
def cacheInsert (s : State) (m : NMap Sector) (n k : Nat) (sec : Sector) : NMap Sector × State :=
  let lines := cacheLines m
  if lines.contains (k / 4) ∨ lines.length < n then (NMap.insert m k sec, s)
  else
    let v := (lines[(takeFree s).1.toNat % lines.length]?).getD 0
    (NMap.insert (m.filter fun e => e.1 / 4 != v) k sec, (takeFree s).2)

/-- A copy of the sector at pa holds what its home would answer. -/
def copyCurrent (s : State) (pa : Nat) (sec : Sector) : Bool :=
  sec.data == cohBytes s (pa / 64 * 64) 64 && sec.poison == cohPoison s pa

/-! ### Fetch (R131) -/

/-- What a fetch delivers: whether it missed the instruction cache, and the instruction's bits. -/
structure Fetched where
  missed : Bool
  word   : Nat
  deriving DecidableEq, Repr

/-- The copy of the sector at pa that a fetch takes from the instruction cache: where code has changed since, either the
copy or what stands in memory (R131, notes/assumptions/11.md). -/
def icHeld (s : State) (site pa : Nat) : State × Option Sector :=
  match NMap.find (tileOf s site).icache (pa / 64) with
  | none => (s, none)
  | some sec =>
    if copyCurrent s pa sec then (s, some sec)
    else ((takeBool s).2, if (takeBool s).1 then some sec else none)

/-- Fill the sector of an instruction into the instruction cache, 256 lines. -/
def icFill (s : State) (site ctx : Nat) (t : Target) (pc : DWord) : State × MRes Sector :=
  match readTarget s ctx { t with pa := t.pa / 64 * 64 } pc 64 with
  | (s, .ok (bs, p)) =>
    let sec : Sector := { data := bs, poison := p }
    let c := cacheInsert s (tileOf s site).icache 256 (t.pa / 64) sec
    (updTile c.2 site fun x => { x with icache := c.1 }, .ok sec)
  | (s, .fault c v d) => (s, .fault c v d)
  | (s, .wait) => (s, .wait)

/-- The instruction of n bytes at pc in a sector; from a poisoned sector none is executed (R131). -/
def fetched (s : State) (pa n : Nat) (pc : DWord) (missed : Bool) (sec : Sector) : State × MRes Fetched :=
  if sec.poison then (s, .fault poisonConsumed (pc &&& 0xFFFFFFFFFFFFF#64) 0x0A)
  else (s, .ok { missed := missed, word := leNat (sliceList 0 sec.data (pa % 64) n) })

/-- How a fetch goes (R131): an instruction of n bytes, a fault, or a wait. -/
def fetch (s : State) (site ctx : Nat) (pc : DWord) (n : Nat) : State × MRes Fetched :=
  if pc.toNat % n ≠ 0 then (s, .fault misaligned (pc &&& 0xFFFFFFFFFFFFF#64) 0)
  else match translate s ctx .fetch pc with
    | (s, .ok t) =>
      (match icHeld s site t.pa with
      | (s, some sec) => fetched s t.pa n pc false sec
      | (s, none) =>
        match icFill s site ctx t pc with
        | (s, .ok sec) => fetched s t.pa n pc true sec
        | (s, .fault c v d) => (s, .fault c v d)
        | (s, .wait) => (s, .wait))
    | (s, .fault c v d) => (s, .fault c v d)
    | (s, .wait) => (s, .wait)

/-- The word of n bytes at pc that a tile may run without memory traffic (R102): its translation is cached and permits the
fetch, and the instruction cache holds its sector, without poison. -/
def wordHeld (s : State) (site ctx : Nat) (pc : DWord) (n : Nat) : Option Nat :=
  match cachedTarget s ctx .fetch pc with
  | none => none
  | some t =>
    match NMap.find (tileOf s site).icache (t.pa / 64) with
    | none => none
    | some sec =>
      if sec.poison ∨ pc.toNat % n ≠ 0 then none else some (leNat (sliceList 0 sec.data (t.pa % 64) n))

/-! ### Control-core registers (R97, R99) -/

/-- s0 reads zero at all times (R97). -/
def ccReg (t : Tile) (r : Nat) : T64 := if r = 0 then T64.zero else NMap.getD t.ccRegs r T64.zero

/-- Writes to s0 are discarded (R97). -/
def setCcReg (t : Tile) (r : Nat) (v : T64) : Tile :=
  if r = 0 then t else { t with ccRegs := NMap.put T64.zero t.ccRegs r v }

/-- What a control-core instruction does. -/
inductive CcOut where
  /-- It retires, and the core goes on at the next instruction. -/
  | next (s : State)
  /-- It retires, and the core goes on at an address. -/
  | jump (s : State) (pc : DWord)
  /-- It faults, class F, in a unit. -/
  | fault (s : State) (unit code : Nat) (operand detail : DWord)
  /-- The device allocator of a die faults. -/
  | allocFault (s : State) (die code : Nat) (operand detail : DWord)
  /-- It waits. -/
  | wait (s : State)

/-- Count n retired instructions of the control core: the counters of R408 and the samples of R389. -/
def ccCount (s : State) (l : Launch) (site n : Nat) : State :=
  bump (bump (updTile s site fun t => ageSamples t none n) 1 site 0 n) 5 l.ctx 0 n

/-- Retire an instruction of the control core; from an unresolved branch on the count waits for its resolution (R102). -/
def ccRetire (s : State) (l : Launch) (site : Nat) (pc : DWord) : State :=
  match (tileOf s site).spec with
  | none => ccCount (updTile s site fun t => { t with ccPc := pc }) l site 1
  | some c => updTile s site fun t => { t with ccPc := pc, spec := some { c with done := c.done + 1 } }

/-- What becomes of a control-core instruction at pc. -/
def ccFinish (l : Launch) (site : Nat) (pc : DWord) (o : CcOut) : State :=
  match o with
  | .next s => ccRetire s l site (pc + 4)
  | .jump s pc' => ccRetire s l site pc'
  | .fault s unit code operand detail => tileFault s l site unit code operand pc detail
  | .allocFault s die code operand detail => allocFault s l die code operand pc detail
  | .wait s => s

/-- The register code of the control core (detector 0x08): the next operand read by the context at the site. -/
def injectCcReg (s : State) (ctx site : Nat) (srcs : List Nat) : State :=
  match srcs.filter (· ≠ 0) with
  | [] => s
  | r :: _ =>
    match fireTile s ctx site 0x08 with
    | none => s
    | some m =>
      if m.kind = 0 then tileCorrected m site
      else updTile (tileUncorrected m site) site fun t => setCcReg t r { ccReg t r with poison := true }

/-- CHECKSUM_UNRECOVERED of a detector, with its DETAIL [63:56] (R386). -/
def checksumDetail (det rest : Nat) : DWord := BitVec.ofNat 64 ((det <<< 56) + rest)

/-- An instruction that has been fetched and is defined, under the detectors of the control core: a mismatch of the lockstep
(0x0D) executes it again once (R386, R403). -/
def ccRun (s : State) (l : Launch) (site : Nat) (pc : DWord) (srcs : List Nat)
    (f : Launch → State → Tile → DWord → CcOut) : State :=
  let go (s : State) : State :=
    let s := injectCcReg s l.ctx site srcs
    ccFinish l site pc (f l s (tileOf s site) pc)
  match fireTile s l.ctx site 0x0D with
  | some m =>
    let s := tileMismatch m site
    if m.kind = 1 then tileFault s l site 1 checksumUnrecovered 0 pc (checksumDetail 0x0D 0) else go s
  | none => go s

/-- A word that spells no instruction of the control core (R100); one of the vector opcodes is the vector engine's to fault,
once its queue is empty (R252, R260). -/
def ccReserved (s : State) (l : Launch) (site : Nat) (pc : DWord) (w : Nat) : State :=
  if 0x20 ≤ field w 31 26 ∧ field w 31 26 < 0x30 then
    if (tileOf s site).vec.queue = [] then tileFault s l site 4 illegalInstruction pc pc 0x02 else s
  else tileFault s l site 1 illegalInstruction pc pc 0

/-- A fabric MSG.GET of the control core has no response yet: the in-order core waits (R278). -/
def ccGetLeft (s : State) (site : Nat) : Bool :=
  s.remotes.any fun r => match r.2.what with
    | .msgGet st none _ => st == site
    | _ => false

/-- One instruction of the control core of a site (R100, R102, R131): the word at the program counter must spell an
instruction; legal says that the encoding of this one is defined, spec that the opcode may run past an unresolved branch,
srcs names the registers it reads (DESIGN CHOICE, notes/assumptions/6.md). -/
def ccStep (s : State) (site : Nat) (legal spec : Bool) (f : Launch → State → Tile → DWord → CcOut)
    (srcs : List Nat := []) : State :=
  match runningLaunch s site with
  | none => s
  | some l =>
    let t := tileOf s site
    let pc := t.ccPc
    if sampleBlocked t none || ccGetLeft s site then s
    else match t.spec with
      | some _ =>
        -- R102: no fill, no fault and no memory traffic before the branch resolves
        match wordHeld s site l.ctx pc 4 with
        | some w => if spec && legal && (ccDecode site w).isSome then ccFinish l site pc (f l s t pc) else s
        | none => s
      | none =>
        match fetch s site l.ctx pc 4 with
        | (s, .ok w) =>
          if (ccDecode site w.word).isNone then ccReserved s l site pc w.word
          else if legal then ccRun s l site pc srcs f
          else tileFault s l site 1 illegalInstruction pc pc 0
        | (s, .fault code va d) => tileFault s l site 1 code va pc (BitVec.ofNat 64 d)
        | (s, .wait) => s

/-! ### Thread registers (R103, R104, R112) -/

/-- Register r of a lane; the zero encoding reads as zero without poison. -/
def treg (g : TGroup) (lane r : Nat) : T32 := if r = 255 then T32.zero else NMap.getD g.regs (lane * 256 + r) T32.zero

/-- Write a register of a lane; a write to the zero encoding is discarded. -/
def setTreg (g : TGroup) (lane r : Nat) (v : T32) : TGroup :=
  if r = 255 then g else { g with regs := NMap.put T32.zero g.regs (lane * 256 + r) v }

/-- A 64-bit operand: the low half in the even register. -/
def tpair (g : TGroup) (lane r : Nat) : T64 :=
  let lo := treg g lane r
  let hi := if r = 255 then T32.zero else treg g lane (r + 1)
  { val := BitVec.ofNat 64 (lo.val.toNat + (hi.val.toNat <<< 32)), poison := lo.poison || hi.poison }

def setTpair (g : TGroup) (lane r : Nat) (v : T64) : TGroup :=
  if r = 255 then g
  else setTreg (setTreg g lane r { val := BitVec.ofNat 32 (fld v.val 31 0), poison := v.poison }) lane (r + 1)
    { val := BitVec.ofNat 32 (fld v.val 63 32), poison := v.poison }

/-- n bytes of consecutive registers from r on, 4 bytes each, and whether one is poisoned. -/
def tbytes (g : TGroup) (lane r n : Nat) : List Byte × Bool :=
  let k := (n + 3) / 4
  let ws := (List.range k).map fun i => if r = 255 then T32.zero else treg g lane (r + i)
  (((ws.map fun w => leBytes w.val.toNat 4).flatten).take n, ws.any (·.poison))

/-- Write bytes to consecutive registers from r on. -/
def setTbytes (g : TGroup) (lane r : Nat) (bs : List Byte) (poison : Bool) : TGroup :=
  if r = 255 then g
  else (List.range ((bs.length + 3) / 4)).foldl (fun g i =>
    setTreg g lane (r + i) { val := BitVec.ofNat 32 (leNat ((bs.drop (4 * i)).take 4)), poison := poison }) g

/-- The field is legal for REGS registers (R104): the zero encoding, or an aligned range below REGS. -/
def RegUse.ok (regs : Nat) (u : RegUse) : Bool :=
  u.r == 255 || (decide (u.r + u.n ≤ regs) && u.r % (if u.n > 2 then 4 else u.n) == 0)

/-! ### Leading sets (R117) -/

def callDepth (g : TGroup) (lane : Nat) : Nat := NMap.getD g.depths lane 0
def lanePc (g : TGroup) (lane : Nat) : DWord := NMap.getD g.pcs lane 0

/-- Threads that have not exited and do not wait at a barrier. -/
def goingLanes (g : TGroup) : List Nat :=
  (List.range 32).filter fun i => !g.exited.toNat.testBit i && (NMap.find g.barWait i).isNone

/-- Threads of the group that have not exited. -/
def liveLanes (g : TGroup) : List Nat := (List.range 32).filter fun i => !g.exited.toNat.testBit i

/-- A lane precedes another: greater call depth, then lower program counter. -/
def leads (g : TGroup) (a b : Nat) : Bool :=
  decide (callDepth g b < callDepth g a) ||
    (callDepth g a == callDepth g b && decide ((lanePc g a).toNat < (lanePc g b).toNat))

/-- The leading set (R117), in ascending lane order. -/
def leadingSet (g : TGroup) : List Nat :=
  let c := goingLanes g
  c.filter fun i => c.all fun j => !leads g j i

/-- The mask of a list of lanes. -/
def maskOf (lanes : List Nat) : Word := BitVec.ofNat 32 ((lanes.map fun i => 2 ^ i).sum)

def groupOf (t : Tile) (g : Nat) : TGroup := NMap.getD t.groups g TGroup.empty
def setGroup (t : Tile) (g : Nat) (x : TGroup) : Tile := { t with groups := NMap.put TGroup.empty t.groups g x }

/-! ### Scheduling (R115, R124) -/

/-- Let eligible groups into the active set while it has a free place (R115). -/
def promote (t : Tile) : Tile :=
  let room := 8 - t.active.length
  { t with active := t.active ++ t.eligible.take room, eligible := t.eligible.drop room }

/-- A group becomes eligible (R115). -/
def makeEligible (t : Tile) (g : Nat) : Tile :=
  if t.active.contains g ∨ t.eligible.contains g then t
  else promote { setGroup t g { groupOf t g with parked := false, waitsOn := none } with eligible := t.eligible ++ [g] }

/-- A group leaves the active set to wait (R115). -/
def park (t : Tile) (g : Nat) (w : GWait) : Tile :=
  promote { setGroup t g { groupOf t g with parked := true, waitsOn := some w } with
    active := t.active.filter (· != g), eligible := t.eligible.filter (· != g) }

/-- A group leaves both sets (R115). -/
def leaveSets (t : Tile) (g : Nat) : Tile :=
  promote { t with active := t.active.filter (· != g), eligible := t.eligible.filter (· != g) }

/-- A group with no thread that can run waits in the pending set. -/
def parkIdle (t : Tile) (g : Nat) : Tile := if goingLanes (groupOf t g) = [] then park t g .other else t

/-- A scheduler decision of the tile: every group with a thread at a barrier counts it (R124). -/
def countDecision (t : Tile) : Tile :=
  { t with groups := t.groups.map fun e => (e.1, if e.2.barWait = [] then e.2 else { e.2 with sentinel := e.2.sentinel + 1 }) }

/-- Highest sentinel count of a tile (R408 type 0x01 word 14). -/
def topSentinel (t : Tile) : Nat := (t.groups.map fun e => e.2.sentinel).foldl max 0

/-! ### The frame of a thread instruction -/

/-- What a thread instruction does. -/
inductive ThOut where
  /-- It retires; every lane of the leading set goes on at the next instruction. -/
  | next (s : State)
  /-- It retires; each lane goes on at its own address. -/
  | jumps (s : State) (pc : Nat → DWord)
  /-- It faults, class F, in a unit of the tile; MASK holds the leading set. -/
  | fault (s : State) (unit code : Nat) (operand detail : DWord)
  /-- The same with a MASK of its own (R147). -/
  | faultMask (s : State) (unit code : Nat) (operand detail : DWord) (mask : Word)
  | allocFault (s : State) (die code : Nat) (operand detail : DWord)
  /-- It waits; the group leaves the active set where on says what for (R115). -/
  | wait (on : Option GWait)
  /-- It waits, some lanes having performed their part (R114). -/
  | waitIn (s : State) (on : GWait)

/-- Set the program counters of lanes. -/
def setPcs (g : TGroup) (lanes : List Nat) (pc : Nat → DWord) : TGroup :=
  { g with pcs := lanes.foldl (fun m i => NMap.put 0 m i (pc i)) g.pcs }

/-- A group whose lanes have done an instruction and go on at their own addresses. -/
def goneOn (x : TGroup) (lanes : List Nat) (pc : Nat → DWord) : TGroup :=
  { setPcs x lanes pc with laneDone := x.laneDone &&& ~~~maskOf lanes }

/-- Retire a thread instruction: one decision, the lanes' program counters, the counters of R408. -/
def thRetire (s : State) (l : Launch) (site g : Nat) (lanes : List Nat) (pc : Nat → DWord) : State :=
  let s := updTile s site fun t =>
    countDecision (parkIdle (setGroup (ageSamples t (some g)) g (goneOn (groupOf t g) lanes pc)) g)
  keepMax (bump (bump s 1 site 0 1) 5 l.ctx 0 1) 1 site 14 (topSentinel (tileOf s site))

/-- Registers of lanes that an unreturned load will write or a pending token binds (R115, R168). -/
def regBusy (g : TGroup) (lanes : List Nat) (uses : List RegUse) (dst : Option RegUse) : Bool :=
  let hits (u : RegUse) (lo n : Nat) : Bool := u.r != 255 && decide (u.r < lo + n ∧ lo < u.r + u.n)
  (uses.any fun u => u.r != 255 && lanes.any fun i => (List.range u.n).any fun k => g.missPend.contains (i * 256 + u.r + k)) ||
  (g.bound.any fun b =>
    (lanes.any fun i => b.mask.toNat.testBit i) &&
      ((uses.any fun u => hits u b.lo b.n) ||
        (match dst with
        | some u => hits u b.lo b.n
        | none => false)))

/-- Streams of a tile that have not completed; one whose baton waits has (R266, R274). -/
def openStrms (t : Tile) : List Nat := (t.streams.filter fun e => e.2.st != .posting).map (·.1)

/-- The wait of a group of the pending set has ended (R115). -/
def waitOver (s : State) (site g : Nat) : Bool :=
  let t := tileOf s site
  let x := groupOf t g
  let batons (site q : Nat) : Nat := (NMap.getD (tileOf s site).bqs q BQueue.empty).items.length
  match x.waitsOn with
  | some (.regs uses dst) => !regBusy x (leadingSet x) uses dst
  | some (.tokens m) => x.tokens.toNat &&& m == 0
  | some (.streams m) => (openStrms t).all fun k => !m.testBit k
  | some (.slot k) => (NMap.find t.streams k).isNone
  | some (.take q) => decide (0 < batons site q)
  | some (.post d q) => decide (batons d q < 64)
  | _ => false

/-- The groups of a tile whose waits have ended become eligible, in ascending order (R115). -/
def wake (s : State) (site : Nat) : State :=
  updTile s site fun t => (List.range 64).foldl (fun t g =>
    let x := groupOf t g
    if x.running && x.parked && waitOver s site g then makeEligible t g else t) t

/-- As wake, for every tile that holds work. -/
def wakeAll (s : State) : State := s.tiles.foldl (fun s e => if e.2.groups = [] then s else wake s e.1) s

/-- The environment of a thread instruction's effect. -/
structure ThEnv where
  launch : Launch
  site  : Nat
  g     : Nat
  lanes : List Nat
  pc    : DWord

/-- The lowest-numbered lane of the leading set. -/
def firstLane (g : TGroup) : Option Nat := (leadingSet g).head?

/-- What becomes of a thread instruction that issues. -/
def thFinish (s0 : State) (e : ThEnv) (o : ThOut) : State :=
  match o with
  | .next s => thRetire s e.launch e.site e.g e.lanes fun _ => e.pc + 8
  | .jumps s pc => thRetire s e.launch e.site e.g e.lanes pc
  | .fault s unit code operand detail =>
    if unit = 2 ∨ unit = 3 then tileFault s e.launch e.site unit code operand e.pc detail e.g (maskOf e.lanes)
    else tileFault s e.launch e.site unit code operand e.pc detail
  | .faultMask s unit code operand detail mask => tileFault s e.launch e.site unit code operand e.pc detail e.g mask
  | .allocFault s die code operand detail => allocFault s e.launch die code operand e.pc detail
  | .wait none => s0
  | .wait (some w) => updTile s0 e.site fun t => park t e.g w
  | .waitIn s w => updTile s e.site fun t => park t e.g w

/-- The register code of the threads (detector 0x08): the next operand read by the context at the site. -/
def injectTreg (s : State) (ctx site g lane : Nat) (srcs : List RegUse) : State :=
  match srcs.filter (·.r ≠ 255) with
  | [] => s
  | u :: _ =>
    match fireTile s ctx site 0x08 with
    | none => s
    | some m =>
      if m.kind = 0 then tileCorrected m site
      else updTile (tileUncorrected m site) site fun t =>
        let x := groupOf t g
        setGroup t g (setTreg x lane u.r { treg x lane u.r with poison := true })

/-- One instruction of a thread group for its leading set (R104, R115, R117, R131): a group whose fetch misses the instruction
cache leaves the active set and is eligible again; the word fetched must spell an instruction; opOk says that function,
modifier and reserved fields are defined, uses are the register fields it names, unused those that must hold 0xFF, dst
the field it writes. matrix encodings that the array rejects fault in UNIT 3 (unit) (DESIGN CHOICE,
notes/assumptions/41.md). -/
def thStep (s : State) (site g : Nat) (opOk : Launch → Bool) (uses : List RegUse) (unused : List Nat)
    (dst : Option RegUse) (f : ThEnv → State → TGroup → ThOut) (unit : Nat := 2) : State :=
  match runningLaunch s site with
  | none => s
  | some l =>
    let x := groupOf (tileOf s site) g
    let lanes := leadingSet x
    match lanes with
    | [] => s
    | i :: _ =>
      if !x.running ∨ sampleBlocked (tileOf s site) (some g) then s
      else
        let pc := lanePc x i
        let e : ThEnv := { launch := l, site := site, g := g, lanes := lanes, pc := pc }
        match fetch s site l.ctx pc 8 with
        | (_, .wait) => s
        | (s', .fault code va d) => tileFault s' l site 2 code va pc (BitVec.ofNat 64 d) g (maskOf lanes)
        | (s', .ok w) =>
          if w.missed && (tileOf s site).active.contains g then updTile s' site fun t => makeEligible (park t g .other) g
          else if (thDecode site g w.word).isNone then tileFault s' l site 2 illegalInstruction pc pc 0 g (maskOf lanes)
          else if !(opOk l && uses.all (RegUse.ok l.regs) && unused.all (· == 255)) then
            tileFault s' l site unit illegalInstruction pc pc 0 g (maskOf lanes)
          else if regBusy x lanes uses dst then
            (if (tileOf s site).active.contains g then updTile s site fun t => park t g (.regs uses dst) else s)
          else
            if (tileOf s site).active.contains g then
              let s' := injectTreg s' l.ctx site g i (uses.filter (some · ≠ dst))
              thFinish s e (f e s' (groupOf (tileOf s' site) g))
            else match f e s' x with
              | .wait _ => s
              | .waitIn s' _ => s'
              | _ =>
                -- the wait has ended: the group becomes eligible and issues once it is in the active set (R115)
                let s' := updTile s' site fun t => makeEligible t g
                let x := groupOf (tileOf s' site) g
                if (tileOf s' site).active.contains g then thFinish s' e (f e s' x) else s'

/-- Lanes of the leading set that have not performed their part of a waiting instruction, and the mark (R114). -/
def lanesLeft (x : TGroup) (lanes : List Nat) : List Nat := lanes.filter fun i => !x.laneDone.toNat.testBit i
def markLane (x : TGroup) (i : Nat) : TGroup := { x with laneDone := x.laneDone ||| maskOf [i] }

/-- The effect of an issued instruction on its group, lane by lane. -/
def eachLane (x : TGroup) (lanes : List Nat) (f : TGroup → Nat → TGroup) : TGroup := lanes.foldl f x

/-- Store a group back. -/
def putGroup (s : State) (site g : Nat) (x : TGroup) : State := updTile s site fun t => setGroup t g x

/-- Some lane's register of a use is poisoned. -/
def anyPoison (x : TGroup) (lanes : List Nat) (u : RegUse) : Bool :=
  lanes.any fun i => (List.range u.n).any fun k => u.r != 255 && (treg x i (u.r + k)).poison

/-! ### Accesses through the L1 (R288, R289) -/

/-- Put a sector into a tile's L1, 1,024 lines. -/
def l1Fill (s : State) (site pa : Nat) : State :=
  let r := readAt s (pa / 64 * 64) 64
  let c := cacheInsert r.1 (tileOf r.1 site).l1 1024 (pa / 64) { data := r.2.1, poison := r.2.2 }
  updTile c.2 site fun t => { t with l1 := c.1 }

/-- The copy of the sector at pa that a load of n bytes takes from the L1, none where it misses. A parity finding (detector
0x06) invalidates the line. Where the copy is older than what its home holds, the load takes it or misses (R292,
notes/assumptions/11.md). -/
def l1Held (s : State) (site ctx pa n : Nat) : State × Option Sector :=
  match NMap.find (tileOf s site).l1 (pa / 64) with
  | none => (s, none)
  | some sec =>
    match fireTile s ctx site 0x06 with
    | some m => (updTile (tileUncorrected m site) site fun x => { x with l1 := x.l1.filter fun e => e.1 / 4 != pa / 256 }, none)
    | none =>
      if sliceList 0 sec.data (pa % 64) n = cohBytes s pa n ∧ sec.poison = cohPoison s pa ∧ !NSet.has s.dead (pa / 64) then
        (s, some sec)
      else ((takeBool s).2, if (takeBool s).1 then some sec else none)

/-- A load of a tile within one sector: its bytes and poison, and whether it missed the L1 (R288, R289). A hit reaches no
slice; the page's A bit and permission still hold. -/
def tileLoad (s : State) (site ctx : Nat) (va : DWord) (n : Nat) : State × MRes ((List Byte × Bool) × Bool) :=
  match translate s ctx .read va with
  | (s, .ok t) =>
    (match (if t.cp = 0 then l1Held s site ctx t.pa n else (s, none)) with
    | (s, some sec) => (s, .ok ((sliceList 0 sec.data (t.pa % 64) n, sec.poison), false))
    | (s, none) =>
      match readTarget s ctx t va n with
      | (s, .ok r) => (if t.cp = 0 then l1Fill s site t.pa else s, .ok (r, t.cp = 0))
      | (s, .fault c v d) => (s, .fault c v d)
      | (s, .wait) => (s, .wait))
  | (s, .fault c v d) => (s, .fault c v d)
  | (s, .wait) => (s, .wait)

/-- Update a sector that the L1 holds with stored bytes (R288). -/
def l1Update (s : State) (site pa : Nat) (bs : List Byte) (poison : Bool) : State :=
  match NMap.find (tileOf s site).l1 (pa / 64) with
  | none => s
  | some sec =>
    let off := pa % 64
    let data := (List.range 64).map fun i =>
      if off ≤ i ∧ i < off + bs.length then (bs[i - off]?).getD 0 else (sec.data[i]?).getD 0
    let p := poison || (sec.poison && decide (bs.length < 64))
    updTile s site fun t => { t with l1 := NMap.insert t.l1 (pa / 64) { data := data, poison := p } }

/-- A store of an issuer on a tile (R288, R289). -/
def tileStore (s : State) (site : Nat) (issuer : Option Nat) (ctx : Nat) (va : DWord) (bs : List Byte) (poison : Bool) :
    State × MRes Unit :=
  match translate s ctx .write va with
  | (s, .ok t) =>
    (match writeAt s ctx t va bs poison false with
    | (u, .ok ()) => (l1Update (markHeld u s.sovel.held.length site issuer) site t.pa bs poison, .ok ())
    | (s, .fault c v d) => (s, .fault c v d)
    | (s, .wait) => (s, .wait))
  | (s, .fault c v d) => (s, .fault c v d)
  | (s, .wait) => (s, .wait)

/-- The L1 miss registers of the tile are all in use (R93). -/
def missFull (t : Tile) : Bool := decide (512 ≤ t.l1Miss.length)

/-- A miss of a group on the sector at va's place takes a miss register, unless one holds the sector already. -/
def takeMiss (t : Tile) (g sector : Nat) : Tile :=
  if t.l1Miss.contains (g, sector) then t else { t with l1Miss := t.l1Miss ++ [(g, sector)] }

/-- Drop the tile's copy of the sector at pa (R289). -/
def l1Drop (s : State) (site pa : Nat) : State := updTile s site fun t => { t with l1 := NMap.erase t.l1 (pa / 64) }

/-- Invalidate a tile's L1 wholly (R289, R292). -/
def l1Clear (s : State) (site : Nat) : State := updTile s site fun t => { t with l1 := [] }

/-! ### The tile store (R109, R392) -/

/-- Bytes of the launch's tile-store allocation. -/
def storeBytes (l : Launch) : Nat := l.store * 1024

/-- The byte of a tile's store at an offset. -/
def storeByte (t : Tile) (off : Nat) : Byte := junkByte t.storeJunk off (NMap.getD t.store off 0)

/-- Read n bytes of the tile store at an offset: beyond the allocation zero, counted (R109, R408). -/
def tsRead (s : State) (l : Launch) (site off n : Nat) : State × (List Byte × Bool) :=
  if off + n ≤ storeBytes l then
    let s := storeFinding s l.ctx site off
    let t := tileOf s site
    (s, ((List.range n).map fun i => storeByte t (off + i),
      (pieces off n).any fun p => NSet.has t.storePoison (p.1 / 64)))
  else (bump s 1 site 10 1, (List.replicate n 0, false))

/-- Write bytes into a tile's store at an offset; poison by sector (R392, R393). -/
def tsPut (t : Tile) (off : Nat) (bs : List Byte) (poison : Bool) : Tile :=
  { t with
    store := memPut t.store off (bs.zipIdx.map fun b => junkByte t.storeJunk (off + b.2) b.1)
    storePoison := (pieces off bs.length).foldl (fun l p =>
      if poison then NSet.add l (p.1 / 64) else if p.2 = 64 then NSet.del l (p.1 / 64) else l) t.storePoison }

/-- Write to the tile store; beyond the allocation discarded and counted (R109). -/
def tsWrite (s : State) (l : Launch) (site off : Nat) (bs : List Byte) (poison : Bool) : State :=
  if off + bs.length ≤ storeBytes l then updTile s site fun t => tsPut t off bs poison else bump s 1 site 10 1

end Sys2Proof.Machine
end

