-- ==== Sys2Proof/Machine/ControlCore.lean ====
section
/-! DEFINITION. The control core (R99 to R102, R113): arithmetic, memory accesses, branches with prediction, group
control, fences, and the allocator instructions of both ISAs. -/

namespace Sys2Proof.Machine

/-- A value of a control-core register with its poison. -/
def t64 (v : Nat) (p : Bool) : T64 := { val := BitVec.ofNat 64 v, poison := p }

/-- Retire with RD written. -/
def ccWrite (s : State) (site rd : Nat) (v : T64) : CcOut := .next (updTile s site fun t => setCcReg t rd v)

/-- The signed immediate of CI (R99) as 64 bits. -/
def immCi (f : CiF) : DWord := f.imm.signExtend 64

/-! ### Arithmetic (R100, R106) -/

/-- CC_ALU: encodings that are defined (R100): FN[7] zero, MAD and SEL reserved, RS2 unused by one-source functions. -/
def ccAluLegal (f : CrF) : Bool :=
  let fn := f.fn.toNat
  decide (fn ≤ 0x1D) && fn != 0x05 && (intArity fn == 2 || f.rs2 == 0)

def ccAluOut (f : CrF) (site : Nat) (s : State) (t : Tile) : CcOut :=
  let a := ccReg t f.rs1.toNat
  let b := ccReg t f.rs2.toNat
  let v := (intFn 64 f.fn.toNat a.val.toNat b.val.toNat 0).getD 0
  ccWrite s site f.rd.toNat (t64 v (a.poison || (intArity f.fn.toNat == 2 && b.poison)))

/-- An immediate instruction: RD := op(RS1, IMM). -/
def ccImmOut (op : DWord → DWord → DWord) (f : CiF) (site : Nat) (s : State) (t : Tile) : CcOut :=
  let a := ccReg t f.rs1.toNat
  ccWrite s site f.rd.toNat { val := op a.val (immCi f), poison := a.poison }

/-- Shift immediates have IMM[13:6] RSV (R100). -/
def shiftLegal (f : CiF) : Bool := f.imm.toNat / 64 == 0

def b2w (b : Bool) : DWord := if b then 1 else 0

def execCcAlu (site : Site) (f : CrF) (s : State) : Host.Outcome State Fault Refusal :=
  whenUp s fun s => ccStep (srcs := [f.rs1.toNat, f.rs2.toNat]) s site (ccAluLegal f) true fun _ s t _ => ccAluOut f site s t

def execAddi (site : Site) (f : CiF) (s : State) : Host.Outcome State Fault Refusal :=
  whenUp s fun s => ccStep (srcs := [f.rs1.toNat]) s site true true fun _ s t _ => ccImmOut (· + ·) f site s t

def execAndi (site : Site) (f : CiF) (s : State) : Host.Outcome State Fault Refusal :=
  whenUp s fun s => ccStep (srcs := [f.rs1.toNat]) s site true true fun _ s t _ => ccImmOut (· &&& ·) f site s t

def execOri (site : Site) (f : CiF) (s : State) : Host.Outcome State Fault Refusal :=
  whenUp s fun s => ccStep (srcs := [f.rs1.toNat]) s site true true fun _ s t _ => ccImmOut (· ||| ·) f site s t

def execXori (site : Site) (f : CiF) (s : State) : Host.Outcome State Fault Refusal :=
  whenUp s fun s => ccStep (srcs := [f.rs1.toNat]) s site true true fun _ s t _ => ccImmOut (· ^^^ ·) f site s t

def execSlti (site : Site) (f : CiF) (s : State) : Host.Outcome State Fault Refusal :=
  whenUp s fun s => ccStep (srcs := [f.rs1.toNat]) s site true true fun _ s t _ => ccImmOut (fun a b => b2w (a.slt b)) f site s t

def execSltiu (site : Site) (f : CiF) (s : State) : Host.Outcome State Fault Refusal :=
  whenUp s fun s => ccStep (srcs := [f.rs1.toNat]) s site true true fun _ s t _ => ccImmOut (fun a b => b2w (a.ult b)) f site s t

def execShli (site : Site) (f : CiF) (s : State) : Host.Outcome State Fault Refusal :=
  whenUp s fun s => ccStep (srcs := [f.rs1.toNat]) s site (shiftLegal f) true fun _ s t _ =>
    ccImmOut (fun a b => a <<< (b.toNat % 64)) f site s t

def execShri (site : Site) (f : CiF) (s : State) : Host.Outcome State Fault Refusal :=
  whenUp s fun s => ccStep (srcs := [f.rs1.toNat]) s site (shiftLegal f) true fun _ s t _ =>
    ccImmOut (fun a b => a >>> (b.toNat % 64)) f site s t

def execSrai (site : Site) (f : CiF) (s : State) : Host.Outcome State Fault Refusal :=
  whenUp s fun s => ccStep (srcs := [f.rs1.toNat]) s site (shiftLegal f) true fun _ s t _ =>
    ccImmOut (fun a b => a.sshiftRight (b.toNat % 64)) f site s t

/-- RD with chunk K replaced (R99). -/
def limVal (v : DWord) (k : Nat) (imm : BitVec 16) : DWord :=
  (v &&& ~~~(0xFFFF#64 <<< (16 * k))) ||| (imm.zeroExtend 64 <<< (16 * k))

def execLim (site : Site) (f : ClF) (s : State) : Host.Outcome State Fault Refusal :=
  whenUp s fun s => ccStep (srcs := [f.rd.toNat]) s site (f.rsv == 0) true fun _ s t _ =>
    let a := ccReg t f.rd.toNat
    ccWrite s site f.rd.toNat { val := limVal a.val f.k.toNat f.imm16, poison := a.poison }

/-! ### Memory (R100, R112) -/

/-- Address of a control-core access: RS1 + IMM. -/
def ccAddr (f : CiF) (t : Tile) : T64 :=
  let a := ccReg t f.rs1.toNat
  { val := a.val + immCi f, poison := a.poison }

/-- A load of n bytes, zero-extended (R100). One that misses the L1 needs a miss register (R93). -/
def ccLoadOut (f : CiF) (n site : Nat) (l : Launch) (s : State) (t : Tile) : CcOut :=
  let a := ccAddr f t
  if a.poison then .fault s 1 poisonConsumed 0 0x02
  else if a.val.toNat % n ≠ 0 then .fault s 1 misaligned (a.val &&& 0xFFFFFFFFFFFFF#64) 0
  else match tileLoad s site l.ctx a.val n with
    | (s', .ok ((bs, p), miss)) => if miss && missFull t then .wait s else ccWrite s' site f.rd.toNat (t64 (leNat bs) p)
    | (s, .fault c va d) => .fault s 1 c va (BitVec.ofNat 64 d)
    | (s, .wait) => .wait s

/-- A store of the low n bytes of RD. -/
def ccStoreOut (f : CiF) (n site : Nat) (l : Launch) (s : State) (t : Tile) : CcOut :=
  let a := ccAddr f t
  let v := ccReg t f.rd.toNat
  if a.poison then .fault s 1 poisonConsumed 0 0x02
  else if a.val.toNat % n ≠ 0 then .fault s 1 misaligned (a.val &&& 0xFFFFFFFFFFFFF#64) 0
  else match tileStore s site none l.ctx a.val (leBytes v.val.toNat n) v.poison with
    | (s, .ok ()) => .next s
    | (s, .fault c va d) => .fault s 1 c va (BitVec.ofNat 64 d)
    | (s, .wait) => .wait s

def execLdD (site : Site) (f : CiF) (s : State) : Host.Outcome State Fault Refusal :=
  whenUp s fun s => ccStep (srcs := [f.rs1.toNat]) s site true false fun l s t _ => ccLoadOut f 8 site l s t

def execLdW (site : Site) (f : CiF) (s : State) : Host.Outcome State Fault Refusal :=
  whenUp s fun s => ccStep (srcs := [f.rs1.toNat]) s site true false fun l s t _ => ccLoadOut f 4 site l s t

def execStD (site : Site) (f : CiF) (s : State) : Host.Outcome State Fault Refusal :=
  whenUp s fun s => ccStep (srcs := [f.rs1.toNat, f.rd.toNat]) s site true false fun l s t _ => ccStoreOut f 8 site l s t

def execStW (site : Site) (f : CiF) (s : State) : Host.Outcome State Fault Refusal :=
  whenUp s fun s => ccStep (srcs := [f.rs1.toNat, f.rd.toNat]) s site true false fun l s t _ => ccStoreOut f 4 site l s t

/-! ### Branches (R100, R102, R112) -/

/-- Go on at target, or past an unresolved branch at a predicted address, the registers before it kept (R102). -/
def ccGo (s : State) (site : Nat) (t : Tile) (target : DWord) (pred : Option DWord) : CcOut :=
  match pred with
  | none => .jump s target
  | some guess =>
    .jump (updTile s site fun x => { x with spec := some { regs := t.ccRegs, target := target, guess := guess, done := 0 } }) guess

/-- A conditional branch. A poisoned operand is consumed (R112). -/
def ccBranchOut (cond : DWord → DWord → Bool) (f : CbF) (pred : Option DWord) (site : Nat) (s : State) (t : Tile)
    (pc : DWord) : CcOut :=
  let a := ccReg t f.rs1.toNat
  let b := ccReg t f.rs2.toNat
  if a.poison || b.poison then .fault s 1 poisonConsumed 0 0x01
  else
    let target := if cond a.val b.val then pc + (f.off.signExtend 64) * 4 else pc + 4
    ccGo s site t target pred

def execBeq (site : Site) (f : CbF) (pred : Option DWord) (s : State) : Host.Outcome State Fault Refusal :=
  whenUp s fun s => ccStep (srcs := [f.rs1.toNat, f.rs2.toNat]) s site true false fun _ s t pc => ccBranchOut (· == ·) f pred site s t pc

def execBne (site : Site) (f : CbF) (pred : Option DWord) (s : State) : Host.Outcome State Fault Refusal :=
  whenUp s fun s => ccStep (srcs := [f.rs1.toNat, f.rs2.toNat]) s site true false fun _ s t pc => ccBranchOut (· != ·) f pred site s t pc

def execBlt (site : Site) (f : CbF) (pred : Option DWord) (s : State) : Host.Outcome State Fault Refusal :=
  whenUp s fun s => ccStep (srcs := [f.rs1.toNat, f.rs2.toNat]) s site true false fun _ s t pc => ccBranchOut (fun a b => a.slt b) f pred site s t pc

def execBge (site : Site) (f : CbF) (pred : Option DWord) (s : State) : Host.Outcome State Fault Refusal :=
  whenUp s fun s => ccStep (srcs := [f.rs1.toNat, f.rs2.toNat]) s site true false fun _ s t pc => ccBranchOut (fun a b => !a.slt b) f pred site s t pc

def execBltu (site : Site) (f : CbF) (pred : Option DWord) (s : State) : Host.Outcome State Fault Refusal :=
  whenUp s fun s => ccStep (srcs := [f.rs1.toNat, f.rs2.toNat]) s site true false fun _ s t pc => ccBranchOut (fun a b => a.ult b) f pred site s t pc

def execBgeu (site : Site) (f : CbF) (pred : Option DWord) (s : State) : Host.Outcome State Fault Refusal :=
  whenUp s fun s => ccStep (srcs := [f.rs1.toNat, f.rs2.toNat]) s site true false fun _ s t pc => ccBranchOut (fun a b => !a.ult b) f pred site s t pc

def execJal (site : Site) (f : CjF) (s : State) : Host.Outcome State Fault Refusal :=
  whenUp s fun s => ccStep s site true true fun _ s _ pc =>
    .jump (updTile s site fun t => setCcReg t f.rd.toNat { val := pc + 4, poison := false }) (pc + (f.off.signExtend 64) * 4)

def execJalr (site : Site) (f : CiF) (pred : Option DWord) (s : State) : Host.Outcome State Fault Refusal :=
  whenUp s fun s => ccStep (srcs := [f.rs1.toNat]) s site true false fun _ s t pc =>
    let a := ccAddr f t
    if a.poison then .fault s 1 poisonConsumed 0 0x01
    else if a.val.toNat % 4 ≠ 0 then .fault s 1 misaligned (a.val &&& 0xFFFFFFFFFFFFF#64) 0
    else
      let t' := setCcReg t f.rd.toNat { val := pc + 4, poison := false }
      ccGo (setTile s site t') site t' a.val pred

/-- CC_BRANCH_RESOLVE (R102): a right guess keeps the speculated instructions, which retire with the branch; a wrong one
discards them and every result, and the branch alone retires. -/
def execCcBranchResolve (site : Site) (s : State) : Host.Outcome State Fault Refusal :=
  whenUp s fun s =>
    match runningLaunch s site, (tileOf s site).spec with
    | some l, some c =>
      if c.guess = c.target then ccCount (updTile s site fun t => { t with spec := none }) l site c.done
      else ccCount (updTile s site fun t => { t with spec := none, ccRegs := c.regs, ccPc := c.target }) l site 1
    | _, _ => s

/-! ### Group control (R101, R111) -/

/-- The state in which a thread group starts (R111); a token of an earlier run that has not completed stays pending. -/
def startGroup (l : Launch) (g : Nat) (entry : DWord) (arg : T64) (tokens : BitVec 8) : TGroup :=
  let reg (i r : Nat) : Option (Nat × T32) :=
    let v : T32 := match r with
      | 0 => { val := BitVec.ofNat 32 i, poison := false }
      | 1 => { val := BitVec.ofNat 32 g, poison := false }
      | 2 => { val := BitVec.ofNat 32 (fld arg.val 31 0), poison := arg.poison }
      | _ => { val := BitVec.ofNat 32 (fld arg.val 63 32), poison := arg.poison }
    if r < l.regs ∧ v ≠ T32.zero then some (i * 256 + r, v) else none
  { TGroup.empty with
    running := true, exited := 0, tokens := tokens
    regs := ((List.range 32).map fun i => [0, 1, 2, 3].filterMap (reg i)).flatten
    pcs := if entry = 0 then [] else (List.range 32).map fun i => (i, entry) }

/-- Threads that a group started anew has in place of those that exited have not arrived at any tile barrier (R121). -/
def noArrivals (t : Tile) (g : Nat) : Tile :=
  { t with bars := t.bars.map fun e =>
      (e.1, { e.2 with arrived := NMap.erase e.2.arrived g, nextArr := NMap.erase e.2.nextArr g }) }

/-- Start a group: it enters the sets of R115 (DEDUCED, notes/assumptions/53.md). -/
def startInTile (t : Tile) (l : Launch) (g : Nat) (entry : DWord) (arg : T64) : Tile :=
  let t := noArrivals t g
  makeEligible (leaveSets (setGroup t g (startGroup l g entry arg (groupOf t g).tokens)) g) g

/-- Start the groups of a list in order up to the first that still runs; the groups left (R101). -/
def startGroups (t : Tile) (l : Launch) (entry : DWord) (arg : T64) (gs : List Nat) : Tile × List Nat :=
  match gs with
  | [] => (t, [])
  | g :: r =>
    if (groupOf t g).running then (t, g :: r) else startGroups (startInTile t l g entry arg) l entry arg r

/-- Mask of running groups. -/
def runningMask (t : Tile) : Nat := ((List.range 64).map fun g => if (groupOf t g).running then 2 ^ g else 0).sum

/-- G.START (R101): it waits for every earlier vector write (R250), then starts the groups of the mask in ascending
order, waiting at each that still runs (notes/assumptions/22.md). -/
def gStartOut (f : CrF) (site : Nat) (l : Launch) (s : State) (t : Tile) : CcOut :=
  let mask := ccReg t f.rd.toNat
  let entry := ccReg t f.rs1.toNat
  let arg := ccReg t f.rs2.toNat
  if mask.poison || entry.poison then .fault s 1 poisonConsumed 0 0x02
  else if entry.val.toNat % 8 ≠ 0 then .fault s 1 misaligned (entry.val &&& 0xFFFFFFFFFFFFF#64) 0
  else if t.vec.queue ≠ [] then .wait s
  else
    let want := t.startLeft.getD mask.val
    let r := startGroups t l entry.val arg ((setBits want.toNat 64).filter (· < l.groups))
    match r.2 with
    | [] => .next (setTile s site { r.1 with startLeft := none })
    | left => .wait (setTile s site { r.1 with startLeft := some (BitVec.ofNat 64 ((left.map fun g => 2 ^ g).sum)) })

def execGStart (site : Site) (f : CrF) (s : State) : Host.Outcome State Fault Refusal :=
  whenUp s fun s => ccStep (srcs := [f.rd.toNat, f.rs1.toNat, f.rs2.toNat]) s site (f.fn == 0x00) false fun l s t _ => gStartOut f site l s t

def execGWait (site : Site) (f : CrF) (s : State) : Host.Outcome State Fault Refusal :=
  whenUp s fun s => ccStep (srcs := [f.rs1.toNat, f.rs2.toNat]) s site (f.fn == 0x01 && f.rd == 0 && f.rs2 == 0) false fun _ s t _ =>
    let m := ccReg t f.rs1.toNat
    if m.poison then .fault s 1 poisonConsumed 0 0x02
    else if runningMask t &&& m.val.toNat = 0 then .next s else .wait s

def execGStat (site : Site) (f : CrF) (s : State) : Host.Outcome State Fault Refusal :=
  whenUp s fun s => ccStep s site (f.fn == 0x02 && f.rs1 == 0 && f.rs2 == 0) false fun _ s t _ =>
    ccWrite s site f.rd.toNat (t64 (runningMask t) false)

/-- TCFG: the bits above [0] must be zero, otherwise ILLEGAL_INSTRUCTION (R101). -/
def execTcfg (site : Site) (f : CrF) (s : State) : Host.Outcome State Fault Refusal :=
  whenUp s fun s => ccStep (srcs := [f.rs1.toNat, f.rs2.toNat]) s site (f.fn == 0x03 && f.rd == 0 && f.rs2 == 0) false fun _ s t pc =>
    let v := (ccReg t f.rs1.toNat).val
    if v.toNat ≥ 2 then .fault s 1 illegalInstruction (pc &&& 0xFFFFFFFFFFFFF#64) 0
    else .next (updTile s site fun t => { t with runAheadOn := v == 1 })

/-! ### System functions (R98, R100, R292) -/

/-- Register fields of a system function are unused (R100). -/
def sysLegal (f : CrF) (fn : Nat) : Bool := f.fn.toNat == fn && f.rd == 0 && f.rs1 == 0 && f.rs2 == 0

def execSysNop (site : Site) (f : CrF) (s : State) : Host.Outcome State Fault Refusal :=
  whenUp s fun s => ccStep s site (sysLegal f 0x00) false fun _ s _ _ => .next s

end Sys2Proof.Machine
end

