-- ==== Sys2Proof/Machine/Packets.lean ====
section
/-! DEFINITION. Command packets (R71, R73): fields, the opcode table with its classes and privileges, reserved bits
and values (checks 1 to 3 of R76), and handles (R38, R42). -/

namespace Sys2Proof.Machine

/-- A command packet as read from its ring or list (R71). -/
structure RawPacket where
  hdr   : DWord
  fences : DWord
  wval  : DWord
  sval  : DWord
  w0    : DWord
  w1    : DWord
  w2    : DWord
  w3    : DWord
  deriving DecidableEq, Repr

/-- The packet that 64 bytes spell (R8, R71). -/
def RawPacket.ofBytes (bs : List Byte) : RawPacket :=
  let w (i : Nat) : DWord := BitVec.ofNat 64 (leNat (sliceList 0 bs (8 * i) 8))
  { hdr := w 0, fences := w 1, wval := w 2, sval := w 3, w0 := w 4, w1 := w 5, w2 := w 6, w3 := w 7 }

def RawPacket.opcode (p : RawPacket) : Nat := fld p.hdr 63 56
def RawPacket.notify (p : RawPacket) : Bool := bit p.hdr 55
def RawPacket.serial (p : RawPacket) : Bool := bit p.hdr 54
def RawPacket.ignerr (p : RawPacket) : Bool := bit p.hdr 53
def RawPacket.tag (p : RawPacket) : Word := BitVec.ofNat 32 (fld p.hdr 31 0)
def RawPacket.sfence (p : RawPacket) : Word := BitVec.ofNat 32 (fld p.fences 63 32)
def RawPacket.wfence (p : RawPacket) : Word := BitVec.ofNat 32 (fld p.fences 31 0)

/-- Class of an opcode (R61, R73): none for a control command; the opcode is reserved where this answers none. -/
def opClass (op : Nat) : Option (Option Nat) :=
  if (1 ≤ op ∧ op ≤ 4) ∨ (0x10 ≤ op ∧ op ≤ 0x1B) then some none
  else if op = 0x20 then some (some 0)
  else if 0x28 ≤ op ∧ op ≤ 0x2C then some (some 1)
  else if op = 0x30 ∨ op = 0x31 then some (some 2)
  else if 0x38 ≤ op ∧ op ≤ 0x3B then some (some 3)
  else if 0x40 ≤ op ∧ op ≤ 0x43 then some (some 4)
  else none

/-- Privileged opcodes (R73). -/
def opPriv (op : Nat) : Bool :=
  decide (0x10 ≤ op ∧ op ≤ 0x1B) || op == 0x2B || op == 0x2C || op == 0x31 || op == 0x3A || op == 0x3B || op == 0x42

/-- Bits [hi:lo] set. -/
def ones (hi lo : Nat) : Nat := (2 ^ (hi + 1 - lo) - 1) <<< lo

/-- Operand bits that a packet of an opcode may set, word by word; all others are RSV (R73). -/
def opMasks (op : Nat) (w0 w1 : DWord) : List Nat :=
  let va := ones 51 0
  match op with
  | 0x01 => [0, 0, 0, 0]
  | 0x02 => [ones 63 0, ones 31 0, 0, 0]
  | 0x03 => [ones 31 0, ones 63 0, 0, 0]
  | 0x04 => [ones 31 0, ones 31 0, ones 63 0, 0]
  | 0x10 => [ones 13 0 + ones 21 16 + ones 63 24, ones 63 60 + ones 47 16, ones 47 6, ones 63 0]
  | 0x11 => [ones 13 0 + ones 21 16 + ones 63 24, ones 63 60 + ones 47 16 + ones 7 0, ones 47 6, ones 63 0]
  | 0x12 => [ones 11 0, ones 31 0, 0, 0]
  | 0x13 => [ones 11 0, 0, 0, 0]
  | 0x14 => [ones 11 0, 0, 0, 0]
  | 0x15 => [ones 11 0, ones 31 0, 0, 0]
  | 0x16 => [ones 18 0 + ones 23 20, ones 31 0, 0, 0]
  | 0x17 => [ones 12 0, ones 51 16, ones 31 0, 0]
  | 0x18 =>
    match fld w0 14 12 with
    | 0 => [ones 14 0, ones 51 16, ones 31 0, 0]
    | 1 => [ones 14 0, ones 51 16, ones 31 0, ones 47 16]
    | 2 => [ones 14 0, ones 63 0, 0, 0]
    | _ => [ones 14 0, ones 63 56 + ones 47 12, ones 59 56 + ones 47 6, 0]
  | 0x19 => [ones 43 0 + ones 50 48, ones 51 16, 0, 0]
  | 0x1A => [ones 14 0, ones 31 0, 0, 0]
  | 0x1B => [ones 15 0, ones 31 0, 0, 0]
  | 0x20 => [va, va, ones 23 0 + ones 42 32, ones 1 0]
  | 0x28 => [va, va, ones 39 0, 0]
  | 0x29 => [va, ones 39 0, ones 31 0, 0]
  | 0x2A => [va, ones 39 0, ones 0 0 + ones 16 8, ones 63 0]
  | 0x2B => [ones 15 8, ones 31 0, 0, 0]
  | 0x2C =>
    match fld w0 3 0 with
    | 0 => [ones 3 0 + ones 17 8 + ones 31 20, ones 15 0, va, 0]
    | 1 => [ones 3 0 + ones 31 20, 0, 0, 0]
    | _ => [ones 3 0, ones 2 0, 0, 0]
  | 0x30 =>
    match fld w1 1 0 with
    | 2 => [va, ones 1 0 + ones 31 16, ones 18 0, 0]
    | 3 => [0, ones 1 0 + ones 31 16, 0, 0]
    | _ => [va, ones 1 0, 0, 0]
  | 0x31 => [va, ones 17 0, ones 18 0, 0]
  | 0x38 => [va, ones 31 0, 0, 0]
  | 0x39 => [va, ones 31 0, va, ones 41 0]
  | 0x3A => [ones 4 0, va, ones 19 0, ones 19 0]
  | 0x3B => [ones 20 0, ones 31 0, ones 63 0, ones 63 0]
  | 0x40 => [va, ones 14 0, ones 31 0, 0]
  | 0x41 => [ones 13 0 + ones 16 16, va, ones 15 0, 0]
  | 0x42 => [ones 13 0 + ones 27 16 + ones 43 32 + ones 48 48, 0, 0, 0]
  | 0x43 => [ones 13 0 + ones 16 16, va, va, 0]
  | _ => [0, 0, 0, 0]

/-- A power of two, from lo to hi. -/
def isPow2Between (x lo hi : Nat) : Bool := decide (x = 2 ^ Nat.log2 x ∧ lo ≤ x ∧ x ≤ hi)

/-- Entries of a fabric table (R350). -/
def rxtEntries (table : Nat) : Option Nat :=
  match table with
  | 0 => some 524288
  | 1 => some 16384
  | 2 => some 16384
  | 3 => some 1
  | 4 => some 20
  | _ => none

/-- KINDs that a detector provides (R403). -/
def injectKinds (det : Nat) : List Nat :=
  if det = 0x01 ∨ det = 0x02 ∨ det = 0x04 ∨ det = 0x05 ∨ det = 0x07 ∨ det = 0x08 ∨ det = 0x09 then [0, 1]
  else if det = 0x03 ∨ det = 0x06 ∨ det = 0x0F ∨ det = 0x10 ∨ det = 0x12 then [1]
  else if det = 0x11 then [0, 1]
  else if det = 0x13 then [0]
  else if 0x0A ≤ det ∧ det ≤ 0x0D then [1, 2]
  else if det = 0x0E ∨ det = 0x14 then [2]
  else []

/-- TARGET and VA operands of an arm that its detector does not take, or takes out of range (R403). -/
def injectBad (w0 w1 w2 : DWord) : Bool :=
  let det := fld w0 15 8
  let target := fld w1 15 0
  let targetMax :=
    if (0x06 ≤ det ∧ det ≤ 0x0E) ∨ det = 0x13 then 411
    else if det = 0x0F then 255
    else if det = 0x10 then 3
    else if det = 0x11 then 19
    else 0
  let hasVa := decide ((0x01 ≤ det ∧ det ≤ 0x05) ∨ det = 0x12)
  !(injectKinds det).contains (fld w0 17 16) || decide (target > targetMax) || (!hasVa && w2 != 0)

/-- Reserved values in operand fields, as far as the packet alone shows them (R73, R76 check 3). -/
def opReserved (op : Nat) (p : RawPacket) (listed : Bool) : Bool :=
  let w0 := p.w0
  let w1 := p.w1
  let w2 := p.w2
  match op with
  | 0x03 => listed || fld w1 63 32 == 0 || decide (fld w1 63 32 > 65536)
  | 0x10 => fld w0 21 16 == 63 || decide (fld w1 63 60 > 10)
  | 0x11 => (bit w1 0 && fld w0 21 16 == 63) || (bit w1 7 && decide (fld w1 63 60 > 10))
  | 0x16 => decide (fld w0 18 16 > 4)
  | 0x18 =>
    let kind := fld w0 14 12
    let size := fld w2 31 0
    decide (kind > 3) || (decide (kind ≤ 1) && size == 0) ||
    (kind == 1 && (!isPow2Between (size * 65536) (2 ^ 26) (2 ^ 40) || fld w1 51 0 % (size * 65536) != 0)) ||
    (kind == 3 && (fld w1 59 56 == 15 || fld w2 59 56 == 15 || !bit w1 47 || !bit w2 47))
  | 0x1A => bit w0 14 && w1 != 0
  | 0x20 => fld w2 8 0 == 0 || fld w2 15 9 == 0 || fld w2 23 16 == 0
  | 0x29 => fld w1 39 0 % 4 != 0
  | 0x2A => fld w0 51 0 % 64 != 0
  | 0x2B => bit w0 15
  | 0x2C =>
    match fld w0 3 0 with
    | 0 => injectBad w0 w1 w2
    | 1 => false
    | 2 => decide (fld w1 2 0 > 4)
    | _ => true
  | 0x30 =>
    (fld w1 1 0 == 2 && ((w0 != 0 && w2 == 0) || decide (fld w2 18 0 > 262144))) || (fld w1 1 0 == 3 && w0 != 0)
  | 0x31 => fld w0 51 0 % 64 != 0 || fld w2 18 0 == 0 || decide (fld w1 17 0 + fld w2 18 0 > 262144)
  | 0x38 => fld w0 51 0 % 64 != 0
  | 0x3A =>
    match rxtEntries (fld w0 3 0) with
    | none => true
    | some n => fld p.w3 19 0 == 0 || decide (fld w2 19 0 + fld p.w3 19 0 > n) || (fld w0 4 0 == 4) ||
        fld w1 51 0 % 64 != 0
  | 0x3B => fld w0 19 0 == 0
  | 0x40 => fld w1 14 0 == 0 || decide (fld w1 14 0 > 16384) || fld w0 51 0 % 64 != 0
  | 0x41 => fld w1 51 0 % 64 != 0 || (bit w0 16 && w2 != 0)
  | 0x42 => decide (fld w0 11 0 + fld w0 27 16 > 4095)
  | _ => false

/-- DETAIL of a BAD_PACKET of the front end: that of an RXT_WRITE names its first failing entry, which is the first one in a
table that there is not or that may not be written, and the first one beyond a table that there is (R351). -/
def badDetail (p : RawPacket) : Nat :=
  let first := fld p.w2 19 0
  if p.opcode ≠ 0x3A then 0
  else match rxtEntries (fld p.w0 3 0) with
    | none => first
    | some n =>
      if fld p.w0 4 0 = 4 then first
      else if first + fld p.w3 19 0 > n then max first n
      else 0

/-- A nonzero RSV field or a reserved value in a packet (R71, R73; check 3 of R76). -/
def packetBad (p : RawPacket) (listed : Bool) : Bool :=
  let ms := opMasks p.opcode p.w0 p.w1
  fld p.hdr 52 32 ≠ 0 ||
  (List.zipWith (fun w m => decide (w.toNat &&& m ≠ w.toNat)) [p.w0, p.w1, p.w2, p.w3] ms).any id ||
  opReserved p.opcode p listed

/-! ### Handles (R38, R42) -/

def hIndex (h : Word) : Nat := h.toNat % 2 ^ 20
def hGen (h : Word) : Nat := h.toNat >>> 20

/-- The entry that holds what an entry names: the original of an import (R41). -/
def originOf (s : State) (i : Nat) : Nat :=
  let o := objOf s i
  match o.kind with
  | .imported => o.src.toNat
  | _ => i

/-- Kind of what an entry names. -/
def kindOf (s : State) (i : Nat) : ObjKind := (objOf s (originOf s i)).kind

/-- The generation has been issued for the entry and freed (R42). -/
def genStale (o : Obj) (g : Nat) : Bool :=
  if o.wrapped then g ≠ o.gen.toNat else decide (1 ≤ g ∧ g < o.gen.toNat)

/-- Bit of RIGHTS: 0 read, 1 write, 2 remote. -/
def hasRight (o : Obj) (r : Nat) : Bool := o.rights.toNat.testBit r

/-- What an operand asks of a handle: the kinds that suit it (none: any), whether an import suits it, and a right. -/
structure HandleNeed where
  kinds  : List ObjKind
  imports : Bool
  right  : Option Nat
  deriving DecidableEq, Repr

/-- The check of R42: none when the handle passes, else the code of the first check that fails. -/
def checkHandle (s : State) (ctx : Nat) (h : Word) (need : HandleNeed) : Option Nat :=
  let i := hIndex h
  let o := objOf s i
  if i = 0 ∨ hGen h = 0 then some badHandle
  else if genStale o (hGen h) then some staleHandle
  else if hGen h ≠ o.gen.toNat ∨ o.state ≠ .live then some badHandle
  else if o.owner.toNat ≠ ctx ∧ !(ctxOf s ctx).priv then some wrongOwner
  else if (need.kinds ≠ [] ∧ !need.kinds.contains (kindOf s i)) ∨ (!need.imports ∧ o.kind = .imported) then
    some objectKind
  else match need.right with
    | some r => if hasRight o r then none else some objectRights
    | none => none

def needWait : HandleNeed := { kinds := [.fence], imports := true, right := some 0 }
def needSignal : HandleNeed := { kinds := [.fence], imports := true, right := some 1 }

/-- The handle operands of an opcode beside the header's fences, in word order: the handle and what it needs. A null
release fence and a null heap of an unbinding are no operands. -/
def opHandles (p : RawPacket) : List (Word × HandleNeed) :=
  let h (w : DWord) : Word := BitVec.ofNat 32 (fld w 31 0)
  let any : HandleNeed := { kinds := [], imports := true, right := none }
  match p.opcode with
  | 0x03 => [(h p.w0, { kinds := [.buffer], imports := true, right := some 0 })]
  | 0x04 => (h p.w0, any) :: (if h p.w1 = 0 then [] else [(h p.w1, needSignal)])
  | 0x12 => [(h p.w1, { kinds := [.buffer], imports := true, right := some 1 })]
  | 0x16 => [(h p.w1, { kinds := [.ring], imports := false, right := none })]
  | 0x19 => [(h p.w0, { kinds := [], imports := false, right := none })]
  | 0x1A => if bit p.w0 14 then [] else [(h p.w1, { kinds := [.heap], imports := false, right := none })]
  | _ => []

/-- The first failing check of a list of handles: code and handle. -/
def firstBad (s : State) (ctx : Nat) (hs : List (Word × HandleNeed)) : Option (Nat × Word) :=
  match hs with
  | [] => none
  | (h, n) :: r =>
    match checkHandle s ctx h n with
    | some code => some (code, h)
    | none => firstBad s ctx r

/-- DETAIL of a handle fault: the entry's current GEN for STALE_HANDLE (R58). -/
def handleDetail (s : State) (code : Nat) (h : Word) : DWord :=
  if code = staleHandle then BitVec.ofNat 64 (objOf s (hIndex h)).gen.toNat else 0

end Sys2Proof.Machine
end

