-- ==== Sys2Proof/Machine/FrontEnd.lean ====
section
/-! DEFINITION. The command front end: doorbells and binding (R66, R69), parsing (R71 to R76), fences (R78 to R81),
arbitration (R62, R63, R72), and retirement (R82 to R84). -/

namespace Sys2Proof.Machine

/-! ### Fences (R78, R79) -/

def fenceValue (o : Obj) : DWord := o.w1
def fenceErr (o : Obj) : Bool := bit o.w2 63
def fenceCode (o : Obj) : Nat := fld o.w2 55 48

/-- How a wait on a fence stands (R79): it goes on, it ends and the command may run, or it ends with the error code. -/
inductive WaitEnd where
  | goesOn | ok | error (code : Nat)
  deriving DecidableEq, Repr

def waitEnd (o : Obj) (ignerr : Bool) (wval : DWord) : WaitEnd :=
  let reached := decide (wval.toNat ≤ (fenceValue o).toNat)
  if ignerr then
    if reached then .ok else if fenceErr o then .error (fenceCode o) else .goesOn
  else
    if fenceErr o then .error (fenceCode o) else if reached then .ok else .goesOn

/-- Change WAITERS of a fence by one (R78). -/
def addWaiter (s : State) (fence : Nat) : State := updObj s fence fun o => { o with w2 := o.w2 + 1 }
def dropWaiter (s : State) (fence : Nat) : State :=
  updObj s fence fun o => if fld o.w2 23 0 = 0 then o else { o with w2 := o.w2 - 1 }

/-- A command that will not run, or has run, with its status, code and RESULT; it retires at its completion. -/
def finish (s : State) (c : CmdRef) (status code : Nat) (result : DWord) : State :=
  updCmd s c fun k => { k with phase := .done, status := BitVec.ofNat 8 status, code := BitVec.ofNat 8 code, result := result }

/-- An evicted queue whose head command waits no longer rejoins the list of waiting queues (R66). -/
def rejoin (s : State) (ctx queue : Nat) : State :=
  let q := qidx ctx queue
  if (queueOf s ctx queue).bound ∨ s.waiting.contains q then s else { s with waiting := s.waiting ++ [q] }

/-- End the wait of one command as the fence stands, and let an evicted queue rejoin the list (R66). The commands of a
FAULTED context are held (R26). -/
def endWait (s : State) (k : Cmd) : State :=
  match k.waits, k.phase with
  | some i, .waiting =>
    if (ctxOf s k.ref.ctx).state = .faulted then s
    else match waitEnd (objOf s i) k.ignerr k.wval with
    | .goesOn => s
    | .ok => rejoin (dropWaiter (updCmd s k.ref fun k => { k with waits := none }) i) k.ref.ctx k.ref.queue
    | .error code =>
      rejoin (finish (dropWaiter (updCmd s k.ref fun k => { k with waits := none }) i) k.ref 2 code 0) k.ref.ctx k.ref.queue
  | _, _ => s

/-- Re-evaluate the waits on a fence (R79). -/
def wakeWaiters (s : State) (fence : Nat) : State :=
  (s.cmds.filter fun k => k.waits == some fence).foldl endWait s

/-- Set ERR of a fence, and CODE if it has none (R79). -/
def setFenceErr (o : Obj) (code : Nat) : Obj :=
  { o with w2 := (o.w2 ||| 0x8000000000000000#64) ||| (if fenceCode o = 0 then BitVec.ofNat 64 (code <<< 48) else 0) }

/-- Signal a fence: VALUE rises to val at least; with an error also ERR and CODE (R79). -/
def signalFence (s : State) (fence : Nat) (val : DWord) (err : Option Nat) : State :=
  let s := updObj s fence fun o =>
    let o := if o.w1.toNat < val.toNat then { o with w1 := val } else o
    match err with
    | some code => setFenceErr o code
    | none => o
  wakeWaiters s fence

/-! ### References (R43) -/

def addRefs (s : State) (refs : List Nat) : State :=
  refs.foldl (fun s i => updObj s i fun o => { o with inflight := o.inflight + 1 }) s

def dropRefs (s : State) (refs : List Nat) : State :=
  refs.foldl (fun s i => updObj s i fun o => { o with inflight := o.inflight - 1 }) s

/-! ### Rings (R65, R67) -/

/-- RSIZE, RBASE in bytes, CSIZE, CBASE in bytes of a queue's rings. -/
def ringsOf (s : State) (q : Queue) : Nat × Nat × Nat × Nat :=
  if q.bootRings then
    (s.boot.rsize.toNat, s.boot.rbase.toNat * 4096, s.boot.csize.toNat, s.boot.cbase.toNat * 64)
  else
    let o := objOf s (hIndex q.ring)
    (fld o.w1 59 56, fld o.w1 47 12 * 4096, fld o.w2 59 56, fld o.w2 47 6 * 64)

/-- The free of the queue's ring object has been marked (R65). -/
def ringMarked (s : State) (q : Queue) : Bool :=
  !q.bootRings && q.ring != 0 && (objOf s (hIndex q.ring)).state == .freePending

/-! ### Resident slots (R66) -/

/-- Commands of a queue in parse order. -/
def queueCmds (s : State) (ctx queue : Nat) : List Cmd :=
  s.cmds.filter fun k => k.ref.ctx == ctx && k.ref.queue == queue

/-- A started command that runs on an engine: every one but a control command (R61). -/
def onEngine (k : Cmd) : Bool := k.phase == .started && opClass k.opcode.toNat != some none

/-- A bound queue whose slot may be taken (R66). -/
def evictable (s : State) (qi : Nat) : Bool :=
  let q := queueOf s (qi / 16) (qi % 16)
  let ks := queueCmds s (qi / 16) (qi % 16)
  q.bound && !ks.any onEngine &&
    (q.head == q.tail || match ks.find? fun k => k.phase == .waiting with
      | some k => k.waits.isSome
      | none => false)

/-- Slots in use. -/
def usedSlots (s : State) : List Nat := (s.queues.filter fun e => e.2.bound).map fun e => e.2.slot.toNat

/-- A free slot; which one the manual does not say (notes/assumptions/19.md). -/
def freeSlot (s : State) : Option Nat :=
  let used := usedSlots s
  if used.length ≥ 16384 then none
  else
    let start := (Config.freeWord s.freeCtr).toNat
    ((List.range (used.length + 1)).map fun i => (start + i) % 16384).find? fun x => !used.contains x

/-- Bind a queue to a free slot or to that of the evictable queue whose doorbell rang least recently; none where it
must wait. -/
def tryBind (s : State) (qi : Nat) : Option State :=
  match freeSlot s with
  | some slot =>
    some (updQueue (takeFree s).2 (qi / 16) (qi % 16) fun q => { q with bound := true, slot := BitVec.ofNat 14 slot })
  | none =>
    match s.bells.find? (evictable s) with
    | some v =>
      let slot := (queueOf s (v / 16) (v % 16)).slot
      let s := updQueue s (v / 16) (v % 16) fun q => { q with bound := false, slot := 0 }
      some (updQueue s (qi / 16) (qi % 16) fun q => { q with bound := true, slot := slot })
    | none => none

/-- Bind a queue, or let it join the waiting list (R66). -/
def bindQueue (s : State) (qi : Nat) : State :=
  let q := queueOf s (qi / 16) (qi % 16)
  if q.bound ∨ q.qstate ≠ .enabled then s
  else match tryBind s qi with
    | some s => { s with waiting := s.waiting.filter (· != qi) }
    | none => if s.waiting.contains qi then s else { s with waiting := s.waiting ++ [qi] }

/-- Bind the queue at the head of the waiting list, if it can be (R66). -/
def bindFromWait (s : State) : State :=
  match s.waiting with
  | [] => s
  | qi :: r =>
    if (queueOf s (qi / 16) (qi % 16)).bound then { s with waiting := r }
    else match tryBind { s with waiting := r } qi with
    | some s => s
    | none => s

/-! ### Doorbells (R67, R69) -/

/-- A doorbell write (R69). A reserved RSIZE, CSIZE or NSIZE that the driver has written into the bootstrap block is used as
the size that it spells (DESIGN CHOICE, notes/assumptions/83.md). -/
def doorbell (s : State) (ctx queue : Nat) (data : DWord) : State :=
  let d := ctxOf s ctx
  let q := queueOf s ctx queue
  let tail : Word := BitVec.ofNat 32 (fld data 31 0)
  let reject := notify s 5 queue ctx tail 0
  if d.state = .killing ∨ d.state = .scrubbing ∨ d.state = .free ∨ q.qstate = .disabled then reject
  else if ringMarked s q then reject
  else if q.bootRings ∧ (s.boot.rbase.toNat * 4096 < 2 ^ 47 ∨ s.boot.cbase.toNat * 64 < 2 ^ 47 ∨ s.boot.nbase.toNat * 16 < 2 ^ 47) then s
  else if (tail - q.tail).toNat ≥ 2 ^ 31 then s
  else if (tail - q.head).toNat > 2 ^ (6 + (ringsOf s q).1) then reject
  else
    let s := setQueue s ctx queue { q with tail := tail }
    let qi := qidx ctx queue
    let s := { s with bells := s.bells.filter (· != qi) ++ [qi] }
    let s := if ctx = 0 ∧ queue = 0 then { s with boot := { s.boot with locked := true } } else s
    bindQueue s qi

/-! ### Parsing (R71 to R76, R85) -/

/-- The command that a packet stands for, before its checks. A ring has no virtual address (R65): WHERE of a UNIT 0 fault
holds the device physical address of a ring packet (DESIGN CHOICE, notes/assumptions/83.md). -/
def newCmd (s : State) (c : CmdRef) (addr : Nat) (p : RawPacket) : Cmd :=
  { ref := c, order := s.cmdCtr, pktAddr := BitVec.ofNat 64 addr, opcode := BitVec.ofNat 8 p.opcode, notify := p.notify,
    serial := p.serial, ignerr := p.ignerr, tag := p.tag, wfence := p.wfence, sfence := p.sfence, wval := p.wval,
    sval := p.sval, w0 := p.w0, w1 := p.w1, w2 := p.w2, w3 := p.w3, refs := [], waits := none, phase := .waiting,
    passed := 0, status := 0, code := 0, result := 0, errSignal := 0, stopped := false, pos := 0 }

/-- Add a command to its queue (R64 OUTST). -/
def enterCmd (s : State) (k : Cmd) : State :=
  updQueue { s with cmds := s.cmds ++ [k], cmdCtr := s.cmdCtr + 1 } k.ref.ctx k.ref.queue
    fun q => { q with outst := q.outst + 1 }

/-- SFENCE of a packet as far as it can be signalled: null where it fails its own check (R76). -/
def usableSfence (s : State) (ctx : Nat) (p : RawPacket) : Word :=
  if p.sfence = 0 then 0 else if checkHandle s ctx p.sfence needSignal = none then p.sfence else 0

/-- The first failing check of R76: code, OPERAND and DETAIL. -/
def packetFault (s : State) (ctx : Nat) (q : Queue) (p : RawPacket) (listed : Bool) : Option (Nat × DWord × DWord) :=
  let classOk := match opClass p.opcode with
    | none => false
    | some none => true
    | some (some cls) => cls == q.engine.toNat
  let priv := (ctxOf s ctx).priv
  if !classOk then some (badOpcode, 0, 0)
  else if !priv ∧ (opPriv p.opcode ∨ (p.opcode = 0x2A ∧ bit p.w2 0)) then some (privilegedCommand, 0, 0)
  else if packetBad p listed then some (badPacket, 0, BitVec.ofNat 64 (badDetail p))
  else
    let hs := (if p.wfence = 0 then [] else [(p.wfence, needWait)]) ++
      (if p.sfence = 0 then [] else [(p.sfence, needSignal)]) ++ opHandles p
    match firstBad s ctx hs with
    | some (code, h) => some (code, BitVec.ofNat 64 h.toNat, handleDetail s code h)
    | none =>
      if p.opcode = 0x03 then
        let o := objOf s (hIndex (BitVec.ofNat 32 (fld p.w0 31 0)))
        if (fld p.w1 31 0 + fld p.w1 63 32) * 64 > fld o.w2 31 0 * 65536 then
          some (commandListBounds, BitVec.ofNat 64 (fld o.w1 51 0 + fld p.w1 31 0 * 64), 0)
        else none
      else none

/-- Distinct objects that a command refers to (R43, R65): its handles, its ring, and for a launch the heaps bound to
its context. -/
def packetRefs (s : State) (ctx : Nat) (q : Queue) (p : RawPacket) : List Nat :=
  let d := ctxOf s ctx
  let hs := [p.wfence, p.sfence] ++ (opHandles p).map (·.1) ++ (if q.bootRings then [] else [q.ring]) ++
    (if p.opcode = 0x20 then [d.heap0, d.heap1, d.heap2, d.heap3] else [])
  ((hs.filter (· != 0)).map hIndex).foldl (fun l i => if l.contains i then l else l ++ [i]) []

/-- Parse one packet: fail it (R76), retire it ABORTED where an abort has won it (R85), or take its references and
let it wait (R43, R79). -/
def parsePacket (s : State) (c : CmdRef) (addr : Nat) (p : RawPacket) : State :=
  let q := queueOf s c.ctx c.queue
  let k := newCmd s c addr p
  if s.doomed.contains c then
    let s := { s with doomed := s.doomed.filter (· != c) }
    enterCmd s { k with wfence := 0, sfence := usableSfence s c.ctx p, phase := .done, status := 1,
                        code := BitVec.ofNat 8 opAborted }
  else
    match packetFault s c.ctx q p (c.lpos != 0) with
    | some (code, operand, detail) =>
      let k := { k with wfence := 0, sfence := usableSfence s c.ctx p, phase := .done, status := 2, code := BitVec.ofNat 8 code }
      let f := unitFault s 0 k code operand detail
      enterCmd (raiseFault f.2 c.ctx .c f.1) k
    | none =>
      let refs := packetRefs s c.ctx q p
      let wait := if p.wfence = 0 then none else some (originOf s (hIndex p.wfence))
      let k := { k with refs := refs, waits := wait }
      let s := enterCmd (addRefs s refs) k
      let s := match wait with
        | some i => endWait (addWaiter s i) k
        | none => s
      if p.opcode = 0x03 then
        let va := fld (objOf s (hIndex (BitVec.ofNat 32 (fld p.w0 31 0)))).w1 51 0
        updQueue s c.ctx c.queue fun q =>
          { q with lists := some { call := c, va := va, next := fld p.w1 31 0, stop := fld p.w1 31 0 + fld p.w1 63 32 } }
      else s

/-- A reference of the packet stands at its limit, so that parsing waits (R43). -/
def refsFull (s : State) (c : CmdRef) (p : RawPacket) : Bool :=
  !s.doomed.contains c && (packetFault s c.ctx (queueOf s c.ctx c.queue) p (c.lpos != 0)).isNone &&
    (packetRefs s c.ctx (queueOf s c.ctx c.queue) p).any fun i => (objOf s i).inflight == 0xFFFFFF#24

/-- A queue that may parse (R26, R69, R72): its context runs, it is ENABLED and bound, its completion ring has room,
and the link is up (DEDUCED, notes/assumptions/30.md). -/
def mayParse (s : State) (ctx queue : Nat) : Bool :=
  let q := queueOf s ctx queue
  (ctxOf s ctx).state == .active && q.qstate == .enabled && q.bound && linkUp s &&
    decide ((q.outst + q.cprod - q.ccons).toNat < 2 ^ (6 + (ringsOf s q).2.2.1))

/-- A class F fault of unit 0 at the packet at loc; its die is a free value (notes/assumptions/33.md). -/
def frontFault (s : State) (ctx queue code : Nat) (operand loc detail : DWord) : State :=
  let d := takeFree s
  raiseFault d.2 ctx .f
    { code := BitVec.ofNat 8 code, queue := queue, operand := operand, die := BitVec.ofNat 1 d.1.toNat, unit := 0, tile := 0,
      group := 0, loc := loc, mask := 0, detail := detail }

/-- A poisoned packet is consumed (R394 case 0x03). -/
def poisonedPacket (s : State) (c : CmdRef) (addr : Nat) : State :=
  frontFault s c.ctx c.queue 0x40 (if c.lpos = 0 then 0 else BitVec.ofNat 64 addr) (BitVec.ofNat 64 addr) 0x03

/-- Parse the next packet of a queue's ring. -/
def parseRing (s : State) (ctx queue : Nat) : State :=
  let q := queueOf s ctx queue
  let c : CmdRef := { ctx := ctx, queue := queue, index := q.head.toNat, lpos := 0 }
  let r := ringsOf s q
  let addr := r.2.1 + q.head.toNat % 2 ^ (6 + r.1) * 64
  let p := RawPacket.ofBytes (cohBytes s addr 64)
  if q.head = q.tail then s
  else if cohPoison s addr then poisonedPacket s c addr
  else if refsFull s c p then s
  else updQueue (parsePacket s c addr p) ctx queue fun q => { q with head := q.head + 1 }

/-- Parse the next packet of the command list that stands in place of the ring (R74). Where the CALL_LIST has been aborted,
what is not parsed of its list is dropped, and the commands parsed from it go on (DESIGN CHOICE,
notes/assumptions/83.md). -/
def parseList (s : State) (ctx queue : Nat) (l : ListParse) : State :=
  let c : CmdRef := { ctx := ctx, queue := queue, index := l.call.index, lpos := 1 }
  let addr := l.va + l.next * 64
  match cmdOf s l.call with
  | none => updQueue s ctx queue fun q => { q with lists := none }
  | some call =>
    match call.phase with
    | .waiting => s
    | .done => updQueue s ctx queue fun q => { q with lists := none }
    | .started =>
      let c := { c with lpos := l.next - fld call.w1 31 0 + 1 }
      match cRead s ctx (BitVec.ofNat 64 addr) 64 with
      | (s, .ok (bs, poison)) =>
        let p := RawPacket.ofBytes bs
        if poison then poisonedPacket s c addr
        else if refsFull s c p then s
        else
          let s := parsePacket s c addr p
          updQueue s ctx queue fun q =>
            { q with lists := if l.next + 1 < l.stop then some { l with next := l.next + 1 } else none }
      | (s, .fault code va detail) =>
        frontFault s ctx queue code va (BitVec.ofNat 64 addr) (BitVec.ofNat 64 detail)
      | (s, .wait) => s

/-- Parse the next packet of a queue. -/
def parseNext (s : State) (ctx queue : Nat) : State :=
  if mayParse s ctx queue then
    match (queueOf s ctx queue).lists with
    | some l => parseList s ctx queue l
    | none => parseRing s ctx queue
  else s

/-! ### Start and arbitration (R62, R63, R72) -/

/-- Every earlier command of the queue has retired, the command's own CALL_LIST apart (R72). -/
def serialOk (s : State) (k : Cmd) : Bool :=
  !k.serial || (queueCmds s k.ref.ctx k.ref.queue).all fun e =>
    decide (k.order ≤ e.order) || (k.ref.lpos != 0 && e.ref.lpos == 0 && e.ref.index == k.ref.index)

/-- The next command of a queue to start, when it is ready (R62, R72). -/
def readyHead (s : State) (ctx queue : Nat) : Option Cmd :=
  let q := queueOf s ctx queue
  if (ctxOf s ctx).state = .active ∧ q.qstate = .enabled ∧ q.bound then
    match (queueCmds s ctx queue).find? fun k => k.phase == .waiting with
    | some k => if k.waits = none ∧ serialOk s k then some k else none
    | none => none
  else none

/-- Ready commands of an engine class at the heads of the bound queues. -/
def readyOf (s : State) (cls : Nat) : List Cmd :=
  s.queues.filterMap fun e =>
    match readyHead s (e.1 / 16) (e.1 % 16) with
    | some k => if opClass k.opcode.toNat = some (some cls) then some k else none
    | none => none

/-- Arbitration rank: EVAL below PRIO 0 (R62); evaluation queues have one rank among themselves, whatever their PRIO (DESIGN
CHOICE, notes/assumptions/83.md). -/
def rankOf (s : State) (k : Cmd) : Nat :=
  let q := queueOf s k.ref.ctx k.ref.queue
  if q.eval then 0 else q.prio.toNat + 1

/-- Distance of a command's slot from the slot served last, in round-robin order (R62). -/
def rrDist (s : State) (cls : Nat) (k : Cmd) : Nat :=
  let last := (NMap.find s.rr cls).getD 16383
  ((queueOf s k.ref.ctx k.ref.queue).slot.toNat + 16384 - last - 1) % 16384

/-- The better of two ready commands (R62). -/
def better (s : State) (cls : Nat) (a b : Cmd) : Cmd :=
  if rankOf s a < rankOf s b then b
  else if rankOf s b < rankOf s a then a
  else if rrDist s cls b < rrDist s cls a then b else a

/-- The choice of R62 among ready commands. -/
def chooseReady (s : State) (cls : Nat) (l : List Cmd) : Option Cmd :=
  match l with
  | [] => none
  | k :: r => some (r.foldl (better s cls) k)

/-- Commands that the guard of R63 lets pass first. -/
def starved (l : List Cmd) : List Cmd := l.filter fun k => decide (1024 ≤ k.passed)

/-- A queue is at a command boundary: it works under its context's setting from now on (R28). -/
def atBoundary (s : State) (c : CmdRef) : State := updQueue s c.ctx c.queue fun q => { q with keep := none }

/-- Start a command: the decision passes over the other ready commands of its class. -/
def takeDecision (s : State) (cls : Nat) (k : Cmd) (ready : List Cmd) : State :=
  let s := { s with cmds := s.cmds.map fun (x : Cmd) =>
    if x.ref == k.ref then { x with phase := .started }
    else if ready.any (fun r => r.ref == x.ref) then { x with passed := x.passed + 1 } else x }
  atBoundary { s with rr := NMap.insert s.rr cls (queueOf s k.ref.ctx k.ref.queue).slot.toNat } k.ref

/-- One arbitration decision of an engine class (R62). A starved command is the guard's (R63). -/
def arbitrate (s : State) (cls : Nat) : State :=
  let ready := readyOf s cls
  if starved ready = [] then
    match chooseReady s cls ready with
    | some k => takeDecision s cls k ready
    | none => s
  else s

/-- The decision that the guard of R63 makes; of several starved commands it takes the one passed over most often (DESIGN
CHOICE, notes/assumptions/83.md). -/
def guardDecision (s : State) (cls : Nat) : State :=
  let ready := readyOf s cls
  match starved ready with
  | [] => s
  | k :: r => takeDecision s cls (r.foldl (fun a b => if a.passed < b.passed then b else a) k) ready

/-- A control command starts as soon as it is ready (R61, R72). -/
def startControl (s : State) (ctx queue : Nat) : State :=
  match readyHead s ctx queue with
  | some k => if opClass k.opcode.toNat = some none then atBoundary (updCmd s k.ref fun k => { k with phase := .started }) k.ref else s
  | none => s

/-! ### Retirement (R79, R82 to R84) -/

/-- The fence that a command's SFENCE names still stands where the command found it. -/
def fenceStands (s : State) (h : Word) : Bool :=
  let o := objOf s (hIndex h)
  o.state != .free && kindOf s (hIndex h) == .fence

/-- Signal SFENCE as the status asks (R76, R79, R85, R382). -/
def signalOf (s : State) (k : Cmd) : State :=
  if k.sfence = 0 ∨ !fenceStands s k.sfence then s
  else
    let err := if k.status = 0 then (if k.errSignal = 0 then none else some k.errSignal.toNat) else some k.code.toNat
    signalFence s (originOf s (hIndex k.sfence)) k.sval err

/-- The 32 bytes of a completion record (R82). -/
def completionRecord (k : Cmd) : List Byte :=
  leBytes ((k.status.toNat <<< 56) + (k.code.toNat <<< 48) + ((k.ref.queue % 16) <<< 44) + ((k.ref.ctx % 4096) <<< 32) +
    k.tag.toNat) 8 ++
  leBytes (((k.ref.lpos % 2 ^ 32) <<< 32) + k.ref.index % 2 ^ 32) 8 ++ leBytes k.result.toNat 8 ++ leBytes 0 8

/-- Write the completion record, count the retirement, and notify (R68, R82). -/
def writeCompletion (s : State) (k : Cmd) : State :=
  let q := queueOf s k.ref.ctx k.ref.queue
  let r := ringsOf s q
  let pa := r.2.2.2 + q.cprod.toNat % 2 ^ (6 + r.2.2.1) * 32
  let s := companionWrite s pa (completionRecord k)
  let s := setQueue s k.ref.ctx k.ref.queue
    { q with cprod := q.cprod + 1, retired := q.retired + 1, outst := q.outst - 1 }
  if k.notify then notify s 3 k.ref.queue k.ref.ctx (q.cprod + 1) 0 else s

/-- Listed commands of a CALL_LIST that have not retired (R74). -/
def listedLeft (s : State) (c : CmdRef) : Bool :=
  s.cmds.any fun k => k.ref.ctx == c.ctx && k.ref.queue == c.queue && k.ref.index == c.index && k.ref.lpos != 0

/-- An update-class command gives up its groups, its run and its halts (R328 phase 7, R329). -/
def endUpdate (s : State) (c : CmdRef) : State :=
  let mine (h : Halt) : Bool := match h.what with
    | .update d _ => d == c
    | .stream .. => false
  endHalts { s with heldGroups := s.heldGroups.filter fun h => h.2 != c, updRuns := s.updRuns.filter fun r => r.cmd != c } mine

/-- The completion point of a command (R82, R84): its fence is signalled, its record written, and its references, its groups
and its finished collective run (R376) dropped. The last started command of a queue leaves it at a command boundary (R28). -/
def retire (s : State) (k : Cmd) : State :=
  let s := writeCompletion (signalOf s k) k
  let s := endUpdate (dropRefs s k.refs) k.ref
  let s := { s with
    cmds := s.cmds.filter fun x => x.ref != k.ref
    collRuns := s.collRuns.filter fun r => !(r.cmd == k.ref && r.phase == .finished && r.out.isEmpty) }
  bindFromWait (if (queueCmds s k.ref.ctx k.ref.queue).any fun x => x.phase == .started then s else atBoundary s k.ref)

/-- Completion of a command whose outcome stands (R84). The commands of a FAULTED context are held (R26). -/
def complete (s : State) (c : CmdRef) : State :=
  match cmdOf s c with
  | some k =>
    match k.phase with
    | .done => if (ctxOf s c.ctx).state = .faulted then s else if k.opcode = 0x03 ∧ k.ref.lpos = 0 ∧ listedLeft s c then s else retire s k
    | _ => s
  | none => s

/-! ### Running a started command -/

/-- The effect of a started command of an opcode whose context runs, or is suspended and has not stopped it (R87). -/
def runCmd (s : State) (c : CmdRef) (op : Nat) (f : State → Cmd → State) : State :=
  match cmdOf s c with
  | some k =>
    let st := (ctxOf s c.ctx).state
    if k.phase = .started ∧ k.opcode.toNat = op ∧ !k.stopped ∧ (st = .active ∨ st = .suspended) then f s k else s
  | none => s

/-- Complete with RESULT. -/
def done (s : State) (k : Cmd) (result : Nat) : State := finish s k.ref 0 0 (BitVec.ofNat 64 result)

/-- Fail as class C: record and status FAILED (R56, R76). -/
def failC (s : State) (k : Cmd) (unit code : Nat) (operand detail : DWord) : State :=
  let f := unitFault s unit k code operand detail
  finish (raiseFault f.2 k.ref.ctx .c f.1) k.ref 2 code 0

/-- A class F fault met by a command outside the tiles: the context is FAULTED, the command is preempted (R26). -/
def failF (s : State) (k : Cmd) (unit code : Nat) (operand detail : DWord) : State :=
  let f := unitFault s unit k code operand detail
  raiseFault f.2 k.ref.ctx .f f.1

/-! ### The events of the front end -/

/-- DOORBELL_WRITE (R69, R70). -/
def execDoorbellWrite (ctx queue : Nat) (data : DWord) (stores : List (Nat × Byte)) (s : State) :
    Host.Outcome State Fault Refusal :=
  whenUp s fun s =>
    if linkUp s ∧ ctx < 4096 ∧ queue < 16 then doorbell (companionStores s stores) ctx queue data else s

/-- QUEUE_BIND_FROM_WAIT (R66). -/
def execQueueBindFromWait (s : State) : Host.Outcome State Fault Refusal := whenUp s bindFromWait

/-- PACKET_PARSE (R71 to R76). -/
def execPacketParse (ctx queue : Nat) (s : State) : Host.Outcome State Fault Refusal :=
  whenUp s fun s => parseNext s ctx queue

/-- COMMAND_START (R62, R72). -/
def execCommandStart (w : StartOf) (s : State) : Host.Outcome State Fault Refusal :=
  whenUp s fun s =>
    match w with
    | .engine cls => arbitrate s cls
    | .control ctx queue => startControl s ctx queue

/-- ARBITRATION_STARVATION_GUARD (R63). -/
def execArbitrationStarvationGuard (cls : Nat) (s : State) : Host.Outcome State Fault Refusal :=
  whenUp s fun s => guardDecision s cls

/-- COMMAND_COMPLETION (R82, R84). -/
def execCommandCompletion (c : CmdRef) (s : State) : Host.Outcome State Fault Refusal :=
  whenUp s fun s => complete s c

/-- The class F codes of R59. -/
def isClassF (code : Nat) : Bool :=
  code == 0x08 || decide (0x10 ≤ code ∧ code ≤ 0x15) || decide (0x30 ≤ code ∧ code ≤ 0x35) ||
    decide (0x37 ≤ code ∧ code ≤ 0x3A) || code == 0x40 || code == 0x41 || decide (0x51 ≤ code ∧ code ≤ 0x53)

/-- CONTEXT_FAULT (R26, R27, R57): a unit raises a class F fault against a context that exists. -/
def execContextFault (ctx : Nat) (f : FaultInfo) (s : State) : Host.Outcome State Fault Refusal :=
  whenUp s fun s =>
    if isClassF f.code.toNat ∧ ctx < 4096 ∧ (ctxOf s ctx).state ≠ .free then raiseFault s ctx .f f else s

end Sys2Proof.Machine
end

