-- ==== Sys2Proof/Machine/Objects.lean ====
section
/-! DEFINITION. Memory objects (R38 to R55): creation, import, free, release and scrub, and the device allocator's
heaps with the commands that bind them. -/

namespace Sys2Proof.Machine

/-! ### Release (R47, R81) -/

/-- The leaf that maps an address, whatever it names, with its level and place: none where the walk meets no valid
leaf. The manual does not say what step 1 of R47 does with a leaf in a poisoned sector or in a table outside the driver
pools: it is skipped, neither cleared nor scrubbed (DESIGN CHOICE, notes/assumptions/92.md). -/
def rawLeaf (s : State) (va lvl table : Nat) : Option (DWord × Nat × Nat) :=
  match lvl with
  | 0 => none
  | lvl + 1 =>
    let at_ := table + vaIndex lvl va * 8
    let e := physWord s at_
    if !inDriverPool at_ ∨ cohPoison s at_ ∨ !pteV e then none
    else if pteLeaf e then some (e, lvl, at_)
    else rawLeaf s va lvl (pteNext e)

/-- The frame that a page of a context maps to and the place of the leaf. -/
def frameOf (s : State) (ctx page : Nat) : Option (Nat × Nat) :=
  match rawLeaf s (page * 65536) 4 ((ctxOf s ctx).root.toNat * 65536) with
  | some (e, lvl, at_) => some ((targetOf lvl e (BitVec.ofNat 64 (page * 65536))).pa / 65536, at_)
  | none => none

/-- Remove cached translations of n pages of a context from page first on: no access of the context uses an entry of
before (R36). -/
def invalXlats (s : State) (ctx first n : Nat) : State :=
  { s with
    xlats := s.xlats.filter fun x => !(x.ctx == ctx && decide (first ≤ x.page ∧ x.page < first + n))
    invals := s.invals ++ [{ ctx := ctx, first := first, n := n, stamp := s.pteCtr }]
    pteCtr := s.pteCtr + 1 }

/-- End every freeze on the frames (R268). -/
def unfreezeFrames (s : State) (frames : List Nat) : State :=
  let thaw (t : Nat × Tile) : Nat × Tile :=
    (t.1, { t.2 with streams := t.2.streams.map fun x =>
      (x.1, { x.2 with frozen := x.2.frozen.filter fun k => !frames.contains (k / 1024) }) })
  { s with tiles := s.tiles.map thaw
           launches := s.launches.map fun (l : Launch) => { l with saved := l.saved.map thaw } }

/-- A tile without its copies of sectors of the frames (R48). -/
def dropCopies (frames : List Nat) (t : Nat × Tile) : Nat × Tile :=
  let other (e : Nat × Sector) : Bool := !frames.contains (e.1 / 1024)
  (t.1, { t.2 with l1 := t.2.l1.filter other, icache := t.2.icache.filter other })

/-- Invalidate every slice line and every speculative fill of the frames without write-back (R47 step 4, R199), and the
copies of tiles, which no read may return any more (R48). -/
def dropFrames (s : State) (frames : List Nat) : State :=
  let s := (s.lines.filter fun l => frames.contains (l.1 / 256)).foldl (fun s l => dropLine s l.1) s
  let s := (s.fills.filter fun f => frames.contains (f.1 / 256)).foldl (fun s f => dropFill s f.1 4) s
  { s with tiles := s.tiles.map (dropCopies frames)
           launches := s.launches.map fun (l : Launch) => { l with saved := l.saved.map (dropCopies frames) } }

/-- A frame that scrubs zero: in the fast, slow or far tier, its link up and not retired (R47, R309). -/
def scrubbed (s : State) (f : Nat) : Bool :=
  (match regionOf (f * 65536) with
  | .fast | .reserved | .slow _ | .far _ => !tierLost s (f * 65536)
  | _ => false) && !NSet.has s.retired f

/-- The sector transfers of the scrub of a frame, granule by granule, are charged to a partition (R30, R49); those of the
slow and far tiers cross the tier link, a flit to 256 bytes (R312, R313). -/
def chargeScrub (s : State) (f part : Nat) : State :=
  if sliceHolds (f * 65536) then
    (List.range 64).foldl (fun s g => useCredits s (homeSlice s (f * 65536 + g * 1024)) part 16) s
  else (List.range 256).foldl (fun s _ => tierSweep s (f * 65536)) s

/-- Write zero to every byte of the frames on behalf of a partition, clearing poison and dead bits (R47 step 4, R49, R306,
R392). -/
def zeroFrames (s : State) (frames : List Nat) (part : Nat) : State :=
  let fs := frames.filter (scrubbed s)
  let s := fs.foldl (fun s f => chargeScrub s f part) s
  { s with
    mem := s.mem.filter fun c => !fs.contains (c.1 / 65536)
    poison := s.poison.filter fun k => !fs.contains (k / 1024)
    dead := s.dead.filter fun k => !fs.contains (k / 1024) }

/-- Retirement of released frames takes effect (R309). -/
def retireFrames (s : State) (frames : List Nat) : State :=
  let fs := frames.filter (NSet.has s.retire)
  { s with retired := fs.foldl NSet.add s.retired }

/-- The entry of a released object: STATE becomes FREE (R47 step 6), and a fence's words 1 and 2 become zero (R81);
every other field of the entry stands (DEDUCED, notes/assumptions/54.md). -/
def freedObj (o : Obj) : Obj :=
  let f := o.kind == .fence
  { o with state := .free, w1 := if f then 0 else o.w1, w2 := if f then 0 else o.w2, relFence := 0, relVal := 0,
           scrubbing := false, frames := [] }

/-- Steps 5 and 6 of R47: signal the release fence, drop its reference, and return the entry to the free list. -/
def freeEntry (s : State) (i : Nat) : State :=
  let o := objOf s i
  let s := if o.relFence = 0 then s
    else dropRefs (signalFence s (originOf s (hIndex o.relFence)) o.relVal none) [hIndex o.relFence]
  let s := retireFrames s o.frames
  let s := setObj s i (freedObj (objOf s i))
  let s := updCtx s o.owner.toNat fun d => { d with objcount := d.objcount - 1 }
  { s with objFreed := s.objFreed ++ [i], heaps := NMap.erase s.heaps i }

/-- Step 3 of R47 for an import. -/
def dropImport (s : State) (o : Obj) : State :=
  updObj s o.src.toNat fun p => { p with impcount := p.impcount - 1 }

/-- The entry may be released (R47, R65, R81). -/
def releasable (s : State) (i : Nat) : Bool :=
  let o := objOf s i
  o.state == .freePending && !o.scrubbing && o.inflight == 0 && (o.kind == .imported || o.impcount == 0) &&
    (if o.kind = .ring then
      let q := queueOf s o.owner.toNat (fld o.w1 63 60)
      hIndex q.ring ≠ i || q.bootRings || (q.head == q.tail && q.outst == 0)
    else true)

/-- Release of a fence, a queue ring, or an import of one (R81). -/
def releaseUnmapped (s : State) (i : Nat) : State :=
  let o := objOf s i
  match o.kind with
  | .imported => freeEntry (dropImport s o) i
  | .ring =>
    let qn := fld o.w1 63 60
    let q := queueOf s o.owner.toNat qn
    let s := if hIndex q.ring = i ∧ !q.bootRings then
        setQueue s o.owner.toNat qn { q with qstate := .disabled, bound := false, slot := 0 }
      else s
    bindFromWait (freeEntry s i)
  | _ => freeEntry s i

/-- Steps 1 to 3 of R47 for an object with frames; an original begins its scrub, its lines invalidated (step 4). -/
def releaseMapped (s : State) (i : Nat) : State :=
  let o := objOf s i
  let owner := o.owner.toNat
  let first := fld o.w1 51 16
  let n := fld o.w2 31 0
  let found := (List.range n).filterMap fun k => frameOf s owner (first + k)
  let frames := found.map (·.1)
  let part := ctxPart s owner
  let s := discardInjections s fun j =>
    j.ctx == owner && decide (first * 65536 ≤ j.va.toNat ∧ j.va.toNat < (first + n) * 65536 ∧ j.va ≠ 0)
  let s := found.foldl (fun s f =>
    let s := touchRead s f.2 8 1 part
    let e := physWord s f.2
    if pteV e then tableWrite s f.2 (e &&& ~~~1#64).toNat part else s) s
  let s := invalXlats s owner first n
  match o.kind with
  | .imported => freeEntry (dropImport s o) i
  | _ =>
    let s := dropFrames (unfreezeFrames s frames) frames
    updObj s i fun o => { o with scrubbing := true, frames := frames }

/-- The entry has no mapped frames (R81). -/
def unmappedKind (s : State) (i : Nat) : Bool := kindOf s i == .fence || kindOf s i == .ring

/-- OBJECT_RELEASE (R47, R81). -/
def execObjectRelease (index : Nat) (s : State) : Host.Outcome State Fault Refusal :=
  whenUp s fun s =>
    if releasable s index then (if unmappedKind s index then releaseUnmapped s index else releaseMapped s index) else s

/-- OBJECT_SCRUB_COMPLETE: steps 4 to 6 of R47 end (R49, R309). -/
def execObjectScrubComplete (index : Nat) (s : State) : Host.Outcome State Fault Refusal :=
  whenUp s fun s =>
    let o := objOf s index
    if o.scrubbing then
      let n := (o.frames.filter (scrubbed s)).length * 65536
      let s := zeroFrames s o.frames (ctxPart s o.owner.toNat)
      let s := if (ctxOf s o.owner.toNat).state = .scrubbing then
          updCtx s o.owner.toNat fun d => { d with scrubbed := d.scrubbed + n }
        else s
      freeEntry s index
    else s

/-! ### Marking (R46) -/

/-- Heap handles of a context's slots. -/
def heapSlot (d : Ctx) (slot : Nat) : Word :=
  match slot with
  | 0 => d.heap0
  | 1 => d.heap1
  | 2 => d.heap2
  | _ => d.heap3

def setHeapSlot (d : Ctx) (slot : Nat) (h : Word) : Ctx :=
  match slot with
  | 0 => { d with heap0 := h }
  | 1 => { d with heap1 := h }
  | 2 => { d with heap2 := h }
  | _ => { d with heap3 := h }

/-- Unbind a heap wherever its context has it bound (R52). -/
def unbindHeap (s : State) (ctx i : Nat) : State :=
  updCtx s ctx fun d => (List.range 4).foldl (fun d k => if hIndex (heapSlot d k) = i then setHeapSlot d k 0 else d) d

/-- The next generation (R45). -/
def nextGen (g : BitVec 12) : BitVec 12 := if g = 0xFFF then 1 else g + 1

/-- Mark an entry free (R46 steps 2 and 3). -/
def markFree (s : State) (i : Nat) (relFence : Word) (relVal : DWord) : State :=
  let o := objOf s i
  let s := setObj s i { o with
    state := .freePending, gen := nextGen o.gen, wrapped := o.wrapped || o.gen == 0xFFF, relFence := relFence, relVal := relVal }
  if o.kind = .heap then unbindHeap s o.owner.toNat i else s

/-- OBJ_FREE (R46): the handle is checked again; a release fence keeps the reference that the parse took (R43). -/
def objFreeEffect (s : State) (k : Cmd) : State :=
  let h : Word := BitVec.ofNat 32 (fld k.w0 31 0)
  let rf : Word := BitVec.ofNat 32 (fld k.w1 31 0)
  let i := hIndex h
  match checkHandle s k.ref.ctx h { kinds := [], imports := true, right := none } with
  | some code => failC s k 0 code (BitVec.ofNat 64 h.toNat) (handleDetail s code h)
  | none =>
    if rf ≠ 0 ∧ (hIndex rf = i ∨ originOf s (hIndex rf) = i) then failC s k 0 badPacket 0 0
    else
      let s := if rf = 0 then s
        else updCmd s k.ref fun k => { k with refs := k.refs.filter (· != hIndex rf) }
      done (markFree s i rf k.w2) k 0

/-- OBJ_FREE. -/
def execObjFree (c : CmdRef) (s : State) : Host.Outcome State Fault Refusal :=
  whenUp s fun s => runCmd s c 0x04 objFreeEffect

/-! ### Creation and import (R40, R41, R51, R65, R78) -/

/-- Commands that name a context fail on one that is FREE, KILLING or SCRUBBING (R75). -/
def ctxGone (s : State) (ctx : Nat) : Bool :=
  let st := (ctxOf s ctx).state
  st == .free || st == .killing || st == .scrubbing

/-- Take the index at the head of the free list (R40). -/
def takeIndex (s : State) : Option (Nat × State) :=
  if s.objNext < 1048576 then some (s.objNext, { s with objNext := s.objNext + 1 })
  else match s.objFreed with
    | [] => none
    | i :: r => some (i, { s with objFreed := r })

/-- Create an entry of a context, or say which class C code the command fails with (R40) (DESIGN CHOICE,
notes/assumptions/9.md). -/
def createEntry (s : State) (ctx : Nat) (o : Nat → Obj → Obj) : Sum Nat (Nat × State) :=
  let d := ctxOf s ctx
  match takeIndex s with
  | none => .inl objectTableFull
  | some (i, s') =>
    if d.objquota ≠ 0 ∧ d.objquota.toNat ≤ d.objcount.toNat then .inl objectQuota
    else
      let s := setObj s' i (o i (objOf s' i))
      .inr (i, updCtx s ctx fun d => { d with objcount := d.objcount + 1 })

/-- The handle of an entry's current generation (R38). -/
def handleOf (s : State) (i : Nat) : Nat := ((objOf s i).gen.toNat <<< 20) + i

/-- A new heap: one free block, the whole arena (R51, R53). -/
def newHeap (book size : Nat) : Heap := { book := book, free := [(0, Nat.log2 size)], live := [] }

/-- OBJ_CREATE. -/
def objCreateEffect (s : State) (k : Cmd) : State :=
  let owner := fld k.w0 11 0
  let kind := fld k.w0 14 12
  if ctxGone s owner then failC s k 0 badPacket 0 0
  else
    let base (i : Nat) (o : Obj) : Obj :=
      { o with state := .live, rights := 7, owner := BitVec.ofNat 12 owner, src := BitVec.ofNat 20 i }
    let mk (i : Nat) (o : Obj) : Obj :=
      match kind with
      | 0 => { base i o with kind := .buffer, w1 := k.w1, w2 := k.w2 }
      | 1 => { base i o with kind := .heap, w1 := k.w1, w2 := k.w2 }
      | 2 => { base i o with kind := .fence, w1 := k.w1, w2 := 0 }
      | _ => { base i o with kind := .ring, w1 := k.w1, w2 := k.w2 }
    match createEntry s owner mk with
    | .inl code => failC s k 0 code 0 0
    | .inr (i, s) =>
      let s := if kind = 1 then
          { s with heaps := NMap.insert s.heaps i (newHeap (fld k.w3 47 16 * 65536) (fld k.w2 31 0 * 65536)) }
        else s
      done s k (handleOf s i)

/-- OBJ_CREATE. -/
def execObjCreate (c : CmdRef) (s : State) : Host.Outcome State Fault Refusal :=
  whenUp s fun s => runCmd s c 0x18 objCreateEffect

/-- OBJ_IMPORT (R41): the original is checked again (R46); an import of an import fails. -/
def objImportEffect (s : State) (k : Cmd) : State :=
  let h : Word := BitVec.ofNat 32 (fld k.w0 31 0)
  let i := hIndex h
  let dest := fld k.w0 43 32
  match checkHandle s k.ref.ctx h { kinds := [], imports := false, right := none } with
  | some code => failC s k 0 code (BitVec.ofNat 64 h.toNat) (handleDetail s code h)
  | none =>
    if ctxGone s dest then failC s k 0 badPacket 0 0
    else
      let p := objOf s i
      let mk (_ : Nat) (o : Obj) : Obj :=
        { o with state := .live, kind := .imported, rights := BitVec.ofNat 3 (fld k.w0 50 48),
                 owner := BitVec.ofNat 12 dest, src := BitVec.ofNat 20 i, w1 := k.w1,
                 w2 := if p.kind = .buffer ∨ p.kind = .heap then p.w2 else 0 }
      match createEntry s dest mk with
      | .inl code => failC s k 0 code 0 0
      | .inr (j, s) => done (updObj s i fun p => { p with impcount := p.impcount + 1 }) k (handleOf s j)

/-- OBJ_IMPORT. -/
def execObjImport (c : CmdRef) (s : State) : Host.Outcome State Fault Refusal :=
  whenUp s fun s => runCmd s c 0x19 objImportEffect

/-- HEAP_BIND (R52): the heap is checked again (R46). -/
def heapBindEffect (s : State) (k : Cmd) : State :=
  let ctx := fld k.w0 11 0
  let slot := fld k.w0 13 12
  let h : Word := BitVec.ofNat 32 (fld k.w1 31 0)
  if ctxGone s ctx then failC s k 0 badPacket 0 0
  else if bit k.w0 14 then done (updCtx s ctx fun d => setHeapSlot d slot 0) k 0
  else
    match checkHandle s k.ref.ctx h { kinds := [.heap], imports := false, right := none } with
    | some code => failC s k 0 code (BitVec.ofNat 64 h.toNat) (handleDetail s code h)
    | none =>
      let d := ctxOf s ctx
      if (objOf s (hIndex h)).owner.toNat ≠ ctx then failC s k 0 badPacket 0 0
      else if heapSlot d slot = h then done s k 0
      else if [0, 1, 2, 3].any fun i => i != slot && heapSlot d i == h then failC s k 0 badPacket 0 0
      else done (setCtx s ctx (setHeapSlot d slot h)) k 0

/-- HEAP_BIND. -/
def execHeapBind (c : CmdRef) (s : State) : Host.Outcome State Fault Refusal :=
  whenUp s fun s => runCmd s c 0x1A heapBindEffect

/-! ### The device allocator (R53 to R55) -/

/-- Base-2 logarithm of the rounded size of a request (R53). -/
def blockLog (size : Nat) : Nat := if size ≤ 256 then 8 else Nat.log2 (size - 1) + 1

/-- The better block to take for size 2^k: the smallest size that serves, of it the lowest address (R53). -/
def betterBlock (k : Nat) (best : Option (Nat × Nat)) (b : Nat × Nat) : Option (Nat × Nat) :=
  if b.2 < k then best
  else match best with
    | none => some b
    | some a => if b.2 < a.2 ∨ (b.2 = a.2 ∧ b.1 < a.1) then some b else some a

/-- Halve a block of size 2^j at off down to 2^k, keeping the lower half: the upper halves left free (R53). -/
def splitDown (off j k : Nat) : List (Nat × Nat) :=
  match j with
  | 0 => []
  | j + 1 => if k < j + 1 then (off + 2 ^ j, j) :: splitDown off j k else []

/-- Take a block of size 2^k from a heap: its offset and the heap after it (R53). -/
def heapTake (h : Heap) (k : Nat) : Option (Nat × Heap) :=
  match h.free.foldl (betterBlock k) none with
  | none => none
  | some b =>
    some (b.1, { h with free := (h.free.filter (· != b)) ++ splitDown b.1 b.2 k, live := (b.1, k) :: h.live })

/-- Merge a free block with its free buddies, level by level (R54); fuel bounds the levels. -/
def mergeUp (fuel : Nat) (free : List (Nat × Nat)) (off k : Nat) : List (Nat × Nat) :=
  match fuel with
  | 0 => (off, k) :: free
  | fuel + 1 =>
    let buddy := off ^^^ 2 ^ k
    if free.contains (buddy, k) then mergeUp fuel (free.filter (· != (buddy, k))) (min off buddy) (k + 1)
    else (off, k) :: free

/-- Return the live block at an offset, if one starts there (R54). -/
def heapGive (h : Heap) (off : Nat) : Option Heap :=
  match h.live.find? fun b => b.1 == off with
  | some b => some { h with live := h.live.filter (· != b), free := mergeUp 64 h.free off b.2 }
  | none => none

/-- The heap bound in a slot of a context: its object index. -/
def boundHeap (s : State) (ctx slot : Nat) : Option Nat :=
  let h := heapSlot (ctxOf s ctx) slot
  if h = 0 then none else some (hIndex h)

def heapOf (s : State) (i : Nat) : Heap := NMap.getD s.heaps i { book := 0, free := [], live := [] }

/-- The die whose allocator serves a heap (R51, R58). -/
def heapDie (s : State) (i : Nat) : Nat := if (heapOf s i).book < 0xBE00000000 then 0 else 1

/-- HALLOC on a heap slot: the result of R53. -/
def halloc (s : State) (ctx slot size : Nat) : State × DWord :=
  match boundHeap s ctx slot with
  | none => (s, 3)
  | some i =>
    if size > 2 ^ 26 then (s, 2)
    else match heapTake (heapOf s i) (blockLog size) with
      | none => (s, 1)
      | some (off, h) => ({ s with heaps := NMap.insert s.heaps i h }, BitVec.ofNat 64 (fld (objOf s i).w1 51 0 + off))

/-- HFREE (R54): none where the address starts no live block of a heap bound to the context. -/
def hfree (s : State) (ctx : Nat) (va : DWord) : Option State :=
  if va = 0 then some s
  else
    match (List.range 4).find? fun k =>
      match boundHeap s ctx k with
      | some i => decide (fld (objOf s i).w1 51 0 ≤ va.toNat) &&
          (heapGive (heapOf s i) (va.toNat - fld (objOf s i).w1 51 0)).isSome
      | none => false
    with
    | none => none
    | some k =>
      match boundHeap s ctx k with
      | none => none
      | some i =>
        match heapGive (heapOf s i) (va.toNat - fld (objOf s i).w1 51 0) with
        | some h => some { s with heaps := NMap.insert s.heaps i h }
        | none => none

/-- Zero a block through the context's translation, sector by sector (R53). -/
def zeroBlock (s : State) (ctx va n : Nat) : State × MRes Unit :=
  vWriteN s ctx va (List.replicate n 0)

end Sys2Proof.Machine
end

