-- ==== Sys2Proof/Machine/Threads.lean ====
section
/-! DEFINITION. Thread instructions (R103 to R110): the ALUs, conversions, memory, branches and system functions; the
fences and allocator instructions of both ISAs (R113, R114, R292, R370); run-ahead (R128 to R130). -/

namespace Sys2Proof.Machine

/-- The format TR without its reserved bits. -/
def trClean (f : TrF) : Bool := f.rsv == 0

/-- A register use of n registers from a field. -/
def ru {w : Nat} (r : BitVec w) (n : Nat) : RegUse := { r := r.toNat, n := n }

/-- The immediate of TI, sign-extended to 64 bits. -/
def immTi (f : TiF) : DWord := f.imm.signExtend 64

/-- More injections of detector 0x0E are armed for a context at a site than samples wait there to fail by them. -/
def sampleArmed (s : State) (ctx site : Nat) : Bool :=
  decide (((tileOf s site).samples.filter (·.bad)).length <
    (s.injections.filter fun i => i.det.toNat == 0x0E && i.ctx == ctx && i.target.toNat == site).length)

/-- Count eligible work of the thread ALU and choose samples (R387): the group's sample, if this instruction is one. An
injection of detector 0x0E makes it one whose check fails, and fires with the verdict (R403, R405). -/
def countSample (s : State) (e : ThEnv) : State :=
  let t := tileOf s e.site
  let bad := sampleArmed s e.launch.ctx e.site
  let hit := sampled s t.sampleCount || bad
  let x : Sample :=
    { group := some e.g, pc := e.pc, mask := maskOf e.lanes, part := 0, bad := bad, age := 0 }
  let s := updTile s e.site fun t =>
    { t with sampleCount := t.sampleCount + 1, samples := if hit then t.samples ++ [x] else t.samples }
  if hit then bump s 1 e.site 12 1 else s

/-- Write a result of w bits in lane i. -/
def setRes (x : TGroup) (i r w v : Nat) (poison : Bool) : TGroup :=
  if w = 64 then setTpair x i r { val := BitVec.ofNat 64 v, poison := poison }
  else setTreg x i r { val := BitVec.ofNat 32 v, poison := poison }

/-- A source of w bits in lane i: value and poison. -/
def getSrc (x : TGroup) (i r w : Nat) : Nat × Bool :=
  if w = 64 then ((tpair x i r).val.toNat, (tpair x i r).poison) else ((treg x i r).val.toNat, (treg x i r).poison)

/-! ### Integer ALU (R106) -/

/-- Operand width of an integer function: FN[7] selects pairs. -/
def intWidth (fn : Nat) : Nat := if fn ≥ 128 then 64 else 32

/-- INTEGER_ALU's effect on a lane. -/
def intLane (f : TrF) (x : TGroup) (i : Nat) : TGroup :=
  let w := intWidth f.fn.toNat
  let k := intArity (f.fn.toNat % 128)
  let a := getSrc x i f.src1.toNat w
  let b := if k ≥ 2 then getSrc x i f.src2.toNat w else (0, false)
  let c := if k = 3 then getSrc x i f.src3.toNat w else (0, false)
  setRes x i f.dst.toNat w ((intFn w (f.fn.toNat % 128) a.1 b.1 c.1).getD 0) (a.2 || b.2 || c.2)

def execIntegerAlu (site : Site) (g : Nat) (f : TrF) (s : State) : Host.Outcome State Fault Refusal :=
  whenUp s fun s =>
    let n := intWidth f.fn.toNat / 32
    let k := intArity (f.fn.toNat % 128)
    thStep s site g (fun _ => trClean f && f.mod == 0 && decide (f.fn.toNat % 128 ≤ 0x1E))
      ([ru f.dst n, ru f.src1 n] ++ (if k ≥ 2 then [ru f.src2 n] else []) ++ (if k = 3 then [ru f.src3 n] else []))
      ((if k ≥ 2 then [] else [f.src2.toNat]) ++ (if k = 3 then [] else [f.src3.toNat])) (some (ru f.dst n))
      fun e s x =>
        let s := countSample s e
        .next (putGroup s site g (eachLane x e.lanes (intLane f)))

/-- The integer ALU with an immediate second source (R105). -/
def intImmLane (f : TiF) (x : TGroup) (i : Nat) : TGroup :=
  let w := intWidth f.fn.toNat
  let a := getSrc x i f.src1.toNat w
  let b := (immTi f).toNat % 2 ^ w
  setRes x i f.dst.toNat w ((intFn w (f.fn.toNat % 128) a.1 b 0).getD 0) a.2

def execIntegerAluImmediate (site : Site) (g : Nat) (f : TiF) (s : State) : Host.Outcome State Fault Refusal :=
  whenUp s fun s =>
    let n := intWidth f.fn.toNat / 32
    let fn := f.fn.toNat % 128
    thStep s site g (fun _ => decide (fn ≤ 0x1D) && fn != 0x05) [ru f.dst n, ru f.src1 n] [] (some (ru f.dst n))
      fun e s x =>
        let s := countSample s e
        .next (putGroup s site g (eachLane x e.lanes (intImmLane f)))

/-! ### Float ALU (R107) -/

def floatLane (f : TrF) (x : TGroup) (i : Nat) : TGroup :=
  let k := floatArity f.fn.toNat
  let a := treg x i f.src1.toNat
  let b := if k ≥ 2 then treg x i f.src2.toNat else T32.zero
  let c := if k = 3 then treg x i f.src3.toNat else T32.zero
  setTreg x i f.dst.toNat
    { val := (floatFn f.fn.toNat (RMode.ofCode (f.mod.toNat % 4)) a.val b.val c.val).getD 0,
      poison := a.poison || b.poison || c.poison }

/-- Defined float encodings: MOD[3:2] zero, and MOD zero where the function does not round. -/
def floatLegal (f : TrF) : Bool :=
  trClean f && (floatFn f.fn.toNat .rne 0 0 0).isSome &&
    (if floatRounds f.fn.toNat then decide (f.mod.toNat < 4) else f.mod == 0)

def execFloatAlu (site : Site) (g : Nat) (f : TrF) (s : State) : Host.Outcome State Fault Refusal :=
  whenUp s fun s =>
    let k := floatArity f.fn.toNat
    thStep s site g (fun _ => floatLegal f)
      ([ru f.dst 1, ru f.src1 1] ++ (if k ≥ 2 then [ru f.src2 1] else []) ++ (if k = 3 then [ru f.src3 1] else []))
      ((if k ≥ 2 then [] else [f.src2.toNat]) ++ (if k = 3 then [] else [f.src3.toNat])) (some (ru f.dst 1))
      fun e s x =>
        let s := countSample s e
        .next (putGroup s site g (eachLane x e.lanes (floatLane f)))

/-! ### Conversion (R108, R216) -/

/-- The rounding of a conversion in a lane: mode 4 draws R for the lane's count of stochastic conversions (R216). -/
def convMode (f : TrF) (seed : DWord) (tile g : Nat) (x : TGroup) (i : Nat) : RMode :=
  if f.mod.toNat % 8 = 4 then
    .sr (srDraw seed (srKey 0x3 tile g i 0) (BitVec.ofNat 64 (NMap.getD x.srCount i 0)))
  else RMode.ofCode (f.mod.toNat % 8)

def convLane (f : TrF) (seed : DWord) (tile g : Nat) (x : TGroup) (i : Nat) : TGroup :=
  match CFmt.ofCode (f.fn.toNat / 16), CFmt.ofCode (f.fn.toNat % 16) with
  | some src, some dst =>
    let a := treg x i f.src1.toNat
    let v := convert src dst (convMode f seed tile g x i) (f.mod.toNat ≥ 8) (a.val.toNat % 2 ^ src.bits)
    let x' := setTreg x i f.dst.toNat { val := BitVec.ofNat 32 v, poison := a.poison }
    if f.mod.toNat % 8 = 4 then { x' with srCount := NMap.put 0 x.srCount i (NMap.getD x.srCount i 0 + 1) } else x'
  | _, _ => x

/-- Defined conversions (R108). -/
def convLegal (f : TrF) : Bool :=
  trClean f && (CFmt.ofCode (f.fn.toNat / 16)).isSome && (CFmt.ofCode (f.fn.toNat % 16)).isSome &&
    f.fn.toNat / 16 != f.fn.toNat % 16 && decide (f.mod.toNat % 8 ≤ 4)

def execConversion (site : Site) (g : Nat) (f : TrF) (s : State) : Host.Outcome State Fault Refusal :=
  whenUp s fun s =>
    thStep s site g (fun _ => convLegal f) [ru f.dst 1, ru f.src1 1] [f.src2.toNat, f.src3.toNat] (some (ru f.dst 1))
      fun e s x =>
        let seed := (ctxOf s e.launch.ctx).seed
        let tile := (tileOf s site).index
        let s := countSample s e
        .next (putGroup s site g (eachLane x e.lanes (convLane f seed tile g)))

/-! ### Memory (R109) -/

/-- Bytes of a size code and whether it is signed; loads take 0 to 6, stores 0, 2, 4, 5 and 6. -/
def sizeCode (fn : Nat) : Nat × Bool :=
  match fn with
  | 0 => (1, false)
  | 1 => (1, true)
  | 2 => (2, false)
  | 3 => (2, true)
  | 4 => (4, false)
  | 5 => (8, false)
  | _ => (16, false)

def loadCode (fn : Nat) : Bool := decide (fn ≤ 6)
def storeCode (fn : Nat) : Bool := fn == 0 || fn == 2 || decide (4 ≤ fn ∧ fn ≤ 6)

/-- Registers that a size code moves. -/
def sizeRegs (fn : Nat) : Nat := ((sizeCode fn).1 + 3) / 4

/-- Loaded bytes as register bytes: extended to 32 bits for the narrow codes. -/
def extend (fn : Nat) (bs : List Byte) : List Byte :=
  let c := sizeCode fn
  if c.1 ≥ 4 then bs
  else if c.2 then leBytes (ofSigned 32 (toSigned (8 * c.1) (leNat bs))) 4 else leBytes (leNat bs) 4

/-- The address of a lane's access: the SRC1 pair + IMM. -/
def laneAddr (f : TiF) (x : TGroup) (i : Nat) : T64 :=
  let a := tpair x i f.src1.toNat
  { val := a.val + immTi f, poison := a.poison }

/-- The tile-store offset of a lane's access: SRC1 + IMM, 32 bits. -/
def laneOff (f : TiF) (x : TGroup) (i : Nat) : Nat × Bool :=
  let a := treg x i f.src1.toNat
  ((a.val + f.imm).toNat, a.poison)

def vaOperand (va : DWord) : DWord := va &&& 0xFFFFFFFFFFFFF#64

/-- Loads lane by lane, ascending: the group after them, or the fault that the first failing lane meets. A load that misses
the L1 holds a miss register, and waits where none is free (R93, R115). -/
def ldLanes (f : TiF) (e : ThEnv) (s : State) (x : TGroup) (lanes : List Nat) : ThOut :=
  match lanes with
  | [] => .next (putGroup s e.site e.g x)
  | i :: r =>
    let a := laneAddr f x i
    let n := (sizeCode f.fn.toNat).1
    if a.poison then .fault s 2 poisonConsumed 0 0x02
    else if a.val.toNat % n ≠ 0 then .fault s 2 misaligned (vaOperand a.val) 0
    else match tileLoad s e.site e.launch.ctx a.val n with
      | (s, .ok ((bs, p), miss)) =>
        let x := setTbytes x i f.dst.toNat (extend f.fn.toNat bs) p
        if miss then
          if missFull (tileOf s e.site) then .wait none
          else
            let x := if f.dst.toNat = 255 then x
              else { x with missPend := (List.range (sizeRegs f.fn.toNat)).foldl (fun l k => NSet.add l (i * 256 + f.dst.toNat + k)) x.missPend }
            ldLanes f e (updTile s e.site fun t => takeMiss t e.g (a.val.toNat / 64)) x r
        else ldLanes f e s x r
      | (s, .fault c va d) => .fault s 2 c va (BitVec.ofNat 64 d)
      | (_, .wait) => .wait (some .other)

def execLd (site : Site) (g : Nat) (f : TiF) (s : State) : Host.Outcome State Fault Refusal :=
  whenUp s fun s =>
    thStep s site g (fun _ => loadCode f.fn.toNat) [ru f.dst (sizeRegs f.fn.toNat), ru f.src1 2] []
      (some (ru f.dst (sizeRegs f.fn.toNat))) fun e s x => ldLanes f e s x e.lanes

/-- Stores lane by lane, ascending (R289). -/
def stLanes (f : TiF) (e : ThEnv) (s : State) (x : TGroup) (lanes : List Nat) : ThOut :=
  match lanes with
  | [] => .next s
  | i :: r =>
    let a := laneAddr f x i
    let n := (sizeCode f.fn.toNat).1
    let v := tbytes x i f.dst.toNat n
    if a.poison then .fault s 2 poisonConsumed 0 0x02
    else if a.val.toNat % n ≠ 0 then .fault s 2 misaligned (vaOperand a.val) 0
    else match tileStore s e.site (some (e.g * 32 + i)) e.launch.ctx a.val v.1 v.2 with
      | (s, .ok ()) => stLanes f e s x r
      | (s, .fault c va d) => .fault s 2 c va (BitVec.ofNat 64 d)
      | (_, .wait) => .wait (some .other)

def execSt (site : Site) (g : Nat) (f : TiF) (s : State) : Host.Outcome State Fault Refusal :=
  whenUp s fun s =>
    thStep s site g (fun _ => storeCode f.fn.toNat) [ru f.dst (sizeRegs f.fn.toNat), ru f.src1 2] [] none
      fun e s x => stLanes f e s x e.lanes

/-- Tile-store loads lane by lane. -/
def ldsLanes (f : TiF) (e : ThEnv) (s : State) (x : TGroup) (lanes : List Nat) : ThOut :=
  match lanes with
  | [] => .next (putGroup s e.site e.g x)
  | i :: r =>
    let a := laneOff f x i
    let n := (sizeCode f.fn.toNat).1
    if a.2 then .fault s 2 poisonConsumed 0 0x02
    else if a.1 % n ≠ 0 then .fault s 2 misaligned (BitVec.ofNat 64 a.1) 0
    else
      let v := tsRead s e.launch e.site a.1 n
      ldsLanes f e v.1 (setTbytes x i f.dst.toNat (extend f.fn.toNat v.2.1) v.2.2) r

def execLds (site : Site) (g : Nat) (f : TiF) (s : State) : Host.Outcome State Fault Refusal :=
  whenUp s fun s =>
    thStep s site g (fun _ => loadCode f.fn.toNat) [ru f.dst (sizeRegs f.fn.toNat), ru f.src1 1] []
      (some (ru f.dst (sizeRegs f.fn.toNat))) fun e s x => ldsLanes f e s x e.lanes

/-- Tile-store stores lane by lane. -/
def stsLanes (f : TiF) (e : ThEnv) (s : State) (x : TGroup) (lanes : List Nat) : ThOut :=
  match lanes with
  | [] => .next s
  | i :: r =>
    let a := laneOff f x i
    let n := (sizeCode f.fn.toNat).1
    let v := tbytes x i f.dst.toNat n
    if a.2 then .fault s 2 poisonConsumed 0 0x02
    else if a.1 % n ≠ 0 then .fault s 2 misaligned (BitVec.ofNat 64 a.1) 0
    else stsLanes f e (tsWrite s e.launch e.site a.1 v.1 v.2) x r

def execSts (site : Site) (g : Nat) (f : TiF) (s : State) : Host.Outcome State Fault Refusal :=
  whenUp s fun s =>
    thStep s site g (fun _ => storeCode f.fn.toNat) [ru f.dst (sizeRegs f.fn.toNat), ru f.src1 1] [] none
      fun e s x => stsLanes f e s x e.lanes

/-- ATOM without a destination and with a function other than XOR, EXCH and CAS is a reduction (R299). -/
def isReduction (f : TrF) : Bool :=
  f.dst.toNat == 255 && f.fn.toNat % 128 != 7 && f.fn.toNat % 128 != 8 && f.fn.toNat % 128 != 9

/-- A lane's part of a reduction: its virtual and device addresses, the lane, its value and poison. -/
structure RedLane where
  va   : DWord
  pa   : Nat
  lane : Nat
  val  : DWord
  bad  : Bool

/-- One reduction request for each distinct sector, its lanes in ascending order (R303). -/
def sendReductions (f : TrF) (e : ThEnv) (s : State) (work : List RedLane) : State :=
  let sectors := work.foldl (fun l w => if l.contains (w.pa / 64) then l else l ++ [w.pa / 64]) []
  sectors.foldl (fun s k =>
    let mine := work.filter fun w => w.pa / 64 == k
    let va := match mine with
      | w :: _ => w.va
      | [] => 0
    takeReduce s
      { requester := e.site, agent := (tileOf s e.site).index, ctx := e.launch.ctx,
        part := (settingOf s e.launch.ctx e.launch.cmd.queue).part.toNat, pa := k * 64, bytes := 64, cp := 0,
        op := .reduceLanes f.fn (mine.map fun w => (w.pa % 64, w.val)), poison := mine.any (·.bad),
        info := tileFaultInfo e.launch e.site 2 0 va e.pc 0 e.g (maskOf (mine.map (·.lane))) }) s

/-- Judge the lanes of a reduction, then send its requests. -/
def redLanes (f : TrF) (e : ThEnv) (s : State) (x : TGroup) (lanes : List Nat) (work : List RedLane) :
    ThOut :=
  match lanes with
  | [] => .next (sendReductions f e s work)
  | i :: r =>
    let w := intWidth f.fn.toNat
    let a := tpair x i f.src1.toNat
    let v := getSrc x i f.src2.toNat w
    if a.poison then .fault s 2 poisonConsumed 0 0x02
    else if a.val.toNat % (w / 8) ≠ 0 then .fault s 2 misaligned (vaOperand a.val) 0
    else match rmwTarget s e.launch.ctx a.val with
      | (s, .ok t) =>
        if regionOf t.pa = .sovel ∧ v.2 then .fault s 2 poisonConsumed 0 0x04
        else redLanes f e (l1Drop s e.site t.pa) x r (work ++ [{ va := a.val, pa := t.pa, lane := i, val := BitVec.ofNat 64 v.1, bad := v.2 }])
      | (s, .fault c va d) => .fault s 2 c va (BitVec.ofNat 64 d)
      | (_, .wait) => .wait (some .other)

/-- Atomics lane by lane, ascending (R109). -/
def atomLanes (f : TrF) (e : ThEnv) (s : State) (x : TGroup) (lanes : List Nat) : ThOut :=
  match lanes with
  | [] => .next (putGroup s e.site e.g x)
  | i :: r =>
    let w := intWidth f.fn.toNat
    let fn := f.fn.toNat % 128
    let a := tpair x i f.src1.toNat
    let v := getSrc x i f.src2.toNat w
    let c := if fn = 9 then getSrc x i f.src3.toNat w else (0, false)
    if a.poison then .fault s 2 poisonConsumed 0 0x02
    else if a.val.toNat % (w / 8) ≠ 0 then .fault s 2 misaligned (vaOperand a.val) 0
    else match rmwTarget s e.launch.ctx a.val with
      | (s, .ok t) =>
        (match atomicTarget s e.launch.ctx t (w / 8) fn v.1 c.1 (v.2 || c.2) with
        | (s, .ok (old, p)) => atomLanes f e (l1Drop s e.site t.pa) (setRes x i f.dst.toNat w old p) r
        | (s, .fault c va d) => .fault s 2 c va (BitVec.ofNat 64 d)
        | (_, .wait) => .wait (some .other))
      | (s, .fault c va d) => .fault s 2 c va (BitVec.ofNat 64 d)
      | (_, .wait) => .wait (some .other)

/-- Defined atomics (R109): FADD is 32-bit only, MOD zero. -/
def atomLegal (f : TrF) : Bool :=
  trClean f && f.mod == 0 && (atomFn (intWidth f.fn.toNat) (f.fn.toNat % 128) 0 0 0).isSome

def execAtom (site : Site) (g : Nat) (f : TrF) (s : State) : Host.Outcome State Fault Refusal :=
  whenUp s fun s =>
    let n := intWidth f.fn.toNat / 32
    let cas := f.fn.toNat % 128 == 9
    thStep s site g (fun _ => atomLegal f)
      ([ru f.dst n, ru f.src1 2, ru f.src2 n] ++ (if cas then [ru f.src3 n] else []))
      (if cas then [] else [f.src3.toNat]) (some (ru f.dst n))
      fun e s x => if isReduction f then redLanes f e s x e.lanes [] else atomLanes f e s x e.lanes

/-- A prefetch of one line into the L1 or the slice (R109): dropped where it would fault; dead sectors keep their bits. A
prefetch into the L1 holds a miss register of the group for each sector. -/
def prefetchLine (s : State) (site g ctx : Nat) (va : DWord) (intoL1 : Bool) : State :=
  match prefTarget s ctx va with
  | none => s
  | some t =>
    if NSet.has s.dead (t.pa / 64) ∨ tierLost s t.pa ∨ (regionOf t.pa = .sovel ∧ !linkUp s) then s
    else
      let s := (translate s ctx .read va).1
      [0, 64, 128, 192].foldl (fun s o =>
        let a := t.pa / 256 * 256 + o
        if NSet.has s.dead (a / 64) then s
        else if intoL1 ∧ t.cp = 0 then
          if (NMap.find (tileOf s site).l1 (a / 64)).isSome ∨ missFull (tileOf s site) then s
          else
            let s := l1Fill (readHome (linkFindings s a) ctx a 64 t.cp (ctxPart s ctx)) site a
            updTile s site fun x => takeMiss x g (va.toNat / 256 * 4 + o / 64)
        else readHome (linkFindings s a) ctx a 64 t.cp (ctxPart s ctx)) s

def execPref (site : Site) (g : Nat) (f : TiF) (s : State) : Host.Outcome State Fault Refusal :=
  whenUp s fun s =>
    thStep s site g (fun _ => decide (f.fn.toNat ≤ 1)) [ru f.src1 2] [f.dst.toNat] none fun e s x =>
      .next (e.lanes.foldl (fun s i =>
        let a := laneAddr f x i
        if a.poison then s else prefetchLine s site g e.launch.ctx a.val (f.fn == 0)) s)

/-! ### Branches (R110, R112) -/

/-- Go to per-lane targets, each a multiple of 8. -/
def brGo (s : State) (lanes : List Nat) (target : Nat → DWord) : ThOut :=
  match lanes.find? fun i => (target i).toNat % 8 != 0 with
  | some i => .fault s 2 misaligned (vaOperand (target i)) 0
  | none => .jumps s target

/-- The target PC + IMM. -/
def relTarget (f : TiF) (e : ThEnv) : DWord := e.pc + immTi f

def execBra (site : Site) (g : Nat) (f : TiF) (s : State) : Host.Outcome State Fault Refusal :=
  whenUp s fun s =>
    thStep s site g (fun _ => f.fn == 0) [] [f.dst.toNat, f.src1.toNat] none fun e s _ =>
      brGo s e.lanes fun _ => relTarget f e

/-- BRZ and BRNZ. A misaligned target that no lane takes does not fault (R110; DESIGN CHOICE, notes/assumptions/88.md). -/
def condOut (f : TiF) (onZero : Bool) (e : ThEnv) (s : State) (x : TGroup) : ThOut :=
  if anyPoison x e.lanes (ru f.src1 1) then .fault s 2 poisonConsumed 0 0x01
  else brGo s e.lanes fun i => if ((treg x i f.src1.toNat).val == 0) = onZero then relTarget f e else e.pc + 8

def execBrz (site : Site) (g : Nat) (f : TiF) (s : State) : Host.Outcome State Fault Refusal :=
  whenUp s fun s =>
    thStep s site g (fun _ => f.fn == 1) [ru f.src1 1] [f.dst.toNat] none fun e s x => condOut f true e s x

def execBrnz (site : Site) (g : Nat) (f : TiF) (s : State) : Host.Outcome State Fault Refusal :=
  whenUp s fun s =>
    thStep s site g (fun _ => f.fn == 2) [ru f.src1 1] [f.dst.toNat] none fun e s x => condOut f false e s x

/-- Write the return address and go one call deeper. -/
def enterCall (e : ThEnv) (dst : Nat) (x : TGroup) (i : Nat) : TGroup :=
  let x := setTpair x i dst { val := e.pc + 8, poison := false }
  { x with depths := NMap.put 0 x.depths i (callDepth x i + 1) }

/-- Calls: the targets are judged before anything is written. -/
def callOut (dst : Nat) (e : ThEnv) (s : State) (x : TGroup) (target : Nat → DWord) : ThOut :=
  match brGo s e.lanes target with
  | .jumps s t => .jumps (putGroup s e.site e.g (eachLane x e.lanes (enterCall e dst))) t
  | o => o

def execCall (site : Site) (g : Nat) (f : TiF) (s : State) : Host.Outcome State Fault Refusal :=
  whenUp s fun s =>
    thStep s site g (fun _ => f.fn == 3) [ru f.dst 2] [f.src1.toNat] (some (ru f.dst 2)) fun e s x =>
      callOut f.dst.toNat e s x fun _ => relTarget f e

def execCallr (site : Site) (g : Nat) (f : TiF) (s : State) : Host.Outcome State Fault Refusal :=
  whenUp s fun s =>
    thStep s site g (fun _ => f.fn == 4 && f.imm == 0) [ru f.dst 2, ru f.src1 2] [] (some (ru f.dst 2)) fun e s x =>
      if anyPoison x e.lanes (ru f.src1 2) then .fault s 2 poisonConsumed 0 0x01
      else callOut f.dst.toNat e s x fun i => (tpair x i f.src1.toNat).val

def execJmp (site : Site) (g : Nat) (f : TiF) (s : State) : Host.Outcome State Fault Refusal :=
  whenUp s fun s =>
    thStep s site g (fun _ => f.fn == 5) [ru f.src1 2] [f.dst.toNat] none fun e s x =>
      if anyPoison x e.lanes (ru f.src1 2) then .fault s 2 poisonConsumed 0 0x01
      else brGo s e.lanes fun i => (tpair x i f.src1.toNat).val

def execRet (site : Site) (g : Nat) (f : TiF) (s : State) : Host.Outcome State Fault Refusal :=
  whenUp s fun s =>
    thStep s site g (fun _ => f.fn == 6) [ru f.src1 2] [f.dst.toNat] none fun e s x =>
      if anyPoison x e.lanes (ru f.src1 2) then .fault s 2 poisonConsumed 0 0x01
      else match brGo s e.lanes fun i => (tpair x i f.src1.toNat).val with
        | .jumps s t => .jumps (putGroup s site g (eachLane x e.lanes fun x i =>
            { x with depths := NMap.put 0 x.depths i (callDepth x i - 1) })) t
        | o => o

/-! ### System (R110) -/

def execThreadNop (site : Site) (g : Nat) (f : TiF) (s : State) : Host.Outcome State Fault Refusal :=
  whenUp s fun s =>
    thStep s site g (fun _ => f.fn == 0) [] [f.dst.toNat, f.src1.toNat] none fun _ s _ => .next s

/-- The values of SREG (R110). -/
def sregVal (l : Launch) (t : Tile) (site g i sel : Nat) : Nat :=
  match sel with
  | 0 => i
  | 1 => g
  | 2 => t.index
  | 3 => l.sites.length
  | _ => site / 192 * 256 + t.logical

def execSreg (site : Site) (g : Nat) (f : TiF) (s : State) : Host.Outcome State Fault Refusal :=
  whenUp s fun s =>
    thStep s site g (fun _ => f.fn == 5 && decide (f.imm.toNat ≤ 4)) [ru f.dst 1] [f.src1.toNat] (some (ru f.dst 1))
      fun e s x => .next (putGroup s site g (eachLane x e.lanes fun x i =>
        setTreg x i f.dst.toNat
          { val := BitVec.ofNat 32 (sregVal e.launch (tileOf s site) site g i f.imm.toNat), poison := false }))

/-- Destination registers of fabric MSG.GETs of a group that wait for their response, keyed as missPend is (R278). -/
def getKeys (s : State) (site g : Nat) : List Nat :=
  (s.remotes.map fun r => match r.2.what with
    | .msgGet st (some k) reg =>
      if st = site ∧ k / 32 = g then (List.range ((r.2.bytes + 3) / 4)).map fun j => k % 32 * 256 + reg + j else []
    | _ => []).flatten

/-! ### Fences (R292, R280, R370) -/

/-- Messages of an issuer that have not been performed. -/
def messagesLeft (t : Tile) (issuer : Option Nat) : Bool := t.msgs.any fun m => m.issuer == issuer

/-- Remote messages of an issuer that have no response yet (R278, R370). -/
def remotesLeft (s : State) (site : Nat) (issuer : Option Nat) : Bool :=
  s.remotes.any fun r => match r.2.what with
    | .msgSend st i => st == site && i == issuer
    | .msgGet st i _ => st == site && i == issuer
    | _ => false

/-- Reductions of the tile's threads and messages that wait for their turn, or that their slice has refused: they are not
yet in their line's order (R291, R298, R303). -/
def redsLeft (s : State) (site : Nat) : List SliceReq :=
  (s.turns ++ s.refused.map (·.req)).filter fun r => r.requester == site

/-- Some reduction of the tile has not been performed. -/
def turnsLeft (s : State) (site : Nat) : Bool := !(redsLeft s site).isEmpty

/-- The request is of an issuer, the control core or a thread. -/
def issuedBy (r : SliceReq) (issuer : Option Nat) : Bool :=
  match issuer with
  | none => r.info.unit == 6 && r.info.mask == 0
  | some k => r.info.mask != 0 && r.info.group.toNat == k / 32 && r.info.mask.toNat.testBit (k % 32)

/-- What a fence of a scope (0 tile, 1 module, 2 fabric) still waits for: messages of the issuers, their reductions that
have not been performed, their writes that wait for the companion link (R291, R463, R465), and their remote messages. -/
def fenceBlocked (s : State) (site scope : Nat) (issuers : List (Option Nat)) : Bool :=
  issuers.any fun i => messagesLeft (tileOf s site) i ||
    (decide (1 ≤ scope) && ((redsLeft s site).any (issuedBy · i) || s.sovel.held.any fun h => h.site == some (site, i))) ||
    (scope == 2 && remotesLeft s site i)

/-- The effect of a fence: module and fabric scope invalidate the tile's L1 (R292, R370). -/
def fenceDone (s : State) (site scope : Nat) : State := if scope = 0 then s else l1Clear s site

/-- A fence of either ISA; the control core's also waits as VWAIT does (R250). -/
def fenceStep (s : State) (site : Nat) (i : CrTi) (ccFn thFn scope : Nat) : State :=
  match i with
  | .cc f => ccStep s site (sysLegal f ccFn) false fun _ s t _ =>
      if t.vec.queue ≠ [] ∨ fenceBlocked s site scope [none] then .wait s else .next (fenceDone s site scope)
  | .th g f => thStep s site g (fun _ => f.fn.toNat == thFn) [] [f.dst.toNat, f.src1.toNat] none fun e s _ =>
      if fenceBlocked s site scope (e.lanes.map fun i => some (g * 32 + i)) then .wait none
      else .next (fenceDone s site scope)

def execMfenceT (site : Site) (i : CrTi) (s : State) : Host.Outcome State Fault Refusal :=
  whenUp s fun s => fenceStep s site i 0x02 2 0

def execMfenceM (site : Site) (i : CrTi) (s : State) : Host.Outcome State Fault Refusal :=
  whenUp s fun s => fenceStep s site i 0x03 3 1

def execMfenceF (site : Site) (i : CrTi) (s : State) : Host.Outcome State Fault Refusal :=
  whenUp s fun s => fenceStep s site i 0x04 4 2

/-! ### Allocator instructions (R53, R54, R113, R114) -/

/-- Result of an allocator request: a value, a fault of a die's allocator, or a wait. -/
inductive AllocOut where
  | ok (s : State) (v : DWord)
  | fault (s : State) (die code : Nat) (operand detail : DWord)
  | wait

/-- The die that a record names: that of the slot's heap, also where an address belongs to no heap, and die 0 where the slot
is empty (R58; DESIGN CHOICE, notes/assumptions/87.md). -/
def slotDie (s : State) (ctx slot : Nat) : Nat :=
  match boundHeap s ctx slot with
  | some i => heapDie s i
  | none => 0

/-- HALLOC and HALLOC.Z (R53); the caller has judged the poison of the size, which the instruction consumes and not
the allocator (R394, notes/assumptions/35.md): the block is zeroed through the context's translation. -/
def hallocOne (s : State) (ctx slot size : Nat) (zero : Bool) : AllocOut :=
  let r := halloc s ctx slot size
  if zero ∧ r.2.toNat ≥ 0x10000 then
    match zeroBlock r.1 ctx r.2.toNat (2 ^ blockLog size) with
    | (s, .ok ()) => .ok s r.2
    | (s, .fault c va d) => .fault s (slotDie s ctx slot) c va (BitVec.ofNat 64 d)
    | (_, .wait) => .wait
  else .ok r.1 r.2

/-- HFREE (R54). -/
def hfreeOne (s : State) (ctx slot : Nat) (va : DWord) : AllocOut :=
  match hfree s ctx va with
  | some s => .ok s 0
  | none => .fault s (slotDie s ctx slot) heapBadFree (vaOperand va) 0

/-- HALLOC of a group, lane by lane in ascending order (R114). -/
def hallocLanes (f : TrF) (zero : Bool) (e : ThEnv) (s : State) (x : TGroup) (lanes : List Nat) : ThOut :=
  match lanes with
  | [] => .next (putGroup s e.site e.g x)
  | i :: r =>
    let a := treg x i f.src1.toNat
    match hallocOne s e.launch.ctx (f.mod.toNat % 4) a.val.toNat zero with
    | .ok s v => hallocLanes f zero e s (setTpair x i f.dst.toNat { val := v, poison := false }) r
    | .fault s die c o d => .allocFault s die c o d
    | .wait => .wait (some .other)

def hfreeLanes (f : TrF) (e : ThEnv) (s : State) (x : TGroup) (lanes : List Nat) : ThOut :=
  match lanes with
  | [] => .next s
  | i :: r =>
    let a := tpair x i f.src1.toNat
    match hfreeOne s e.launch.ctx (f.mod.toNat % 4) a.val with
    | .ok s _ => hfreeLanes f e s x r
    | .fault s die c o d => .allocFault s die c o d
    | .wait => .wait (some .other)

/-- Control-core fields of an allocator function (R113). -/
def allocCcLegal (f : CrF) (fn : Nat) : Bool :=
  f.fn.toNat / 16 == fn && f.fn.toNat / 4 % 4 == 0 && f.rs2 == 0 && (fn != 2 || f.rd == 0)

/-- Thread fields of an allocator function (R113). -/
def allocThLegal (f : TrF) (fn : Nat) : Bool := trClean f && f.fn.toNat == fn && decide (f.mod.toNat < 4)

/-- HALLOC and HALLOC.Z of either ISA. -/
def hallocStep (s : State) (site : Nat) (i : CrTr) (zero : Bool) : State :=
  let fn := if zero then 1 else 0
  match i with
  | .cc f => ccStep s site (allocCcLegal f fn) false fun l s t _ =>
      let a := ccReg t f.rs1.toNat
      if a.poison then .fault s 1 poisonConsumed 0 0x07
      else match hallocOne s l.ctx (f.fn.toNat % 4) a.val.toNat zero with
      | .ok s v => ccWrite s site f.rd.toNat { val := v, poison := false }
      | .fault s die c o d => .allocFault s die c o d
      | .wait => .wait s
  | .th g f => thStep s site g (fun _ => allocThLegal f fn) [ru f.dst 2, ru f.src1 1] [f.src2.toNat, f.src3.toNat]
      (some (ru f.dst 2)) fun e s x =>
      if anyPoison x e.lanes (ru f.src1 1) then .fault s 2 poisonConsumed 0 0x07
      else hallocLanes f zero e s x e.lanes

def execHalloc (site : Site) (i : CrTr) (s : State) : Host.Outcome State Fault Refusal :=
  whenUp s fun s => hallocStep s site i false

def execHallocZ (site : Site) (i : CrTr) (s : State) : Host.Outcome State Fault Refusal :=
  whenUp s fun s => hallocStep s site i true

def execHfree (site : Site) (i : CrTr) (s : State) : Host.Outcome State Fault Refusal :=
  whenUp s fun s =>
    match i with
    | .cc f => ccStep s site (allocCcLegal f 2) false fun l s t _ =>
        let a := ccReg t f.rs1.toNat
        if a.poison then .fault s 1 poisonConsumed 0 0x07
        else match hfreeOne s l.ctx (f.fn.toNat % 4) a.val with
        | .ok s _ => .next s
        | .fault s die c o d => .allocFault s die c o d
        | .wait => .wait s
    | .th g f => thStep s site g (fun _ => allocThLegal f 2) [ru f.src1 2] [f.dst.toNat, f.src2.toNat, f.src3.toNat] none
        fun e s x =>
          if anyPoison x e.lanes (ru f.src1 2) then .fault s 2 poisonConsumed 0 0x07
          else hfreeLanes f e s x e.lanes

end Sys2Proof.Machine
end

