-- ==== Sys2Proof/Machine/Barriers.lean ====
section
/-! DEFINITION. Barriers, tokens, thread exit and the stall sentinel (R110, R119 to R125). -/

namespace Sys2Proof.Machine

/-! ### Expected sets and phases (R120, R121) -/

/-- Groups that a mask names and that run. -/
def namedGroups (t : Tile) (mask : DWord) : List Nat :=
  (List.range 64).filter fun g => mask.toNat.testBit g && (groupOf t g).running

/-- Arrived threads of a group in a table of arrivals. -/
def arrivedOf (m : NMap Word) (g : Nat) : Word := NMap.getD m g 0

/-- Note the arrival of a lane. -/
def addArrival (m : NMap Word) (g i : Nat) : NMap Word :=
  NMap.insert m g (arrivedOf m g ||| BitVec.ofNat 32 (2 ^ i))

/-- Every non-exited thread of the mask's groups has arrived. -/
def tileArrived (t : Tile) (p : TPhase) : Bool :=
  (namedGroups t p.mask).all fun g => (liveLanes (groupOf t g)).all fun i => (arrivedOf p.arrived g).toNat.testBit i

/-- Every non-exited thread of the group has arrived. -/
def groupArrived (x : TGroup) (p : GPhase) : Bool := (liveLanes x).all fun i => p.arrived.toNat.testBit i

/-- End the waits of a group that p picks; the sentinel returns to zero (R124), and the group becomes eligible when a
thread of it can go on (R115). -/
def releaseWaits (t : Tile) (g : Nat) (p : BarWait → Bool) : Tile :=
  let x := groupOf t g
  if x.barWait.any fun e => p e.2 then
    let t := setGroup t g { x with barWait := x.barWait.filter fun (e : Nat × BarWait) => !p e.2, sentinel := 0 }
    if (goingLanes (groupOf t g)).isEmpty then t else makeEligible t g
  else t

/-- Complete the group barrier's open phase, if it can. -/
def settleGroup (t : Tile) (g : Nat) : Tile :=
  let x := groupOf t g
  match x.gphase with
  | none => t
  | some p =>
    if groupArrived x p then
      releaseWaits (setGroup t g { x with gphase := none }) g fun w => w.bar.isNone && w.pc == p.pc
    else t

/-- Make the arrivals that counted in the next phase of barrier b count in this one. -/
def takeEarly (x : TGroup) (b : Nat) : TGroup :=
  { x with barWait := x.barWait.map fun e =>
      (e.1, if e.2.bar = some b then { e.2 with early := false } else e.2) }

/-- Complete tile barrier b's open phase, if it can: threads that arrived in it go on, and so do those that only arrive
for the next one (R121). -/
def settleTileOnce (t : Tile) (b : Nat) : Tile :=
  match NMap.find t.bars b with
  | none => t
  | some p =>
    if tileArrived t p then
      let t := (List.range 64).foldl (fun t g => releaseWaits t g fun w => w.bar == some b && (!w.early || w.arv)) t
      let t := { t with groups := t.groups.map fun (e : Nat × TGroup) => (e.1, takeEarly e.2 b) }
      if p.nextArr = [] then { t with bars := NMap.erase t.bars b }
      else { t with bars := NMap.insert t.bars b { mask := p.nextMask, arrived := p.nextArr, nextMask := 0, nextArr := [] } }
    else t

/-- Complete what can complete after an arrival or an exit; a phase begun by early arrivals may complete at once. -/
def settle (t : Tile) : Tile :=
  let t := (List.range 64).foldl settleGroup t
  (List.range 16).foldl (fun t b => settleTileOnce (settleTileOnce t b) b) t

/-! ### Divergence (R123) -/

/-- A waiting thread: group, lane and wait. -/
structure Waiter where
  g : Nat
  i : Nat
  w : BarWait
  deriving DecidableEq, Repr

/-- Waiting threads of a group. -/
def waitersOf (t : Tile) (g : Nat) : List Waiter := (groupOf t g).barWait.map fun e => { g := g, i := e.1, w := e.2 }

/-- The earliest-arrived of a list of waiting threads. -/
def earliest (l : List Waiter) : Option Waiter :=
  l.foldl (fun b x => match b with
    | none => some x
    | some y => if x.w.order < y.w.order then some x else some y) none

/-- Every live thread of the groups waits at a barrier. -/
def allWait (t : Tile) (gs : List Nat) : Bool :=
  gs.all fun g => (liveLanes (groupOf t g)).all fun i => (NMap.find (groupOf t g).barWait i).isSome

/-- The waiting sets of the open phases that cannot complete, group barriers first. -/
def divergent (t : Tile) : Option (List Waiter) :=
  match (List.range 64).find? fun g => (groupOf t g).gphase.isSome && allWait t [g] with
  | some g => some (waitersOf t g)
  | none =>
    match t.bars.find? fun e => allWait t (namedGroups t e.2.mask) && !tileArrived t e.2 with
    | some e => some ((namedGroups t e.2.mask).map (waitersOf t)).flatten
    | none => none

/-- Mask of the threads of a waiter's group that wait at its barrier instruction. -/
def waitMask (l : List Waiter) (x : Waiter) : Word :=
  maskOf ((l.filter fun y => y.g == x.g && y.w.pc == x.w.pc).map (·.i))

/-- Judge the tile's barriers after an arrival or an exit: one record where a phase cannot complete. -/
def judge (s : State) (l : Launch) (site : Nat) : State :=
  match divergent (tileOf s site) with
  | none => s
  | some ws =>
    match earliest ws with
    | none => s
    | some x =>
      let other := match earliest (ws.filter fun y => y.w.pc != x.w.pc) with
        | some y => vaOperand y.w.pc
        | none => 0
      tileFault s l site 2 barrierDivergence (vaOperand x.w.pc) x.w.pc other x.g (waitMask ws x)

/-! ### Arrivals (R121, R122) -/

/-- A lane begins to wait. -/
def beginWait (t : Tile) (g i : Nat) (bar : Option Nat) (pc : DWord) (early arv : Bool) : Tile :=
  let x := groupOf t g
  let w : BarWait := { bar := bar, pc := pc, order := t.arrivals, early := early, arv := arv }
  { setGroup t g { x with barWait := NMap.insert x.barWait i w } with arrivals := t.arrivals + 1 }

/-- A lane arrives at the group barrier at pc. -/
def arriveGroup (g : Nat) (pc : DWord) (t : Tile) (i : Nat) : Tile :=
  let x := groupOf t g
  let here : Word := BitVec.ofNat 32 (2 ^ i)
  let x' := match x.gphase with
    | none => { x with gphase := some { pc := pc, arrived := here } }
    | some p => if p.pc = pc then { x with gphase := some { p with arrived := p.arrived ||| here } } else x
  beginWait (setGroup t g x') g i none pc false false

/-- A lane arrives at tile barrier b with a mask, to wait or not: the tile after it, or the mask of the phase that it
contradicts (DEDUCED, notes/assumptions/52.md). -/
def arriveTile (g b : Nat) (pc mask : DWord) (arv : Bool) (t : Tile) (i : Nat) : Sum DWord Tile :=
  match NMap.find t.bars b with
  | none =>
    if mask.toNat.testBit g then
      let t := { t with bars := NMap.insert t.bars b { mask := mask, arrived := addArrival [] g i, nextMask := 0, nextArr := [] } }
      .inr (if arv then t else beginWait t g i (some b) pc false false)
    else .inl mask
  | some p =>
    if (arrivedOf p.arrived g).toNat.testBit i then
      -- R121: it has arrived in this phase, so it waits, and the arrival counts in the next one
      let want := if p.nextArr = [] then mask else p.nextMask
      if mask = want ∧ mask.toNat.testBit g then
        let t := { t with bars := NMap.insert t.bars b { p with nextMask := want, nextArr := addArrival p.nextArr g i } }
        .inr (beginWait t g i (some b) pc true arv)
      else .inl want
    else if mask = p.mask ∧ mask.toNat.testBit g then
      let t := { t with bars := NMap.insert t.bars b { p with arrived := addArrival p.arrived g i } }
      .inr (if arv then t else beginWait t g i (some b) pc false false)
    else .inl p.mask

/-- Arrivals of the lanes of the leading set, ascending. -/
def tileArrivals (f : TiF) (b : Nat) (arv : Bool) (e : ThEnv) (x : TGroup) (t : Tile) (lanes : List Nat) :
    Sum DWord Tile :=
  match lanes with
  | [] => .inr t
  | i :: r =>
    match arriveTile e.g b e.pc (tpair x i f.src1.toNat).val arv t i with
    | .inl m => .inl m
    | .inr t => tileArrivals f b arv e x t r

/-- The barrier instruction retires: its lanes stand at the next instruction, waits end where a phase completes, and
the divergence of R123 is judged. -/
def barRetire (s : State) (e : ThEnv) (t : Tile) : ThOut :=
  .jumps (judge (setTile s e.site (settle t)) e.launch e.site) fun _ => e.pc + 8

/-! ### The instructions -/

def execBarG (site : Site) (g : Nat) (f : TiF) (s : State) : Host.Outcome State Fault Refusal :=
  whenUp s fun s =>
    thStep s site g (fun _ => f.fn == 0 && f.imm == 0) [] [f.dst.toNat, f.src1.toNat] none fun e s _ =>
      barRetire s e (e.lanes.foldl (arriveGroup g e.pc) (tileOf s site))

/-- BAR.T and BAR.T.ARV: a poisoned mask is consumed (R394 case 0x02). -/
def barTOut (f : TiF) (arv : Bool) (e : ThEnv) (s : State) (x : TGroup) : ThOut :=
  if anyPoison x e.lanes (ru f.src1 2) then .fault s 2 poisonConsumed 0 0x02
  else match tileArrivals f (f.imm.toNat % 16) arv e x (tileOf s e.site) e.lanes with
    | .inl m => .fault s 2 barrierDivergence (vaOperand e.pc) m
    | .inr t => barRetire s e t

def execBarT (site : Site) (g : Nat) (f : TiF) (s : State) : Host.Outcome State Fault Refusal :=
  whenUp s fun s =>
    thStep s site g (fun _ => f.fn == 1 && decide (f.imm.toNat < 16)) [ru f.src1 2] [f.dst.toNat] none (barTOut f false)

def execBarTArv (site : Site) (g : Nat) (f : TiF) (s : State) : Host.Outcome State Fault Refusal :=
  whenUp s fun s =>
    thStep s site g (fun _ => f.fn == 2 && decide (f.imm.toNat < 16)) [ru f.src1 2] [f.dst.toNat] none (barTOut f true)

/-- A pending token among those of the mask (R125). -/
def tokensPending (x : TGroup) (f : TiF) : Bool := x.tokens.toNat &&& f.imm.toNat != 0

def execTokWait (site : Site) (g : Nat) (f : TiF) (s : State) : Host.Outcome State Fault Refusal :=
  whenUp s fun s =>
    thStep s site g (fun _ => f.fn == 3 && decide (f.imm.toNat < 256)) [] [f.dst.toNat, f.src1.toNat] none fun _ s x =>
      if tokensPending x f then .wait (some (.tokens f.imm.toNat)) else .next s

def execTokTest (site : Site) (g : Nat) (f : TiF) (s : State) : Host.Outcome State Fault Refusal :=
  whenUp s fun s =>
    thStep s site g (fun _ => f.fn == 4 && decide (f.imm.toNat < 256)) [ru f.dst 1] [f.src1.toNat] (some (ru f.dst 1))
      fun e s x => .next (putGroup s site g (eachLane x e.lanes fun y i =>
        setTreg y i f.dst.toNat { val := if tokensPending x f then 0 else 1, poison := false }))

/-- The lanes exit: a group of exited threads stops running, leaves the sets and closes its matrix region (R115,
R146). -/
def exitLanes (t : Tile) (g : Nat) (lanes : List Nat) : Tile :=
  let x := groupOf t g
  let x := { x with exited := x.exited ||| maskOf lanes }
  if x.exited = 0xFFFFFFFF then
    leaveSets (setGroup t g { x with running := false, region := none, gphase := none, barWait := [], sentinel := 0,
                                     parked := false, runAhead := false }) g
  else setGroup t g x

def execExit (site : Site) (g : Nat) (f : TiF) (s : State) : Host.Outcome State Fault Refusal :=
  whenUp s fun s =>
    thStep s site g (fun _ => f.fn == 1) [] [f.dst.toNat, f.src1.toNat] none fun e s _ =>
      barRetire s e (exitLanes (tileOf s site) g e.lanes)

/-- GROUP_STALLED_SENTINEL (R124): the count has reached 2^24. -/
def execGroupStalledSentinel (site : Site) (g : Nat) (s : State) : Host.Outcome State Fault Refusal :=
  whenUp s fun s =>
    match runningLaunch s site with
    | none => s
    | some l =>
      let t := tileOf s site
      let ws := waitersOf t g
      if (groupOf t g).sentinel < 16777216 then s
      else match earliest ws with
        | none => s
        | some x => tileFault s l site 2 groupStalled (vaOperand x.w.pc) x.w.pc 0 g (maskOf (ws.map (·.i)))

end Sys2Proof.Machine
end

