-- ==== Sys2Proof/Machine/Batons.lean ====
section
/-! DEFINITION. Batons and baton queues (R272 to R276): the instructions of both ISAs, the starts of armed queues, and
the batons of streams and messages that met a full queue. -/

namespace Sys2Proof.Machine

def bqOf (t : Tile) (q : Nat) : BQueue := NMap.getD t.bqs q BQueue.empty
def setBq (t : Tile) (q : Nat) (b : BQueue) : Tile := { t with bqs := NMap.put BQueue.empty t.bqs q b }

/-- Post a baton to a queue of a tile site; none where the queue is full (R273). A group that waits for it becomes eligible
(R115). -/
def postBaton (s : State) (site q : Nat) (b : T64) : Option State :=
  let x := bqOf (tileOf s site) q
  if x.items.length < 64 then some (wake (updTile s site fun t => setBq t q { x with items := x.items ++ [b] }) site) else none

/-- The baton of R272. -/
def batonOf (user src len off : Nat) : DWord :=
  BitVec.ofNat 64 (((user % 4096) <<< 52) + ((src % 512) <<< 43) + ((len % 2 ^ 22) <<< 21) + off % 2 ^ 21)

/-! ### Baton operations (R274, R276) -/

/-- What a baton operation does: a result, a fault with its code and DETAIL, or a wait. -/
inductive BqOut where
  | ok (s : State) (v : T64)
  | fault (code : Nat) (detail : DWord)
  | wait (on : GWait)
  deriving DecidableEq, Repr

/-- BATON.PUT of a baton to the destination d. -/
def batonPutOne (s : State) (l : Launch) (b d : T64) : BqOut :=
  if d.poison then .fault poisonConsumed 0x02
  else if b.val.toNat % 64 ≠ 0 then .fault batonInvalid 0x01
  else match l.sites[fld d.val 8 0]? with
    | none => .fault batonInvalid 0x02
    | some site =>
      if d.val &&& ~~~0xF01FF#64 ≠ 0 then .fault batonInvalid 0x03
      else match postBaton s site (fld d.val 19 16) b with
        | some s => .ok s T64.zero
        | none => .wait (.post site (fld d.val 19 16))

/-- A queue operand with its reserved bits judged. -/
def bqOperand (q : T64) (go : Nat → BqOut) : BqOut :=
  if q.poison then .fault poisonConsumed 0x02
  else if q.val.toNat ≥ 16 then .fault batonInvalid 0x03
  else go q.val.toNat

/-- BATON.TAKE, and BATON.TRY where try_ holds. -/
def batonTakeOne (s : State) (site : Nat) (try_ : Bool) (q : T64) : BqOut :=
  bqOperand q fun k =>
    let x := bqOf (tileOf s site) k
    if x.armed.isSome then .fault batonInvalid 0x04
    else match x.items with
      | b :: r => .ok (wakeAll (updTile s site fun t => setBq t k { x with items := r })) b
      | [] => if try_ then .ok s { val := BitVec.allOnes 64, poison := false } else .wait (.take k)

/-- BQ.COUNT. -/
def bqCountOne (s : State) (site : Nat) (q : T64) : BqOut :=
  bqOperand q fun k => .ok s { val := BitVec.ofNat 64 (bqOf (tileOf s site) k).items.length, poison := false }

/-- A baton operation of the control core; OPERAND is the instruction's address (notes/assumptions/24.md). -/
def ccBq (site rd : Nat) (s : State) (pc : DWord) (o : BqOut) : CcOut :=
  match o with
  | .ok s v => ccWrite s site rd v
  | .fault code detail => .fault s 1 code (if code = poisonConsumed then 0 else pc &&& 0xFFFFFFFFFFFFF#64) detail
  | .wait _ => .wait s

/-- A baton operation of a group, lane by lane or by the issuer for all (R114, R274): op performs it for one lane, put
writes its result. -/
def thBqLanes (e : ThEnv) (op : State → TGroup → Nat → BqOut) (put : TGroup → Nat → T64 → TGroup)
    (s : State) (lanes : List Nat) : ThOut :=
  match lanes with
  | [] => .next s
  | i :: r =>
    let x := groupOf (tileOf s e.site) e.g
    match op s x i with
    | .ok s v => thBqLanes e op put (updTile s e.site fun t => setGroup t e.g (markLane (put (groupOf t e.g) i v) i)) r
    | .fault code detail => .fault s 2 code (if code = poisonConsumed then 0 else vaOperand e.pc) detail
    | .wait w => .waitIn s w

/-- The group-uniform form: the issuer performs the operation once, and every lane gets the result. -/
def thBqUniform (e : ThEnv) (op : State → TGroup → Nat → BqOut) (put : TGroup → Nat → T64 → TGroup)
    (s : State) (x : TGroup) : ThOut :=
  match op s x (e.lanes.head?.getD 0) with
  | .ok s v => .next (updTile s e.site fun t =>
      setGroup t e.g (eachLane (groupOf t e.g) e.lanes fun x i => put x i v))
  | .fault code detail => .fault s 2 code (if code = poisonConsumed then 0 else vaOperand e.pc) detail
  | .wait w => .wait (some w)

/-- A baton operation of the thread ISA. -/
def thBq (f : TrF) (e : ThEnv) (s : State) (x : TGroup) (op : State → TGroup → Nat → BqOut)
    (put : TGroup → Nat → T64 → TGroup) : ThOut :=
  if f.mod == 1 then thBqUniform e op put s x else thBqLanes e op put s (lanesLeft x e.lanes)

/-- MOD [3:1] and the reserved bits are zero. -/
def bqThLegal (f : TrF) (fn : Nat) : Bool := trClean f && f.fn.toNat == fn && decide (f.mod.toNat ≤ 1)

/-- A 32-bit register as a 64-bit operand. -/
def wide (v : T32) : T64 := { val := v.val.zeroExtend 64, poison := v.poison }

def execBatonPut (site : Site) (i : CrTr) (s : State) : Host.Outcome State Fault Refusal :=
  whenUp s fun s =>
    match i with
    | .cc f => ccStep (srcs := [f.rs1.toNat, f.rs2.toNat]) s site (f.fn == 0 && f.rd == 0) false fun l s t pc =>
        match batonPutOne s l (ccReg t f.rs1.toNat) (ccReg t f.rs2.toNat) with
        | .ok s _ => .next s
        | o => ccBq site 0 s pc o
    | .th g f => thStep s site g (fun _ => bqThLegal f 0) [ru f.src1 2, ru f.src2 2] [f.dst.toNat, f.src3.toNat] none
        fun e s x => thBq f e s x (fun s x i => batonPutOne s e.launch (tpair x i f.src1.toNat) (tpair x i f.src2.toNat))
          fun x _ _ => x

/-- BATON.TAKE and BATON.TRY. -/
def batonTakeStep (s : State) (site : Nat) (i : CrTr) (try_ : Bool) : State :=
  let fn := if try_ then 2 else 1
  match i with
  | .cc f => ccStep (srcs := [f.rs2.toNat]) s site (f.fn.toNat == fn && f.rs1 == 0) false fun _ s t pc =>
      ccBq site f.rd.toNat s pc (batonTakeOne s site try_ (ccReg t f.rs2.toNat))
  | .th g f => thStep s site g (fun _ => bqThLegal f fn) [ru f.dst 2, ru f.src2 1] [f.src1.toNat, f.src3.toNat]
      (some (ru f.dst 2)) fun e s x =>
        thBq f e s x (fun s x i => batonTakeOne s site try_ (wide (treg x i f.src2.toNat)))
          fun x i v => setTpair x i f.dst.toNat v

def execBatonTake (site : Site) (i : CrTr) (s : State) : Host.Outcome State Fault Refusal :=
  whenUp s fun s => batonTakeStep s site i false

def execBatonTry (site : Site) (i : CrTr) (s : State) : Host.Outcome State Fault Refusal :=
  whenUp s fun s => batonTakeStep s site i true

def execBqCount (site : Site) (i : CrTr) (s : State) : Host.Outcome State Fault Refusal :=
  whenUp s fun s =>
    match i with
    | .cc f => ccStep (srcs := [f.rs2.toNat]) s site (f.fn == 5 && f.rs1 == 0) false fun _ s t pc =>
        ccBq site f.rd.toNat s pc (bqCountOne s site (ccReg t f.rs2.toNat))
    | .th g f => thStep s site g (fun _ => bqThLegal f 5) [ru f.dst 1, ru f.src2 1] [f.src1.toNat, f.src3.toNat]
        (some (ru f.dst 1)) fun e s x =>
          thBq f e s x (fun s x i => bqCountOne s site (wide (treg x i f.src2.toNat)))
            fun x i v => setTreg x i f.dst.toNat { val := BitVec.ofNat 32 v.val.toNat, poison := v.poison }

/-! ### Armed queues (R275) -/

/-- BQ.ARM: the faults of R276 in the order of their reasons. -/
def bqArmOut (f : CrF) (site : Nat) (l : Launch) (s : State) (t : Tile) (pc : DWord) : CcOut :=
  let entry := ccReg t f.rs1.toNat
  let d := ccReg t f.rs2.toNat
  let q := fld d.val 3 0
  let g := fld d.val 13 8
  let x := bqOf t q
  if entry.poison || d.poison then .fault s 1 poisonConsumed 0 0x02
  else if d.val &&& ~~~0x3F0F#64 ≠ 0 then .fault s 1 batonInvalid (pc &&& 0xFFFFFFFFFFFFF#64) 0x03
  else if x.armed.isSome ∨ l.groups ≤ g ∨ entry.val.toNat % 8 ≠ 0 then
    .fault s 1 batonInvalid (pc &&& 0xFFFFFFFFFFFFF#64) 0x05
  else .next (updTile s site fun t => setBq t q { x with armed := some (entry.val, g) })

def execBqArm (site : Site) (f : CrF) (s : State) : Host.Outcome State Fault Refusal :=
  whenUp s fun s =>
    ccStep (srcs := [f.rs1.toNat, f.rs2.toNat]) s site (f.fn == 3 && f.rd == 0) false fun l s t pc => bqArmOut f site l s t pc

/-- BQ.DISARM: a start is one step, so that none is in progress when it runs. -/
def execBqDisarm (site : Site) (f : CrF) (s : State) : Host.Outcome State Fault Refusal :=
  whenUp s fun s =>
    ccStep (srcs := [f.rs2.toNat]) s site (f.fn == 4 && f.rd == 0 && f.rs1 == 0) false fun _ s t pc =>
      match bqOperand (ccReg t f.rs2.toNat) fun k =>
          .ok (updTile s site fun t => setBq t k { bqOf t k with armed := none }) T64.zero with
      | .ok s _ => .next s
      | o => ccBq site 0 s pc o

/-- Queues armed on a group that hold a baton. -/
def armedOn (t : Tile) (g : Nat) : List Nat :=
  (List.range 16).filter fun q => (bqOf t q).items != [] && (match (bqOf t q).armed with
    | some (_, k) => k == g
    | none => false)

/-- The queue that is served next among those armed on a group, in round robin by number from the last served. -/
def nextArmed (t : Tile) (g : Nat) : Option Nat :=
  ((List.range 16).map fun i => (NMap.getD t.bqRr g 0 + i) % 16).find? fun q => (armedOn t g).contains q

/-- ARMED_QUEUE_START (R275): the queue holds a baton, its group is not running, and it is its turn. -/
def execArmedQueueStart (site : Site) (queue : Nat) (s : State) : Host.Outcome State Fault Refusal :=
  whenUp s fun s =>
    match runningLaunch s site with
    | none => s
    | some l =>
      let t := tileOf s site
      let x := bqOf t queue
      match x.armed, x.items with
      | some (entry, g), b :: r =>
        if (groupOf t g).running ∨ nextArmed t g ≠ some queue then s
        else
          let t := { setBq t queue { x with items := r } with bqRr := NMap.put 0 t.bqRr g ((queue + 1) % 16) }
          wakeAll (setTile s site (startInTile t l g entry b))
      | _, _ => s

/-! ### Batons that met a full queue (R274) -/

/-- Free the stream slot that a posted baton held. -/
def slotFreed (t : Tile) (d : Deferred) : Tile :=
  match d.slot with
  | some k => { t with streams := NMap.erase t.streams k }
  | none => t

/-- A baton of the module that met a full queue before the one with number order waits for the same queue. -/
def deferredBefore (s : State) (site queue order : Nat) : Bool :=
  s.tiles.any fun t => t.2.deferred.any fun e => e.site == site && e.queue == queue && decide (e.order < order)

/-- Post a baton, or keep it at the sender's tile until the queue has room, behind those of every tile that wait already
(R273, R274). -/
def postOrDefer (s : State) (sender : Nat) (slot : Option Nat) (site queue : Nat) (baton : T64) : State :=
  let d : Deferred := { slot := slot, site := site, queue := queue, baton := baton, order := s.reqCtr }
  match (if deferredBefore s site queue s.reqCtr then none else postBaton s site queue baton) with
  | some s => wake (updTile s sender fun t => slotFreed t d) sender
  | none => updTile { s with reqCtr := s.reqCtr + 1 } sender fun t => { t with deferred := t.deferred ++ [d] }

/-- DEFERRED_BATON_POST: the first deferred baton of the tile whose queue has room and which no earlier one waits for; its
slot or credit is free then. -/
def execDeferredBatonPost (site : Site) (s : State) : Host.Outcome State Fault Refusal :=
  whenUp s fun s =>
    match runningLaunch s site with
    | none => s
    | some _ =>
      match (tileOf s site).deferred.find? fun d =>
          decide ((bqOf (tileOf s d.site) d.queue).items.length < 64) && !deferredBefore s d.site d.queue d.order with
      | none => s
      | some d =>
        match postBaton s d.site d.queue d.baton with
        | some s => wake (updTile s site fun t => slotFreed { t with deferred := t.deferred.erase d } d) site
        | none => s

end Sys2Proof.Machine
end

