-- ==== Sys2Proof/Machine/Copy.lean ====
section
/-! DEFINITION. The copy class: COPY and FILL (R73, R87), snapshots and clears of the event recorder (R406 to R414), and
ERR_INJECT (R403, R404). -/

namespace Sys2Proof.Machine

/-! ### COPY and FILL (R73, R87, R393) -/

/-- Poison of the destination piece at offset o of a block: that of any source sector whose bytes it takes. -/
def movedPoison (src dst n : Nat) (ps : List Bool) (o : Nat) : Bool :=
  let len := min (64 - (dst + o) % 64) (n - o)
  ((pieces src n).zip ps).any fun e => e.2 && decide (e.1.1 < src + o + len ∧ src + o < e.1.1 + e.1.2)

/-- Bytes of a block that overlapping source and destination ranges leave open: what the manual does not say is free
(notes/assumptions/26.md). -/
def overlapBytes (s : State) (src dst n pos : Nat) (bs : List Byte) : State × List Byte :=
  let open_ (i : Nat) : Bool := src != dst && decide (dst ≤ src + pos + i ∧ src + pos + i < dst + n)
  if bs.zipIdx.any fun e => open_ e.2 then
    ({ s with freeCtr := s.freeCtr + bs.length },
      bs.zipIdx.map fun e => if open_ e.2 then BitVec.ofNat 8 (Config.freeWord (s.freeCtr + e.2)).toNat else e.1)
  else (s, bs)

/-- The end of a write of len bytes read at src: poison that may not leave is named by its address there (R395)
(DEDUCED, notes/assumptions/77.md). -/
def fromSrc (src len : Nat) (ps : List Bool) (r : State × MRes Unit) : State × MRes Unit :=
  match r with
  | (s, .fault c v d) => (s, .fault c (if c = poisonConsumed ∧ d = 0x04 then poisonAt src len ps else v) d)
  | (s, .ok ()) => (s, .ok ())
  | (s, .wait) => (s, .wait)

/-- Move the block of a copy at pos, up to the next 4 KiB boundary of the destination (R87). -/
def copyBlock (s : State) (ctx src dst n pos len : Nat) : State × MRes Unit :=
  match cReadN s ctx (src + pos) len with
  | (s, .ok (bs, ps)) =>
    let o := overlapBytes s src dst n pos bs
    fromSrc (src + pos) len ps (vWriteN o.1 ctx (dst + pos) o.2 (movedPoison (src + pos) (dst + pos) len ps))
  | (s, .fault c v d) => (s, .fault c v d)
  | (s, .wait) => (s, .wait)

/-- Length of the block at pos. -/
def blockLen (dst n pos : Nat) : Nat := min (4096 - (dst + pos) % 4096) (n - pos)

/-- Run up to fuel blocks of a copy from pos on. -/
def copyBlocks (fuel : Nat) (s : State) (ctx src dst n pos : Nat) : State × MRes Unit :=
  match fuel with
  | 0 => (s, .ok ())
  | fuel + 1 =>
    if n ≤ pos then (s, .ok ())
    else
      match copyBlock s ctx src dst n pos (blockLen dst n pos) with
      | (s, .ok ()) => copyBlocks fuel s ctx src dst n (pos + blockLen dst n pos)
      | (s, .fault c v d) => (s, .fault c v d)
      | (s, .wait) => (s, .wait)

/-- Blocks of n bytes. -/
def blocksOf (n : Nat) : Nat := n / 4096 + 2

/-- n bytes of a pattern from byte pos on. -/
def patternBytes (pat : Word) (pos n : Nat) : List Byte :=
  (List.range n).map fun i => byteOf pat.toNat ((pos + i) % 4)

/-- Run up to fuel blocks of a fill. -/
def fillBlocks (fuel : Nat) (s : State) (ctx dst n : Nat) (pat : Word) (pos : Nat) : State × MRes Unit :=
  match fuel with
  | 0 => (s, .ok ())
  | fuel + 1 =>
    if n ≤ pos then (s, .ok ())
    else
      match vWriteN s ctx (dst + pos) (patternBytes pat pos (blockLen dst n pos)) with
      | (s, .ok ()) => fillBlocks fuel s ctx dst n pat (pos + blockLen dst n pos)
      | (s, .fault c v d) => (s, .fault c v d)
      | (s, .wait) => (s, .wait)

/-- Complete a command of the module whose memory work has ended; a wait leaves it started. -/
def endWork (s0 : State) (k : Cmd) (r : State × MRes Unit) (result : Nat) : State :=
  match r with
  | (s, .ok ()) => done s k result
  | (s, .fault c v d) => failF s k 0 c v (BitVec.ofNat 64 d)
  | (_, .wait) => s0

/-- COPY goes on from its position. -/
def copyEffect (s : State) (k : Cmd) : State :=
  let n := fld k.w2 39 0
  endWork s k (copyBlocks (blocksOf n) s k.ref.ctx k.w0.toNat k.w1.toNat n k.pos) 0

/-- COPY. -/
def execCopy (c : CmdRef) (s : State) : Host.Outcome State Fault Refusal :=
  whenUp s fun s => runCmd s c 0x28 copyEffect

/-- FILL goes on from its position. -/
def fillEffect (s : State) (k : Cmd) : State :=
  let n := fld k.w1 39 0
  endWork s k (fillBlocks (blocksOf n) s k.ref.ctx k.w0.toNat n (BitVec.ofNat 32 (fld k.w2 31 0)) k.pos) 0

/-- FILL. -/
def execFill (c : CmdRef) (s : State) : Host.Outcome State Fault Refusal :=
  whenUp s fun s => runCmd s c 0x29 fillEffect

/-- The position after up to fuel blocks from pos on. -/
def posAfter (fuel dst n pos : Nat) : Nat :=
  match fuel with
  | 0 => pos
  | fuel + 1 => if n ≤ pos then pos else posAfter fuel dst n (pos + blockLen dst n pos)

/-- A number of blocks that a preempted move has moved, up to all of them; which number is free (R85, R87) (DESIGN
CHOICE, notes/assumptions/38.md). -/
def freeBlocks (s : State) (n : Nat) : Nat := (Config.freeWord s.freeCtr).toNat % (n / 4096 + 3)

/-- A preempted COPY or FILL has moved some more of its blocks and saves its position at a 4 KiB boundary of the destination
(R87); a block that cannot be moved now it leaves for its continuation. -/
def copySome (s : State) (k : Cmd) : State :=
  let move (n dst : Nat) (f : Nat → State → State × MRes Unit) : State :=
    let b := freeBlocks s n
    match f b (takeFree s).2 with
    | (s, .ok ()) => updCmd s k.ref fun k => { k with pos := posAfter b dst n k.pos }
    | _ => (takeFree s).2
  match k.opcode.toNat with
  | 0x28 =>
    let n := fld k.w2 39 0
    move n k.w1.toNat fun b s => copyBlocks b s k.ref.ctx k.w0.toNat k.w1.toNat n k.pos
  | 0x29 =>
    let n := fld k.w1 39 0
    move n k.w0.toNat fun b s => fillBlocks b s k.ref.ctx k.w0.toNat n (BitVec.ofNat 32 (fld k.w2 31 0)) k.pos
  | _ => s

/-! ### Unit records (R407, R408) -/

/-- Number of records and body words of a type. -/
def recCount (type : Nat) : Nat :=
  match type with
  | 1 => 384 | 2 => 256 | 3 => 256 | 4 => 20 | 5 => 4096 | 6 => 412 | 7 => 4 | _ => 2

def recWords (type : Nat) : Nat :=
  match type with
  | 1 => 16 | 2 => 28 | 3 => 8 | 4 => 7 | 5 => 9 | 6 => 5 | 7 => 6 | _ => 7

/-- The die that holds a record. -/
def recDie (type index : Nat) : Nat :=
  match type with
  | 1 => index / 192
  | 2 | 3 => index / 128
  | 4 => index / 10
  | 5 => 0
  | 6 => if index < 384 then index / 192 else if index < 396 then 0 else if index < 408 then 1 else (index - 408) / 2
  | 7 => index / 2
  | _ => index

/-- Body word of a record: a counter, or the view of a state that the record shows. -/
def recWord (s : State) (type index w : Nat) : Nat :=
  if type = 6 ∧ w = 0 then
    let d := islandOf s index
    d.trim.toNat + (d.margin.toNat <<< 8) + (d.rung.toNat <<< 16)
  else if type = 1 ∧ w = 15 then (counter s 6 index 3).toNat
  else if type = 7 ∧ w = 5 then
    (match (chipOf s index).link with
    | .four => 0
    | .two => 1
    | .down => 2)
  else if type = 8 then (NMap.getD s.persist.lifetime (index * 8 + w) 0).toNat
  else (counter s type index w).toNat

def dieSeq (s : State) (die : Nat) : Word := if die = 0 then s.seq0 else s.seq1

/-- The bytes of a unit record: its header and its body. -/
def recBytes (s : State) (type index : Nat) : List Byte :=
  let die := recDie type index
  leBytes ((type <<< 56) + (die <<< 55) + (index <<< 32) + (recWords type <<< 16)) 8 ++ leBytes (dieSeq s die).toNat 8 ++
  ((List.range (recWords type)).map fun w => leBytes (recWord s type index w) 8).flatten

/-- The bytes of a log entry (R410). -/
def logBytes (e : LogEntry) : List Byte :=
  leBytes ((e.event.toNat <<< 56) + (e.die.toNat <<< 55) + (b2n e.inj <<< 54) + (e.queue.toNat <<< 44) +
    (e.ctx.toNat <<< 32) + e.seq.toNat) 8 ++
  leBytes e.arg0.toNat 8 ++ leBytes e.arg1.toNat 8 ++ leBytes e.arg2.toNat 8 ++ leBytes 0 32

/-! ### REC_SNAPSHOT (R412, R413) -/

/-- A sequence number from from_ to last, modulo 2^32 as in R69. -/
def seqIn (from_ last seq : Word) : Bool := decide ((seq - from_).toNat < 2 ^ 31 ∧ (last - seq).toNat < 2 ^ 31)

/-- The records and entries of a snapshot, in order. -/
def snapParts (s : State) (k : Cmd) : List (List Byte) :=
  let own := !bit k.w2 0
  let mask := fld k.w2 15 8
  let types := (List.range 8).filter fun t => mask.testBit t
  let recs := if own then (if mask.testBit 4 then [recBytes s 5 k.ref.ctx] else [])
    else (types.map fun t => (List.range (recCount (t + 1))).map fun i => recBytes s (t + 1) i).flatten
  let pick (l : List LogEntry) (from_ next : Word) : List (List Byte) :=
    (l.filter fun e => seqIn from_ (next - 1) e.seq && (!own || (e.event == 1 && e.ctx.toNat == k.ref.ctx))).map logBytes
  recs ++ (if bit k.w2 16 then
    pick s.log0 (BitVec.ofNat 32 (fld k.w3 31 0)) s.seq0 ++ pick s.log1 (BitVec.ofNat 32 (fld k.w3 63 32)) s.seq1
  else [])

/-- The parts that fit whole in n bytes, and whether some do not. -/
def fitParts (parts : List (List Byte)) (n : Nat) : List (List Byte) × Bool :=
  match parts with
  | [] => ([], false)
  | p :: r =>
    if p.length ≤ n then
      let q := fitParts r (n - p.length)
      (p :: q.1, q.2)
    else ([], true)

/-- OLDEST of a die: of an empty ring the manual gives none (notes/assumptions/26.md). -/
def oldestSeq (s : State) (l : List LogEntry) : Word × State :=
  match l with
  | e :: _ => (e.seq, s)
  | [] => (BitVec.ofNat 32 (takeFree s).1.toNat, (takeFree s).2)

def snapshotEffect (s : State) (k : Cmd) : State :=
  let n := fld k.w1 39 0
  if n < 64 then done s k (2 ^ 32)
  else
    let fit := fitParts (snapParts s k) (n - 64)
    let o0 := oldestSeq s s.log0
    let o1 := oldestSeq o0.2 s.log1
    let head := leBytes (s.seq0 - 1).toNat 4 ++ leBytes (s.seq1 - 1).toNat 4 ++ leBytes o0.1.toNat 4 ++
      leBytes o1.1.toNat 4 ++ leBytes (fit.1.length + (b2n fit.2 <<< 32)) 8 ++ leBytes 0 40
    endWork s k (vWriteN o1.2 k.ref.ctx k.w0.toNat (head ++ fit.1.flatten) (part := some 63))
      (fit.1.length + (b2n fit.2 <<< 32))

/-- REC_SNAPSHOT. -/
def execRecSnapshot (c : CmdRef) (s : State) : Host.Outcome State Fault Refusal :=
  whenUp s fun s => runCmd s c 0x2A snapshotEffect

/-! ### REC_CLEAR (R414) -/

/-- A counter that a clear of TMASK over count indices from first on resets. -/
def clears (mask first count key : Nat) : Bool :=
  let type := key / 16777216
  let index := key % 16777216 / 64
  decide (1 ≤ type ∧ type ≤ 7) && mask.testBit (type - 1) &&
    (count == 0 || decide (first ≤ index ∧ index < first + count))

def recClearEffect (s : State) (k : Cmd) : State :=
  let mask := fld k.w0 15 8
  let first := fld k.w1 15 0
  let count := fld k.w1 31 16
  let s := { s with counters := s.counters.filter fun e => !clears mask first count e.1 }
  let s := logEvent s 0 0x09 k.ref.queue k.ref.ctx (BitVec.ofNat 64 mask) (BitVec.ofNat 64 (first + (count <<< 16)))
    (k.tag.zeroExtend 64)
  done s k 0

/-- REC_CLEAR. -/
def execRecClear (c : CmdRef) (s : State) : Host.Outcome State Fault Refusal :=
  whenUp s fun s => runCmd s c 0x2B recClearEffect

/-! ### ERR_INJECT (R403, R404) -/

/-- Arm an injection: the module holds 64. -/
def injectArmEffect (s : State) (k : Cmd) : State :=
  if fld k.w0 3 0 ≠ 0 then s
  else
    let ctx := fld k.w0 31 20
    if ctxGone s ctx ∨ 64 ≤ s.injections.length then failC s k 0 badPacket 0 0
    else
      let i : Injection :=
        { det := BitVec.ofNat 8 (fld k.w0 15 8), kind := BitVec.ofNat 2 (fld k.w0 17 16), ctx := ctx,
          target := BitVec.ofNat 16 (fld k.w1 15 0), va := BitVec.ofNat 52 (fld k.w2 51 0) }
      done (logInjection { s with injections := s.injections ++ [i] } i 0) k 1

/-- ERR_INJECT, FUNC 0. -/
def execErrInjectArm (c : CmdRef) (s : State) : Host.Outcome State Fault Refusal :=
  whenUp s fun s => runCmd s c 0x2C injectArmEffect

/-- Disarm the injections of a context, in whatever state it is. -/
def injectDisarmEffect (s : State) (k : Cmd) : State :=
  if fld k.w0 3 0 ≠ 1 then s
  else
    let mine (i : Injection) : Bool := i.ctx == fld k.w0 31 20
    done (discardInjections s mine) k (s.injections.filter mine).length

/-- ERR_INJECT, FUNC 1. -/
def execErrInjectDisarm (c : CmdRef) (s : State) : Host.Outcome State Fault Refusal :=
  whenUp s fun s => runCmd s c 0x2C injectDisarmEffect

/-- Set the checking fraction (R388): RESULT is the previous code. -/
def injectFractionEffect (s : State) (k : Cmd) : State :=
  if fld k.w0 3 0 ≠ 2 then s
  else done { s with fraction := BitVec.ofNat 3 (fld k.w1 2 0) } k s.fraction.toNat

/-- ERR_INJECT, FUNC 2. -/
def execErrInjectSetFraction (c : CmdRef) (s : State) : Host.Outcome State Fault Refusal :=
  whenUp s fun s => runCmd s c 0x2C injectFractionEffect

end Sys2Proof.Machine
end

