-- ==== Sys2Proof/Machine/Digest.lean ====
section
/-! DEFINITION. The digest of a byte string (R342): a 128-bit value computed in GF(2^128); and the CRC-32 of flits (R348) and
step-log entries (R418). -/

namespace Sys2Proof.Machine

/-- Multiplication in GF(2^128) modulo x^128 + x^7 + x^2 + x + 1: n bits of b are left, the lowest first. -/
def gmulFrom (n : Nat) (r a b : BitVec 128) : BitVec 128 :=
  match n with
  | 0 => r
  | n + 1 =>
    let r := if b.toNat.testBit 0 then r ^^^ a else r
    let a' := if a.toNat.testBit 127 then (a <<< 1) ^^^ 0x87 else a <<< 1
    gmulFrom n r a' (b >>> 1)

def gmul (a b : BitVec 128) : BitVec 128 := gmulFrom 128 0 a b

/-- The key of the digest. -/
def digestKey : BitVec 128 := 0x94D049BB133111EBBF58476D1CE4E5B9

/-- Take one block into a running digest. -/
def digestBlock (d : BitVec 128) (blk : List Byte) : BitVec 128 :=
  gmul (d ^^^ BitVec.ofNat 128 (leNat blk)) digestKey

/-- Close a running digest with the length of its string. -/
def digestClose (d : BitVec 128) (len : Nat) : BitVec 128 := gmul (d ^^^ BitVec.ofNat 128 len) digestKey

/-- The digest of a byte string. -/
def digest (bs : List Byte) : BitVec 128 := digestClose ((chunksOf 16 bs).foldl digestBlock 0) bs.length

/-- CRC-32 of IEEE 802.3 over one byte, bit by bit. -/
def crcBits (n : Nat) (c : BitVec 32) : BitVec 32 :=
  match n with
  | 0 => c
  | n + 1 => crcBits n (if c.toNat % 2 = 1 then (c >>> 1) ^^^ 0xEDB88320 else c >>> 1)

/-- CRC-32 of IEEE 802.3. -/
def crc32 (bs : List Byte) : BitVec 32 :=
  ~~~(bs.foldl (fun (c : BitVec 32) b => crcBits 8 (c ^^^ BitVec.ofNat 32 b.toNat)) 0xFFFFFFFF)

end Sys2Proof.Machine
end

