-- ==== Sys2Proof/Machine/Fabric.lean ====
section
/-! DEFINITION. The fabric transaction unit as every sender uses it: the configuration record (R352), nodes and ports
(R359, R360), packets and their credits (R348, R366), remote requests (R362, R367, R368), and the end of requests that
no response will answer. -/

namespace Sys2Proof.Machine

/-! ### The configuration record (R352) -/

/-- Reset value of a word of the record. -/
def cfgReset (w : Nat) : DWord := if w = 1 then 0x0101000000000020 else 0
def cfgWord (s : State) (w : Nat) : DWord := NMap.getD s.fabCfg w (cfgReset w)
def setCfgWord (s : State) (w : Nat) (v : DWord) : State := { s with fabCfg := NMap.put (cfgReset w) s.fabCfg w v }

def fabCv (s : State) : Bool := bit (cfgWord s 0) 63
def fabPen (s : State) (port : Nat) : Bool := bit (cfgWord s 0) (28 + port)
def fabNode (s : State) : Nat := fld (cfgWord s 0) 13 0
def fabNinc (s : State) : Nat := fld (cfgWord s 1) 47 40
/-- ALIAS entries that are valid. -/
def aliasesOf (w : DWord) : List Nat := [0, 1, 2, 3].filterMap fun n =>
  if bit w (16 * n + 15) then some (fld w (16 * n + 13) (16 * n)) else none

/-- The module answers to a node number (R359). -/
def answers (s : State) (node : Nat) : Bool :=
  fabCv s && (node == fabNode s || (aliasesOf (cfgWord s 4)).contains node)

/-- ACTIVE ports of a node's PMASK, rising (R350, R359). -/
def activePorts (s : State) (node : Nat) : List Nat :=
  let mask := (NMap.getD s.nodeRoute node 0).toNat
  (List.range 20).filter fun p => mask.testBit p && (portOf s p).pstate == .active

/-! ### Sending (R348, R357, R360, R366) -/

/-- Bytes of a packet: a 32-byte header and the payload, padded to 16 bytes. -/
def packetBytes (p : Packet) : Nat := roundUp (32 + p.payload.length) 16
/-- Credits that a packet takes, in 64-byte units. -/
def packetCredits (p : Packet) : Nat := (packetBytes p + 63) / 64
/-- Data flits that a packet fills at most. -/
def packetFlits (p : Packet) : Nat := (packetBytes p + 255) / 256

/-- Credits of a virtual channel on a port. -/
def credOf (d : Port) (vc : Nat) : Int :=
  match vc with
  | 0 => d.cred0
  | 1 => d.cred1
  | _ => d.cred2

def addCred (d : Port) (vc : Nat) (n : Int) : Port :=
  let up (c : Int) : Int := c + n
  match vc with
  | 0 => { d with cred0 := up d.cred0 }
  | 1 => { d with cred1 := up d.cred1 }
  | _ => { d with cred2 := up d.cred2 }

/-- Flits in a port's replay buffer. -/
def replayFlits (d : Port) : Nat := (d.replay.map (·.flits)).sum

/-- The port that a packet takes: by OFFSET for a stream, else by its issuer (R360). -/
def choosePort (s : State) (issuer : Nat) (stream : Bool) (p : Packet) : Option Nat :=
  let ports := activePorts s p.dnode.toNat
  let key : Nat := if stream then p.offset.toNat / 4096 else (Config.issuerId issuer).toNat
  let k := (mix (BitVec.ofNat 64 (key ^^^ p.dnode.toNat))).toNat
  ports[k % ports.length]?

/-- A packet of the issuer to the node. -/
def sameFlow (issuer : Nat) (p : Packet) (u : Unacked) : Bool := u.issuer == issuer && u.packet.dnode == p.dnode

/-- An earlier packet of the issuer to the node waits for its acknowledgement on another port, or for a port (R358, R360). -/
def heldElsewhere (s : State) (issuer port : Nat) (p : Packet) : Bool :=
  (s.rehomed.any (sameFlow issuer p)) ||
    (List.range 20).any fun q => q != port && (portOf s q).replay.any (sameFlow issuer p)

/-- How a packet goes. -/
inductive SendRes where
  | sent (s : State)
  /-- No ACTIVE port leads to the node, or the module has no node number (status 0xF0 of R368). -/
  | unreachable
  /-- No credit, no room in the replay buffer, or R360 holds the packet. -/
  | wait
  deriving DecidableEq, Repr

/-- The bytes of the last data flit in which a packet begins: packets are laid end to end, while that flit has not left; when
it leaves the manual does not say (R348, notes/assumptions/31.md). -/
def openRoom (s : State) (d : Port) : Nat × State :=
  if d.room = 0 then (0, s) else (if (takeBool s).1 then d.room else 0, (takeBool s).2)

/-- Put a packet on a port, end to end with the one before it where that one's last flit has not left. -/
def putOnPort (s : State) (port issuer : Nat) (p : Packet) : State :=
  let d := portOf s port
  let r := openRoom s d
  let n := (packetBytes p - r.1 + 255) / 256
  let seq := d.txSeq + BitVec.ofNat 10 n
  let u : Unacked := { seq := seq - 1, flits := n, issuer := issuer, packet := p }
  let owe : Owed := { vc := p.vc.toNat, issuer := issuer, n := packetCredits p }
  let d := addCred { d with txSeq := seq, replay := d.replay ++ [u], room := r.1 + n * 256 - packetBytes p, owed := d.owed ++ [owe] }
    p.vc.toNat (-(packetCredits p : Int))
  bump { setPort r.2 port d with outbox := s.outbox ++ [(port, p)] } 4 port 0 n

/-- A port cannot take a packet now: R360 holds it, it lacks credits, or the replay buffer of 512 flits lacks room (R357,
R366). -/
def portFull (s : State) (port issuer : Nat) (stream : Bool) (p : Packet) : Bool :=
  let d := portOf s port
  (!stream && heldElsewhere s issuer port p) || decide (credOf d p.vc.toNat < (packetCredits p : Int)) ||
    decide (512 < replayFlits d + packetFlits p)

/-- Send a packet: to the module's own receiver, or on a port. -/
def sendPacket (s : State) (issuer : Nat) (stream : Bool) (p : Packet) : SendRes :=
  if !fabCv s then .unreachable
  else if answers s p.dnode.toNat then .sent { s with inbox := s.inbox ++ [(20, p)] }
  else match choosePort s issuer stream p with
    | none => .unreachable
    | some port => if portFull s port issuer stream p then .wait else .sent (putOnPort s port issuer p)

/-! ### Idle flits (R348) -/

/-- A port whose link is up. -/
def linked (d : Port) : Bool := d.pstate == .trained || d.pstate == .quarantine || d.pstate == .active

/-- A flit other than a data flit leaves by a port. -/
def sendFlit (s : State) (port : Nat) (f : SentFlit) : State := { s with flits := s.flits ++ [(port, f)] }

/-- An idle flit leaves by a port: it carries the next unused SEQ, the acknowledgement of what has been received in order,
and returned credits. The model sends one at once for each acknowledgement and each return (R348; DESIGN CHOICE,
notes/assumptions/89.md). -/
def sendIdle (s : State) (port cvc cred : Nat) : State :=
  let d := portOf s port
  sendFlit s port (.idle d.txSeq (d.rxSeq - 1) (BitVec.ofNat 2 cvc) (BitVec.ofNat 8 cred))

/-- The buffer of a packet that came by a port is free again: its credits go back to the peer (R348, R366). -/
def returnCredits (s : State) (port : Nat) (p : Packet) : State :=
  if port < 20 ∧ linked (portOf s port) then sendIdle s port p.vc.toNat (packetCredits p) else s

/-! ### Requests (R362, R366 to R368) -/

/-- The model's key of an issuer (R360). -/
def issuerKey (w : RemoteOf) : Nat :=
  let run (c : CmdRef) : Nat := ((c.ctx * 16 + c.queue) * 2 ^ 32 + c.index) * 2 ^ 32 + c.lpos
  match w with
  | .stream site slot _ => 8 * (site * 64 + slot) + 1
  | .msgSend site i | .msgGet site i _ => 8 * (site * 4096 + (match i with | none => 0 | some k => k + 1)) + 2
  | .dispatchRow c _ | .arrival c _ | .combine c _ _ => 8 * run c + 3

def isStream (w : RemoteOf) : Bool :=
  match w with
  | .stream .. => true
  | _ => false

/-- A request packet of a context (R366, R372). -/
def requestPacket (s : State) (r : Remote) (type : Nat) (payload : List Byte) (poison : List Bool) : Packet :=
  { type := BitVec.ofNat 6 type, vc := 0, dnode := r.node, snode := BitVec.ofNat 14 (fabNode s),
    sinc := BitVec.ofNat 8 (fabNinc s), job := jobFor s r.ctx r.queue, window := r.window,
    len := BitVec.ofNat 6 (r.bytes / 4 - 1), offset := r.offset, tag := BitVec.ofNat 32 s.tagCtr, dinc := 0, status := 0,
    opx := 0, scale := 0, arg := 0, payload := payload, poison := poison }

/-- Packet types of requests (R367). -/
def typeRead : Nat := 0x01
def typeWrite : Nat := 0x02

/-- Send a remote request and remember it (R362): its tag is new. -/
def sendRequest (s : State) (r : Remote) (type : Nat) (payload : List Byte) (poison : List Bool) : SendRes :=
  match sendPacket s (issuerKey r.what) (isStream r.what) (requestPacket s r type payload poison) with
  | .sent s' =>
    .sent { s' with remotes := NMap.insert s'.remotes (s.tagCtr % 2 ^ 32) { r with read := type == typeRead }, tagCtr := (s.tagCtr + 1) % 2 ^ 32 }
  | .unreachable => .unreachable
  | .wait => .wait

/-- The fault that a status maps to (R368). -/
def statusFault (status : Nat) : Nat :=
  match status with
  | 0x01 | 0xF1 => remoteNoWindow
  | 0x02 => remotePermission
  | 0x03 => pageNotPresent
  | 0x04 => frozenWrite
  | 0x05 => deadLineRead
  | _ => remoteUnreachable

/-- OPERAND of a remote fault: the fabric offset. -/
def remoteOperand (r : Remote) : DWord := BitVec.ofNat 64 r.offset.toNat
/-- DETAIL of a remote fault: window, node and status. -/
def remoteDetail (r : Remote) (status : Nat) : DWord :=
  BitVec.ofNat 64 ((r.window.toNat <<< 48) + (r.node.toNat <<< 34) + status)

/-- Log a refused request (event 0x0C) on the die of the window's entries (R60, R363, R364). -/
def logRefused (s : State) (node job window status : Nat) (badXlat : Bool) (va : DWord) : State :=
  logEvent s (window / 32768) 0x0C 0 0
    (BitVec.ofNat 64 (node + (job <<< 20) + (window <<< 40) + (status <<< 56)))
    (if badXlat then 1 else 0) va

/-- Cut the bytes [a, a + n) at multiples of m: (address, length) pieces. -/
def cutAt (m a n : Nat) : List (Nat × Nat) :=
  if n = 0 then []
  else (List.range ((a % m + n + m - 1) / m)).map fun i =>
    let lo := if i = 0 then a else a / m * m + i * m
    (lo, min (a + n) (a / m * m + i * m + m) - lo)

end Sys2Proof.Machine
end

