-- ==== Sys2Proof/Machine/RunAhead.lean ====
section
/-! DEFINITION. Run-ahead of a group that waits on an L1 miss, and the return of the miss (R128 to R131). A run is
taken whole when the group enters it, since nothing but prefetches and counters remains of it
(notes/assumptions/23.md). -/

namespace Sys2Proof.Machine

/-- What run-ahead keeps: the module, a copy of the group, and the unknown registers (lane × 256 + register). -/
structure Ahead where
  s : State
  x : TGroup
  unknown : List Nat

/-- Registers of a lane that a use names. -/
def useKeys (i : Nat) (u : RegUse) : List Nat :=
  if u.r = 255 then [] else (List.range u.n).map fun k => i * 256 + u.r + k

/-- A lane's sources are all known. -/
def known (a : Ahead) (i : Nat) (us : List RegUse) : Bool :=
  us.all fun u => (useKeys i u).all fun k => !NSet.has a.unknown k

/-- Mark a lane's registers known or unknown. -/
def markKnown (l : List Nat) (i : Nat) (u : RegUse) (ok : Bool) : List Nat :=
  (useKeys i u).foldl (fun l k => NSet.set l k (!ok)) l

/-- Run an ALU instruction of run-ahead: each lane computes, its result unknown where a source is. -/
def aheadAlu (a : Ahead) (lanes : List Nat) (dst : RegUse) (srcs : List RegUse) (f : TGroup → Nat → TGroup) : Ahead :=
  lanes.foldl (fun a i =>
    { a with x := f a.x i, unknown := markKnown a.unknown i dst (known a i srcs) }) a

/-- A free miss register for a prefetch of group g (R129): at most 64 are outstanding, and where none is free one of the
group's own prefetches returns first. Which does, and that run-ahead waits for it, is the hardware's timing
(notes/assumptions/23.md). -/
def aheadRoom (t : Tile) (g : Nat) (demand : List (Nat × Nat)) : Option Tile :=
  let mine := t.l1Miss.filter fun m => m.1 == g && !demand.contains m
  if mine.length < 64 ∧ !missFull t then some t
  else match mine with
    | m :: _ => some { t with l1Miss := t.l1Miss.erase m }
    | [] => none

/-- A prefetch of run-ahead at a lane's address (R129): by cached translation, cacheable, alive, into the L1. -/
def aheadPrefetch (site g ctx : Nat) (demand : List (Nat × Nat)) (a : Ahead) (va : DWord) : Ahead :=
  match cachedTarget a.s ctx .read va with
  | none => a
  | some t =>
    if t.cp ≠ 0 ∨ NSet.has a.s.dead (t.pa / 64) ∨ (NMap.find (tileOf a.s site).l1 (t.pa / 64)).isSome then a
    else match aheadRoom (tileOf a.s site) g demand with
      | none => a
      | some tile =>
        let s := setTile a.s site (takeMiss tile g (va.toNat / 64))
        let s := readHome (linkFindings s t.pa) ctx (t.pa / 64 * 64) 64 t.cp (ctxPart s ctx)
        { a with s := bump (l1Fill s site t.pa) 5 ctx 6 1 }

/-- The leading set goes on at the next instruction. -/
def aheadNext (a : Ahead) (lanes : List Nat) (pc : Nat → DWord) : Ahead := { a with x := setPcs a.x lanes pc }

/-- One run-ahead instruction; none where the group stops issuing (R129). -/
def aheadStep (l : Launch) (site g : Nat) (demand : List (Nat × Nat)) (a : Ahead) : Option Ahead :=
  match leadingSet a.x with
  | [] => none
  | i0 :: rest =>
    let lanes := i0 :: rest
    let pc := lanePc a.x i0
    match wordHeld a.s site l.ctx pc 8 with
    | none => none
    | some w =>
        let tr := trOf w
        let ti := tiOf w
        let go (a : Ahead) : Option Ahead := some (aheadNext a lanes fun _ => pc + 8)
        let fits (us : List RegUse) (unused : List Nat) : Bool :=
          us.all (RegUse.ok l.regs) && unused.all (· == 255) &&
            !regBusy { a.x with missPend := [] } lanes us us.head?
        let seed := (ctxOf a.s l.ctx).seed
        let t := tileOf a.s site
        match field w 63 56 with
        | 0x01 =>
          let n := intWidth tr.fn.toNat / 32
          let k := intArity (tr.fn.toNat % 128)
          let srcs := [ru tr.src1 n] ++ (if k ≥ 2 then [ru tr.src2 n] else []) ++ (if k = 3 then [ru tr.src3 n] else [])
          if trClean tr && tr.mod == 0 && decide (tr.fn.toNat % 128 ≤ 0x1E) &&
              fits (ru tr.dst n :: srcs) ((if k ≥ 2 then [] else [tr.src2.toNat]) ++ (if k = 3 then [] else [tr.src3.toNat]))
          then go (aheadAlu a lanes (ru tr.dst n) srcs (intLane tr)) else none
        | 0x02 =>
          let n := intWidth ti.fn.toNat / 32
          let fn := ti.fn.toNat % 128
          if decide (fn ≤ 0x1D) && fn != 0x05 && fits [ru ti.dst n, ru ti.src1 n] [] then
            go (aheadAlu a lanes (ru ti.dst n) [ru ti.src1 n] (intImmLane ti)) else none
        | 0x03 =>
          let k := floatArity tr.fn.toNat
          let srcs := [ru tr.src1 1] ++ (if k ≥ 2 then [ru tr.src2 1] else []) ++ (if k = 3 then [ru tr.src3 1] else [])
          if floatLegal tr && fits (ru tr.dst 1 :: srcs)
              ((if k ≥ 2 then [] else [tr.src2.toNat]) ++ (if k = 3 then [] else [tr.src3.toNat]))
          then go (aheadAlu a lanes (ru tr.dst 1) srcs (floatLane tr)) else none
        | 0x04 =>
          if convLegal tr && fits [ru tr.dst 1, ru tr.src1 1] [tr.src2.toNat, tr.src3.toNat] then
            go (aheadAlu a lanes (ru tr.dst 1) [ru tr.src1 1] (convLane tr seed t.index g)) else none
        | 0x08 =>
          let d := ru ti.dst (sizeRegs ti.fn.toNat)
          let n := (sizeCode ti.fn.toNat).1
          if loadCode ti.fn.toNat && fits [d, ru ti.src1 2] [] &&
              lanes.all (fun i => known a i [ru ti.src1 2] && !(laneAddr ti a.x i).poison &&
                decide ((laneAddr ti a.x i).val.toNat % n = 0))
          then go (lanes.foldl (fun b i =>
            let b := aheadPrefetch site g l.ctx demand b (laneAddr ti a.x i).val
            { b with unknown := markKnown b.unknown i d false }) a) else none
        | 0x0A =>
          let d := ru ti.dst (sizeRegs ti.fn.toNat)
          let n := (sizeCode ti.fn.toNat).1
          if loadCode ti.fn.toNat && fits [d, ru ti.src1 1] [] &&
              lanes.all (fun i => known a i [ru ti.src1 1] && !(laneOff ti a.x i).2 && decide ((laneOff ti a.x i).1 % n = 0))
          then go (aheadAlu a lanes d [ru ti.src1 1] fun x i =>
            let v := (tsRead a.s l site (laneOff ti x i).1 n).2
            setTbytes x i ti.dst.toNat (extend ti.fn.toNat v.1) v.2) else none
        | 0x10 =>
          let target := pc + immTi ti
          let fn := ti.fn.toNat
          if target.toNat % 8 ≠ 0 then none
          else if fn = 0 then
            if fits [] [ti.dst.toNat, ti.src1.toNat] then some (aheadNext a lanes fun _ => target) else none
          else if fn = 1 ∨ fn = 2 then
            if fits [ru ti.src1 1] [ti.dst.toNat] &&
                lanes.all (fun i => known a i [ru ti.src1 1] && !(treg a.x i ti.src1.toNat).poison)
            then some (aheadNext a lanes fun i =>
              if ((treg a.x i ti.src1.toNat).val == 0) = (fn == 1) then target else pc + 8) else none
          else none
        | 0x1C =>
          if ti.fn = 0 then (if fits [] [ti.dst.toNat, ti.src1.toNat] then go a else none)
          else if ti.fn.toNat = 5 ∧ ti.imm.toNat ≤ 4 ∧ fits [ru ti.dst 1] [ti.src1.toNat] then
            go (aheadAlu a lanes (ru ti.dst 1) [] fun x i => setTreg x i ti.dst.toNat
              { val := BitVec.ofNat 32 (sregVal l t site g i ti.imm.toNat), poison := false })
          else none
        | _ => none

/-- Up to n run-ahead instructions. -/
def aheadRun (l : Launch) (site g : Nat) (demand : List (Nat × Nat)) (n : Nat) (a : Ahead) : State :=
  match n with
  | 0 => a.s
  | n + 1 =>
    match aheadStep l site g demand a with
    | some a' => aheadRun l site g demand n a'
    | none => a.s

/-- Groups of the tile that hold a run-ahead slot. -/
def aheadGroups (t : Tile) : Nat := (t.groups.filter fun e => e.2.runAhead).length

/-- The next instruction of a group waits on a load that missed the L1 (R128): it names a register that the load has still
to write, and not one of a fabric MSG.GET. -/
def waitsOnMiss (s : State) (site g : Nat) (x : TGroup) : Bool :=
  match x.waitsOn with
  | some (.regs uses _) =>
    uses.any fun u => u.r != 255 && (leadingSet x).any fun i => (List.range u.n).any fun k =>
      x.missPend.contains (i * 256 + u.r + k) && !(getKeys s site g).contains (i * 256 + u.r + k)
  | _ => false

/-- RUN_AHEAD_ENTER (R128 to R130): how many instructions issue before the miss returns is a free value, 512 at most; that
they issue only while no group of the active set is ready is the sender's to keep (notes/assumptions/41.md). -/
def execRunAheadEnter (site : Site) (g : Nat) (s : State) : Host.Outcome State Fault Refusal :=
  whenUp s fun s =>
    match runningLaunch s site with
    | none => s
    | some l =>
      let t := tileOf s site
      let x := groupOf t g
      if !(x.running && x.parked && !x.runAhead && waitsOnMiss s site g x && t.runAheadOn && decide (aheadGroups t < 2)) then s
      else
        let s := bump (putGroup s site g { x with runAhead := true }) 1 site 11 1
        aheadRun l site g t.l1Miss ((takeFree s).1.toNat % 513) { s := (takeFree s).2, x := x, unknown := x.missPend }

/-- L1_MISS_RETURN (R115, R130): the group's misses return, its missing registers are there, run-ahead ends, and the group
becomes eligible where its next instruction waited for them (DESIGN CHOICE, notes/assumptions/13.md). -/
def execL1MissReturn (site : Site) (g : Nat) (s : State) : Host.Outcome State Fault Refusal :=
  whenUp s fun s =>
    let x := groupOf (tileOf s site) g
    let left := x.missPend.filter fun k => (getKeys s site g).contains k
    if x.missPend = left ∧ (tileOf s site).l1Miss.all (·.1 != g) then s
    else
      wake (updTile s site fun t =>
        { setGroup t g { x with missPend := left, runAhead := false } with l1Miss := t.l1Miss.filter (·.1 != g) }) site

end Sys2Proof.Machine
end

