-- ==== Sys2Proof/Machine/Routing.lean ====
section
/-! DEFINITION. The dispatch engine (R181 to R202): the route table, routing and combine runs, and speculative
prefetch. -/

namespace Sys2Proof.Machine

/-! ### Faults (R58, R186) -/

/-- DISPATCH_DESCRIPTOR, with the reason and the route entry it names; WHERE is zero (R186). -/
def dispFault (s : State) (k : Cmd) (operand : DWord) (reason entry : Nat) : State :=
  let f := unitFault s 8 k dispatchDescriptor operand (BitVec.ofNat 64 (reason + entry * 2 ^ 32))
  raiseFault f.2 k.ref.ctx .f { f.1 with loc := 0 }

/-- Continue with what a read or write gives, fail on its fault, or leave the state as it was while it waits. -/
def dispMem {α : Type} (s0 : State) (k : Cmd) (r : State × MRes α) (f : State → α → State) : State :=
  match r with
  | (s, .ok a) => f s a
  | (s, .fault c v d) => failF s k 8 c v (BitVec.ofNat 64 d)
  | (_, .wait) => s0

/-- The virtual address as OPERAND. -/
def dispVa (va : Nat) : DWord := BitVec.ofNat 64 (va % 2 ^ 52)

/-- The words that bytes spell. -/
def wordsOf (bs : List Byte) : List DWord := (chunksOf 8 bs).map fun b => BitVec.ofNat 64 (leNat b)

def nthWord (l : List DWord) (i : Nat) : DWord := (l[i]?).getD 0

/-! ### ROUTE_LOAD (R183) -/

/-- A source entry with a nonzero RSV field or a misaligned OFFSET. -/
def routeBad (r : Route) : Bool :=
  fld r.w0 62 60 != 0 || fld r.w1 63 40 != 0 || fld r.w1 39 0 % 64 != 0 || fld r.w2 63 52 != 0 || fld r.w2 15 0 != 0 ||
    fld r.w3 47 32 != 0

/-- The entry that 32 bytes spell. -/
def routeOfBytes (bs : List Byte) : Route :=
  let w := wordsOf bs
  { w0 := nthWord w 0, w1 := nthWord w 1, w2 := nthWord w 2, w3 := nthWord w 3, loads := 0 }

/-- Write the source entries from entry first on. -/
def putRoutes (s : State) (first : Nat) (rs : List Route) : State :=
  match rs with
  | [] => s
  | r :: rest => putRoutes (setRoute s first { r with loads := (routeOf s first).loads + 1 }) (first + 1) rest

def routeLoadEffect (s : State) (k : Cmd) : State :=
  let first := fld k.w1 17 0
  let count := fld k.w2 18 0
  dispMem s k (cReadN s k.ref.ctx k.w0.toNat (count * 32)) fun s r =>
    if r.2.any id then failF s k 8 poisonConsumed (poisonAt k.w0.toNat (count * 32) r.2) 0x03
    else
      let rs := (chunksOf 32 r.1).map routeOfBytes
      match rs.findIdx? routeBad with
      | some i => dispFault s k (dispVa k.w0.toNat) 0x08 (first + i)
      | none => done (putRoutes s first rs) k count

/-- ROUTE_LOAD. -/
def execRouteLoad (c : CmdRef) (s : State) : Host.Outcome State Fault Refusal :=
  whenUp s fun s => runCmd s c 0x31 routeLoadEffect

/-! ### The dispatch descriptor (R185, R186) -/

/-- A dispatch descriptor: its sixteen words. -/
abbrev Desc := List DWord

def dOfmt (d : Desc) : Nat := fld (nthWord d 0) 63 62
def dSfmt (d : Desc) : Nat := fld (nthWord d 0) 61 60
def dK (d : Desc) : Nat := fld (nthWord d 0) 59 57 + 1
def dGate (d : Desc) : Nat := fld (nthWord d 0) 56 55
def dOvf (d : Desc) : Bool := bit (nthWord d 0) 54
def dPref (d : Desc) : Bool := bit (nthWord d 0) 53
def dT (d : Desc) : Nat := fld (nthWord d 0) 52 32
def dE (d : Desc) : Nat := fld (nthWord d 0) 31 17
def dRb (d : Desc) : Nat := fld (nthWord d 1) 63 46
def dNb (d : Desc) : Nat := fld (nthWord d 1) 45 28
def dNe (d : Desc) : Nat := fld (nthWord d 1) 27 13
def dScores (d : Desc) : Nat := (nthWord d 2).toNat
def dTokens (d : Desc) : Nat := (nthWord d 3).toNat
def dClist (d : Desc) : Nat := (nthWord d 4).toNat
def dDlist (d : Desc) : Nat := (nthWord d 5).toNat
def dDcount (d : Desc) : Nat := (nthWord d 6).toNat
def dOut (d : Desc) : Nat := (nthWord d 7).toNat
def dTstride (d : Desc) : Nat := fld (nthWord d 8) 63 32
def dSstride (d : Desc) : Nat := fld (nthWord d 8) 31 0
/-- Row sizes in bytes. -/
def dOutRow (d : Desc) : Nat := fld (nthWord d 9) 63 48 * 64
def dInRow (d : Desc) : Nat := fld (nthWord d 9) 47 32 * 64
def dOstride (d : Desc) : Nat := fld (nthWord d 9) 31 0
def dTag (d : Desc) : DWord := nthWord d 10
def dBudget (d : Desc) : Nat := fld (nthWord d 11) 15 0
def dScoreBytes (d : Desc) : Nat := if dSfmt d = 0 then 4 else 2

/-- The descriptor's own checks, in the order of the table of R186. -/
def descFault (va : Nat) (d : Desc) : Option Nat :=
  firstReason [
    (dOfmt d == 3 || decide (2 ≤ dSfmt d) || decide (2 ≤ dGate d) || fld (nthWord d 0) 16 0 != 0 ||
      fld (nthWord d 1) 12 0 != 0 || fld (nthWord d 11) 63 16 != 0 || (d.drop 12).any (· != 0), 0x01),
    (decide (dT d < 1 ∨ 1048576 < dT d ∨ dE d < dK d ∨ 16384 < dE d ∨ 262144 < dRb d + dE d ∨ 16384 < dNe d ∨
      262144 < dNb d + dNe d ∨ dInRow d < 64 ∨ 65536 < dInRow d ∨ dOutRow d < 64 ∨ 65536 < dOutRow d ∨
      dTstride d < dInRow d ∨ dSstride d < dE d * dScoreBytes d ∨ dOstride d < dOutRow d), 0x02),
    ([va, dScores d, dTokens d, dClist d, dDlist d, dDcount d, dOut d, dTstride d, dSstride d, dOstride d].any
      (· % 64 != 0), 0x03)]

def rValid (r : Route) : Bool := bit r.w0 63
def rCtx (r : Route) : Nat := fld r.w0 59 48
def rNode (r : Route) : Nat := fld r.w0 47 34
def rWindow (r : Route) : Nat := fld r.w0 33 18
def rCap (r : Route) : Nat := fld r.w0 17 0
def rOffset (r : Route) : Nat := fld r.w1 39 0
def rWva (r : Route) : Nat := fld r.w2 51 16 * 65536
def rPload (r : Route) : Nat := fld r.w3 63 48
def rPages (r : Route) : Nat := fld r.w3 31 0

/-- Entries that a run checks: those of its layer, then those of the next. -/
def runEntries (d : Desc) : List Nat :=
  (List.range (dE d)).map (dRb d + ·) ++ (List.range (dNe d)).map (dNb d + ·)

/-- The first failing check of a run: reason and entry. -/
def runFault (s : State) (ctx queue va : Nat) (d : Desc) : Option (Nat × Nat) :=
  match descFault va d with
  | some n => some (n, 0)
  | none =>
    match (runEntries d).find? fun e => !rValid (routeOf s e) with
    | some e => some (0x04, e)
    | none =>
      match (runEntries d).find? fun e => rCtx (routeOf s e) != ctx with
      | some e => some (0x05, e)
      | none => if jobFor s ctx queue = 0 then some (0x06, 0) else none

/-! ### Selection, gates and capacity (R187 to R189) -/

/-- A score's place in the ranking: greater is better, −0 equals +0, a NaN is below every number. -/
def scoreKey (b : Nat) : Int :=
  if field b 30 23 = 255 ∧ field b 22 0 ≠ 0 then -(2 ^ 40)
  else if b.testBit 31 then -(field b 30 0 : Int) else (field b 30 0 : Int)

/-- Insert an expert with its key behind every expert of its rank or better. -/
def rankInsert (l : List (Nat × Int)) (x : Nat × Int) : List (Nat × Int) :=
  match l with
  | [] => [x]
  | y :: r => if y.2 < x.2 then x :: y :: r else y :: rankInsert r x

/-- Experts in rank order. -/
def rankOfScores (scores : List Nat) : List Nat :=
  ((scores.map scoreKey).zipIdx.foldl (fun l e => rankInsert l (e.2, e.1)) []).map (·.1)

/-- The gates of a token by rank, from the scores of its selected experts (R188). -/
def gatesOf (gate : Nat) (sel : List Nat) : List Word :=
  let ws := sel.map (BitVec.ofNat 32)
  if gate = 0 then ws
  else if sel.any fun b => field b 30 23 == 255 then ws.map fun _ => 0x7FC00000
  else
    let m := ws.head?.getD 0
    let e := ws.map fun x => BitVec.ofNat 32 (((fltFn .f32 0x0B .rne
      (fmul .rne (fsub .rne x m) 0x3FB8AA3B).toNat 0 0).getD 0))
    let sum := match e with
      | [] => 0
      | a :: r => r.foldl (fadd .rne) a
    e.map fun x => fdiv .rne x sum

/-- A token of a run: its experts in rank order and its gates. -/
structure Tok where
  ranks : List Nat
  gates : List Word
  deriving DecidableEq, Repr

/-- An assignment: token, rank, expert, status (0 placed, 1 rerouted, 2 dropped) and slot. -/
structure Assign where
  token : Nat
  rank  : Nat
  expert : Nat
  status : Nat
  slot  : Nat
  deriving DecidableEq, Repr

/-- Experts that hold an assignment of a token. -/
def holds (l : List Assign) (t x : Nat) : Bool := l.any fun a => a.token == t && a.expert == x && a.status != 2

/-- Handle the assignment (t, r) (R189). -/
def placeOne (d : Desc) (cap : Nat → Nat) (t r : Nat) (tok : Tok) (st : NMap Nat × List Assign) : NMap Nat × List Assign :=
  let x := (tok.ranks[r]?).getD 0
  let cnt (y : Nat) : Nat := NMap.getD st.1 y 0
  let take (y status : Nat) : NMap Nat × List Assign :=
    (NMap.put 0 st.1 y (cnt y + 1), st.2 ++ [{ token := t, rank := r, expert := y, status := status, slot := cnt y }])
  let drop : NMap Nat × List Assign :=
    (st.1, st.2 ++ [{ token := t, rank := r, expert := x, status := 2, slot := 0 }])
  if cnt x < cap x then take x 0
  else if !dOvf d then drop
  else
    match ((tok.ranks.drop (dK d)).take 8).find? fun y => !holds st.2 t y && decide (cnt y < cap y) with
    | some y => take y 1
    | none => drop

/-- Place every assignment: rank by rank, token by token. -/
def placeAll (d : Desc) (cap : Nat → Nat) (toks : List Tok) : NMap Nat × List Assign :=
  (List.range (dK d)).foldl (fun st r =>
    toks.zipIdx.foldl (fun st e => placeOne d cap e.2 r e.1 st) st) ([], [])

/-! ### Routing lists (R190) -/

/-- The gate of an assignment. -/
def gateOf (toks : List Tok) (a : Assign) : Word :=
  match toks[a.token]? with
  | some k => (k.gates[a.rank]?).getD 0
  | none => 0

/-- Placed assignments of an expert, by slot. -/
def rowsOf (as : List Assign) (x : Nat) : List Assign :=
  let mine := as.filter fun a => a.expert == x && a.status != 2
  (List.range mine.length).filterMap fun i => mine.find? fun a => a.slot == i

def dcountBytes (d : Desc) (counts : NMap Nat) : List Byte :=
  ((List.range (dE d)).map fun x => leBytes (NMap.getD counts x 0) 4).flatten

def dlistBytes (d : Desc) (toks : List Tok) (as : List Assign) : List Byte :=
  ((List.range (dE d)).map fun x => ((rowsOf as x).map fun a => leBytes a.token 4 ++ leBytes (gateOf toks a).toNat 4).flatten).flatten

def clistBytes (d : Desc) (toks : List Tok) (as : List Assign) : List Byte :=
  ((List.range (toks.length * dK d)).map fun i =>
    match as.find? fun a => a.token == i / dK d && a.rank == i % dK d with
    | some a => leBytes (a.expert + ((gateOf toks a).toNat <<< 32)) 8 ++ leBytes (a.slot + (a.status <<< 62)) 8
    | none => leBytes 0 16).flatten

/-! ### Speculative prefetch (R196 to R200) -/

/-- Lines of speculative fills that a slice holds. -/
def fillsIn (s : State) (slice : Nat) : Nat := (s.fills.filter fun e => homeSlice s (e.1 * 256) == slice).length

/-- A way for a speculative fill where a demand fill of the line could take one, without displacing a pinned line
(R196). -/
def fillWay (s : State) (pa : Nat) : State × Option Nat :=
  match lineOwner s pa with
  | none => takeWay s pa none
  | some p => (s, (waysFor s pa (some p)).find? fun w => !(setPeers s pa).any fun e => e.2 == w)

/-- Issue the fill of one line, where its slice has room for it and holds neither the line nor a fill of it; one of a dead
line is dropped (R129, R306). Its four sectors are charged to the context's partition (R30). -/
def issueFill (s : State) (ctx epoch entry line : Nat) : State × Nat :=
  let slice := homeSlice s (line * 256)
  if (NMap.find s.lines line).isSome || (NMap.find s.fills line).isSome || decide (768 ≤ fillsIn s slice) ||
      (List.range 4).any fun i => NSet.has s.dead (line * 4 + i) then
    (s, 0)
  else match fillWay s (line * 256) with
    | (s, none) => (s, 0)
    | (s, some w) =>
      let f : SpecFill := { way := w, ctx := ctx, epoch := epoch, entry := entry, arrived := false, confirmed := false }
      (bump (useCredits { s with fills := NMap.insert s.fills line f } slice (ctxPart s ctx) 4) 5 ctx 2 1, 1)

/-- Issue the fills of one weight page of an entry: dropped where no cached translation gives a readable, cacheable
page. -/
def fillPage (s : State) (ctx epoch entry va : Nat) : State × Nat :=
  match cachedTarget s ctx .read (BitVec.ofNat 64 va) with
  | some t =>
    if t.cp = 0 then
      (List.range 256).foldl (fun st i =>
        let r := issueFill st.1 ctx epoch entry (t.pa / 256 + i)
        (r.1, st.2 + r.2)) (s, 0)
    else (s, 0)
  | none => (s, 0)

/-- Insert a candidate by descending PLOAD, behind those of its PLOAD. -/
def candInsert (l : List (Nat × Route)) (x : Nat × Route) : List (Nat × Route) :=
  match l with
  | [] => [x]
  | y :: r => if rPload y.2 < rPload x.2 then x :: y :: r else y :: candInsert r x

/-- Candidates of the predictor, in order. -/
def candidates (s : State) (d : Desc) : List (Nat × Route) :=
  (((List.range (dNe d)).map fun i => (dNb d + i, routeOf s (dNb d + i))).filter fun e =>
    rNode e.2 == fabNode s && fabCv s && decide (0 < rPages e.2 ∧ 0 < rPload e.2)).foldl candInsert []

/-- The pages that the budget covers, in order: entry and address. -/
def prefPages (cands : List (Nat × Route)) (budget : Nat) : List (Nat × Nat) :=
  match cands with
  | [] => []
  | e :: r =>
    let n := min (rPages e.2) budget
    (List.range n).map (fun i => (e.1, rWva e.2 + i * 65536)) ++ prefPages r (budget - n)

/-- Close one epoch: its unconfirmed fills end as false starts (R197, R199). -/
def closeEpoch (s : State) (ctx epoch : Nat) : State :=
  let s := (s.fills.filter fun e => e.2.ctx == ctx && e.2.epoch == epoch && !e.2.confirmed).foldl (fun s e => dropFill s e.1 4) s
  { s with epochs := s.epochs.filter fun e => !(e.ctx == ctx && e.epoch == epoch) }

/-- The number of the next epoch of a context (R197). -/
def nextEpoch (s : State) (ctx : Nat) : Nat := NMap.getD s.lastEpoch ctx 0 % 65535 + 1

/-- Open epochs of a context, oldest first. -/
def openEpochs (s : State) (ctx : Nat) : List Epoch := s.epochs.filter fun e => e.ctx == ctx

/-- Predict and prefetch (R196, R197): the epoch opened, 0 where no fill was issued. -/
def prefetchRun (s : State) (k : Cmd) (d : Desc) : State × Nat :=
  let ctx := k.ref.ctx
  if !dPref d ∨ dNe d = 0 ∨ dBudget d = 0 then (s, 0)
  else
    let ep := nextEpoch s ctx
    let r := (prefPages (candidates s d) (dBudget d)).foldl (fun st p =>
      let q := fillPage st.1 ctx ep p.1 p.2
      (q.1, st.2 + q.2)) (s, 0)
    if r.2 = 0 then (r.1, 0)
    else
      let s := match openEpochs r.1 ctx with
        | e :: _ :: _ :: _ :: _ => closeEpoch r.1 ctx e.epoch
        | _ => r.1
      ({ s with
          epochs := s.epochs ++ [{ ctx := ctx, epoch := ep, run := k.ref }]
          lastEpoch := NMap.insert s.lastEpoch ctx ep }, ep)

/-- A confirmed fill that has arrived is an ordinary line of its slice (R198, R200); a line that an access has brought
in since its confirmation stays as it is (R199) (DEDUCED, notes/assumptions/71.md). -/
def promoteFill (s : State) (line : Nat) (f : SpecFill) : State :=
  let u := { s with fills := NMap.erase s.fills line }
  match NMap.find s.lines line with
  | some _ => u
  | none =>
    let l : SLine :=
      { way := f.way, dirty := [], filled := [], poisonOn := [], poisonOff := [], part := ctxPart s f.ctx }
    (List.range 4).foldl (fun s i => fillSector s (line * 256 + i * 64)) { u with lines := NMap.insert u.lines line l }

/-- Confirm one fill. -/
def confirmFill (s : State) (line : Nat) (f : SpecFill) : State :=
  let s := bump s 5 f.ctx 3 1
  if f.arrived then promoteFill s line f
  else { s with fills := NMap.insert s.fills line { f with confirmed := true } }

/-- Confirm the entries that p picks in an open epoch and close it: the state, lines confirmed and discarded. -/
def confirmEpoch (s : State) (ctx epoch : Nat) (p : Nat → Bool) : State × (Nat × Nat) :=
  if (openEpochs s ctx).any fun e => e.epoch == epoch then
    let mine := s.fills.filter fun e => e.2.ctx == ctx && e.2.epoch == epoch && !e.2.confirmed
    let good := mine.filter fun e => p e.2.entry
    let s := good.foldl (fun s e => confirmFill s e.1 e.2) s
    (closeEpoch s ctx epoch, (good.length, mine.length - good.length))
  else (s, (0, 0))

/-- SPECULATIVE_FILL_ARRIVE (R199, R200). -/
def execSpeculativeFillArrive (line : Nat) (s : State) : Host.Outcome State Fault Refusal :=
  whenUp s fun s =>
    match NMap.find s.fills line with
    | none => s
    | some f =>
      if f.confirmed then promoteFill s line f
      else { s with fills := NMap.insert s.fills line { f with arrived := true } }

/-- Confirm all, or the entries of a list. -/
def confirmEffect (s : State) (k : Cmd) : State :=
  if fld k.w1 1 0 ≠ 2 then s
  else
    let ep := fld k.w1 31 16
    let va := k.w0.toNat
    let fin (r : State × (Nat × Nat)) : State := done r.1 k (r.2.1 + r.2.2 * 2 ^ 32)
    if va = 0 then fin (confirmEpoch s k.ref.ctx ep fun _ => true)
    else if va % 4 ≠ 0 then dispFault s k (dispVa va) 0x07 0
    else dispMem s k (cReadN s k.ref.ctx va (fld k.w2 18 0 * 4)) fun s r =>
      if r.2.any id then failF s k 8 poisonConsumed (poisonAt va (fld k.w2 18 0 * 4) r.2) 0x03
      else
        let list := (chunksOf 4 r.1).map leNat
        if list.any fun e => decide (262144 ≤ e) then dispFault s k (dispVa va) 0x07 0
        else fin (confirmEpoch s k.ref.ctx ep list.contains)

/-- DISPATCH_RUN, mode CONFIRM (R200). -/
def execDispatchConfirm (c : CmdRef) (s : State) : Host.Outcome State Fault Refusal :=
  whenUp s fun s => runCmd s c 0x30 confirmEffect

/-- Discard every fill of an epoch and close it. -/
def discardEffect (s : State) (k : Cmd) : State :=
  if fld k.w1 1 0 ≠ 3 then s
  else
    let r := confirmEpoch s k.ref.ctx (fld k.w1 31 16) fun _ => false
    done r.1 k r.2.2

/-- DISPATCH_RUN, mode DISCARD (R200). -/
def execDispatchDiscard (c : CmdRef) (s : State) : Host.Outcome State Fault Refusal :=
  whenUp s fun s => runCmd s c 0x30 discardEffect

/-! ### Runs in progress -/

def dispRunOf (s : State) (c : CmdRef) : Option DispRun := s.dispRuns.find? fun r => r.cmd == c
def setDispRun (s : State) (r : DispRun) : State :=
  { s with dispRuns := s.dispRuns.map fun (x : DispRun) => if x.cmd == r.cmd then r else x }
def dropDispRun (s : State) (c : CmdRef) : State := { s with dispRuns := s.dispRuns.filter fun r => r.cmd != c }
def setPart (r : DispRun) (p : DispPart) : DispRun :=
  { r with parts := r.parts.map fun (x : DispPart) => if x.expert == p.expert then p else x }

/-- A remote request of a run. -/
def ofRun (c : CmdRef) (w : RemoteOf) : Bool :=
  match w with
  | .dispatchRow d _ | .arrival d _ | .combine d _ _ => d == c
  | _ => false

/-- Remote requests of a run that w picks are outstanding. -/
def runWaits (s : State) (p : RemoteOf → Bool) : Bool := s.remotes.any fun e => p e.2.what

/-- A run ends without completing: its requests are forgotten and its epochs close (R85, R202). -/
def endDispRun (s : State) (c : CmdRef) : State :=
  let s := (s.epochs.filter fun e => e.run == c).foldl (fun s e => closeEpoch s e.ctx e.epoch) s
  forgetRemotes (dropDispRun s c) fun r => ofRun c r.what

/-- A request of a run to the sender region of a route entry. -/
def dispRemote (k : Cmd) (w : RemoteOf) (r : Route) (offset bytes : Nat) : Remote :=
  { what := w, ctx := k.ref.ctx, queue := k.ref.queue, node := BitVec.ofNat 14 (rNode r),
    window := BitVec.ofNat 16 (rWindow r), offset := BitVec.ofNat 40 offset, bytes := bytes, pc := 0 }

/-- A remote fault of a run (R60, R368). -/
def dispRemoteFault (s : State) (k : Cmd) (q : Remote) (status : Nat) : State :=
  failF s k 8 (statusFault status) (remoteOperand q) (remoteDetail q status)

/-! ### DISPATCH.ROUTE (R187 to R191, R195) -/

/-- The score rows of every token, as FP32 bits. -/
def readScores (s : State) (k : Cmd) (d : Desc) (t n : Nat) : State × MRes (List (List Nat) × Option DWord) :=
  match n with
  | 0 => (s, .ok ([], none))
  | n + 1 =>
    let va := dScores d + t * dSstride d
    match cReadN s k.ref.ctx va (dE d * dScoreBytes d) with
    | (s, .ok (bs, ps)) =>
      let row := (chunksOf (dScoreBytes d) bs).map fun b => if dSfmt d = 0 then leNat b else leNat b * 65536
      (match readScores s k d (t + 1) n with
      | (s, .ok (rows, bad)) => (s, .ok (row :: rows, if ps.any id then some (poisonAt va (dE d * dScoreBytes d) ps) else bad))
      | (s, .fault c v dt) => (s, .fault c v dt)
      | (s, .wait) => (s, .wait))
    | (s, .fault c v dt) => (s, .fault c v dt)
    | (s, .wait) => (s, .wait)

/-- Tokens from their scores. -/
def tokOf (d : Desc) (row : List Nat) : Tok :=
  let ranks := rankOfScores row
  { ranks := ranks, gates := gatesOf (dGate d) ((ranks.take (dK d)).map fun x => (row[x]?).getD 0) }

/-- Pieces of every placed row, expert by expert. -/
def sendPieces (d : Desc) (routes : Nat → Route) (as : List Assign) : List SendPiece :=
  ((List.range (dE d)).map fun x => ((rowsOf as x).map fun a =>
    let off := rOffset (routes x) + 128 + a.slot * dInRow d
    (cutAt 256 off (dInRow d)).map fun p =>
      { expert := x, offset := p.1, va := dTokens d + a.token * dTstride d + (p.1 - off), bytes := p.2 : SendPiece }).flatten).flatten

/-- Write the three lists. -/
def writeLists (s : State) (k : Cmd) (d : Desc) (toks : List Tok) (counts : NMap Nat) (as : List Assign) :
    State × MRes Unit :=
  match vWriteN s k.ref.ctx (dDcount d) (dcountBytes d counts) with
  | (s, .ok ()) =>
    match vWriteN s k.ref.ctx (dDlist d) (dlistBytes d toks as) with
    | (s, .ok ()) => vWriteN s k.ref.ctx (dClist d) (clistBytes d toks as)
    | (s, .fault c v dt) => (s, .fault c v dt)
    | (s, .wait) => (s, .wait)
  | (s, .fault c v dt) => (s, .fault c v dt)
  | (s, .wait) => (s, .wait)

/-- Begin a routing run: predict, rank, place, and write the lists. -/
def routeBegin (s0 s : State) (k : Cmd) (d : Desc) : State :=
  let routes (x : Nat) : Route := routeOf s0 (dRb d + x)
  dispMem s0 k (readScores s k d 0 (dT d)) fun s r =>
    match r.2 with
    | some va => failF s k 8 poisonConsumed va 0x08
    | none =>
      let toks := r.1.map (tokOf d)
      let p := placeAll d (fun x => rCap (routes x)) toks
      dispMem s0 k (writeLists s k d toks p.1 p.2) fun s _ =>
        let pre := prefetchRun s k d
        let drops := (p.2.filter fun a => a.status == 2).length
        let moved := (p.2.filter fun a => a.status == 1).length
        let run : DispRun :=
          { cmd := k.ref, desc := d, combine := false
            parts := (List.range (dE d)).map fun x =>
              { expert := x, route := routes x, count := NMap.getD p.1 x 0, done := false, asked := 0, rows := [], bad := [] }
            sends := sendPieces d routes p.2
            result := BitVec.ofNat 64 (drops % 2 ^ 24 + ((moved % 2 ^ 24) <<< 24) + (pre.2 <<< 48)) }
        { pre.1 with dispRuns := pre.1.dispRuns ++ [run] }

/-- Send the pieces of a run, in order, as far as the fabric takes them. -/
def sendRows (s : State) (k : Cmd) (r : DispRun) (l : List SendPiece) : State :=
  match l with
  | [] => setDispRun s { r with sends := [] }
  | p :: rest =>
    let route := ((r.parts.find? fun x => x.expert == p.expert).map (·.route)).getD Route.empty
    let stop (s : State) : State := setDispRun s { r with sends := p :: rest }
    match cReadN s k.ref.ctx p.va p.bytes with
    | (s, .ok (bs, ps)) =>
      if ps.any id then failF s k 8 poisonConsumed (poisonAt p.va p.bytes ps) 0x05
      else
        let q := dispRemote k (.dispatchRow k.ref p.expert) route p.offset p.bytes
        (match sendRequest s q typeWrite bs [] with
        | .sent s => sendRows s k r rest
        | .unreachable => dispRemoteFault s k q 0xF0
        | .wait => stop s)
    | (s, .fault c v dt) => failF s k 8 c v (BitVec.ofNat 64 dt)
    | (s, .wait) => stop s

/-- PLOAD after a run (R195): an entry that ROUTE_LOAD has rewritten since keeps its value. -/
def updatePload (d : Desc) (s : State) (p : DispPart) : State :=
  let i := dRb d + p.expert
  let r := routeOf s i
  if r.loads ≠ p.route.loads then s
  else
    let v := (3 * rPload r + 4 * min p.count 4095) / 4
    setRoute s i { r with w3 := BitVec.ofNat 64 (r.w3.toNat % 2 ^ 48 + ((v % 65536) <<< 48)) }

/-- A routing run goes on: it sends, and completes once every arrival record is visible at its owner. -/
def routeGoOn (s : State) (k : Cmd) (r : DispRun) : State :=
  if r.sends ≠ [] then sendRows s k r r.sends
  else if (r.parts.all (·.done)) && !runWaits s (ofRun k.ref) then
    let s := r.parts.foldl (updatePload r.desc) s
    finish (dropDispRun s k.ref) k.ref 0 0 r.result
  else s

/-- Read and check the descriptor of a run, then begin it. -/
def withDesc (s : State) (k : Cmd) (f : State → Desc → State) : State :=
  dispMem s k (cReadN s k.ref.ctx k.w0.toNat 128) fun s' r =>
    if r.2.any id then failF s' k 8 poisonConsumed (poisonAt k.w0.toNat 128 r.2) 0x03
    else
      let d := wordsOf r.1
      match runFault s' k.ref.ctx k.ref.queue k.w0.toNat d with
      | some e => dispFault s' k (dispVa k.w0.toNat) e.1 e.2
      | none => f s' d

def routeEffect (s : State) (k : Cmd) : State :=
  if fld k.w1 1 0 ≠ 0 then s
  else match dispRunOf s k.ref with
    | some r => routeGoOn s k r
    | none => withDesc s k fun s' d => routeBegin s s' k d

/-- DISPATCH_RUN, mode ROUTE. -/
def execDispatchRoute (c : CmdRef) (s : State) : Host.Outcome State Fault Refusal :=
  whenUp s fun s => runCmd s c 0x30 routeEffect

/-- The arrival record of an expert (R191). -/
def arrivalBytes (d : Desc) (count : Nat) : List Byte :=
  leBytes count 8 ++ leBytes (dTag d).toNat 8 ++ leBytes 0 48

/-- Send the arrival record of an expert whose input rows are all visible at its owner. -/
def sendArrival (s : State) (k : Cmd) (r : DispRun) (p : DispPart) : State :=
  let rowsLeft := (r.sends.any fun x => x.expert == p.expert) || runWaits s fun w => w == .dispatchRow k.ref p.expert
  if p.done || rowsLeft then s
  else
    let q := dispRemote k (.arrival k.ref p.expert) p.route (rOffset p.route) 64
    match sendRequest s q typeWrite (arrivalBytes r.desc p.count) [] with
    | .sent s => setDispRun s (setPart r { p with done := true })
    | .unreachable => dispRemoteFault s k q 0xF0
    | .wait => s

/-- Run f on an expert's part of a run of a kind. -/
def onPart (s : State) (c : CmdRef) (expert : Nat) (combine : Bool) (f : State → Cmd → DispRun → DispPart → State) : State :=
  runCmd s c 0x30 fun s k =>
    match dispRunOf s c with
    | none => s
    | some r =>
      match r.parts.find? fun p => p.expert == expert with
      | some p => if r.combine = combine then f s k r p else s
      | none => s

/-- ARRIVAL_RECORD_WRITE. -/
def execArrivalRecordWrite (c : CmdRef) (expert : Nat) (s : State) : Host.Outcome State Fault Refusal :=
  whenUp s fun s => onPart s c expert false sendArrival

/-! ### DISPATCH.COMBINE (R193) -/

/-- Ask for the rows of an expert, piece by piece, from the byte asked for next. -/
def askRows (s : State) (k : Cmd) (r : DispRun) (p : DispPart) (l : List (Nat × Nat)) : State :=
  match l with
  | [] => setDispRun s (setPart r p)
  | (off, n) :: rest =>
    let q := dispRemote k (.combine k.ref p.expert (p.asked + 1)) p.route off n
    match sendRequest s q typeRead [] [] with
    | .sent s => askRows s k r { p with asked := p.asked + n } rest
    | .unreachable => dispRemoteFault s k q 0xF0
    | .wait => setDispRun s (setPart r p)

/-- A combine run that waits for an output record. -/
def combineWaits (s : State) (c : CmdRef) : Bool :=
  match dispRunOf s c with
  | some r => r.combine && r.parts.any fun p => !p.done
  | none => false

/-- Poll the output record of an expert, one read at a time; once it has matched, read its output rows. A run that waits in
a suspended context stops at its poll (R87). -/
def combinePoll (s : State) (k : Cmd) (r : DispRun) (p : DispPart) : State :=
  if (ctxOf s k.ref.ctx).state = .suspended ∧ combineWaits s k.ref then updCmd s k.ref fun k => { k with stopped := true }
  else if !p.done then
    if runWaits s fun w => w == .combine k.ref p.expert 0 then s
    else
      let q := dispRemote k (.combine k.ref p.expert 0) p.route (rOffset p.route + 64) 64
      match sendRequest s q typeRead [] [] with
      | .sent s => s
      | .unreachable => dispRemoteFault s k q 0xF0
      | .wait => s
  else
    let base := rOffset p.route + 128 + rCap p.route * dInRow r.desc
    let total := p.count * dOutRow r.desc
    askRows s k r p (cutAt 256 (base + p.asked) (total - p.asked))

/-- COMBINE_POLL. -/
def execCombinePoll (c : CmdRef) (expert : Nat) (s : State) : Host.Outcome State Fault Refusal :=
  whenUp s fun s => onPart s c expert true combinePoll

/-- Begin a combine run: the counts that the routing run left say which experts it reads. -/
def combineBegin (s0 s : State) (k : Cmd) (d : Desc) : State :=
  let routes (x : Nat) : Route := routeOf s0 (dRb d + x)
  dispMem s0 k (cReadN s k.ref.ctx (dDcount d) (dE d * 4)) fun s r =>
    if r.2.any id then failF s k 8 poisonConsumed (poisonAt (dDcount d) (dE d * 4) r.2) 0x03
    else
      let counts := (chunksOf 4 r.1).map leNat
      let run : DispRun :=
        { cmd := k.ref, desc := d, combine := true
          parts := (counts.zipIdx.filter fun e => decide (0 < e.1)).map fun e =>
            { expert := e.2, route := routes e.2, count := e.1, done := false, asked := 0, rows := [], bad := [] }
          sends := [], result := 0 }
      { s with dispRuns := s.dispRuns ++ [run] }

/-- A CLIST entry: expert, gate, status, slot. -/
structure CEntry where
  expert : Nat
  gate   : Word
  status : Nat
  slot   : Nat
  deriving DecidableEq, Repr

def cEntryOf (bs : List Byte) : CEntry :=
  let w := wordsOf bs
  { expert := fld (nthWord w 0) 31 0, gate := BitVec.ofNat 32 (fld (nthWord w 0) 63 32), status := fld (nthWord w 1) 63 62,
    slot := fld (nthWord w 1) 17 0 }

def outFmt (d : Desc) : Fmt :=
  match dOfmt d with
  | 0 => .f32
  | 1 => .bf16
  | _ => .f16

/-- One element of a token's output row (R193): the sum over its placed assignments, in rank order. -/
def combineElem (d : Desc) (parts : List DispPart) (es : List CEntry) (e : Nat) : Nat :=
  let f := outFmt d
  let n := f.bits / 8
  let acc := (es.filter fun c => decide (c.status ≤ 1)).foldl (fun acc c =>
    match parts.find? fun p => p.expert == c.expert with
    | some p =>
      let pos := c.slot * dOutRow d + e * n
      let o := leNat ((List.range n).map fun i => NMap.getD p.rows (pos + i) 0)
      ffma .rne c.gate (rnd32 .rne (decode f o)) acc
    | none => acc) 0
  round f .rne false (decode .f32 acc.toNat)

/-- Poison of an element: that of any output element it takes. -/
def combinePoison (d : Desc) (parts : List DispPart) (es : List CEntry) (byte : Nat) : Bool :=
  (es.filter fun c => decide (c.status ≤ 1)).any fun c =>
    match parts.find? fun p => p.expert == c.expert with
    | some p => NSet.has p.bad ((c.slot * dOutRow d + byte) / 64)
    | none => false

/-- Write the output rows of tokens t to t + n − 1, and count the tokens with a dropped assignment. -/
def combineRows (s : State) (k : Cmd) (r : DispRun) (t n drops : Nat) : State × MRes (Nat × Option DWord) :=
  match n with
  | 0 => (s, .ok (drops, none))
  | n + 1 =>
    let d := r.desc
    let va := dClist d + t * dK d * 16
    match cReadN s k.ref.ctx va (dK d * 16) with
    | (s, .ok (bs, ps)) =>
      if ps.any id then (s, .ok (drops, some (poisonAt va (dK d * 16) ps)))
      else
        let es := (chunksOf 16 bs).map cEntryOf
        let row := ((List.range (dOutRow d / ((outFmt d).bits / 8))).map fun e =>
          leBytes (combineElem d r.parts es e) ((outFmt d).bits / 8)).flatten
        let drops := if es.any (fun c => decide (2 ≤ c.status)) then drops + 1 else drops
        (match vWriteN s k.ref.ctx (dOut d + t * dOstride d) row (combinePoison d r.parts es) with
        | (s, .ok ()) => combineRows s k r (t + 1) n drops
        | (s, .fault c v dt) => (s, .fault c v dt)
        | (s, .wait) => (s, .wait))
    | (s, .fault c v dt) => (s, .fault c v dt)
    | (s, .wait) => (s, .wait)

/-- A combine run goes on: once it holds every output row it writes the results and completes. -/
def combineGoOn (s : State) (k : Cmd) (r : DispRun) : State :=
  let ready := (r.parts.all fun p => p.done && decide (p.count * dOutRow r.desc ≤ p.asked)) && !runWaits s (ofRun k.ref)
  if ready then
    dispMem s k (combineRows s k r 0 (dT r.desc) 0) fun s out =>
      match out.2 with
      | some va => failF s k 8 poisonConsumed va 0x08
      | none => done (dropDispRun s k.ref) k (out.1 % 2 ^ 24)
  else s

def combineEffect (s : State) (k : Cmd) : State :=
  if fld k.w1 1 0 ≠ 1 then s
  else match dispRunOf s k.ref with
    | some r => combineGoOn s k r
    | none => withDesc s k fun s' d => combineBegin s s' k d

/-- DISPATCH_RUN, mode COMBINE. -/
def execDispatchCombine (c : CmdRef) (s : State) : Host.Outcome State Fault Refusal :=
  whenUp s fun s => runCmd s c 0x30 combineEffect

/-! ### Responses (R193, R368) -/

/-- Take in the bytes that answer a read of output rows, from byte pos of the expert's rows on. -/
def takeRows (p : DispPart) (pos : Nat) (bs : List Byte) (ps : List Bool) : DispPart :=
  { p with
    rows := bs.zipIdx.foldl (fun m e => NMap.put 0 m (pos + e.2) e.1) p.rows
    bad := ps.zipIdx.foldl (fun l e => if e.1 then NSet.add l (pos / 64 + e.2) else l) p.bad }

/-- A response of a run's remote request. -/
def dispResponse (s : State) (q : Remote) (status : Nat) (bs : List Byte) (ps : List Bool) : State :=
  let run (c : CmdRef) (f : Cmd → DispRun → State) : State :=
    match cmdOf s c, dispRunOf s c with
    | some k, some r =>
      let st := (ctxOf s c.ctx).state
      if k.phase = .started ∧ (st = .active ∨ st = .suspended) then (if status = 0 then f k r else dispRemoteFault s k q status)
      else s
    | _, _ => s
  match q.what with
  | .dispatchRow c _ | .arrival c _ => run c fun _ _ => s
  | .combine c x 0 => run c fun _ r =>
      match r.parts.find? fun p => p.expert == x with
      | some p =>
        if leNat (sliceList 0 bs 8 8) = (dTag r.desc).toNat then setDispRun s (setPart r { p with done := true }) else s
      | none => s
  | .combine c x (pos + 1) => run c fun _ r =>
      match r.parts.find? fun p => p.expert == x with
      | some p => setDispRun s (setPart r (takeRows p pos bs ps))
      | none => s
  | _ => s

end Sys2Proof.Machine
end

