-- ==== Sys2Proof/Machine/MatrixNum.lean ====
section
/-! DEFINITION. The numerics of matrix instructions: formats and options (R134 to R136, R143), operand layouts
(R137, R172, R175), block and slice sums (R153, R155, R217), commits (R154, R218 to R220) and read-outs (R221). -/

namespace Sys2Proof.Machine

/-! ### Formats and options -/

/-- Element width of a format code (R136). -/
def mWidth (f : Nat) : Nat :=
  match f with
  | 0 => 32 | 1 => 16 | 2 => 16 | 5 => 6 | 6 => 6 | 7 => 4 | 8 => 32 | 15 => 64 | _ => 8

/-- The float format of a code. -/
def mFloat (f : Nat) : Option Fmt :=
  match f with
  | 0 => some .f32 | 1 => some .bf16 | 2 => some .f16 | 3 => some .e4m3 | 4 => some .e5m2 | 5 => some .e3m2
  | 6 => some .e2m3 | 7 => some .e2m1 | _ => none

/-- INT8 and UINT8. -/
def mInt (f : Nat) : Bool := f == 10 || f == 11

/-- Pairs that R134 lists. -/
def pairOk (fa fb : Nat) : Bool :=
  (fa == fb && (fa == 0 || fa == 1 || fa == 2 || fa == 7)) ||
    (decide (3 ≤ fa ∧ fa ≤ 6) && decide (3 ≤ fb ∧ fb ≤ 6)) || (mInt fa && mInt fb)

/-- Dense K of a pair (R134). -/
def denseK (fa : Nat) : Nat :=
  match fa with
  | 0 => 4 | 1 => 32 | 2 => 32 | 7 => 128 | _ => 64

/-- Fields of the options pair (R143). -/
def oRnd (o : DWord) : Nat := fld o 33 32
def oSr (o : DWord) : Bool := bit o 34
def oComp (o : DWord) : Bool := bit o 35
def oMx (o : DWord) : Bool := bit o 36
def oSpa (o : DWord) : Nat := fld o 38 37
def oBma (o : DWord) : Bool := bit o 39
def oBmb (o : DWord) : Bool := bit o 40
def oSat (o : DWord) : Bool := bit o 41
def oMeta (o : DWord) : Nat := fld o 29 15 * 64
def oScale (o : DWord) : Nat := fld o 14 0 * 64

/-- Reserved option values of an MMA (R143). -/
def mmaOptsBad (fa : Nat) (o : DWord) : Bool :=
  let bm := oBma o || oBmb o
  fld o 63 42 ≠ 0 || fld o 31 30 ≠ 0 || oSat o || (oSr o && oRnd o ≠ 0) || ((oComp o || oSr o) && mInt fa) ||
    (oMx o && (decide (fa ≤ 2) || mInt fa)) || (oSpa o ≠ 0 && bm) || ((oSpa o ≠ 0 || bm) && fa == 0) || oSpa o == 3

/-- Reserved option values of a drain: RND, SR and SAT only (R144). -/
def drainOptsBad (o : DWord) : Bool :=
  o &&& ~~~0x20700000000#64 ≠ 0 || (oSr o && oRnd o ≠ 0)

/-- Logical K of an instruction (R135). -/
def logicalK (fa : Nat) (o : DWord) : Nat :=
  match oSpa o with
  | 1 => denseK fa * 2
  | 2 => denseK fa * 4
  | _ => denseK fa

/-- Roundings into the accumulator (R149, R174). -/
def mmaBlocks (fa : Nat) (o : DWord) : Nat := if oMx o then logicalK fa o / 32 else 1

/-! ### Operand bytes (R137, R172, R175) -/

/-- Byte ranges (offset, length) that an instruction reads: A, B, scales, metadata, bitmaps. -/
def mmaAreas (fa fb aOff bOff : Nat) (o : DWord) : List (Nat × Nat) :=
  let k := denseK fa
  let kl := logicalK fa o
  [(aOff, 64 * (k * mWidth fa / 8)), (bOff, 64 * (kl * mWidth fb / 8))] ++
    (if oMx o then [(oScale o, 128 * (kl / 32))] else []) ++
    (if oSpa o ≠ 0 then [(oMeta o, 64 * (k / 4))] else []) ++
    (if oBma o then [(oMeta o, 8)] else []) ++ (if oBmb o then [(oMeta o + 8, 8)] else [])

/-- Byte ranges of a tile of 64 rows of ra bytes under a block bitmap: the blocks of live K-blocks that its own map does not
clear (R176). -/
def blockAreas (off ra : Nat) (on : Bool) (map : Nat) (live : List Nat) : List (Nat × Nat) :=
  ((List.range 64).map fun i =>
    (live.filter fun kb => !on || map.testBit (8 * (i / 8) + kb)).map fun kb => (off + i * ra + kb * (ra / 8), ra / 8)).flatten

/-- n bytes of captured operands as a number. -/
def grab (m : NMap Byte) (off n : Nat) : Nat := leNat ((List.range n).map fun i => NMap.getD m (off + i) 0)

/-- A row of elements: its offset and its bytes as a number. -/
structure Row where
  off  : Nat
  bits : Nat
  deriving DecidableEq, Repr

def grabRow (m : NMap Byte) (off n : Nat) : Row := { off := off, bits := grab m off n }

/-- Element k of a row (R137, R206). -/
def Row.el (r : Row) (w k : Nat) : Nat := (r.bits >>> (w * k)) % 2 ^ w

/-- A byte of the element lies in a poisoned sector (R170). -/
def Row.bad (ps : List Nat) (r : Row) (w k : Nat) : Bool :=
  NSet.has ps ((r.off * 8 + w * k) / 512) || NSet.has ps ((r.off * 8 + w * k + w - 1) / 512)

/-- The captured operands of an instruction, laid out for its cells. -/
structure Opnds where
  fa : Nat
  fb : Nat
  o  : DWord
  ps : List Nat
  rows : List Row
  cols : List Row
  metas : List Row
  sa : List Row
  sb : List Row
  mapA : Nat
  mapB : Nat
  /-- A poisoned map poisons every element of the set (R179). -/
  mapBad : Bool
  deriving DecidableEq, Repr

/-- Lay out the operands of an MMA. A poisoned map reads as all ones; a map that is not enabled declares nothing
zero. -/
def layOut (m : NMap Byte) (ps : List Nat) (fa fb aOff bOff : Nat) (o : DWord) : Opnds :=
  let k := denseK fa
  let kl := logicalK fa o
  let ra := k * mWidth fa / 8
  let rb := kl * mWidth fb / 8
  let mb := NSet.has ps (oMeta o / 64)
  let map (on : Bool) (off : Nat) : Nat := if on && !mb then grab m off 8 else 2 ^ 64 - 1
  { fa := fa, fb := fb, o := o, ps := ps
    rows := (List.range 64).map fun i => grabRow m (aOff + i * ra) ra
    cols := (List.range 64).map fun j => grabRow m (bOff + j * rb) rb
    metas := if oSpa o = 0 then [] else (List.range 64).map fun i => grabRow m (oMeta o + i * (k / 4)) (k / 4)
    sa := if oMx o then (List.range 64).map fun i => grabRow m (oScale o + i * (kl / 32)) (kl / 32) else []
    sb := if oMx o then (List.range 64).map fun j => grabRow m (oScale o + (64 + j) * (kl / 32)) (kl / 32) else []
    mapA := map (oBma o) (oMeta o), mapB := map (oBmb o) (oMeta o + 8)
    mapBad := mb && (oBma o || oBmb o) }

/-- Live K-blocks (R176). -/
def liveBlocks (o : DWord) (mapA mapB : Nat) : List Nat :=
  let some_ (m kb : Nat) : Bool := (List.range 8).any fun r => m.testBit (8 * r + kb)
  (List.range 8).filter fun kb => (!oBma o || some_ mapA kb) && (!oBmb o || some_ mapB kb)

/-- K-slots of an instruction's span without bubbles (R134, R177). -/
def mmaSlots (o : DWord) (mapA mapB : Nat) : Nat :=
  if oBma o || oBmb o then max 16 (8 * (liveBlocks o mapA mapB).length) else 64

/-- Valid K-slots of the span: the rest are bubbles (R177). -/
def mmaValid (o : DWord) (mapA mapB : Nat) : Nat :=
  if oBma o || oBmb o then 8 * (liveBlocks o mapA mapB).length else 64

/-- An element as it enters a product: bits and poison. -/
structure El where
  v : Nat
  bad : Bool
  deriving DecidableEq, Repr

def El.zero : El := { v := 0, bad := false }

/-- The k that a dense or block-bitmap instruction feeds: a K-block that is not live takes no K-slot (R176). -/
def Opnds.fedK (p : Opnds) (k : Nat) : List Nat :=
  if oBma p.o || oBmb p.o then
    let live := liveBlocks p.o p.mapA p.mapB
    (List.range k).filter fun e => live.contains (e / (k / 8))
  else List.range k

/-- The elements of row i of A with their logical k, ascending (R137, R172, R176, R179). -/
def aElems (p : Opnds) (i : Nat) : List (Nat × El) :=
  let w := mWidth p.fa
  let r := (p.rows[i]?).getD { off := 0, bits := 0 }
  let k := denseK p.fa
  let get (e : Nat) : El := { v := r.el w e, bad := r.bad p.ps w e }
  let m := (p.metas[i]?).getD { off := 0, bits := 0 }
  let mbad (e : Nat) : Bool := m.bad p.ps 2 e
  match oSpa p.o with
  | 0 => (p.fedK k).map fun e =>
      (e, if oBma p.o && !p.mapA.testBit (8 * (i / 8) + e / (k / 8)) then El.zero else get e)
  | 1 => ((List.range (k / 2)).map fun g =>
      let k0 := 4 * g + m.el 2 (2 * g)
      let k1 := 4 * g + m.el 2 (2 * g + 1)
      let e0 : El := { get (2 * g) with bad := (get (2 * g)).bad || mbad (2 * g) }
      let e1 : El := { get (2 * g + 1) with bad := (get (2 * g + 1)).bad || mbad (2 * g + 1) }
      if k1 < k0 then [(k1, e1), (k0, e0)] else [(k0, e0), (k1, e1)]).flatten
  | _ => (List.range k).map fun e =>
      (4 * e + m.el 2 e, { get e with bad := (get e).bad || mbad e })

/-- The elements of column j of B: bits and poison at a logical k. -/
def bElem (p : Opnds) (j k : Nat) : El :=
  let w := mWidth p.fb
  let c := (p.cols[j]?).getD { off := 0, bits := 0 }
  if oBmb p.o && !p.mapB.testBit (8 * (j / 8) + k / (denseK p.fa / 8)) then El.zero
  else { v := c.el w k, bad := c.bad p.ps w k }

/-- The positions of row i that no K-slot feeds, with what a dense instruction would multiply there: zero at a position
that 2:4 or 1:4 removes, and in a K-block that is not live zero or, where its own map keeps the block, its element
(R176, R178). -/
def goneElems (p : Opnds) (i : Nat) : List (Nat × Nat) :=
  let k := denseK p.fa
  if oSpa p.o = 0 then
    if oBma p.o || oBmb p.o then
      let live := liveBlocks p.o p.mapA p.mapB
      let r := (p.rows[i]?).getD { off := 0, bits := 0 }
      ((List.range k).filter fun e => !live.contains (e / (k / 8))).map fun e =>
        (e, if oBma p.o && !p.mapA.testBit (8 * (i / 8) + e / (k / 8)) then 0 else r.el (mWidth p.fa) e)
    else []
  else
    let fed := (aElems p i).map (·.1)
    ((List.range (logicalK p.fa p.o)).filter fun e => !fed.contains e).map fun e => (e, 0)

/-! ### Sums (R153, R155, R217) -/

/-- A block value: a float value or an integer, with its poison, and whether the sum that the checksum compares, taken
before scaling (R157), is non-finite. -/
structure BlockSum where
  val : Val
  int : Int
  bad : Bool
  nonfin : Bool
  deriving DecidableEq, Repr

/-- The exact value of an element of a float code. -/
def elVal (f b : Nat) : Val :=
  match mFloat f with
  | some g => decode g b
  | none => .nan

/-- The integer of an element of INT8 or UINT8 (R204). -/
def elInt (f b : Nat) : Int := if f = 10 then toSigned 8 b else (b : Int)

/-- The slice sum of products in ascending k (R155): rounded to 40 bits at each addition (DEDUCED,
notes/assumptions/74.md). -/
def sliceSum (ps : List Val) : Val :=
  match ps with
  | [] => .fin false 0 0 false
  | p :: r => r.foldl (fun a q => roundPrec 40 (addV false a (roundPrec 40 q))) (roundPrec 40 p)

/-- The exact block sum (R153), zero being +0 (R213). -/
def exactSum (ps : List Val) : Val := ps.foldl (addV false) (.fin false 0 0 false)

/-- A product that is not fed is not zero: the sum is that of a dense instruction all the same (R178, R217). -/
def goneNan (p : Opnds) (gone : List (Nat × Nat)) (j : Nat) : Bool :=
  gone.any fun a => match mulV (elVal p.fa a.2) (elVal p.fb (bElem p j a.1).v) with
    | .nan => true
    | _ => false

/-- The sum over the products of one block of cell (i, j), gone being its positions that are not fed. Poison of these
enters no product (R170; DEDUCED, notes/assumptions/32.md). -/
def blockSum (p : Opnds) (as : List (Nat × El)) (gone : List (Nat × Nat)) (j : Nat) : BlockSum :=
  let prods := as.map fun a => (a.2, bElem p j a.1)
  let bad := prods.any fun x => x.1.bad || x.2.bad
  if mInt p.fa then
    { val := .nan, int := (prods.map fun x => elInt p.fa x.1.v * elInt p.fb x.2.v).sum, bad := bad, nonfin := false }
  else
    let vs := prods.map fun x => mulV (elVal p.fa x.1.v) (elVal p.fb x.2.v)
    let v := if goneNan p gone j then .nan else if p.fa ≤ 2 then sliceSum vs else exactSum vs
    { val := v, int := 0, bad := bad, nonfin := !v.isFinite }

/-- The E8M0 scale byte of a row and block: exponent and poison, none for NaN (R208, R209). -/
def scaleOf (ps : List Nat) (l : List Row) (i b : Nat) : Option Int × Bool :=
  let r := (l[i]?).getD { off := 0, bits := 0 }
  let e := r.el 8 b
  (if e = 255 then none else some ((e : Int) - 127), r.bad ps 8 b)

/-- The block values of cell (i, j), scaled, in ascending K (R219). -/
def cellBlocks (p : Opnds) (as : List (Nat × El)) (gone : List (Nat × Nat)) (i j : Nat) : List BlockSum :=
  if oMx p.o then
    (List.range (logicalK p.fa p.o / 32)).map fun b =>
      let x := blockSum p (as.filter fun a => a.1 / 32 == b) (gone.filter fun a => a.1 / 32 == b) j
      let ea := scaleOf p.ps p.sa i b
      let eb := scaleOf p.ps p.sb j b
      let v := match ea.1, eb.1 with
        | some a, some c => scaleV (a + c) x.val
        | _, _ => .nan
      { x with val := v, bad := x.bad || ea.2 || eb.2 }
  else [blockSum p as gone j]

/-! ### Commit (R154, R218 to R220) -/

/-- What selects the random values of an instruction (R156, R216). -/
structure SrSrc where
  dom  : Nat
  seed : DWord
  tile : Nat
  group : Nat
  count : Nat
  deriving DecidableEq, Repr

/-- The rounding mode of an option value at a position and block (R143, R215). -/
def optMode (o : DWord) (src : SrSrc) (pos sub : Nat) : RMode :=
  if oSr o then .sr (srDraw src.seed (srKey src.dom src.tile src.group pos sub) (BitVec.ofNat 64 src.count))
  else RMode.ofCode (oRnd o)

/-- Commit one float block into a cell (R218 to R220). -/
def commitFloat (o : DWord) (mode : RMode) (c : AccCell) (b : BlockSum) : AccCell :=
  let s := dec32 c.sum
  let down := isRdn mode
  if oComp o then
    let x := addV down (addV down s (dec32 c.err)) b.val
    let s' := round .f32 mode false x
    let sv := decode .f32 s'
    let e' : Word := if sv.isFinite then rnd32 .rne (addV false x (negV sv)) else 0
    { sum := BitVec.ofNat 32 s', err := e', poison := c.poison || b.bad }
  else
    { sum := BitVec.ofNat 32 (round .f32 mode false (addV down s b.val)), err := c.err, poison := c.poison || b.bad }

/-- Commit an integer block sum modulo 2^32, and whether the true sum leaves the INT32 range (R154). -/
def commitInt (c : AccCell) (b : BlockSum) : AccCell × Bool :=
  let t := toSigned 32 c.sum.toNat + b.int
  ({ sum := BitVec.ofNat 32 (ofSigned 32 t), err := 0, poison := c.poison || b.bad },
    decide (t < -2147483648 ∨ 2147483647 < t))

/-- The committed cell (i, j): the cell, an overflow, and whether a block value is non-finite or poisoned (R159). -/
def commitCell (p : Opnds) (as : List (Nat × El)) (gone : List (Nat × Nat)) (src : SrSrc) (i j : Nat) (old : AccCell) :
    AccCell × Bool × List Bool :=
  let bs := cellBlocks p as gone i j
  let skips := bs.map fun b => b.bad || b.nonfin
  if mInt p.fa then
    match bs with
    | b :: _ =>
      let r := commitInt old b
      ({ r.1 with poison := r.1.poison || p.mapBad }, r.2, skips)
    | [] => (old, false, skips)
  else
    let c := (bs.zip (List.range bs.length)).foldl
      (fun c b => commitFloat p.o (optMode p.o src (64 * i + j) b.2) c b.1) old
    ({ c with poison := c.poison || p.mapBad }, false, skips)

/-- Result of an instruction's commit: its cells, whether an INT32 sum left its range, and the comparisons that are not
made (R159), rows and columns. -/
structure Committed where
  cells : NMap AccCell
  overflow : Bool
  skipRows : List (List Bool)
  skipCols : List (List Bool)
  deriving DecidableEq, Repr

/-- Elementwise or of two lists of flags, one for each block. -/
def orFlags (a b : List Bool) : List Bool := List.zipWith (· || ·) a b

/-- Or over a list of lists of n flags. -/
def anyFlags (n : Nat) (l : List (List Bool)) : List Bool := l.foldl orFlags (List.replicate n false)

/-- Commit an MMA into a set; Z = 1 starts every cell from zero (R218). -/
def mmaCommit (p : Opnds) (z : Bool) (src : SrSrc) (old : NMap AccCell) : Committed :=
  let n := mmaBlocks p.fa p.o
  let rows := (List.range 64).map fun i =>
    let as := aElems p i
    let gone := goneElems p i
    (List.range 64).map fun j =>
      commitCell p as gone src i j (if z then AccCell.zero else NMap.getD old (64 * i + j) AccCell.zero)
  let cells := rows.flatten
  { cells := (List.range cells.length).zip (cells.map (·.1)) |>.filter fun e => e.2 != AccCell.zero
    overflow := cells.any (·.2.1)
    skipRows := rows.map fun r => anyFlags n (r.map (·.2.2))
    skipCols := (List.range 64).map fun j => anyFlags n (rows.map fun r => ((r[j]?).map (·.2.2)).getD []) }

/-- The kind of set that a pair of formats makes. -/
def mmaKind (fa : Nat) : AccKind := if mInt fa then .int else .float

/-! ### Read-outs (R139, R144, R221) -/

/-- An element read out in an output format code: its bits. -/
def readOut (k : AccKind) (c : AccCell) (fmt : Nat) (mode : RMode) (sat : Bool) : Nat :=
  match k with
  | .empty => 0
  | .float =>
    if fmt = 15 then c.sum.toNat + (c.err.toNat <<< 32)
    else match mFloat fmt with
      | some f => round f mode sat (addV (isRdn mode) (dec32 c.sum) (dec32 c.err))
      | none => 0
  | .int =>
    if fmt = 0 then
      let v := toSigned 32 c.sum.toNat
      round .f32 mode sat (.fin (decide (v < 0)) v.natAbs 0 false)
    else c.sum.toNat

/-- Format codes that R136 lists. -/
def listedFmt (f : Nat) : Bool := decide (f ≤ 8) || f == 10 || f == 11 || f == 15

/-- Output format codes of a drain (R144). -/
def drainFmt (f : Nat) : Bool := decide (f ≤ 4) || f == 8 || f == 15

/-- Output formats that a kind of set allows (R144). -/
def drainAllowed (k : AccKind) (f : Nat) : Bool :=
  match k with
  | .empty => drainFmt f
  | .float => decide (f ≤ 4) || f == 15
  | .int => f == 0 || f == 8 || f == 15

/-- The format code of a fragment's register format (R145). -/
def fragFmt (f : Nat) : Nat :=
  match f with
  | 0 => 0 | 1 => 1 | 2 => 2 | _ => 8

end Sys2Proof.Machine
end

