-- ==== Sys2Proof/Machine/VectorNum.lean ====
section
/-! DEFINITION. Vector registers and elements (R243 to R245), the encodings that exist (R251, R252, R254), element
functions, block scaling (R229, R254), reductions (R255) and exponent histograms (R233, R234, R259). -/

namespace Sys2Proof.Machine

/-- An element with its poison. -/
structure VEl where
  v : Nat
  bad : Bool
  deriving DecidableEq, Repr

/-- Element i of w bytes of a vector register (R243). -/
def vGet (v : VecUnit) (r w i : Nat) : VEl :=
  let base := r * 4096 + i * w
  { v := leNat ((List.range w).map fun k => junkByte v.junk (base + k) (NMap.getD v.regs (base + k) 0)),
    bad := (List.range w).any fun k => NSet.has v.poison (base + k) }

/-- Set or clear the poison mark of the unit of 32 bits at a byte (R392). -/
def markUnit (l : List Nat) (byte : Nat) (bad : Bool) : List Nat :=
  (List.range 4).foldl (fun l k => NSet.set l (byte / 4 * 4 + k) bad) l

/-- Write element i of w bytes: a poisoned one marks its unit, and a clean one clears the mark where it is the whole unit
(R392). -/
def vPut (v : VecUnit) (r w i : Nat) (e : VEl) : VecUnit :=
  let base := r * 4096 + i * w
  { v with
    regs := memPut v.regs base ((leBytes e.v w).zipIdx.map fun b => junkByte v.junk (base + b.2) b.1)
    poison := if e.bad ∨ w = 4 then markUnit v.poison base e.bad else v.poison }

/-- Write elements 0 on of a register. Units that they replace wholly with clean data lose their marks. -/
def vPutAll (v : VecUnit) (r w : Nat) (es : List VEl) : VecUnit :=
  let v := (es.zip (List.range es.length)).foldl (fun v e => vPut v r w e.2 e.1) v
  if w = 4 then v
  else { v with poison := (List.range (es.length * w / 4)).foldl (fun l u =>
    if ((es.drop (u * 4 / w)).take (4 / w)).any (·.bad) then l else markUnit l (r * 4096 + u * 4) false) v.poison }

/-! ### Histograms (R233, R234, R259) -/

/-- BASE and EMAX as signed numbers. -/
def s16 (x : BitVec 16) : Int := toSigned 16 x.toNat

/-- Watch one value of a format; a poisoned one counts in NONFIN (R393). -/
def histWatch (f : Fmt) (h : Hist) (e : VEl) : Hist :=
  let h := { h with total := satAdd h.total 1 }
  if e.bad then { h with nonfin := satAdd h.nonfin 1 }
  else
    let v := decode f e.v
    match expOf v with
    | none =>
      if v.isFinite then { h with zero := satAdd h.zero 1 } else { h with nonfin := satAdd h.nonfin 1 }
    | some x =>
      let mag : Val := match v with
        | .fin _ m k st => .fin false m k st
        | y => y
      let amax := max h.amax.toNat (round .f32 .rne false mag)
      let h := { h with amax := BitVec.ofNat 32 amax, emax := BitVec.ofNat 16 (ofSigned 16 (max (s16 h.emax) x)) }
      let base := s16 h.base
      if x < base then { h with below := satAdd h.below 1 }
      else if base + 47 < x then { h with above := satAdd h.above 1 }
      else
        let k := (x - base).toNat
        { h with bins := NMap.put 0 h.bins k (satAdd (NMap.getD h.bins k 0) 1) }

/-- Add n events of R212 to NONFIN. -/
def histNonfin (h : Hist) (n : Nat) : Hist := { h with nonfin := satAdd h.nonfin (BitVec.ofNat 32 n) }

def histOf (v : VecUnit) (k : Nat) : Hist :=
  match k with
  | 0 => v.h0 | 1 => v.h1 | 2 => v.h2 | _ => v.h3

def setHist (v : VecUnit) (k : Nat) (h : Hist) : VecUnit :=
  match k with
  | 0 => { v with h0 := h } | 1 => { v with h1 := h } | 2 => { v with h2 := h } | _ => { v with h3 := h }

/-- The units bound to a register watch the values written to it, with n events of R212 (R259). -/
def watchAll (v : VecUnit) (r : Nat) (f : Fmt) (es : List VEl) (n : Nat) : VecUnit :=
  [0, 1, 2, 3].foldl (fun v k =>
    let h := histOf v k
    if h.bind = some r then setHist v k (histNonfin (es.foldl (histWatch f) h) n) else v) v

/-- The 256 bytes of a record (R234). -/
def histBytes (h : Hist) : List Byte :=
  let bin (k : Nat) : Nat := (NMap.getD h.bins k 0).toNat
  leBytes ((h.base.toNat <<< 48) + (h.emax.toNat <<< 32) + h.amax.toNat) 8 ++
  leBytes ((h.zero.toNat <<< 32) + h.nonfin.toNat) 8 ++ leBytes ((h.below.toNat <<< 32) + h.above.toNat) 8 ++
  ((List.range 48).map fun k => leBytes (bin k) 4).flatten ++ leBytes h.total.toNat 8 ++ List.replicate 32 0

/-! ### Encodings (R251, R252, R254) -/

/-- How an encoding is judged: a reason of R260, or none. -/
abbrev VChk := Option Nat

/-- X names a second source: SB = 0 leaves [15] zero. -/
def vvX (f : VvF) : Bool := f.sb == 0 && decide (f.x.toNat ≥ 32)
/-- A function without a second source leaves SB and X zero. -/
def vvNoX (f : VvF) : Bool := f.sb != 0 || f.x != 0

/-- Functions of OP 0x22 and 0x23. -/
def vFloatFn (op fn : Nat) : Bool :=
  if op = 0x22 then decide (fn ≤ 0x0C) || decide (0x10 ≤ fn ∧ fn ≤ 0x13)
  else decide (fn ≤ 3) || decide (6 ≤ fn ∧ fn ≤ 9) || decide (0x10 ≤ fn ∧ fn ≤ 0x13)

/-- Functions that take RM (R252). -/
def vRounds (fn : Nat) : Bool := decide (fn ≤ 5) || fn == 0x0A

/-- Functions of OP 0x26. -/
def vRedFn (fn : Nat) : Bool := decide (fn ≤ 2) || decide (8 ≤ fn ∧ fn ≤ 15)

/-- Element bytes of a conversion format (R253). -/
def cBytes (c : Nat) : Nat := ((CFmt.ofCode c).map CFmt.bits).getD 32 / 8

/-- VLMAX (R244). -/
def vlMax (i : VInstr) : Nat :=
  match i with
  | .vc _ => 2048
  | .vv op f =>
    if op = 0x23 then 2048
    else if op = 0x24 then 4096 / max (cBytes (f.x.toNat % 16)) (cBytes (f.fn.toNat % 16))
    else if op = 0x27 ∧ f.fn = 1 then 2048
    else 1024
  | .vs _ f => if f.fn = 0x10 then 1024 else 2048
  | .vm _ f =>
    if f.fn.toNat % 8 = 2 then 1024
    else match f.w.toNat with
      | 0 => 1024
      | 1 => 2048
      | _ => 4096

/-- The checks of an encoding and of vl at issue (R244, R252, R254, R260). -/
def vChk (i : VInstr) (vl : Nat) : VChk :=
  let excess : Bool × Nat := (decide (vl > vlMax i), 1)
  match i with
  | .vc f =>
    firstReason [(!(f.fn == 0x08 || f.fn == 0x09 || f.fn == 0x0A), 2), (f.rd != 0 || (f.fn == 0x08 && f.rs2 != 0), 4)]
  | .vv op f =>
    let fn := f.fn.toNat
    let rm := f.rm.toNat
    match op.toNat with
    | 0x21 =>
      firstReason [(decide (fn > 0x1E) || rm != 0, 2), (if intArity fn = 1 then vvNoX f else vvX f, 4), excess]
    | 0x22 | 0x23 =>
      firstReason [(!vFloatFn op.toNat fn || decide (rm > 4) || (rm != 0 && !vRounds fn), 2),
        (if floatArity fn = 1 then vvNoX f else vvX f, 4), excess]
    | 0x24 =>
      let src := f.x.toNat % 16
      let dst := fn % 16
      firstReason [((CFmt.ofCode src).isNone || (CFmt.ofCode dst).isNone || src == dst || decide (rm > 4), 2),
        (decide (fn ≥ 32) || decide (f.x.toNat ≥ 16) || f.sb != 0, 4), excess]
    | 0x25 =>
      firstReason [(decide (fn % 16 < 3 ∨ 7 < fn % 16) || decide (fn ≥ 32) || rm != 0, 2), (vvNoX f, 4),
        (f.vd == 31 || f.vs1 == 31, 3), excess, (decide (fn < 16) && vl % 32 != 0, 1)]
    | 0x26 =>
      firstReason [(!vRedFn fn || decide (rm > 3) || (rm != 0 && fn != 0), 2), (vvNoX f, 4), excess]
    | 0x27 =>
      firstReason [(decide (fn > 6) || rm != 0, 2),
        (match fn with
          | 0 => f.sb == 0 || f.vs1 != 0
          | 1 => f.sb == 0 || f.vs1 != 0
          | 2 => vvNoX f || f.vs1 != 0
          | 3 => vvX f
          | 4 => vvX f
          | 5 => f.sb != 0 || vvX f
          | _ => vvNoX f, 4), excess]
    | _ => some 2
  | .vs op f =>
    firstReason [(op != 0x27 || !(f.fn == 0x10 || f.fn == 0x11), 2), (f.rsv != 0, 4), excess]
  | .vm op f =>
    let k := f.fn.toNat % 8
    firstReason [(!(op == 0x28 || op == 0x29) || decide (f.fn.toNat > 0x0A) || decide (k > 2) || f.w == 3, 2),
      (f.rsv != 0 || (k == 0 && f.rt != 0) || (k == 2 && decide (f.rt.toNat ≥ 32)), 4), excess]

/-! ### Element functions -/

/-- The second operand of element i: the broadcast scalar or VS2 (R248, R251). -/
def vSecond (v : VecUnit) (e : VEntry) (f : VvF) (w i : Nat) : VEl :=
  if f.sb = 1 then { v := e.scalar.val.toNat % 2 ^ (8 * w), bad := e.scalar.poison } else vGet v (f.x.toNat % 32) w i

/-- A rounding mode of RM for element i (R216, R251). -/
def vMode (rm : Nat) (seed : DWord) (tile count i : Nat) : RMode :=
  if rm = 4 then .sr (srDraw seed (srKey 4 tile 0 i 0) (BitVec.ofNat 64 count)) else RMode.ofCode rm

/-- Integer element (OP 0x21). -/
def vIntEl (v : VecUnit) (e : VEntry) (f : VvF) (i : Nat) : VEl :=
  let fn := f.fn.toNat
  let a := vGet v f.vs1.toNat 4 i
  let b := if intArity fn = 1 then { v := 0, bad := false } else vSecond v e f 4 i
  let c := if intArity fn = 3 then vGet v f.vd.toNat 4 i else { v := 0, bad := false }
  { v := (intFn 32 fn a.v b.v c.v).getD 0, bad := a.bad || b.bad || c.bad }

/-- Float element (OP 0x22, 0x23). -/
def vFltEl (v : VecUnit) (e : VEntry) (f : VvF) (fmt : Fmt) (seed : DWord) (tile i : Nat) : VEl :=
  let fn := f.fn.toNat
  let w := fmt.bits / 8
  let a := vGet v f.vs1.toNat w i
  let b := if floatArity fn = 1 then { v := 0, bad := false } else vSecond v e f w i
  let c := if floatArity fn = 3 then vGet v f.vd.toNat w i else { v := 0, bad := false }
  { v := (fltFn fmt fn (vMode f.rm.toNat seed tile e.srCount i) a.v b.v c.v).getD 0, bad := a.bad || b.bad || c.bad }

/-- Float format of a conversion code. -/
def cFmt (c : Nat) : Option Fmt :=
  match CFmt.ofCode c with
  | some (.flt f) => some f
  | _ => none

/-- Conversion element (OP 0x24), and whether it is an event of R212. -/
def vConvEl (v : VecUnit) (e : VEntry) (f : VvF) (seed : DWord) (tile i : Nat) : VEl × Bool :=
  let sc := f.x.toNat % 16
  let dc := f.fn.toNat % 16
  let a := vGet v f.vs1.toNat (cBytes sc) i
  match CFmt.ofCode sc, CFmt.ofCode dc with
  | some src, some dst =>
    let m := vMode f.rm.toNat seed tile e.srCount i
    let sat := decide (f.fn.toNat ≥ 16)
    ({ v := convert src dst m sat a.v, bad := a.bad }, !a.bad && countsNonfin src dst m a.v)
  | _, _ => ({ v := 0, bad := a.bad }, false)

/-! ### Block scaling (R229, R254) -/

/-- Destination format of a block-scale code. -/
def mxFmt (c : Nat) : Fmt := (mFloat c).getD .e4m3

/-- Largest exponent of the finite nonzero values of a block (R228). -/
def blockEmax (xs : List VEl) : Option Int := (xs.map fun x => expOf (decode .f32 x.v)).foldl maxExp none

/-- Encode one block of 32 (R229): the scale byte, the elements, and the events of R212. Every element depends on all of the
block through its scale, and so does its poison (R112, R261). -/
def mxEncode (f : Fmt) (xs : List VEl) : Nat × List VEl × Nat :=
  let bad := xs.any (·.bad)
  if xs.any fun x => !(decode .f32 x.v).isFinite then (0xFF, xs.map fun _ => { v := 0, bad := bad }, 0)
  else match blockEmax xs with
    | none => (0x7F, xs.map fun _ => { v := 0, bad := bad }, 0)
    | some em =>
      let x := clampInt (em - f.emax) (-127) 127
      let es := xs.map fun y => { v := round f .rne true (scaleV (-x) (decode .f32 y.v)), bad := bad }
      let excess := (xs.filter fun y => overflows f .rne (scaleV (-x) (decode .f32 y.v))).length
      ((x + 127).toNat, es, if f.inf.isSome then 0 else excess)

/-- Decode one element with its scale byte (R209, R254). -/
def mxDecode (f : Fmt) (scale b : Nat) : Nat :=
  if scale = 255 then Fmt.f32.nan else round .f32 .rne false (scaleV ((scale : Int) - 127) (decode f b))

/-- Read element i of a packed run of w bits of a register (R206). -/
def packedGet (v : VecUnit) (r w i : Nat) : VEl :=
  let bit0 := w * i
  let byte := bit0 / 8
  let a := vGet v r 1 byte
  let b := vGet v r 1 (byte + 1)
  if bit0 % 8 + w ≤ 8 then { v := (a.v >>> (bit0 % 8)) % 2 ^ w, bad := a.bad }
  else { v := ((a.v + 256 * b.v) >>> (bit0 % 8)) % 2 ^ w, bad := a.bad || b.bad }

/-- Bytes of a packed run (R206) with the poison of the elements that they hold. -/
def packedBytes (w : Nat) (es : List VEl) : List VEl :=
  let n := (es.length * w + 7) / 8
  let x := (es.zip (List.range es.length)).foldl (fun x e => x + (e.1.v <<< (w * e.2))) 0
  (List.range n).map fun k =>
    { v := (x >>> (8 * k)) % 256,
      bad := (List.range es.length).any fun i => decide (w * i < 8 * k + 8 ∧ 8 * k < w * i + w) &&
        ((es[i]?).map (·.bad)).getD false }

/-! ### Reductions (R255) -/

/-- Combine optional operands: an absent one yields the other. -/
def optOp (op : VEl → VEl → VEl) (a b : Option VEl) : Option VEl :=
  match a, b with
  | none, y => y
  | x, none => x
  | some x, some y => some (op x y)

/-- The partial result of lane l over elements l, l + 64, … below vl. -/
def lanePart (op : VEl → VEl → VEl) (e : Nat → VEl) (vl l : Nat) : Option VEl :=
  ((List.range ((vl + 63 - l) / 64)).map fun k => some (e (l + 64 * k))).foldl (optOp op) none

/-- One level of the tree: lanes d apart combine. -/
def treeLevel (op : VEl → VEl → VEl) (ps : List (Option VEl)) (d : Nat) : List (Option VEl) :=
  (List.range ps.length).map fun l =>
    if l % (2 * d) = 0 then optOp op ((ps[l]?).getD none) ((ps[l + d]?).getD none) else (ps[l]?).getD none

/-- The procedure of R255 over vl elements. -/
def treeReduce (op : VEl → VEl → VEl) (e : Nat → VEl) (vl : Nat) : Option VEl :=
  let ps := (List.range 64).map (lanePart op e vl)
  (([1, 2, 4, 8, 16, 32].foldl (treeLevel op) ps).head?).getD none

/-- The operation of a reduction function (R252). -/
def redOp (fn : Nat) (mode : RMode) (a b : VEl) : VEl :=
  let v := match fn with
    | 0 => round .f32 mode false (addV (isRdn mode) (decode .f32 a.v) (decode .f32 b.v))
    | 1 => minMaxNum .f32 false a.v b.v
    | 2 => minMaxNum .f32 true a.v b.v
    | 8 => (intFn 32 0x00 a.v b.v 0).getD 0
    | 9 => (intFn 32 0x12 a.v b.v 0).getD 0
    | 10 => (intFn 32 0x11 a.v b.v 0).getD 0
    | 11 => (intFn 32 0x14 a.v b.v 0).getD 0
    | 12 => (intFn 32 0x13 a.v b.v 0).getD 0
    | 13 => a.v &&& b.v
    | 14 => a.v ||| b.v
    | _ => a.v ^^^ b.v
  { v := v, bad := a.bad || b.bad }

end Sys2Proof.Machine
end

