-- ==== Sys2Proof/Machine/UpdateNum.lean ====
section
/-! DEFINITION. Parameter groups and the update formulas (R320 to R325, R332 to R339, R343): the group entries, the layout
of a state region, and one chunk of a pass. -/

namespace Sys2Proof.Machine

/-! ### Group entries (R320, R321, R324) -/

/-- Reset value of a word of a group entry (R321). -/
def groupReset (w : Nat) : DWord :=
  match w with
  | 7 => 0x000000003F800000
  | 8 => 0x3F80000000000000
  | 10 => 0x8000800080000000
  | _ => 0

/-- Word w of the entry of a group. -/
def groupWord (s : State) (gid w : Nat) : DWord := NMap.getD (NMap.getD s.groups gid []) w (groupReset w)

/-- An entry that holds the given words. -/
def groupEntry (ws : Nat → DWord) : GroupEntry :=
  (List.range 16).foldl (fun m w => NMap.put (groupReset w) m w (ws w)) []

def setParams (s : State) (gid : Nat) (ws : Nat → DWord) : State :=
  { s with groups := NMap.put [] s.groups gid (groupEntry ws) }

/-- The entry is assigned to the context. -/
def groupMine (s : State) (gid ctx : Nat) : Bool :=
  bit (groupWord s gid 0) 12 && fld (groupWord s gid 0) 11 0 == ctx

/-- The reset entry, assigned to a context or to none (R322). -/
def groupAssigned (owner : Option Nat) (w : Nat) : DWord :=
  match owner, w with
  | some c, 0 => BitVec.ofNat 64 (4096 + c % 4096)
  | _, _ => groupReset w

/-- Bytes of an element of a state format, of a gradient format and of a weight-output format (R325, R326). -/
def stateWidth (fmt : Nat) : Nat :=
  match fmt with
  | 0 => 4 | 1 => 2 | 2 => 1 | 3 => 1 | _ => 0

def gradWidth (fmt : Nat) : Nat := if fmt = 0 then 4 else 2

def outWidth (fmt : Nat) : Nat :=
  match fmt with
  | 0 => 4 | 1 => 2 | 2 => 2 | 3 => 1 | _ => 0

/-- A reserved code in a field of word 0. -/
def groupReserved (w0 : DWord) : Bool :=
  let st (x : Nat) : Bool := decide (3 < x) && x != 15
  decide (2 < fld w0 62 60) || st (fld w0 55 52) || st (fld w0 51 48) || decide (2 < fld w0 47 44) || st (fld w0 43 40)

/-- The malformed entries of R324. -/
def groupBad (ws : Nat → DWord) : Bool :=
  let w0 := ws 0
  let rsv := fld w0 39 13 != 0 || fld (ws 1) 63 40 != 0 || fld (ws 2) 63 52 != 0 || fld (ws 2) 5 0 != 0 ||
    fld (ws 8) 31 8 != 0 || ws 11 != 0
  let kind := fld w0 62 60
  let none1 := fld w0 55 52 == 15
  let none2 := fld w0 51 48 == 15
  rsv || (bit w0 63 &&
    (groupReserved w0 || fld (ws 1) 39 0 == 0 || fld (ws 2) 51 6 == 0 || (kind == 0 && !none2) ||
      (kind == 1 && (none1 || none2)) || (kind == 2 && (none1 || !none2)) || (bit w0 59 && kind != 0)))

/-- Bytes of a chunk, CB, and chunks of the region (R325). -/
def chunkBytes (w0 : DWord) : Nat :=
  64 * (4 + 4 * fld w0 56 56 + stateWidth (fld w0 55 52) + stateWidth (fld w0 51 48))

def chunkCount (w1 : DWord) : Nat := (fld w1 39 0 + 63) / 64

/-! ### What a group's pass works with (R333, R335 to R338) -/

/-- The fixed figures of a pass over one group. -/
structure UpdP where
  kind : Nat
  nest : Bool
  mcomp : Bool
  sr   : Bool
  s1   : Nat
  s2   : Nat
  gfmt : Nat
  wfmt : Nat
  n    : Nat
  lr   : Word
  wd   : Word
  b1   : Word
  b2   : Word
  eps  : Word
  gmul : Word
  p1   : Word
  p2   : Word
  sc1  : Int
  sc2  : Int
  nsc1 : Int
  nsc2 : Int
  ws   : Int
  gscl : Int
  seed : DWord
  chip : Nat
  pos  : Nat
  step : Nat

/-- The high and the low half of a word. -/
def hi32 (w : DWord) : Word := BitVec.ofNat 32 (fld w 63 32)
def lo32 (w : DWord) : Word := BitVec.ofNat 32 (fld w 31 0)

def one32 : Word := 0x3F800000

def isZero32 (x : Word) : Bool := x.toNat % 2 ^ 31 == 0
def isFinite32 (x : Word) : Bool := fld (x.zeroExtend 64) 30 23 != 255

/-- The trust ratio (R336). -/
def trustRatio (step : Nat) (wn2 un2 tmin tmax : Word) : Word :=
  if step = 0 ∨ isZero32 wn2 ∨ isZero32 un2 then one32
  else
    let q := fdiv .rne (fsqrt .rne wn2) (fsqrt .rne un2)
    if isFinite32 q then
      BitVec.ofNat 32 (minMaxNum .f32 true (minMaxNum .f32 false q.toNat tmin.toNat) tmax.toNat)
    else one32

/-- The new scale of a state (R337), from its format, its EMAX field and its SC. -/
def newScale (fmt emax : Nat) (sc : Int) : Int :=
  if fmt = 2 ∨ fmt = 3 then
    if emax = 0x8000 then sc else clampInt ((if fmt = 2 then 8 else 15) - toSigned 16 emax - 1) (-127) 127
  else 0

/-- The scale of the weight output (R338). -/
def outScale (wfmt emaxw : Nat) : Int :=
  if (wfmt = 2 ∨ wfmt = 3) ∧ emaxw ≠ 0x8000 then
    clampInt ((if wfmt = 2 then 15 else 8) - toSigned 16 emaxw) (-127) 127
  else 0

/-- The figures of a pass, from the group's entry, its list entry and the context's seed. -/
def passOf (e : Nat → DWord) (x : RunEntry) (seed : DWord) : UpdP :=
  let w0 := e 0
  let b1 := hi32 (e 4)
  let b2 := lo32 (e 4)
  let step := fld (e 7) 63 32
  let lr := hi32 (e 3)
  let sc1 := toSigned 8 (fld (e 10) 15 8)
  let sc2 := toSigned 8 (fld (e 10) 7 0)
  { kind := fld w0 62 60, nest := bit w0 59, mcomp := bit w0 56, sr := bit w0 57, s1 := fld w0 55 52,
    s2 := fld w0 51 48, gfmt := fld w0 47 44, wfmt := fld w0 43 40, n := fld (e 1) 39 0,
    lr := if bit w0 58 then fmul .rne lr (trustRatio step (hi32 (e 9)) (lo32 (e 9)) (hi32 (e 6)) (lo32 (e 6))) else lr,
    wd := lo32 (e 3), b1 := b1, b2 := b2, eps := hi32 (e 5), gmul := lo32 (e 5),
    p1 := fmul .rne (lo32 (e 7)) b1, p2 := fmul .rne (hi32 (e 8)) b2, sc1 := sc1, sc2 := sc2,
    nsc1 := newScale (fld w0 55 52) (fld (e 10) 47 32) sc1, nsc2 := newScale (fld w0 51 48) (fld (e 10) 31 16) sc2,
    ws := outScale (fld w0 43 40) (fld (e 10) 63 48), gscl := toSigned 8 (fld x.w0 39 32), seed := seed,
    chip := fld x.w0 13 12, pos := fld x.w0 11 0, step := step }

/-! ### One element (R332 to R335, R338) -/

/-- FP32 bits of an exact value, to nearest-even. -/
def to32 (v : Val) : Word := rnd32 .rne v

/-- A gradient element decoded to FP32 (R332). -/
def gradDecode (fmt : Nat) (s : Int) (b : Nat) : Word :=
  match fmt with
  | 0 => BitVec.ofNat 32 b
  | 1 => BitVec.ofNat 32 (b <<< 16)
  | _ => to32 (scaleV (-s) (decode .f16 b))

/-- A stored state element, decoded (R325, R334); +0 where the format is none. -/
def stateDecode (fmt : Nat) (sc : Int) (b : Nat) : Word :=
  match fmt with
  | 0 => BitVec.ofNat 32 b
  | 1 => BitVec.ofNat 32 (b <<< 16)
  | 2 => to32 (scaleV (-sc) (decode .e4m3 b))
  | 3 => to32 (scaleV (-sc) (decode .e5m2 b))
  | _ => 0

/-- Rounding of the parts of element i: the draw of R335 with SR, else to nearest-even. sub is 0 for the weight output,
1 and 2 for the states. -/
def updMode (p : UpdP) (sub i : Nat) : RMode :=
  if p.sr then
    .sr (srDraw p.seed (srKey 0x5 p.chip 0 p.pos sub) (BitVec.ofNat 64 ((p.step + 1) % 2 ^ 24 * 2 ^ 40 + i)))
  else .rne

/-- A state element as stored with its new scale (R334). -/
def stateEncode (fmt : Nat) (sc : Int) (m : RMode) (x : Word) : Nat :=
  match fmt with
  | 0 => x.toNat
  | 1 => round .bf16 m false (dec32 x)
  | 2 => round .e4m3 m true (scaleV sc (dec32 x))
  | _ => round .e5m2 m true (scaleV sc (dec32 x))

/-- A weight output (R338). -/
def outEncode (p : UpdP) (m : RMode) (w : Word) : Nat :=
  match p.wfmt with
  | 0 => round .f32 m false (dec32 w)
  | 1 => round .bf16 m false (dec32 w)
  | 2 => round .f16 m true (scaleV p.ws (dec32 w))
  | _ => round .e4m3 m true (scaleV p.ws (dec32 w))

/-- The working values of an element: master weight, compensation, first and second state, and the update direction of
one that is not guarded. -/
structure Elem where
  w : Word
  k : Word
  m : Word
  v : Word
  u : Option Word

/-- sgn of R333. -/
def sgn32 (c : Word) : Word :=
  let v := dec32 c
  if v.isNan then 0x7FC00000 else if v.isZero then 0 else if v.neg then 0xBF800000 else one32

/-- The step and the update direction of an element that is not guarded (R333): m, v and u. -/
def direction (p : UpdP) (e : Elem) (g : Word) : Word × Word × Word :=
  let decay := fmul .rne p.wd e.w
  let mix1 (b x : Word) : Word := fadd .rne (fmul .rne b e.m) (fmul .rne (fsub .rne one32 b) x)
  match p.kind with
  | 0 =>
    let m := fadd .rne (fmul .rne p.b1 e.m) g
    let d := if p.nest then fadd .rne g (fmul .rne p.b1 m) else m
    (m, e.v, fadd .rne d decay)
  | 1 =>
    let m := mix1 p.b1 g
    let v := fadd .rne (fmul .rne p.b2 e.v) (fmul .rne (fsub .rne one32 p.b2) (fmul .rne g g))
    let den := fadd .rne (fsqrt .rne (fdiv .rne v (fsub .rne one32 p.p2))) p.eps
    (m, v, fadd .rne (fdiv .rne (fdiv .rne m (fsub .rne one32 p.p1)) den) decay)
  | _ => (mix1 p.b2 g, e.v, fadd .rne (sgn32 (mix1 p.b1 g)) decay)

/-- The update of one element (R332, R333). -/
def updateElem (p : UpdP) (e : Elem) (grad : Nat) : Elem :=
  let g := fmul .rne (gradDecode p.gfmt p.gscl grad) p.gmul
  if isFinite32 g then
    let r := direction p e g
    let u := r.2.2
    let a := fmul .rne p.lr u
    if p.mcomp then
      let y := fsub .rne (fneg a) e.k
      let t := fadd .rne e.w y
      { w := t, k := fsub .rne (fsub .rne t e.w) y, m := r.1, v := r.2.1, u := some u }
    else { e with w := fsub .rne e.w a, m := r.1, v := r.2.1, u := some u }
  else { e with u := none }

/-! ### One chunk (R325, R328) -/

/-- Number of n bytes at offset o of a chunk. -/
def elemAt (bs : List Byte) (o n : Nat) : Nat := leNat (sliceList 0 bs o n)

/-- Offsets in a chunk of the compensation terms, the first states and the second states. -/
def compAt : Nat := 256
def first0 (p : UpdP) : Nat := if p.mcomp then 512 else 256
def second0 (p : UpdP) : Nat := first0 p + 64 * stateWidth p.s1

/-- Element j of a chunk as it stands. -/
def elemOf (p : UpdP) (bs : List Byte) (j : Nat) : Elem :=
  { w := BitVec.ofNat 32 (elemAt bs (4 * j) 4),
    k := if p.mcomp then BitVec.ofNat 32 (elemAt bs (compAt + 4 * j) 4) else 0,
    m := stateDecode p.s1 p.sc1 (elemAt bs (first0 p + stateWidth p.s1 * j) (stateWidth p.s1)),
    v := stateDecode p.s2 p.sc2 (elemAt bs (second0 p + stateWidth p.s2 * j) (stateWidth p.s2)), u := none }

/-- The bytes of one part of a chunk after the step: n bytes an element from offset o on; a guarded element and those
past the group's end keep theirs. -/
def partBytes (bs : List Byte) (o n : Nat) (es : List Elem) (f : Nat → Elem → Nat) : List Byte :=
  ((List.range 64).map fun j =>
    match es[j]? with
    | some e => if e.u.isSome then leBytes (f j e) n else sliceList 0 bs (o + n * j) n
    | none => sliceList 0 bs (o + n * j) n).flatten

/-- Result of a chunk: its state bytes, its output bytes, the elements. -/
structure ChunkOut where
  bytes : List Byte
  out   : List Byte
  elems : List Elem

/-- Update the chunk c of a group, of the given lanes (DEDUCED, notes/assumptions/68.md). -/
def updateChunk (p : UpdP) (c lanes : Nat) (bs grads : List Byte) : ChunkOut :=
  let gw := gradWidth p.gfmt
  let es := (List.range lanes).map fun j => updateElem p (elemOf p bs j) (elemAt grads (gw * j) gw)
  let st (fmt o sub : Nat) (sc : Int) (x : Elem → Word) : List Byte :=
    partBytes bs o (stateWidth fmt) es fun j e => stateEncode fmt sc (updMode p sub (64 * c + j)) (x e)
  { bytes := partBytes bs 0 4 es (fun _ e => e.w.toNat) ++
      (if p.mcomp then partBytes bs compAt 4 es (fun _ e => e.k.toNat) else []) ++
      st p.s1 (first0 p) 1 p.nsc1 (·.m) ++ st p.s2 (second0 p) 2 p.nsc2 (·.v)
    out := (es.zipIdx.map fun e => leBytes (outEncode p (updMode p 0 (64 * c + e.2)) e.1.w) (outWidth p.wfmt)).flatten
    elems := es }

/-! ### Sums, exponents and digests of a pass (R339, R343) -/

/-- Add a term to the running sum of its lane (R255). -/
def laneAdd (m : NMap Word) (l : Nat) (x : Word) : NMap Word :=
  match NMap.find m l with
  | none => NMap.insert m l x
  | some y => NMap.insert m l (fadd .rne y x)

/-- The sum over the lanes by the tree of R255; +0 where every term was absent. -/
def laneTotal (m : NMap Word) : Word :=
  let ps := (List.range 64).map fun l => (NMap.find m l).map fun w => ({ v := w.toNat, bad := false } : VEl)
  match (([1, 2, 4, 8, 16, 32].foldl (treeLevel (redOp 0 .rne)) ps).head?).getD none with
  | some x => BitVec.ofNat 32 x.v
  | none => 0

/-- e of R228 of an FP32 value. -/
def exp32 (x : Word) : Option Int := expOf (dec32 x)

/-- Take an element into a pass. -/
def takeElem (p : UpdP) (a : PassAcc) (j : Nat) (e : Elem) : PassAcc :=
  { a with
    wn2 := laneAdd a.wn2 j (fmul .rne e.w e.w)
    un2 := match e.u with
      | some u => laneAdd a.un2 j (fmul .rne u u)
      | none => a.un2
    emaxW := maxExp a.emaxW (exp32 e.w)
    emax1 := if stateWidth p.s1 = 0 then a.emax1 else maxExp a.emax1 (exp32 e.m)
    emax2 := if stateWidth p.s2 = 0 then a.emax2 else maxExp a.emax2 (exp32 e.v)
    guard := if e.u.isNone then a.guard + 1 else a.guard }

/-- Take a chunk into a pass. Every chunk but the last fills whole digest blocks. -/
def takeChunk (p : UpdP) (a : PassAcc) (r : ChunkOut) : PassAcc :=
  let a := r.elems.zipIdx.foldl (fun a e => takeElem p a e.2 e.1) a
  { a with
    chunk := a.chunk + 1
    digM := (chunksOf 16 (r.elems.map fun e => leBytes e.w.toNat 4).flatten).foldl digestBlock a.digM
    digW := (chunksOf 16 r.out).foldl digestBlock a.digW }

/-- An exponent field: 0x8000 where there is none. -/
def emaxField (x : Option Int) : Nat :=
  match x with
  | some e => ofSigned 16 e
  | none => 0x8000

/-- The entry after an applied step (R339). -/
def entryAfter (p : UpdP) (e : Nat → DWord) (a : PassAcc) (w : Nat) : DWord :=
  let digM := digestClose a.digM (4 * p.n)
  let digW := if outWidth p.wfmt = 0 then 0 else digestClose a.digW (outWidth p.wfmt * p.n)
  match w with
  | 7 => BitVec.ofNat 64 ((((p.step + 1) % 2 ^ 32) <<< 32) + p.p1.toNat)
  | 8 => BitVec.ofNat 64 ((p.p2.toNat <<< 32) + ofSigned 8 p.ws)
  | 9 => BitVec.ofNat 64 (((laneTotal a.wn2).toNat <<< 32) + (laneTotal a.un2).toNat)
  | 10 => BitVec.ofNat 64 ((emaxField a.emaxW <<< 48) + (emaxField a.emax1 <<< 32) + (emaxField a.emax2 <<< 16) +
      (ofSigned 8 p.nsc1 <<< 8) + ofSigned 8 p.nsc2)
  | 12 => BitVec.ofNat 64 (digM.toNat % 2 ^ 64)
  | 13 => BitVec.ofNat 64 (digM.toNat >>> 64)
  | 14 => BitVec.ofNat 64 (digW.toNat % 2 ^ 64)
  | 15 => BitVec.ofNat 64 (digW.toNat >>> 64)
  | _ => e w

end Sys2Proof.Machine
end

