-- ==== Sys2Proof/Machine/Update.lean ====
section
/-! DEFINITION. The update class (R322, R323, R326 to R331, R339 to R341, R344): group commands, update runs and state
moves. -/

namespace Sys2Proof.Machine

/-! ### Holding groups (R329) -/

/-- Another command holds one of the groups. -/
def heldByOther (s : State) (c : CmdRef) (gids : List Nat) : Bool :=
  s.heldGroups.any fun h => gids.contains h.1 && h.2 != c

/-- Take groups at once. -/
def takeGroups (s : State) (c : CmdRef) (gids : List Nat) : State :=
  { s with heldGroups := s.heldGroups.filter (fun h => !(gids.contains h.1 && h.2 == c)) ++ gids.map fun g => (g, c) }

/-- The groups that an update-class command other than UPDATE_RUN names. -/
def updGroups (k : Cmd) : List Nat :=
  let g := fld k.w0 13 0
  if k.opcode = 0x42 then (List.range (fld k.w0 27 16 + 1)).map (g + ·) else [g]

/-- A class R fault halts the command at a tier chip's engine (R64, R331). -/
def updHalted (s : State) (c : CmdRef) (chip : Nat) : Bool := s.halts.any fun h => h.what == .update c chip

/-- The effect of a command of an update opcode with its groups held; it waits for them, and while it is halted. -/
def withGroups (s : State) (k : Cmd) (f : State → Cmd → State) : State :=
  if updHalted s k.ref 0 ∨ heldByOther s k.ref (updGroups k) then s
  else f (takeGroups s k.ref (updGroups k)) k

/-! ### Faults of unit 11 (R59, R330, R331) -/

/-- A fault that an update engine meets for a command: PAGE_NOT_PRESENT halts it, any other is class F. -/
def updFault (s : State) (k : Cmd) (chip code : Nat) (va : DWord) (detail : Nat) : State :=
  if code = pageNotPresent then
    let f := unitFault s 11 k code va (BitVec.ofNat 64 detail)
    raiseHalt f.2 k.ref.ctx f.1 (.update k.ref chip)
  else failF s k 11 code va (BitVec.ofNat 64 detail)

/-- Memory work of a command outside a pass: a wait leaves it as it was. -/
def updMem {α : Type} (s0 : State) (k : Cmd) (r : State × MRes α) (f : State → α → State) : State :=
  match r with
  | (s, .ok a) => f s a
  | (s, .fault c v d) => updFault s k 0 c v d
  | (_, .wait) => s0

/-- A read of n bytes that consumes poison (R394 case 0x03). -/
def updRead (s0 s : State) (k : Cmd) (va n : Nat) (f : State → List Byte → State) : State :=
  updMem s0 k (cReadN s k.ref.ctx va n) fun s r =>
    if r.2.any id then failF s k 11 poisonConsumed (poisonAt va n r.2) 0x03 else f s r.1

/-- Fail under R330 with a group, a reason and a list index. -/
def failGroup (s : State) (k : Cmd) (code gid reason index : Nat) : State :=
  failC s k 11 code 0 (BitVec.ofNat 64 (gid + (reason <<< 16) + (index <<< 24)))

/-! ### GROUP_WRITE (R323) -/

/-- Write the masked words of an entry, but not A and OWNER. -/
def groupWriteHeld (s0 s : State) (k : Cmd) : State :=
  let gid := fld k.w0 13 0
  if !groupMine s gid k.ref.ctx then failGroup s k updateGroupInvalid gid 0x01 0
  else
    updRead s0 s k (fld k.w1 51 0) 128 fun s bs =>
      let img := wordsOf bs
      let ws (w : Nat) : DWord :=
        let old := groupWord s gid w
        let new := if k.w2.toNat.testBit w then nthWord img w else old
        if w = 0 then (new &&& ~~~0x1FFF#64) ||| (old &&& 0x1FFF#64) else new
      if groupBad ws then
        let f := takeFree s
        failC f.2 k 11 updateStateFormat 0 f.1
      else done (setParams s gid ws) k 0

def groupWriteEffect (s : State) (k : Cmd) : State :=
  if bit k.w0 16 then s else withGroups s k (groupWriteHeld s)

/-- GROUP_WRITE, OUT = 0. -/
def execGroupWrite (c : CmdRef) (s : State) : Host.Outcome State Fault Refusal :=
  whenUp s fun s => runCmd s c 0x41 groupWriteEffect

def groupReadHeld (s0 s : State) (k : Cmd) : State :=
  let gid := fld k.w0 13 0
  if !groupMine s gid k.ref.ctx then failGroup s k updateGroupInvalid gid 0x01 0
  else
    let bs := ((List.range 16).map fun w => leBytes (groupWord s gid w).toNat 8).flatten
    updMem s0 k (vWriteN s k.ref.ctx (fld k.w1 51 0) bs) fun s _ => done s k 0

def groupReadEffect (s : State) (k : Cmd) : State :=
  if bit k.w0 16 then withGroups s k (groupReadHeld s) else s

/-- GROUP_WRITE, OUT = 1. -/
def execGroupReadOut (c : CmdRef) (s : State) : Host.Outcome State Fault Refusal :=
  whenUp s fun s => runCmd s c 0x41 groupReadEffect

/-! ### GROUP_ASSIGN (R322) -/

/-- Reset a range of entries, assigned to a context or to none. -/
def resetGroups (s : State) (gids : List Nat) (owner : Option Nat) : State :=
  gids.foldl (fun s g => setParams s g (groupAssigned owner)) s

def groupAssignEffect (s : State) (k : Cmd) : State :=
  if bit k.w0 48 then s
  else withGroups s k fun s k =>
    done (resetGroups s (updGroups k) (some (fld k.w0 43 32))) k (fld k.w0 27 16 + 1)

/-- GROUP_ASSIGN, REL = 0. -/
def execGroupAssign (c : CmdRef) (s : State) : Host.Outcome State Fault Refusal :=
  whenUp s fun s => runCmd s c 0x42 groupAssignEffect

def groupReleaseEffect (s : State) (k : Cmd) : State :=
  if bit k.w0 48 then
    withGroups s k fun s k => done (resetGroups s (updGroups k) none) k (fld k.w0 27 16 + 1)
  else s

/-- GROUP_ASSIGN, REL = 1. -/
def execGroupRelease (c : CmdRef) (s : State) : Host.Outcome State Fault Refusal :=
  whenUp s fun s => runCmd s c 0x42 groupReleaseEffect

/-- Release every group that a context owns (R322, R90 step 6). -/
def releaseGroups (s : State) (ctx : Nat) : State :=
  resetGroups s ((s.groups.filter fun e => groupMine s e.1 ctx).map (·.1)) none

/-! ### Update runs: list and checks (R326, R328, R330) -/

def updRunOf (s : State) (c : CmdRef) : Option UpdRun := s.updRuns.find? fun r => r.cmd == c

/-- Store a run, which replaces that of the same command. -/
def setUpdRun (s : State) (r : UpdRun) : State :=
  { s with updRuns := s.updRuns.filter (fun x => x.cmd != r.cmd) ++ [r] }

def runEntryOf (bs : List Byte) : RunEntry :=
  let ws := wordsOf bs
  { w0 := nthWord ws 0, gva := nthWord ws 1, wva := nthWord ws 2, rva := nthWord ws 3 }

def entryGid (x : RunEntry) : Nat := fld x.w0 13 0

/-- FMTS that the entry of a group asks for (R326). -/
def groupFmts (w0 : DWord) : Nat :=
  (fld w0 47 44 <<< 12) + (fld w0 43 40 <<< 8) + (fld w0 55 52 <<< 4) + fld w0 51 48

/-- The first check of R330 that an entry fails: code and reason. seen are the groups named before it. -/
def entryFault (s : State) (ctx : Nat) (seen : List Nat) (x : RunEntry) : Option (Nat × Nat) :=
  let gid := entryGid x
  let w0 := groupWord s gid 0
  let off (va : DWord) : Bool := va.toNat % 64 != 0
  if !groupMine s gid ctx then some (updateGroupInvalid, 0x01)
  else if !bit w0 63 then some (updateGroupInvalid, 0x02)
  else if seen.contains gid then some (updateGroupInvalid, 0x03)
  else if fld x.w0 63 48 ≠ groupFmts w0 then some (updateStateFormat, 0x01)
  else if fld x.w0 47 40 ≠ 0 ∨ fld x.w0 31 14 ≠ 0 ∨ off x.gva ∨ off x.rva ∨ (fld w0 43 40 ≠ 15 ∧ off x.wva) then
    some (updateStateFormat, 0x02)
  else none

/-- The first failing entry of a list: code, reason, group and index. -/
def listFault (s : State) (ctx : Nat) (seen : List Nat) (index : Nat) (l : List RunEntry) : Option (Nat × Nat × Nat × Nat) :=
  match l with
  | [] => none
  | x :: r =>
    match entryFault s ctx seen x with
    | some (code, reason) => some (code, reason, entryGid x, index)
    | none => listFault s ctx (entryGid x :: seen) (index + 1) r

/-- Go on where every entry passes its checks, else fail the command. -/
def ifListOk (s : State) (k : Cmd) (l : List RunEntry) (f : State → State) : State :=
  match listFault s k.ref.ctx [] 0 l with
  | some (code, reason, gid, index) => failGroup s k code gid reason index
  | none => f s

def updateRunEffect (s : State) (k : Cmd) : State :=
  if (updRunOf s k.ref).isSome ∨ updHalted s k.ref 0 then s
  else if jobFor s k.ref.ctx k.ref.queue = 0 then failC s k 11 badPacket 0 0
  else
    updRead s s k (fld k.w0 51 0) (32 * fld k.w1 14 0) fun s bs =>
      let l := (chunksOf 32 bs).map runEntryOf
      ifListOk s k l fun s =>
        setUpdRun s { cmd := k.ref, step := lo32 k.w2, list := l, phase := .hold, pos := [], acc := [], guard := 0 }

/-- UPDATE_RUN: phase 2, the list and its checks. Its later phases have rows of their own. -/
def execUpdateRun (c : CmdRef) (s : State) : Host.Outcome State Fault Refusal :=
  whenUp s fun s => runCmd s c 0x40 updateRunEffect

/-! ### UPDATE_GROUP_HOLD (R328 phase 3, R329) -/

/-- A run takes its groups, which pass its checks as they stand now. -/
def holdRun (s : State) (k : Cmd) (r : UpdRun) : State :=
  let gids := r.list.map entryGid
  if r.phase ≠ .hold ∨ heldByOther s k.ref gids then s
  else ifListOk s k r.list fun s => setUpdRun (takeGroups s k.ref gids) { r with phase := .agree }

def updateHoldEffect (s : State) (k : Cmd) : State :=
  if k.opcode = 0x40 then
    match updRunOf s k.ref with
    | some r => holdRun s k r
    | none => s
  else if heldByOther s k.ref (updGroups k) then s
  else takeGroups s k.ref (updGroups k)

/-- UPDATE_GROUP_HOLD. -/
def execUpdateGroupHold (c : CmdRef) (s : State) : Host.Outcome State Fault Refusal :=
  whenUp s fun s =>
    match cmdOf s c with
    | some k => if 0x40 ≤ k.opcode.toNat then runCmd s c k.opcode.toNat updateHoldEffect else s
    | none => s

/-! ### UPDATE_AGREE (R328 phases 4 and 5, R340) -/

/-- The agreement flag of a step of a job, once it is final (R381). -/
def finalFlag (s : State) (job : BitVec 20) (step : Word) : Option Bool :=
  match NMap.find s.jobs job.toNat with
  | some j => (j.flags.find? fun e => e.1 == step).map (·.2)
  | none => none

/-- A result record (R327). -/
def resultRecord (s : State) (gid out guard : Nat) : List Byte :=
  let e := groupWord s gid
  leBytes ((out <<< 62) + (gid <<< 48) + (fld (e 8) 7 0 <<< 40) + fld (e 7) 63 32) 8 ++ leBytes (guard % 2 ^ 40) 8 ++
  ([e 12, e 13, e 14, e 15, e 10].map fun w => leBytes w.toNat 8).flatten ++ leBytes 0 8

/-- A fault in the work of a run on a group: DETAIL as R331 lays it out, with the case of a poisoned walk or the
reason in [23:16] (DEDUCED, notes/assumptions/67.md). -/
def chunkFault (s : State) (k : Cmd) (chip gid chunk code : Nat) (va : DWord) (detail : Nat) : State :=
  updFault s k chip code va (gid + (detail <<< 16) + (chunk <<< 28))

/-- Write the result records of a skipped run, from the one at pos on. The engine of no tier chip does it: 4 stands for
the run as a whole in its halts. -/
def skipRecords (s : State) (k : Cmd) (r : UpdRun) (pos : Nat) (l : List RunEntry) : State :=
  match l with
  | [] => done s k (r.list.length + 2 ^ 16)
  | x :: rest =>
    let r := { r with pos := [(0, pos)] }
    match vWriteN s k.ref.ctx x.rva.toNat (resultRecord s (entryGid x) 1 0) with
    | (s, .ok ()) => skipRecords s k r (pos + 1) rest
    | (s, .fault c v d) => chunkFault (setUpdRun s r) k 4 (entryGid x) 0 c v d
    | (_, .wait) => setUpdRun s r

/-- The agreement flag that governs a run, once it is final (R328). -/
def runFlag (s : State) (r : UpdRun) : Option Bool := finalFlag s (jobFor s r.cmd.ctx r.cmd.queue) r.step

/-- The run has passed its commit point: its flag is final while it waits for it, or it works already (R84, R341). -/
def runCommitted (s : State) (c : CmdRef) : Bool :=
  match updRunOf s c with
  | some r => r.phase == .skip || r.phase == .pass || (r.phase == .agree && (runFlag s r).isSome)
  | none => false

def updateAgreeEffect (s : State) (k : Cmd) : State :=
  match updRunOf s k.ref with
  | none => s
  | some r =>
    match r.phase with
    | .agree =>
      (match runFlag s r with
      | some true => skipRecords s k { r with phase := .skip } 0 r.list
      | some false => setUpdRun s { r with phase := .pass }
      | none => s)
    | .skip =>
      let pos := NMap.getD r.pos 0 0
      if updHalted s k.ref 4 then s else skipRecords s k r pos (r.list.drop pos)
    | _ => s

/-- UPDATE_AGREE. -/
def execUpdateAgree (c : CmdRef) (s : State) : Host.Outcome State Fault Refusal :=
  whenUp s fun s => runCmd s c 0x40 updateAgreeEffect


/-! ### What an update engine reads and writes (R19, R313, R325, R331) -/

/-- A place in the slow or far tier of a tier chip (R325). -/
def onChip (chip pa : Nat) : Bool := regionOf pa == .slow chip || regionOf pa == .far chip

/-- Translations of the pieces of an access, in order, with what would refuse a write (R34, R268). -/
def judgePieces (s : State) (ctx : Nat) (acc : Acc) (ps : List (Nat × Nat)) : State × MRes (List Target) :=
  match ps with
  | [] => (s, .ok [])
  | p :: r =>
    match translate s ctx acc (BitVec.ofNat 64 p.1) with
    | (s, .ok t) =>
      if acc = .write ∧ frozenSector s (t.pa / 64) then (s, .fault frozenWrite (dispVa p.1) 0)
      else
        (match judgePieces s ctx acc r with
        | (s, .ok ts) => (s, .ok (t :: ts))
        | (s, .fault c v d) => (s, .fault c v d)
        | (s, .wait) => (s, .wait))
    | (s, .fault c v d) => (s, .fault c v d)
    | (s, .wait) => (s, .wait)

/-- The same for a piece of a state region, whose pages lie on the engine's own chip (R325, R331): a page that does not
faults PAGE_PERMISSION with reason 0x01. -/
def judgeState (s : State) (ctx chip : Nat) (acc : Acc) (ps : List (Nat × Nat)) : State × MRes (List Target) :=
  match judgePieces s ctx acc ps with
  | (s, .ok ts) =>
    (match (ps.zip ts).find? fun e => !onChip chip e.2.pa with
    | some e => (s, .fault pagePermission (dispVa e.1.1) 0x01)
    | none => (s, .ok ts))
  | (s, .fault c v d) => (s, .fault c v d)
  | (s, .wait) => (s, .wait)

/-- An access of a chip's engine beyond the chip finds the tier link down: it completes with poisoned data (R313). -/
def engineLost (s : State) (chip pa : Nat) : Bool := !onChip chip pa && (chipOf s chip).link == .down

/-- An access of a chip's engine beyond the chip crosses the tier link (R313); one of the chip's own memory crosses none
(R19). -/
def engineLink (s : State) (chip pa : Nat) : State := if onChip chip pa then s else tierTraffic s chip

/-- A translated read of an engine within one sector. -/
def engineRead (s : State) (ctx chip : Nat) (t : Target) (va : DWord) (n : Nat) : State × MRes (List Byte × Bool) :=
  if engineLost s chip t.pa then ((freeBytes s n).2, .ok ((freeBytes s n).1, true))
  else readTarget (engineLink s chip t.pa) ctx t va n (near := onChip chip t.pa)

/-- Reads at judged targets, in order, with the poison of each piece. -/
def readJudged (s : State) (ctx chip : Nat) (ps : List ((Nat × Nat) × Target)) : State × MRes (List Byte × List Bool) :=
  match ps with
  | [] => (s, .ok ([], []))
  | p :: r =>
    match engineRead s ctx chip p.2 (BitVec.ofNat 64 p.1.1) p.1.2 with
    | (s, .ok (bs, q)) =>
      (match readJudged s ctx chip r with
      | (s, .ok (cs, qs)) => (s, .ok (bs ++ cs, q :: qs))
      | (s, .fault c v d) => (s, .fault c v d)
      | (s, .wait) => (s, .wait))
    | (s, .fault c v d) => (s, .fault c v d)
    | (s, .wait) => (s, .wait)

/-- A translated write of an engine within one sector. -/
def engineWrite (s : State) (ctx chip : Nat) (t : Target) (va : DWord) (bs : List Byte) (poison : Bool) :
    State × MRes Unit :=
  writeAt (engineLink s chip t.pa) ctx t va bs (poison || engineLost s chip t.pa) false (near := onChip chip t.pa)

/-- Write bytes to judged targets; poison tells by offset whether a piece carries poison. -/
def writeJudged (s : State) (ctx chip va : Nat) (bs : List Byte) (ps : List (Nat × Nat)) (ts : List Target)
    (poison : Nat → Bool := fun _ => false) : State :=
  (ps.zip ts).foldl (fun s e =>
    (engineWrite s ctx chip e.2 (BitVec.ofNat 64 e.1.1) (sliceList 0 bs (e.1.1 - va) e.1.2) (poison (e.1.1 - va))).1) s

/-- Go on with what a memory operation gives, else pass on its fault or wait. -/
def andThen {α β : Type} (r : State × MRes α) (f : State → α → State × MRes β) : State × MRes β :=
  match r with
  | (s, .ok a) => f s a
  | (s, .fault c v d) => (s, .fault c v d)
  | (s, .wait) => (s, .wait)

/-- Judge n bytes at va as an engine reaches them; own says that they are of the state region. -/
def judgeBytes (s : State) (ctx chip : Nat) (own : Bool) (acc : Acc) (va n : Nat) : State × MRes (List Target) :=
  if own then judgeState s ctx chip acc (pieces va n) else judgePieces s ctx acc (pieces va n)

/-- A read of n bytes by an engine. -/
def engineReadN (s : State) (ctx chip : Nat) (own : Bool) (va n : Nat) : State × MRes (List Byte × List Bool) :=
  andThen (judgeBytes s ctx chip own .read va n) fun s ts => readJudged s ctx chip ((pieces va n).zip ts)

/-- Poison may not leave for the companion in a write to judged targets (R394 case 0x04). -/
def sovelPoison (ps : List (Nat × Nat)) (ts : List Target) (va : Nat) (poison : Nat → Bool) : Bool :=
  (ps.zip ts).any fun e => regionOf e.2.pa == .sovel && poison (e.1.1 - va)

/-- A write of bytes by an engine: judged whole before its first byte is written. -/
def engineWriteN (s : State) (ctx chip : Nat) (own : Bool) (va : Nat) (bs : List Byte)
    (poison : Nat → Bool := fun _ => false) : State × MRes Unit :=
  andThen (judgeBytes s ctx chip own .write va bs.length) fun s ts =>
    if sovelPoison (pieces va bs.length) ts va poison then (s, .fault poisonConsumed 0 0x04)
    else (writeJudged s ctx chip va bs (pieces va bs.length) ts poison, .ok ())

/-! ### UPDATE_CHUNK (R328 phase 6, R331, R339) -/


/-- The state of a run and its command after a chunk of a tier chip met a fault. -/
def passMem {α : Type} (s0 : State) (k : Cmd) (chip gid chunk : Nat) (r : State × MRes α) (f : State → α → State) : State :=
  match r with
  | (s, .ok a) => f s a
  | (s, .fault c v d) => chunkFault s k chip gid chunk c v d
  | (_, .wait) => s0

/-- The entries of a tier chip, in list order. -/
def chipList (r : UpdRun) (chip : Nat) : List RunEntry := r.list.filter fun x => entryGid x / 4096 == chip

/-- Every tier chip has ended its entries. -/
def runEnded (r : UpdRun) : Bool := (List.range 4).all fun c => NMap.getD r.pos c 0 == (chipList r c).length

/-- The end of a group: the entry's engine fields, its result record, and the counters of the tier chip (R339, R408);
with the last group the run ends (R326). -/
def endGroup (s0 : State) (k : Cmd) (r : UpdRun) (chip : Nat) (x : RunEntry) (p : UpdP) (a : PassAcc) : State :=
  let gid := entryGid x
  let s := setParams s0 gid (entryAfter p (groupWord s0 gid) a)
  match engineWriteN s k.ref.ctx chip false x.rva.toNat (resultRecord s gid 0 a.guard) with
  | (s, .ok ()) =>
    let s := bump (bump s 7 chip 2 1) 7 chip 3 a.guard
    let r := { r with pos := NMap.insert r.pos chip (NMap.getD r.pos chip 0 + 1), acc := NMap.erase r.acc chip,
                      guard := r.guard + a.guard }
    if runEnded r then done (setUpdRun s r) k (r.list.length + ((r.guard % 2 ^ 40) <<< 24)) else setUpdRun s r
  | (t, .fault c v d) =>
    chunkFault { t with groups := s0.groups } k chip gid (a.chunk - 1) c v d
  | (_, .wait) => s0

/-- One chunk of a group: read, compute, write; a chunk whose writes have been judged is written whole (R341). -/
def runChunk (s0 : State) (k : Cmd) (r : UpdRun) (chip : Nat) (x : RunEntry) (p : UpdP) (a : PassAcc) : State :=
  let gid := entryGid x
  let ctx := k.ref.ctx
  let c := a.chunk
  let lanes := min 64 (p.n - 64 * c)
  let cb := chunkBytes (groupWord s0 gid 0)
  let sva := fld (groupWord s0 gid 2) 51 6 * 64 + c * cb
  let ow := outWidth p.wfmt
  let wva := x.wva.toNat + 64 * c * ow
  let gva := x.gva.toNat + 64 * c * gradWidth p.gfmt
  let sps := pieces sva cb
  let wps := pieces wva (lanes * ow)
  let go {α : Type} (m : State × MRes α) (f : State → α → State) : State := passMem s0 k chip gid c m f
  go (judgeState s0 ctx chip .write sps) fun s sts =>
    go (judgePieces s ctx .write wps) fun s wts =>
      go (engineReadN s ctx chip true sva cb) fun s st =>
        go (engineReadN s ctx chip false gva (lanes * gradWidth p.gfmt)) fun s gr =>
          if st.2.any id then chunkFault s k chip gid c poisonConsumed (poisonAt sva cb st.2) 0x06
          else if gr.2.any id then
            chunkFault s k chip gid c poisonConsumed (poisonAt gva (lanes * gradWidth p.gfmt) gr.2) 0x06
          else
            let o := updateChunk p c lanes st.1 gr.1
            let s := writeJudged (writeJudged s ctx chip sva o.bytes sps sts) ctx chip wva o.out wps wts
            let a := takeChunk p a o
            let r := { r with acc := NMap.insert r.acc chip a }
            let s := setUpdRun s r
            if a.chunk * 64 < p.n then s else endGroup s k r chip x p a

/-- The next chunk of a tier chip's engine. A group whose chunks are written ends, where its record was held back. -/
def chunkEffect (chip : Nat) (s : State) (k : Cmd) : State :=
  match updRunOf s k.ref with
  | none => s
  | some r =>
    if r.phase ≠ .pass ∨ updHalted s k.ref chip then s
    else
      match (chipList r chip)[NMap.getD r.pos chip 0]? with
      | none => s
      | some x =>
        let p := passOf (groupWord s (entryGid x)) x (ctxOf s k.ref.ctx).seed
        let a := NMap.getD r.acc chip .start
        if a.chunk * 64 < p.n then runChunk s k r chip x p a else endGroup s k r chip x p a

/-- UPDATE_CHUNK. -/
def execUpdateChunk (c : CmdRef) (chip : Nat) (s : State) : Host.Outcome State Fault Refusal :=
  whenUp s fun s => if chip < 4 then runCmd s c 0x40 (chunkEffect chip) else s

/-! ### STATE_MOVE (R344) -/

/-- Bytes that a move moves in one block: those read, or free ones where source and destination overlap. -/
def moveBytes (s : State) (src dst n : Nat) (bs : List Byte) : State × List Byte :=
  if src < dst + n ∧ dst < src + n then
    ({ s with freeCtr := s.freeCtr + bs.length },
      bs.zipIdx.map fun e => BitVec.ofNat 8 (Config.freeWord (s.freeCtr + e.2)).toNat)
  else (s, bs)

/-- Move up to fuel blocks from pos on between the state region of a chip and an address (out: the region is the source):
the position reached, the running digest, and how it ended. -/
def moveBlocks (fuel : Nat) (s : State) (ctx chip : Nat) (out : Bool) (src dst n pos : Nat) (dig : BitVec 128) :
    State × (Nat × BitVec 128 × MRes Unit) :=
  match fuel with
  | 0 => (s, (pos, dig, .ok ()))
  | fuel + 1 =>
    if n ≤ pos then (s, (pos, dig, .ok ()))
    else
      let len := min 4096 (n - pos)
      match engineReadN s ctx chip out (src + pos) len with
      | (s, .fault c v d) => (s, (pos, dig, .fault c v d))
      | (s, .wait) => (s, (pos, dig, .wait))
      | (s, .ok (bs, ps)) =>
        let o := moveBytes s src dst n bs
        match fromSrc (src + pos) len ps
            (engineWriteN o.1 ctx chip (!out) (dst + pos) o.2 (movedPoison (src + pos) (dst + pos) len ps)) with
        | (s, .fault c v d) => (s, (pos, dig, .fault c v d))
        | (s, .wait) => (s, (pos, dig, .wait))
        | (s, .ok ()) => moveBlocks fuel s ctx chip out src dst n (pos + len) ((chunksOf 16 o.2).foldl digestBlock dig)

/-- A STATE_MOVE's group, its address, the bytes that it moves, and where its state region stands (R325, R344). -/
structure Move where
  gid : Nat
  va  : Nat
  n   : Nat
  sva : Nat

def moveOf (s : State) (k : Cmd) : Move :=
  let e := groupWord s (fld k.w0 13 0)
  { gid := fld k.w0 13 0, va := fld k.w1 51 0, n := chunkCount (e 1) * chunkBytes (e 0), sva := fld (e 2) 51 6 * 64 }

/-- The position that a move has saved, with its digest so far. -/
def movePos (s : State) (k : Cmd) : Nat × BitVec 128 :=
  match updRunOf s k.ref with
  | some r => (NMap.getD r.pos 0 0, (NMap.getD r.acc 0 .start).digM)
  | none => (0, 0)

/-- Save the position of a move. -/
def saveMove (s : State) (k : Cmd) (pos : Nat) (dig : BitVec 128) : State :=
  setUpdRun s { cmd := k.ref, step := 0, list := [], phase := .hold, pos := [(0, pos)],
                acc := [(0, { PassAcc.start with digM := dig })], guard := 0 }

/-- Up to fuel blocks of a move, from its saved position on. -/
def moveFrom (fuel : Nat) (s : State) (k : Cmd) (m : Move) (out : Bool) : State × (Nat × BitVec 128 × MRes Unit) :=
  moveBlocks fuel s k.ref.ctx (m.gid / 4096) out (if out then m.sva else m.va) (if out then m.va else m.sva) m.n
    (movePos s k).1 (movePos s k).2

/-- A move with its group held: the checks of R330, the bytes, and the digest. -/
def moveHeld (out : Bool) (s0 s : State) (k : Cmd) : State :=
  let x := moveOf s k
  if !groupMine s x.gid k.ref.ctx then failGroup s k updateGroupInvalid x.gid 0x01 0
  else if !bit (groupWord s x.gid 0) 63 then failGroup s k updateGroupInvalid x.gid 0x02 0
  else if x.va % 64 ≠ 0 then failGroup s k updateStateFormat x.gid 0x02 0
  else
    let m := moveFrom (x.n / 4096 + 2) s k x out
    let saved := saveMove m.1 k m.2.1 m.2.2.1
    match m.2.2.2 with
    | .ok () =>
      let dva := fld k.w2 51 0
      if dva = 0 then done m.1 k x.n
      else
        updMem saved k (engineWriteN saved k.ref.ctx (x.gid / 4096) false dva (leBytes (digestClose m.2.2.1 x.n).toNat 16))
          fun s _ => done s k x.n
    | .fault c v d => updFault saved k 0 c v (if c = pagePermission then d <<< 16 else d)
    | .wait => s0

/-- A preempted move has moved some more of its blocks, a free number of them (R85, R87; DESIGN CHOICE,
notes/assumptions/38.md). -/
def moveSome (s : State) (k : Cmd) : State :=
  let x := moveOf s k
  if k.opcode = 0x43 ∧ groupMine s x.gid k.ref.ctx ∧ bit (groupWord s x.gid 0) 63 ∧ x.va % 64 = 0 then
    let m := moveFrom (freeBlocks s x.n) (takeFree s).2 k x (!bit k.w0 16)
    match m.2.2.2 with
    | .ok () => saveMove m.1 k m.2.1 m.2.2.1
    | _ => (takeFree s).2
  else s

def moveOutEffect (s : State) (k : Cmd) : State := if bit k.w0 16 then s else withGroups s k (moveHeld true s)

/-- STATE_MOVE, DIR 0. -/
def execStateMoveOut (c : CmdRef) (s : State) : Host.Outcome State Fault Refusal :=
  whenUp s fun s => runCmd s c 0x43 moveOutEffect

def moveInEffect (s : State) (k : Cmd) : State := if bit k.w0 16 then withGroups s k (moveHeld false s) else s

/-- STATE_MOVE, DIR 1. -/
def execStateMoveIn (c : CmdRef) (s : State) : Host.Outcome State Fault Refusal :=
  whenUp s fun s => runCmd s c 0x43 moveInEffect

end Sys2Proof.Machine
end

