-- ==== Sys2Proof/Machine/Vector.lean ====
section
/-! DEFINITION. The vector engine (R243 to R261): issue into its queue, the length register, histogram control, and the
vector instructions, each executed from the head of the queue. -/

namespace Sys2Proof.Machine

/-! ### Faults of the vector engine (R260) -/

/-- A vector instruction that is judged at issue waits for the earlier ones before it faults. -/
def vFaultOut (s : State) (t : Tile) (pc : DWord) (reason : Nat) : CcOut :=
  if t.vec.queue ≠ [] then .wait s
  else .fault s 4 illegalInstruction (vaOperand pc) (BitVec.ofNat 64 reason)

/-! ### Direct instructions of OP 0x20 (R244, R249, R250) -/

/-- VSETVL (R244): a poisoned request poisons RD. -/
def vsetvlOut (f : CrF) (max_ : Nat) (site : Nat) (s : State) (t : Tile) (pc : DWord) : CcOut :=
  if f.rs2 ≠ 0 then vFaultOut s t pc 4
  else
    let a := ccReg t f.rs1.toNat
    let vl := min a.val.toNat max_
    ccWrite (updTile s site fun t => { t with vec := { t.vec with vl := vl } }) site f.rd.toNat (t64 vl a.poison)

def execVsetvlW32 (site : Site) (f : CrF) (s : State) : Host.Outcome State Fault Refusal :=
  whenUp s fun s => ccStep (srcs := [f.rs1.toNat]) s site true false fun _ s t pc =>
    if f.fn ≠ 0x00 then vFaultOut s t pc 2 else vsetvlOut f 1024 site s t pc

def execVsetvlW16 (site : Site) (f : CrF) (s : State) : Host.Outcome State Fault Refusal :=
  whenUp s fun s => ccStep (srcs := [f.rs1.toNat]) s site true false fun _ s t pc =>
    if f.fn ≠ 0x01 then vFaultOut s t pc 2 else vsetvlOut f 2048 site s t pc

def execVgetvl (site : Site) (f : CrF) (s : State) : Host.Outcome State Fault Refusal :=
  whenUp s fun s => ccStep s site true false fun _ s t pc =>
    if f.fn ≠ 0x02 then vFaultOut s t pc 2
    else if f.rs1 ≠ 0 ∨ f.rs2 ≠ 0 then vFaultOut s t pc 4
    else ccWrite s site f.rd.toNat (t64 t.vec.vl false)

/-- VWAIT (R250). -/
def execVwait (site : Site) (f : CrF) (s : State) : Host.Outcome State Fault Refusal :=
  whenUp s fun s => ccStep s site true false fun _ s t pc =>
    if f.fn ≠ 0x03 then vFaultOut s t pc 2
    else if f.rd ≠ 0 ∨ f.rs1 ≠ 0 ∨ f.rs2 ≠ 0 then vFaultOut s t pc 4
    else if t.vec.queue ≠ [] then .wait s else .next s

/-- Count the element groups of an instruction as eligible work and choose samples; an injection of detector 0x0E makes one a
sample whose check fails, and fires with the verdict (R387, R403, R405). -/
def vSample (s : State) (ctx site : Nat) (pc : DWord) (n : Nat) : State :=
  (List.range n).foldl (fun s i =>
    let bad := sampleArmed s ctx site
    let t := tileOf s site
    let hit := sampled s t.sampleCount || bad
    let x : Sample := { group := none, pc := pc, mask := 0, part := i, bad := bad, age := 0 }
    let s := updTile s site fun t =>
      { t with sampleCount := t.sampleCount + 1, samples := if hit then t.samples ++ [x] else t.samples }
    if hit then bump s 1 site 12 1 else s) s

/-- VMV.XV (R249, R252): the control core waits until the element is available. It is eligible work of one element group
(R387). -/
def execVmvXv (site : Site) (f : VsF) (s : State) : Host.Outcome State Fault Refusal :=
  whenUp s fun s => ccStep (srcs := [f.ri.toNat]) s site true false fun l s t pc =>
    let i := ccReg t f.ri.toNat
    if f.fn ≠ 0x10 then vFaultOut s t pc 2
    else match vChk (.vs 0x27 f) t.vec.vl with
    | some r => vFaultOut s t pc r
    | none =>
      if t.vec.queue ≠ [] then .wait s
      else if i.poison then .fault s 4 poisonConsumed 0 0x02
      else
        let s := vSample s l.ctx site pc 1
        if i.val.toNat ≥ 1024 then ccWrite s site f.rd.toNat T64.zero
        else
          let e := vGet t.vec f.vr.toNat 4 i.val.toNat
          ccWrite s site f.rd.toNat (t64 e.v e.bad)

/-! ### Issue (R247, R248) -/

/-- What an instruction reads from the control core at issue: its scalar or base, and its stride or element index. -/
def vScalars (t : Tile) (i : VInstr) : T64 × T64 :=
  match i with
  | .vc f => (ccReg t f.rs1.toNat, ccReg t f.rs2.toNat)
  | .vv _ f => (if f.sb = 1 then ccReg t f.x.toNat else T64.zero, T64.zero)
  | .vs _ f => (ccReg t f.rd.toNat, ccReg t f.ri.toNat)
  | .vm _ f => (ccReg t f.rb.toNat, if f.fn.toNat % 8 = 1 then ccReg t f.rt.toNat else T64.zero)

/-- Registers that an instruction reads at issue. -/
def vSrcs (i : VInstr) : List Nat :=
  match i with
  | .vc f => [f.rs1.toNat, f.rs2.toNat]
  | .vv _ f => if f.sb = 1 then [f.x.toNat] else []
  | .vs _ f => [f.rd.toNat, f.ri.toNat]
  | .vm _ f => [f.rb.toNat]

/-- The instruction rounds stochastically (R216). -/
def vDraws (i : VInstr) : Bool :=
  match i with
  | .vv _ f => f.rm == 4
  | _ => false

/-- VMV.XV, VSETVL, VGETVL and VWAIT do not pass through the queue (R249, R250). -/
def vDirect (i : VInstr) : Bool :=
  match i with
  | .vc f => decide (f.fn.toNat ≤ 3)
  | .vs op f => op == 0x27 && f.fn == 0x10
  | _ => false

/-- VECTOR_QUEUE_ISSUE (R247, R248). -/
def execVectorQueueIssue (site : Site) (i : VInstr) (s : State) : Host.Outcome State Fault Refusal :=
  whenUp s fun s =>
    if vDirect i then s
    else ccStep (srcs := vSrcs i) s site true false fun _ s t pc =>
      match vChk i t.vec.vl with
      | some r => vFaultOut s t pc r
      | none =>
        if 16 ≤ t.vec.queue.length then .wait s
        else
          let r := vScalars t i
          let e : VEntry := { instr := i, scalar := r.1, stride := r.2, vl := t.vec.vl, pc := pc, srCount := t.vec.srCount }
          .next (updTile s site fun t =>
            { t with vec := { t.vec with queue := t.vec.queue ++ [e], srCount := t.vec.srCount + b2n (vDraws i) } })

/-! ### Execution from the head of the queue -/

/-- What a vector instruction does. -/
inductive VOut where
  | done (s : State)
  | fault (s : State) (code : Nat) (operand detail : DWord)
  | wait

/-- The register code of the vector registers (detector 0x08). -/
def injectVreg (s : State) (ctx site : Nat) (i : VInstr) : State :=
  match i with
  | .vv _ f =>
    (match fireTile s ctx site 0x08 with
    | none => s
    | some m =>
      if m.kind = 0 then tileCorrected m site
      else updTile (tileUncorrected m site) site fun t =>
        { t with vec := vPut t.vec f.vs1.toNat 4 0 { vGet t.vec f.vs1.toNat 4 0 with bad := true } })
  | _ => s

/-- Element groups of an instruction (R247, R387): 64 elements, or 128 where the widest has 16 bits or fewer. -/
def vGroups (i : VInstr) (vl : Nat) : Nat :=
  match i with
  | .vv _ _ => if vlMax i = 1024 then (vl + 63) / 64 else (vl + 127) / 128
  | _ => 1

/-- The opcode of a vector instruction. -/
def vOp (i : VInstr) : Nat :=
  match i with
  | .vc _ => 0x20
  | .vv op _ => op.toNat
  | .vs op _ => op.toNat
  | .vm op _ => op.toNat

/-- Execute the head of the queue, where it is the named instruction. -/
def vRun (s : State) (site : Nat) (i : VInstr) (f : Launch → State → Tile → VEntry → VOut) : State :=
  match runningLaunch s site with
  | none => s
  | some l =>
    match (tileOf s site).vec.queue with
    | [] => s
    | e :: _ =>
      if e.instr ≠ i then s
      else
        let s0 := s
        let s := if 0x21 ≤ vOp i ∧ vOp i ≤ 0x27 then vSample (injectVreg s l.ctx site i) l.ctx site e.pc (vGroups i e.vl) else s
        match f l s (tileOf s site) e with
        | .done s => updTile s site fun t => { t with vec := { t.vec with queue := t.vec.queue.drop 1 } }
        | .fault s code operand detail => tileFault s l site 4 code operand e.pc detail
        | .wait => s0

/-- Write elements 0 to vl − 1 of VD, watched where they are float results (R259). -/
def vStore (s : State) (site vd w : Nat) (fmt : Option Fmt) (es : List VEl) (events : Nat) : State :=
  updTile s site fun t =>
    let v := vPutAll t.vec vd w es
    { t with vec := match fmt with
        | some f => watchAll v vd f es events
        | none => v }

/-- Elements 0 to vl − 1. -/
def vEach (vl : Nat) (f : Nat → VEl) : List VEl := (List.range vl).map f

def execVectorInteger (site : Site) (f : VvF) (s : State) : Host.Outcome State Fault Refusal :=
  whenUp s fun s => vRun s site (.vv 0x21 f) fun _ s t e =>
    .done (vStore s site f.vd.toNat 4 none (vEach e.vl (vIntEl t.vec e f)) 0)

/-- A float function: comparisons are not watched (R259). -/
def vFloatOut (fmt : Fmt) (f : VvF) (site : Nat) (l : Launch) (s : State) (t : Tile) (e : VEntry) : VOut :=
  let seed := (ctxOf s l.ctx).seed
  .done (vStore s site f.vd.toNat (fmt.bits / 8) (if f.fn.toNat ≥ 0x10 then none else some fmt)
    (vEach e.vl (vFltEl t.vec e f fmt seed t.index)) 0)

def execVectorFp32 (site : Site) (f : VvF) (s : State) : Host.Outcome State Fault Refusal :=
  whenUp s fun s => vRun s site (.vv 0x22 f) (vFloatOut .f32 f site)

def execVectorBf16 (site : Site) (f : VvF) (s : State) : Host.Outcome State Fault Refusal :=
  whenUp s fun s => vRun s site (.vv 0x23 f) (vFloatOut .bf16 f site)

def execVectorConversion (site : Site) (f : VvF) (s : State) : Host.Outcome State Fault Refusal :=
  whenUp s fun s => vRun s site (.vv 0x24 f) fun l s t e =>
    let seed := (ctxOf s l.ctx).seed
    let rs := (List.range e.vl).map (vConvEl t.vec e f seed t.index)
    .done (vStore s site f.vd.toNat (cBytes (f.fn.toNat % 16)) (cFmt (f.fn.toNat % 16)) (rs.map (·.1))
      (rs.filter (·.2)).length)

/-- VECTOR_BLOCK_SCALE_ENCODE (R254): the packed elements, and the scale bytes in VD + 1. -/
def execVectorBlockScaleEncode (site : Site) (f : VvF) (s : State) : Host.Outcome State Fault Refusal :=
  whenUp s fun s =>
    if f.fn.toNat ≥ 16 then s
    else vRun s site (.vv 0x25 f) fun _ s t e =>
      let c := f.fn.toNat % 16
      let fmt := mxFmt c
      let blocks := (List.range (e.vl / 32)).map fun b =>
        let xs := (List.range 32).map fun i => vGet t.vec f.vs1.toNat 4 (32 * b + i)
        (mxEncode fmt xs, xs.any (·.bad))
      let es := (blocks.map fun b => b.1.2.1).flatten
      let scales : List VEl := blocks.map fun b => { v := b.1.1, bad := b.2 }
      .done (updTile s site fun t =>
        let v := vPutAll t.vec f.vd.toNat 1 (packedBytes (mWidth c) es)
        let v := vPutAll v (f.vd.toNat + 1) 1 scales
        { t with vec := watchAll v f.vd.toNat fmt es (blocks.map fun b => b.1.2.2).sum })

/-- VECTOR_BLOCK_SCALE_DECODE (R254): its results are not watched (R259). -/
def execVectorBlockScaleDecode (site : Site) (f : VvF) (s : State) : Host.Outcome State Fault Refusal :=
  whenUp s fun s =>
    if f.fn.toNat < 16 then s
    else vRun s site (.vv 0x25 f) fun _ s t e =>
      let c := f.fn.toNat % 16
      .done (vStore s site f.vd.toNat 4 none (vEach e.vl fun i =>
        let x := packedGet t.vec f.vs1.toNat (mWidth c) i
        let sc := vGet t.vec (f.vs1.toNat + 1) 1 (i / 32)
        { v := mxDecode (mxFmt c) sc.v x.v, bad := x.bad || sc.bad }) 0)

/-- VECTOR_REDUCTION (R255). -/
def execVectorReduction (site : Site) (f : VvF) (s : State) : Host.Outcome State Fault Refusal :=
  whenUp s fun s => vRun s site (.vv 0x26 f) fun _ s t e =>
    match treeReduce (redOp f.fn.toNat (RMode.ofCode f.rm.toNat)) (vGet t.vec f.vs1.toNat 4) e.vl with
    | some r => .done (vStore s site f.vd.toNat 4 (if f.fn.toNat ≤ 2 then some .f32 else none) [r] 0)
    | none => .done s

/-! ### Moves (OP 0x27) -/

/-- A move of OP 0x27 with FN fn, element by element at w bytes. -/
def vMove (s : State) (site : Nat) (f : VvF) (fn w : Nat) (g : Tile → VEntry → Nat → VEl) : State :=
  if f.fn.toNat ≠ fn then s
  else vRun s site (.vv 0x27 f) fun _ s t e => .done (vStore s site f.vd.toNat w none (vEach e.vl (g t e)) 0)

def execVbcast (site : Site) (f : VvF) (s : State) : Host.Outcome State Fault Refusal :=
  whenUp s fun s => vMove s site f 0 4 fun t e i => vSecond t.vec e f 4 i

def execVbcastH (site : Site) (f : VvF) (s : State) : Host.Outcome State Fault Refusal :=
  whenUp s fun s => vMove s site f 1 2 fun t e i => vSecond t.vec e f 2 i

def execViota (site : Site) (f : VvF) (s : State) : Host.Outcome State Fault Refusal :=
  whenUp s fun s => vMove s site f 2 4 fun _ _ i => VEl.mk i false

def execVslidedn (site : Site) (f : VvF) (s : State) : Host.Outcome State Fault Refusal :=
  whenUp s fun s => vMove s site f 3 4 fun t e i =>
    let x := vSecond t.vec e f 4 i
    let y := if i + x.v < e.vl then vGet t.vec f.vs1.toNat 4 (i + x.v) else VEl.mk 0 false
    VEl.mk y.v (y.bad || x.bad)

def execVslideup (site : Site) (f : VvF) (s : State) : Host.Outcome State Fault Refusal :=
  whenUp s fun s => vMove s site f 4 4 fun t e i =>
    let x := vSecond t.vec e f 4 i
    let y := if x.v ≤ i then vGet t.vec f.vs1.toNat 4 (i - x.v) else vGet t.vec f.vd.toNat 4 i
    VEl.mk y.v (y.bad || x.bad)

/-- VPERM: a poisoned index element is consumed (R261). -/
def execVperm (site : Site) (f : VvF) (s : State) : Host.Outcome State Fault Refusal :=
  whenUp s fun s =>
    if f.fn.toNat ≠ 5 then s
    else vRun s site (.vv 0x27 f) fun _ s t e =>
      let idx (i : Nat) : VEl := vGet t.vec (f.x.toNat % 32) 4 i
      if (List.range e.vl).any fun i => (idx i).bad then .fault s poisonConsumed 0 0x02
      else .done (vStore s site f.vd.toNat 4 none (vEach e.vl fun i =>
        if (idx i).v < e.vl then vGet t.vec f.vs1.toNat 4 (idx i).v else VEl.mk 0 false) 0)

def execVmov (site : Site) (f : VvF) (s : State) : Host.Outcome State Fault Refusal :=
  whenUp s fun s => vMove s site f 6 4 fun t _ i => vGet t.vec f.vs1.toNat 4 i

/-- VMV.VX: one element, whatever vl; an index of 1,024 or more names none. A poisoned index is consumed (R261). -/
def execVmvVx (site : Site) (f : VsF) (s : State) : Host.Outcome State Fault Refusal :=
  whenUp s fun s =>
    if f.fn ≠ 0x11 then s
    else vRun s site (.vs 0x27 f) fun _ s _ e =>
      if e.stride.poison then .fault s poisonConsumed 0 0x02
      else if e.stride.val.toNat ≥ 1024 then .done s
      else .done (updTile s site fun t =>
        let x : VEl := { v := e.scalar.val.toNat % 2 ^ 32, bad := e.scalar.poison }
        { t with vec := vPut t.vec f.vr.toNat 4 e.stride.val.toNat x })

/-! ### Histogram control (R258) -/

/-- Run a histogram instruction of FN fn from the head of the queue; its scalars are RS1 and RS2, whose poison is consumed
(R261). -/
def vHistRun (s : State) (site : Nat) (f : CrF) (fn : BitVec 8) (g : Launch → State → DWord → DWord → VOut) : State :=
  if f.fn ≠ fn then s
  else vRun s site (.vc f) fun l s _ e =>
    if e.scalar.poison || (fn != 0x08 && e.stride.poison) then .fault s poisonConsumed 0 0x02
    else g l s e.scalar.val e.stride.val

/-- VHBIND. -/
def execVhbind (site : Site) (f : CrF) (s : State) : Host.Outcome State Fault Refusal :=
  whenUp s fun s => vHistRun s site f 0x08 fun _ s w _ =>
    if fld w 3 2 ≠ 0 ∨ fld w 11 9 ≠ 0 ∨ fld w 63 13 ≠ 0 then
      .fault s illegalInstruction (vaOperand (((tileOf s site).vec.queue.head?).map (·.pc) |>.getD 0)) 4
    else .done (updTile s site fun t =>
      let k := fld w 1 0
      { t with vec := setHist t.vec k { histOf t.vec k with bind := if bit w 12 then some (fld w 8 4) else none } })

/-- VHCLR. -/
def execVhclr (site : Site) (f : CrF) (s : State) : Host.Outcome State Fault Refusal :=
  whenUp s fun s => vHistRun s site f 0x0A fun _ s a b =>
    .done (updTile s site fun t =>
      let k := fld a 1 0
      { t with vec := setHist t.vec k { Hist.reset with bind := (histOf t.vec k).bind, base := BitVec.ofNat 16 (fld b 15 0) } })

/-- VHREAD. -/
def execVhread (site : Site) (f : CrF) (s : State) : Host.Outcome State Fault Refusal :=
  whenUp s fun s => vHistRun s site f 0x09 fun l s a b =>
    if b.toNat % 64 ≠ 0 then .fault s misaligned (vaOperand b) 0
    else
      let bs := histBytes (histOf (tileOf s site).vec (fld a 1 0))
      .done ([0, 64, 128, 192].foldl (fun s o => tsWrite s l site (b.toNat + o) (sliceList 0 bs o 64) false) s)

/-! ### Memory (R250, R256, R261) -/

/-- Width in bytes of W. -/
def vmWidth (f : VmF) : Nat :=
  match f.w.toNat with
  | 0 => 4
  | 1 => 2
  | _ => 1

/-- The address of element i (R256), and whether its base, stride or index is poisoned: k is 0 for unit stride, 1 for
strided, 2 for indexed access. -/
def vmAddr (v : VecUnit) (e : VEntry) (f : VmF) (k i : Nat) : DWord × Bool :=
  match k with
  | 0 => (e.scalar.val + BitVec.ofNat 64 (i * vmWidth f), e.scalar.poison)
  | 1 => (e.scalar.val + BitVec.ofNat 64 i * e.stride.val, e.scalar.poison || e.stride.poison)
  | _ =>
    let x := vGet v (f.rt.toNat % 32) 4 i
    (e.scalar.val + (BitVec.ofNat 32 x.v).signExtend 64, e.scalar.poison || x.bad)

/-- A tile-store offset of an element: the address as a number. -/
def vmOff (a : DWord) : Nat := a.toNat

/-- Loads, element by element, ascending; mem selects memory over the tile store, v0 holds the index register as it stood at
the start, and els what has been loaded. A load that misses the L1 needs a miss register (R93). -/
def vLoadEls (mem : Bool) (k : Nat) (f : VmF) (l : Launch) (site : Nat) (v0 : VecUnit) (e : VEntry) (n i : Nat)
    (els : List VEl) (s : State) : VOut :=
  let w := vmWidth f
  let put (s : State) : State := updTile s site fun t => { t with vec := vPutAll t.vec f.vd.toNat w els }
  match n with
  | 0 => .done (put s)
  | n + 1 =>
    let a := vmAddr v0 e f k i
    if a.2 then .fault (put s) poisonConsumed 0 0x02
    else if a.1.toNat % w ≠ 0 then .fault (put s) misaligned (vaOperand a.1) 0
    else if mem then
      match tileLoad s site l.ctx a.1 w with
      | (s, .ok ((bs, p), miss)) =>
        if miss && missFull (tileOf s site) then .wait
        else vLoadEls mem k f l site v0 e n (i + 1) (els ++ [{ v := leNat bs, bad := p }]) s
      | (s, .fault c va d) => .fault (put s) c va (BitVec.ofNat 64 d)
      | (_, .wait) => .wait
    else
      let r := tsRead s l site (vmOff a.1) w
      vLoadEls mem k f l site v0 e n (i + 1) (els ++ [{ v := leNat r.2.1, bad := r.2.2 }]) r.1

/-- Stores, element by element, ascending (R250). -/
def vStoreEls (mem : Bool) (k : Nat) (f : VmF) (l : Launch) (site : Nat) (e : VEntry) (n i : Nat) (s : State) : VOut :=
  match n with
  | 0 => .done s
  | n + 1 =>
    let t := tileOf s site
    let a := vmAddr t.vec e f k i
    let w := vmWidth f
    let x := vGet t.vec f.vd.toNat w i
    if a.2 then .fault s poisonConsumed 0 0x02
    else if a.1.toNat % w ≠ 0 then .fault s misaligned (vaOperand a.1) 0
    else if mem then
      match tileStore s site none l.ctx a.1 (leBytes x.v w) x.bad with
      | (s, .ok ()) => vStoreEls mem k f l site e n (i + 1) s
      | (s, .fault c va d) => .fault s c va (BitVec.ofNat 64 d)
      | (_, .wait) => .wait
    else vStoreEls mem k f l site e n (i + 1) (tsWrite s l site (vmOff a.1) (leBytes x.v w) x.bad)

/-- A load of OP op with FN fn. -/
def vLoad (s : State) (site : Nat) (f : VmF) (op : BitVec 6) (fn : Nat) (mem : Bool) : State :=
  if f.fn.toNat ≠ fn then s
  else vRun s site (.vm op f) fun l s t e => vLoadEls mem (fn % 8) f l site t.vec e e.vl 0 [] s

def vStoreM (s : State) (site : Nat) (f : VmF) (op : BitVec 6) (fn : Nat) (mem : Bool) : State :=
  if f.fn.toNat ≠ fn then s
  else vRun s site (.vm op f) fun l s _ e => vStoreEls mem (fn % 8) f l site e e.vl 0 s

def execVldS (site : Site) (f : VmF) (s : State) : Host.Outcome State Fault Refusal :=
  whenUp s fun s => vLoad s site f 0x28 0x00 false

def execVldSStr (site : Site) (f : VmF) (s : State) : Host.Outcome State Fault Refusal :=
  whenUp s fun s => vLoad s site f 0x28 0x01 false

def execVldSIdx (site : Site) (f : VmF) (s : State) : Host.Outcome State Fault Refusal :=
  whenUp s fun s => vLoad s site f 0x28 0x02 false

def execVstS (site : Site) (f : VmF) (s : State) : Host.Outcome State Fault Refusal :=
  whenUp s fun s => vStoreM s site f 0x28 0x08 false

def execVstSStr (site : Site) (f : VmF) (s : State) : Host.Outcome State Fault Refusal :=
  whenUp s fun s => vStoreM s site f 0x28 0x09 false

def execVstSIdx (site : Site) (f : VmF) (s : State) : Host.Outcome State Fault Refusal :=
  whenUp s fun s => vStoreM s site f 0x28 0x0A false

def execVldM (site : Site) (f : VmF) (s : State) : Host.Outcome State Fault Refusal :=
  whenUp s fun s => vLoad s site f 0x29 0x00 true

def execVldMStr (site : Site) (f : VmF) (s : State) : Host.Outcome State Fault Refusal :=
  whenUp s fun s => vLoad s site f 0x29 0x01 true

def execVldMIdx (site : Site) (f : VmF) (s : State) : Host.Outcome State Fault Refusal :=
  whenUp s fun s => vLoad s site f 0x29 0x02 true

def execVstM (site : Site) (f : VmF) (s : State) : Host.Outcome State Fault Refusal :=
  whenUp s fun s => vStoreM s site f 0x29 0x08 true

def execVstMStr (site : Site) (f : VmF) (s : State) : Host.Outcome State Fault Refusal :=
  whenUp s fun s => vStoreM s site f 0x29 0x09 true

def execVstMIdx (site : Site) (f : VmF) (s : State) : Host.Outcome State Fault Refusal :=
  whenUp s fun s => vStoreM s site f 0x29 0x0A true

end Sys2Proof.Machine
end

