-- ==== Sys2Proof/Machine/Integrity.lean ====
section
/-! DEFINITION. Verdicts of samples, sparing of tile sites, island windows and beat monitors (R387, R397 to R401, R409), and
the events of tier links, CXL devices and DIMMs (R312, R313, R319, R460). -/

namespace Sys2Proof.Machine

/-! ### SAMPLE_VERDICT (R387, R389) -/

/-- The partner of a tile site on its die (R387). -/
def partnerSite (site : Nat) : Nat := if site % 2 = 0 then site + 1 else site - 1

/-- The fault of a failing sample. DETAIL [7:0] is the element group, or a lane that the manual does not name. -/
def sampleFault (s : State) (l : Launch) (site : Nat) (x : Sample) : State :=
  let rest (part : Nat) : DWord := checksumDetail 0x0E (((partnerSite site % 192) <<< 8) + part)
  match x.group with
  | some g =>
    let f := takeFree s
    tileFault f.2 l site 2 checksumUnrecovered 0 x.pc (rest (f.1.toNat % 32)) g x.mask
  | none => tileFault s l site 4 checksumUnrecovered 0 x.pc (rest (x.part % 256))

/-- The launch's fault for a failing sample, while one runs on the site. -/
def failSample (s : State) (site : Nat) (x : Sample) : State :=
  match launchOn s site with
  | some l => sampleFault s l site x
  | none => s

/-- The injection that makes a sample of the site fail fires at its verdict (R403, R405): the context is that of the launch. -/
def fireSample (s : State) (site : Nat) : Option State :=
  match launchOn s site with
  | some l =>
    (fireInjection s fun i => i.det.toNat == 0x0E && i.ctx == l.ctx && i.target.toNat == site).map (·.2)
  | none => none

/-- The verdict of the oldest sample of a site: where it fails, the site that a third computation finds wrong takes a
T3 trigger, and the sampled work faults (DESIGN CHOICE, notes/assumptions/58.md). A sample that differs of itself leaves the
injection armed; an injected failure raises no trigger (R404, R405). -/
def sampleVerdict (s : State) (site : Nat) (differs : Bool) (badSite : Nat) : State :=
  match (tileOf s site).samples with
  | [] => s
  | x :: r =>
    let s := updTile s site fun t => { t with samples := r }
    if differs then
      failSample (if badSite = site ∨ badSite = partnerSite site then trigger s badSite 3 (BitVec.ofNat 64 x.part) .site else s) site x
    else if x.bad then
      match fireSample s site with
      | some s => failSample s site x
      | none => s
    else s

/-- SAMPLE_VERDICT. -/
def execSampleVerdict (site : Site) (differs : Bool) (badSite : Nat) (s : State) : Host.Outcome State Fault Refusal :=
  whenUp s fun s => sampleVerdict s site differs badSite

/-! ### TILE_SITE_SPARE (R399 to R401) -/

/-- A die's logical map and spares, by site on the die, and their change. -/
def siteMap (s : State) (die : Nat) : List Nat × List Nat := if die = 0 then (s.map0, s.spares0) else (s.map1, s.spares1)

def setSiteMap (s : State) (die : Nat) (m : List Nat × List Nat) : State :=
  if die = 0 then { s with map0 := m.1, spares0 := m.2 } else { s with map1 := m.1, spares1 := m.2 }

/-- Log and count a tile site that has left service: kind 2 spared, 3 disabled (R411, R408). -/
def logSpare (s : State) (site kind spare : Nat) : State :=
  let s := logEvent s (site / 192) 0x07 0 0 (BitVec.ofNat 64 (kind + (site <<< 16)))
    (BitVec.ofNat 64 (site + ((spare % 65536) <<< 16))) 0
  bumpLife { s with persist := { s.persist with retiredSites := NSet.add s.persist.retiredSites site } } (site / 192) 3 1

/-- Take a tile site out of service: a spare of its die, which one the manual does not say, takes its logical number;
without a spare it is disabled, and the logical numbers close up. A failing spare site is a spare no more. -/
def retireSite (s : State) (site : Nat) : State :=
  let die := site / 192
  let here := site % 192
  let m := siteMap s die
  let f := takeFree s
  if m.1.contains here then
    match m.2[f.1.toNat % m.2.length]? with
    | some sp =>
      logSpare (setSiteMap f.2 die (m.1.map fun x => if x = here then sp else x, m.2.filter (· != sp))) site 2 (die * 192 + sp)
    | none => logSpare (setSiteMap f.2 die (m.1.filter (· != here), m.2)) site 3 f.1.toNat
  else if m.2.contains here then
    logSpare (setSiteMap f.2 die (m.1, m.2.filter (· != here))) site 3 f.1.toNat
  else s

/-- TILE_SITE_SPARE: a marked site leaves service once it holds no launch. -/
def execTileSiteSpare (site : Site) (s : State) : Host.Outcome State Fault Refusal :=
  whenUp s fun s =>
    if NSet.has s.marked site ∧ (tileOf s site).launch = none then
      retireSite { s with marked := NSet.del s.marked site } site
    else s

/-! ### ISLAND_WINDOW, BEAT_MONITOR_PERIOD (R397, R398, R409) -/

/-- The canary trips that stand at an island, each of which counts toward T5 (R398). -/
def naturalTrips (s : State) (island : Nat) : List Latent :=
  s.latents.filter fun l => l.det.toNat == 0x13 && l.target == island

/-- The steps of an island meet its canary trips (detector 0x13): those of the hardware first, else an injected one, which
counts toward no trigger (R404, R405). -/
def canaryTrips (s : State) (island : Nat) : State :=
  if noFaults s then s
  else if naturalTrips s island = [] then
    match fireInjection s fun i => i.det.toNat == 0x13 && i.target.toNat == island with
    | some (_, s) => bump s 6 island 1 1
    | none => s
  else
    let t := { s with latents := s.latents.filter fun l => !(l.det.toNat == 0x13 && l.target == island) }
    (naturalTrips s island).foldl (fun s _ => noteCanary s island) t

/-- ISLAND_WINDOW: the counts of the window toward triggers start again. -/
def execIslandWindow (island : Nat) (s : State) : Host.Outcome State Fault Refusal :=
  whenUp s fun s =>
    if island < 412 then
      let s := canaryTrips s island
      setIsland s island { islandOf s island with cells := [], checks := [], arrays := [], trips := 0 }
    else s

/-- A fault of the hardware that has no row of its own: one of a detector that meets it at its events, of a KIND that it
finds. -/
def latentOk (l : Latent) : Bool :=
  let d := l.det.toNat
  d != 0x0A && d != 0x0E && d != 0x11 && d != 0x14 && (injectKinds d).contains l.kind.toNat

/-- BEAT_MONITOR_PERIOD: the measured count of each island named; the faults that arise in the period wait for their detectors
(DESIGN CHOICE, notes/assumptions/43.md). -/
def execBeatMonitorPeriod (b : BeatIn) (s : State) : Host.Outcome State Fault Refusal :=
  whenUp s fun s =>
    b.counts.foldl (fun s c =>
      if c.1 < 412 then setCounter (canaryTrips s c.1) 6 c.1 3 (BitVec.ofNat 64 c.2) else s)
      { s with latents := s.latents ++ b.faults.filter latentOk }

/-! ### Tier links, CXL devices and DIMMs -/

/-- TIER_LINK_FLIT_RETRY (R312, R313, R408). -/
def execTierLinkFlitRetry (chip : Nat) (s : State) : Host.Outcome State Fault Refusal :=
  whenUp s fun s => if chip < 4 ∧ (chipOf s chip).link ≠ .down then tierRetry s chip else s

/-- TIER_LINK_RETRAIN (R313): on a pair of lanes that trains, else down until the next module reset. -/
def execTierLinkRetrain (chip : Nat) (pair01 pair23 : Bool) (s : State) : Host.Outcome State Fault Refusal :=
  whenUp s fun s => if chip < 4 ∧ (chipOf s chip).link ≠ .down then retrainTier s chip pair01 pair23 else s

/-- CXL_DEVICE_LOST (R319): the device's range acts as behind a link that is down. -/
def execCxlDeviceLost (port : Nat) (s : State) : Host.Outcome State Fault Refusal :=
  whenUp s fun s =>
    let t := chipOf s port
    if port < 4 ∧ t.cxl ≠ 0 ∧ !t.cxlLost then logTierFree (setChip s port { t with cxlLost := true }) port 2 else s

/-- CXL_MEDIA_ERROR_REPORT (R319): the error is counted, and its frame is marked for retirement. -/
def execCxlMediaErrorReport (port devAddr : Nat) (s : State) : Host.Outcome State Fault Refusal :=
  whenUp s fun s =>
    if port < 4 ∧ !(chipOf s port).cxlLost ∧ devAddr < farBytes s port then
      let pa := 0x040000000000 + port * 0x40000000000 + devAddr
      markRetire (bumpLife (countFinding s pa 1) (port / 2) 1 1) pa 0x03
    else s

/-- DIMM_THERMAL_LIMIT (R460): half the command rate from 95 °C on, until the DIMM reports 90 °C or less. -/
def execDimmThermalLimit (dimm : Nat) (temp : Int) (s : State) : Host.Outcome State Fault Refusal :=
  whenUp s fun s =>
    let c := dimm / 2
    let s := if dimm < 8 then { s with power := { s.power with dimmT := NMap.insert s.power.dimmT dimm temp } } else s
    let t := chipOf s c
    let fitted := if dimm % 2 = 0 then t.dimmA else t.dimmB
    let slow := if dimm % 2 = 0 then t.slowA else t.slowB
    let new := if 95 ≤ temp then true else if temp ≤ 90 then false else slow
    if dimm < 8 ∧ fitted ≠ 0 ∧ new ≠ slow then
      logTier (setChip s c (if dimm % 2 = 0 then { t with slowA := new } else { t with slowB := new })) c (dimm % 2) 0x10
    else s

end Sys2Proof.Machine
end

