-- ==== Sys2Proof/Machine/Slices.lean ====
section
/-! DEFINITION. The home slices and their channels as units of their own (R282 to R309): requests, miss registers,
queues and credits, evictions, reductions' buffers and order, regulators, the partition control block, refresh, patrol,
row repair and frame retirement. -/

namespace Sys2Proof.Machine

/-! ### What a slice answers (R291, R299, R304, R306) -/

/-- A request that reads the sector (R306). -/
def readsOp (o : SliceOp) : Bool :=
  match o with
  | .read | .atomic .. | .reduce .. | .reduceLanes .. => true
  | .write _ | .deadHint => false

/-- Sectors that a request writes: one, or the line of a dead hint (R304). -/
def writtenSectors (r : SliceReq) : List Nat :=
  match r.op with
  | .read => []
  | .deadHint => (List.range 4).map (r.pa / 256 * 4 + ·)
  | _ => [r.pa / 64]

/-- A request is a write that meets a frozen sector (R268). -/
def meetsFreeze (s : State) (r : SliceReq) : Bool := (writtenSectors r).any (frozenSector s)

/-- A fault of a request at its home, in the name of its issuer; only the thread-group unit and the array name a group and a
mask (R58). -/
def reqFault (s : State) (r : SliceReq) (code : Nat) (operand : DWord) : State :=
  let lanes := r.info.unit = 2 ∨ r.info.unit = 3
  raiseFault s r.ctx .f
    { r.info with code := BitVec.ofNat 8 code, operand := operand, detail := 0, group := if lanes then r.info.group else 0
                  mask := if lanes then r.info.mask else 0 }

/-- A write that reaches a frozen sector is not performed and faults (R268, R304). -/
def refuseFrozen (s : State) (r : SliceReq) : State := reqFault s r frozenWrite (r.info.operand &&& 0xFFFFFFFFFFFFF#64)

/-- A read of a sector that a transfer has just brought to the slice: a miss, whose line is allocated by the cache policy;
the transfer itself has been charged (R288, R297). -/
def touchMoved (s : State) (pa cp part : Nat) : State :=
  if sliceHolds pa then
    let s := endFill (bump s 2 (homeSlice s pa) 1 1) (pa / 256) 5
    fillSector (if cp = 0 ∨ (orderedAt s pa).isSome then allocLine s pa part else s) pa
  else s

/-- A read of a request at its home, moved saying that a transfer has brought the sector. -/
def readReq (s : State) (r : SliceReq) (cp : Nat) (moved : Bool) : State :=
  if moved then touchMoved (homeFindings s r.ctx r.pa r.part) r.pa cp r.part else readHome s r.ctx r.pa r.bytes cp r.part

/-- Perform a request in the order of its line: the state, and the answer where it has one. A dead sector faults in the
reading context and returns no data (status of R368); a write judges freezes when its turn has come (R268). -/
def performReq (s : State) (r : SliceReq) (moved : Bool := false) : State × Option Answer :=
  let answer (bs : List Byte) (p : Bool) (status : Byte) : Option Answer :=
    some { requester := r.requester, data := bs, poison := p, status := status }
  if meetsFreeze s r then (refuseFrozen s r, none)
  else if readsOp r.op ∧ NSet.has s.dead (r.pa / 64) then
    (reqFault s r deadLineRead (r.info.operand &&& 0xFFFFFFFFFFFC0#64), answer [] false 0x05)
  else match r.op with
    | .read =>
      let d := readAt (readReq s r r.cp.toNat moved) r.pa r.bytes
      (d.1, answer d.2.1 d.2.2 0)
    | .write data =>
      (cohWrite (writeHome s r.ctx r.pa data.length (r.cp == 0) r.part) r.pa data r.poison (r.cp == 0) r.part, answer [] false 0)
    | .atomic fn v cmp =>
      let d := readAt (readReq (endFill s (r.pa / 256) 4) r 1 moved) r.pa r.bytes
      let old := leNat d.2.1
      let new := (atomFn (8 * r.bytes) fn.toNat old (v.toNat % 2 ^ (8 * r.bytes)) (cmp.toNat % 2 ^ (8 * r.bytes))).getD old
      (cohWrite (rmwBack d.1 r.pa r.part) r.pa (leBytes new r.bytes) (r.poison || d.2.2) false r.part, answer d.2.1 d.2.2 0)
    | .reduce .. | .reduceLanes .. => (takeReduce s r, none)
    | .deadHint => (deadHintAt s (anySetting s r.ctx).deadchk r.pa, none)

/-! ### Miss registers, waiters and queues (R297, R298) -/

def sliceOf (s : State) (r : SliceReq) : Nat := homeSlice s r.pa

/-- A request that the slice forwards over a tier link or the Sovel link. -/
def forwarded (r : SliceReq) : Bool := !sliceHolds r.pa

/-- Miss registers of a slice: all, forwarded, and the general ones of one bank. -/
def missesOf (s : State) (slice : Nat) : List (Nat × Miss) := s.misses.filter fun e => homeSlice s (e.1 * 64) == slice
def missesIn (s : State) (slice bank : Nat) : Nat :=
  ((missesOf s slice).filter fun e => !e.2.fwd && bankOf (e.1 * 64) == bank).length
def fwdMisses (s : State) (slice : Nat) : Nat := ((missesOf s slice).filter fun e => e.2.fwd).length

/-- The register kept for the oldest waiting request is in use (R298). -/
def keptUsed (s : State) (slice : Nat) : Bool := (missesOf s slice).any fun e => e.2.kept

/-- How a request fares with the miss registers of its slice: it has one or a waiter, no register is to be had, or no
waiter. -/
inductive Taken where
  | taken (s : State)
  | noRegister
  | noWaiter

/-- Take a miss register or a waiter for a request (R297). A bank holds at most 160 of the 1,279 general registers and
forwarded requests at most 320; oldest says that the request may use the register and the waiter kept for the oldest one
(R298). -/
def tryMiss (s : State) (r : SliceReq) (oldest : Bool) : Taken :=
  let slice := sliceOf s r
  let k := r.pa / 64
  match NMap.find s.misses k with
  | some m =>
    if waitersUsed s slice < 4095 + (if oldest then 1 else 0) then
      let s := { s with misses := NMap.insert s.misses k { m with waiters := m.waiters ++ [r] } }
      .taken (keepMax s 2 slice 11 (waitersUsed s slice))
    else .noWaiter
  | none =>
    let put (kept : Bool) : Taken :=
      .taken { s with misses := NMap.insert s.misses k { fwd := forwarded r, kept := kept, waiters := [r] } }
    let general := decide (((missesOf s slice).filter fun e => !e.2.kept).length < 1279) &&
      (forwarded r || decide (missesIn s slice (bankOf r.pa) < 160))
    if forwarded r && decide (320 ≤ fwdMisses s slice) then .noRegister
    else if general then put false
    else if oldest && !keptUsed s slice then put true
    else .noRegister

/-- Waiting requests of a slice's bank queue, or transit queue, that the request would join. -/
def queueOfReq (s : State) (r : SliceReq) : List Waiting :=
  s.bankQ.filter fun q =>
    sliceOf s q.req == sliceOf s r && forwarded q.req == forwarded r && (forwarded r || bankOf q.req.pa == bankOf r.pa)

/-- An earlier request of the requester to the address was refused, and the requester still holds it (R298, 3). -/
def behindOwn (s : State) (r : SliceReq) : Bool :=
  s.refused.any fun q => q.req.requester == r.requester && q.req.pa / 64 == r.pa / 64

/-- A request joins its queue, one of whose 16 places is kept for the oldest refused request, or is refused (R298). -/
def queueOrRefuse (s : State) (r : SliceReq) : State :=
  if (queueOfReq s r).length < 15 then
    { s with bankQ := s.bankQ ++ [{ num := s.reqCtr, req := r, joined := [] }], reqCtr := s.reqCtr + 1 }
  else refuseReq s r

/-- A request joins another for its sector that waits in a queue (R297). -/
def joinWaiting (s : State) (q : Waiting) (r : SliceReq) : State :=
  let slice := sliceOf s r
  if waitersUsed s slice < 4095 then
    let s := { s with bankQ := s.bankQ.map fun w => if w.num = q.num then { w with joined := w.joined ++ [r] } else w }
    keepMax s 2 slice 11 (waitersUsed s slice)
  else refuseReq s r

/-- The line at pa is held. -/
def held (s : State) (pa : Nat) : Bool := (NMap.find s.lines (pa / 256)).isSome

/-- A request that a line answers, or that the slice takes without a transfer of its own: every request forwarded moves
over a link, and one that passes to the channel moves a sector there (R288, R297). A reduction to a line that is not held
goes to the adder (R301). -/
def noTransfer (s : State) (r : SliceReq) : Bool :=
  !forwarded r && (match r.op with
    | .read => sliceHit s r.pa r.bytes
    | .atomic .. => sliceHit s r.pa r.bytes
    | .write _ => held s r.pa || r.cp == 0
    | _ => true)

/-- The request that r's sector waits on: the sector of a dead hint is the first of its line that has one. -/
def sectorBefore (s : State) (r : SliceReq) : Nat :=
  match r.op with
  | .deadHint =>
    ((writtenSectors r).find? fun k => (NMap.find s.misses k).isSome || s.bankQ.any fun q => q.req.pa / 64 == k).getD (r.pa / 64)
  | _ => r.pa / 64

/-- Take a request (R297, R298): it joins the waiters of its sector where a miss register holds the sector or a request
waits for one; else it is performed at once where it needs no transfer, and takes a miss register where it does (DESIGN
CHOICE, notes/assumptions/51.md). -/
def takeReq (s : State) (r : SliceReq) : State :=
  let k := sectorBefore s r
  if behindOwn s r then refuseReq s r
  else match NMap.find s.misses k with
  | some m =>
    if waitersUsed s (sliceOf s r) < 4095 then
      let s := { s with misses := NMap.insert s.misses k { m with waiters := m.waiters ++ [r] } }
      keepMax s 2 (sliceOf s r) 11 (waitersUsed s (sliceOf s r))
    else refuseReq s r
  | none =>
    match s.bankQ.find? fun q => q.req.pa / 64 == k with
    | some q => joinWaiting s q r
    | none =>
      if noTransfer s r then
        let p := performReq s r
        { p.1 with reply := .slice p.2.toList }
      else match tryMiss s r false with
        | .taken s => s
        | .noRegister => queueOrRefuse s r
        | .noWaiter => refuseReq s r

/-- A request within one sector. -/
def reqShape (r : SliceReq) : Bool := decide (1 ≤ r.bytes ∧ r.pa % 64 + r.bytes ≤ 64)

/-- SLICE_REQUEST. A hole has no home slice: the manual gives an access to one no behaviour. -/
def execSliceRequest (r : SliceReq) (s : State) : Host.Outcome State Fault Refusal :=
  match s.run with
  | .up =>
    match regionOf r.pa with
    | .hole => .fault (.hole r.pa)
    | .regs => .next s
    | _ => .next (if !reqShape r then s else if meetsFreeze s r then refuseFrozen s r else takeReq (linkFindings s r.pa) r)
  | _ => .next s

/-- The oldest waiting or refused request of a slice (R298). -/
def oldestOf (s : State) (slice : Nat) : Option Waiting :=
  ((s.bankQ ++ s.refused).filter fun q => sliceOf s q.req == slice).foldl (fun (b : Option Waiting) q =>
    match b with
    | some x => if q.num < x.num then some q else b
    | none => some q) none

/-- The request is the oldest of its slice. -/
def isOldest (s : State) (q : Waiting) : Bool :=
  match oldestOf s (sliceOf s q.req) with
  | some x => x.num == q.num
  | none => true

/-- The oldest refused request of a slice is sent again; where it is the oldest of the slice it may take the kept places
(R298). -/
def execCreditReturn (slice : Nat) (s : State) : Host.Outcome State Fault Refusal :=
  whenUp s fun s =>
    match s.refused.find? fun q => sliceOf s q.req == slice with
    | none => s
    | some q =>
      let oldest := isOldest s q
      let s' := { s with refused := s.refused.erase q }
      let n := if oldest then 16 else 15
      match s'.bankQ.find? fun w => w.req.pa / 64 == q.req.pa / 64 with
      | some w =>
        if waitersUsed s' slice < 4095 + (if oldest then 1 else 0) then
          { s' with bankQ := s'.bankQ.map fun x => if x.num = w.num then { x with joined := x.joined ++ [q.req] } else x }
        else s
      | none =>
        if (NMap.find s'.misses (q.req.pa / 64)).isNone && noTransfer s' q.req then
          let p := performReq s' q.req
          { p.1 with reply := .slice p.2.toList }
        else match tryMiss s' q.req false with
          | .taken s => s
          | _ =>
            match tryMiss s' q.req oldest with
            | .taken s => bump s 2 slice 4 1
            | .noWaiter => s
            | .noRegister =>
              let len := (queueOfReq s' q.req).length
              if len < n then bump { s' with bankQ := s'.bankQ ++ [q] } 2 slice 4 (if len = 15 then 1 else 0) else s

/-! ### Transfers (R296, R297) -/

/-- Answer the waiters of a sector in order. -/
def answerAll (s : State) (l : List SliceReq) (moved : Bool) : State × List Answer :=
  l.foldl (fun acc r =>
    let p := performReq acc.1 r moved
    (p.1, acc.2 ++ p.2.toList)) (s, [])

/-- Waiting requests of a slice that a freed register lets in, in the order of their arrival, each with those that have
joined it; the oldest may take the kept register (R298). -/
def drainQueues (s : State) (slice : Nat) : State :=
  (s.bankQ.filter fun q => sliceOf s q.req == slice).foldl (fun s q =>
    let give (s : State) : State :=
      match NMap.find s.misses (q.req.pa / 64) with
      | some m => { s with misses := NMap.insert s.misses (q.req.pa / 64) { m with waiters := m.waiters ++ q.joined } }
      | none => s
    let s' := { s with bankQ := s.bankQ.erase q }
    match tryMiss s' q.req false with
    | .taken s => give s
    | _ =>
      if isOldest s q then
        match tryMiss s' q.req true with
        | .taken s => bump (give s) 2 slice 4 1
        | _ => s
      else s) s

/-- Partitions with general transfers waiting in the miss registers of a slice, lowest first (R296). -/
def waitingParts (s : State) (slice : Nat) : List Nat :=
  (missesOf s slice).foldl (fun l e => match e.2.fwd, e.2.waiters with
    | false, r :: _ => NSet.add l r.part
    | _, _ => l) []

/-- The partition of a channel whose turn it is by weighted round robin (R296): each in turn has WEIGHT slots, of the
partitions that hold credits and have requests waiting. turn holds the partition served last and the slots it has had. -/
def grantTurn (s : State) (slice : Nat) : Option (Nat × Nat) :=
  let ready := (waitingParts s slice).filter (creditLeft s slice)
  let at_ := NMap.getD s.chanTurn slice (63, 0)
  let weight (p : Nat) : Nat := fld (partOf s p).w0 52 49
  if ready.contains at_.1 && decide (at_.2 < weight at_.1) then some (at_.1, at_.2 + 1)
  else match ready.find? (fun p => decide (at_.1 < p)) with
    | some p => some (p, 1)
    | none => ready.head?.map fun p => (p, 1)

/-- A general transfer may use the next sector slot of its channel: its partition holds a credit, and its turn has come
where several partitions wait (R296). -/
def granted (s : State) (slice part : Nat) : Bool :=
  match grantTurn s slice with
  | some t => t.1 == part
  | none => false

/-- The request whose transfer a miss register holds reads the sector. -/
def fetches (m : Miss) : Option SliceReq :=
  match m.waiters with
  | r :: _ => (match r.op with
    | .read | .atomic .. => some r
    | _ => none)
  | [] => none

/-- The finding that the transfer of a sector meets: one that the hardware has, else an injected one of the context that
reads it first (R405). -/
def transferFinding (s : State) (r : SliceReq) (fnd : Finding) : State :=
  match regionOf r.pa, fnd with
  | .sovel, _ => s
  | _, .clean => if noFaults s || tierLost s r.pa then s else memoryFinding s r.ctx r.pa
  | _, f => noteFinding s (r.pa / 64 * 64) f

/-- A transfer that fetches a sector: it is charged, and meets what its detector finds. -/
def fetchTransfer (s : State) (r : SliceReq) (fnd : Finding) : State :=
  transferFinding (if sliceHolds r.pa then useCredits (adderYield s (r.pa / 64)) (homeSlice s r.pa) r.part 1 else s) r fnd

/-- CHANNEL_TRANSFER_COMPLETE: a transfer completes where its partition is granted the slot, or its link is up, and the
slice answers every waiter in order. -/
def execChannelTransferComplete (sector : Nat) (fnd : Finding) (s : State) : Host.Outcome State Fault Refusal :=
  whenUp s fun s =>
    match NMap.find s.misses sector with
    | none => s
    | some m =>
      let pa := sector * 64
      let slice := homeSlice s pa
      let part := match m.waiters with
        | r :: _ => r.part
        | [] => 63
      if (!m.fwd && !granted s slice part) || (regionOf pa == .sovel && !linkUp s) then s
      else
        let s := match m.fwd, grantTurn s slice with
          | false, some t => { s with chanTurn := NMap.insert s.chanTurn slice t }
          | _, _ => s
        let s := match fetches m with
          | some r => fetchTransfer s r fnd
          | none => s
        let p := answerAll { s with misses := NMap.erase s.misses sector } m.waiters (fetches m).isSome
        drainQueues { p.1 with reply := .slice p.2 } slice

/-! ### Evictions, adders, ordered reductions (R295, R301 to R303) -/

/-- SLICE_EVICTION: the line is written back whole, or a speculative fill of it ends; a line of an ordered range is no
candidate (R295). -/
def execSliceEviction (line : Nat) (s : State) : Host.Outcome State Fault Refusal :=
  whenUp s fun s => if (orderedAt s (line * 256)).isSome then s else evictLine s line

/-- ADDER_BUFFER_TIMEOUT: the sector is written back (R301). -/
def execAdderBufferTimeout (sector : Nat) (s : State) : Host.Outcome State Fault Refusal :=
  whenUp s fun s => adderYield s sector

/-- ORDERED_REDUCTION_APPLY: the waiting request of the tile whose turn it is. A frozen sector refuses it (R268), and NEXT stays
(DESIGN CHOICE, notes/assumptions/51.md); that of a context that no longer runs is held (R26). -/
def execOrderedReductionApply (sector : Nat) (s : State) : Host.Outcome State Fault Refusal :=
  whenUp s fun s =>
    match orderedAt s (sector * 64) with
    | none => s
    | some cnt =>
      let next := NMap.getD s.nexts sector 0
      match s.turns.find? fun r => r.pa / 64 == sector && r.agent == next with
      | none => s
      | some r =>
        let s' := { s with turns := s.turns.erase r }
        if (ctxOf s r.ctx).state ≠ .active ∧ (ctxOf s r.ctx).state ≠ .suspended then s
        else if meetsFreeze s r then refuseFrozen s' r
        else
          let s := applyReduce s' r
          { s with nexts := NMap.put 0 s.nexts sector ((next + 1) % cnt) }

/-! ### Regulators and occupancy (R296, R409) -/

/-- Add one to a packed counter of w bits at place i of the words from word on, saturating. -/
def bumpPacked (s : State) (type index word w i : Nat) : State :=
  let per := 64 / w
  let k := word + i / per
  let old := (counter s type index k).toNat
  let sh := w * (i % per)
  if (old >>> sh) % 2 ^ w = 2 ^ w - 1 then s else setCounter s type index k (BitVec.ofNat 64 (old + 2 ^ sh))

/-- REGULATOR_WINDOW: unused credits lapse, and OCC and HOT of the channel's slice are counted. -/
def execRegulatorWindow (channel : Nat) (s : State) : Host.Outcome State Fault Refusal :=
  whenUp s fun s =>
    let banks := (List.range 32).map (missesIn s channel)
    let h := banks.foldl max 0
    let s := { s with credits := s.credits.filter fun e => e.1 / 64 != channel }
    let s := bumpPacked s 2 channel 12 32 (min 15 (h / 10))
    (banks.zipIdx.filter fun b => decide (128 ≤ b.1)).foldl (fun s b => bumpPacked s 2 channel 20 16 b.2) s

/-! ### The partition control block (R293, R294) -/

def stagedOf (s : State) (p : Nat) : PartEntry := NMap.getD s.staged p (partOf s p)

/-- Reserved values and RSV fields of an entry. -/
def partBad (e : PartEntry) : Bool :=
  decide (8 < pinWays e) || fld e.w0 59 53 == 0 || decide (64 < fld e.w0 59 53) || fld e.w0 52 49 == 0 ||
  fld e.w0 48 0 != 0 || fld e.w1 13 0 != 0 || fld e.w2 13 0 != 0 || fld e.w3 4 0 != 0 ||
  (fld e.w3 13 5 == 0 && fld e.w3 33 14 != 0) || decide (352 < fld e.w3 13 5)

/-- A range (base, size) in 256 KiB units lies in the general region, or is none. -/
def rangeOk (r : Nat × Nat) : Bool := r.2 == 0 || decide (r.1 + r.2 ≤ 0xBC00000000 / 262144)

/-- The ordered range of an entry. -/
def orderedRange (e : PartEntry) : Nat × Nat := (fld e.w3 63 34, fld e.w3 33 14)

def rangesMeet (a b : Nat × Nat) : Bool := decide (0 < a.2 ∧ 0 < b.2 ∧ a.1 < b.1 + b.2 ∧ b.1 < a.1 + a.2)

/-- Some sector of the range has an open round (R303, 3). -/
def openRound (s : State) (r : Nat × Nat) : Bool := s.nexts.any fun e => decide (r.1 ≤ e.1 / 4096 ∧ e.1 / 4096 < r.1 + r.2)

/-- RESULT of a commit (R294). -/
def commitResult (s : State) (p : Nat) : Nat :=
  let e := stagedOf s p
  let others := (List.range 63).filter (· != p)
  if p = 63 then 5
  else if partBad e then 1
  else if 8 < pinWays e + (others.map fun q => pinWays (partOf s q)).sum then 2
  else if !((pinRanges e).all rangeOk && rangeOk (orderedRange e)) ||
      (others.any fun q => rangesMeet (orderedRange e) (orderedRange (partOf s q))) ||
      decide (256 < (orderedRange e).2 + (others.map fun q => (orderedRange (partOf s q)).2).sum) then 3
  else if (partOf s p).w3 ≠ e.w3 ∧ openRound s (orderedRange (partOf s p)) then 4
  else 0

/-- A write of COMMIT: the checks against the values in effect, and, where they pass, the entry on its way to the
slices (R294). -/
def commitPart (s : State) (p : Nat) : State :=
  if s.pcbNext.isSome then s
  else
    let r := commitResult s p
    { s with pcbLast := BitVec.ofNat 8 p, pcbResult := BitVec.ofNat 8 r,
             pcbNext := if r = 0 then some (p, stagedOf s p) else none }

/-- PARTITION_COMMIT: a companion write of the COMMIT word. -/
def execPartitionCommit (data : DWord) (stores : List (Nat × Byte)) (s : State) : Host.Outcome State Fault Refusal :=
  whenUp s fun s => if linkUp s then commitPart (companionStores s stores) (fld data 5 0) else s

/-- PARTITION_COMMIT_DONE: every slice has taken the entry, which is in effect for later requests. Lines stay in the ways
in which they stand, and are ordinary lines where these are no longer pinned (R294, R295). -/
def execPartitionCommitDone (s : State) : Host.Outcome State Fault Refusal :=
  whenUp s fun s =>
    match s.pcbNext with
    | some (p, e) => { s with parts := NMap.put PartEntry.reset s.parts p e, pcbNext := none }
    | none => s

/-! ### Refresh and patrol (R308, R317) -/

/-- Keep the highest [15:0] and lowest [31:16] temperature of a record's word; the first reading since reset is both
(R406). -/
def keepTemp (s : State) (type index word : Nat) (temp : Int) : State :=
  let k := ckey type index word
  let old := (counter s type index word).toNat
  let seen := NSet.has s.tempSeen k
  let hi := toSigned 16 old
  let lo := toSigned 16 (old / 65536)
  let h := if !seen ∨ hi < temp then temp else hi
  let l := if !seen ∨ temp < lo then temp else lo
  setCounter { s with tempSeen := NSet.add s.tempSeen k } type index word (BitVec.ofNat 64 (ofSigned 16 h + ofSigned 16 l * 65536))

/-- REFRESH: doubled above 85 °C. -/
def execRefresh (channel : Nat) (temp : Int) (s : State) : Host.Outcome State Fault Refusal :=
  whenUp s fun s =>
    if 256 ≤ channel then s
    else
      let s := keepTemp { s with power := { s.power with stackT := NMap.insert s.power.stackT channel temp } } 3 channel 6 temp
      if 85 < temp then bump s 3 channel 5 1 else s

/-- The last populated sector of a channel, in the order of its granules, or of a tier chip's slow range: its patrol pass
ends (DESIGN CHOICE, notes/assumptions/27.md). -/
def patrolEnds (s : State) (pa : Nat) : Bool :=
  match regionOf pa with
  | .fast | .reserved => granuleIndex pa == 3145727 && pa % 1024 / 64 == 15
  | .slow c => pa - (0x010000000000 + c * 0x8000000000) + 64 == slowBytes s c
  | _ => false

/-- The address lies in what is patrolled together with pa: its channel, or its tier chip's slow range. -/
def samePatrol (s : State) (pa a : Nat) : Bool :=
  match regionOf pa with
  | .slow c => regionOf a == .slow c
  | _ => sliceHolds a && homeSlice s a == homeSlice s pa

/-- The end of a patrol pass: its findings lapse, and a channel counts it (R308, R317, R408). -/
def endPatrol (s : State) (pa : Nat) : State :=
  let s := { s with patrol := s.patrol.filter fun e => !samePatrol s pa (e.1 * 1024) }
  if sliceHolds pa then bump s 3 (homeSlice s pa) 3 1 else s

/-- PATROL_READ of a populated sector. A patrol read of a channel is charged to partition 63 (R308), and waits where it has
no credit left (R296). -/
def execPatrolRead (pa : Nat) (fnd : Finding) (s : State) : Host.Outcome State Fault Refusal :=
  match s.run with
  | .up =>
    match regionOf pa with
    | .hole => .fault (.hole pa)
    | .regs | .sovel | .far _ => .next s
    | _ =>
      let pa := pa / 64 * 64
      if !backed s pa 64 ∨ tierLost s pa then .next s
      else if sliceHolds pa ∧ !creditLeft s (homeSlice s pa) 63 then .next s
      else
        let s := noteFinding (if sliceHolds pa then useCredits s (homeSlice s pa) 63 1 else tierSweep s pa) pa fnd
        .next (if patrolEnds s pa then endPatrol s pa else s)
  | _ => .next s

end Sys2Proof.Machine
end

