-- ==== Sys2Proof/Machine/Boot.lean ====
section
/-! DEFINITION. Boot (R415 to R423), images and their checks (R424 to R431), life-cycle transitions as step 0x06 performs
them (R435, R437), and the rows that begin a boot or go on with one: POWER_UP, MOD_RESET and the recovery rows. -/

namespace Sys2Proof.Machine

/-! ### Images (R424 to R428) -/

/-- Life-cycle codes of R433. -/
def Life.code : Life → Nat
  | .manufacture => 0 | .vendor => 1 | .owned => 2 | .returned => 3 | .scrapped => 4

def Life.ofCode : Nat → Option Life
  | 0 => some .manufacture | 1 => some .vendor | 2 => some .owned | 3 => some .returned | 4 => some .scrapped
  | _ => none

/-- A key block is that of a vendor slot that is not revoked, other than the one left out (R427). -/
def vendorKeyOk (p : Persist) (key : List Byte) (except_ : Option Nat) : Bool :=
  (List.range 4).any fun i =>
    some i != except_ && !p.revoked.toNat.testBit i && Config.vendorKeyHash i == Config.sha384 key

/-- Both signatures of a set over a digest verify (R425). -/
def setOk (key : List Byte) (dig : BitVec 384) (rsa slh : List Byte) : Bool :=
  Config.rsaVerify key dig rsa && Config.slhVerify key dig slh

/-- The header up to the end of its section entries, as R424 lays it out. -/
def headerBytes (i : Image) : List Byte :=
  leBytes (i.hver.toNat * 2 ^ 32 + i.magic.toNat) 8 ++ leBytes i.len.toNat 8 ++ leBytes (i.build.toNat * 2 ^ 32 + i.svn.toNat) 8 ++
    leBytes (i.nsec.toNat * 2 ^ 8 + i.stepg.toNat) 8 ++
    (i.sections.map fun x => leBytes (x.2.toNat * 2 ^ 16 + x.1.toNat) 6).flatten

/-- The image begins with its header, RSV bits zero (R424). -/
def headerHeld (i : Image) : Bool :=
  i.body.take (32 + 6 * i.sections.length) == headerBytes i && (i.body.drop 0xE0).take 32 == List.replicate 32 0

/-- Check 1 of R426. -/
def headerOk (i : Image) : Bool :=
  headerHeld i && i.magic == 0x4D495647 && i.hver == 1 && i.stepg == 0xB0 && i.rsvZero &&
    decide (i.len.toNat % 4096 = 0 ∧ 4096 ≤ i.len.toNat ∧ i.len.toNat ≤ 0x05F00000 ∧ i.body.length = i.len.toNat) &&
    decide (1 ≤ i.nsec.toNat ∧ i.nsec.toNat ≤ 32 ∧ i.sections.length = i.nsec.toNat) &&
    i.sections.all fun x => decide (1 ≤ x.1.toNat ∧ x.1.toNat ≤ 6 ∧ x.2.toNat * 4096 < i.len.toNat)

/-- The owner endorsement of an image holds (R426 check 5). -/
def endorsed (p : Persist) (dig : BitVec 384) (set : Option (List Byte × List Byte × List Byte)) : Bool :=
  match set with
  | some (key, rsa, slh) => p.ownerHash == some (Config.sha384 key) && setOk key dig rsa slh
  | none => false

/-- The number of the first check of R426 that an image fails; none where the ROM accepts it. -/
def imageFails (p : Persist) (i : Image) : Option Nat :=
  let dig := Config.sha384 i.body
  firstReason
    [(!headerOk i, 1), (!vendorKeyOk p i.vendorKey none, 2), (!Config.rsaVerify i.vendorKey dig i.vendorRsa, 3),
     (!Config.slhVerify i.vendorKey dig i.vendorSlh, 4), (p.life == .owned && !endorsed p dig i.ownerSet, 5),
     (decide (i.svn.toNat < p.svn), 6)]

/-! ### The step log (R418 to R420) -/

/-- An entry of a step and unit; reason and detail are the step's own, which the manual does not give. -/
def stepEntry (s : State) (step kind outcome : Nat) (unit : Option Nat) : State :=
  let f := takeFree s
  let low := f.1 &&& 0x7FFFFFFFFFFFFFFF#64
  let detail := if step = 0x0A ∧ 256 ≤ unit.getD 0 then low ||| 0x8000000000000000#64 else low
  addStep f.2 step kind outcome (f.1.toNat % 256) (match unit with
    | some u => u % 256
    | none => 0xFF) detail

/-- Fallback state of a step and unit: 0 primary, 1 alternate, 2 skipped. -/
def fallbackOf (s : State) (step unit : Nat) : Nat := (NMap.getD s.persist.fallback (step * 1024 + unit) 0).toNat

/-- Take a fallback: logged, and kept for every later boot. -/
def setFallback (s : State) (step unit st : Nat) (named : Option Nat) : State :=
  let s := stepEntry s step 2 st named
  { s with persist := { s.persist with
      fallback := NMap.put 0 s.persist.fallback (step * 1024 + unit) (BitVec.ofNat 2 st) } }

/-- Return every fallback state to primary, with its entries (R420). -/
def clearFallbacks (s : State) : State :=
  let s' := s.persist.fallback.foldl (fun s e => stepEntry s (e.1 / 1024) 2 0
    (if e.1 / 1024 = 0x04 ∨ e.1 / 1024 = 0x07 then none else some (e.1 % 1024))) s
  { s' with persist := { s'.persist with fallback := [], resetPending := false } }

/-! ### How steps and units end (R416, R417) -/

/-- How a boot stands after a step; a stop names its step and unit. -/
inductive BEnd where
  | go | stop (step unit : Nat) | hang | recovery | scrapped
  deriving DecidableEq, Repr

/-- Policies of R417 that handle units alike. -/
inductive Policy where
  | fatal | altFatal | altSkip | spare
  deriving DecidableEq, Repr

/-- Whether the hello of the companion is one that boot accepts (R462). -/
def helloOk (lo hi : BitVec 8) (wbase : DWord) : Bool :=
  decide (lo.toNat ≤ 1 ∧ 1 ≤ hi.toNat ∧ wbase.toNat % 2 ^ 35 = 0 ∧ wbase.toNat ≤ 2 ^ 47 - 2 ^ 35)

def dimmAt (b : BootIn) (u : Nat) : Option Dimm := (b.dimms[u]?).getD none

/-- Speed in MT/s at which a channel runs a DIMM: the lower of its rated speed and the limit of its type (R314). -/
def dimmSpeed (d : Dimm) : Nat := min d.rate (if d.mrdimm then 8800 else 6400)

/-- A DIMM that meets the rules of R314 and R315, beside the one on the other channel. -/
def dimmOk (d : Dimm) (other : Option Dimm) : Bool :=
  d.qualified &&
    (d.width == 4 || (d.width == 8 && !d.mrdimm)) &&
    [32, 48, 64, 96, 128, 192, 256].contains d.capGiB &&
    (match other with
    | some o => o.mrdimm == d.mrdimm && o.capGiB == d.capGiB && o.ranks == d.ranks && o.width == d.width && o.rate == d.rate
    | none => true)

/-- Whether the primary treatment of a unit succeeds at this boot, and its alternate. The training of the die-to-die bridge
fails where a group of 32 wires has more bad ones than its one spare (R402). -/
def trialOf (b : BootIn) (step unit : Nat) : Bool × Bool :=
  let t := match b.trials.find? fun t => t.step == step && t.unit == unit with
    | some t => (t.primary, t.alt)
    | none => (true, true)
  if step = 0x02 then (t.1 && b.bridgeBad.eraseDups.length == b.bridgeBad.length, t.2)
  else if step = 0x04 then (t.1 && helloOk b.sovLo b.sovHi b.wbase, t.2 && helloOk b.sovLo b.sovHi b.wbase)
  else if step = 0x0C then
    match dimmAt b unit with
    | some d =>
      let ok := dimmOk d (dimmAt b (if unit % 2 = 0 then unit + 1 else unit - 1))
      (ok && d.trains && t.1, ok && d.trainsAlt && t.2)
    | none => (true, true)
  else t

/-- The progress value goes to a step: the count starts at 0 there, and goes up with each treatment begun in it (R421;
DESIGN CHOICE, notes/assumptions/60.md). -/
def progressTo (m : Mgmt) (step : BitVec 8) : Mgmt :=
  { m with progStep := step, progCount := if m.progStep = step then m.progCount + 1 else 0 }

/-- A begun treatment: its BEGIN entry, and the progress value (R421). -/
def beginUnit (s : State) (step alt : Nat) (named : Option Nat) : State :=
  let s := stepEntry s step 0 alt named
  { s with mgmt := progressTo s.mgmt (BitVec.ofNat 8 step) }

/-- Each further attempt of step 0x04 at training the Sovel lanes advances the count (R421, R462). -/
def retryLanes (b : BootIn) (step : Nat) (s : State) : State :=
  if step = 0x04 then { s with mgmt := { s.mgmt with progCount := s.mgmt.progCount + BitVec.ofNat 24 b.sovRetries } } else s

def hangsAt (b : BootIn) (step unit : Nat) (alt : Bool) : Bool := b.interrupted == some (step, unit, alt)

/-- The END entry of a treatment, which follows all that the treatment does (R419): its outcome is that of the trial, or
failed (1) where what the step does stops the boot. -/
def endUnit (step outcome : Nat) (named : Option Nat) (r : State × BEnd) : State × BEnd :=
  match r with
  | (s, .stop a u) => (stepEntry s step 1 1 named, .stop a u)
  | (s, e) => (stepEntry s step 1 outcome named, e)

/-- The alternate treatment of a unit; f is what a step does under an outcome of R418. -/
def runAlternate (b : BootIn) (pol : Policy) (step unit : Nat) (named : Option Nat) (f : State → Nat → State × BEnd)
    (s : State) : State × BEnd :=
  let s := retryLanes b step (beginUnit s step 1 named)
  if hangsAt b step unit true then (s, .hang)
  else if (trialOf b step unit).2 then endUnit step 2 named (f s 2)
  else
    let s := stepEntry s step 1 3 named
    if pol = .altSkip then f (setFallback s step unit 2 named) 4 else (s, .stop step (named.getD 0xFF))

/-- A unit of a step under its policy. -/
def runUnit (b : BootIn) (pol : Policy) (step unit : Nat) (named : Option Nat) (f : State → Nat → State × BEnd) (s : State) :
    State × BEnd :=
  match fallbackOf s step unit with
  | 2 => endUnit step 4 named (f s 4)
  | 1 => runAlternate b pol step unit named f s
  | _ =>
    let s := retryLanes b step (beginUnit s step 0 named)
    if hangsAt b step unit false then (s, .hang)
    else if (trialOf b step unit).1 then endUnit step 0 named (f s 0)
    else
      match pol with
      | .fatal => (stepEntry s step 1 1 named, .stop step (named.getD 0xFF))
      | .spare => endUnit step 1 named (f s 1)
      | .altFatal | .altSkip =>
        runAlternate b pol step unit named f (setFallback (stepEntry s step 1 1 named) step unit 1 named)

/-- A step without units. -/
def runStep (b : BootIn) (pol : Policy) (step : Nat) (f : State → Nat → State × BEnd) (s : State) : State × BEnd :=
  runUnit b pol step 0 none f s

/-- The units of a step in turn, and what each one's outcome does. -/
def runUnits (b : BootIn) (pol : Policy) (step : Nat) (f : State → Nat → Nat → State) (us : List Nat) (s : State) :
    State × BEnd :=
  match us with
  | [] => (s, .go)
  | u :: r =>
    match runUnit b pol step u (some u) (fun s o => (f s u o, .go)) s with
    | (s, .go) => runUnits b pol step f r s
    | (s, e) => (s, e)

/-- Steps in order, to the first that does not let the boot go on. -/
def runSteps (l : List (State → State × BEnd)) (s : State) : State × BEnd :=
  match l with
  | [] => (s, .go)
  | f :: r =>
    match f s with
    | (s, .go) => runSteps r s
    | (s, e) => (s, e)

/-- A step whose effect always lets the boot go on. -/
def goOn (f : State → State) (s : State) (_o : Nat) : State × BEnd := (f s, .go)

/-! ### The steps -/

/-- The entry that the latest boot left begun and not ended: step, unit and whether the alternate had begun. It is the last
of the log but for FALLBACK entries, which holds at the saturated boot count too. -/
def unended (s : State) : Option (Nat × Nat × Bool) :=
  match ((s.persist.steplog.filter fun e => e.boot == s.persist.boot && e.kind != 2).reverse).head? with
  | some e =>
    if e.kind = 0 then
      some (e.step.toNat, e.unit.toNat + (if e.step = 0x0A ∧ bit e.detail 63 then 256 else 0), e.outcome != 0)
    else none
  | none => none

/-- Step 0x03 reads the step log: a reset of the fallback states takes effect (R420), and a unit that the previous boot
left begun takes its fallback (R417). -/
def readLog (left : Option (Nat × Nat × Bool)) (s : State) : State :=
  let s := if s.persist.resetPending then clearFallbacks s else s
  match left with
  | none => s
  | some (step, unit, alt) =>
    let named := if step = 0x04 ∨ step = 0x07 then none else some unit
    let u := if named.isNone then 0 else unit
    if step = 0x04 ∨ step = 0x07 ∨ step = 0x08 then (if alt then s else setFallback s step u 1 named)
    else if step = 0x09 ∨ (0x0B ≤ step ∧ step ≤ 0x0D) then setFallback s step u (if alt then 2 else 1) named
    else if step = 0x0A then retireSite s unit
    else s

/-- Step 0x04: the Sovel link is up (R462); under the alternate the spare lane stands for one of the eight. -/
def linkTrained (b : BootIn) (s : State) (o : Nat) : State :=
  let f := takeFree s
  let lanes : BitVec 9 := if o = 2 then 0x1FF ^^^ BitVec.ofNat 9 (2 ^ (f.1.toNat % 8)) else 0x0FF
  { f.2 with sovel := { Sovel.reset with lanes := lanes, wbase := b.wbase } }

/-- Step 0x05: the flash image is judged; a boot that this step had left unended goes to the recovery fetch (R417). -/
def verifyImage (b : BootIn) (unended_ : Bool) (s : State) : State × BEnd :=
  let s := beginUnit s 0x05 0 none
  if hangsAt b 0x05 0 false then (s, .hang)
  else
    let fails := match s.persist.image with
      | none => some 1
      | some i => imageFails s.persist i
    match fails with
    | some n =>
      let s := addStep s 0x05 1 1 n 0xFF 0
      ({ s with mgmt := { s.mgmt with rstate := 1, rreason := BitVec.ofNat 8 n } }, .recovery)
    | none =>
      if unended_ then ({ s with mgmt := { s.mgmt with rstate := 1, rreason := 0 } }, .recovery)
      else (stepEntry s 0x05 1 0 none, .go)

/-- Step 0x06: a staged transition takes effect (R435, R437, R445), and a staged revocation (R427). -/
def takeTransition (s : State) (t : Transition) : State :=
  let life := (Life.ofCode t.target.toNat).getD s.persist.life
  let s := clearFallbacks { s with persist := { s.persist with
    ownerCert := [], ownerData := [], ogen := if life = .owned then s.persist.ogen + 1 else s.persist.ogen,
    life := life, ownerHash := if life = .owned then some t.newOwn else none } }
  { s with persist := { s.persist with staged := none, grant := 0, debugBoots := 0 } }

def lifeStep (s : State) (_o : Nat) : State × BEnd :=
  let s := match s.persist.staged with
    | some t => takeTransition s t
    | none => s
  let s := match s.persist.stagedRevoke with
    | some i =>
      { s with persist := { s.persist with revoked := s.persist.revoked ||| BitVec.ofNat 4 (2 ^ i), stagedRevoke := none } }
    | none => s
  if s.persist.life = .scrapped then (s, .scrapped)
  else if s.persist.life = .owned ∧ s.persist.ownerHash = none then (s, .stop 0x06 0xFF)
  else (s, .go)

/-- Step 0x07: trims, margins, rungs and repair entries return (R401); under the alternate every island stands at its
highest settings. -/
def restoreSparing (s : State) (o : Nat) : State :=
  let top : Island := { Island.reset with trim := 3, margin := 7, rung := 6 }
  { s with
    islands := if o = 2 then (List.range 412).map fun i => (i, top) else s.persist.islands
    repair := s.persist.repair }

/-- Step 0x09: the soft repairs of a channel become hard (R308). -/
def commitRows (s : State) (unit : Nat) (hard : Bool) : State :=
  if hard then
    let mine := s.persist.softRows.filter fun x => x.1 == unit
    let s := { s with persist := { s.persist with softRows := s.persist.softRows.filter fun x => x.1 != unit } }
    mine.foldl (fun s x =>
      if unit < 256 then logRepair s unit (bankOf x.2) (rowOf s x.2) (unit / 128) true
      else logRepair s (unit - 256) 0 (rowOf s x.2) ((unit - 256) / 2) true) s
  else s

/-- Step 0x0B: a tier link on four lanes, on two, or down; a change to fewer is recorded (R313). -/
def trainTier (s : State) (c o : Nat) : State :=
  let s := setChip s c { chipOf s c with link := if o = 0 then .four else if o = 2 then .two else .down }
  if o = 0 then s else logTierFree s c 3

/-- Step 0x0C: a DIMM in use or left out, which is recorded (R315); soft repairs of the chip's DIMMs become permanent. -/
def trainDimm (b : BootIn) (s : State) (u o : Nat) : State :=
  let c := u / 2
  let t := chipOf s c
  match dimmAt b u with
  | none => s
  | some d =>
    if o = 4 then logTierFree s c (u % 2)
    else
      let t := { t with mrdimm := d.mrdimm, x4 := d.width == 4, speed := dimmSpeed d }
      let t := if u % 2 = 0 then { t with dimmA := d.capGiB, spdA := d.spd } else { t with dimmB := d.capGiB, spdB := d.spd }
      commitRows (setChip s c t) (256 + c) true

/-- Step 0x0D: a CXL device in use; CXL_PERST_N is released (R319, R459). A link that trains at fewer lanes or a lower rate is
used so, and recorded (R318). -/
def trainCxl (b : BootIn) (s : State) (c o : Nat) : State :=
  let size := if o = 4 then 0 else (b.cxlGiB[c]?).getD 0
  let link := (b.cxlLinks[c]?).getD (8, 64)
  let lanes := min link.1 8
  let rate := min link.2 64
  let t := { chipOf s c with perst := false, cxl := size }
  if size = 0 then setChip s c t
  else
    let s := setChip s c { t with cxlLanes := lanes, cxlRate := rate, cxlId := (b.cxlIds[c]?).getD 0 }
    if lanes < 8 ∨ rate < 64 then logTierFree s c 2 else s

/-- After step 0x0F a grant of debug access takes effect for this boot (R442). -/
def openDebug (s : State) : State :=
  let g := s.persist.grant
  if g = 0 then s
  else
    { s with mgmt := { s.mgmt with scope := g }
             persist := { s.persist with grant := 0, debugBoots := s.persist.debugBoots + 1 } }

/-- Step 0x12: the fused security version rises to that of the image (R428). -/
def raiseSvn (s : State) : State :=
  match s.persist.image with
  | some i => { s with persist := { s.persist with svn := max s.persist.svn (min i.svn.toNat 64) } }
  | none => s

/-- A management event is pending, which asserts ALERT_N (R469). -/
def raiseEvent (s : State) (e : Nat) : State :=
  { s with mgmt := { s.mgmt with events := s.mgmt.events ++ [e] }, power := { s.power with alert := true } }

/-- The steps from 0x05 on. -/
def laterSteps (b : BootIn) (unended_ : Bool) : List (State → State × BEnd) :=
  [verifyImage b unended_,
   runStep b .fatal 0x06 lifeStep,
   runStep b .altFatal 0x07 (fun s o => (restoreSparing s o, .go)),
   runUnits b .altFatal 0x08 (fun s _ _ => s) (List.range 8),
   runUnits b .altSkip 0x09 (fun s u o => commitRows s u (o == 0)) (List.range 256),
   runUnits b .spare 0x0A (fun s u o => if o = 1 then retireSite s u else s) (List.range 384),
   runUnits b .altSkip 0x0B trainTier (List.range 4),
   runUnits b .altSkip 0x0C (trainDimm b) (List.range 8),
   runUnits b .altSkip 0x0D (trainCxl b) (List.range 4),
   runStep b .fatal 0x0E (goOn fun s => { s with hashKey := b.hashKey }),
   runStep b .fatal 0x0F (goOn openDebug),
   runStep b .fatal 0x10 (goOn id),
   runStep b .fatal 0x11 (goOn id),
   runStep b .fatal 0x12 (goOn raiseSvn),
   runStep b .fatal 0x13 (goOn fun s => raiseEvent s 2)]

/-- The steps up to 0x04; a scrapped module goes no further (R441). -/
def firstSteps (b : BootIn) (left : Option (Nat × Nat × Bool)) : List (State → State × BEnd) :=
  [runStep b .fatal 0x01 (goOn id), runStep b .fatal 0x02 (goOn fun s => { s with bridge := b.bridgeBad }),
   runStep b .fatal 0x03 (goOn (readLog left)),
   runStep b .altFatal 0x04 (fun s o => (linkTrained b s o, if s.persist.life = .scrapped then .scrapped else .go))]

/-- What the module is after its boot: a stop is logged, and reported with its step and unit (R417, R419). -/
def bootEnds (r : State × BEnd) : State :=
  match r with
  | (s, .go) => { s with run := .up }
  | (s, .stop step unit) =>
    let s := stepEntry s 0xF0 1 1 none
    raiseEvent { s with run := .stop, mgmt := { s.mgmt with stopAt := some (step, unit) } } 1
  | (s, .hang) => { s with run := .hang }
  | (s, .recovery) => { s with run := .recovery }
  | (s, .scrapped) => { s with run := .scrapped }

/-- What no reset of the module touches: the fuses and the flash, the repairs in them, companion memory, the waiting
commands and the model's counter of free values. All other state takes its reset value. -/
def cleared (s : State) (run : Run) (p : Power) : State :=
  { State.reset with
    pending := s.pending, freeCtr := s.freeCtr, run := run, persist := s.persist, power := p, outbox := s.outbox, flits := s.flits
    mem := s.mem.filter fun e => decide (0x800000000000 ≤ e.1)
    map0 := s.map0, map1 := s.map1, spares0 := s.spares0, spares1 := s.spares1, spareRows := s.spareRows
    repair := s.persist.repair, islands := s.persist.islands
    chips := (List.range 4).map fun c => (c, { TierChip.empty with perst := true })
    mgmt := { Mgmt.reset with progStep := 0x01, events := [] }
    sovel := { Sovel.reset with lstate := 0 } }

/-- Entries of the step log whose CRC fails count as absent and leave the log (R419; DESIGN CHOICE, notes/assumptions/60.md). -/
def dropTorn (s : State) (n : Nat) : State :=
  { s with persist := { s.persist with steplog := s.persist.steplog.take (s.persist.steplog.length - n) } }

/-- A boot from step 0x01 on (R415): the boot count rises, and the step log of the previous boot is read at 0x03
(DESIGN CHOICE, notes/assumptions/60.md). -/
def bootRun (s : State) (b : BootIn) : State :=
  let s := dropTorn s b.torn
  let left := unended s
  let s := { s with persist := { s.persist with boot := satAdd s.persist.boot 1 } }
  let fifth := match left with
    | some (0x05, _) => true
    | _ => false
  bootEnds (runSteps (firstSteps b left ++ laterSteps b fifth) s)

/-- Restart from step 0x05 after a recovery (R430). -/
def bootAgain (s : State) (b : BootIn) : State := bootEnds (runSteps (laterSteps b false) s)

/-- Power state at the start of a boot: reset values, the pins and ENVCAP as they stand (R450, R467). -/
def powerAtBoot (p : Power) (envcap : BitVec 12) : Power :=
  { Power.reset with
    pwrEn := p.pwrEn, mateShort := p.mateShort, coolId := p.coolId, mgmtMode := p.mgmtMode, mgmtAddr := p.mgmtAddr
    alert := false, envcap := envcap }

/-- The hot-swap switch closes (R446, R447, R451): PWR_EN is high, VIN has reached the turn-on threshold, the short mate
contact is made and a cooler is fitted. -/
def mayPowerUp (s : State) (vin : Nat) (mate : Bool) (cool : BitVec 2) : Bool :=
  s.run == .off && !s.power.latch && mate && decide (cool.toNat ≤ 1 ∧ 3550 ≤ vin) &&
    decide (if s.power.overVolt then vin < 6100 else vin ≤ 6300)

/-- POWER_UP (R449): PWR_EN high, with the pins as it finds them. -/
def execPowerUp (vin10mV : Nat) (mate : Bool) (cool : BitVec 2) (b : BootIn) (s : State) :
    Host.Outcome State Fault Refusal :=
  let p := { s.power with pwrEn := true, mateShort := mate, coolId := cool }
  if mayPowerUp s vin10mV mate cool then
    .next (bootRun (cleared s .off (powerAtBoot p 0x44C)) b)
  else .next { s with power := { s.power with pwrEn := true } }

/-- MOD_RESET (R450): all logic but the hot-swap controller, the rails and ENVCAP is reset, and boot begins. -/
def execModReset (b : BootIn) (s : State) : Host.Outcome State Fault Refusal :=
  match s.run with
  | .off => .next s
  | _ => .next (bootRun (cleared s .off (powerAtBoot s.power s.power.envcap)) b)

/-! ### Recovery (R429, R430) -/

/-- A write of GO (R430). -/
def fetchGo (s : State) (go : Bool) : State :=
  if go ∧ (s.mgmt.rstate = 1 ∨ s.mgmt.rstate = 3) then { s with mgmt := { s.mgmt with rstate := 2 } } else s

/-- RECOVERY_FETCH: a write of word 3 of the recovery block with GO = 1. -/
def execRecoveryFetch (data : DWord) (stores : List (Nat × Byte)) (s : State) : Host.Outcome State Fault Refusal :=
  match s.run with
  | .recovery => if linkUp s then .next (fetchGo (companionStores s stores) (bit data 0)) else .next s
  | _ => .next s

/-- A new image stands in the flash: every fallback state returns to primary at the next boot (R420). -/
def newImage (s : State) (i : Image) : State :=
  { s with persist := { s.persist with image := some i, resetPending := true } }

/-- RECOVERY_FETCH_COMPLETE: the fetched image is rejected, or written, after which step 0x05 starts again. -/
def execRecoveryFetchComplete (img : Image) (b : BootIn) (s : State) : Host.Outcome State Fault Refusal :=
  match s.run with
  | .recovery =>
    if s.mgmt.rstate = 2 then
      match imageFails s.persist img with
      | some n => .next { s with mgmt := { s.mgmt with rstate := 3, rreason := BitVec.ofNat 8 n } }
      | none =>
        let s := newImage s img
        .next (bootAgain { s with mgmt := { s.mgmt with rstate := 4, rreason := 0 } } b)
    else .next s
  | _ => .next s

/-- RECOVERY_WAIT_PROGRESS_ADVANCE (R421, R430). -/
def execRecoveryWaitProgressAdvance (s : State) : Host.Outcome State Fault Refusal :=
  match s.run with
  | .recovery =>
    if s.mgmt.rstate = 1 ∨ s.mgmt.rstate = 3 then
      .next { s with mgmt := { s.mgmt with progStep := 0x05, progCount := s.mgmt.progCount + 1 } }
    else .next s
  | _ => .next s

end Sys2Proof.Machine
end

