-- ==== Sys2Proof/Machine/Streams.lean ====
section
/-! DEFINITION. The stream engine (R262 to R271): descriptors and their checks, requests in source order, freezes,
halts, cancels and completion. -/

namespace Sys2Proof.Machine

/-! ### Descriptors (R263) -/

def Strm.rows (x : Strm) : Nat := fld x.d3 43 24 + 1
def Strm.rowBytes (x : Strm) : Nat := fld x.d3 23 0
def Strm.sStride (x : Strm) : Int := toSigned 32 (fld x.d2 63 32)
def Strm.dStride (x : Strm) : Int := toSigned 32 (fld x.d2 31 0)
def Strm.dTile (x : Strm) : Nat := fld x.d4 8 0
def Strm.bp (x : Strm) : Bool := bit x.d5 63
def Strm.isFrozen (x : Strm) : Bool := bit x.d6 63
def Strm.sHint (x : Strm) : Nat := fld x.d6 62 61
def Strm.dHint (x : Strm) : Nat := fld x.d6 60 59

/-- Kinds whose source, and whose destination, is the issuing tile's own store. -/
def srcStore (kind : Nat) : Bool := kind == 1 || kind == 2 || kind == 5
def dstStore (kind : Nat) : Bool := kind == 0 || kind == 2 || kind == 4

/-- Bits that an endpoint may set: a tile-store offset or a fabric offset; none for the destination of kind 3. Bits [63:52]
of an address are judged when it is translated (R31). -/
def srcBits (kind : Nat) : Nat := if srcStore kind then 21 else if kind = 4 then 40 else 64
def dstBits (kind : Nat) : Nat := if kind = 3 then 0 else if dstStore kind then 21 else if kind = 5 then 40 else 64

/-- Lowest byte and end of a span of rows from base on. -/
def spanOf (base : Int) (stride : Int) (rows bytes : Nat) : Int × Int :=
  let last := base + stride * (rows - 1)
  (min base last, max base last + bytes)

/-- A tile-store endpoint is aligned to 64 and lies within the allocation. -/
def storeSpanOk (l : Launch) (base : DWord) (stride : Int) (rows bytes : Nat) : Bool :=
  let s := spanOf base.toNat stride rows bytes
  base.toNat % 64 == 0 && decide (0 ≤ s.1 ∧ s.2 ≤ storeBytes l)

/-- Reserved fields and values of a descriptor (reason 0x01). -/
def descRsv (x : Strm) : Bool :=
  decide (x.d0.toNat ≥ 2 ^ srcBits x.kind) || decide (x.d1.toNat ≥ 2 ^ dstBits x.kind) || fld x.d3 63 44 != 0 ||
  fld x.d4 63 62 != 0 || fld x.d4 31 9 != 0 || (x.kind != 2 && x.dTile != 0) || fld x.d5 37 0 != 0 ||
  fld x.d6 58 0 != 0 || x.sHint == 3 || decide (2 ≤ x.dHint) || (x.kind == 3 && x.dHint != 0) || x.d7 != 0

/-- Misalignment and tile-store bounds (reason 0x03). -/
def descMis (l : Launch) (x : Strm) : Bool :=
  x.sStride % 4 != 0 || x.dStride % 4 != 0 ||
  (if srcStore x.kind then !storeSpanOk l x.d0 x.sStride x.rows x.rowBytes else x.d0.toNat % 4 != 0) ||
  (if x.kind = 3 then false
   else if dstStore x.kind then !storeSpanOk l x.d1 x.dStride x.rows x.rowBytes else x.d1.toNat % 4 != 0)

/-- Tile indices of a descriptor (reason 0x04). -/
def descTiles (l : Launch) (own : Nat) (x : Strm) : Bool :=
  (x.kind == 2 && (decide (l.sites.length ≤ x.dTile) || x.dTile == own)) ||
  (x.bp && decide (l.sites.length ≤ fld x.d5 58 50))

/-- The reason of a malformed descriptor (R264), the lowest that applies (notes/assumptions/24.md). -/
def descReason (l : Launch) (own : Nat) (x : Strm) : Option Nat :=
  firstReason [(descRsv x, 0x01), (decide (x.rowBytes < 4) || x.rowBytes % 4 != 0, 0x02), (descMis l x, 0x03),
    (descTiles l own x, 0x04), (x.isFrozen && x.kind != 0 && x.kind != 3, 0x06)]

/-! ### Requests (R266) -/

/-- A request is named by row × 2^24 + byte. -/
def reqRow (r : Nat) : Nat := r / 16777216
def reqByte (r : Nat) : Nat := r % 16777216

/-- An address of a row: base + row × stride + byte, 64 bits. -/
def rowAddr (base : DWord) (stride : Int) (r : Nat) : DWord :=
  base + BitVec.ofInt 64 (stride * reqRow r) + BitVec.ofNat 64 (reqByte r)

def Strm.srcAddr (x : Strm) (r : Nat) : DWord := rowAddr x.d0 x.sStride r
def Strm.dstAddr (x : Strm) (r : Nat) : DWord := rowAddr x.d1 x.dStride r

/-- Bytes of a request: to the end of its source sector, of the 256-byte block of OFFSET for a fabric kind, or of the
row. -/
def Strm.reqBytes (x : Strm) (r : Nat) : Nat :=
  let a := if x.kind = 5 then x.dstAddr r else x.srcAddr r
  let m := if x.kind = 4 ∨ x.kind = 5 then 256 else 64
  min (m - a.toNat % m) (x.rowBytes - reqByte r)

/-- The request after r. -/
def Strm.reqAfter (x : Strm) (r : Nat) : Nat :=
  let b := reqByte r + x.reqBytes r
  if b < x.rowBytes then reqRow r * 16777216 + b else (reqRow r + 1) * 16777216

/-- Every request has been issued. -/
def Strm.allIssued (x : Strm) : Bool := decide (x.rows ≤ reqRow x.next)

/-- The position: the first request in source order that has not completed (R270). -/
def Strm.pos (x : Strm) : Nat := (x.issued ++ x.failed).foldl min x.next

/-- The stream has completed its moves. -/
def Strm.moved (x : Strm) : Bool := x.allIssued && x.issued == [] && x.failed == []

/-! ### Moving data (R266, R267, R271) -/

/-- DETAIL of a halted stream (R270). -/
def strmDetail (x : Strm) (slot r : Nat) : DWord :=
  BitVec.ofNat 64 ((reqRow r <<< 44) + (reqByte r <<< 20) + (x.kind <<< 16) + slot)

def setStrm (s : State) (site slot : Nat) (x : Strm) : State :=
  updTile s site fun t => { t with streams := NMap.insert t.streams slot x }

def dropStrm (s : State) (site slot : Nat) : State :=
  updTile s site fun t => { t with streams := NMap.erase t.streams slot }

/-- A fault of a stream's request, which does not complete: PAGE_NOT_PRESENT halts the stream, any other is class F, and a
halted stream writes no further record (R270, R271). -/
def strmFault (s : State) (l : Launch) (site slot r unit code : Nat) (operand detail : DWord) : State :=
  match NMap.find (tileOf s site).streams slot with
  | none => s
  | some x =>
    if x.st = .halted ∨ code = pageNotPresent then
      let s := setStrm s site slot
        { x with st := .halted, issued := x.issued.filter (· != r), failed := x.failed ++ [r] }
      if x.st = .halted then s
      else
        let f := tileFaultInfo l site unit code operand x.pc (strmDetail x slot r) 0 0
        raiseHalt s l.ctx (if unit = 10 then { f with tile := 0 } else f) (.stream site slot)
    else
      let f := tileFaultInfo l site unit code operand x.pc detail 0 0
      raiseFault s l.ctx .f (if unit = 10 then { f with tile := 0 } else f)

/-- Write bytes that arrived into a tile store: byte i came from place src + i, and bad tells by source sector, from the first
on, which are poisoned (R271). -/
def storePieces (s : State) (l : Launch) (site off src : Nat) (bs : List Byte) (bad : List Bool) : State :=
  (pieces off bs.length).foldl (fun s p =>
    let i := src % 64 + (p.1 - off)
    let n := (i + p.2 - 1) / 64 - i / 64 + 1
    tsWrite s l site p.1 (sliceList 0 bs (p.1 - off) p.2) ((List.range n).any fun k => (bad[i / 64 + k]?).getD false)) s

/-- The source sector at an address of a local source, as it arrives (R267). -/
def readSector (s : State) (l : Launch) (site : Nat) (x : Strm) (a : DWord) : State × MRes Sector :=
  if srcStore x.kind then
    let t := tsRead s l site (a.toNat / 64 * 64) 64
    (t.1, .ok { data := t.2.1, poison := t.2.2 })
  else
    match translate s l.ctx .read a with
    | (s, .ok t) =>
      (match readTarget s l.ctx { t with pa := t.pa / 64 * 64 } a 64 (x.sHint == 1) with
      | (s, .ok (bs, p)) => (s, .ok { data := bs, poison := p })
      | (s, .fault c v d) => (s, .fault c v d)
      | (s, .wait) => (s, .wait))
    | (s, .fault c v d) => (s, .fault c v d)
    | (s, .wait) => (s, .wait)

/-- The source sector at an address for the stream in a slot: read once, and kept for later rows (R267); after a
stop of the stream it is read anew (DESIGN CHOICE, notes/assumptions/91.md). -/
def sourceSector (s : State) (l : Launch) (site slot : Nat) (x : Strm) (a : DWord) : State × MRes Sector :=
  match NMap.find x.seen (a.toNat / 64) with
  | some sec => (s, .ok sec)
  | none =>
    match readSector s l site x a with
    | (s, .ok sec) =>
      (match NMap.find (tileOf s site).streams slot with
      | some y => setStrm s site slot { y with seen := NMap.insert y.seen (a.toNat / 64) sec }
      | none => s, .ok sec)
    | (s, .fault c v d) => (s, .fault c v d)
    | (s, .wait) => (s, .wait)

/-- Source bytes over several sectors, with the poison of each. -/
def sourceBytes (s : State) (l : Launch) (site slot : Nat) (ps : List (Nat × Nat)) : State × (List Byte × List Bool) :=
  match ps with
  | [] => (s, ([], []))
  | p :: r =>
    match NMap.find (tileOf s site).streams slot with
    | none => (s, ([], []))
    | some x =>
      match sourceSector s l site slot x (BitVec.ofNat 64 p.1) with
      | (s, .ok sec) =>
        let t := sourceBytes s l site slot r
        (t.1, (sliceList 0 sec.data (p.1 % 64) p.2 ++ t.2.1, sec.poison :: t.2.2))
      | (s, _) => (s, ([], []))

/-- A prefetch of a dead sector is dropped (R306). -/
def deadPref (s : State) (ctx : Nat) (x : Strm) (r : Nat) : Bool :=
  x.kind == 3 && match prefTarget s ctx (x.srcAddr r) with
    | some t => NSet.has s.dead (t.pa / 64)
    | none => false

/-- Perform a request of a local kind: a state, or a fault; none where it waits for a link. -/
def moveReq (s : State) (l : Launch) (site slot : Nat) (x : Strm) (r : Nat) : State × MRes Unit :=
  if deadPref s l.ctx x r then (s, .ok ())
  else
    let a := (x.srcAddr r).toNat
    match sourceSector s l site slot x (x.srcAddr r) with
    | (s, .ok sec) =>
      let bs := sliceList 0 sec.data (a % 64) (x.reqBytes r)
      (match x.kind with
      | 0 => (storePieces s l site (x.dstAddr r).toNat a bs [sec.poison], .ok ())
      | 1 => vWritePieces s l.ctx (x.dstAddr r).toNat bs (fun _ => sec.poison) (x.dHint == 1) none (pieces (x.dstAddr r).toNat bs.length)
      | 2 =>
        match l.sites[x.dTile]? with
        | some dest => (storePieces s l dest (x.dstAddr r).toNat a bs [sec.poison], .ok ())
        | none => (s, .ok ())
      | _ => (s, .ok ()))
    | (s, .fault c v d) => (s, .fault c v d)
    | (s, .wait) => (s, .wait)

/-! ### Dead hints (R263) -/

/-- The request that moves byte b of row r. -/
def Strm.reqOf (x : Strm) (r b : Nat) : Nat :=
  r * 16777216 + (b - min b ((x.srcAddr (r * 16777216 + b)).toNat % 64))

/-- The request has completed. -/
def Strm.did (x : Strm) (q : Nat) : Bool := decide (q < x.next) && !x.issued.contains q && !x.failed.contains q

/-- The stream has read the byte at a VA. -/
def readsByte (x : Strm) (va : Nat) : Bool :=
  (List.range x.rows).any fun r =>
    let a := (x.srcAddr (r * 16777216)).toNat
    decide (a ≤ va ∧ va < a + x.rowBytes) && x.did (x.reqOf r (va - a))

/-- The stream has read the source line at a VA wholly. -/
def readsLine (x : Strm) (line : Nat) : Bool := (List.range 256).all fun i => readsByte x (line * 256 + i)

/-- Sectors that another stream than the one in a slot holds frozen (R268). -/
def frozenByOther (s : State) (site slot sector : Nat) : Bool :=
  match NMap.find (tileOf s site).streams slot with
  | some x => frozenSector (setStrm s site slot { x with frozen := [] }) sector
  | none => frozenSector s sector

/-- The dead hint of a stream to a source line that it has read wholly: a fault where another stream holds a sector of it
frozen (DEDUCED, notes/assumptions/47.md). -/
def sendHint (s : State) (l : Launch) (site slot r : Nat) (va : DWord) : State :=
  match walk s l.ctx va with
  | .fault .. => s
  | .leaf e lvl _ =>
    let pa := (targetOf lvl e va).pa
    let fast := regionOf pa == .fast || regionOf pa == .reserved
    if fast && [0, 1, 2, 3].any fun i => frozenByOther s site slot (pa / 256 * 4 + i) then
      strmFault s l site slot r 5 frozenWrite (vaOperand va) 0
    else deadHintAt s (settingOf s l.ctx l.cmd.queue).deadchk pa

/-- A request of the stream has been performed; the hint of its source line goes out once the stream has read it all. -/
def reqDone (s : State) (l : Launch) (site slot r : Nat) : State :=
  match NMap.find (tileOf s site).streams slot with
  | none => s
  | some x =>
    let y := { x with issued := x.issued.filter (· != r) }
    let s := setStrm s site slot y
    let line := (x.srcAddr r).toNat / 256
    if x.sHint = 2 ∧ (x.kind = 0 ∨ x.kind = 3) ∧ readsLine y line ∧ !readsLine x line then
      sendHint s l site slot r (BitVec.ofNat 64 (line * 256))
    else s

/-- A local request completes or meets a fault (R270). -/
def completeReq (s : State) (l : Launch) (site slot : Nat) (x : Strm) (r : Nat) : State :=
  match moveReq s l site slot x r with
  | (s, .ok ()) => reqDone s l site slot r
  | (s, .fault c v d) => strmFault s l site slot r 5 c v (BitVec.ofNat 64 d)
  | (_, .wait) => s

/-- STREAM_REQUEST_COMPLETE. -/
def execStreamRequestComplete (site : Site) (slot req : Nat) (s : State) : Host.Outcome State Fault Refusal :=
  whenUp s fun s =>
    match runningLaunch s site, NMap.find (tileOf s site).streams slot with
    | some l, some x => if x.kind ≤ 3 ∧ x.issued.contains req then completeReq s l site slot x req else s
    | _, _ => s

/-! ### Issue (R266, R367) -/

/-- A remote request of a stream (R367): one of kind 4 reads what it names, so that a sector which two rows share is read by
each (DESIGN CHOICE, notes/assumptions/91.md). -/
def strmRemote (l : Launch) (site slot : Nat) (x : Strm) (r : Nat) : Remote :=
  { what := .stream site slot r, ctx := l.ctx, queue := l.cmd.queue, node := BitVec.ofNat 14 (fld x.d4 61 48),
    window := BitVec.ofNat 16 (fld x.d4 47 32),
    offset := BitVec.ofNat 40 (if x.kind = 4 then (x.srcAddr r).toNat else (x.dstAddr r).toNat),
    bytes := x.reqBytes r, pc := x.pc }

/-- Issue the next request of a stream: the local kinds take a tag; a fabric kind sends its packet (R271, R367). -/
def issueReq (s : State) (l : Launch) (site slot : Nat) (x : Strm) : State :=
  let r := x.next
  let x' := { x with next := x.reqAfter r, issued := x.issued ++ [r] }
  if x.kind ≤ 3 then setStrm s site slot x'
  else
    let q := strmRemote l site slot x r
    let fail (s : State) (status : Nat) : State :=
      strmFault s l site slot r 5 (statusFault status) (remoteOperand q) (remoteDetail q status)
    if jobFor s l.ctx l.cmd.queue = 0 then fail s 0xF1
    else
      let t := if x.kind = 5 then sourceBytes s l site slot (pieces (x.srcAddr r).toNat (x.reqBytes r)) else (s, ([], []))
      if t.2.2.any id then strmFault t.1 l site slot r 5 poisonConsumed 0 0x05
      else
        match sendRequest t.1 q (if x.kind = 4 then typeRead else typeWrite) t.2.1 [] with
        | .sent s =>
          (match NMap.find (tileOf s site).streams slot with
          | some y => setStrm s site slot { y with next := x'.next, issued := x'.issued }
          | none => s)
        | .unreachable => fail t.1 0xF0
        | .wait => s

/-- Streams of a tile that have a request to issue. -/
def wantTag (x : Strm) : Bool := x.st == .active && !x.allIssued

/-- The next stream in round robin that may take one of the tile's 1,536 tags (R93): no stream holds more than 1,024 while
another waits. -/
def nextTag (t : Tile) : Option (Nat × Strm) :=
  if 1536 ≤ (t.streams.map fun e => e.2.issued.length).sum then none else
  let waiting := t.streams.filter fun e => wantTag e.2
  let ok (e : Nat × Strm) : Bool := decide (e.2.issued.length < 1024) || waiting.length == 1
  ((List.range 64).map fun i => (t.strmRr + i) % 64).findSome? fun k =>
    match NMap.find t.streams k with
    | some x => if wantTag x && ok (k, x) then some (k, x) else none
    | none => none

/-- STREAM_REQUEST_ISSUE. -/
def execStreamRequestIssue (site : Site) (s : State) : Host.Outcome State Fault Refusal :=
  whenUp s fun s =>
    match runningLaunch s site, nextTag (tileOf s site) with
    | some l, some (k, x) => issueReq (updTile s site fun t => { t with strmRr := (k + 1) % 64 }) l site k x
    | _, _ => s

/-! ### Freezes (R268) -/

/-- Freezes held, of the module's 256. -/
def freezesHeld (s : State) : Nat :=
  ((allTiles s).map fun t => (t.streams.filter fun e =>
    e.2.isFrozen && (e.2.st == .active || e.2.st == .halted)).length).sum

/-- Device sectors of a stream's source span, as they translate now. -/
def spanSectors (s : State) (ctx : Nat) (x : Strm) : List Nat :=
  let sp := spanOf x.d0.toNat x.sStride x.rows x.rowBytes
  let lo := sp.1.toNat / 64
  let n := (sp.2.toNat + 63) / 64 - lo
  (List.range n).foldl (fun f i =>
    let va := BitVec.ofNat 64 ((lo + i) * 64)
    match walk s ctx va with
    | .leaf e lvl _ => NSet.add f ((targetOf lvl e va).pa / 64)
    | .fault .. => f) []

/-- The stream takes a freeze where one is free, and may issue then. -/
def takeFreeze (s : State) (l : Launch) (site slot : Nat) (x : Strm) : State :=
  if freezesHeld s < 256 then setStrm s site slot { x with st := .active, frozen := spanSectors s l.ctx x } else s

/-- FREEZE_ACQUIRE. -/
def execFreezeAcquire (site : Site) (slot : Nat) (s : State) : Host.Outcome State Fault Refusal :=
  whenUp s fun s =>
    match runningLaunch s site, NMap.find (tileOf s site).streams slot with
    | some l, some x => if x.st = .waitFreeze then takeFreeze s l site slot x else s
    | _, _ => s

/-! ### Stream instructions (R262, R265) -/

/-- What a stream instruction does: a result, a fault in a unit, or a wait. -/
inductive StrmOut where
  | ok (s : State) (v : DWord)
  | fault (s : State) (code : Nat) (detail : DWord)
  | wait (on : GWait)
  deriving DecidableEq, Repr

/-- The stream that the descriptor at an offset asks for, before its checks. -/
def readDesc (s : State) (l : Launch) (site kind off : Nat) (pc : DWord) (group : Option Nat) : State × (Strm × Bool) :=
  let r := tsRead s l site off 64
  let w (i : Nat) : DWord := BitVec.ofNat 64 (leNat (sliceList 0 r.2.1 (8 * i) 8))
  (r.1, ({ kind := kind, d0 := w 0, d1 := w 1, d2 := w 2, d3 := w 3, d4 := w 4, d5 := w 5, d6 := w 6, d7 := w 7, pc := pc,
           group := group, st := .active, next := 0, issued := [], failed := [], frozen := [], seen := [] }, r.2.2))

/-- DETAIL of a poisoned descriptor, which the stream engine consumes (R394 case 0x03). -/
def descPoisoned : DWord := 0x03

/-- Start a stream of a kind (R262 to R264, R268). -/
def strmStart (s : State) (l : Launch) (site kind : Nat) (off slot : T64) (pc : DWord) (group : Option Nat) : StrmOut :=
  let k := slot.val.toNat
  let reason (n : Nat) : DWord := BitVec.ofNat 64 (k % 64 * 256 + n)
  if off.poison || slot.poison then .fault s poisonConsumed 0x02
  else if 64 ≤ k then .fault s streamDescriptor (reason 0x07)
  else if (NMap.find (tileOf s site).streams k).isSome then .wait (.slot k)
  else if off.val.toNat % 64 ≠ 0 then .fault s streamDescriptor (reason 0x05)
  else
    let d := readDesc s l site kind off.val.toNat pc group
    if d.2.2 then .fault d.1 poisonConsumed descPoisoned
    else match descReason l (tileOf s site).index d.2.1 with
      | some n => .fault d.1 streamDescriptor (reason n)
      | none =>
        if d.2.1.isFrozen then
          let x := { d.2.1 with st := .waitFreeze }
          .ok (takeFreeze (setStrm d.1 site k x) l site k x) 0
        else .ok (setStrm d.1 site k d.2.1) 0

/-- Mask of the slots that hold an uncompleted stream; one whose baton waits has completed (R266, R274). -/
def strmMask (t : Tile) : DWord :=
  BitVec.ofNat 64 ((openStrms t).map fun k => 2 ^ k).sum

/-- STRM.WAIT. A group that waits leaves the active set, as on a message reply (DESIGN CHOICE, notes/assumptions/86.md). -/
def strmWaitOut (s : State) (site : Nat) (mask : T64) : StrmOut :=
  if mask.poison then .fault s poisonConsumed 0x02
  else if strmMask (tileOf s site) &&& mask.val = 0 then .ok s 0 else .wait (.streams mask.val.toNat)

/-- STRM.CANCEL (R269): issued requests of a local kind are performed, faults apart, those of a fabric kind have been
sent; the freeze and the halt end with the stream (DEDUCED, notes/assumptions/48.md). -/
def strmCancelOut (s : State) (l : Launch) (site : Nat) (slot : T64) : StrmOut :=
  let k := slot.val.toNat
  if slot.poison then .fault s poisonConsumed 0x02
  else if 64 ≤ k then .fault s streamDescriptor (BitVec.ofNat 64 (k % 64 * 256 + 0x07))
  else match NMap.find (tileOf s site).streams k with
    | none => .ok s 0
    | some x =>
      if x.st = .posting ∨ x.moved then .ok s 0
      else
        let s := if x.kind ≤ 3 then x.issued.foldl (fun s r =>
            match moveReq s l site k x r with
            | (s', .ok ()) => reqDone s' l site k r
            | _ => s) s
          else s
        let s := forgetRemotes s fun q => match q.what with
          | .stream st sl _ => st == site && sl == k
          | _ => false
        .ok (wake (endHalts (dropStrm s site k) fun h => h.what == .stream site k) site) 1

/-- The stream engine raises these, not the unit that issued the instruction (R58, R394). -/
def ofEngine (code : Nat) (detail : DWord) : Bool := code == streamDescriptor || detail == descPoisoned

/-- OPERAND of a stream instruction's fault: its own address, where no data are poisoned (R59, R395). -/
def strmOperand (code : Nat) (pc : DWord) : DWord := if code = streamDescriptor then vaOperand pc else 0

/-- A stream instruction of the control core. -/
def ccStrm (s : State) (pc : DWord) (o : StrmOut) (put : State → DWord → CcOut) : CcOut :=
  match o with
  | .ok s v => put s v
  | .fault s code detail =>
    .fault s (if ofEngine code detail then 5 else 1) code (strmOperand code pc) detail
  | .wait _ => .wait s

/-- A stream instruction of a group, issuer-only (R126, R265). -/
def thStrm (e : ThEnv) (o : StrmOut) (put : TGroup → Nat → DWord → TGroup) : ThOut :=
  match o with
  | .ok s v => .next (updTile s e.site fun t => setGroup t e.g (eachLane (groupOf t e.g) e.lanes fun x i => put x i v))
  | .fault s code detail =>
    .fault s (if ofEngine code detail then 5 else 2) code (strmOperand code e.pc) detail
  | .wait w => .wait (some w)

/-- The issuer of an issuer-only instruction: the lowest active lane. -/
def issuerLane (e : ThEnv) : Nat := e.lanes.head?.getD 0

/-- STRM.GET to STRM.RPUT. -/
def strmStartStep (s : State) (site : Nat) (i : CrTr) (kind : Nat) : State :=
  match i with
  | .cc f => ccStep (srcs := [f.rs1.toNat, f.rs2.toNat]) s site (f.fn.toNat == kind && f.rd == 0) false fun l s t pc =>
      ccStrm s pc (strmStart s l site kind (ccReg t f.rs1.toNat) (ccReg t f.rs2.toNat) pc none) fun s _ => .next s
  | .th g f => thStep s site g (fun _ => trClean f && f.fn.toNat == kind && f.mod == 0) [ru f.src1 1, ru f.src2 1]
      [f.dst.toNat, f.src3.toNat] none fun e s x =>
        let i := issuerLane e
        thStrm e (strmStart s e.launch site kind (wide (treg x i f.src1.toNat)) (wide (treg x i f.src2.toNat)) e.pc (some g))
          fun x _ _ => x

def execStrmGet (site : Site) (i : CrTr) (s : State) : Host.Outcome State Fault Refusal :=
  whenUp s fun s => strmStartStep s site i 0
def execStrmPut (site : Site) (i : CrTr) (s : State) : Host.Outcome State Fault Refusal :=
  whenUp s fun s => strmStartStep s site i 1
def execStrmXfer (site : Site) (i : CrTr) (s : State) : Host.Outcome State Fault Refusal :=
  whenUp s fun s => strmStartStep s site i 2
def execStrmPref (site : Site) (i : CrTr) (s : State) : Host.Outcome State Fault Refusal :=
  whenUp s fun s => strmStartStep s site i 3
def execStrmRget (site : Site) (i : CrTr) (s : State) : Host.Outcome State Fault Refusal :=
  whenUp s fun s => strmStartStep s site i 4
def execStrmRput (site : Site) (i : CrTr) (s : State) : Host.Outcome State Fault Refusal :=
  whenUp s fun s => strmStartStep s site i 5

def execStrmWait (site : Site) (i : CrTr) (s : State) : Host.Outcome State Fault Refusal :=
  whenUp s fun s =>
    match i with
    | .cc f => ccStep (srcs := [f.rs1.toNat]) s site (f.fn == 0x10 && f.rd == 0 && f.rs2 == 0) false fun _ s t pc =>
        ccStrm s pc (strmWaitOut s site (ccReg t f.rs1.toNat)) fun s _ => .next s
    | .th g f => thStep s site g (fun _ => trClean f && f.fn == 0x10 && f.mod == 0) [ru f.src1 2]
        [f.dst.toNat, f.src2.toNat, f.src3.toNat] none fun e s x =>
          thStrm e (strmWaitOut s site (tpair x (issuerLane e) f.src1.toNat)) fun x _ _ => x

def execStrmStat (site : Site) (i : CrTr) (s : State) : Host.Outcome State Fault Refusal :=
  whenUp s fun s =>
    match i with
    | .cc f => ccStep s site (f.fn == 0x11 && f.rs1 == 0 && f.rs2 == 0) false fun _ s t _ =>
        ccWrite s site f.rd.toNat { val := strmMask t, poison := false }
    | .th g f => thStep s site g (fun _ => trClean f && f.fn == 0x11 && f.mod == 0) [ru f.dst 2]
        [f.src1.toNat, f.src2.toNat, f.src3.toNat] (some (ru f.dst 2)) fun e s _ =>
          thStrm e (.ok s (strmMask (tileOf s site))) fun x i v => setTpair x i f.dst.toNat { val := v, poison := false }

def execStrmCancel (site : Site) (i : CrTr) (s : State) : Host.Outcome State Fault Refusal :=
  whenUp s fun s =>
    match i with
    | .cc f => ccStep (srcs := [f.rs2.toNat]) s site (f.fn == 0x12 && f.rs1 == 0) false fun l s t pc =>
        ccStrm s pc (strmCancelOut s l site (ccReg t f.rs2.toNat)) fun s v =>
          ccWrite s site f.rd.toNat { val := v, poison := false }
    | .th g f => thStep s site g (fun _ => trClean f && f.fn == 0x12 && f.mod == 0) [ru f.dst 1, ru f.src2 1]
        [f.src1.toNat, f.src3.toNat] (some (ru f.dst 1)) fun e s x =>
          thStrm e (strmCancelOut s e.launch site (wide (treg x (issuerLane e) f.src2.toNat))) fun x i v =>
            setTreg x i f.dst.toNat { val := BitVec.ofNat 32 v.toNat, poison := false }

/-! ### Completion (R266) -/

/-- The baton of a stream (R266). -/
def strmBaton (own : Nat) (x : Strm) : T64 :=
  let off := if dstStore x.kind then fld x.d1 20 0 else if x.kind = 3 then 0 else fld x.d0 20 0
  { val := batonOf (fld x.d5 49 38) own (min (x.rows * x.rowBytes) 4194303) off, poison := false }

/-- STREAM_COMPLETE: the freeze ends, the bytes are counted, and the baton is posted. -/
def finishStrm (s : State) (l : Launch) (site slot : Nat) (x : Strm) : State :=
  let s := setStrm s site slot { x with frozen := [], st := .posting }
  let s := wake (bump s 5 l.ctx 8 (x.rows * x.rowBytes)) site
  if x.bp then
    match l.sites[fld x.d5 58 50]? with
    | some dest => postOrDefer s site (some slot) dest (fld x.d5 62 59) (strmBaton (tileOf s site).index x)
    | none => wake (dropStrm s site slot) site
  else wake (dropStrm s site slot) site

def execStreamComplete (site : Site) (slot : Nat) (s : State) : Host.Outcome State Fault Refusal :=
  whenUp s fun s =>
    match runningLaunch s site, NMap.find (tileOf s site).streams slot with
    | some l, some x => if x.st = .active ∧ x.moved then finishStrm s l site slot x else s
    | _, _ => s

/-! ### Resuming and the responses of fabric kinds (R270, R368) -/

/-- FAULT_RESUME of a halted stream: it goes on at its position, translating again. -/
def resumeStrm (s : State) (site slot : Nat) : State :=
  match NMap.find (tileOf s site).streams slot with
  | none => s
  | some x =>
    if x.st = .halted then
      let s := forgetRemotes s fun q => match q.what with
        | .stream st sl _ => st == site && sl == slot
        | _ => false
      setStrm s site slot { x with st := .active, next := x.pos, issued := [], failed := [], seen := [] }
    else s

/-- A response of a stream's remote request: the data, or the fault of its status (R270, R368, R371). -/
def strmResponse (s : State) (q : Remote) (site slot r status : Nat) (bs : List Byte) (ps : List Bool) : State :=
  match launchOn s site, NMap.find (tileOf s site).streams slot with
  | some l, some x =>
    if l.ctx ≠ q.ctx ∨ !x.issued.contains r then s
    else if status = 0 then
      let s := if x.kind = 4 then storePieces s l site (x.dstAddr r).toNat (x.srcAddr r).toNat bs ps else s
      setStrm s site slot { x with issued := x.issued.filter (· != r) }
    else
      strmFault s l site slot r (if status = 0x03 then 10 else 5) (statusFault status) (remoteOperand q)
        (remoteDetail q status)
  | _, _ => s

end Sys2Proof.Machine
end

