-- ==== Sys2Proof/Machine/Messages.lean ====
section
/-! DEFINITION. The message path (R277 to R281), and END, by which the control core ends a tile's part of a launch (R98,
R250). -/

namespace Sys2Proof.Machine

/-! ### Destinations (R277) -/

/-- A message destination: words 0 and 1, and whether a register of it is poisoned. -/
structure MsgDest where
  w0 : DWord
  w1 : DWord
  poison : Bool
  deriving DecidableEq, Repr

def MsgDest.dkind (d : MsgDest) : Nat := fld d.w0 63 62
def MsgDest.len (d : MsgDest) : Nat := 2 ^ fld d.w0 61 59
def MsgDest.op (d : MsgDest) : Nat := fld d.w0 58 55
def MsgDest.addr (d : MsgDest) : DWord := BitVec.ofNat 64 (fld d.w0 51 0)
def MsgDest.tile (d : MsgDest) : Nat := fld d.w1 8 0
def MsgDest.bp (d : MsgDest) : Bool := bit d.w1 63
def MsgDest.node (d : MsgDest) : Nat := fld d.w1 29 16

/-- Reserved values, and bits set that the DKIND does not use. -/
def destRsv (d : MsgDest) (get : Bool) : Bool :=
  let size := fld d.w0 61 59
  d.dkind == 3 || decide (size < 2 ∨ 6 < size) || fld d.w0 54 52 != 0 ||
  (if d.dkind = 1 then decide (7 < d.op) else d.op != 0) || (get && (d.op != 0 || d.bp)) ||
  match d.dkind with
  | 0 => decide (d.addr.toNat ≥ 2 ^ 21) || fld d.w1 46 9 != 0
  | 1 => d.w1 != 0
  | _ => decide (d.addr.toNat ≥ 2 ^ 40) || fld d.w1 63 30 != 0

/-- What a message instruction does: accepted, a fault of UNIT 6 with OPERAND and DETAIL, or a wait. -/
inductive MsgOut where
  | ok (s : State)
  /-- MSG.GET with its data. -/
  | data (s : State) (bs : List Byte) (poison : Bool)
  | fault (s : State) (code : Nat) (operand detail : DWord)
  | wait
  deriving DecidableEq, Repr

/-- Faults of a destination at the instruction (R277, R281): a malformed one is not permitted (notes/assumptions/25.md). -/
def destFault (s : State) (l : Launch) (d : MsgDest) (get : Bool) (pc : DWord) : Option (Nat × DWord × DWord) :=
  if d.poison then some (poisonConsumed, 0, 0x02)
  else if destRsv d get then some (messageDest, vaOperand pc, 0)
  else if d.addr.toNat % d.len ≠ 0 then some (misaligned, d.addr, 0)
  else if (d.dkind = 0 ∧ l.sites.length ≤ d.tile) ∨ (d.dkind = 2 ∧ jobFor s l.ctx l.cmd.queue = 0) then
    some (messageDest, vaOperand pc, 0)
  else none

/-- Messages of a tile in flight: queued, sent over the fabric without a response, or holding their credit for a baton
(R274, R279). -/
def msgsInFlight (s : State) (site : Nat) : Nat :=
  let t := tileOf s site
  t.msgs.length + (t.deferred.filter fun d => d.slot.isNone).length +
    (s.remotes.filter fun r => match r.2.what with
      | .msgSend st _ | .msgGet st _ _ => st == site
      | _ => false).length

/-- Two messages that R280 orders when they come from one issuer: to one tile, to the module, or to one node. -/
def sameGoal (a0 a1 b0 b1 : DWord) : Bool :=
  let a : MsgDest := { w0 := a0, w1 := a1, poison := false }
  let b : MsgDest := { w0 := b0, w1 := b1, poison := false }
  a.dkind == b.dkind && (match a.dkind with
    | 0 => a.tile == b.tile
    | 1 => true
    | _ => a.node == b.node)

/-- MSG.SEND of one issuer (R278, R279, R281). -/
def msgSendOne (s : State) (l : Launch) (site : Nat) (issuer : Option Nat) (d : MsgDest) (payload : List Byte)
    (poison : Bool) (pc : DWord) : MsgOut :=
  match destFault s l d false pc with
  | some (code, o, dt) => .fault s code o dt
  | none =>
    if d.dkind = 2 ∧ poison then .fault s poisonConsumed 0 0x05
    else if 64 ≤ msgsInFlight s site then .wait
    else
      let m : Msg := { issuer := issuer, w0 := d.w0, w1 := d.w1, payload := payload, poison := poison, pc := pc }
      .ok (updTile s site fun t => { t with msgs := t.msgs ++ [m] })

/-- The remote request of a message. -/
def msgRemote (l : Launch) (what : RemoteOf) (d : MsgDest) (pc : DWord) : Remote :=
  { what := what, ctx := l.ctx, queue := l.cmd.queue, node := BitVec.ofNat 14 d.node,
    window := BitVec.ofNat 16 (fld d.w1 15 0), offset := BitVec.ofNat 40 d.addr.toNat, bytes := d.len, pc := pc }

/-- MSG.GET of one issuer into registers from reg on: it follows the issuer's earlier messages to the same goal (R280).
A fabric GET sends its READ, and its response fills the registers. -/
def msgGetOne (s : State) (l : Launch) (site : Nat) (issuer : Option Nat) (reg : Nat) (d : MsgDest) (pc : DWord) : MsgOut :=
  match destFault s l d true pc with
  | some (code, o, dt) => .fault s code o dt
  | none =>
    if ((tileOf s site).msgs.any fun m => m.issuer == issuer && sameGoal m.w0 m.w1 d.w0 d.w1) ||
        decide (64 ≤ msgsInFlight s site) then .wait
    else match d.dkind with
      | 0 =>
        match l.sites[d.tile]? with
        | some dest =>
          let r := tsRead s l dest d.addr.toNat d.len
          .data r.1 r.2.1 r.2.2
        | none => .fault s messageDest (vaOperand pc) 0
      | 1 =>
        match cRead s l.ctx d.addr d.len with
        | (s, .ok (bs, p)) => .data s bs p
        | (s, .fault c v dt) => .fault s c v (BitVec.ofNat 64 dt)
        | (_, .wait) => .wait
      | _ =>
        let r := msgRemote l (.msgGet site issuer reg) d pc
        match sendRequest s r typeRead [] [] with
        | .sent s => .ok s
        | .unreachable => .fault s remoteUnreachable (remoteOperand r) (remoteDetail r 0xF0)
        | .wait => .wait

/-! ### Message instructions (R278) -/

/-- Destination in a control-core register pair. -/
def ccDest (t : Tile) (r : Nat) : MsgDest :=
  let a := ccReg t r
  let b := ccReg t (r + 1)
  { w0 := a.val, w1 := b.val, poison := a.poison || b.poison }

/-- Destination in a thread register quad. -/
def thDest (x : TGroup) (i r : Nat) : MsgDest :=
  let a := tpair x i r
  let b := if r = 255 then T64.zero else tpair x i (r + 2)
  { w0 := a.val, w1 := b.val, poison := a.poison || b.poison }

/-- n bytes of control-core registers from r on, 8 bytes each. -/
def ccBytes (t : Tile) (r n : Nat) : List Byte × Bool :=
  let ws := (List.range ((n + 7) / 8)).map fun i => ccReg t (r + i)
  (((ws.map fun w => leBytes w.val.toNat 8).flatten).take n, ws.any (·.poison))

/-- Fill control-core registers from r on; a result of 4 bytes is zero-extended. -/
def setCcBytes (t : Tile) (r : Nat) (bs : List Byte) (poison : Bool) : Tile :=
  (List.range ((bs.length + 7) / 8)).foldl (fun t i =>
    setCcReg t (r + i) { val := BitVec.ofNat 64 (leNat ((bs.drop (8 * i)).take 8)), poison := poison }) t

def ccMsg (site rd : Nat) (s : State) (o : MsgOut) : CcOut :=
  match o with
  | .ok s => .next s
  | .data s bs p => .next (updTile s site fun t => setCcBytes t rd bs p)
  | .fault s code operand detail => .fault s 6 code operand detail
  | .wait => .wait s

/-- Registers of 4 bytes that the largest message of a group's leading set names. -/
def msgRegs (s : State) (site g : Nat) (src : BitVec 8) : Nat :=
  let x := groupOf (tileOf s site) g
  ((leadingSet x).map fun i => (min (thDest x i src.toNat).len 64 + 3) / 4).foldl max 1

/-- A message instruction of a group, lane by lane, ascending. -/
def thMsgLanes (e : ThEnv) (dst : Nat) (op : State → TGroup → Nat → MsgOut) (s : State) (lanes : List Nat) : ThOut :=
  match lanes with
  | [] => .next s
  | i :: r =>
    match op s (groupOf (tileOf s e.site) e.g) i with
    | .ok s => thMsgLanes e dst op (updTile s e.site fun t =>
        let x := markLane (groupOf t e.g) i
        let new := (getKeys s e.site e.g).filter fun k => !x.missPend.contains k
        setGroup t e.g { x with missPend := x.missPend ++ new }) r
    | .data s bs p => thMsgLanes e dst op (updTile s e.site fun t =>
        setGroup t e.g (markLane (setTbytes (groupOf t e.g) i dst bs p) i)) r
    | .fault s code operand detail => .fault s 6 code operand detail
    | .wait => .waitIn s .other

/-- A register field of a message: the zero encoding, or a multiple of 4 with its n registers below REGS. -/
def msgReg (r : BitVec 8) (n : Nat) (l : Launch) : Bool := r == 0xFF || (r.toNat % 4 == 0 && decide (r.toNat + n ≤ l.regs))

def execMsgSend (site : Site) (i : CrTr) (s : State) : Host.Outcome State Fault Refusal :=
  whenUp s fun s =>
    match i with
    | .cc f => ccStep (srcs := [f.rs1.toNat, f.rs2.toNat]) s site (f.fn == 0 && f.rd == 0 && f.rs1.toNat % 2 == 0) false
        fun l s t pc =>
          let d := ccDest t f.rs1.toNat
          if !d.poison && decide (d.len ≤ 64) && decide (63 < f.rs2.toNat + (d.len + 7) / 8 - 1) then
            .fault s 1 illegalInstruction (vaOperand pc) 0
          else
            let p := ccBytes t f.rs2.toNat (min d.len 64)
            ccMsg site 0 s (msgSendOne s l site none d p.1 p.2 pc)
    | .th g f =>
      let n := msgRegs s site g f.src1
      thStep s site g (fun l => trClean f && f.fn == 0 && f.mod == 0 && msgReg f.src2 n l) [ru f.src1 4, ru f.src2 n]
        [f.dst.toNat, f.src3.toNat] none fun e s x =>
          thMsgLanes e 255 (fun s x i =>
            let d := thDest x i f.src1.toNat
            let p := tbytes x i f.src2.toNat (min d.len 64)
            msgSendOne s e.launch site (some (g * 32 + i)) d p.1 p.2 e.pc) s (lanesLeft x e.lanes)

def execMsgGet (site : Site) (i : CrTr) (s : State) : Host.Outcome State Fault Refusal :=
  whenUp s fun s =>
    match i with
    | .cc f => ccStep (srcs := [f.rs1.toNat]) s site (f.fn == 1 && f.rs2 == 0 && f.rs1.toNat % 2 == 0) false
        fun l s t pc =>
          let d := ccDest t f.rs1.toNat
          if !d.poison && decide (d.len ≤ 64) && decide (63 < f.rd.toNat + (d.len + 7) / 8 - 1) then
            .fault s 1 illegalInstruction (vaOperand pc) 0
          else ccMsg site f.rd.toNat s (msgGetOne s l site none f.rd.toNat d pc)
    | .th g f =>
      let n := msgRegs s site g f.src1
      thStep s site g (fun l => trClean f && f.fn == 1 && f.mod == 0 && msgReg f.dst n l) [ru f.dst n, ru f.src1 4]
        [f.src2.toNat, f.src3.toNat] (some (ru f.dst n)) fun e s x =>
          thMsgLanes e f.dst.toNat (fun s x i =>
            msgGetOne s e.launch site (some (g * 32 + i)) f.dst.toNat (thDest x i f.src1.toNat) e.pc) s (lanesLeft x e.lanes)

/-- MSG.FLUSH: every earlier message of the issuer has been performed, at its target too (R278, R280). -/
def flushBlocked (s : State) (site : Nat) (issuers : List (Option Nat)) : Bool :=
  issuers.any fun i => messagesLeft (tileOf s site) i || remotesLeft s site i

def execMsgFlush (site : Site) (i : CrTr) (s : State) : Host.Outcome State Fault Refusal :=
  whenUp s fun s =>
    match i with
    | .cc f => ccStep s site (sysLegal f 2) false fun _ s _ _ =>
        if flushBlocked s site [none] then .wait s else .next s
    | .th g f => thStep s site g (fun _ => trClean f && f.fn == 2 && f.mod == 0) []
        [f.dst.toNat, f.src1.toNat, f.src2.toNat, f.src3.toNat] none fun e s _ =>
          if flushBlocked s site (e.lanes.map fun i => some (g * 32 + i)) then .wait none else .next s

/-! ### Delivery (R279, R280) -/

/-- No earlier message of the issuer goes to the same goal. -/
def deliverable (t : Tile) (pos : Nat) (m : Msg) : Bool :=
  !((t.msgs.take pos).any fun k => k.issuer == m.issuer && sameGoal k.w0 k.w1 m.w0 m.w1)

/-- The message leaves the path. -/
def dropMsg (s : State) (site pos : Nat) : State := updTile s site fun t => { t with msgs := t.msgs.eraseIdx pos }

/-- A fault of a message at its delivery. -/
def msgFault (s : State) (l : Launch) (site : Nat) (pc : DWord) (code : Nat) (operand detail : DWord) : State :=
  tileFault s l site 6 code operand pc detail

/-- The issuer of a message as a mask: the lane of a thread, none for the control core. -/
def msgMask (issuer : Option Nat) : Word :=
  match issuer with
  | some k => maskOf [k % 32]
  | none => 0

/-- Perform a message. -/
def deliver (s : State) (l : Launch) (site pos : Nat) (m : Msg) : State :=
  let d : MsgDest := { w0 := m.w0, w1 := m.w1, poison := false }
  let s0 := dropMsg s site pos
  match d.dkind with
  | 0 =>
    match l.sites[d.tile]? with
    | none => s0
    | some dest =>
      let s := tsWrite s0 l dest d.addr.toNat m.payload m.poison
      if d.bp then
        postOrDefer s site none dest (fld m.w1 62 59)
          { val := batonOf (fld m.w1 58 47) (tileOf s site).index d.len d.addr.toNat, poison := false }
      else s
  | 1 =>
    if d.op = 0 then
      match translate s0 l.ctx .write d.addr with
      | (s1, .ok t) =>
        (match writeAt s1 l.ctx t d.addr m.payload m.poison false with
        | (u, .ok ()) => l1Drop (markHeld u s1.sovel.held.length site m.issuer) site t.pa
        | (s, .fault c v dt) => msgFault s l site m.pc c v (BitVec.ofNat 64 dt)
        | (_, .wait) => s)
      | (s, .fault c v dt) => msgFault s l site m.pc c v (BitVec.ofNat 64 dt)
      | (_, .wait) => s
    else
      match rmwTarget s0 l.ctx d.addr with
      | (s, .ok t) =>
        if regionOf t.pa = .sovel ∧ m.poison then msgFault s l site m.pc poisonConsumed 0 0x04
        else l1Drop (takeReduce s
          { requester := site, agent := (tileOf s site).index, ctx := l.ctx, part := (settingOf s l.ctx l.cmd.queue).part.toNat, pa := t.pa,
            bytes := d.len, cp := 0, op := .reduce (BitVec.ofNat 8 d.op) 0 m.payload, poison := m.poison,
            info := { tileFaultInfo l site 6 0 d.addr m.pc 0 ((m.issuer.getD 0) / 32) 0 with mask := msgMask m.issuer } }) site t.pa
      | (s, .fault c v dt) => msgFault s l site m.pc c v (BitVec.ofNat 64 dt)
      | (_, .wait) => s
  | _ =>
    let r := msgRemote l (.msgSend site m.issuer) d m.pc
    if jobFor s l.ctx l.cmd.queue = 0 then msgFault s0 l site m.pc remoteNoWindow (remoteOperand r) (remoteDetail r 0xF1)
    else match sendRequest s0 r typeWrite m.payload [] with
      | .sent s => s
      | .unreachable => msgFault s0 l site m.pc remoteUnreachable (remoteOperand r) (remoteDetail r 0xF0)
      | .wait => s

/-- MESSAGE_DELIVERY. -/
def execMessageDelivery (site : Site) (pos : Nat) (s : State) : Host.Outcome State Fault Refusal :=
  whenUp s fun s =>
    match runningLaunch s site, (tileOf s site).msgs[pos]? with
    | some l, some m => if deliverable (tileOf s site) pos m then deliver s l site pos m else s
    | _, _ => s

/-- A response of a message's remote request (R278, R368, R371). -/
def msgResponse (s : State) (q : Remote) (status : Nat) (bs : List Byte) (ps : List Bool) : State :=
  let site := match q.what with
    | .msgSend st _ | .msgGet st _ _ => st
    | _ => 0
  match launchOn s site with
  | none => s
  | some l =>
    if l.ctx ≠ q.ctx then s
    else if status ≠ 0 then
      raiseFault s l.ctx .f (tileFaultInfo l site 6 (statusFault status) (remoteOperand q) q.pc (remoteDetail q status) 0 0)
    else match q.what with
      | .msgGet _ none reg => updTile s site fun t => setCcBytes t reg bs (ps.any id)
      | .msgGet _ (some k) reg =>
        wake (updTile s site fun t =>
          let x := setTbytes (groupOf t (k / 32)) (k % 32) reg bs (ps.any id)
          let keys := (List.range ((q.bytes + 3) / 4)).map fun j => k % 32 * 256 + reg + j
          setGroup t (k / 32) { x with missPend := x.missPend.filter fun m => !keys.contains m }) site
      | _ => s

/-! ### END (R98, R250) -/

/-- What END waits for: groups, vector instructions, streams, messages, armed queues (DEDUCED, notes/assumptions/49.md). -/
def endBlocked (s : State) (site : Nat) : Bool :=
  let t := tileOf s site
  runningMask t != 0 || t.vec.queue != [] || t.streams != [] || msgsInFlight s site != 0 || t.deferred != [] ||
    t.array.accepted != [] || turnsLeft s site ||
    t.bqs.any fun e => match e.2.armed with
      | some (_, g) => e.2.items != [] || (groupOf t g).running
      | none => false

/-- The tile's part ends; the launch completes with its last part (R98). -/
def endPart (s : State) (l : Launch) (site : Nat) : State :=
  let s := updTile s site freeTile
  let ended := NSet.add l.ended (tileOf s site).index
  if l.sites.length ≤ ended.length then
    finish { s with launches := s.launches.filter fun k => k.cmd != l.cmd } l.cmd 0 0 0
  else
    { s with launches := s.launches.map fun (k : Launch) => if k.cmd == l.cmd then { k with ended := ended } else k }

/-- END. A sample of the tile whose verdict has not come holds it (R389). -/
def execEndTile (site : Site) (f : CrF) (s : State) : Host.Outcome State Fault Refusal :=
  whenUp s fun s => ccStep s site (sysLegal f 0x01) false fun l s t _ =>
    if endBlocked s site || t.samples != [] then .wait s else .next (endPart s l site)

end Sys2Proof.Machine
end

