-- ==== Sys2Proof/Machine/Ports.lean ====
section
/-! DEFINITION. The fabric's ports, tables and jobs: RXT_WRITE (R350 to R353, R363), JOB_EPOCH (R373), bring-up and
quarantine (R354 to R356), link-layer retry and lane sparing (R357, R358), and the end of remote requests (R362, R368). -/

namespace Sys2Proof.Machine

/-! ### The end of a remote request (R362, R368, R372) -/

/-- Give a remote request its response, or its local failure, and forget it. -/
def settleRemote (s : State) (tag : Nat) (q : Remote) (status : Nat) (bs : List Byte) (ps : List Bool) : State :=
  let s := { s with remotes := NMap.erase s.remotes tag }
  match q.what with
  | .stream site slot r => strmResponse s q site slot r status bs ps
  | .msgSend .. | .msgGet .. => msgResponse s q status bs ps
  | .dispatchRow .. | .arrival .. | .combine .. => dispResponse s q status bs ps

/-- A packet is discarded and counted on the port that it came by (R356, R359, R362, R367, R372). -/
def countDiscard (s : State) (port : Nat) : State := if port < 20 then bump s 4 port 5 1 else s

/-! ### Port states (R353 to R356, R358) -/

def PState.code : PState → Nat
  | .off => 0
  | .down => 1
  | .trained => 2
  | .quarantine => 3
  | .active => 4

/-- A port takes a state: CHANGES and event 0x03 follow a change of PSTATE. -/
def setPState (s : State) (port : Nat) (d : Port) (st : PState) (qreason : Nat) : State :=
  let old := (portOf s port).pstate
  let d := { d with pstate := st, qreason := BitVec.ofNat 4 qreason }
  if old = st then setPort s port d
  else
    let s := setPort s port { d with changes := satAdd d.changes 1 }
    logEvent s (port / 10) 0x03 0 0
      (BitVec.ofNat 64 (port + (old.code <<< 8) + (st.code <<< 16) + (qreason <<< 24))) 0 0

/-- Lanes in use among the healthy ones (R355, R358): eight, the spare in the place of a failed one, else the four
lowest; none where fewer than four are healthy. -/
def lanesFor (healthy : Nat) : Option (BitVec 9) :=
  let up := setBits healthy 9
  let mask (l : List Nat) : BitVec 9 := BitVec.ofNat 9 (l.map (2 ^ ·)).sum
  if 8 ≤ up.length then some (mask (up.take 8))
  else if 4 ≤ up.length then some (mask (up.take 4))
  else none

/-- A TREE.UP that has not left yet carries a poisoned contribution. -/
def spoilUp (p : Packet) : Packet :=
  if p.type = 0x28 then { p with tree := p.tree.map fun v => { v with poisoned := true } } else p

/-- A run whose command is gone: from now on it is that of an aborted member, and a TREE.UP that it has not sent yet carries a
poisoned contribution instead (R374, R379). -/
def goneRun (r : CollRun) : CollRun := { r with out := r.out.map spoilUp, aborted := true }

def collOf (s : State) (c : CmdRef) : Option CollRun := s.collRuns.find? fun r => r.cmd == c
def setColl (s : State) (r : CollRun) : State :=
  { s with collRuns := s.collRuns.map fun (x : CollRun) => if x.cmd == r.cmd then r else x }

/-- The run's command, while the run has one. -/
def runCommand (s : State) (r : CollRun) : Option Cmd := if r.aborted then none else cmdOf s r.cmd

/-- A fault of a run is class F; the run then behaves as that of an aborted member (R379). -/
def collFault (s : State) (r : CollRun) (code : Nat) (operand detail : DWord) : State :=
  let s := match runCommand s r with
    | some k => failF s k 9 code operand detail
    | none => s
  setColl s (goneRun r)

/-- A collective packet has no port to its node: it names that node, and no window and offset (R368) (DEDUCED,
notes/assumptions/84.md). -/
def collUnreachable (s : State) (r : CollRun) (node : BitVec 14) : State :=
  collFault s r remoteUnreachable 0 (BitVec.ofNat 64 ((node.toNat <<< 34) + 0xF0))

/-- The issuer key of an engine run (R360). -/
def runKey (c : CmdRef) : Nat := 8 * (((c.ctx * 16 + c.queue) * 2 ^ 32 + c.index) * 2 ^ 32 + c.lpos) + 5

/-- No port leads to the node of a packet that waited in a replay buffer: a request, and the run of a collective packet,
fail as unreachable (R358, R368). -/
def packetLost (s : State) (u : Unacked) : State :=
  if u.packet.vc = 0 then
    match NMap.find s.remotes u.packet.tag.toNat with
    | some q => settleRemote s u.packet.tag.toNat q 0xF0 [] []
    | none => s
  else
    match s.collRuns.find? fun r => runKey r.cmd == u.issuer with
    | some r => collUnreachable s r u.packet.dnode
    | none => s

/-- Send a packet of a replay buffer by another port that R359 permits; it waits until that port takes it, in its issuer's
order (R358, R360). -/
def resend (s : State) (u : Unacked) : State :=
  match choosePort s u.issuer (u.issuer % 8 == 1) u.packet with
  | none => packetLost s u
  | some port =>
    if portFull s port u.issuer (u.issuer % 8 == 1) u.packet then { s with rehomed := s.rehomed ++ [u] }
    else putOnPort s port u.issuer u.packet

/-- Try what waits for a port once more. -/
def resendWaiting (s : State) : State :=
  if s.rehomed.isEmpty then s else s.rehomed.foldl resend { s with rehomed := [] }

/-- The link of a port ends: what its replay buffer held is sent elsewhere or fails. training says whether the port
trains anew. -/
def linkEnds (s : State) (port : Nat) (st : PState) (training : Bool) : State :=
  let d := portOf s port
  let fresh : Port :=
    { Port.reset with lanes := d.lanes, retries := d.retries, changes := d.changes, failed := d.failed, training := training }
  d.replay.foldl resend (setPState s port fresh st 0)

/-- Every port that p picks. -/
def eachPort (s : State) (f : State → Nat → State) : State := (List.range 20).foldl f s

/-- A written configuration record takes effect (R353). -/
def applyConfig (s : State) (new : Nat → DWord) : State :=
  let old (w : Nat) : DWord := cfgWord s w
  let pen0 := fld (old 0) 47 28
  let pen1 := fld (new 0) 47 28
  let full := decide (fld (old 0) 13 0 ≠ fld (new 0) 13 0) || (bit (old 0) 63 != bit (new 0) 63) ||
    decide (fld (old 1) 63 40 ≠ fld (new 1) 63 40) || decide (old 2 ≠ new 2) || decide (old 3 ≠ new 3)
  let s := (List.range 16).foldl (fun s w => setCfgWord s w (new w)) s
  eachPort s fun s p =>
    let off := pen0.testBit p && !pen1.testBit p
    let on := !pen0.testBit p && pen1.testBit p
    if off then linkEnds s p .off false
    else if on || (full && pen1.testBit p) then linkEnds s p .down true
    else s

/-! ### RXT_WRITE (R350, R351, R363) -/

def rxtOf (s : State) (i : Nat) : Rxt := NMap.getD s.rxt i Rxt.empty

/-- Bytes of an entry of a table. -/
def tableEntry (table : Nat) : Nat :=
  match table with
  | 0 => 32
  | 1 => 4
  | 2 => 1
  | 3 => 128
  | _ => 32

/-- The port status record (R354). -/
def portWords (d : Port) : List Nat :=
  [(d.pstate.code <<< 61) + (d.qreason.toNat <<< 57) + (d.lanes.toNat <<< 48) + (d.ver.toNat <<< 40) +
      (d.peerport.toNat <<< 32) + (b2n d.peersw <<< 31) + (d.peerinc.toNat <<< 16) + d.peernode.toNat,
    (d.retries.toNat <<< 32) + d.changes.toNat, d.peerprof.toNat % 2 ^ 64, d.peerprof.toNat / 2 ^ 64]

/-- The bytes of an entry of a table. -/
def tableBytes (s : State) (table i : Nat) : List Byte :=
  match table with
  | 0 => let e := rxtOf s i; leBytes e.w0.toNat 8 ++ leBytes e.w1.toNat 8 ++ leBytes e.w2.toNat 8 ++ leBytes e.w3.toNat 8
  | 1 => leBytes (NMap.getD s.nodeRoute i 0).toNat 4
  | 2 => [NMap.getD s.peerInc i 0]
  | 3 => ((List.range 16).map fun w => leBytes (cfgWord s w).toNat 8).flatten
  | _ => ((portWords (portOf s i)).map fun w => leBytes w 8).flatten

/-- The record's checks (R351, R352). -/
def configBad (w : List DWord) : Bool :=
  let c := nthWord w
  let cv := bit (c 0) 63
  let al := aliasesOf (c 4)
  fld (c 0) 62 48 != 0 || fld (c 0) 27 14 != 0 || fld (c 1) 39 6 != 0 || [14, 30, 46, 62].any (bit (c 4)) ||
  (w.drop 5).any (· != 0) || decide (fld (c 1) 63 56 < fld (c 1) 55 48) || (cv && fld (c 1) 47 40 == 0) ||
  decide (fld (c 1) 5 0 < 24 ∨ 40 < fld (c 1) 5 0) || al.contains (fld (c 0) 13 0) || al.eraseDups.length != al.length

def eV (e : Rxt) : Bool := bit e.w0 63
def eRa (e : Rxt) : Bool := bit e.w0 62
def eRw (e : Rxt) : Bool := bit e.w0 61
def eRr (e : Rxt) : Bool := bit e.w0 60
def eCtx (e : Rxt) : Nat := fld e.w0 55 44
def eJob (e : Rxt) : Nat := fld e.w0 43 24
def eOfflo (e : Rxt) : Nat := fld e.w1 63 40
def ePages (e : Rxt) : Nat := fld e.w1 39 16
def eVa (e : Rxt) : Nat := fld e.w2 51 16
def eHandle (e : Rxt) : Word := BitVec.ofNat 32 (fld e.w3 31 0)

/-- The context is ACTIVE or SUSPENDED. -/
def ctxServes (s : State) (ctx : Nat) : Bool :=
  let st := (ctxOf s ctx).state
  st == .active || st == .suspended

/-- What the check of an entry of the receive translation table finds: good, malformed, or a handle's own code. -/
inductive EntryChk where
  | good | bad | handle (code : Nat) (h : Word)
  deriving DecidableEq, Repr

/-- The checks of R363; the handle is judged as one of the entry's context. -/
def rxtChk (s : State) (e : Rxt) : EntryChk :=
  if fld e.w0 59 56 ≠ 0 ∨ fld e.w0 23 0 ≠ 0 ∨ fld e.w1 15 0 ≠ 0 ∨ fld e.w2 63 52 ≠ 0 ∨ fld e.w2 15 0 ≠ 0 ∨ fld e.w3 63 32 ≠ 0 then
    .bad
  else if !eV e then .good
  else if !ctxServes s (eCtx e) ∨ eJob e = 0 ∨ (ctxOf s (eCtx e)).job.toNat ≠ eJob e then .bad
  else match checkHandle s (eCtx e) (eHandle e) { kinds := [.buffer], imports := true, right := some 2 } with
    | some code => .handle code (eHandle e)
    | none =>
      let o := objOf s (hIndex (eHandle e))
      let first := fld o.w1 51 16
      if (eRr e && !hasRight o 0) || ((eRw e || eRa e) && !hasRight o 1) || ePages e == 0 ||
          decide (2 ^ 24 < eOfflo e + ePages e) || decide (eVa e < first ∨ first + fld o.w2 31 0 < eVa e + ePages e) then .bad
      else .good

/-- The check of one image entry of a table. -/
def imageChk (s : State) (table : Nat) (bs : List Byte) : EntryChk :=
  match table with
  | 0 =>
    let w := wordsOf bs
    rxtChk s { w0 := nthWord w 0, w1 := nthWord w 1, w2 := nthWord w 2, w3 := nthWord w 3 }
  | 1 => if 2 ^ 20 ≤ leNat bs then .bad else .good
  | 2 => .good
  | _ => if configBad (wordsOf bs) then .bad else .good

/-- The first entry that fails, and how. -/
def firstFailing (s : State) (table i : Nat) (es : List (List Byte)) : Option (Nat × EntryChk) :=
  match es with
  | [] => none
  | e :: r =>
    match imageChk s table e with
    | .good => firstFailing s table (i + 1) r
    | x => some (i, x)

/-- Write one entry of a table. -/
def putEntry (s : State) (table i : Nat) (bs : List Byte) : State :=
  let w := wordsOf bs
  match table with
  | 0 => { s with rxt := NMap.put Rxt.empty s.rxt i { w0 := nthWord w 0, w1 := nthWord w 1, w2 := nthWord w 2, w3 := nthWord w 3 } }
  | 1 => { s with nodeRoute := NMap.put 0 s.nodeRoute i (BitVec.ofNat 32 (leNat bs)) }
  | 2 => { s with peerInc := NMap.put 0 s.peerInc i (BitVec.ofNat 8 (leNat bs)) }
  | _ => applyConfig s (nthWord w)

def putEntries (s : State) (table i : Nat) (es : List (List Byte)) : State :=
  match es with
  | [] => s
  | e :: r => putEntries (putEntry s table i e) table (i + 1) r

/-- Continue with what a read or write of the collective class gives. -/
def collMem {α : Type} (s0 : State) (k : Cmd) (r : State × MRes α) (f : State → α → State) : State :=
  match r with
  | (s, .ok a) => f s a
  | (s, .fault c v d) => failF s k 9 c v (BitVec.ofNat 64 d)
  | (_, .wait) => s0

def rxtWriteEffect (s : State) (k : Cmd) : State :=
  let table := fld k.w0 3 0
  let first := fld k.w2 19 0
  let count := fld k.w3 19 0
  let n := tableEntry table
  if bit k.w0 4 then s
  else collMem s k (cReadN s k.ref.ctx k.w1.toNat (count * n)) fun s r =>
    if r.2.any id then failF s k 9 poisonConsumed (poisonAt k.w1.toNat (count * n) r.2) 0x03
    else
      let es := chunksOf n r.1
      match firstFailing s table first es with
      | some (_, .handle code h) => failC s k 9 code (BitVec.ofNat 64 h.toNat) (handleDetail s code h)
      | some (i, _) => failC s k 9 badPacket 0 (BitVec.ofNat 64 i)
      | none => done (putEntries s table first es) k count

/-- RXT_WRITE, OUT = 0. -/
def execRxtWrite (c : CmdRef) (s : State) : Host.Outcome State Fault Refusal :=
  whenUp s fun s => runCmd s c 0x3A rxtWriteEffect

def rxtOutEffect (s : State) (k : Cmd) : State :=
  let first := fld k.w2 19 0
  let count := fld k.w3 19 0
  if bit k.w0 4 then
    let image := ((List.range count).map fun i => tableBytes s (fld k.w0 3 0) (first + i)).flatten
    collMem s k (vWriteN s k.ref.ctx k.w1.toNat image) fun s _ => done s k count
  else s

/-- RXT_WRITE, OUT = 1. -/
def execRxtReadOut (c : CmdRef) (s : State) : Host.Outcome State Fault Refusal :=
  whenUp s fun s => runCmd s c 0x3A rxtOutEffect

/-! ### JOB_EPOCH (R373) -/

/-- RESULT of JOB_EPOCH: the epoch before it. -/
def oldEpoch (s : State) (job : Nat) : Nat := ((NMap.find s.jobs job).map (·.epoch.toNat)).getD 0

def jobEpochEffect (s : State) (k : Cmd) : State :=
  let job := fld k.w0 19 0
  if bit k.w0 20 then s
  else if (NMap.find s.jobs job).isNone ∧ 4096 ≤ s.jobs.length then failC s k 9 badPacket 0 0
  else
    let j : Job := { epoch := BitVec.ofNat 32 (fld k.w1 31 0), cdig := k.w3 ++ k.w2, flags := [] }
    done { s with jobs := NMap.insert s.jobs job j } k (oldEpoch s job)

/-- JOB_EPOCH, DROP = 0. -/
def execJobEpoch (c : CmdRef) (s : State) : Host.Outcome State Fault Refusal :=
  whenUp s fun s => runCmd s c 0x3B jobEpochEffect

def jobDropEffect (s : State) (k : Cmd) : State :=
  let job := fld k.w0 19 0
  if bit k.w0 20 then done { s with jobs := NMap.erase s.jobs job } k (oldEpoch s job) else s

/-- JOB_EPOCH, DROP = 1. -/
def execJobEpochDrop (c : CmdRef) (s : State) : Host.Outcome State Fault Refusal :=
  whenUp s fun s => runCmd s c 0x3B jobDropEffect

/-! ### Bring-up (R355) -/

/-- The hello that the module presents: its range is the record's, cut to version 1 (R352, R355). -/
def ownHello (s : State) (port : Nat) : Hello :=
  { verLo := BitVec.ofNat 8 (max (fld (cfgWord s 1) 55 48) 1), verHi := BitVec.ofNat 8 (min (fld (cfgWord s 1) 63 56) 1)
    prof := cfgWord s 3 ++ cfgWord s 2, node := BitVec.ofNat 14 (fabNode s), ninc := BitVec.ofNat 8 (fabNinc s)
    port := BitVec.ofNat 8 port, isSwitch := false }

/-- A TRAINED port sends its hello while CV = 1; one stands for its repetitions (R355;
DESIGN CHOICE, notes/assumptions/89.md). -/
def sendHello (s : State) (port : Nat) : State := if fabCv s then sendFlit s port (.hello (ownHello s port)) else s

/-- LANE_TRAINING: the lanes of an enabled port that trains. -/
def execLaneTraining (port : Nat) (lanes : BitVec 9) (s : State) : Host.Outcome State Fault Refusal :=
  whenUp s fun s =>
    let d := portOf s port
    if port < 20 ∧ d.pstate = .down ∧ d.training then
      match lanesFor lanes.toNat with
      | some use => sendHello (setPState s port { d with lanes := use, failed := ~~~lanes, training := false } .trained 0) port
      | none => s
    else s

/-- The version range that a hello presents (R352): none where the record's range excludes version 1. -/
def versionRange (s : State) : Option (Nat × Nat) :=
  let lo := max (fld (cfgWord s 1) 55 48) 1
  let hi := min (fld (cfgWord s 1) 63 56) 1
  if lo ≤ hi then some (lo, hi) else none

/-- The highest version in both ranges. -/
def negotiated (s : State) (h : Hello) : Option Nat :=
  match versionRange s with
  | some (lo, hi) =>
    let v := min hi h.verHi.toNat
    if lo ≤ v ∧ h.verLo.toNat ≤ v then some v else none
  | none => none

/-- PROF of the record. -/
def fabProf (s : State) : BitVec 128 := cfgWord s 3 ++ cfgWord s 2

/-- The first failing check of the judgement, 0 where every check passes. -/
def judgePeer (s : State) (h : Hello) : Nat :=
  let inc := (NMap.getD s.peerInc h.node.toNat 0)
  (firstReason [
    ((negotiated s h).isNone, 1),
    (h.prof != fabProf s, 2),
    (!h.isSwitch && answers s h.node.toNat, 3),
    (!h.isSwitch && inc != 0 && inc != h.ninc, 4)]).getD 0

/-- HELLO: the peer's control flit reaches a TRAINED port while CV = 1. -/
def execHello (port : Nat) (h : Hello) (s : State) : Host.Outcome State Fault Refusal :=
  whenUp s fun s =>
    let d := portOf s port
    if port < 20 ∧ d.pstate = .trained ∧ fabCv s then
      let q := judgePeer s h
      let d := { d with ver := BitVec.ofNat 8 ((negotiated s h).getD 0), peerport := h.port, peersw := h.isSwitch, peerinc := h.ninc,
                        peernode := if h.isSwitch then 0 else h.node, peerprof := h.prof }
      resendWaiting (setPState s port d (if q = 0 then .active else .quarantine) q)
    else s

/-! ### Link-layer retry (R348, R357) -/

/-- a comes at or after b in the order of sequence numbers, modulo 1,024. -/
def seqGe (a b : BitVec 10) : Bool := decide ((a - b).toNat < 512)

/-- Take the acknowledgement of a flit header: the flits up to it leave the replay buffer. -/
def takeAck (d : Port) (ack : BitVec 10) : Port := { d with replay := d.replay.filter fun u => !seqGe ack u.seq }

/-- n returned credits of a virtual channel pay for the packets that took some, the oldest first. -/
def payOwed (l : List Owed) (vc n : Nat) : List Owed :=
  match l with
  | [] => []
  | o :: r =>
    if o.vc ≠ vc then o :: payOwed r vc n
    else if o.n ≤ n then payOwed r vc (n - o.n)
    else { o with n := o.n - n } :: r

/-- Take the credits of a flit header. -/
def takeCredits (d : Port) (cvc : BitVec 2) (cred : BitVec 8) : Port :=
  if cvc = 3 then d else addCred { d with owed := payOwed d.owed cvc.toNat cred.toNat } cvc.toNat cred.toNat

/-- A discard begins: the port sends one retry request, which names the expected SEQ (R357). -/
def askRetry (s : State) (port : Nat) : State :=
  let d := portOf s port
  if d.rxGap then s
  else sendFlit (bump (setPort s port { d with rxGap := true, retries := satAdd d.retries 1 }) 4 port 2 1) port (.retry d.rxSeq)

/-- What the FEC met in a flit is counted, and an armed injection of detector 0x11 fires at a flit in which the FEC has met
nothing (R405): the state, and whether the flit is good still. -/
def flitChecks (s : State) (port : Nat) (f : Flit) : State × Bool :=
  let s := bump (bump s 4 port 3 f.badWords) 4 port 4 f.corrected
  if !f.good ∨ f.badWords ≠ 0 ∨ f.corrected ≠ 0 ∨ s.injections = [] then (s, f.good)
  else match fireInjection s fun i => i.det.toNat == 0x11 && i.target.toNat == port with
    | some (i, s) => if i.kind = 0 then (bump s 4 port 4 1, true) else (s, false)
    | none => (s, true)

/-- A packet of an accepted flit enters the module, or is discarded and counted, and its buffer is free (R356, R359,
R367). -/
def takePacket (port : Nat) (s : State) (p : Packet) : State :=
  let t := p.type.toNat
  let known := (decide (1 ≤ t ∧ t ≤ 4) && p.vc == 0) || (decide (0x10 ≤ t ∧ t ≤ 0x12) && p.vc == 1) ||
    ((decide (0x20 ≤ t ∧ t ≤ 0x22) || t == 0x28 || t == 0x29) && p.vc == 2)
  if (portOf s port).pstate == .active && answers s p.dnode.toNat && known then { s with inbox := s.inbox ++ [(port, p)] }
  else returnCredits (countDiscard s port) port p

/-- DATA_FLIT_RECEIVE: an accepted flit is acknowledged. -/
def execDataFlitReceive (port : Nat) (f : Flit) (s : State) : Host.Outcome State Fault Refusal :=
  whenUp s fun s =>
    if 20 ≤ port ∨ !linked (portOf s port) then s
    else
      let c := flitChecks s port f
      let d := portOf c.1 port
      if c.2 ∧ f.seq = d.rxSeq then
        let d := takeCredits (takeAck { d with rxSeq := d.rxSeq + 1, rxGap := false } f.ack) f.cvc f.cred
        sendIdle (f.packets.foldl (takePacket port) (resendWaiting (bump (setPort c.1 port d) 4 port 1 1))) port 0 0
      else askRetry c.1 port

/-- IDLE_FLIT_RECEIVE: it carries the next unused SEQ, so that a gap shows, and brings acknowledgements and credits; one with
an error begins a discard, as every flit with an error does (R357). -/
def execIdleFlitReceive (port : Nat) (f : Flit) (s : State) : Host.Outcome State Fault Refusal :=
  whenUp s fun s =>
    if 20 ≤ port ∨ !linked (portOf s port) then s
    else
      let c := flitChecks s port f
      if !c.2 then askRetry c.1 port
      else
        let s := resendWaiting (setPort c.1 port (takeCredits (takeAck (portOf c.1 port) f.ack) f.cvc f.cred))
        if f.seq = (portOf s port).rxSeq then s else askRetry s port

/-- RETRY_REQUEST: the sender resends from the flit named onward; the flits before it have arrived (DEDUCED,
notes/assumptions/73.md). -/
def execRetryRequest (port : Nat) (seq : BitVec 10) (s : State) : Host.Outcome State Fault Refusal :=
  whenUp s fun s =>
    let d := portOf s port
    if 20 ≤ port ∨ !linked d then s
    else
      let d := takeAck { d with retries := satAdd d.retries 1 } (seq - 1)
      let s := bump (bump (setPort s port d) 4 port 2 1) 4 port 0 (replayFlits d)
      { s with outbox := s.outbox ++ d.replay.map fun u => (port, u.packet) }

/-- LANE_FAILURE (R358): where the spare takes the place, the new lane map is sent. -/
def execLaneFailure (port lane : Nat) (s : State) : Host.Outcome State Fault Refusal :=
  whenUp s fun s =>
    let d := portOf s port
    if 20 ≤ port ∨ 9 ≤ lane ∨ !linked d ∨ d.failed.toNat.testBit lane then s
    else
      let failed := d.failed ||| BitVec.ofNat 9 (2 ^ lane)
      let s := bump s 4 port 6 1
      let d := { d with failed := failed }
      if !d.lanes.toNat.testBit lane then setPort s port d
      else match lanesFor (~~~failed).toNat with
        | some use =>
          let s := setPort s port { d with lanes := use }
          if 8 ≤ (setBits use.toNat 9).length then sendFlit s port (.laneMap use) else s
        | none => linkEnds (setPort s port d) port .down false

end Sys2Proof.Machine
end

