-- ==== Sys2Proof/Machine/Remote.lean ====
section
/-! DEFINITION. The receiving side of the fabric (R363 to R372): requests of other modules and of the module itself, their
checks and responses, and the responses to its own requests. -/

namespace Sys2Proof.Machine

/-! ### The inbox (R361, R369) -/

/-- Two packets keep their order: of one sender on one virtual channel; of collective packets, those of one bucket's
relay or one tree, so that packets of a run that has not started hold up no other (R374). -/
def samePath (a b : Packet) : Bool :=
  a.snode == b.snode && a.vc == b.vc &&
    (a.vc != 2 || (a.job == b.job && a.offset == b.offset && a.window == b.window && a.opx.toNat / 16 % 4 == b.opx.toNat / 16 % 4 &&
      (a.type.toNat ≥ 0x28) == (b.type.toNat ≥ 0x28)))

/-- The port by which a packet came, where it is the first of its path to be performed. -/
def frontPort (l : List (Nat × Packet)) (p : Packet) : Option Nat :=
  match l with
  | [] => none
  | e :: r => if e.2 = p then some e.1 else if samePath e.2 p then none else frontPort r p

/-- The inbox without its first copy of a packet. -/
def withoutPacket (l : List (Nat × Packet)) (p : Packet) : List (Nat × Packet) :=
  match l with
  | [] => []
  | e :: r => if e.2 = p then r else e :: withoutPacket r p

/-- Perform a packet of a type that stands first of its path: f gives the state after it, or none where it must wait
(DESIGN CHOICE, notes/assumptions/45.md). Its buffer is then free, and its credits go back. -/
def onPacket (s : State) (p : Packet) (type : Nat) (f : State → Nat → Option State) : State :=
  if p.type.toNat ≠ type then s
  else match frontPort s.inbox p with
    | none => s
    | some port => ((f { s with inbox := withoutPacket s.inbox p } port).map fun s => returnCredits s port p).getD s

/-- The sender's incarnation is not the expected one (R372). -/
def stalePacket (s : State) (p : Packet) : Bool :=
  let inc := NMap.getD s.peerInc p.snode.toNat 0
  inc != 0 && inc != p.sinc

/-! ### Responses (R366, R367, R369, R371, R372) -/

/-- The issuer key of the responses to a node (R360). -/
def responseKey (p : Packet) : Nat := 8 * p.snode.toNat + 4

/-- A response to a request. -/
def responseTo (s : State) (p : Packet) (type status : Nat) (bs : List Byte) (ps : List Bool) : Packet :=
  { p with
    type := BitVec.ofNat 6 type, vc := 1, dnode := p.snode, snode := p.dnode, sinc := BitVec.ofNat 8 (fabNinc s)
    len := BitVec.ofNat 6 (bs.length / 4 - 1), dinc := p.sinc, status := BitVec.ofNat 8 status, opx := 0, scale := 0
    arg := 0, payload := bs, poison := ps }

/-- Send a response; one that no port can carry is lost (R359), and while it must wait nothing is performed (R369). -/
def respond (s : State) (p : Packet) (type status : Nat) (bs : List Byte) (ps : List Bool) : Option State :=
  match sendPacket s (responseKey p) false (responseTo s p type status bs ps) with
  | .sent s => some s
  | .unreachable => some s
  | .wait => none

/-! ### The checks of a request (R364) -/

/-- Rights that a request needs. -/
inductive Need where
  | read | write | atomic
  deriving DecidableEq, Repr

/-- The entry of the window's bucket that serves a packet. -/
def rxtFor (s : State) (p : Packet) : Option Rxt :=
  ((List.range 8).map fun w => rxtOf s (p.window.toNat * 8 + w)).find? fun e =>
    eV e && eJob e == p.job.toNat &&
      decide (eOfflo e * 65536 ≤ p.offset.toNat ∧ p.offset.toNat < (eOfflo e + ePages e) * 65536)

/-- The entry still serves: its object is LIVE with the handle's generation, and its context and job stand. -/
def entryServes (s : State) (e : Rxt) : Bool :=
  let o := objOf s (hIndex (eHandle e))
  o.state == .live && o.gen.toNat == hGen (eHandle e) && ctxServes s (eCtx e) && (ctxOf s (eCtx e)).job.toNat == eJob e

def entryGives (e : Rxt) (n : Need) : Bool :=
  match n with
  | .read => eRr e
  | .write => eRw e
  | .atomic => eRa e

/-- How the checks of R364 end: the context and address served, or a status, with the address where a translation
failed other than by V = 0. -/
inductive Served where
  | ok (ctx : Nat) (va : DWord) (t : Target)
  | refuse (status : Nat) (badVa : Option DWord)
  | wait
  deriving DecidableEq, Repr

/-- Steps 1 to 4. -/
def serve (s : State) (p : Packet) (n : Need) : State × Served :=
  match rxtFor s p with
  | none => (s, .refuse 0x01 none)
  | some e =>
    if !entryServes s e then (s, .refuse 0x01 none)
    else if !entryGives e n then (s, .refuse 0x02 none)
    else
      let va : DWord := BitVec.ofNat 64 (eVa e * 65536 + p.offset.toNat - eOfflo e * 65536)
      match translate s (eCtx e) (if n = .read then .read else .write) va with
      | (s', .ok t) => if pteRmt t.leaf then (s', .ok (eCtx e) va t) else (s, .refuse 0x02 (some va))
      | (s, .fault code _ _) => if code = pageNotPresent then (s, .refuse 0x03 none) else (s, .refuse 0x02 (some va))
      | (s, .wait) => (s, .wait)

/-- Refuse a request: it is logged, and the status goes back (R60, R364). -/
def refuse (s : State) (p : Packet) (type status : Nat) (badVa : Option DWord) : Option State :=
  respond (logRefused s p.snode.toNat p.job.toNat p.window.toNat status badVa.isSome (badVa.getD 0)) p type status [] []

/-- Bytes of a packet's LEN. -/
def lenBytes (p : Packet) : Nat := (p.len.toNat + 1) * 4

/-- A request as R367 shapes it: its OFFSET and length multiples of 4, within 256 bytes, its payload as long as LEN
says. -/
def requestShape (p : Packet) (payload : Bool) : Bool :=
  p.offset.toNat % 4 == 0 && decide (p.offset.toNat % 256 + lenBytes p ≤ 256) &&
    (if payload then p.payload.length == lenBytes p else p.payload.isEmpty)

/-- Handle a request: a malformed one is discarded and counted, one of a stale sender is refused and counted, and f
performs one that passes the checks: it answers a status, bytes and poison, or none where it must wait (DEDUCED,
notes/assumptions/72.md). -/
def onRequest (s : State) (p : Packet) (type rsp : Nat) (n : Need) (shape : Bool)
    (f : State → Nat → DWord → Target → Option (State × (Nat × (List Byte × List Bool)))) : State :=
  onPacket s p type fun s port =>
    if !shape then some (countDiscard s port)
    else if stalePacket s p then refuse (countDiscard s port) p rsp 0x06 none
    else match serve s p n with
      | (s, .refuse status bad) => refuse s p rsp status bad
      | (_, .wait) => none
      | (s, .ok ctx va t) =>
        match f s ctx va t with
        | none => none
        | some (s, (0, (bs, ps))) => respond s p rsp 0 bs ps
        | some (s, (status, _)) => refuse s p rsp status none

/-- Sectors that n bytes at a device address touch. -/
def sectorsAt (pa n : Nat) : List Nat := (pieces pa n).map (·.1 / 64)

/-! ### Requests (R364, R367) -/

/-- A request to companion memory waits while the Sovel link is down (R463). -/
def companionDown (s : State) (pa : Nat) : Bool := regionOf pa == .sovel && !linkUp s

/-- Read the pieces of a request at their home slices. -/
def readPieces (s : State) (ctx cp : Nat) (ps : List (Nat × Nat)) : State × (List Byte × List Bool) :=
  match ps with
  | [] => (s, ([], []))
  | p :: r =>
    let a := readAt (readHome (linkFindings s p.1) ctx p.1 p.2 cp (ctxPart s ctx)) p.1 p.2
    let b := readPieces a.1 ctx cp r
    (b.1, (a.2.1 ++ b.2.1, a.2.2 :: b.2.2))

def performRead (p : Packet) (s : State) (ctx : Nat) (t : Target) : Option (State × (Nat × (List Byte × List Bool))) :=
  let n := lenBytes p
  if companionDown s t.pa then none
  else if (sectorsAt t.pa n).any (NSet.has s.dead) then some (s, (0x05, ([], [])))
  else
    let r := readPieces s ctx t.cp (pieces t.pa n)
    some (r.1, (0, r.2))

/-- READ. -/
def execReadPkt (p : Packet) (s : State) : Host.Outcome State Fault Refusal :=
  whenUp s fun s => onRequest s p 0x01 0x10 .read (requestShape p false) fun s ctx _ t => performRead p s ctx t

/-- Write the pieces of a request at their home slices. -/
def writePiecesAt (s : State) (ctx : Nat) (t : Target) (bs : List Byte) (ps : List (Nat × Nat)) : State :=
  let part := ctxPart s ctx
  let alloc := decide (t.cp = 0)
  ps.foldl (fun s q => cohWrite (writeHome (linkFindings s q.1) ctx q.1 q.2 alloc part) q.1 (sliceList 0 bs (q.1 - t.pa) q.2) false
    alloc part) s

/-- A write of which any sector is frozen is not performed (R268). -/
def performWrite (p : Packet) (s : State) (ctx : Nat) (t : Target) : Option (State × (Nat × (List Byte × List Bool))) :=
  let n := lenBytes p
  if (sectorsAt t.pa n).any (frozenSector s) then some (s, (0x04, ([], [])))
  else if touchesReserved t.pa n ∧ !inDriverPool t.pa then some (s, (0, ([], [])))
  else some (writePiecesAt s ctx t p.payload (pieces t.pa n), (0, ([], [])))

/-- WRITE. -/
def execWritePkt (p : Packet) (s : State) : Host.Outcome State Fault Refusal :=
  whenUp s fun s => onRequest s p 0x02 0x11 .write (requestShape p true) fun s ctx _ t => performWrite p s ctx t

/-- A REDUCE of an operation that exists, on whole aligned elements. -/
def reduceShape (p : Packet) : Bool :=
  let w := reduceWidths p.opx.toNat
  requestShape p true && reduceOp p.opx.toNat && lenBytes p % w.2 == 0 && p.offset.toNat % w.1 == 0

/-- Apply the contributions of a REDUCE, sector by sector. -/
def reduceSectors (p : Packet) (ctx part : Nat) (s : State) (t : Target) (ps : List (Nat × Nat)) : State :=
  let w := reduceWidths p.opx.toNat
  ps.foldl (fun s q =>
    let first := (q.1 - t.pa) / w.1 * w.2
    takeReduce s
      { requester := 512, agent := 512, ctx := ctx, part := part, pa := q.1, bytes := q.2, cp := 1
        op := .reduce p.opx p.scale (sliceList 0 p.payload first (q.2 / w.1 * w.2)), poison := false }) s

def performReduce (p : Packet) (s : State) (ctx : Nat) (t : Target) : Option (State × (Nat × (List Byte × List Bool))) :=
  let w := reduceWidths p.opx.toNat
  let n := lenBytes p / w.2 * w.1
  if companionDown s t.pa then none
  else if (sectorsAt t.pa n).any (frozenSector s) then some (s, (0x04, ([], [])))
  else if (sectorsAt t.pa n).any (NSet.has s.dead) then some (s, (0x05, ([], [])))
  else
    let s := (pieces t.pa n).foldl (fun s q => linkFindings s q.1) s
    some (reduceSectors p ctx (ctxPart s ctx) s t (pieces t.pa n), (0, ([], [])))

/-- REDUCE: no issuer in stepping B0, performed when received. -/
def execReducePkt (p : Packet) (s : State) : Host.Outcome State Fault Refusal :=
  whenUp s fun s => onRequest s p 0x03 0x11 .atomic (reduceShape p) fun s ctx _ t => performReduce p s ctx t

/-- Bytes of an ATOMIC's element. -/
def atomicBytes (p : Packet) : Nat := if 128 ≤ p.opx.toNat then 8 else 4

def atomicShape (p : Packet) : Bool :=
  let n := atomicBytes p
  requestShape p true && lenBytes p == n && p.offset.toNat % n == 0 &&
    (atomFn (8 * n) (p.opx.toNat % 128) 0 0 0).isSome

/-- An ATOMIC answers the old value, with the poison of its sector. -/
def performAtomic (p : Packet) (s : State) (ctx : Nat) (va : DWord) (t : Target) :
    Option (State × (Nat × (List Byte × List Bool))) :=
  let n := atomicBytes p
  match rmwJudge s t va with
  | (s, .ok t) =>
    (match atomicTarget s ctx t n (p.opx.toNat % 128) (leNat p.payload) (p.arg.toNat % 2 ^ (8 * n)) false with
    | (s, .ok old) => some (s, (0, (leBytes old.1 n, [old.2])))
    | _ => none)
  | (s, .fault code _ _) => some (s, (if code = frozenWrite then 0x04 else 0x05, ([], [])))
  | (_, .wait) => none

/-- ATOMIC: no issuer in stepping B0, performed when received. -/
def execAtomicPkt (p : Packet) (s : State) : Host.Outcome State Fault Refusal :=
  whenUp s fun s => onRequest s p 0x04 0x12 .atomic (atomicShape p) fun s ctx va t => performAtomic p s ctx va t

/-! ### Responses to the module's own requests (R362, R368, R372) -/

/-- Take a response: one for another incarnation is discarded; one that no outstanding request of its kind waits for
is discarded and counted. -/
def onResponse (s : State) (p : Packet) (type : Nat) (kind : Remote → Bool) : State :=
  onPacket s p type fun s port =>
    if p.dinc.toNat ≠ fabNinc s then some s
    else match NMap.find s.remotes p.tag.toNat with
      | none => some (countDiscard s port)
      | some q =>
        if kind q then some (settleRemote s p.tag.toNat q p.status.toNat p.payload p.poison)
        else some (countDiscard s port)

/-- READ.RSP. -/
def execReadRsp (p : Packet) (s : State) : Host.Outcome State Fault Refusal :=
  whenUp s fun s => onResponse s p 0x10 fun q => q.read

/-- ACK. -/
def execAck (p : Packet) (s : State) : Host.Outcome State Fault Refusal :=
  whenUp s fun s => onResponse s p 0x11 fun q => !q.read

/-- ATOMIC.RSP: stepping B0 issues no ATOMIC, so that no request waits for one (R367). -/
def execAtomicRsp (p : Packet) (s : State) : Host.Outcome State Fault Refusal :=
  whenUp s fun s => onResponse s p 0x12 fun _ => false

/-- RESPONSE_DEADLINE: the request fails as unreachable (R362, R368). -/
def execResponseDeadline (tag : BitVec 32) (s : State) : Host.Outcome State Fault Refusal :=
  whenUp s fun s =>
    match NMap.find s.remotes tag.toNat with
    | some q => settleRemote s tag.toNat q 0xF0 [] []
    | none => s

end Sys2Proof.Machine
end

