-- ==== Sys2Proof/Machine/Collective.lean ====
section
/-! DEFINITION. The collective engine (R374 to R382): tree rounds, relays by bucket, the step-wide agreement, and digest
checks. -/

namespace Sys2Proof.Machine

/-! ### Runs and their packets (R366, R374) -/

def dropColl (s : State) (r : CollRun) : State := { s with collRuns := s.collRuns.filter fun x => x.cmd != r.cmd }

/-- Members of the tree and the chain. -/
def CollRun.p (r : CollRun) : Nat := r.members.length
/-- Children of the member: i has the parent ⌊(i − 1) / 16⌋. -/
def CollRun.children (r : CollRun) : List Nat :=
  ((List.range 16).map fun j => 16 * r.me + 1 + j).filter (· < r.members.length)
def CollRun.node (r : CollRun) (i : Nat) : BitVec 14 := (r.members[i]?).getD 0

/-- Flags and keys of OPX: [7] NF, [6] OV, [5:4] MODE, [3:0] FMT. -/
def collOpx (r : CollRun) (nf ov : Bool) : BitVec 8 :=
  BitVec.ofNat 8 (b2n nf * 128 + b2n ov * 64 + r.mode % 4 * 16 + r.fmt)

/-- A collective packet of a run to a member (R366, R372). -/
def collPacket (s : State) (r : CollRun) (type dest bid : Nat) : Packet :=
  { type := BitVec.ofNat 6 type, vc := 2, dnode := r.node dest, snode := r.node r.me, sinc := BitVec.ofNat 8 (fabNinc s), job := r.job,
    window := BitVec.ofNat 16 bid, len := 0, offset := r.step.zeroExtend 40, tag := 0, dinc := 0, status := 0,
    opx := collOpx r false false, scale := 0, arg := 0, payload := [], poison := [] }

/-- Send what a run has to send, in order, as far as the fabric takes it: the packets left, and the node that is
unreachable where one is. -/
def drainOut (s : State) (key : Nat) (l : List Packet) : State × (List Packet × Option (BitVec 14)) :=
  match l with
  | [] => (s, ([], none))
  | p :: rest =>
    match sendPacket s key false p with
    | .sent s => drainOut s key rest
    | .unreachable => (s, (rest, some p.dnode))
    | .wait => (s, (p :: rest, none))

/-- Packets of a run whose credits have not come back (R379). -/
def runUncredited (s : State) (key : Nat) : Bool :=
  (s.ports.any fun e => e.2.owed.any fun o => o.issuer == key) || s.rehomed.any fun u => u.issuer == key

/-! ### Ends and faults (R374, R379) -/

/-- The run's command fails: OP_ABORTED is class E and leaves no record, EPOCH_MISMATCH is class C. The run stays to
serve the other members. -/
def collFail (s : State) (r : CollRun) (code : Nat) : State :=
  let s := match runCommand s r with
    | some k => if code = opAborted then finish s k.ref 2 code 0 else failC s k 9 code 0 0
    | none => s
  setColl s { r with aborted := true, phase := .finished }

/-- The run's command completes. -/
def collDone (s : State) (r : CollRun) (result : Nat) (errSignal : Nat) : State :=
  let s := match runCommand s r with
    | some k => updCmd (done s k result) k.ref fun k => { k with errSignal := BitVec.ofNat 8 errSignal }
    | none => s
  setColl s { r with aborted := true, phase := .finished }

/-- Go on with what memory gives, fault the run, or wait. -/
def runMem {α : Type} (r : CollRun) (m : State × MRes α) (f : State → α → Option State) : Option State :=
  match m with
  | (s, .ok a) => f s a
  | (s, .fault c v d) => some (collFault s r c v (BitVec.ofNat 64 d))
  | (_, .wait) => none

/-- Read n bytes of the run's context; poison is consumed, as the case says (R394). -/
def runRead (s : State) (r : CollRun) (va n case : Nat) (f : State → List Byte → Option State) : Option State :=
  runMem r (cReadN s r.cmd.ctx va n) fun s b =>
    if b.2.any id then some (collFault s r poisonConsumed (poisonAt va n b.2) (BitVec.ofNat 64 case)) else f s b.1

def runWrite (s : State) (r : CollRun) (va : Nat) (bs : List Byte) (f : State → Option State) : Option State :=
  runMem r (vWriteN s r.cmd.ctx va bs) fun s _ => f s

/-! ### The bucket table (R232, R380) -/

/-- Word 1 of a bucket table entry. -/
def sumWord (step : Word) (x : Summary) : Nat :=
  (step.toNat <<< 32) + (b2n x.pr <<< 31) + (b2n x.nf <<< 30) + (b2n x.ov <<< 29) + (b2n x.zero <<< 28) + (b2n x.fail <<< 27) +
    (match x.seamax with
    | none => 0x8000
    | some e => ofSigned 16 e)

def absentSum : Summary := { pr := false, nf := false, ov := false, zero := false, fail := false, seamax := none }

/-- The summary that word 1 holds for a step (R381). -/
def sumOf (step : Word) (w : DWord) : Summary :=
  if fld w 63 32 = step.toNat ∧ bit w 31 then
    { pr := true, nf := bit w 30, ov := bit w 29, zero := bit w 28, fail := bit w 27
      seamax := if fld w 15 0 = 0x8000 then none else some (toSigned 16 (fld w 15 0)) }
  else absentSum

def mergeSum (a b : Summary) : Summary :=
  { pr := a.pr || b.pr, nf := a.nf || b.nf, ov := a.ov || b.ov, zero := a.zero || b.zero, fail := a.fail || b.fail
    seamax := maxExp a.seamax b.seamax }

/-- The next scale of a bucket (R232), FAIL treated as NF (R381). -/
def nextScale (s : Int) (h : Nat) (x : Summary) : Int :=
  clampInt (if x.ov then s - 8 else if x.nf || x.fail then s
    else match x.seamax with
      | some e => 14 - e - h
      | none => s) (-128) 127

/-- Word 0 of an entry after an agreement (R381). -/
def agreedWord (w : DWord) (x : Summary) : Nat :=
  if x.pr then
    let s := nextScale (toSigned 8 (fld w 63 56)) (fld w 55 52) x
    (ofSigned 8 s <<< 56) + fld w 55 16 * 65536 + (match x.seamax with
      | none => 0x8000
      | some e => ofSigned 16 e)
  else w.toNat

/-! ### Arithmetic of a hop (R230, R231, R378) -/

/-- Bytes of an element of SRC and of DST. -/
def srcBytes (fmt : Nat) : Nat := if fmt = 2 then 2 else 4
def dstBytes (fmt : Nat) : Nat := if fmt = 0 ∨ fmt = 2 then 2 else 4

def srcFmt (fmt : Nat) : Fmt := if fmt = 2 then .bf16 else .f32
def dstFmt (fmt : Nat) : Fmt :=
  match fmt with
  | 0 => .f16
  | 2 => .bf16
  | _ => .f32

/-- One element: the running sum, absent at the first member, and the member's own value; the new sum, NF and OV. -/
def hopElem (fmt : Nat) (s : Int) (prev : Option Nat) (own : Nat) : Nat × (Bool × Bool) :=
  if fmt = 3 then ((prev.getD 0 + own) % 2 ^ 32, (false, false))
  else
    let v := decode (srcFmt fmt) own
    let x := if fmt = 0 then scaleV s v else v
    let d := dstFmt fmt
    match prev with
    | none =>
      if fmt = 0 then
        let w := round d .rne false x
        (w, (!v.isFinite, v.isFinite && !(decode d w).isFinite))
      else (own, (!v.isFinite, false))
    | some p =>
      let w := decode d p
      let w' := round d .rne false (addV false w x)
      (w', (!v.isFinite, w.isFinite && v.isFinite && !(decode d w').isFinite))

/-- A stretch of elements. -/
def hopBytes (fmt : Nat) (s : Int) (prev : Option (List Byte)) (own : List Byte) (n : Nat) : List Byte × (Bool × Bool) :=
  let es := (List.range n).map fun i =>
    let p := prev.map fun bs => leNat (sliceList 0 bs (i * dstBytes fmt) (dstBytes fmt))
    hopElem fmt s p (leNat (sliceList 0 own (i * srcBytes fmt) (srcBytes fmt)))
  ((es.map fun e => leBytes e.1 (dstBytes fmt)).flatten, (es.any (·.2.1), es.any (·.2.2)))

/-- e_amax of the unscaled final values, and whether every element is zero (R380). -/
def finalSummary (fmt : Nat) (s : Int) (bs : List Byte) (nf ov : Bool) : Summary :=
  let els := (chunksOf (dstBytes fmt) bs).map leNat
  let vals := els.map fun x =>
    if fmt = 3 then Val.fin false (toSigned 32 x).natAbs 0 false else decode (dstFmt fmt) x
  let top := (vals.map expOf).foldl maxExp none
  { pr := true, nf := nf, ov := ov, zero := vals.all Val.isZero, fail := false
    seamax := top.map fun e => if fmt = 0 then e - s else e }

/-! ### Buckets and chains (R377, R378) -/

/-- The owner of bucket b. -/
def CollRun.owner (r : CollRun) (b : Nat) : Nat := (r.bid0 + b) % r.p
/-- This member's place in bucket b's chain. -/
def CollRun.place (r : CollRun) (b : Nat) : Nat := (r.me + r.p - r.owner b - 1 + r.p) % r.p
/-- The next member of the chain after this one. -/
def CollRun.next (r : CollRun) (_b : Nat) : Nat := (r.me + 1) % r.p
/-- First element and number of elements of bucket b. -/
def CollRun.span (r : CollRun) (b : Nat) : Nat × Nat := (b * r.belems, min r.belems (r.n - b * r.belems))
/-- An all-reduce whose result travels once more. -/
def CollRun.twice (r : CollRun) : Bool := r.mode == 1 && decide (1 < r.p)

def setBucket (r : CollRun) (b : Bucket) : CollRun :=
  { r with buckets := r.buckets.map fun (x : Bucket) => if x.index == b.index then b else x }

/-- Queue packets of a run. -/
def queueOut (r : CollRun) (l : List Packet) : CollRun := { r with out := r.out ++ l }

/-- RELAY.HEAD of a bucket: its scale, and the sender's epoch and configuration digest (R378, R379). -/
def headPacket (s : State) (r : CollRun) (b : Bucket) : Packet :=
  { collPacket s r 0x20 (r.next b.index) (r.bid0 + b.index) with scale := b.s, head := r.epoch }

/-- Bytes of a payload, padded to the 4 bytes that LEN counts in. -/
def padded (bs : List Byte) : List Byte := bs ++ List.replicate (roundUp bs.length 4 - bs.length) 0

/-- A RELAY.DATA packet of elements from element first of the bucket on. -/
def dataPacket (s : State) (r : CollRun) (b : Bucket) (first : Nat) (bs : List Byte) : Packet :=
  { collPacket s r 0x21 (r.next b.index) (r.bid0 + b.index) with
    tag := BitVec.ofNat 32 first, payload := padded bs, len := BitVec.ofNat 6 ((padded bs).length / 4 - 1) }

/-- RELAY.TAIL of a bucket. -/
def tailPacket (s : State) (r : CollRun) (b : Bucket) (status : BitVec 8) : Packet :=
  { collPacket s r 0x22 (r.next b.index) (r.bid0 + b.index) with status := status, opx := collOpx r b.nf b.ov }

/-- The data packets of a whole bucket: 256 bytes each. -/
def dataPackets (s : State) (r : CollRun) (b : Bucket) (bs : List Byte) : List Packet :=
  ((chunksOf 256 bs).zipIdx).map fun e => dataPacket s r b (e.2 * (256 / dstBytes r.fmt)) e.1

/-- Read the member's own elements first to first + n − 1 of a bucket (R379). -/
def ownElems (s : State) (r : CollRun) (b first n : Nat) (f : State → List Byte → Option State) : Option State :=
  runRead s r (r.src + ((r.span b).1 + first) * srcBytes r.fmt) (n * srcBytes r.fmt) 0x05 f

/-- The bucket's final bytes. -/
def finalBytes (r : CollRun) (b : Bucket) : List Byte :=
  (List.range ((r.span b.index).2 * dstBytes r.fmt)).map fun i => NMap.getD b.acc i 0

/-- Address of word 1 of a bucket's table entry. -/
def CollRun.entry (r : CollRun) (b : Nat) : Nat := r.stab + 16 * (r.bid0 + b)

/-- Finalize a bucket on this member (R378 to R380): the result to DST and its summary, or, failed, its record alone. -/
def finalize (s : State) (r : CollRun) (b : Bucket) (status : BitVec 8) (f : State → Option State) : Option State :=
  if status ≠ 0 then
    runWrite s r (r.entry b.index + 8)
      (leBytes (sumWord r.step { absentSum with pr := true, fail := true }) 8) f
  else
    let bs := finalBytes r b
    runWrite s r (r.dst + (r.span b.index).1 * dstBytes r.fmt) bs fun s =>
      runWrite s r (r.entry b.index + 8)
        (leBytes (sumWord r.step (finalSummary r.fmt (toSigned 8 b.s.toNat) bs b.nf b.ov)) 8) f

/-- This member has the final running sum of a bucket it owns: it writes it and, in an all-reduce, sends it once round
the chain. -/
def ownerEnd (s : State) (r : CollRun) (b : Bucket) (status : BitVec 8) : Option State :=
  finalize s r b status fun s =>
    let bs := finalBytes r b
    let more := if !r.twice then []
      else if status ≠ 0 then [tailPacket s r b status]
      else headPacket s r b :: (dataPackets s r b bs ++ [tailPacket s r b 0])
    some (setColl s (queueOut (setBucket r { b with sum := true, fin := true, acc := [] }) more))

/-- The first member of a chain sends its own value as the running sum; a chain of one member ends there. -/
def firstSend (s : State) (r : CollRun) (b : Bucket) : Option State :=
  let n := (r.span b.index).2
  ownElems s r b.index 0 n fun s own =>
    let h := hopBytes r.fmt (toSigned 8 b.s.toNat) none own n
    let b := { b with nf := h.2.1, ov := h.2.2 }
    if r.p = 1 then ownerEnd s r { b with acc := memPut [] 0 h.1 } 0
    else
      some (setColl s (queueOut (setBucket r { b with sum := true })
        (headPacket s r b :: (dataPackets s r b h.1 ++ [tailPacket s r b 0]))))

/-- A bucket of which this member has seen nothing yet. -/
def freshBucket (r : CollRun) (b : Nat) (s : BitVec 8) : Bucket :=
  { index := b, s := s, acc := [], nf := false, ov := false, status := 0, headIn := false, sum := false, fin := !r.twice }

/-- The buckets of a data run as far as they have come. -/
def bucketsOf (r : CollRun) : List Bucket :=
  if r.buckets = [] then (List.range r.nb).map fun b => freshBucket r b 0 else r.buckets

/-- This member has yet to finalize a bucket: one that it owns, or any of an all-reduce (R378, R380). -/
def unfinalized (r : CollRun) (b : Bucket) : Bool := if r.place b.index = r.p - 1 then !b.sum else r.twice && !b.fin

/-- Record as failed the buckets that this member will not finalize (R236, R379) (DEDUCED, notes/assumptions/84.md). A context
that no longer serves is left as it is (R26, R381). -/
def recordFails (s : State) (r : CollRun) : State :=
  if r.mode < 2 ∧ ctxServes s r.cmd.ctx then
    ((bucketsOf r).filter (unfinalized r)).foldl (fun s b =>
      (vWriteN s r.cmd.ctx (r.entry b.index + 8) (leBytes (sumWord r.step { absentSum with pr := true, fail := true }) 8)).1) s
  else s

/-- An aborted member passes every bucket on that it has not finished sending, with status 1 (R379). -/
def abandonBuckets (s : State) (r : CollRun) : CollRun :=
  let bs := bucketsOf r
  let tails := (bs.map fun b =>
    (if !b.sum && r.place b.index != r.p - 1 then [tailPacket s r b 1] else []) ++
      (if r.twice && !b.fin && r.place b.index != r.p - 2 then [tailPacket s r b 1] else [])).flatten
  { queueOut r tails with buckets := bs.map fun (b : Bucket) => { b with sum := true, fin := true }, phase := .finished }

/-! ### Tree rounds (R374) -/

/-- The open round's payload of a member. -/
def openVal (r : CollRun) : TreeVal :=
  { epoch := (r.epoch.map (·.1)).getD 0, cdig := (r.epoch.map (·.2)).getD 0, rdig := r.rdig, mismatch := r.epoch.isNone,
    poisoned := r.aborted, sums := [], digs := [] }

/-- Merge summaries bucket by bucket; a poisoned contribution has none (R381). -/
def mergeSums (a b : List Summary) : List Summary :=
  if a.isEmpty then b else if b.isEmpty then a else List.zipWith mergeSum a b

/-- Merge a child's values into a member's. -/
def mergeVal (a b : TreeVal) : TreeVal :=
  { a with
    mismatch := a.mismatch || b.mismatch || a.epoch != b.epoch || a.cdig != b.cdig || a.rdig != b.rdig
    poisoned := a.poisoned || b.poisoned
    sums := mergeSums a.sums b.sums
    digs := List.zipWith (fun x y => (x.1, x.2 || y.2 || x.1 != y.1)) a.digs b.digs }

/-- Every child has sent its TREE.UP of the present round. -/
def kidsReady (r : CollRun) : Bool := r.children.all fun i => (NMap.find r.kids i).isSome

/-- The packets that forward a result to the children. -/
def downPackets (s : State) (r : CollRun) (v : TreeVal) : List Packet :=
  r.children.map fun i => { collPacket s r 0x29 i r.bid0 with tree := some v }

/-- Record the agreement flag of a step in the job record, which keeps the last 256 (R381). -/
def recordFlag (s : State) (job : BitVec 20) (step : Word) (v : Bool) : State :=
  match NMap.find s.jobs job.toNat with
  | none => s
  | some j =>
    let fl := (j.flags.filter fun e => e.1 != step) ++ [(step, v)]
    { s with jobs := NMap.insert s.jobs job.toNat { j with flags := fl.drop (fl.length - 256) } }

/-- The merged summaries of an agree round: a poisoned contribution fails every bucket, and leaves what the others said of
it. -/
def agreedSums (r : CollRun) (v : TreeVal) : List Summary :=
  (if v.sums.isEmpty then List.replicate r.nb absentSum else v.sums).map fun x => { x with fail := x.fail || v.poisoned }

/-- Write word 1 and, where a summary is present, word 0 of the entries from address va on (R381). -/
def writeAgreed (s : State) (r : CollRun) (va : Nat) (ws : List DWord) (sums : List Summary) (f : State → Option State) :
    Option State :=
  match sums with
  | [] => f s
  | x :: rest =>
    let w0 := nthWord ws 0
    runWrite s r va (leBytes (agreedWord w0 x) 8 ++ leBytes (sumWord r.step x) 8) fun s =>
      writeAgreed s r (va + 16) (ws.drop 2) rest f

/-- The flag of an agree round (R381). -/
def agreedFlag (sums : List Summary) : Bool := sums.any fun x => x.nf || x.ov || x.fail

/-- The down phase of an agree round on this member: it forwards, records the flag, and writes the table unless its command is
gone. The flag is the same on every member, so that a table that cannot be written faults this member and changes nothing
of the rest (R20, R381). -/
def agreeDown (s : State) (r : CollRun) (v : TreeVal) : Option State :=
  let sums := agreedSums r v
  let r' := { queueOut r (downPackets s r v) with phase := .finished }
  let s := recordFlag s r.job r.step (agreedFlag sums || v.poisoned)
  if r.aborted then some (setColl s r')
  else
    runRead s r' (r.entry 0) (16 * r.nb) 0x03 fun s bs =>
      writeAgreed s r' (r.entry 0) (wordsOf bs) sums fun s =>
        some (if v.poisoned then collFail s r' opAborted else collDone s r' 0 0)

/-- The down phase of a digest check on this member (R382, event 0x0B). -/
def digestDown (s : State) (r : CollRun) (v : TreeVal) : Option State :=
  let r' := queueOut r (downPackets s r v)
  let bits := v.digs.map (·.2)
  let n := (bits.filter id).length
  if r.aborted then some (setColl s { r' with phase := .finished })
  else if v.poisoned then some (collFail s r' opAborted)
  else
    let map := (chunksOf 8 bits).map fun b => BitVec.ofNat 8 ((b.zipIdx.map fun e => if e.1 then 2 ^ e.2 else 0).sum)
    runWrite s r (r.src + 16 * r.belems) map fun s =>
      let s := if n = 0 then s
        else logEvent s 0 0x0B r.cmd.queue r.cmd.ctx (BitVec.ofNat 64 r.step.toNat) (BitVec.ofNat 64 n) 0 r.injected
      some (collDone s r' n (if n = 0 then 0 else digestMismatch))

/-- The down phase of the open round on this member: no data moves where it fails, and the buckets that this member would
finalize have failed (R236, R374). -/
def openDown (s : State) (r : CollRun) (v : TreeVal) : Option State :=
  let r' := queueOut r (downPackets s r v)
  let end_ (code : Nat) : Option State :=
    if r.aborted then some (setColl s { r' with phase := .finished }) else some (collFail (recordFails s r) r' code)
  if v.poisoned then (if r.mode = 2 then agreeDown s r v else end_ opAborted)
  else if v.mismatch then end_ epochMismatch
  else some (setColl s { r' with kids := [], phase := if r.mode < 2 then .data else .roundUp })

/-- The down phase of the present round. -/
def goDown (s : State) (r : CollRun) (v : TreeVal) : Option State :=
  match r.phase with
  | .openUp | .openWait => openDown s r v
  | .roundUp | .roundWait | .data | .finished => if r.mode = 2 then agreeDown s r v else digestDown s r v

/-- Send the member's value merged with those of its children up, or, at the root, turn it down. -/
def sendUp (s : State) (r : CollRun) (own : TreeVal) (waiting : CollPhase) : Option State :=
  let v := (r.kids.map (·.2)).foldl mergeVal own
  if r.me = 0 then goDown s r v
  else
    let up := { collPacket s r 0x28 ((r.me - 1) / 16) r.bid0 with tree := some v }
    some (setColl s { queueOut r [up] with phase := waiting, kids := [] })

/-- The digests of a check; an armed injection of detector 0x14 inverts bit 0 of the first one sent, and the run notes it. -/
def ownDigests (s : State) (r : CollRun) (bs : List Byte) : State × List (BitVec 128 × Bool) :=
  let ds := (chunksOf 16 bs).map fun b => (BitVec.ofNat 128 (leNat b), false)
  if s.injections = [] then (s, ds)
  else match fireInjection s fun i => i.det.toNat == 0x14 && i.ctx == r.cmd.ctx with
    | some (_, s) =>
      (setColl s { r with injected := true }, match ds with
        | d :: rest => (d.1 ^^^ 1, false) :: rest
        | [] => [])
    | none => (s, ds)

/-- The member's own value of the round that follows the open round. -/
def roundVal (s : State) (r : CollRun) (f : State → TreeVal → Option State) : Option State :=
  if r.aborted then f s (openVal r)
  else if r.mode = 2 then
    runRead s r (r.entry 0) (16 * r.nb) 0x03 fun s bs =>
      f s { openVal r with sums := (chunksOf 16 bs).map fun e => sumOf r.step (nthWord (wordsOf e) 1) }
  else
    runRead s r r.src (16 * r.belems) 0x03 fun s bs =>
      let d := ownDigests s r bs
      f d.1 { openVal r with digs := d.2 }

/-! ### Progress of a run -/

/-- Begin the relays: S of each bucket, after INIT has set it (R380). -/
def beginData (s : State) (r : CollRun) : Option State :=
  runRead s r (r.entry 0) (16 * r.nb) 0x03 fun s bs =>
    let ws := (chunksOf 16 bs).map fun e => nthWord (wordsOf e) 0
    let inited := ws.map fun w =>
      if r.init then (r.s0.toNat <<< 56) + (r.h0.toNat <<< 52) + 2 ^ 51 + fld w 50 0 else w.toNat
    let mk (e : Nat × Nat) : Bucket := freshBucket r e.2 (BitVec.ofNat 8 (field e.1 63 56))
    let go (s : State) : Option State := some (setColl s { r with buckets := inited.zipIdx.map mk })
    if r.init then
      (inited.zipIdx.foldl (fun (k : State → Option State) e => fun s =>
        runWrite s r (r.entry e.2) (leBytes e.1 8) k) go) s
    else go s

/-- What a run does next of its own accord; none where it waits. -/
def stepRun (s : State) (r : CollRun) : Option State :=
  match r.phase with
  | .openUp =>
    if !kidsReady r ∨ (!r.aborted ∧ (ctxOf s r.cmd.ctx).state = .suspended) then none
    else sendUp s r (openVal r) .openWait
  | .roundUp =>
    if !kidsReady r then none
    else roundVal s r fun s v =>
      match collOf s r.cmd with
      | some r => sendUp s r v .roundWait
      | none => some s
  | .openWait | .roundWait => none
  | .data =>
    if r.aborted then some (setColl s (abandonBuckets s r))
    else if r.buckets = [] then beginData s r
    else match r.buckets.find? fun b => r.place b.index == 0 && !b.sum with
      | some b => firstSend s r b
      | none => if r.buckets.all fun b => b.sum && b.fin then some (setColl s { r with phase := .finished }) else none
  | .finished =>
    if r.out ≠ [] then none
    else if r.aborted then (if (cmdOf s r.cmd).isSome then none else some (dropColl s r))
    else if runUncredited s (runKey r.cmd) then none
    else if r.fail = 0 then some (collDone s r 0 0)
    else some (collFail s r (if r.fail = 1 then opAborted else epochMismatch))

/-- A run whose command is gone or whose context no longer serves is that of an aborted member (R374, R379). -/
def noteGone (s : State) (r : CollRun) : CollRun :=
  let here := match cmdOf s r.cmd with
    | some k => k.phase == .started
    | none => false
  if here && ctxServes s r.cmd.ctx then r else goneRun r

/-- Send and step a run until it waits. -/
def settleRun (fuel : Nat) (s : State) (c : CmdRef) : State :=
  match fuel with
  | 0 => s
  | fuel + 1 =>
    match collOf s c with
    | none => s
    | some r0 =>
      let r := noteGone s r0
      let d := drainOut s (runKey c) r.out
      let r := { r with out := d.2.1 }
      let s := setColl d.1 r
      match d.2.2 with
      | some node => settleRun fuel (collUnreachable s r node) c
      | none =>
        match stepRun s r with
        | some s => settleRun fuel s c
        | none => s

/-- Steps that a run can take before it waits for another member. -/
def runFuel (s : State) (c : CmdRef) : Nat :=
  match collOf s c with
  | some r => r.nb + r.out.length + 2 * r.buckets.length + 32
  | none => 0

def progressRun (s : State) (c : CmdRef) : State := settleRun (runFuel s c) s c

/-! ### COLL_RUN (R375, R376) -/

/-- Fields of the descriptor of R375. -/
def cMode (d : Desc) : Nat := fld (nthWord d 0) 63 60
def cP (d : Desc) : Nat := fld (nthWord d 0) 29 15
def cMe (d : Desc) : Nat := fld (nthWord d 0) 14 0
def cNb (d : Desc) : Nat := fld (nthWord d 1) 63 48 + 1
def cBid0 (d : Desc) : Nat := fld (nthWord d 1) 47 32
def cBelems (d : Desc) : Nat := fld (nthWord d 1) 31 0
def cN (d : Desc) : Nat := fld (nthWord d 2) 39 0
def cVa (d : Desc) (i : Nat) : Nat := (nthWord d i).toNat

/-- Reasons 0x01 and 0x02 of R376. -/
def collDescFault (d : Desc) : Option Nat :=
  let data := decide (cMode d < 2)
  let w0 := nthWord d 0
  firstReason [
    (decide (2 < cMode d) || (data && decide (3 < fld w0 59 56)) || fld w0 42 30 != 0 || fld (nthWord d 2) 63 40 != 0 ||
      nthWord d 7 != 0 || (!data && (fld w0 59 43 != 0 || cBelems d != 0 || cN d != 0 || cVa d 4 != 0 || cVa d 5 != 0)), 0x01),
    (decide (cP d < 1 ∨ 16384 < cP d ∨ cP d ≤ cMe d ∨ 65536 < cBid0 d + cNb d) || cVa d 3 % 64 != 0 || cVa d 6 % 64 != 0 ||
      (data && (decide (cBelems d < 64 ∨ 2 ^ 28 < cBelems d) || cBelems d % 64 != 0 ||
        decide (cN d ≤ (cNb d - 1) * cBelems d ∨ cNb d * cBelems d < cN d) || cVa d 4 % 64 != 0 || cVa d 5 % 64 != 0)), 0x02)]

/-- The member list does not hold the module at ME, or holds a node twice (reason 0x03). -/
def membersBad (s : State) (me : Nat) (l : List Nat) : Bool :=
  (match l[me]? with
  | some x => !(x == fabNode s || (aliasesOf (cfgWord s 4)).contains x)
  | none => true) || l.eraseDups.length != l.length

/-- The module's epoch and configuration digest of a job (R373). -/
def jobEpochOf (s : State) (job : BitVec 20) : Option (Word × BitVec 128) :=
  (NMap.find s.jobs job.toNat).map fun j => (j.epoch, j.cdig)

/-- BAD_PACKET with a reason of R376. -/
def collBad (s : State) (k : Cmd) (reason : Nat) : State := failC s k 9 badPacket 0 (BitVec.ofNat 64 reason)

/-- A run of a key. -/
def sameKey (r : CollRun) (job : BitVec 20) (step : Word) (bid0 mode : Nat) : Bool :=
  r.job == job && r.step == step && r.bid0 == bid0 && r.mode == mode

/-- Runs whose command has not retired. -/
def unretired (s : State) : List CollRun := s.collRuns.filter fun x => (cmdOf s x.cmd).isSome

/-- Open a run, or wait: for a run of its key that still serves others, for one of the 64 places, and, for an agree run,
for the other runs of its job and step (R374, R376, R381). -/
def openRun (s0 s : State) (k : Cmd) (r : CollRun) : State :=
  let here := unretired s
  if here.any fun x => sameKey x r.job r.step r.bid0 r.mode then collBad s k 0x06
  else if (s.collRuns.any fun x => sameKey x r.job r.step r.bid0 r.mode) ||
      decide (64 ≤ (s.collRuns.filter fun x => !x.aborted).length) ||
      (r.mode == 2 && here.any fun x => x.job == r.job && x.step == r.step && x.mode != 3) then s0
  else progressRun { s with collRuns := s.collRuns ++ [r] } k.ref

/-- The run of a descriptor. -/
def runOfDesc (s : State) (k : Cmd) (d : Desc) (members : List Nat) (rdig : DWord) : CollRun :=
  let w0 := nthWord d 0
  { cmd := k.ref, job := (jobFor s k.ref.ctx k.ref.queue), step := BitVec.ofNat 32 (fld k.w1 31 0), mode := cMode d, fmt := fld w0 59 56,
    bid0 := cBid0 d, nb := cNb d, belems := cBelems d, n := cN d, me := cMe d, members := members.map (BitVec.ofNat 14),
    src := cVa d 4, dst := cVa d 5, stab := cVa d 6, init := bit w0 43, s0 := BitVec.ofNat 8 (fld w0 51 44),
    h0 := BitVec.ofNat 4 (fld w0 55 52), epoch := jobEpochOf s (jobFor s k.ref.ctx k.ref.queue), rdig := rdig, phase := .openUp,
    kids := [], buckets := [], out := [], fail := 0, aborted := false }

/-- A read of the engine before its run is open. -/
def collRead (s0 s : State) (k : Cmd) (va n : Nat) (f : State → List Byte → State) : State :=
  collMem s0 k (cReadN s k.ref.ctx va n) fun s b =>
    if b.2.any id then failF s k 9 poisonConsumed (poisonAt va n b.2) 0x03 else f s b.1

/-- Bytes of words. -/
def bytesOf (ws : List DWord) : List Byte := (ws.map fun w => leBytes w.toNat 8).flatten

/-- Check the descriptor and open the run (R376). -/
def collStart (mode : Nat) (s0 : State) (k : Cmd) : State :=
  collRead s0 s0 k k.w0.toNat 64 fun s raw =>
    let d := wordsOf raw
    if cMode d ≠ mode ∧ (cMode d ≤ 2 ∨ mode ≠ 0) then s0
    else match collDescFault d with
      | some n => collBad s k n
      | none => collRead s0 s k (cVa d 3) (cP d * 2) fun s list =>
          let members := (chunksOf 2 list).map leNat
          let head := BitVec.ofNat 64 (fld (nthWord d 0) 63 15 * 2 ^ 15) :: [nthWord d 1, nthWord d 2]
          let rdig := BitVec.ofNat 64 ((digest (bytesOf head ++ list)).toNat % 2 ^ 64)
          let go (s : State) : State := openRun s0 s k (runOfDesc s k d members rdig)
          if membersBad s (cMe d) members then collBad s k 0x03
          else if jobFor s k.ref.ctx k.ref.queue = 0 then collBad s k 0x04
          else if !bit (nthWord d 0) 43 then
            collRead s0 s k (cVa d 6 + 16 * cBid0 d) (16 * cNb d) fun s tbl =>
              if (chunksOf 16 tbl).any fun e => !bit (nthWord (wordsOf e) 0) 51 then collBad s k 0x05 else go s
          else go s

/-- A collective command goes on with its run, or starts it. -/
def collCommand (op : Nat) (start : State → Cmd → State) (s : State) (c : CmdRef) (mode : Nat → Bool) : State :=
  match collOf s c with
  | some r => if mode r.mode then progressRun s c else s
  | none => runCmd s c op start

/-- COLL_RUN, MODE 0; a reserved MODE fails here too. -/
def execCollReduceScatter (c : CmdRef) (s : State) : Host.Outcome State Fault Refusal :=
  whenUp s fun s => collCommand 0x38 (collStart 0) s c (· == 0)

/-- COLL_RUN, MODE 1. -/
def execCollAllReduce (c : CmdRef) (s : State) : Host.Outcome State Fault Refusal :=
  whenUp s fun s => collCommand 0x38 (collStart 1) s c (· == 1)

/-- COLL_RUN, MODE 2. -/
def execCollAgree (c : CmdRef) (s : State) : Host.Outcome State Fault Refusal :=
  whenUp s fun s => collCommand 0x38 (collStart 2) s c (· == 2)

/-! ### DIGEST_CHECK (R382) -/

/-- Open a digest check: its run is keyed as MODE 3, BID0 0, and its RDIG is taken over W3 with ME zero and the member
list. -/
def digestStart (s0 : State) (k : Cmd) : State :=
  let p := fld k.w3 14 0
  let me := fld k.w3 29 15
  let n := fld k.w3 41 30 + 1
  if p < 1 ∨ 16384 < p ∨ p ≤ me then collBad s0 k 0x02
  else collRead s0 s0 k k.w0.toNat (p * 2) fun s list =>
    let members := (chunksOf 2 list).map leNat
    if membersBad s me members then collBad s k 0x03
    else if jobFor s k.ref.ctx k.ref.queue = 0 then collBad s k 0x04
    else
      let head := BitVec.ofNat 64 (fld k.w3 63 30 * 2 ^ 30 + p)
      let rdig := BitVec.ofNat 64 ((digest (bytesOf [head] ++ list)).toNat % 2 ^ 64)
      openRun s0 s k
        { cmd := k.ref, job := (jobFor s k.ref.ctx k.ref.queue), step := BitVec.ofNat 32 (fld k.w1 31 0), mode := 3, fmt := 0, bid0 := 0,
          nb := 0, belems := n, n := 0, me := me, members := members.map (BitVec.ofNat 14), src := k.w2.toNat, dst := 0, stab := 0,
          init := false, s0 := 0, h0 := 0, epoch := jobEpochOf s (jobFor s k.ref.ctx k.ref.queue), rdig := rdig, phase := .openUp,
          kids := [], buckets := [], out := [], fail := 0, aborted := false }

/-- DIGEST_CHECK. -/
def execDigestCheck (c : CmdRef) (s : State) : Host.Outcome State Fault Refusal :=
  whenUp s fun s => collCommand 0x39 digestStart s c (· == 3)

/-! ### Packets of a run (R374, R378, R379) -/

/-- The run that a collective packet belongs to. -/
def runFor (s : State) (p : Packet) : Option CollRun :=
  let tree := decide (0x28 ≤ p.type.toNat)
  s.collRuns.find? fun r =>
    r.job == p.job && r.step.toNat == p.offset.toNat % 2 ^ 32 && r.mode % 4 == p.opx.toNat / 16 % 4 &&
      (if tree then r.bid0 == p.window.toNat else decide (r.bid0 ≤ p.window.toNat ∧ p.window.toNat < r.bid0 + r.nb))

/-- Handle a packet of a run: a stale one is discarded and counted; one of a run that has not started is held. -/
def onColl (s : State) (p : Packet) (type : Nat) (f : State → CollRun → Option State) : State :=
  onPacket s p type fun s port =>
    if stalePacket s p then some (countDiscard s port)
    else match runFor s p with
      | none => none
      | some r =>
        let r := noteGone s r
        match f (setColl s r) r with
        | some s => some (progressRun s r.cmd)
        | none => none

/-- Position of the packet's sender in the member list. -/
def senderOf (r : CollRun) (p : Packet) : Option Nat := r.members.findIdx? (· == p.snode)

/-- TREE.UP of a child. -/
def takeUp (s : State) (r : CollRun) (p : Packet) : Option State :=
  match senderOf r p, p.tree with
  | some i, some v => if r.children.contains i then some (setColl s { r with kids := NMap.insert r.kids i v }) else some s
  | _, _ => some s

/-- TREE_UP. -/
def execTreeUp (p : Packet) (s : State) : Host.Outcome State Fault Refusal :=
  whenUp s fun s => onColl s p 0x28 fun s r => takeUp s r p

/-- TREE.DOWN of the parent. A poisoned one ends the run also before this member has sent its TREE.UP (R374). -/
def takeDown (s : State) (r : CollRun) (p : Packet) : Option State :=
  match p.tree with
  | some v =>
    (match r.phase with
    | .openWait | .roundWait => goDown s r v
    | .openUp | .roundUp => if v.poisoned then goDown s r v else some s
    | .data | .finished => some s)
  | none => some s

/-- TREE_DOWN. -/
def execTreeDown (p : Packet) (s : State) : Host.Outcome State Fault Refusal :=
  whenUp s fun s => onColl s p 0x29 fun s r => takeDown s r p

/-- The bucket of a relay packet, while the run still takes part in it; data moves only once the open round is over. -/
def onBucket (s : State) (r : CollRun) (p : Packet) (f : Bucket → Option State) : Option State :=
  match r.phase with
  | .data =>
    if r.aborted then some s
    else match r.buckets.find? fun b => b.index == p.window.toNat - r.bid0 with
      | some b => if b.sum ∧ b.fin then some s else f b
      | none => none
  | .finished => some s
  | _ => none

/-- The packets of a bucket that come to this member now belong to the result's pass. -/
def resultPass (b : Bucket) : Bool := b.sum

/-- This member sends on what it receives in the present pass. -/
def sendsOn (r : CollRun) (b : Bucket) : Bool :=
  if resultPass b then r.place b.index != r.p - 2 else r.place b.index != r.p - 1

/-- RELAY.HEAD: the bucket's scale, and status 2 where the epochs or digests differ. The member's own contribution is
judged before it sends the bucket (R379). -/
def takeHead (s : State) (r : CollRun) (p : Packet) : Option State :=
  onBucket s r p fun b =>
    let b := { b with s := p.scale, headIn := true, acc := [], status := if p.head == r.epoch then 0 else 2 }
    let go (s : State) : Option State :=
      let r := setBucket r b
      some (setColl s (if sendsOn r b then queueOut r [headPacket s r b] else r))
    if resultPass b ∨ b.status ≠ 0 then go s
    else ownElems s r b.index 0 (r.span b.index).2 fun s _ => go s

/-- RELAY_HEAD. -/
def execRelayHead (p : Packet) (s : State) : Host.Outcome State Fault Refusal :=
  whenUp s fun s => onColl s p 0x20 fun s r => takeHead s r p

/-- RELAY.DATA: the elements are added to the member's own and sent on, or kept; those of a failed bucket are
dropped. -/
def takeData (s : State) (r : CollRun) (p : Packet) : Option State :=
  onBucket s r p fun b =>
    let first := p.tag.toNat
    let n := min (p.payload.length / dstBytes r.fmt) ((r.span b.index).2 - first)
    let keep (s : State) (r : CollRun) (b : Bucket) (bs : List Byte) : Option State :=
      let b := if sendsOn r b ∧ !resultPass b then b else { b with acc := memPut b.acc (first * dstBytes r.fmt) bs }
      let r := setBucket r b
      some (setColl s (if sendsOn r b then queueOut r [dataPacket s r b first bs] else r))
    if b.status ≠ 0 ∨ n = 0 then some s
    else if resultPass b then keep s r b (p.payload.take (n * dstBytes r.fmt))
    else ownElems s r b.index first n fun s own =>
      let h := hopBytes r.fmt (toSigned 8 b.s.toNat) (some p.payload) own n
      keep s r { b with nf := b.nf || h.2.1, ov := b.ov || h.2.2 } h.1

/-- RELAY_DATA. -/
def execRelayData (p : Packet) (s : State) : Host.Outcome State Fault Refusal :=
  whenUp s fun s => onColl s p 0x21 fun s r => takeData s r p

/-- RELAY.TAIL: flags are ORed, a nonzero status passes down unchanged, and the bucket is finalised or sent on. -/
def takeTail (s : State) (r : CollRun) (p : Packet) : Option State :=
  onBucket s r p fun b =>
    let status := if p.status ≠ 0 then p.status else b.status
    let b := { b with nf := b.nf || p.opx.toNat.testBit 7, ov := b.ov || p.opx.toNat.testBit 6, headIn := false }
    let r := { r with fail := if r.fail = 0 then status else r.fail }
    if resultPass b then
      finalize s r b status fun s =>
        let r := if sendsOn r b then queueOut r [tailPacket s r b status] else r
        some (setColl s (setBucket r { b with fin := true, acc := [] }))
    else if sendsOn r b then
      some (setColl s (setBucket (queueOut r [tailPacket s r b status]) { b with sum := true, status := 0 }))
    else ownerEnd s r b status

/-- RELAY_TAIL. -/
def execRelayTail (p : Packet) (s : State) : Host.Outcome State Fault Refusal :=
  whenUp s fun s => onColl s p 0x22 fun s r => takeTail s r p

/-- An abort or a kill takes a run's command away: the buckets that it will not finalize are recorded as failed, and the run
goes on as that of an aborted member (R85, R236, R374, R379). -/
def abandonRun (s : State) (c : CmdRef) : State :=
  match collOf s c with
  | some r =>
    let s := if r.phase = .finished then s else recordFails s r
    progressRun (setColl s (goneRun r)) c
  | none => s

/-- An agree run that has sent its TREE.UP is committed (R85, R381); one that still waits to leave does not commit it. -/
def agreeCommitted (s : State) (c : CmdRef) : Bool :=
  match collOf s c with
  | some r => r.mode == 2 && (r.phase == .finished || (r.phase == .roundWait && !r.out.any fun p => p.type == 0x28))
  | none => false

end Sys2Proof.Machine
end

