-- ==== Sys2Proof/Machine/Launch.lean ====
section
/-! DEFINITION. Kernel launches: fit, choice of tiles, and the state in which a tile starts (R94 to R97, R246, R400). -/

namespace Sys2Proof.Machine

/-! ### Fit and tiles (R75, R95, R96, R400) -/

/-- Operands of a KLAUNCH (R73). -/
def klTiles (k : Cmd) : Nat := fld k.w2 8 0
def klGroups (k : Cmd) : Nat := fld k.w2 15 9
def klRegs (k : Cmd) : Nat := fld k.w2 23 16
def klStore (k : Cmd) : Nat := fld k.w2 42 32
def klSel (k : Cmd) : Nat := fld k.w3 1 0

/-- Logical tile sites of a die, by logical tile number. -/
def dieMap (s : State) (die : Nat) : List Nat := if die = 0 then s.map0 else s.map1.map (· + 192)

/-- The launch asks for more than a tile holds, or for more tiles than the module or the selected dies present. -/
def launchTooBig (s : State) (k : Cmd) : Bool :=
  let n := klTiles k
  let a := s.map0.length
  let b := s.map1.length
  decide (64 < klGroups k) || decide (4096 < klGroups k * roundUp (klRegs k) 8) || decide (1536 < klStore k) ||
  decide (a + b < n) || (klSel k == 1 && decide (a < n)) || (klSel k == 2 && decide (b < n)) ||
  (klSel k == 3 && (decide (a < (n + 1) / 2) || decide (b < n / 2)))

/-- Free tiles of a die, ascending logical tile number, with that number. A site marked for sparing waits for it
(R399). -/
def freeTiles (s : State) (die : Nat) : List (Nat × Nat) :=
  (dieMap s die).zipIdx.filter fun e => (tileOf s e.1).launch.isNone && !NSet.has s.marked e.1

/-- The tiles that a launch takes, in tile-index order, each with its logical number; none while too few are free
(R95). -/
def chooseTiles (s : State) (n sel : Nat) : Option (List (Nat × Nat)) :=
  let f0 := freeTiles s 0
  let f1 := freeTiles s 1
  let counts : Nat × Nat := match sel with
    | 1 => (n, 0)
    | 2 => (0, n)
    | 3 => ((n + 1) / 2, n / 2)
    | _ =>
      if f1.length ≤ f0.length then (min n f0.length, n - min n f0.length)
      else (n - min n f1.length, min n f1.length)
  if counts.1 ≤ f0.length ∧ counts.2 ≤ f1.length then some (f0.take counts.1 ++ f1.take counts.2) else none

/-! ### The state in which a tile starts (R94, R97, R246) -/

/-- A tile at the start of a launch of another context: zeroed; of the same context: its store and vector registers
hold unspecified values, which begin at free value number free (DESIGN CHOICE, notes/assumptions/50.md). -/
def clearedTile (t : Tile) (ctx free : Nat) : Tile :=
  let array := { MatArray.empty with lastAct := t.array.lastAct, holdLeft := t.array.holdLeft }
  let base := { Tile.empty with array := array, sampleCount := t.sampleCount, lastCtx := some ctx }
  if t.lastCtx = some ctx then
    { base with
      store := t.store, storeJunk := some free, storePoison := t.storePoison
      vec := { VecUnit.reset with regs := t.vec.regs, junk := some (free + 1572864), poison := t.vec.poison } }
  else base

/-- Free values that a tile's unspecified contents take. -/
def junkSpan : Nat := 1572864 + 131072

/-- Registers of the control core at a launch's start (R97). -/
def startRegs (k : Cmd) (site index logical : Nat) : NMap T64 :=
  [(1, k.w1.toNat), (2, index), (3, klTiles k), (4, site / 192 * 256 + logical)].filterMap fun e =>
    if e.2 = 0 then none else some (e.1, { val := BitVec.ofNat 64 e.2, poison := false })

/-- Start the launch on one site, after which a decided substitution takes effect (R164). -/
def startTile (k : Cmd) (s : State) (site index logical : Nat) : State :=
  let t := clearedTile (tileOf s site) k.ref.ctx s.freeCtr
  let t := { t with launch := some k.ref, index := index, logical := logical, ccPc := k.w0,
                    ccRegs := startRegs k site index logical }
  applyRepair (setTile { s with freeCtr := s.freeCtr + junkSpan } site t) site

/-- Start on every site of a list, index by index. -/
def startTiles (k : Cmd) (s : State) (index : Nat) (l : List (Nat × Nat)) : State :=
  match l with
  | [] => s
  | (site, logical) :: r => startTiles k (startTile k s site index logical) (index + 1) r

/-- KLAUNCH: it fails, waits for its whole tile set, or starts on it. -/
def klaunchEffect (s : State) (k : Cmd) : State :=
  if s.launches.any fun l => l.cmd == k.ref then s
  else if launchTooBig s k then failC s k 0 launchResources 0 0
  else match chooseTiles s (klTiles k) (klSel k) with
    | none => s
    | some sites =>
      let l : Launch :=
        { cmd := k.ref, ctx := k.ref.ctx, sites := sites.map (·.1), groups := klGroups k, regs := klRegs k,
          store := klStore k, code := k.w0, arg := k.w1, ended := [], saved := [] }
      let s := startTiles k s 0 sites
      { s with launches := s.launches ++ [l] }

/-- KLAUNCH. -/
def execKlaunch (c : CmdRef) (s : State) : Host.Outcome State Fault Refusal :=
  whenUp s fun s => runCmd s c 0x20 klaunchEffect

end Sys2Proof.Machine
end

