-- ==== Sys2Proof/Machine/Control.lean ====
section
/-! DEFINITION. Control commands (R73 to R76, R84 to R92, R472): contexts, queues, preemption, abort, suspend and resume,
and the teardown of a context. -/

namespace Sys2Proof.Machine

/-! ### NOP, TIME_MARK, CALL_LIST -/

/-- NOP. -/
def execNop (c : CmdRef) (s : State) : Host.Outcome State Fault Refusal :=
  whenUp s fun s => runCmd s c 0x01 fun s k => done s k 0

/-- Event 0x01 of R411. -/
def timeMarkEffect (s : State) (k : Cmd) : State :=
  done (logEvent s 0 0x01 k.ref.queue k.ref.ctx k.w0
    (BitVec.ofNat 64 (fld k.w1 31 0 + ((k.ref.index % 2 ^ 32) <<< 32))) 0) k 0

/-- TIME_MARK. -/
def execTimeMark (c : CmdRef) (s : State) : Host.Outcome State Fault Refusal :=
  whenUp s fun s => runCmd s c 0x02 timeMarkEffect

/-- The list of a CALL_LIST has been parsed whole (R74); its record follows its listed commands (DEDUCED,
notes/assumptions/76.md). -/
def callListEffect (s : State) (k : Cmd) : State :=
  match (queueOf s k.ref.ctx k.ref.queue).lists with
  | some l => if l.call = k.ref then s else done s k 0
  | none => done s k 0

/-- CALL_LIST. -/
def execCallList (c : CmdRef) (s : State) : Host.Outcome State Fault Refusal :=
  whenUp s fun s => runCmd s c 0x03 callListEffect

/-! ### Contexts and queues (R24, R28, R73, R75, R472) -/

/-- The descriptor that CTX_CREATE makes. -/
def newCtx (k : Cmd) : Ctx :=
  { Ctx.empty with
    state := .active, priv := bit k.w0 12, deadchk := bit k.w0 13, part := BitVec.ofNat 6 (fld k.w0 21 16)
    job := BitVec.ofNat 20 (fld k.w0 43 24), objquota := BitVec.ofNat 20 (fld k.w0 63 44)
    root := BitVec.ofNat 32 (fld k.w1 47 16), frsize := BitVec.ofNat 4 (fld k.w1 63 60)
    frbase := BitVec.ofNat 42 (fld k.w2 47 6), frset := true, seed := k.w3 }

/-- Invalidate the route entries of a context (R181). -/
def dropRoutes (s : State) (ctx : Nat) : State :=
  (s.routes.filter fun e => rCtx e.2 == ctx && rValid e.2).foldl (fun s e =>
    setRoute s e.1 { e.2 with w0 := e.2.w0 &&& 0x7FFFFFFFFFFFFFFF#64 }) s

/-- Set the type 0x05 record of a context to zero (R408). -/
def clearCtxRecord (s : State) (ctx : Nat) : State :=
  { s with counters := s.counters.filter fun e => e.1 / 64 != ckey 5 ctx 0 / 64 }

def ctxCreateEffect (s : State) (k : Cmd) : State :=
  let ctx := fld k.w0 11 0
  if (ctxOf s ctx).state ≠ .free then failC s k 0 badPacket 0 0
  else done (setCtx (clearCtxRecord (dropRoutes s ctx) ctx) ctx (newCtx k)) k 0

/-- CTX_CREATE. -/
def execCtxCreate (c : CmdRef) (s : State) : Host.Outcome State Fault Refusal :=
  whenUp s fun s => runCmd s c 0x10 ctxCreateEffect

/-- The fields that SEL selects (R73). -/
def configured (k : Cmd) (d : Ctx) : Ctx :=
  let n := newCtx k
  let d := if bit k.w1 0 then { d with part := n.part } else d
  let d := if bit k.w1 1 then { d with job := n.job } else d
  let d := if bit k.w1 2 then { d with deadchk := n.deadchk } else d
  let d := if bit k.w1 3 then { d with root := n.root } else d
  let d := if bit k.w1 4 then { d with seed := n.seed } else d
  let d := if bit k.w1 5 then { d with objquota := n.objquota } else d
  let d := if bit k.w1 6 then { d with priv := n.priv } else d
  if bit k.w1 7 then { d with frbase := n.frbase, frsize := n.frsize, frset := true, frprod := 0, frcons := 0 } else d

/-- A queue with a started command goes on under the old PART, JOB and DEADCHK until its next command boundary (R28). -/
def keepSetting (s : State) (ctx queue : Nat) : State :=
  if (queueCmds s ctx queue).any fun x => x.phase == .started then
    updQueue s ctx queue fun q => { q with keep := some (q.keep.getD (ctxOf s ctx).setting) }
  else s

/-- CTX_CONFIG: a change of PART, JOB or DEADCHK (SEL [2:0]) takes effect queue by queue. -/
def ctxConfigEffect (s : State) (k : Cmd) : State :=
  let ctx := fld k.w0 11 0
  if ctxGone s ctx then failC s k 0 badPacket 0 0
  else
    let s := if fld k.w1 2 0 = 0 then s else (List.range 16).foldl (fun s q => keepSetting s ctx q) s
    done (updCtx s ctx (configured k)) k 0

/-- CTX_CONFIG. -/
def execCtxConfig (c : CmdRef) (s : State) : Host.Outcome State Fault Refusal :=
  whenUp s fun s => runCmd s c 0x11 ctxConfigEffect

/-- QSTATE after ENABLE: a queue of a FAULTED context is STOPPED, and one with a standing halt HALTED (R26, R64, R75). -/
def enabledState (s : State) (ctx queue : Nat) (old : QState) (enable : Bool) : QState :=
  if (ctxOf s ctx).state = .faulted ∧ (enable ∨ old = .stopped) then .stopped
  else if !enable then .disabled
  else if s.halts.any fun h => h.ctx == ctx && h.queue == queue then .halted
  else .enabled

/-- QUEUE_CONFIG (R472; DEDUCED corners, notes/assumptions/75.md). -/
def queueConfigEffect (s : State) (k : Cmd) : State :=
  let ctx := fld k.w0 11 0
  let queue := fld k.w0 15 12
  let h : Word := BitVec.ofNat 32 (fld k.w1 31 0)
  let o := objOf s (hIndex h)
  let q := queueOf s ctx queue
  let set (q : Queue) : Queue :=
    { q with
      engine := BitVec.ofNat 3 (fld k.w0 18 16), prio := BitVec.ofNat 2 (fld k.w0 21 20), eval := bit k.w0 22
      qstate := enabledState s ctx queue q.qstate (bit k.w0 23) }
  if ctxGone s ctx ∨ o.owner.toNat ≠ ctx ∨ fld o.w1 63 60 ≠ queue then failC s k 0 badPacket 0 0
  else if q.ring = h ∧ !q.bootRings then done (setQueue s ctx queue (set q)) k 0
  else if q.head ≠ q.tail ∨ q.outst ≠ 0 then failC s k 0 badPacket 0 0
  else
    let q' : Queue := { q with
      ring := h, bootRings := false, tail := 0, head := 0, cprod := 0, ccons := 0, retired := 0, outst := 0 }
    done (setQueue s ctx queue (set q')) k 0

/-- QUEUE_CONFIG. -/
def execQueueConfig (c : CmdRef) (s : State) : Host.Outcome State Fault Refusal :=
  whenUp s fun s => runCmd s c 0x16 queueConfigEffect

/-- XLAT_INVAL of every page, or of a range. -/
def xlatInvalEffect (s : State) (k : Cmd) : State :=
  let ctx := fld k.w0 11 0
  if ctxGone s ctx then failC s k 0 badPacket 0 0
  else if bit k.w0 12 then done (invalXlats s ctx 0 (2 ^ 36)) k 0
  else done (invalXlats s ctx (fld k.w1 51 16) (fld k.w2 31 0)) k 0

/-- XLAT_INVAL (R36). -/
def execXlatInval (c : CmdRef) (s : State) : Host.Outcome State Fault Refusal :=
  whenUp s fun s => runCmd s c 0x17 xlatInvalEffect

/-! ### Preemption (R86, R87, R171, R271) -/

/-- The halted engine is a stream of one of the sites. -/
def haltOn (sites : List Nat) (h : Halt) : Bool :=
  match h.what with
  | .stream site _ => sites.contains site
  | .update .. => false

/-- Stop a launch and free its tiles. An abort of it ends its halts too, which R64 does not list (DESIGN CHOICE,
notes/assumptions/83.md): what they stopped is gone. -/
def stopLaunch (s : State) (c : CmdRef) : State :=
  match s.launches.find? fun l => l.cmd == c with
  | none => s
  | some l =>
    let s := { s with
      tiles := s.tiles.map fun (e : Nat × Tile) => if e.2.launch == some c then (e.1, stopTile e.2) else e
      launches := s.launches.filter fun x => x.cmd != c }
    let s := forgetRemotes s fun q => q.ctx == c.ctx && remoteOn l.sites q.what
    endHalts s fun h => h.ctx == c.ctx && haltOn l.sites h

/-- A preempted COPY, FILL or STATE_MOVE has moved some of its blocks (R85, R87). -/
def movedSome (s : State) (k : Cmd) : State := moveSome (copySome s k) k

/-- Preempt a started command: its work stops and leaves nothing in flight. A command that a fault or a suspend has stopped
already moves no more. -/
def stopWork (s : State) (k : Cmd) (halted : Bool) : State :=
  let s := if halted || k.stopped then s else movedSome s k
  endUpdate (abandonRun (endDispRun (stopLaunch s k.ref) k.ref) k.ref) k.ref

/-- A waiting command waits no longer. -/
def endOwnWait (s : State) (k : Cmd) : State :=
  match k.waits with
  | some i => dropWaiter (updCmd s k.ref fun k => { k with waits := none }) i
  | none => s

/-! ### CMD_ABORT (R84, R85) -/

/-- Status codes of R83. -/
def statusAborted : Nat := 1
def statusDropped : Nat := 3
def alreadyDone : Nat := 4
def notPresent : Nat := 5

/-- The target has passed its commit point. -/
def committed (s : State) (c : CmdRef) : Bool := runCommitted s c || agreeCommitted s c

/-- Abort a parsed target: the state and RESULT. An evicted queue whose head waits no longer rejoins the list (R66). -/
def abortParsed (s : State) (t : Cmd) : State × Nat :=
  match t.phase with
  | .done => (s, alreadyDone)
  | .waiting =>
    (rejoin (complete (finish (endOwnWait s t) t.ref statusAborted opAborted 0) t.ref) t.ref.ctx t.ref.queue, statusAborted)
  | .started =>
    if committed s t.ref then (s, alreadyDone)
    else
      (finish (stopWork s t ((ctxOf s t.ref.ctx).state == .faulted)) t.ref statusAborted opAborted 0, statusAborted)

/-- CMD_ABORT: its target is won, decided, retired or not present (R84, R85; DESIGN CHOICE for itself,
notes/assumptions/39.md). That of a committed agree run answers once the run has completed (R381). -/
def cmdAbortEffect (s : State) (k : Cmd) : State :=
  let ctx := fld k.w0 11 0
  let queue := fld k.w0 15 12
  let index : Word := BitVec.ofNat 32 (fld k.w1 31 0)
  let t : CmdRef := { ctx := ctx, queue := queue, index := index.toNat, lpos := 0 }
  let q := queueOf s ctx queue
  if (index - q.tail).toNat < 2 ^ 31 then done s k notPresent
  else if t = k.ref then done s k alreadyDone
  else match cmdOf s t with
    | some x =>
      if x.phase = .started ∧ agreeCommitted s t then s
      else
        let r := abortParsed s x
        done r.1 k r.2
    | none =>
      if (index - q.head).toNat < 2 ^ 31 then
        done { s with doomed := if s.doomed.contains t then s.doomed else s.doomed ++ [t] } k statusAborted
      else done s k alreadyDone

/-- CMD_ABORT. -/
def execCmdAbort (c : CmdRef) (s : State) : Host.Outcome State Fault Refusal :=
  whenUp s fun s => runCmd s c 0x1B cmdAbortEffect

/-! ### CTX_SUSPEND (R87, R88) -/

/-- Bytes of the save buffer that one tile takes. -/
def saveBytes : Nat := 2621440

/-- Tiles that a context holds. -/
def tilesHeld (s : State) (ctx : Nat) : Nat :=
  ((s.launches.filter fun l => l.ctx == ctx).map fun l => l.sites.length - l.ended.length).sum

/-- CTX_SUSPEND stops the command at once: compute and copy work, a combine run that waits, and an update run whose flag is
not final (R87). -/
def stopsNow (s : State) (k : Cmd) : Bool :=
  k.phase == .started &&
    (opClass k.opcode.toNat == some (some 0) || opClass k.opcode.toNat == some (some 1) || combineWaits s k.ref ||
      (k.opcode == 0x40 && !runCommitted s k.ref))

/-- Mark the commands of a context that p picks stopped. -/
def stopCmds (s : State) (ctx : Nat) (p : Cmd → Bool) : State :=
  { s with cmds := s.cmds.map fun (k : Cmd) => if k.ref.ctx = ctx ∧ p k then { k with stopped := true } else k }

/-- The context's queues and its compute and copy work stop, a move at the position that it has reached, and its epochs
close (R87, R202). -/
def beginSuspend (s : State) (ctx : Nat) : State :=
  let moved := (s.cmds.filter fun k => k.ref.ctx == ctx && k.phase == .started).foldl copySome s
  closeEpochs (updCtx (stopCmds moved ctx (stopsNow moved)) ctx fun d => { d with state := .suspended }) ctx

/-- A tile site that a launch of the context holds. -/
def heldBy (ctx : Nat) (t : Tile) : Bool :=
  match t.launch with
  | some c => c.ctx == ctx
  | none => false

/-- A message request of the site has no response yet. -/
def msgWaits (site : Nat) (w : RemoteOf) : Bool :=
  match w with
  | .msgSend x _ => x == site
  | .msgGet x _ _ => x == site
  | _ => false

/-- The tile's array has completed what it accepted (R171), its samples have their verdicts, and no message waits for
its response. -/
def saveReady (s : State) (e : Nat × Tile) : Bool :=
  e.2.array.accepted.isEmpty && e.2.samples.isEmpty && !(s.remotes.any fun r => msgWaits e.1 r.2.what)

/-- A stream stops at its position (R271). -/
def rewound (x : Strm) : Strm :=
  if x.st = .active then { x with next := x.pos, issued := [], failed := [], seen := [] } else x

/-- A tile as it is saved. -/
def savedTile (t : Tile) : Tile :=
  { t with l1 := [], icache := [], streams := t.streams.map fun (x : Nat × Strm) => (x.1, rewound x.2) }

/-- The saved tiles of a launch, by tile index. -/
def savedTiles (s : State) (l : Launch) : NMap Tile :=
  l.sites.zipIdx.filterMap fun e =>
    if (tileOf s e.1).launch = some l.cmd then some (e.2, savedTile (tileOf s e.1)) else none

/-- Save every tile of a context and free it. -/
def saveTiles (s : State) (ctx : Nat) : State :=
  let s' := forgetRemotes s fun q => q.ctx == ctx && match q.what with
    | .stream .. => true
    | _ => false
  { s' with
    launches := s.launches.map fun (l : Launch) => if l.ctx = ctx then { l with saved := savedTiles s l } else l
    tiles := s.tiles.map fun (e : Nat × Tile) => if heldBy ctx e.2 then (e.1, stopTile e.2) else e }

/-- What the save buffer then holds the manual does not give (notes/assumptions/15.md). -/
def fillBuffer (s : State) (o : Obj) (n : Nat) : State × MRes Unit :=
  vWriteN (freeBytes s n).2 o.owner.toNat (fld o.w1 51 0) (freeBytes s n).1

/-- A started command of the dispatch, collective or update class that has not stopped under R87. -/
def stillRuns (s : State) (k : Cmd) : Bool :=
  k.phase != .waiting && !k.stopped &&
    match opClass k.opcode.toNat with
    | some (some 2) => !combineWaits s k.ref
    | some (some 3) =>
      (match collOf s k.ref with
      | some r => r.phase != .openUp
      | none => k.opcode == 0x3A || k.opcode == 0x3B || k.phase == .done)
    | some (some 4) => k.opcode != 0x40 || k.phase == .done || runCommitted s k.ref
    | _ => false

/-- CTX_SUSPEND: it stops the context, saves its tiles when they are ready, and completes when all else has retired or
stopped. -/
def ctxSuspendEffect (s : State) (k : Cmd) : State :=
  let ctx := fld k.w0 11 0
  let o := objOf s (hIndex (BitVec.ofNat 32 (fld k.w1 31 0)))
  let step (s : State) (n : Nat) : State := updCmd s k.ref fun k => { k with pos := n }
  match k.pos, (ctxOf s ctx).state with
  | 0, .active =>
    if ctx = k.ref.ctx ∨ fld o.w2 31 0 * 65536 < saveBytes * tilesHeld s ctx then failC s k 0 badPacket 0 0
    else step (beginSuspend s ctx) 1
  | 0, .suspended => if ctx = k.ref.ctx then failC s k 0 badPacket 0 0 else done s k 2
  | 0, _ => failC s k 0 badPacket 0 0
  | 1, .suspended =>
    if (s.tiles.filter fun e => heldBy ctx e.2).all (saveReady s) then
      (match fillBuffer s o (saveBytes * tilesHeld s ctx) with
      | (s, .ok ()) => step (saveTiles s ctx) 2
      | (s, .fault c v d) => failF s k 0 c v (BitVec.ofNat 64 d)
      | (_, .wait) => s)
    else s
  | _, .suspended =>
    if s.cmds.any fun x => x.ref.ctx == ctx && stillRuns s x then s
    else done (stopCmds s ctx fun x => x.phase == .started && combineWaits s x.ref) k 1
  | _, _ => done s k 1

/-- CTX_SUSPEND. -/
def execCtxSuspend (c : CmdRef) (s : State) : Host.Outcome State Fault Refusal :=
  whenUp s fun s => runCmd s c 0x12 ctxSuspendEffect

/-! ### CTX_RESUME (R88) -/

/-- Put saved tiles on free tiles of their dies, which ones the manual does not say (notes/assumptions/40.md): the state, and
the pairs of old and new site. -/
def placeSaved (s : State) (l : Launch) (saved : List (Nat × Tile)) : State × List (Nat × Nat) :=
  match saved with
  | [] => (s, [])
  | (i, t) :: r =>
    let old := (l.sites[i]?).getD 0
    let free := freeTiles s (old / 192)
    let d := takeFree s
    match free[d.1.toNat % free.length]? with
    | none => placeSaved s l r
    | some (site, _) =>
      let s := d.2
      let cur := tileOf s site
      let t := { t with
        sampleCount := cur.sampleCount
        array := { t.array with lastAct := cur.array.lastAct, holdLeft := cur.array.holdLeft } }
      let p := placeSaved (applyRepair (setTile s site t) site) l r
      (p.1, (old, site) :: p.2)

/-- Where a site has gone. -/
def movedTo (pairs : List (Nat × Nat)) (site : Nat) : Nat :=
  match pairs.find? fun p => p.1 == site with
  | some p => p.2
  | none => site

/-- The launches of a context, tile by tile. -/
def placeLaunches (s : State) (ls : List Launch) : State × List (Nat × Nat) :=
  match ls with
  | [] => (s, [])
  | l :: r =>
    let p := placeSaved s l l.saved
    let sites := l.sites.zipIdx.map fun e => if (NMap.find l.saved e.2).isSome then movedTo p.2 e.1 else e.1
    let s := { p.1 with launches := p.1.launches.map fun (x : Launch) =>
      if x.cmd == l.cmd then { x with sites := sites, saved := [] } else x }
    let q := placeLaunches s r
    (q.1, p.2 ++ q.2)

/-- Saved tiles of a context on a die. -/
def savedOn (ls : List Launch) (die : Nat) : Nat :=
  (ls.map fun l => (l.saved.filter fun e => (l.sites[e.1]?).getD 0 / 192 == die).length).sum

/-- Restore the tiles of a context, and what names their sites; none while too few tiles are free. -/
def restoreTiles (s : State) (ctx : Nat) : Option State :=
  let ls := s.launches.filter fun l => l.ctx == ctx
  if savedOn ls 0 ≤ (freeTiles s 0).length ∧ savedOn ls 1 ≤ (freeTiles s 1).length then
    let p := placeLaunches s ls
    let moveDef (d : Deferred) : Deferred := { d with site := movedTo p.2 d.site }
    let moveHalt (h : Halt) : Halt := match h.what with
      | .stream site slot => if h.ctx = ctx then { h with what := .stream (movedTo p.2 site) slot } else h
      | .update .. => h
    some { p.1 with
      tiles := p.1.tiles.map fun (e : Nat × Tile) =>
        if heldBy ctx e.2 then (e.1, { e.2 with deferred := e.2.deferred.map moveDef }) else e
      halts := p.1.halts.map moveHalt }
  else none

/-- A CTX_SUSPEND of the context is under way. -/
def suspending (s : State) (ctx : Nat) : Bool :=
  s.cmds.any fun x => x.opcode == 0x12 && x.phase == .started && x.pos != 0 && fld x.w0 11 0 == ctx

def ctxResumeEffect (s : State) (k : Cmd) : State :=
  let ctx := fld k.w0 11 0
  if (ctxOf s ctx).state ≠ .suspended then failC s k 0 badPacket 0 0
  else if suspending s ctx then s
  else match restoreTiles s ctx with
    | none => s
    | some s =>
      let go (x : Cmd) : Cmd := if x.ref.ctx = ctx then { x with stopped := false } else x
      done (updCtx { s with cmds := s.cmds.map go } ctx fun d => { d with state := .active }) k 0

/-- CTX_RESUME. -/
def execCtxResume (c : CmdRef) (s : State) : Host.Outcome State Fault Refusal :=
  whenUp s fun s => runCmd s c 0x13 ctxResumeEffect

/-! ### FAULT_RESUME (R56, R75, R270, R331) -/

/-- A stream in a saved tile goes on from its position once its context resumes. -/
def resumeSaved (ctx site slot : Nat) (l : Launch) : Launch :=
  let go (x : Nat × Strm) : Nat × Strm :=
    if x.1 = slot ∧ x.2.st = .halted then
      (x.1, { x.2 with st := .active, next := x.2.pos, issued := [], failed := [], seen := [] })
    else x
  if l.ctx = ctx then
    { l with saved := l.saved.map fun (e : Nat × Tile) =>
        if (l.sites[e.1]?).getD 0 = site then (e.1, { e.2 with streams := e.2.streams.map go }) else e }
  else l

/-- The engine that a halt stopped resumes from its saved position. -/
def resumeHalt (s : State) (h : Halt) : State :=
  match h.what with
  | .stream site slot =>
    if heldBy h.ctx (tileOf s site) then resumeStrm s site slot
    else { s with launches := s.launches.map (resumeSaved h.ctx site slot) }
  | .update .. => s

def faultResumeEffect (s : State) (k : Cmd) : State :=
  let ctx := fld k.w0 11 0
  let seq : Word := BitVec.ofNat 32 (fld k.w1 31 0)
  if ctxGone s ctx then failC s k 0 badPacket 0 0
  else match s.halts.find? fun h => h.ctx == ctx && h.seq == seq with
    | none => done s k 0
    | some h => done (endHalts (resumeHalt s h) (· == h)) k 1

/-- FAULT_RESUME. -/
def execFaultResume (c : CmdRef) (s : State) : Host.Outcome State Fault Refusal :=
  whenUp s fun s => runCmd s c 0x15 faultResumeEffect

/-! ### CONTEXT_KILL (R25, R90 to R92) -/

/-- Drop a command that has not reached its completion point (DEDUCED, notes/assumptions/36.md). -/
def dropCmd (ctx : Nat) (halted : Bool) (s : State) (k : Cmd) : State :=
  let drop (s : State) : State :=
    updCtx (finish s k.ref statusDropped contextKilled 0) ctx fun d => { d with dropped := d.dropped + 1 }
  match k.phase with
  | .done => s
  | .waiting => drop (endOwnWait s k)
  | .started => drop (stopWork s k halted)

/-- Fences that a context can signal: its own, and those it holds with RIGHTS write (R80). -/
def signalable (s : State) (ctx : Nat) : List Nat :=
  s.objs.filterMap fun e =>
    let o := e.2
    if o.state ≠ .free ∧ o.owner.toNat = ctx ∧ kindOf s e.1 = .fence ∧ (o.kind = .fence ∨ hasRight o 1) then
      some (originOf s e.1)
    else none

/-- Step 4 of R90 for one fence: the waits of other contexts on it end with its error (DEDUCED,
notes/assumptions/42.md). -/
def abandonFence (ctx : Nat) (s : State) (fence : Nat) : State :=
  let n := (s.cmds.filter fun k => k.waits == some fence && k.phase == .waiting && k.ref.ctx != ctx).length
  if n = 0 then s
  else
    let s := updCtx s ctx fun d => { d with abandoned := d.abandoned + n }
    wakeWaiters (updObj s fence fun o => setFenceErr o fenceAbandoned) fence

/-- Every queue of a context takes a QSTATE, a DISABLED one too (R90). -/
def allQueues (s : State) (ctx : Nat) (st : QState) : State :=
  (List.range 16).foldl (fun s q => updQueue s ctx q fun d => { d with qstate := st }) s

/-- Queues of a killed context: what has not been parsed is discarded unread. -/
def discardQueues (s : State) (ctx : Nat) : State :=
  let s := (List.range 16).foldl (fun s q => updQueue s ctx q fun d => { d with head := d.tail, lists := none }) s
  { s with doomed := s.doomed.filter fun c => c.ctx != ctx, waiting := s.waiting.filter fun q => q / 16 != ctx }

/-- Steps 1 to 3 of R90. -/
def beginKill (s : State) (ctx : Nat) (c : CmdRef) : State :=
  let ks := s.cmds.filter fun k => k.ref.ctx == ctx
  let halted := (ctxOf s ctx).state == .faulted
  let s := endHalts (discardInjections s fun i => i.ctx == ctx) fun h => h.ctx == ctx
  let s := updCtx s ctx fun d => { d with state := .killing, dropped := 0, abandoned := 0, scrubbed := 0, killers := [(c, 0)] }
  closeEpochs (discardQueues (ks.foldl (dropCmd ctx halted) (allQueues s ctx .stopped)) ctx) ctx

def contextKillEffect (s : State) (k : Cmd) : State :=
  let ctx := fld k.w0 11 0
  if ctx = k.ref.ctx then failC s k 0 badPacket 0 0
  else match (ctxOf s ctx).state with
    | .free => done s k 2
    | .killing | .scrubbing =>
      updCtx s ctx fun d =>
        if d.killers.any fun x => x.1 == k.ref then d else { d with killers := d.killers ++ [(k.ref, 1)] }
    | _ => beginKill s ctx k.ref

/-- CONTEXT_KILL. -/
def execContextKill (c : CmdRef) (s : State) : Host.Outcome State Fault Refusal :=
  whenUp s fun s => runCmd s c 0x14 contextKillEffect

/-- Mark every LIVE entry that a context owns free (step 6 of R90). -/
def markOwned (s : State) (ctx : Nat) : State :=
  (s.objs.filter fun e => e.2.state == .live && e.2.owner.toNat == ctx).foldl (fun s e => markFree s e.1 0 0) s

/-- Steps 4 to 6 of R90: every dropped command has retired and signalled its fence before the waits end. -/
def enterScrubbing (s : State) (ctx : Nat) : State :=
  let s := (signalable s ctx).foldl (abandonFence ctx) s
  let s := { s with
    xlats := s.xlats.filter fun x => x.ctx != ctx
    rxt := s.rxt.filter fun e => !(eV e.2 && eCtx e.2 == ctx) }
  let s := updCtx s ctx fun d => { d with heap0 := 0, heap1 := 0, heap2 := 0, heap3 := 0, state := .scrubbing }
  releaseGroups (markOwned (forgetRemotes s fun q => q.ctx == ctx) ctx) ctx

/-- CONTEXT_ENTER_SCRUBBING: every command of the KILLING context has retired. -/
def execContextEnterScrubbing (ctx : Nat) (s : State) : Host.Outcome State Fault Refusal :=
  whenUp s fun s =>
    if (ctxOf s ctx).state = .killing ∧ !(s.cmds.any fun k => k.ref.ctx == ctx) then enterScrubbing s ctx else s

/-- A CONTEXT_KILL that waited for FREE completes. -/
def endKiller (s : State) (x : CmdRef × DWord) : State :=
  match cmdOf s x.1 with
  | some k => if k.phase = .started then complete (finish s x.1 0 0 x.2) x.1 else s
  | none => s

/-- The number of a context that is gone names no context any more: what a later one of the number launches is of a different
context (R94). -/
def forgetOwner (s : State) (ctx : Nat) : State :=
  { s with tiles := s.tiles.map fun (e : Nat × Tile) => if e.2.lastCtx = some ctx then (e.1, { e.2 with lastCtx := none }) else e }

/-- Step 7 of R90. Its queues are those of no context again. -/
def reachFree (s : State) (ctx : Nat) : State :=
  let d := ctxOf s ctx
  let s := allQueues (forgetOwner s ctx) ctx .disabled
  let s := logEvent s 0 0x02 0 ctx (BitVec.ofNat 64 d.dropped) (BitVec.ofNat 64 d.abandoned) (BitVec.ofNat 64 d.scrubbed)
  let s := updCtx s ctx fun d => { d with state := .free, killers := [] }
  notify (d.killers.foldl endKiller s) 4 0 ctx 0 0

/-- CONTEXT_REACH_FREE: every entry that the SCRUBBING context owned is FREE. -/
def execContextReachFree (ctx : Nat) (s : State) : Host.Outcome State Fault Refusal :=
  whenUp s fun s =>
    if (ctxOf s ctx).state = .scrubbing ∧ !(s.objs.any fun e => e.2.state != .free && e.2.owner.toNat == ctx) then
      reachFree s ctx
    else s

end Sys2Proof.Machine
end

