-- ==== Sys2Proof/Machine/Manage.lean ====
section
/-! DEFINITION. The management endpoint and mailbox (R468 to R471), attestation (R438 to R441), life-cycle transitions and
vendor keys as they are requested (R427, R433 to R435), debug access (R442 to R445), and firmware update (R431). -/

namespace Sys2Proof.Machine

/-! ### Messages and answers (R468, R469) -/

/-- MCTP message types of R468. -/
def pldmType : Nat := 0x01
def spdmType : Nat := 0x05

/-- PLDM completion codes (DSP0240, PRESUMED in notes/assumptions/70.md; R468 names the last). -/
def pldmOk : Nat := 0x00
def pldmError : Nat := 0x01
def pldmInvalidData : Nat := 0x02
def pldmUnsupported : Nat := 0x05

/-- SPDM response codes (DSP0274, PRESUMED in notes/assumptions/70.md). -/
def spdmError : Nat := 0x7F

/-- Most bytes of a request and of a response (R467). -/
def mailboxBytes : Nat := 28672

/-- The bytes of a response buffer. -/
def bufferOf (bs : List Byte) : NMap Byte := memPut [] 0 (bs.take mailboxBytes)

/-- The mailbox ends its request (R468, R466): the response in the buffer, its length, MBSTATE, and the interrupt. -/
def mailboxEnds (s : State) (mbstate : BitVec 2) (bs : List Byte) : State :=
  sendInterrupt { s with boot := { s.boot with
    rspBuf := bufferOf bs, rsplen := BitVec.ofNat 16 (min bs.length mailboxBytes), mbstate := mbstate } }

/-- Answer a message of a type with a code and a body, where it came from. -/
def answer (s : State) (mailbox : Bool) (type code : Nat) (body : List Byte) : State :=
  if mailbox then mailboxEnds s 2 (Config.frame type code body)
  else { s with reply := if type = spdmType then .spdm code body else .pldm code body }

/-- The companion processor reaches the bootstrap block: the link is up and the SMC runs the ROM or the image
(DEDUCED, notes/assumptions/62.md). -/
def windowUp (s : State) : Bool :=
  linkUp s && (s.run == .up || s.run == .recovery || s.run == .scrapped)

/-- The mailbox holds a submitted message of the type. -/
def mailboxHolds (s : State) (type : Nat) : Bool :=
  windowUp s && s.boot.mbstate == 1 && NMap.getD s.boot.reqBuf 0 0 == BitVec.ofNat 8 type

/-- The message has arrived: in the mailbox, or at the endpoint of a module that is powered. -/
def arrived (s : State) (mailbox : Bool) (type : Nat) : Bool :=
  if mailbox then mailboxHolds s type else s.run != .off

/-- PLDM services other than base, GetProgress and GetStepLog: from the end of step 0x07, and never in SCRAPPED (R441,
R469) (DEDUCED, notes/assumptions/64.md). -/
def pldmOpen (s : State) : Bool := s.run != .off && s.run != .scrapped && decide (8 ≤ s.mgmt.progStep.toNat)

/-- SPDM requests are answered: from the end of step 0x12, and in SCRAPPED (R438, R441). -/
def spdmOpen (s : State) : Bool := s.run == .scrapped || (s.run != .off && decide (0x13 ≤ s.mgmt.progStep.toNat))

/-- Answer a PLDM request where its service is offered. -/
def onPldm (s : State) (mailbox open_ : Bool) (f : State → State × Nat × List Byte) :
    Host.Outcome State Fault Refusal :=
  if arrived s mailbox pldmType then
    if open_ then
      let r := f s
      .next (answer r.1 mailbox pldmType r.2.1 r.2.2)
    else .next (answer s mailbox pldmType pldmUnsupported [])
  else .next s

/-- SPDM error response with an error code. -/
def spdmFail (code : Nat) : Nat × List Byte := (spdmError, [BitVec.ofNat 8 code])

/-- Answer an SPDM request; before the SMC answers SPDM, with the error Busy (R438). -/
def onSpdm (s : State) (mailbox : Bool) (f : State → State × Nat × List Byte) : Host.Outcome State Fault Refusal :=
  if arrived s mailbox spdmType then
    let r := if spdmOpen s then f s else (s, spdmFail 0x03)
    .next (answer r.1 mailbox spdmType r.2.1 r.2.2)
  else .next s

/-- MAILBOX_SUBMIT (R468): MBGO = 1. -/
def submitMailbox (s : State) : State :=
  if s.boot.mbstate = 1 then s
  else
    let n := s.boot.reqlen.toNat
    let type := (NMap.getD s.boot.reqBuf 0 0).toNat
    if n = 0 ∨ mailboxBytes < n ∨ (type ≠ pldmType ∧ type ≠ spdmType) then mailboxEnds s 3 []
    else { s with boot := { s.boot with mbstate := 1 } }

def execMailboxSubmit (data : DWord) (stores : List (Nat × Byte)) (s : State) : Host.Outcome State Fault Refusal :=
  if windowUp s then
    let s := companionStores s stores
    .next (if bit data 0 then submitMailbox s else s)
  else .next s

/-- MCTP_CONTROL (R469): answered from step 0x01 on. -/
def execMctpControl (msg : List Byte) (s : State) : Host.Outcome State Fault Refusal :=
  if s.run = .off then .next s else .next { s with reply := .data (Config.frame 0 0 msg) false }

/-- DYNAMIC_ADDRESS_ASSIGNMENT (R469): an I3C target only. -/
def execDynamicAddressAssignment (addr : BitVec 7) (s : State) : Host.Outcome State Fault Refusal :=
  if s.run = .off ∨ !s.power.mgmtMode then .next s else .next { s with mgmt := { s.mgmt with dynAddr := addr } }

/-! ### Sensors and power (R470, R471) -/

/-- Words 12 to 14 of the bootstrap block (R467). -/
def powerWord (p : Power) (w : Nat) : Nat :=
  match w with
  | 12 => (p.envcap.toNat <<< 52) + (p.envreq.toNat <<< 40) + (p.opreq.toNat <<< 38) + (p.hmax.toNat <<< 32) +
      (p.eff.toNat <<< 16) + p.ceil.toNat
  | 13 => (p.pin.toNat <<< 48) + (p.iin.toNat <<< 32) + (p.vin.toNat <<< 16) + p.vcore.toNat
  | _ => (p.tjmax.toNat <<< 56) + (p.tinlet.toNat <<< 48) + (p.limit.toNat <<< 44)

/-- The boot progress value (R421). -/
def progressOf (s : State) : Nat := s.mgmt.progStep.toNat * 16777216 + s.mgmt.progCount.toNat

/-- Tile sites that hold a logical tile, as islands (R95, R397). -/
def activeSites (s : State) : List Nat := s.map0 ++ s.map1.map (· + 192)

/-- Mean beat rate of the active tiles in M beats/s (R409, R470). -/
def meanBeat (s : State) : Nat :=
  let l := activeSites s
  (l.map fun i => (counter s 6 i 3).toNat).sum * 112000 / 134217728 / max 1 l.length

/-- The highest of the temperatures reported, or none where no part has reported one. -/
def hottest (m : NMap Int) : Option Int :=
  match m with
  | [] => none
  | e :: r => some (r.foldl (fun a x => max a x.2) e.2)

/-- The value of a sensor (R470); a temperature that nothing has reported yet is a free value (DESIGN CHOICE,
notes/assumptions/65.md). -/
def sensorValue (s : State) (n : Nat) : Int :=
  let p := s.power
  let free : Int := toSigned 8 (Config.freeWord s.freeCtr).toNat
  match n with
  | 1 => p.vin.toNat
  | 2 => p.iin.toNat
  | 3 => p.pin.toNat
  | 4 => p.eff.toNat
  | 5 => toSigned 8 p.tjmax.toNat
  | 6 => toSigned 8 p.tinlet.toNat
  | 7 => (hottest p.stackT).getD free
  | 8 => (hottest p.dimmT).getD free
  | 9 => meanBeat s
  | 10 => p.vcore.toNat
  | 11 => s.sovel.lstate.toNat
  | _ => progressOf s

/-- PLDM_SENSOR_READ (R470): the value as 32 bits. -/
def execPldmSensorRead (sensor : Nat) (mailbox : Bool) (s : State) : Host.Outcome State Fault Refusal :=
  onPldm s mailbox (pldmOpen s) fun s =>
    if 1 ≤ sensor ∧ sensor ≤ 12 then
      ((takeFree s).2, pldmOk, leBytes (ofSigned 32 (sensorValue s sensor)) 4)
    else (s, pldmInvalidData, [])

/-- GET_PROGRESS (R421, R471). -/
def execGetProgress (mailbox : Bool) (s : State) : Host.Outcome State Fault Refusal :=
  onPldm s mailbox true fun s => (s, pldmOk, leBytes (progressOf s) 4)

/-- GET_POWER_STATUS (R471). -/
def execGetPowerStatus (mailbox : Bool) (s : State) : Host.Outcome State Fault Refusal :=
  onPldm s mailbox (pldmOpen s) fun s =>
    (s, pldmOk, leBytes (powerWord s.power 12) 8 ++ leBytes (powerWord s.power 13) 8 ++ leBytes (powerWord s.power 14) 8)

/-- SET_ENVELOPE_CAP (R453, R457, R468): at the endpoint only. The air-cooled heat sink stores 1,100 W at most. -/
def execSetEnvelopeCap (watts : Nat) (mailbox : Bool) (s : State) : Host.Outcome State Fault Refusal :=
  onPldm s mailbox (pldmOpen s && !mailbox) fun s =>
    if 1100 ≤ watts ∧ watts ≤ 2600 then
      let w := if s.power.coolId = 1 then 1100 else watts
      ({ s with power := { s.power with envcap := BitVec.ofNat 12 w } }, pldmOk, leBytes w 2)
    else (s, pldmInvalidData, [])

/-- What a pending event tells: its kind, and of a stop during boot the step and unit (R417). -/
def eventBytes (s : State) (e : Nat) : List Byte :=
  match e, s.mgmt.stopAt with
  | 1, some (step, unit) => [1, BitVec.ofNat 8 step] ++ leBytes unit 2
  | _, _ => [BitVec.ofNat 8 e]

/-- PLATFORM_EVENT_RETRIEVAL (R469): the oldest pending event; ALERT_N is released with the last. -/
def execPlatformEventRetrieval (s : State) : Host.Outcome State Fault Refusal :=
  onPldm s false (pldmOpen s) fun s =>
    match s.mgmt.events with
    | [] => (s, pldmOk, [])
    | e :: r =>
      ({ s with mgmt := { s.mgmt with events := r }, power := { s.power with alert := !r.isEmpty } }, pldmOk, eventBytes s e)

/-! ### The step log (R418, R420, R422) -/

/-- The 32 bytes of a step-log entry (R418). -/
def stepBytes (e : StepEntry) : List Byte :=
  let head := leBytes ((e.boot.toNat <<< 32) + (e.step.toNat <<< 24) + (e.kind.toNat <<< 20) + (e.outcome.toNat <<< 16) +
    (e.reason.toNat <<< 8) + e.unit.toNat) 8 ++ leBytes e.detail.toNat 8 ++ leBytes 0 12
  head ++ leBytes (crc32 head).toNat 4

/-- Fallback states that are not primary: step × 1024 + unit, and state. -/
def fallbacks (s : State) : List (Nat × Nat) := s.persist.fallback.map fun e => (e.1, e.2.toNat)

/-- GET_STEP_LOG (R422, R471): at most 64 entries, the oldest held numbered 0, and the fallback states. -/
def execGetStepLog (first count : Nat) (mailbox : Bool) (s : State) : Host.Outcome State Fault Refusal :=
  onPldm s mailbox true fun s =>
    if count ≤ 64 then
      (s, pldmOk, (((s.persist.steplog.drop first).take count).map stepBytes).flatten ++
        Config.fallbackBytes (fallbacks s))
    else (s, pldmInvalidData, [])

/-- RESET_STEP_LOG (R420): every fallback state returns to primary at the next boot. -/
def execResetStepLog (mailbox : Bool) (s : State) : Host.Outcome State Fault Refusal :=
  onPldm s mailbox (pldmOpen s) fun s => ({ s with persist := { s.persist with resetPending := true } }, pldmOk, [])

/-! ### Life cycle, vendor keys, updates (R427, R431 to R435, R423) -/

/-- The 256 bytes of a transition request (R433). -/
def transitionBytes (t : Transition) : List Byte :=
  leBytes (t.fromSt.toNat * 256 + t.target.toNat) 8 ++ leBytes t.devid.toNat 8 ++ leBytes t.ogen.toNat 8 ++
    leBytes t.newOwn.toNat 48 ++ leBytes 0 184

/-- A vendor set over the digest (R425, R434). -/
def vendorSigned (p : Persist) (dig : BitVec 384) (sets : List (Nat × List Byte × List Byte × List Byte)) : Bool :=
  sets.any fun x => x.1 == 1 && vendorKeyOk p x.2.1 none && setOk x.2.1 dig x.2.2.1 x.2.2.2

/-- An owner set of the key hash over the digest. -/
def ownerSigned (h : Option (BitVec 384)) (dig : BitVec 384) (sets : List (Nat × List Byte × List Byte × List Byte)) : Bool :=
  sets.any fun x => x.1 == 2 && h == some (Config.sha384 x.2.1) && setOk x.2.1 dig x.2.2.1 x.2.2.2

/-- The signers of R434 for a permitted transition. -/
def signersOk (p : Persist) (t : Transition) : Bool :=
  let dig := Config.sha384 (transitionBytes t)
  let vendor := vendorSigned p dig t.sets
  let owner := ownerSigned p.ownerHash dig t.sets
  let new := ownerSigned (some t.newOwn) dig t.sets
  match p.life, Life.ofCode t.target.toNat with
  | .manufacture, some .vendor => vendor
  | .vendor, some .owned => vendor && new
  | .owned, some .owned => owner && new
  | .owned, some .returned => owner
  | .returned, some .vendor => vendor
  | .vendor, some .scrapped => vendor
  | .returned, some .scrapped => vendor
  | .owned, some .scrapped => owner
  | _, _ => false

/-- Every check of R433 to R435 passes. -/
def transitionOk (p : Persist) (t : Transition) : Bool :=
  t.rsvZero && Life.ofCode t.fromSt.toNat == some p.life && t.devid == Config.devId && decide (t.ogen.toNat = p.ogen) &&
    (t.target == 2 || t.newOwn == 0) && decide (t.target.toNat = 2 → p.ogen < 16) && p.staged.isNone && signersOk p t

/-- A refusal with the number of the failing check, which the manual does not number. -/
def refusedFree (s : State) : State × Nat × List Byte :=
  ((takeFree s).2, pldmError, [BitVec.ofNat 8 (takeFree s).1.toNat])

/-- SUBMIT_TRANSITION (R433 to R435): staged, or refused with the failing check. -/
def execSubmitTransition (t : Transition) (mailbox : Bool) (s : State) : Host.Outcome State Fault Refusal :=
  onPldm s mailbox (pldmOpen s) fun s =>
    if transitionOk s.persist t then ({ s with persist := { s.persist with staged := some t } }, pldmOk, [])
    else refusedFree s

/-- A revocation request that R427 accepts. -/
def revocationOk (p : Persist) (slot : Nat) (signer rsa slh : List Byte)
    (owner : Option (List Byte × List Byte × List Byte)) : Bool :=
  decide (slot < 4) && !p.revoked.toNat.testBit slot && p.stagedRevoke.isNone && vendorKeyOk p signer (some slot) &&
    setOk signer (Config.revokeDigest slot) rsa slh &&
    (p.life != .owned || endorsed p (Config.revokeDigest slot) owner)

/-- VENDOR_KEY_REVOCATION_REQUEST (R427): staged for step 0x06. Another slot, not revoked, has signed it, so that one
stays. -/
def execVendorKeyRevocationRequest (slot : Nat) (signer rsa slh : List Byte)
    (owner : Option (List Byte × List Byte × List Byte)) (s : State) : Host.Outcome State Fault Refusal :=
  onPldm s false (pldmOpen s) fun s =>
    if revocationOk s.persist slot signer rsa slh owner then
      ({ s with persist := { s.persist with stagedRevoke := some slot } }, pldmOk, [])
    else (s, pldmError, [])

/-- An image is staged in the firmware area, and read from it for the flash: sector transfers of partition 63, spread evenly
over the 256 channels (R431; DESIGN CHOICE, notes/assumptions/60.md). -/
def stageImage (s : State) (img : Image) : State :=
  (List.range 256).foldl (fun s ch => useCredits s ch 63 (2 * ((img.body.length + 16383) / 16384))) s

/-- FIRMWARE_UPDATE (R420, R426, R431): staged, checked and written; it takes effect at the next module reset. -/
def execFirmwareUpdate (img : Image) (mailbox : Bool) (s : State) : Host.Outcome State Fault Refusal :=
  onPldm s mailbox (pldmOpen s) fun s =>
    let s := stageImage s img
    match imageFails s.persist img with
    | some n => (s, pldmError, [BitVec.ofNat 8 n])
    | none => (newImage s img, pldmOk, [])

/-- The owner area holds 16 MiB (R423). -/
def ownerAreaBytes : Nat := 16777216

/-- OWNER_DATA_WRITE (R423): appended to the owner area. -/
def execOwnerDataWrite (data : List Byte) (s : State) : Host.Outcome State Fault Refusal :=
  onPldm s false (pldmOpen s) fun s =>
    if s.persist.ownerCert.length + s.persist.ownerData.length + data.length ≤ ownerAreaBytes then
      ({ s with persist := { s.persist with ownerData := s.persist.ownerData ++ data } }, pldmOk, [])
    else (s, pldmError, [])

/-! ### Debug access (R442 to R445) -/

/-- n free values in a row. -/
def freeWords (s : State) (n : Nat) : Nat :=
  leNat ((List.range n).map fun i => leBytes (Config.freeWord (s.freeCtr + i)).toNat 8).flatten

/-- The two scopes of R442. -/
def scopeOk (scope : Nat) : Bool := scope == 1 || scope == 2

/-- A grant for the next boot, or one more failed attempt (R442, R445). -/
def grantOr (s : State) (ok : Bool) (scope : Nat) : State :=
  if ok then { s with persist := { s.persist with grant := BitVec.ofNat 8 scope } }
  else { s with mgmt := { s.mgmt with fails := s.mgmt.fails + 1 } }

/-- The password attempt of R443. -/
def passwordTry (s : State) (tdi : BitVec 2048) : State :=
  let scope := tdi.toNat % 256
  let ok := scopeOk scope && Config.sha384 (leBytes (tdi.toNat / 256 % 2 ^ 256) 32) == Config.debugPasswordHash
  if s.mgmt.fails < 8 then grantOr s ok scope else s

/-- DEBUG_UNLOCK (R442, R443): the unlock register is exchanged; what is shifted out the manual does not give. -/
def execDebugUnlock (tdi : BitVec 2048) (s : State) : Host.Outcome State Fault Refusal :=
  match s.run with
  | .off => .next s
  | _ =>
    let s' := match s.persist.life with
      | .vendor => passwordTry s tdi
      | .returned => passwordTry s tdi
      | _ => s
    .next { s' with
      freeCtr := s'.freeCtr + 32, mgmt := { s'.mgmt with unlockOut := BitVec.ofNat 2048 (freeWords s' 32) } }

/-- DEVID, boot count, nonce and scope, as the owner signs them (R444) (DEDUCED, notes/assumptions/66.md). -/
def challengeBytes (s : State) (nonce : BitVec 256) (scope : BitVec 8) : List Byte :=
  leBytes Config.devId.toNat 8 ++ leBytes s.persist.boot.toNat 4 ++ leBytes nonce.toNat 32 ++ [scope]

/-- GET_DEBUG_CHALLENGE (R444): in OWNED a new nonce, which ends an earlier one. -/
def execGetDebugChallenge (scope : BitVec 8) (mailbox : Bool) (s : State) : Host.Outcome State Fault Refusal :=
  onPldm s mailbox (pldmOpen s) fun s =>
    if s.persist.life ≠ .owned then (s, pldmError, [])
    else if !scopeOk scope.toNat then (s, pldmInvalidData, [])
    else
      let nonce : BitVec 256 := BitVec.ofNat 256 (freeWords s 4)
      ({ s with freeCtr := s.freeCtr + 4, mgmt := { s.mgmt with nonce := some (nonce, scope) } }, pldmOk,
        leBytes nonce.toNat 32 ++ leBytes Config.devId.toNat 8 ++ leBytes s.persist.boot.toNat 4 ++ [scope])

/-- The response answers the nonce in force (R444). -/
def responseOk (s : State) (key rsa slh : List Byte) : Bool :=
  match s.mgmt.nonce with
  | some (nonce, scope) =>
    s.persist.ownerHash == some (Config.sha384 key) && setOk key (Config.sha384 (challengeBytes s nonce scope)) rsa slh
  | none => false

/-- DEBUG_RESPONSE (R444, R445): granted or refused; the nonce ends in every case. -/
def execDebugResponse (keyBlock rsa slh : List Byte) (mailbox : Bool) (s : State) : Host.Outcome State Fault Refusal :=
  onPldm s mailbox (pldmOpen s) fun s =>
    let ok := responseOk s keyBlock rsa slh && decide (s.mgmt.fails < 8)
    let scope := match s.mgmt.nonce with
      | some x => x.2.toNat
      | none => 0
    if s.persist.life ≠ .owned then (s, pldmError, [])
    else
      let s := if s.mgmt.fails < 8 then grantOr s ok scope else s
      ({ s with mgmt := { s.mgmt with nonce := none } }, if ok then pldmOk else pldmError, [])

/-! ### Attestation (R438 to R441) -/

/-- The digest of the image that the flash holds. -/
def imageDigest (p : Persist) : BitVec 384 :=
  match p.image with
  | some i => Config.sha384 i.body
  | none => Config.sha384 []

def imageSvn (p : Persist) : Nat :=
  match p.image with
  | some i => i.svn.toNat
  | none => 0

/-- What enters the alias key beside the secret (R439): nothing in SCRAPPED, whose leaf is the device identity key. -/
def aliasInputs (s : State) : List Byte :=
  if s.run = .scrapped then []
  else leBytes Config.romDigest.toNat 48 ++ leBytes (imageDigest s.persist).toNat 48 ++ leBytes (imageSvn s.persist) 4

/-- Slot 1 holds the owner's certificate; refused in SCRAPPED (R439, R441). -/
def slot1Held (s : State) : Bool := s.run != .scrapped && s.persist.life == .owned && !s.persist.ownerCert.isEmpty

/-- A certificate chain. -/
def chainOf (s : State) (slot : Nat) : List Byte :=
  if slot = 0 then Config.spdmAnswer 0x82 (aliasInputs s) else s.persist.ownerCert

/-- A slot that can answer. -/
def slotHeld (s : State) (slot : Nat) : Bool := slot == 0 || (slot == 1 && slot1Held s)

/-- The key that signs for a slot: 1 device identity, 2 alias, 3 owner attestation (R439, R441). -/
def keyOf (s : State) (slot : Nat) : Nat := if slot = 1 then 3 else if s.run = .scrapped then 1 else 2

/-- The signature of a slot's key over a message, with the inputs of that key. -/
def signedBy (s : State) (slot : Nat) (msg : List Byte) : List Byte :=
  let inputs := if slot = 1 then
      leBytes s.persist.ogen 8 ++ leBytes (match s.persist.ownerHash with
        | some h => h.toNat
        | none => 0) 48
    else aliasInputs s
  Config.attestSign (keyOf s slot) (inputs ++ msg)

/-- The measurement blocks blockOffered (R440, R441). -/
def blockOffered (s : State) (index : Nat) : Bool :=
  if s.run = .scrapped then index == 1 || index == 4 || index == 5 || index == 6 else decide (1 ≤ index ∧ index ≤ 9)

/-- STEP 0xF0 entries of the latest 16 boots. -/
def stopEntries (s : State) : List StepEntry :=
  s.persist.steplog.filter fun e => e.step == 0xF0 && decide (s.persist.boot.toNat < e.boot.toNat + 16)

/-- The repair words of a die's 192 sites. -/
def repairTable (s : State) : List Byte :=
  ((List.range 384).map fun i => leBytes (repairOf s i).toNat 8).flatten

/-- What a measurement block reports, as numbers (R440). -/
def measured (s : State) (index : Nat) : List Nat :=
  let p := s.persist
  match index with
  | 1 => [Config.romDigest.toNat]
  | 2 => [(imageDigest p).toNat]
  | 3 => [imageSvn p, p.svn]
  | 4 => [p.life.code, p.ogen, match p.ownerHash with
      | some h => h.toNat
      | none => 0]
  | 5 => [s.mgmt.scope.toNat, p.debugBoots]
  | 6 => ((fallbacks s).map fun e => e.1 * 4 + e.2) ++ (stopEntries s).map fun e => leNat (stepBytes e)
  | 7 => [s.map0.length, s.map1.length, s.spares0.length, s.spares1.length, (Config.sha384 (repairTable s)).toNat]
  | 8 => ((List.range 16).map fun k => (NMap.getD p.lifetime k 0).toNat) ++ [s.seq0.toNat, s.seq1.toNat]
  | _ => ((List.range 4).map fun c => let t := chipOf s c
      [t.spdA.toNat, t.dimmA, t.spdB.toNat, t.dimmB, t.cxlId.toNat, t.cxl]).flatten

/-- A measurement block: raw, or its SHA-384 digest. -/
def blockOf (s : State) (index : Nat) (raw : Bool) : List Byte :=
  let v := Config.measurement index (measured s index)
  BitVec.ofNat 8 index :: (if raw then v else leBytes (Config.sha384 v).toNat 48)

/-- GET_VERSION (R438). -/
def execGetVersion (mailbox : Bool) (s : State) : Host.Outcome State Fault Refusal :=
  onSpdm s mailbox fun s => (s, 0x04, Config.spdmAnswer 0x84 [])

/-- GET_CAPABILITIES (R438). -/
def execGetCapabilities (mailbox : Bool) (s : State) : Host.Outcome State Fault Refusal :=
  onSpdm s mailbox fun s => (s, 0x61, Config.spdmAnswer 0xE1 [])

/-- NEGOTIATE_ALGORITHMS (R438). -/
def execNegotiateAlgorithms (req : List Byte) (mailbox : Bool) (s : State) : Host.Outcome State Fault Refusal :=
  onSpdm s mailbox fun s => (s, 0x63, Config.spdmAnswer 0xE3 req)

/-- GET_DIGESTS (R438): the SHA-384 of each chain held. -/
def execGetDigests (mailbox : Bool) (s : State) : Host.Outcome State Fault Refusal :=
  onSpdm s mailbox fun s =>
    (s, 0x01, leBytes (Config.sha384 (chainOf s 0)).toNat 48 ++
      (if slot1Held s then leBytes (Config.sha384 (chainOf s 1)).toNat 48 else []))

/-- GET_CERTIFICATE (R438): a portion of a chain, and how many bytes follow it. -/
def execGetCertificate (slot offset length : Nat) (mailbox : Bool) (s : State) : Host.Outcome State Fault Refusal :=
  onSpdm s mailbox fun s =>
    if slotHeld s slot then
      let rest := (chainOf s slot).drop offset
      let part := rest.take length
      (s, 0x02, leBytes part.length 2 ++ leBytes (rest.length - part.length) 2 ++ part)
    else (s, spdmFail 0x01)

/-- CHALLENGE (R438, R441): signed with the key of the slot. -/
def execChallenge (slot : Nat) (nonce : BitVec 256) (mailbox : Bool) (s : State) : Host.Outcome State Fault Refusal :=
  onSpdm s mailbox fun s =>
    if slotHeld s slot then
      let msg := Config.spdmAnswer 0x83 (leBytes nonce.toNat 32 ++ leBytes (Config.sha384 (chainOf s slot)).toNat 48)
      (s, 0x03, msg ++ signedBy s slot msg)
    else (s, spdmFail 0x01)

/-- GET_MEASUREMENTS (R438, R440, R441): one block, or all of them (index 0xFF), as they stand, with a signature. -/
def execGetMeasurements (index : Nat) (raw : Bool) (nonce : BitVec 256) (slot : Nat) (mailbox : Bool) (s : State) :
    Host.Outcome State Fault Refusal :=
  onSpdm s mailbox fun s =>
    if slotHeld s slot && (blockOffered s index || index == 0xFF) then
      let l := if index = 0xFF then (List.range 10).filter (blockOffered s) else [index]
      let body := (l.map fun i => blockOf s i raw).flatten
      (s, 0x60, body ++ signedBy s slot (leBytes nonce.toNat 32 ++ body))
    else (s, spdmFail 0x01)

/-- SET_CERTIFICATE (R438, R441): slot 1, over the Sovel link, in OWNED. -/
def execSetCertificate (slot : Nat) (cert : List Byte) (mailbox : Bool) (s : State) : Host.Outcome State Fault Refusal :=
  onSpdm s mailbox fun s =>
    if mailbox && slot == 1 && s.persist.life == .owned && s.run != .scrapped &&
        decide (cert.length + s.persist.ownerData.length ≤ ownerAreaBytes) then
      ({ s with persist := { s.persist with ownerCert := cert } }, 0x6E, [1])
    else (s, spdmFail 0x07)

end Sys2Proof.Machine
end

