-- ==== Sys2Proof/Machine/Matrix.lean ====
section
/-! DEFINITION. The matrix array (R132 to R171): issue of its instructions with their checks (R141 to R148), the feed
in windows (R151, R152, R165 to R167, R177), the verdict and commit (R157 to R162), and the drain path (R150). -/

namespace Sys2Proof.Machine

/-! ### Accumulator sets -/

def accOf (a : MatArray) (k : Nat) : AccSet :=
  match k with
  | 0 => a.acc0 | 1 => a.acc1 | 2 => a.acc2 | _ => a.acc3

def setAcc (a : MatArray) (k : Nat) (x : AccSet) : MatArray :=
  match k with
  | 0 => { a with acc0 := x } | 1 => { a with acc1 := x } | 2 => { a with acc2 := x } | _ => { a with acc3 := x }

/-- Sets that an accepted instruction names. -/
def setsOf (m : MatInst) : List Nat :=
  match m.kind with
  | .mzero sets => setBits sets.toNat 4
  | _ => [m.set]

def isMma (m : MatInst) : Bool :=
  match m.kind with
  | .mma .. => true
  | _ => false

/-- The kind of set that a load gives (R139). -/
def loadKind (fmt : Nat) (kInt : Bool) : AccKind := if fmt = 8 ∨ (fmt = 15 ∧ kInt) then .int else .float

/-- The kind of a set once an accepted instruction has taken effect (R139). -/
def kindAfter (m : MatInst) (set : Nat) (k : AccKind) : AccKind :=
  if !(setsOf m).contains set then k
  else match m.kind with
    | .mma fa _ z _ _ => if z || k == .empty then mmaKind fa.toNat else k
    | .mdrain _ clr _ _ => if clr then .empty else k
    | .mzero _ => .empty
    | .mload fmt ki _ => if k == .empty then loadKind fmt.toNat ki else k
    | .stG .. => k
    | .ldG _ fmt _ => if k == .empty then (if fmt == 3#2 then .int else .float) else k

/-- The kind that an instruction meets when its turn comes: every accepted one acts before it (R140). -/
def kindAhead (a : MatArray) (set : Nat) : AccKind :=
  a.accepted.foldl (fun k m => kindAfter m set k) (accOf a set).kind

/-! ### Issue (R126, R141 to R148, R168) -/

/-- What the checks of an instruction say, in the order in which they are made. -/
inductive MatChk where
  | ok
  | illegal (reason : Nat)
  | waitToken
  | fault (code : Nat) (operand : DWord) (detail : Nat)
  deriving DecidableEq, Repr

/-- The first check that does not pass. -/
def firstChk (l : List MatChk) : MatChk :=
  match l with
  | [] => .ok
  | .ok :: r => firstChk r
  | c :: _ => c

/-- A check that fails with a reason of R147. -/
def chkIf (bad : Bool) (reason : Nat) : MatChk := if bad then .illegal reason else .ok

/-- A register field that names one register. -/
def regBad (regs : Nat) (r : BitVec 8) : Bool := !(RegUse.ok regs (ru r 1))

/-- An options pair or an offset register carries poison (R170). -/
def poisonChk (bad : Bool) : MatChk := if bad then .fault poisonConsumed 0 0x02 else .ok

/-- An offset is a multiple of 64 (R138). -/
def offChk (v : T32) : MatChk :=
  if v.val.toNat % 64 ≠ 0 then .fault misaligned (BitVec.ofNat 64 v.val.toNat) 0 else .ok

/-- The token of an instruction still names an earlier one (R125). -/
def tokenChk (x : TGroup) (token : Nat) : MatChk := if x.tokens.toNat.testBit token then .waitToken else .ok

/-- Accept an instruction: it joins the array, its token becomes pending, and the issue is counted (R148, R156, R168). -/
def accept (s : State) (e : ThEnv) (x : TGroup) (m : MatInst) (binds : List RegBind) : ThOut :=
  if 16 ≤ (tileOf s e.site).array.accepted.length then .wait none
  else
    let s := updTile s e.site fun t =>
      let y := { x with tokens := x.tokens ||| BitVec.ofNat 8 (2 ^ m.token), matCount := x.matCount + 1,
                        bound := x.bound ++ binds }
      { setGroup t e.g y with array := { t.array with accepted := t.array.accepted ++ [m] } }
    .next (bump (bump s 1 e.site 1 1) 5 e.launch.ctx 1 1)

/-- The outcome of checks, and the acceptance where they pass; MASK is the issuer's bit, or the active mask (R147). -/
def matOut (s : State) (e : ThEnv) (mask : Word) (token : Nat) (c : MatChk) (go : ThOut) : ThOut :=
  match c with
  | .ok => go
  | .illegal r => .faultMask s 3 illegalInstruction (vaOperand e.pc) (BitVec.ofNat 64 r) mask
  | .waitToken => .wait (some (.tokens (2 ^ token)))
  | .fault code o d => .faultMask s 3 code o (BitVec.ofNat 64 d) mask

/-- The issuer: the lowest lane of the active mask (R126). -/
def issuer (e : ThEnv) : Nat := e.lanes.head?.getD 0

/-- An instruction as the array takes it. -/
def newInst (e : ThEnv) (x : TGroup) (kind : MatKind) (set : Nat) (opts : DWord) (token : Nat) (mask : Word) : MatInst :=
  { kind := kind, set := set, opts := opts, token := token, group := e.g, mask := mask, pc := e.pc, count := x.matCount,
    fed := 0, slots := 0, store := [], storePoison := [], replayed := false, doomed := false, row := 0x7F, col := 0x7F, cause := .cell }

/-- The issuer's options pair (R143): zero where SRC3 is 0xFF. -/
def optsOf (x : TGroup) (i : Nat) (r : BitVec 8) : T64 := if r = 0xFF then T64.zero else tpair x i r.toNat

/-- Sectors of the areas that the feeders read at or beyond the allocation (R138). -/
def beyond (l : Launch) (areas : List (Nat × Nat)) : Nat :=
  ((areas.map fun a => ((pieces a.1 a.2).filter fun p => storeBytes l < p.1 + p.2).map (·.1 / 64)).flatten).eraseDups.length

/-- Byte ranges that the feeders read of an instruction whose maps they have read (R176). -/
def readAreas (p : Opnds) (aOff bOff : Nat) : List (Nat × Nat) :=
  if oBma p.o || oBmb p.o then
    let live := liveBlocks p.o p.mapA p.mapB
    let k := denseK p.fa
    blockAreas aOff (k * mWidth p.fa / 8) (oBma p.o) p.mapA live ++ blockAreas bOff (k * mWidth p.fb / 8) (oBmb p.o) p.mapB live ++
      (mmaAreas p.fa p.fb aOff bOff p.o).drop 2
  else mmaAreas p.fa p.fb aOff bOff p.o

/-- The feeders capture an instruction's operands (R162, R169; notes/assumptions/14.md). -/
def capture (s : State) (e : ThEnv) (m : MatInst) (fa fb aOff bOff : Nat) : State × MatInst :=
  let areas := mmaAreas fa fb aOff bOff m.opts
  let s := storeFinding s e.launch.ctx e.site aOff
  let t := tileOf s e.site
  let top := storeBytes e.launch
  let inAreas (a n : Nat) : Bool := decide (a + n ≤ top) && areas.any fun x => decide (x.1 < a + n ∧ a < x.1 + x.2)
  let bytes := match t.storeJunk with
    | none => t.store.filter fun c => inAreas c.1 1
    | some _ => areas.foldl (fun m x => (List.range x.2).foldl (fun m i =>
        if x.1 + i < top then NMap.put 0 m (x.1 + i) (storeByte t (x.1 + i)) else m) m) []
  let m := { m with store := bytes, storePoison := t.storePoison.filter fun k => inAreas (k * 64) 64 }
  let p := layOut m.store m.storePoison fa fb aOff bOff m.opts
  (bump s 1 e.site 10 (beyond e.launch (readAreas p aOff bOff)), { m with slots := mmaSlots m.opts p.mapA p.mapB })

/-- MMA (R141 to R143). Where several faults of R147 apply, the encoding is judged first, reserved fields before the register
range and the formats, then options, set kind and alignment, in the order in which R147 names them; poison of the options
and offsets is consumed before that (DESIGN CHOICE, notes/assumptions/24.md). -/
def mmaOut (set : Nat) (f : TrF) (e : ThEnv) (s : State) (x : TGroup) : ThOut :=
  let i := issuer e
  let regs := e.launch.regs
  let fa := f.fn.toNat / 16
  let fb := f.fn.toNat % 16
  let z := f.mod.toNat % 2 == 1
  let token := f.mod.toNat / 2
  let o := optsOf x i f.src3
  let a := treg x i f.src1.toNat
  let b := treg x i f.src2.toNat
  let k := kindAhead (tileOf s e.site).array set
  let checks := [
    chkIf (f.dst != 0xFF || f.rsv != 0) 6,
    chkIf (regBad regs f.src1 || regBad regs f.src2 || !(RegUse.ok regs (ru f.src3 2))) 5,
    chkIf (!pairOk fa fb) 1, tokenChk x token,
    poisonChk (o.poison || a.poison || b.poison),
    chkIf (mmaOptsBad fa o.val) 2, chkIf (!z && k != .empty && k != mmaKind fa) 3, offChk a, offChk b]
  let mask := BitVec.ofNat 32 (2 ^ i)
  let m := newInst e x (.mma (BitVec.ofNat 4 fa) (BitVec.ofNat 4 fb) z a.val.toNat b.val.toNat) set o.val token mask
  matOut s e mask token (firstChk checks)
    (if 16 ≤ (tileOf s e.site).array.accepted.length then .wait none
     else
       let c := capture s e m fa fb a.val.toNat b.val.toNat
       accept c.1 e x c.2 [])

/-- MDRAIN (R144): a format that R136 lists and no drain has is one that no set's kind allows. The order of the checks is that
of MMA. -/
def mdrainOut (f : TrF) (e : ThEnv) (s : State) (x : TGroup) : ThOut :=
  let i := issuer e
  let regs := e.launch.regs
  let fn := f.fn.toNat
  let set := fn / 16 % 4
  let token := f.mod.toNat / 2
  let o := optsOf x i f.src3
  let a := treg x i f.src1.toNat
  let checks := [
    chkIf (f.dst != 0xFF || f.src2 != 0xFF || f.rsv != 0 || decide (fn ≥ 128)) 6,
    chkIf (regBad regs f.src1 || !(RegUse.ok regs (ru f.src3 2))) 5,
    chkIf (!listedFmt (fn % 16)) 1, tokenChk x token,
    poisonChk (o.poison || a.poison),
    chkIf (drainOptsBad o.val) 2, chkIf (!drainAllowed (kindAhead (tileOf s e.site).array set) (fn % 16)) 4, offChk a]
  let mask := BitVec.ofNat 32 (2 ^ i)
  matOut s e mask token (firstChk checks)
    (accept s e x (newInst e x (.mdrain (BitVec.ofNat 4 (fn % 16)) (fn / 64 % 2 == 1) (f.mod.toNat % 2 == 1) a.val.toNat)
      set o.val token mask) [])

/-- MZERO (R144). -/
def mzeroOut (f : TrF) (e : ThEnv) (s : State) (x : TGroup) : ThOut :=
  let token := f.mod.toNat / 2
  let checks := [
    chkIf (f.dst != 0xFF || f.src1 != 0xFF || f.src2 != 0xFF || f.src3 != 0xFF || f.rsv != 0 ||
      decide (f.fn.toNat ≥ 16) || f.mod.toNat % 2 == 1) 6,
    tokenChk x token]
  let mask := BitVec.ofNat 32 (2 ^ issuer e)
  matOut s e mask token (firstChk checks)
    (accept s e x (newInst e x (.mzero (BitVec.ofNat 4 f.fn.toNat)) 0 0 token mask) [])

/-- MLOAD (R144). -/
def mloadOut (f : TrF) (e : ThEnv) (s : State) (x : TGroup) : ThOut :=
  let i := issuer e
  let fn := f.fn.toNat
  let fmt := fn % 16
  let set := fn / 16 % 4
  let ki := decide (fn ≥ 128)
  let token := f.mod.toNat / 2
  let a := treg x i f.src1.toNat
  let k := kindAhead (tileOf s e.site).array set
  let checks := [
    chkIf (f.dst != 0xFF || f.src2 != 0xFF || f.src3 != 0xFF || f.rsv != 0 || fn / 64 % 2 == 1 || f.mod.toNat % 2 == 1 ||
      (ki && fmt != 15)) 6,
    chkIf (regBad e.launch.regs f.src1) 5,
    chkIf (!listedFmt fmt) 1, tokenChk x token, poisonChk a.poison,
    chkIf (!(fmt == 0 || fmt == 8 || fmt == 15)) 4, chkIf (k != .empty && k != loadKind fmt ki) 3, offChk a]
  let mask := BitVec.ofNat 32 (2 ^ i)
  matOut s e mask token (firstChk checks)
    (accept s e x (newInst e x (.mload (BitVec.ofNat 4 fmt) ki a.val.toNat) set 0 token mask) [])

/-- Registers of a fragment in a register format (R145). -/
def fragRegs (fmt : Nat) : Nat := if fmt = 1 ∨ fmt = 2 then 16 else 32

/-- The register range of a fragment. -/
def fragBad (regs : Nat) (r : BitVec 8) (fmt : Nat) : Bool :=
  r.toNat % 4 ≠ 0 || decide (regs < r.toNat + fragRegs fmt)

/-- The region checks of a group-wide instruction (R127). -/
def regionChk (x : TGroup) (mask : Word) : MatChk :=
  match x.region with
  | none => .fault matrixRegion 0 0
  | some m => if m = mask then .ok else .fault matrixDivergent 0 m.toNat

/-- MACC.ST.G and MACC.LD.G (R145, R168). Where several faults apply, the encoding with its register range is judged before the
region, and the set kind last (DESIGN CHOICE, notes/assumptions/24.md). -/
def maccOut (store : Bool) (f : TrF) (e : ThEnv) (s : State) (x : TGroup) : ThOut :=
  let fn := f.fn.toNat
  let set := fn / 16 % 4
  let frag := fn / 4 % 4
  let fmt := fn % 4
  let token := f.mod.toNat / 2
  let base := if store then f.dst else f.src1
  let k := kindAhead (tileOf s e.site).array set
  let mask := maskOf e.lanes
  let rchk := match regionChk x mask with
    | .fault code _ d => .fault code (vaOperand e.pc) d
    | c => c
  let checks := [
    chkIf ((if store then f.src1 else f.dst) != 0xFF || f.src2 != 0xFF || f.src3 != 0xFF || f.rsv != 0 ||
      decide (fn ≥ 64) || f.mod.toNat % 2 == 1) 6,
    chkIf (fragBad e.launch.regs base fmt) 5, rchk, tokenChk x token,
    if store then chkIf (!(k == .empty || (if fmt = 3 then k == .int else if fmt = 0 then true else k == .float))) 4
    else chkIf (k != .empty && k != (if fmt = 3 then .int else .float)) 3]
  let kind : MatKind := if store then .stG frag (BitVec.ofNat 2 fmt) base.toNat else .ldG frag (BitVec.ofNat 2 fmt) base.toNat
  let b : RegBind := { token := token, dst := store, lo := base.toNat, n := fragRegs fmt, mask := mask }
  matOut s e mask token (firstChk checks) (accept s e x (newInst e x kind set 0 token mask) [b])

/-- MREG.OPEN and MREG.CLOSE (R127, R146). -/
def regionOut (opens : Bool) (f : TrF) (e : ThEnv) (s : State) (x : TGroup) : ThOut :=
  let mask := maskOf e.lanes
  let fields := chkIf (f.dst != 0xFF || f.src1 != 0xFF || f.src2 != 0xFF || f.src3 != 0xFF || f.mod != 0 || f.rsv != 0 ||
    f.fn != (if opens then 0 else 1)) 6
  let c := match x.region with
    | none => if opens then .ok else .fault matrixRegion (vaOperand e.pc) 2
    | some m =>
      if opens then .fault matrixRegion (vaOperand e.pc) 1
      else if m = mask then .ok else .fault matrixDivergent (vaOperand e.pc) m.toNat
  matOut s e mask 0 (firstChk [fields, c])
    (.next (putGroup s e.site e.g { x with region := if opens then some mask else none }))

/-- The registers that an instruction reads or writes, as far as its fields are legal; illegal fields are judged by the
array (R147). -/
def matUses (s : State) (site : Nat) (us : List RegUse) : List RegUse :=
  match runningLaunch s site with
  | some l => us.filter (RegUse.ok l.regs)
  | none => []

/-- Issue a matrix instruction. -/
def matStep (s : State) (site g : Nat) (us : List RegUse) (dst : Option RegUse) (f : ThEnv → State → TGroup → ThOut) :
    State :=
  thStep s site g (fun _ => true) (matUses s site us) [] dst f (unit := 3)

def execMma (site : Site) (g : Nat) (set : BitVec 2) (f : TrF) (s : State) : Host.Outcome State Fault Refusal :=
  whenUp s fun s => matStep s site g [ru f.src1 1, ru f.src2 1, ru f.src3 2] none (mmaOut set.toNat f)

def execMdrain (site : Site) (g : Nat) (f : TrF) (s : State) : Host.Outcome State Fault Refusal :=
  whenUp s fun s => matStep s site g [ru f.src1 1, ru f.src3 2] none (mdrainOut f)

def execMzero (site : Site) (g : Nat) (f : TrF) (s : State) : Host.Outcome State Fault Refusal :=
  whenUp s fun s => matStep s site g [] none (mzeroOut f)

def execMload (site : Site) (g : Nat) (f : TrF) (s : State) : Host.Outcome State Fault Refusal :=
  whenUp s fun s => matStep s site g [ru f.src1 1] none (mloadOut f)

def execMaccStG (site : Site) (g : Nat) (f : TrF) (s : State) : Host.Outcome State Fault Refusal :=
  whenUp s fun s =>
    let u : RegUse := ru f.dst (fragRegs (f.fn.toNat % 4))
    matStep s site g [u] (some u) (maccOut true f)

def execMaccLdG (site : Site) (g : Nat) (f : TrF) (s : State) : Host.Outcome State Fault Refusal :=
  whenUp s fun s => matStep s site g [ru f.src1 (fragRegs (f.fn.toNat % 4))] none (maccOut false f)

def execMregOpen (site : Site) (g : Nat) (f : TrF) (s : State) : Host.Outcome State Fault Refusal :=
  whenUp s fun s => matStep s site g [] none (regionOut true f)

def execMregClose (site : Site) (g : Nat) (f : TrF) (s : State) : Host.Outcome State Fault Refusal :=
  whenUp s fun s => matStep s site g [] none (regionOut false f)

/-! ### The feed (R151, R152, R165 to R167, R177) -/

/-- Formats and offsets of an accepted MMA. -/
def mmaParts (m : MatInst) : Option (Nat × Nat × Bool × Nat × Nat) :=
  match m.kind with
  | .mma fa fb z a b => some (fa.toNat, fb.toNat, z, a, b)
  | _ => none

/-- The laid-out operands of an accepted MMA. -/
def instOpnds (m : MatInst) : Option Opnds :=
  match mmaParts m with
  | some (fa, fb, _, a, b) => some (layOut m.store m.storePoison fa fb a b m.opts)
  | none => none

/-- Valid K-slots of an accepted MMA's span. -/
def validSlots (m : MatInst) : Nat :=
  match instOpnds m with
  | some p => mmaValid m.opts p.mapA p.mapB
  | none => 0

/-- Of a span fed to its n-th slot, where the next slot stands among the 64 K-slots of a dense instruction. -/
def denseSlot (m : MatInst) (n : Nat) : Nat :=
  match instOpnds m with
  | some p =>
    if oBma m.opts || oBmb m.opts then
      (match (liveBlocks m.opts p.mapA p.mapB)[n / 8]? with
      | some kb => 8 * kb + n % 8
      | none => 64)
    else n
  | none => n

/-- Block sums of an MMA that are final once n slots have been fed: the last one with the span, an earlier one with the last
slot of its 32 elements (R149, R152, R174). -/
def finalSums (m : MatInst) (n : Nat) : Nat :=
  match mmaParts m with
  | none => 0
  | some (fa, _) =>
    let k := mmaBlocks fa m.opts
    if n ≥ m.slots then k else if n = 0 then 0 else min (denseSlot m n * k / 64) (k - 1)

/-- What a window has fed so far. stuck says that R152 holds the next slot. -/
structure Feed where
  insts : List MatInst
  valid : Nat
  filler : Nat
  left  : Nat
  ready : Nat
  stuck : Bool

/-- Feed up to n slots of one instruction: its valid slots while operands are ready and the limit holds, then the
bubbles that complete its span (R177). held counts the block sums that stand uncommitted before it; an instruction
that would make a thirteenth final waits for a commit, and no slot is sent, if one can come before its own (DEDUCED,
notes/assumptions/44.md). -/
def feedInst (n : Nat) (v held limit : Nat) (m : MatInst) (w : Feed) : MatInst × Feed :=
  match n with
  | 0 => (m, w)
  | n + 1 =>
    if m.fed ≥ m.slots ∨ w.left = 0 ∨ w.stuck then (m, w)
    else if 0 < held ∧ 12 < held + finalSums m (m.fed + 1) then (m, { w with stuck := true })
    else if m.fed < v then
      if w.ready = 0 ∨ w.valid ≥ limit then (m, { w with left := 0 })
      else feedInst n v held limit { m with fed := m.fed + 1 }
        { w with valid := w.valid + 1, ready := w.ready - 1, left := w.left - 1 }
    else feedInst n v held limit { m with fed := m.fed + 1 } { w with filler := w.filler + 1, left := w.left - 1 }

/-- Feed the accepted instructions in order (R148). -/
def feedAll (limit : Nat) (ms : List MatInst) (held : Nat) (w : Feed) : Feed :=
  match ms with
  | [] => w
  | m :: r =>
    if isMma m then
      let f := feedInst 16 (validSlots m) held limit m w
      let w := { f.2 with insts := f.2.insts ++ [f.1] }
      if f.1.fed < f.1.slots then { w with insts := w.insts ++ r }
      else feedAll limit r (held + finalSums f.1 f.1.fed) w
    else feedAll limit r held { w with insts := w.insts ++ [m] }

/-- The window in which the array stands: from its start, or where R152 has held it. -/
def openWindow (a : MatArray) (ready : Nat) : Feed :=
  let d := a.winDone.getD (0, 0)
  { insts := [], valid := d.1, filler := d.2, left := 16 - d.1 - d.2, ready := min ready 16, stuck := false }

/-- One window of 16 slots (R165): valid slots up to one more than the last window's activity, pacer slots up to one
less (or as many, during the hold of R166), within the governor's ceiling; a window that R152 holds goes on later. The valid
slots, bubbles and pacer slots that it sends, and the bubbles among them that only the ramp makes (R167). -/
def window (t : Tile) (ready ceil : Nat) : Tile × (Nat × Nat × Nat × Nat) :=
  let a := t.array
  let w0 := openWindow a ready
  let w := feedAll (min (min 16 (a.lastAct + 1)) ceil) a.accepted 0 w0
  if w.stuck then
    ({ t with array := { a with accepted := w.insts, winDone := some (w.valid, w.filler) } }, (w.valid - w0.valid, 0, 0, 0))
  else
    let floor := min ceil (if w.valid = 0 ∧ 0 < a.holdLeft then a.lastAct else a.lastAct - 1)
    let act := max w.valid floor
    let ramp := (feedAll (min 16 ceil) a.accepted 0 w0).valid - w.valid
    let a := { a with accepted := w.insts, lastAct := act, winDone := none,
                      holdLeft := if w.valid ≠ 0 then a.holdLeft else a.holdLeft - 1 }
    ({ t with array := a }, (w.valid - w0.valid, 16 - act, act - w.valid, ramp))

/-- ARRAY_WINDOW (R165 to R167, R408 type 0x01): an idle array produces no slots. -/
def execArrayWindow (site : Site) (ready : Nat) (s : State) : Host.Outcome State Fault Refusal :=
  whenUp s fun s =>
    let t := tileOf s site
    if t.array.accepted = [] ∧ t.array.lastAct = 0 then s
    else
      let r := window t ready s.power.ceil.toNat
      let a := { r.1.array with holdLeft := if r.2.1 ≠ 0 then s.power.hold.toNat else r.1.array.holdLeft }
      let s := setTile s site { r.1 with array := a }
      bump (bump (bump (bump s 1 site 2 r.2.1) 1 site 3 r.2.2.1) 1 site 4 r.2.2.2.1) 1 site 5 r.2.2.2.2

/-! ### Verdict and commit (R157 to R162) -/

/-- Complete an instruction: its token, its bound registers, and its place in the array (R168). -/
def completeInst (t : Tile) (m : MatInst) : Tile :=
  let x := groupOf t m.group
  let y := { x with tokens := x.tokens &&& ~~~(BitVec.ofNat 8 (2 ^ m.token)),
                    bound := x.bound.filter fun b => b.token != m.token }
  { setGroup t m.group y with array := { t.array with accepted := t.array.accepted.erase m } }

/-- A class F fault at a matrix instruction (R147). -/
def matFault (s : State) (l : Launch) (site : Nat) (m : MatInst) (detail : DWord) : State :=
  tileFault s l site 3 checksumUnrecovered 0 m.pc detail m.group m.mask

/-- The comparisons of these operand formats are tolerance comparisons (R158). -/
def tolerant (fa : Nat) : Bool := decide (fa ≤ 2)

/-- DETAIL of CHECKSUM_UNRECOVERED from the array (R147, R386). -/
def chkDetail (det row col : Nat) (m : MatInst) : DWord :=
  let f := match mmaParts m with
    | some (fa, fb, _) => (fa <<< 20) + (fb <<< 24) + (b2n (det == 0x0A && tolerant fa) <<< 28)
    | none => 0
  BitVec.ofNat 64 (row + (col <<< 8) + (m.set <<< 16) + f + (det <<< 56))

/-- The first element of a list, or 0x7F (R147). -/
def firstOr7F (l : List Nat) : Nat := l.head?.getD 0x7F

/-- A single finding in the accumulator storage (detector 0x09), at the next commit or read-out by the context. -/
def injectAcc (s : State) (ctx site set : Nat) : State :=
  match fireTile s ctx site 0x09 with
  | none => s
  | some m =>
    if m.kind = 0 then tileCorrected m site
    else
    let f := takeFree (tileUncorrected m site)
    let k := f.1.toNat % 4096
    updTile f.2 site fun t =>
      let a := accOf t.array set
      let c := NMap.getD a.cells k AccCell.zero
      { t with array := setAcc t.array set { a with cells := NMap.insert a.cells k { c with poison := true } } }

/-- A mismatch of the commit duplication (0x0B) or of the drain parity (0x0C) repeats the work once; the flag says that the
repeat fails too (R386, R403). -/
def repeatFails (s : State) (l : Launch) (site det : Nat) : State × Bool :=
  match fireTile s l.ctx site det with
  | none => (s, false)
  | some m => (tileMismatch m site, m.kind == 1)

/-- Commit an MMA (R154). -/
def commitMma (s : State) (l : Launch) (site : Nat) (m : MatInst) : State :=
  match repeatFails s l site 0x0B with
  | (s, true) => matFault s l site m (chkDetail 0x0B 0x7F 0x7F m)
  | (s, false) =>
    let s := injectAcc s l.ctx site m.set
    let t := tileOf s site
    match mmaParts m, instOpnds m with
    | some (fa, _, z, _), some p =>
      let src : SrSrc := { dom := 1, seed := (ctxOf s l.ctx).seed, tile := t.index, group := m.group, count := m.count }
      let a := accOf t.array m.set
      let r := mmaCommit p z src a.cells
      let kind := if z || a.kind == .empty then mmaKind fa else a.kind
      let t := { t with array := setAcc t.array m.set { kind := kind, cells := r.cells } }
      bump (wake (setTile s site (completeInst t m)) site) 1 site 9 (b2n r.overflow)
    | _, _ => s

/-- Feed the instruction and every later uncommitted one again (R162). -/
def replayFrom (t : Tile) (m : MatInst) (row col : Nat) (cause : ReplayCause) (doomed : Bool) : Tile :=
  let before := t.array.accepted.takeWhile (· != m)
  let after := (t.array.accepted.dropWhile (· != m)).drop 1
  { t with array := { t.array with
      accepted := before ++ { m with fed := 0, replayed := true, doomed := doomed, row := row, col := col, cause := cause } ::
        after.map fun x => if isMma x then { x with fed := 0 } else x } }

/-- A replay that passed is recorded as corrected, with what the first verdict located (R162, R408 type 0x01 word 6);
of an injection it raises no trigger (R404) (DEDUCED, notes/assumptions/79.md). -/
def noteReplay (s : State) (site : Nat) (m : MatInst) : State :=
  if m.replayed then
    let s := bump s 1 site 6 1
    if m.cause = .cell then noteCell s site m.row m.col m.set
    else logReplay s site m.row m.col m.set (m.cause == .injected)
  else s

/-- Comparisons that a list of flags per block says are made at all (R159). -/
def madeOnly (l : List Nat) (skips : List (List Bool)) : List Nat :=
  l.filter fun k => !((skips[k]?).getD [true]).all id

/-- The earlier accepted instructions let this one act on its sets (R140). -/
def setsFree (a : MatArray) (m : MatInst) : Bool :=
  (a.accepted.takeWhile (· != m)).all fun x => !(setsOf x).any fun k => (setsOf m).contains k

/-- MATRIX_VERDICT (R161, R162): the verdict of the oldest uncommitted MMA, once it is wholly fed (DESIGN CHOICE,
notes/assumptions/55.md). Every verdict counts the comparisons that are not made (R159). -/
def verdict (s : State) (l : Launch) (site : Nat) (m : MatInst) (chk : Checks) : State :=
  let t := tileOf s site
  match mmaParts m, instOpnds m with
  | some (_, _, z, _), some p =>
    let src : SrSrc := { dom := 1, seed := 0, tile := 0, group := 0, count := 0 }
    let c := mmaCommit p z src (accOf t.array m.set).cells
    let skips := ((c.skipRows ++ c.skipCols).map fun r => (r.filter id).length).sum
    let s := bump s 1 site 8 skips
    let rows := madeOnly chk.rows c.skipRows
    let cols := madeOnly chk.cols c.skipCols
    let row := firstOr7F rows
    let col := firstOr7F cols
    if rows = [] ∧ cols = [] then
      -- no natural finding: an injection of detector 0x0A may fail this verdict (R405), at a cell that is not stated
      match (if m.replayed then none else fireTile s l.ctx site 0x0A) with
      | some f =>
        let k := (takeFree f.s).1.toNat
        updTile (takeFree f.s).2 site fun t => replayFrom t m (k % 64) (k / 64 % 64) .injected (f.kind == 1)
      | none =>
        if m.doomed then matFault s l site m (chkDetail 0x0A m.row m.col m)
        else commitMma (noteReplay s site m) l site m
    else if rows.length + cols.length = 1 then
      let s := noteCheck s site (match rows with
        | r :: _ => r
        | [] => 64 + col)
      commitMma (noteReplay s site m) l site m
    else if m.replayed then matFault s l site m (chkDetail 0x0A row col m)
    else updTile s site fun t => replayFrom t m row col
      (if rows.length = 1 ∧ cols.length = 1 then .cell else .spread) false
  | _, _ => s

/-- MATRIX_VERDICT. -/
def execMatrixVerdict (site : Site) (chk : Checks) (s : State) : Host.Outcome State Fault Refusal :=
  whenUp s fun s =>
    match launchOn s site with
    | none => s
    | some l =>
      let a := (tileOf s site).array
      match a.accepted.find? isMma with
      | none => s
      | some m => if m.fed ≥ m.slots ∧ setsFree a m then verdict s l site m chk else s

/-! ### The drain path (R144, R145, R150) -/

/-- A row of a drain: read-outs of 64 elements as bytes and the poison of each. -/
def drainRow (a : AccSet) (fmt : Nat) (tr : Bool) (o : DWord) (src : SrSrc) (r : Nat) : List (List Byte × Bool) :=
  let b := mWidth fmt / 8
  (List.range 64).map fun c =>
    let pos := if tr then 64 * c + r else 64 * r + c
    let x := NMap.getD a.cells pos AccCell.zero
    let poison := match a.kind with
      | .empty => false
      | _ => x.poison
    (leBytes (readOut a.kind x fmt (optMode o src pos 0) (oSat o)) b, poison)

/-- Write rows of a drain from row r on, sector by sector (R138, R170). -/
def drainRows (s : State) (l : Launch) (site : Nat) (a : AccSet) (fmt : Nat) (tr : Bool) (o : DWord) (src : SrSrc)
    (off : Nat) (n : Nat) : State :=
  (List.range n).foldl (fun s r =>
    let row := drainRow a fmt tr o src r
    let b := mWidth fmt / 8
    let per := 64 / b
    (List.range b).foldl (fun s q =>
      let els := (row.drop (q * per)).take per
      tsWrite s l site (off + r * 64 * b + q * 64) (els.map (·.1)).flatten (els.any (·.2))) s) s

/-- Write the registers of a fragment store (R145). -/
def fragStore (x : TGroup) (a : AccSet) (frag fmt base : Nat) (mask : Word) : TGroup :=
  let rd (lane c : Nat) : Nat × Bool :=
    let cell := NMap.getD a.cells (64 * (16 * frag + lane / 2) + 32 * (lane % 2) + c) AccCell.zero
    (readOut a.kind cell (fragFmt fmt) .rne false, a.kind != .empty && cell.poison)
  (setBits mask.toNat 32).foldl (fun x lane =>
    (List.range (fragRegs fmt)).foldl (fun x r =>
      if fmt = 1 ∨ fmt = 2 then
        let lo := rd lane (2 * r)
        let hi := rd lane (2 * r + 1)
        setTreg x lane (base + r) { val := BitVec.ofNat 32 (lo.1 + (hi.1 <<< 16)), poison := lo.2 || hi.2 }
      else setTreg x lane (base + r) { val := BitVec.ofNat 32 (rd lane r).1, poison := (rd lane r).2 }) x) x

/-- Write the elements of a fragment load (R145): BF16 and FP16 convert exactly. -/
def fragLoad (x : TGroup) (cells : NMap AccCell) (frag fmt base : Nat) (mask : Word) : NMap AccCell :=
  (setBits mask.toNat 32).foldl (fun m lane =>
    (List.range 32).foldl (fun m c =>
      let pos := 64 * (16 * frag + lane / 2) + 32 * (lane % 2) + c
      let v : T32 :=
        if fmt = 1 ∨ fmt = 2 then
          let w := treg x lane (base + c / 2)
          let h := w.val.toNat >>> (16 * (c % 2)) % 65536
          { val := rnd32 .rne (decode (if fmt = 1 then .bf16 else .f16) h), poison := w.poison }
        else treg x lane (base + c)
      NMap.put AccCell.zero m pos { sum := v.val, err := 0, poison := v.poison }) m) cells

/-- Read the elements of an MLOAD from the tile store (R144). -/
def loadCells (s : State) (l : Launch) (site off fmt : Nat) : State × NMap AccCell :=
  let b := if fmt = 15 then 8 else 4
  let per := 64 / b
  (List.range (4096 / per)).foldl (fun (acc : State × NMap AccCell) q =>
    let r := tsRead acc.1 l site (off + q * 64) 64
    (r.1, (List.range per).foldl (fun m k =>
      let w := leNat (sliceList 0 r.2.1 (k * b) b)
      NMap.put AccCell.zero m (q * per + k)
        { sum := BitVec.ofNat 32 w, err := BitVec.ofNat 32 (w >>> 32), poison := r.2.2 }) acc.2)) (s, [])

/-- The effect of a drain-path instruction (R139, R144, R145). -/
def drainEffect (s : State) (l : Launch) (site : Nat) (m : MatInst) : State :=
  let reads := match m.kind with
    | .mdrain .. => true
    | .stG .. => true
    | _ => false
  let s := if reads then injectAcc s l.ctx site m.set else s
  let t := tileOf s site
  let a := accOf t.array m.set
  let putSet (s : State) (x : AccSet) : State := updTile s site fun t => { t with array := setAcc t.array m.set x }
  match m.kind with
  | .mma .. => s
  | .mdrain fmt clr tr off =>
    let src : SrSrc := { dom := 2, seed := (ctxOf s l.ctx).seed, tile := t.index, group := m.group, count := m.count }
    let s := drainRows s l site a fmt.toNat tr m.opts src off 64
    if clr then putSet s AccSet.none else s
  | .mzero sets => updTile s site fun t =>
      { t with array := (setBits sets.toNat 4).foldl (fun a k => setAcc a k AccSet.none) t.array }
  | .mload fmt ki off =>
    let r := loadCells s l site off fmt.toNat
    putSet r.1 { kind := loadKind fmt.toNat ki, cells := r.2 }
  | .stG frag fmt base =>
    updTile s site fun t =>
      let x := groupOf t m.group
      if x.bound.any fun b => b.token == m.token then setGroup t m.group (fragStore x a frag fmt.toNat base m.mask) else t
  | .ldG frag fmt base =>
    let old := match a.kind with
      | .empty => []
      | _ => a.cells
    let kind : AccKind := match a.kind with
      | .empty => if fmt == 3#2 then .int else .float
      | k => k
    putSet s { kind := kind, cells := fragLoad (groupOf t m.group) old frag fmt.toNat base m.mask }

/-- DRAIN_PATH_COMPLETE (R140, R150, R168): the oldest drain-path instruction that may start moves its rows and
completes its token. -/
def execDrainPathComplete (site : Site) (s : State) : Host.Outcome State Fault Refusal :=
  whenUp s fun s =>
    match launchOn s site with
    | none => s
    | some l =>
      let a := (tileOf s site).array
      match a.accepted.find? fun m => !isMma m with
      | none => s
      | some m =>
        if !setsFree a m then s
        else
          let drains := match m.kind with
            | .mdrain .. => true
            | .stG .. => true
            | _ => false
          match (if drains then repeatFails s l site 0x0C else (s, false)) with
          | (s, true) => matFault s l site m (chkDetail 0x0C 0x7F 0x7F m)
          | (s, false) => wake (updTile (drainEffect s l site m) site fun t => completeInst t m) site

end Sys2Proof.Machine
end

