-- ==== Sys2Proof/Machine/Power.lean ====
section
/-! DEFINITION. Power-off (R446, R451, R455, R458), the envelope governor (R448, R452 to R454), and the Sovel link going
down, retraining and losing lanes (R461 to R463). -/

namespace Sys2Proof.Machine

/-! ### Power-off (R451) -/

/-- The module is off: nothing survives but the fuses and the flash. PWR_GOOD falls, and CXL_PERST_N is asserted. -/
def powerDown (s : State) (p : Power) : State :=
  cleared s .off
    { Power.reset with
      pwrEn := p.pwrEn, mateShort := p.mateShort, coolId := p.coolId, mgmtMode := p.mgmtMode, mgmtAddr := p.mgmtAddr
      pwrGood := false, alert := false, latch := p.latch, overVolt := p.overVolt, thermTrip := p.thermTrip }

/-- Power off where the module is on. -/
def offIf (s : State) (cond : Bool) (p : Power) : Host.Outcome State Fault Refusal :=
  if cond && s.run != .off then .next (powerDown s p) else .next s

/-- POWER_OFF: PWR_EN goes low and stays low for the given time; 100 ms end what a trip has latched. -/
def execPowerOff (lowMs : Nat) (s : State) : Host.Outcome State Fault Refusal :=
  let p := { s.power with pwrEn := false }
  let p := if 100 ≤ lowMs then { p with latch := false, thermTrip := false } else p
  if s.run = .off then .next { s with power := p } else .next (powerDown s p)

/-- UNDERVOLTAGE_TURN_OFF (R446): below 33.0 V for more than 1 ms. -/
def execUndervoltageTurnOff (vin10mV micros : Nat) (s : State) : Host.Outcome State Fault Refusal :=
  offIf s (decide (vin10mV < 3300 ∧ 1000 < micros)) s.power

/-- OVERVOLTAGE_TURN_OFF (R446): above 63.0 V for more than 1 ms. -/
def execOvervoltageTurnOff (vin10mV micros : Nat) (s : State) : Host.Outcome State Fault Refusal :=
  offIf s (decide (6300 < vin10mV ∧ 1000 < micros)) { s.power with overVolt := true }

/-- THERMAL_TRIP (R455): a junction at 115 °C. -/
def execThermalTrip (island : Nat) (tj : Int) (s : State) : Host.Outcome State Fault Refusal :=
  offIf s (decide (island < 412 ∧ 115 ≤ tj)) { s.power with latch := true, thermTrip := true }

/-- BREAKER_TRIP (R451): 90 A for 1 ms. -/
def execBreakerTrip (iin10mA micros : Nat) (s : State) : Host.Outcome State Fault Refusal :=
  offIf s (decide (9000 ≤ iin10mA ∧ 1000 ≤ micros)) { s.power with latch := true }

/-- MATE_SHORT_BREAK (R458): the short contact breaks first on extraction. -/
def execMateShortBreak (s : State) : Host.Outcome State Fault Refusal :=
  if s.run = .off then .next { s with power := { s.power with mateShort := false } }
  else .next (powerDown s { s.power with mateShort := false })

/-! ### The governor (R448, R452 to R454) -/

/-- ENVREQ as it acts (R467): none, or a value clamped to 1,100 to 2,600. -/
def envReq (p : Power) : Option Nat :=
  if p.envreq = 0 then none else some (max 1100 (min 2600 p.envreq.toNat))

/-- The effective envelope EFF in W (R453), at an input voltage in units of 10 mV. -/
def effective (p : Power) (vin : Nat) : Nat :=
  let e := min p.envcap.toNat (74 * vin / 100)
  let e := match envReq p with
    | some r => min e r
    | none => e
  if p.coolId = 1 then min e 1100 else e

/-- VREQ in mV: the core voltage of the requested operating point (R2, R467). -/
def vReq (p : Power) : Nat :=
  if p.opreq = 0 then 620 else if p.opreq = 2 then 820 else 750

/-- The hold count H (R454). -/
def holdCount (hmax eff pW : Nat) : Nat :=
  if pW + 400 ≤ eff then min 15 hmax
  else if eff ≤ pW + 100 then 0
  else min hmax ((eff - 100 - pW) / 20)

/-- The action of a period on the setpoint in mV and the activity ceiling (R452) (DESIGN CHOICE,
notes/assumptions/61.md). -/
def govern (v c vreq eff pW iin10mA : Nat) (tj : Int) : Nat × Nat :=
  let room := decide (pW + 50 < eff) && decide (tj < 98)
  if eff < pW ∨ 7400 < iin10mA ∨ 100 < tj then
    if 550 < v then (max 550 (v - 10), c) else (v, max 1 (c - 1))
  else if c < 16 ∧ room then (v, c + 1)
  else if v < vreq ∧ room then (v + 5, c)
  else if vreq < v then (v - 10, c)
  else (v, c)

/-- GOVERNOR_PERIOD: mean input power in W, mean current in 10 mA, voltage in 10 mV, hottest junction and inlet in °C. -/
def governorPeriod (s : State) (pW iin10mA vin10mV : Nat) (tj tinlet : Int) : State :=
  let p := s.power
  let eff := effective p vin10mV
  let g := govern p.vcore.toNat p.ceil.toNat (vReq p) eff pW iin10mA tj
  let env := decide (eff < pW)
  let cur := decide (7400 < iin10mA)
  let hot := decide (100 < tj)
  let limit := b2n env + (b2n cur <<< 1) + (b2n hot <<< 2) + (b2n (decide (g.2 < 16)) <<< 3)
  let acted := (cur && !p.limit.toNat.testBit 1) || (hot && !p.limit.toNat.testBit 2)
  let s := { s with power := { p with
    vcore := BitVec.ofNat 16 g.1, ceil := BitVec.ofNat 5 g.2, eff := BitVec.ofNat 12 eff
    hold := BitVec.ofNat 4 (holdCount p.hmax.toNat eff pW)
    pin := BitVec.ofNat 16 pW, iin := BitVec.ofNat 16 iin10mA, vin := BitVec.ofNat 16 vin10mV
    tjmax := BitVec.ofNat 8 (ofSigned 8 tj), tinlet := BitVec.ofNat 8 (ofSigned 8 tinlet), limit := BitVec.ofNat 4 limit } }
  if acted then raiseEvent s 3 else s

def execGovernorPeriod (pW iin10mA vin10mV : Nat) (tj tinlet : Int) (s : State) : Host.Outcome State Fault Refusal :=
  whenUp s fun s => governorPeriod s pW iin10mA vin10mV tj tinlet

/-- CURRENT_EMERGENCY (R452): above 78 A the activity ceiling is 8 on every tile. -/
def execCurrentEmergency (iin10mA : Nat) (s : State) : Host.Outcome State Fault Refusal :=
  whenUp s fun s => if 7800 < iin10mA then { s with power := { s.power with ceil := 8 } } else s

/-! ### The Sovel link (R461 to R463) -/

/-- Set LSTATE; a change is a management event (R469). -/
def setLink (s : State) (st : BitVec 4) : State :=
  if s.sovel.lstate = st then s else raiseEvent { s with sovel := { s.sovel with lstate := st } } 4

/-- The lanes on which the link can run, of the healthy ones: eight, four, or none, with its LSTATE. -/
def sovelLanes (healthy : Nat) : Option (BitVec 9 × BitVec 4) :=
  (lanesFor healthy).map fun l => (l, if 8 ≤ popCount l.toNat 9 then 2 else 3)

/-- SOVEL_LINK_DOWN (R463): what has not been delivered waits. -/
def execSovelLinkDown (s : State) : Host.Outcome State Fault Refusal :=
  whenUp s fun s => setLink s 0

/-- SOVEL_LINK_RETRAIN (R462, R463): lanes have trained and the hellos are exchanged; a hello that differs from boot's
keeps the link down until the next module reset. -/
def sovelRetrain (s : State) (lo hi : BitVec 8) (wbase : DWord) (lanes : BitVec 9) : State :=
  if linkUp s ∨ s.sovel.dead then s
  else if !(helloOk lo hi wbase && wbase == s.sovel.wbase) then { s with sovel := { s.sovel with dead := true } }
  else
    match sovelLanes lanes.toNat with
    | some (use, st) =>
      setLink (deliverHeld { s with sovel := { s.sovel with lanes := use, failed := ~~~lanes } }) st
    | none => s

def execSovelLinkRetrain (lo hi : BitVec 8) (wbase : DWord) (lanes : BitVec 9) (s : State) :
    Host.Outcome State Fault Refusal :=
  whenUp s fun s => sovelRetrain s lo hi wbase lanes

/-- SOVEL_LANE_FAILURE (R461): the spare takes over, the link narrows to four lanes, or it goes down. -/
def sovelLaneFails (s : State) (lane : Nat) : State :=
  if 9 ≤ lane ∨ !linkUp s ∨ s.sovel.failed.toNat.testBit lane then s
  else
    let failed := s.sovel.failed ||| BitVec.ofNat 9 (2 ^ lane)
    let s := { s with sovel := { s.sovel with failed := failed } }
    if !s.sovel.lanes.toNat.testBit lane then s
    else match sovelLanes (~~~failed).toNat with
      | some (use, st) => setLink { s with sovel := { s.sovel with lanes := use } } st
      | none => setLink s 0

def execSovelLaneFailure (lane : Nat) (s : State) : Host.Outcome State Fault Refusal :=
  whenUp s fun s => sovelLaneFails s lane

end Sys2Proof.Machine
end

