-- ==== Sys2Proof/Machine/Window.lean ====
section
/-! DEFINITION. The device memory window (R464, R465): the module-reserved region, the driver pool, and the module register
range with the bootstrap block, the recovery block, the doorbell array and the partition control block (R67, R293, R429,
R467). -/

namespace Sys2Proof.Machine

/-! ### Reading the register range -/

/-- Words 0 to 3 of the recovery block (R429). -/
def recoveryWord (m : Mgmt) (w : Nat) : Nat :=
  match w with
  | 0 => (m.rstate.toNat <<< 56) + (m.rreason.toNat <<< 48)
  | 1 => fld m.imgaddr 47 12 <<< 12
  | 2 => m.imglen.toNat
  | _ => 0

/-- The words of the bootstrap block (R67, R467). -/
def bootWord (s : State) (w : Nat) : Nat :=
  let b := s.boot
  match w with
  | 0 => (b.rsize.toNat <<< 56) + (b.rbase.toNat <<< 12)
  | 1 => (b.csize.toNat <<< 56) + (b.cbase.toNat <<< 6)
  | 2 => (b.nsize.toNat <<< 56) + (b.nbase.toNat <<< 4)
  | 3 => (b.nprod.toNat <<< 32) + b.ncons.toNat
  | 4 => 0x7F0000080000
  | 5 => b.nlost.toNat
  | 8 => (s.sovel.sver.toNat <<< 56) + (s.sovel.lanes.toNat <<< 47) + s.sovel.lstate.toNat
  | 9 => fld s.sovel.wbase 46 35 <<< 35
  | 10 => b.intaddr.toNat <<< 2
  | 11 => ((if b.inten then 1 else 0) <<< 63) + b.intdata.toNat
  | 12 => powerWord s.power 12
  | 13 => powerWord s.power 13
  | 14 => powerWord s.power 14
  | 16 => b.reqlen.toNat
  | 18 => (b.mbstate.toNat <<< 62) + b.rsplen.toNat
  | _ => 0

/-- Entry 63 of the partition control block (R293). -/
def lastEntry : PartEntry := { PartEntry.reset with w0 := 0x081E000000000000 }

/-- A word of a partition entry. -/
def entryWord (e : PartEntry) (w : Nat) : DWord :=
  match w with
  | 0 => e.w0 | 1 => e.w1 | 2 => e.w2 | _ => e.w3

/-- The words of the partition control block (R293) with the RSV bits of staged entries as they were written, which a commit
judges. -/
def pcbRaw (s : State) (off : Nat) : Nat :=
  if off < 0x800 then
    (entryWord (if off / 32 = 63 then lastEntry else stagedOf s (off / 32)) (off % 32 / 8)).toNat
  else if off = 0x808 then
    ((if s.pcbNext.isSome then 1 else 0) <<< 63) + (s.pcbLast.toNat <<< 8) + s.pcbResult.toNat
  else 0

/-- RSV bits at the bottom of a word of a partition entry (R293). -/
def entryRsv (w : Nat) : Nat :=
  match w with
  | 0 => 49 | 1 => 14 | 2 => 14 | _ => 5

/-- The words of the partition control block as a read sees them: RSV bits read zero (R9). -/
def pcbWord (s : State) (off : Nat) : Nat :=
  if off < 0x800 then pcbRaw s off >>> entryRsv (off % 32 / 8) <<< entryRsv (off % 32 / 8) else pcbRaw s off

/-- The byte of the request or response buffer at a block offset. -/
def bufferByte (s : State) (off : Nat) : Nat :=
  if 0x1000 ≤ off ∧ off < 0x8000 then (NMap.getD s.boot.reqBuf (off - 0x1000) 0).toNat
  else if 0x8000 ≤ off ∧ off < 0xF000 then (NMap.getD s.boot.rspBuf (off - 0x8000) 0).toNat
  else 0

/-- The aligned 64-bit word of the register range at an offset; holes and write-only words read zero. -/
def regWord (s : State) (off : Nat) : Nat :=
  let off := off / 8 * 8
  if off < 0x1000 then (if s.run = .recovery ∧ off < 32 then recoveryWord s.mgmt (off / 8) else bootWord s (off / 8))
  else if off < 0x10000 then leNat ((List.range 8).map fun i => BitVec.ofNat 8 (bufferByte s (off + i)))
  else if off < 0x80000 then pcbWord s (off - 0x10000)
  else 0

/-! ### Writing the register range -/

/-- A write of NCONS (R466): a message is sent when it leaves NPROD ≠ NCONS. -/
def setNcons (s : State) (v : Word) : State :=
  let ne := s.boot.nprod != v
  let s := { s with boot := { s.boot with ncons := v, intPrev := ne } }
  if ne then sendInterrupt s else s

/-- Words 0 to 2 are RW until the first accepted doorbell of context 0, queue 0 (R67). -/
def setRings (s : State) (b : Boot) : State := if s.boot.locked then s else { s with boot := b }

/-- Write a word of the bootstrap block, v being the word as it stands with the written bytes in place; lo says that
the write covers bits 31 to 0. -/
def setBootWord (s : State) (w : Nat) (v : DWord) (lo : Bool) : State :=
  let b := s.boot
  match w with
  | 0 => setRings s { b with rsize := BitVec.ofNat 4 (fld v 59 56), rbase := BitVec.ofNat 36 (fld v 47 12) }
  | 1 => setRings s { b with csize := BitVec.ofNat 4 (fld v 59 56), cbase := BitVec.ofNat 42 (fld v 47 6) }
  | 2 => setRings s { b with nsize := BitVec.ofNat 4 (fld v 59 56), nbase := BitVec.ofNat 44 (fld v 47 4) }
  | 3 => if lo then setNcons s (BitVec.ofNat 32 v.toNat) else s
  | 10 => { s with boot := { b with intaddr := BitVec.ofNat 46 (fld v 47 2) } }
  | 11 => { s with boot := { b with inten := bit v 63, intdata := BitVec.ofNat 32 v.toNat } }
  | 12 => { s with power := { s.power with
      envreq := BitVec.ofNat 12 (fld v 51 40), opreq := BitVec.ofNat 2 (fld v 39 38), hmax := BitVec.ofNat 4 (fld v 35 32) } }
  | 16 => { s with boot := { b with reqlen := BitVec.ofNat 16 v.toNat } }
  | 17 => if lo ∧ bit v 0 then submitMailbox s else s
  | _ => s

/-- Write a word of the recovery block (R429). -/
def setRecoveryWord (s : State) (w : Nat) (v : DWord) (lo : Bool) : State :=
  match w with
  | 1 => { s with mgmt := { s.mgmt with imgaddr := v &&& 0x0000FFFFFFFFF000 } }
  | 2 => { s with mgmt := { s.mgmt with imglen := BitVec.ofNat 32 v.toNat } }
  | 3 => if lo then fetchGo s (bit v 0) else s
  | _ => s

/-- Write a word of a staged partition entry, or COMMIT (R293, R294). -/
def setPcbWord (s : State) (off : Nat) (v : DWord) (lo : Bool) : State :=
  if off < 0x800 then
    let p := off / 32
    if p = 63 then s
    else
      let e := stagedOf s p
      let e := match off % 32 / 8 with
        | 0 => { e with w0 := v }
        | 1 => { e with w1 := v }
        | 2 => { e with w2 := v }
        | _ => { e with w3 := v }
      { s with staged := NMap.insert s.staged p e }
  else if off = 0x800 ∧ lo then commitPart s (fld v 5 0)
  else s

/-- The word w with n bytes at byte position k replaced by those of x. -/
def mergeBytes (w k n x : Nat) : Nat :=
  leNat ((List.range 8).map fun i => byteOf (if k ≤ i ∧ i < k + n then x <<< (8 * k) else w) i)

/-- A write of n bytes (4 or 8, aligned) at an offset of the register range, under each field map. -/
def regWrite (s : State) (off n : Nat) (x : Nat) : State :=
  let at_ := off / 8 * 8
  let lo := decide (off % 8 = 0)
  let old := if 0x10000 ≤ off ∧ off < 0x80000 then pcbRaw s (at_ - 0x10000) else regWord s off
  let v : DWord := BitVec.ofNat 64 (mergeBytes old (off % 8) n x)
  if off < 0x1000 then
    if s.run = .recovery ∧ off < 32 then setRecoveryWord s (off / 8) v lo else setBootWord s (off / 8) v lo
  else if off < 0x8000 then
    { s with boot := { s.boot with reqBuf := memPut s.boot.reqBuf (off - 0x1000) (leBytes x n) } }
  else if off < 0x10000 then s
  else if s.run ≠ .up then s
  else if off < 0x80000 then setPcbWord s (at_ - 0x10000) v lo
  else if off < 0x100000 then
    if lo then doorbell s ((off - 0x80000) / 128) ((off - 0x80000) % 128 / 8) v else s
  else s

/-! ### Window accesses (R464) -/

/-- An access of 1 to 64 bytes within one aligned 64. -/
def windowOk (off n : Nat) : Bool := decide (1 ≤ n ∧ n ≤ 64 ∧ off % 64 + n ≤ 64)

/-- A register access of an aligned 4 or 8 bytes. -/
def regOk (off n : Nat) : Bool := decide ((n = 4 ∨ n = 8) ∧ off % n = 0)

/-- The window's parts. -/
inductive WinArea where
  | reserved | registers | empty
  deriving DecidableEq, Repr

def winArea (off : Nat) : WinArea :=
  if off < 0x400000000 then .reserved else if off < 0x500000000 then .registers else .empty

/-- A byte of the module-reserved region as the kernel driver reads it: firmware reads zero. -/
def driverByte (s : State) (pa : Nat) : Byte :=
  match resArea s pa with
  | .firmware => 0
  | _ => resByte s pa

/-- The context number that stands for none: an access of the kernel driver through the window meets the faults of the
hardware, and no injection (R404). -/
def noCtx : Nat := 4096

/-- A read of the module-reserved region. In recovery and in SCRAPPED no memory is ready, and what is read is free. -/
def readReserved (s : State) (pa n : Nat) : State × Reply :=
  if s.run ≠ .up then
    let f := freeBytes s n
    (f.2, .data f.1 false)
  else if inDriverPool pa then
    let s := readHome s noCtx pa n 1 63
    (s, .data (cohBytes s pa n) (cohPoison s pa))
  else ((takeFree s).2, .data ((List.range n).map fun i => driverByte s (pa + i)) false)

/-- The answer to a window read. -/
def windowRead (s : State) (off n : Nat) : State × Reply :=
  let ones : Reply := .data ((List.range n).map fun _ => 0xFF) false
  if !windowOk off n then (s, ones)
  else match winArea off with
    | .reserved => readReserved s (0xBC00000000 + off) n
    | .registers =>
      if regOk off n then
        (s, .data (leBytes (regWord s (off - 0x400000000) >>> (8 * (off % 8))) n) false)
      else (s, ones)
    | .empty => (s, .data ((List.range n).map fun _ => 0) false)

/-- A counter with byte k replaced. -/
def withByte (v : Word) (k : Nat) (b : Byte) : Word := BitVec.ofNat 32 (mergeBytes v.toNat k 1 b.toNat)

/-- A byte written to a table of die 0: only FRCONS (R24) and CCONS (R64) take it. -/
def driverTableByte (s : State) (off : Nat) (b : Byte) : State :=
  if off < 0x80000 then
    let k := off % 128
    if 0x28 ≤ k ∧ k < 0x2C then updCtx s (off / 128) fun d => { d with frcons := withByte d.frcons (k - 0x28) b } else s
  else if off < 0x480000 then
    let q := (off - 0x80000) / 64
    let k := off % 64
    if 16 ≤ k ∧ k < 20 then updQueue s (q / 16) (q % 16) fun d => { d with ccons := withByte d.ccons (k - 16) b } else s
  else s

/-- Bytes written to the tables from an offset on. -/
def driverTable (s : State) (off : Nat) (bs : List Byte) : State :=
  match bs with
  | [] => s
  | b :: r => driverTable (driverTableByte s off b) (off + 1) r

/-- A write of the module-reserved region; a stream that holds the sector frozen keeps it as it is (R268). -/
def writeReserved (s : State) (off : Nat) (bs : List Byte) : State :=
  let pa := 0xBC00000000 + off
  if s.run ≠ .up then s
  else if inDriverPool pa then
    if frozenSector s (pa / 64) then s else cohWrite (writeHome s noCtx pa bs.length false 63) pa bs false false 63
  else driverTable s off bs

/-- The effect of a window write. -/
def windowWrite (s : State) (off : Nat) (bs : List Byte) : State :=
  if !windowOk off bs.length then s
  else match winArea off with
    | .reserved => writeReserved s off bs
    | .registers => if regOk off bs.length then regWrite s (off - 0x400000000) bs.length (leNat bs) else s
    | .empty => s

/-- An 8-byte compare-and-swap on the driver pool (R35, R465): the old value is the answer (DESIGN CHOICE,
notes/assumptions/63.md). -/
def windowCas (s : State) (off : Nat) (expect new : DWord) : State :=
  let pa := 0xBC00000000 + off
  if s.run = .up ∧ off < 0x400000000 ∧ off % 8 = 0 ∧ inDriverPool pa then
    let s := readHome s noCtx pa 8 1 63
    let old := physWord s pa
    let s := { s with reply := .data (leBytes old.toNat 8) (cohPoison s pa) }
    if old = expect ∧ !frozenSector s (pa / 64) then cohWrite s pa (leBytes new.toNat 8) false false 63 else s
  else { s with reply := .data (leBytes (2 ^ 64 - 1) 8) false }

/-- An access through the window where the companion processor reaches it. -/
def whenWindow (s : State) (f : State → State) : Host.Outcome State Fault Refusal :=
  if windowUp s then .next (f s) else .next s

/-- WINDOW_READ (R464). -/
def execWindowRead (offset : Nat) (bytes : Nat) (s : State) : Host.Outcome State Fault Refusal :=
  whenWindow s fun s =>
    let r := windowRead s offset bytes
    { r.1 with reply := r.2 }

/-- WINDOW_WRITE (R464, R465). -/
def execWindowWrite (offset : Nat) (data : List Byte) (stores : List (Nat × Byte)) (s : State) :
    Host.Outcome State Fault Refusal :=
  whenWindow s fun s => windowWrite (companionStores s stores) offset data

/-- WINDOW_COMPARE_AND_SWAP (R35, R465). -/
def execWindowCompareAndSwap (offset : Nat) (expect new : DWord) (stores : List (Nat × Byte)) (s : State) :
    Host.Outcome State Fault Refusal :=
  whenWindow s fun s => windowCas (companionStores s stores) offset expect new

/-- NCONS_WRITE (R466): bits 31 to 0 of word 3, which the recovery block holds as GO (R429). -/
def execNconsWrite (value : Word) (stores : List (Nat × Byte)) (s : State) : Host.Outcome State Fault Refusal :=
  whenWindow s fun s =>
    let s := companionStores s stores
    if s.run = .recovery then fetchGo s (value.toNat.testBit 0) else setNcons s value

/-- REGISTER_WRITE (R9): a register access by offset in the register range. -/
def execRegisterWrite (offset : Nat) (data : DWord) (bytes : Nat) (stores : List (Nat × Byte)) (s : State) :
    Host.Outcome State Fault Refusal :=
  whenWindow s fun s =>
    let s := companionStores s stores
    if regOk offset bytes then regWrite s offset bytes (data.toNat % 2 ^ (8 * bytes)) else s

end Sys2Proof.Machine
end

