-- ==== Sys2Proof/Machine/Dispatch.lean ====
section
/-! DEFINITION. The meaning of every command: one arm per constructor of Instr. -/

namespace Sys2Proof.Machine

def exec (i : Instr) (s : State) : Host.Outcome State Fault Refusal :=
  match i with
  | .nop c => Sys2Proof.Machine.execNop c s
  | .timeMark c => Sys2Proof.Machine.execTimeMark c s
  | .callList c => Sys2Proof.Machine.execCallList c s
  | .objFree c => Sys2Proof.Machine.execObjFree c s
  | .ctxCreate c => Sys2Proof.Machine.execCtxCreate c s
  | .ctxConfig c => Sys2Proof.Machine.execCtxConfig c s
  | .ctxSuspend c => Sys2Proof.Machine.execCtxSuspend c s
  | .ctxResume c => Sys2Proof.Machine.execCtxResume c s
  | .contextKill c => Sys2Proof.Machine.execContextKill c s
  | .faultResume c => Sys2Proof.Machine.execFaultResume c s
  | .queueConfig c => Sys2Proof.Machine.execQueueConfig c s
  | .xlatInval c => Sys2Proof.Machine.execXlatInval c s
  | .objCreate c => Sys2Proof.Machine.execObjCreate c s
  | .objImport c => Sys2Proof.Machine.execObjImport c s
  | .heapBind c => Sys2Proof.Machine.execHeapBind c s
  | .cmdAbort c => Sys2Proof.Machine.execCmdAbort c s
  | .klaunch c => Sys2Proof.Machine.execKlaunch c s
  | .copy c => Sys2Proof.Machine.execCopy c s
  | .fill c => Sys2Proof.Machine.execFill c s
  | .recSnapshot c => Sys2Proof.Machine.execRecSnapshot c s
  | .recClear c => Sys2Proof.Machine.execRecClear c s
  | .errInjectArm c => Sys2Proof.Machine.execErrInjectArm c s
  | .errInjectDisarm c => Sys2Proof.Machine.execErrInjectDisarm c s
  | .errInjectSetFraction c => Sys2Proof.Machine.execErrInjectSetFraction c s
  | .dispatchRoute c => Sys2Proof.Machine.execDispatchRoute c s
  | .dispatchCombine c => Sys2Proof.Machine.execDispatchCombine c s
  | .dispatchConfirm c => Sys2Proof.Machine.execDispatchConfirm c s
  | .dispatchDiscard c => Sys2Proof.Machine.execDispatchDiscard c s
  | .routeLoad c => Sys2Proof.Machine.execRouteLoad c s
  | .collReduceScatter c => Sys2Proof.Machine.execCollReduceScatter c s
  | .collAllReduce c => Sys2Proof.Machine.execCollAllReduce c s
  | .collAgree c => Sys2Proof.Machine.execCollAgree c s
  | .digestCheck c => Sys2Proof.Machine.execDigestCheck c s
  | .rxtWrite c => Sys2Proof.Machine.execRxtWrite c s
  | .rxtReadOut c => Sys2Proof.Machine.execRxtReadOut c s
  | .jobEpoch c => Sys2Proof.Machine.execJobEpoch c s
  | .jobEpochDrop c => Sys2Proof.Machine.execJobEpochDrop c s
  | .updateRun c => Sys2Proof.Machine.execUpdateRun c s
  | .groupWrite c => Sys2Proof.Machine.execGroupWrite c s
  | .groupReadOut c => Sys2Proof.Machine.execGroupReadOut c s
  | .groupAssign c => Sys2Proof.Machine.execGroupAssign c s
  | .groupRelease c => Sys2Proof.Machine.execGroupRelease c s
  | .stateMoveOut c => Sys2Proof.Machine.execStateMoveOut c s
  | .stateMoveIn c => Sys2Proof.Machine.execStateMoveIn c s
  | .doorbellWrite ctx queue data stores => Sys2Proof.Machine.execDoorbellWrite ctx queue data stores s
  | .queueBindFromWait => Sys2Proof.Machine.execQueueBindFromWait s
  | .packetParse ctx queue => Sys2Proof.Machine.execPacketParse ctx queue s
  | .commandStart w => Sys2Proof.Machine.execCommandStart w s
  | .arbitrationStarvationGuard cls => Sys2Proof.Machine.execArbitrationStarvationGuard cls s
  | .commandCompletion c => Sys2Proof.Machine.execCommandCompletion c s
  | .contextFault ctx f => Sys2Proof.Machine.execContextFault ctx f s
  | .objectRelease index => Sys2Proof.Machine.execObjectRelease index s
  | .objectScrubComplete index => Sys2Proof.Machine.execObjectScrubComplete index s
  | .contextEnterScrubbing ctx => Sys2Proof.Machine.execContextEnterScrubbing ctx s
  | .contextReachFree ctx => Sys2Proof.Machine.execContextReachFree ctx s
  | .halloc site ins => Sys2Proof.Machine.execHalloc site ins s
  | .hallocZ site ins => Sys2Proof.Machine.execHallocZ site ins s
  | .hfree site ins => Sys2Proof.Machine.execHfree site ins s
  | .ccAlu site f => Sys2Proof.Machine.execCcAlu site f s
  | .addi site f => Sys2Proof.Machine.execAddi site f s
  | .andi site f => Sys2Proof.Machine.execAndi site f s
  | .ori site f => Sys2Proof.Machine.execOri site f s
  | .xori site f => Sys2Proof.Machine.execXori site f s
  | .slti site f => Sys2Proof.Machine.execSlti site f s
  | .sltiu site f => Sys2Proof.Machine.execSltiu site f s
  | .shli site f => Sys2Proof.Machine.execShli site f s
  | .shri site f => Sys2Proof.Machine.execShri site f s
  | .srai site f => Sys2Proof.Machine.execSrai site f s
  | .lim site f => Sys2Proof.Machine.execLim site f s
  | .ldD site f => Sys2Proof.Machine.execLdD site f s
  | .ldW site f => Sys2Proof.Machine.execLdW site f s
  | .stD site f => Sys2Proof.Machine.execStD site f s
  | .stW site f => Sys2Proof.Machine.execStW site f s
  | .beq site f pred => Sys2Proof.Machine.execBeq site f pred s
  | .bne site f pred => Sys2Proof.Machine.execBne site f pred s
  | .blt site f pred => Sys2Proof.Machine.execBlt site f pred s
  | .bge site f pred => Sys2Proof.Machine.execBge site f pred s
  | .bltu site f pred => Sys2Proof.Machine.execBltu site f pred s
  | .bgeu site f pred => Sys2Proof.Machine.execBgeu site f pred s
  | .jal site f => Sys2Proof.Machine.execJal site f s
  | .jalr site f pred => Sys2Proof.Machine.execJalr site f pred s
  | .gStart site f => Sys2Proof.Machine.execGStart site f s
  | .gWait site f => Sys2Proof.Machine.execGWait site f s
  | .gStat site f => Sys2Proof.Machine.execGStat site f s
  | .tcfg site f => Sys2Proof.Machine.execTcfg site f s
  | .sysNop site f => Sys2Proof.Machine.execSysNop site f s
  | .endTile site f => Sys2Proof.Machine.execEndTile site f s
  | .mfenceT site ins => Sys2Proof.Machine.execMfenceT site ins s
  | .mfenceM site ins => Sys2Proof.Machine.execMfenceM site ins s
  | .mfenceF site ins => Sys2Proof.Machine.execMfenceF site ins s
  | .ccBranchResolve site => Sys2Proof.Machine.execCcBranchResolve site s
  | .integerAlu site g f => Sys2Proof.Machine.execIntegerAlu site g f s
  | .integerAluImmediate site g f => Sys2Proof.Machine.execIntegerAluImmediate site g f s
  | .floatAlu site g f => Sys2Proof.Machine.execFloatAlu site g f s
  | .conversion site g f => Sys2Proof.Machine.execConversion site g f s
  | .ld site g f => Sys2Proof.Machine.execLd site g f s
  | .st site g f => Sys2Proof.Machine.execSt site g f s
  | .lds site g f => Sys2Proof.Machine.execLds site g f s
  | .sts site g f => Sys2Proof.Machine.execSts site g f s
  | .atom site g f => Sys2Proof.Machine.execAtom site g f s
  | .pref site g f => Sys2Proof.Machine.execPref site g f s
  | .bra site g f => Sys2Proof.Machine.execBra site g f s
  | .brz site g f => Sys2Proof.Machine.execBrz site g f s
  | .brnz site g f => Sys2Proof.Machine.execBrnz site g f s
  | .call site g f => Sys2Proof.Machine.execCall site g f s
  | .callr site g f => Sys2Proof.Machine.execCallr site g f s
  | .jmp site g f => Sys2Proof.Machine.execJmp site g f s
  | .ret site g f => Sys2Proof.Machine.execRet site g f s
  | .threadNop site g f => Sys2Proof.Machine.execThreadNop site g f s
  | .exit site g f => Sys2Proof.Machine.execExit site g f s
  | .sreg site g f => Sys2Proof.Machine.execSreg site g f s
  | .barG site g f => Sys2Proof.Machine.execBarG site g f s
  | .barT site g f => Sys2Proof.Machine.execBarT site g f s
  | .barTArv site g f => Sys2Proof.Machine.execBarTArv site g f s
  | .tokWait site g f => Sys2Proof.Machine.execTokWait site g f s
  | .tokTest site g f => Sys2Proof.Machine.execTokTest site g f s
  | .groupStalledSentinel site g => Sys2Proof.Machine.execGroupStalledSentinel site g s
  | .runAheadEnter site g => Sys2Proof.Machine.execRunAheadEnter site g s
  | .l1MissReturn site g => Sys2Proof.Machine.execL1MissReturn site g s
  | .mma site g set f => Sys2Proof.Machine.execMma site g set f s
  | .mdrain site g f => Sys2Proof.Machine.execMdrain site g f s
  | .mzero site g f => Sys2Proof.Machine.execMzero site g f s
  | .mload site g f => Sys2Proof.Machine.execMload site g f s
  | .maccStG site g f => Sys2Proof.Machine.execMaccStG site g f s
  | .maccLdG site g f => Sys2Proof.Machine.execMaccLdG site g f s
  | .mregOpen site g f => Sys2Proof.Machine.execMregOpen site g f s
  | .mregClose site g f => Sys2Proof.Machine.execMregClose site g f s
  | .arrayWindow site ready => Sys2Proof.Machine.execArrayWindow site ready s
  | .matrixVerdict site chk => Sys2Proof.Machine.execMatrixVerdict site chk s
  | .drainPathComplete site => Sys2Proof.Machine.execDrainPathComplete site s
  | .arrivalRecordWrite c expert => Sys2Proof.Machine.execArrivalRecordWrite c expert s
  | .combinePoll c expert => Sys2Proof.Machine.execCombinePoll c expert s
  | .speculativeFillArrive line => Sys2Proof.Machine.execSpeculativeFillArrive line s
  | .vectorQueueIssue site ins => Sys2Proof.Machine.execVectorQueueIssue site ins s
  | .vsetvlW32 site f => Sys2Proof.Machine.execVsetvlW32 site f s
  | .vsetvlW16 site f => Sys2Proof.Machine.execVsetvlW16 site f s
  | .vgetvl site f => Sys2Proof.Machine.execVgetvl site f s
  | .vwait site f => Sys2Proof.Machine.execVwait site f s
  | .vhbind site f => Sys2Proof.Machine.execVhbind site f s
  | .vhclr site f => Sys2Proof.Machine.execVhclr site f s
  | .vhread site f => Sys2Proof.Machine.execVhread site f s
  | .vectorInteger site f => Sys2Proof.Machine.execVectorInteger site f s
  | .vectorFp32 site f => Sys2Proof.Machine.execVectorFp32 site f s
  | .vectorBf16 site f => Sys2Proof.Machine.execVectorBf16 site f s
  | .vectorConversion site f => Sys2Proof.Machine.execVectorConversion site f s
  | .vectorBlockScaleEncode site f => Sys2Proof.Machine.execVectorBlockScaleEncode site f s
  | .vectorBlockScaleDecode site f => Sys2Proof.Machine.execVectorBlockScaleDecode site f s
  | .vectorReduction site f => Sys2Proof.Machine.execVectorReduction site f s
  | .vbcast site f => Sys2Proof.Machine.execVbcast site f s
  | .vbcastH site f => Sys2Proof.Machine.execVbcastH site f s
  | .viota site f => Sys2Proof.Machine.execViota site f s
  | .vslidedn site f => Sys2Proof.Machine.execVslidedn site f s
  | .vslideup site f => Sys2Proof.Machine.execVslideup site f s
  | .vperm site f => Sys2Proof.Machine.execVperm site f s
  | .vmov site f => Sys2Proof.Machine.execVmov site f s
  | .vmvXv site f => Sys2Proof.Machine.execVmvXv site f s
  | .vmvVx site f => Sys2Proof.Machine.execVmvVx site f s
  | .vldS site f => Sys2Proof.Machine.execVldS site f s
  | .vldSStr site f => Sys2Proof.Machine.execVldSStr site f s
  | .vldSIdx site f => Sys2Proof.Machine.execVldSIdx site f s
  | .vstS site f => Sys2Proof.Machine.execVstS site f s
  | .vstSStr site f => Sys2Proof.Machine.execVstSStr site f s
  | .vstSIdx site f => Sys2Proof.Machine.execVstSIdx site f s
  | .vldM site f => Sys2Proof.Machine.execVldM site f s
  | .vldMStr site f => Sys2Proof.Machine.execVldMStr site f s
  | .vldMIdx site f => Sys2Proof.Machine.execVldMIdx site f s
  | .vstM site f => Sys2Proof.Machine.execVstM site f s
  | .vstMStr site f => Sys2Proof.Machine.execVstMStr site f s
  | .vstMIdx site f => Sys2Proof.Machine.execVstMIdx site f s
  | .strmGet site ins => Sys2Proof.Machine.execStrmGet site ins s
  | .strmPut site ins => Sys2Proof.Machine.execStrmPut site ins s
  | .strmXfer site ins => Sys2Proof.Machine.execStrmXfer site ins s
  | .strmPref site ins => Sys2Proof.Machine.execStrmPref site ins s
  | .strmRget site ins => Sys2Proof.Machine.execStrmRget site ins s
  | .strmRput site ins => Sys2Proof.Machine.execStrmRput site ins s
  | .strmWait site ins => Sys2Proof.Machine.execStrmWait site ins s
  | .strmStat site ins => Sys2Proof.Machine.execStrmStat site ins s
  | .strmCancel site ins => Sys2Proof.Machine.execStrmCancel site ins s
  | .freezeAcquire site slot => Sys2Proof.Machine.execFreezeAcquire site slot s
  | .streamRequestIssue site => Sys2Proof.Machine.execStreamRequestIssue site s
  | .streamRequestComplete site slot req => Sys2Proof.Machine.execStreamRequestComplete site slot req s
  | .streamComplete site slot => Sys2Proof.Machine.execStreamComplete site slot s
  | .batonPut site ins => Sys2Proof.Machine.execBatonPut site ins s
  | .batonTake site ins => Sys2Proof.Machine.execBatonTake site ins s
  | .batonTry site ins => Sys2Proof.Machine.execBatonTry site ins s
  | .bqArm site f => Sys2Proof.Machine.execBqArm site f s
  | .bqDisarm site f => Sys2Proof.Machine.execBqDisarm site f s
  | .bqCount site ins => Sys2Proof.Machine.execBqCount site ins s
  | .deferredBatonPost site => Sys2Proof.Machine.execDeferredBatonPost site s
  | .armedQueueStart site queue => Sys2Proof.Machine.execArmedQueueStart site queue s
  | .msgSend site ins => Sys2Proof.Machine.execMsgSend site ins s
  | .msgGet site ins => Sys2Proof.Machine.execMsgGet site ins s
  | .msgFlush site ins => Sys2Proof.Machine.execMsgFlush site ins s
  | .messageDelivery site pos => Sys2Proof.Machine.execMessageDelivery site pos s
  | .sliceRequest r => Sys2Proof.Machine.execSliceRequest r s
  | .creditReturn slice => Sys2Proof.Machine.execCreditReturn slice s
  | .channelTransferComplete sector fnd => Sys2Proof.Machine.execChannelTransferComplete sector fnd s
  | .sliceEviction line => Sys2Proof.Machine.execSliceEviction line s
  | .adderBufferTimeout sector => Sys2Proof.Machine.execAdderBufferTimeout sector s
  | .orderedReductionApply sector => Sys2Proof.Machine.execOrderedReductionApply sector s
  | .regulatorWindow channel => Sys2Proof.Machine.execRegulatorWindow channel s
  | .partitionCommit data stores => Sys2Proof.Machine.execPartitionCommit data stores s
  | .partitionCommitDone => Sys2Proof.Machine.execPartitionCommitDone s
  | .refresh channel temp => Sys2Proof.Machine.execRefresh channel temp s
  | .patrolRead pa fnd => Sys2Proof.Machine.execPatrolRead pa fnd s
  | .tierLinkFlitRetry chip => Sys2Proof.Machine.execTierLinkFlitRetry chip s
  | .tierLinkRetrain chip pair01 pair23 => Sys2Proof.Machine.execTierLinkRetrain chip pair01 pair23 s
  | .cxlDeviceLost port => Sys2Proof.Machine.execCxlDeviceLost port s
  | .dimmThermalLimit dimm temp => Sys2Proof.Machine.execDimmThermalLimit dimm temp s
  | .updateGroupHold c => Sys2Proof.Machine.execUpdateGroupHold c s
  | .updateAgree c => Sys2Proof.Machine.execUpdateAgree c s
  | .updateChunk c chip => Sys2Proof.Machine.execUpdateChunk c chip s
  | .laneTraining port lanes => Sys2Proof.Machine.execLaneTraining port lanes s
  | .hello port h => Sys2Proof.Machine.execHello port h s
  | .dataFlitReceive port f => Sys2Proof.Machine.execDataFlitReceive port f s
  | .retryRequest port seq => Sys2Proof.Machine.execRetryRequest port seq s
  | .laneFailure port lane => Sys2Proof.Machine.execLaneFailure port lane s
  | .readPkt p => Sys2Proof.Machine.execReadPkt p s
  | .writePkt p => Sys2Proof.Machine.execWritePkt p s
  | .reducePkt p => Sys2Proof.Machine.execReducePkt p s
  | .atomicPkt p => Sys2Proof.Machine.execAtomicPkt p s
  | .readRsp p => Sys2Proof.Machine.execReadRsp p s
  | .ack p => Sys2Proof.Machine.execAck p s
  | .atomicRsp p => Sys2Proof.Machine.execAtomicRsp p s
  | .responseDeadline tag => Sys2Proof.Machine.execResponseDeadline tag s
  | .relayHead p => Sys2Proof.Machine.execRelayHead p s
  | .relayData p => Sys2Proof.Machine.execRelayData p s
  | .relayTail p => Sys2Proof.Machine.execRelayTail p s
  | .treeUp p => Sys2Proof.Machine.execTreeUp p s
  | .treeDown p => Sys2Proof.Machine.execTreeDown p s
  | .sampleVerdict site differs badSite => Sys2Proof.Machine.execSampleVerdict site differs badSite s
  | .tileSiteSpare site => Sys2Proof.Machine.execTileSiteSpare site s
  | .islandWindow island => Sys2Proof.Machine.execIslandWindow island s
  | .beatMonitorPeriod b => Sys2Proof.Machine.execBeatMonitorPeriod b s
  | .powerUp vin10mV mate cool b => Sys2Proof.Machine.execPowerUp vin10mV mate cool b s
  | .modReset b => Sys2Proof.Machine.execModReset b s
  | .powerOff lowMs => Sys2Proof.Machine.execPowerOff lowMs s
  | .undervoltageTurnOff vin10mV micros => Sys2Proof.Machine.execUndervoltageTurnOff vin10mV micros s
  | .overvoltageTurnOff vin10mV micros => Sys2Proof.Machine.execOvervoltageTurnOff vin10mV micros s
  | .thermalTrip island tj => Sys2Proof.Machine.execThermalTrip island tj s
  | .breakerTrip iin10mA micros => Sys2Proof.Machine.execBreakerTrip iin10mA micros s
  | .governorPeriod pW iin10mA vin10mV tj tinlet => Sys2Proof.Machine.execGovernorPeriod pW iin10mA vin10mV tj tinlet s
  | .currentEmergency iin10mA => Sys2Proof.Machine.execCurrentEmergency iin10mA s
  | .recoveryFetch data stores => Sys2Proof.Machine.execRecoveryFetch data stores s
  | .recoveryFetchComplete img b => Sys2Proof.Machine.execRecoveryFetchComplete img b s
  | .firmwareUpdate img mailbox => Sys2Proof.Machine.execFirmwareUpdate img mailbox s
  | .debugUnlock tdi => Sys2Proof.Machine.execDebugUnlock tdi s
  | .sovelLinkDown => Sys2Proof.Machine.execSovelLinkDown s
  | .sovelLinkRetrain lo hi wbase lanes => Sys2Proof.Machine.execSovelLinkRetrain lo hi wbase lanes s
  | .windowRead offset bytes => Sys2Proof.Machine.execWindowRead offset bytes s
  | .windowWrite offset data stores => Sys2Proof.Machine.execWindowWrite offset data stores s
  | .windowCompareAndSwap offset expect new stores => Sys2Proof.Machine.execWindowCompareAndSwap offset expect new stores s
  | .nconsWrite value stores => Sys2Proof.Machine.execNconsWrite value stores s
  | .mailboxSubmit data stores => Sys2Proof.Machine.execMailboxSubmit data stores s
  | .mctpControl msg => Sys2Proof.Machine.execMctpControl msg s
  | .pldmSensorRead sensor mailbox => Sys2Proof.Machine.execPldmSensorRead sensor mailbox s
  | .getProgress mailbox => Sys2Proof.Machine.execGetProgress mailbox s
  | .getStepLog first count mailbox => Sys2Proof.Machine.execGetStepLog first count mailbox s
  | .resetStepLog mailbox => Sys2Proof.Machine.execResetStepLog mailbox s
  | .setEnvelopeCap watts mailbox => Sys2Proof.Machine.execSetEnvelopeCap watts mailbox s
  | .submitTransition t mailbox => Sys2Proof.Machine.execSubmitTransition t mailbox s
  | .getDebugChallenge scope mailbox => Sys2Proof.Machine.execGetDebugChallenge scope mailbox s
  | .debugResponse keyBlock rsa slh mailbox => Sys2Proof.Machine.execDebugResponse keyBlock rsa slh mailbox s
  | .getPowerStatus mailbox => Sys2Proof.Machine.execGetPowerStatus mailbox s
  | .getVersion mailbox => Sys2Proof.Machine.execGetVersion mailbox s
  | .getCapabilities mailbox => Sys2Proof.Machine.execGetCapabilities mailbox s
  | .negotiateAlgorithms req mailbox => Sys2Proof.Machine.execNegotiateAlgorithms req mailbox s
  | .getDigests mailbox => Sys2Proof.Machine.execGetDigests mailbox s
  | .getCertificate slot offset length mailbox => Sys2Proof.Machine.execGetCertificate slot offset length mailbox s
  | .challenge slot nonce mailbox => Sys2Proof.Machine.execChallenge slot nonce mailbox s
  | .getMeasurements index raw nonce slot mailbox => Sys2Proof.Machine.execGetMeasurements index raw nonce slot mailbox s
  | .setCertificate slot cert mailbox => Sys2Proof.Machine.execSetCertificate slot cert mailbox s
  | .registerWrite offset data bytes stores => Sys2Proof.Machine.execRegisterWrite offset data bytes stores s
  | .idleFlitReceive port f => Sys2Proof.Machine.execIdleFlitReceive port f s
  | .sovelLaneFailure lane => Sys2Proof.Machine.execSovelLaneFailure lane s
  | .cxlMediaErrorReport port devAddr => Sys2Proof.Machine.execCxlMediaErrorReport port devAddr s
  | .vendorKeyRevocationRequest slot signer rsa slh owner => Sys2Proof.Machine.execVendorKeyRevocationRequest slot signer rsa slh owner s
  | .recoveryWaitProgressAdvance => Sys2Proof.Machine.execRecoveryWaitProgressAdvance s
  | .platformEventRetrieval => Sys2Proof.Machine.execPlatformEventRetrieval s
  | .mateShortBreak => Sys2Proof.Machine.execMateShortBreak s
  | .ownerDataWrite data => Sys2Proof.Machine.execOwnerDataWrite data s
  | .dynamicAddressAssignment addr => Sys2Proof.Machine.execDynamicAddressAssignment addr s

end Sys2Proof.Machine
end

