-- ==== Sys2Proof/Machine/Step.lean ====
section
/-! DEFINITION. One step of the block: the command at the front of the queue of waiting commands takes its effect. -/

namespace Sys2Proof.Machine

/-- One step: the command at the front acts on the state with the queue's rest; an empty queue idles (DESIGN CHOICE,
notes/assumptions/7.md). A row is one indivisible step (DESIGN CHOICE, notes/assumptions/29.md). -/
def step (s : State) : Host.Outcome State Fault Refusal :=
  match s.pending with
  | [] => .next s
  | i :: rest => exec i { s with pending := rest }

/-- s with the command that a word spells at the front of its queue; s where the word spells none. -/
def State.withFetchWord (s : State) (nbits w : Nat) : State :=
  match Sys2Proof.decodeTableWord nbits w with
  | some i => { s with pending := i :: s.pending }
  | none => s

end Sys2Proof.Machine
end

