-- ==== Sys2Proof/Safety.lean ====
section
/-! DEFINITION. The terms that claims use: what counts as a safe run, when a unit can take its next command, and what a
command has done. -/

set_option Elab.async false

namespace Sys2Proof

open Machine

/-- A step that ends in a next state: neither a fault of the model nor a refusal. -/
def Safe (s : State) : Prop := ∃ t, step s = Host.Outcome.next t

/-- A module stop stands (R385). -/
def Stopped (s : State) : Prop := s.run = Run.stop

/-! ### Memory -/

/-- From s to t nothing has changed but memory, what the slices hold of it, the cached translations and the words that they
may still hold, the shares of the regulators, the counters and the count of free values. -/
def MemoryOnly (s t : State) : Prop :=
  t = { s with
    mem := t.mem, poison := t.poison, dead := t.dead, lines := t.lines, fills := t.fills, redBufs := t.redBufs
    addBufs := t.addBufs, xlats := t.xlats, oldPtes := t.oldPtes, pteCtr := t.pteCtr, credits := t.credits
    counters := t.counters, freeCtr := t.freeCtr }

/-- An access of a context to va reaches the fast tier at pa under cache policy cp: the leaf at at_ permits it, no earlier
table entry that may still be used says otherwise, no fault waits for its detector, and the sector is not dead (R34, R36,
R306). -/
structure Reaches (s : State) (ctx : Nat) (acc : Acc) (va : DWord) (pa cp at_ : Nat) : Prop where
  leaf : ∃ e lvl, walk s ctx va = .leaf e lvl at_ ∧ permits acc e = true ∧ targetOf lvl e va = { pa := pa, cp := cp, leaf := e }
  current : ∀ pick, walkPick s ctx va pick = walk s ctx va
  quiet : noFaults s = true
  fast : regionOf pa = .fast
  live : NSet.has s.dead (pa / 64) = false

/-- Every byte of memory, as the home slices answer, is the same in s and t outside the n bytes at pa and outside the
translation table entry at at_, whose A and D bits an access sets (R33). -/
def BytesKept (s t : State) (pa n at_ : Nat) : Prop :=
  ∀ a, (a < pa ∨ pa + n ≤ a) → (a < at_ ∨ at_ + 8 ≤ a) → cohByte t a = cohByte s a

/-- As MemoryOnly, but that the L1 of the tile at a site, and the misses it waits for, have changed too. -/
def TileMemoryOnly (site : Nat) (s t : State) : Prop :=
  (∃ u tiles, MemoryOnly s u ∧ t = { u with tiles := tiles }) ∧ (∀ k, k ≠ site → tileOf t k = tileOf s k) ∧
    tileOf t site = { tileOf s site with l1 := (tileOf t site).l1, l1Miss := (tileOf t site).l1Miss }

/-- What a tile at a site reads as n bytes at pa, going from s to t: the bytes as the home slices answer, or those of the
copy that the L1 holds of a cacheable page (R289, R292). -/
def Loaded (s t : State) (site pa cp n : Nat) (bs : List Byte) (poison : Bool) : Prop :=
  (bs = cohBytes t pa n ∧ poison = cohPoison t pa) ∨
    ∃ sec, cp = 0 ∧ NMap.find (tileOf s site).l1 (pa / 64) = some sec ∧ bs = sliceList 0 sec.data (pa % 64) n ∧ poison = sec.poison

/-- Every byte outside the driver pools, where the translation tables stand, is as before. -/
def DataKept (s t : State) : Prop := ∀ a, inDriverPool a = false → cohByte t a = cohByte s a

/-- The state after the first k of a list of lanes have each made their access, one after another. -/
def after (access : State → Nat → State) (s : State) (lanes : List Nat) (k : Nat) : State :=
  (lanes.take k).foldl access s

/-- A write of bytes by a context at va, cut at sector ends: each piece in its turn reaches the fast tier, in a sector that
no stream holds frozen, and leaves the next state. The traffic is the context's partition's, or that of part. -/
structure StoreChain (s : State) (ctx va : Nat) (bs : List Byte) (σ : Nat → State) (pa cp at_ : Nat → Nat)
    (part : Option Nat := none) : Prop where
  start : σ 0 = s
  piece : ∀ i p, (pieces va bs.length)[i]? = some p → Reaches (σ i) ctx .write (BitVec.ofNat 64 p.1) (pa i) (cp i) (at_ i) ∧
    frozenSector (σ i) (pa i / 64) = false ∧
    σ (i + 1) = (vWrite (σ i) ctx (BitVec.ofNat 64 p.1) (sliceList 0 bs (p.1 - va) p.2) false (part := part)).1

/-- What such a write leaves: each piece changes memory only, at its own bytes, which hold what was written. -/
def Stored (va : Nat) (bs : List Byte) (σ : Nat → State) (pa at_ : Nat → Nat) : Prop :=
  ∀ i p, (pieces va bs.length)[i]? = some p → MemoryOnly (σ i) (σ (i + 1)) ∧ BytesKept (σ i) (σ (i + 1)) (pa i) p.2 (at_ i) ∧
    cohBytes (σ (i + 1)) (pa i) p.2 = sliceList 0 bs (p.1 - va) p.2

/-- A read of n bytes by a context at va, cut at sector ends: each piece in its turn reaches the fast tier, in a sector
without poison, and bs holds its bytes. -/
structure LoadChain (s : State) (ctx va n : Nat) (bs : List Byte) (σ : Nat → State) (pa cp at_ : Nat → Nat) : Prop where
  start : σ 0 = s
  size : bs.length = n
  piece : ∀ i p, (pieces va n)[i]? = some p → Reaches (σ i) ctx .read (BitVec.ofNat 64 p.1) (pa i) (cp i) (at_ i) ∧
    cohPoison (σ (i + 1)) (pa i) = false ∧ cohBytes (σ (i + 1)) (pa i) p.2 = sliceList 0 bs (p.1 - va) p.2 ∧
    σ (i + 1) = (cRead (σ i) ctx (BitVec.ofNat 64 p.1) p.2).1

/-- The bytes of a write of a context at va reach memory, sector by sector, and t is the state after it. -/
def WritesTo (s : State) (ctx va : Nat) (bs : List Byte) (t : State) : Prop :=
  ∃ σ pa cp at_, StoreChain s ctx va bs σ pa cp at_ ∧ t = σ (pieces va bs.length).length

/-- A read of a context at va gives the bytes bs, sector by sector, and t is the state after it. -/
def ReadsTo (s : State) (ctx va : Nat) (bs : List Byte) (t : State) : Prop :=
  ∃ σ pa cp at_, LoadChain s ctx va bs.length bs σ pa cp at_ ∧ t = σ (pieces va bs.length).length

/-! ### The control core of a tile site -/

/-- The control core of a site can run its next instruction, at pc, for the launch l; s1 is the state after the fetch.
Past an unresolved branch only the rows that past names may run, on words that the instruction cache holds (R102). -/
structure CcReady (past : Bool) (s : State) (site : Nat) (l : Launch) (pc : DWord) (s1 : State) : Prop where
  up : s.run = Run.up
  launch : runningLaunch s site = some l
  atPc : (tileOf s site).ccPc = pc
  verdicts : sampleBlocked (tileOf s site) none = false
  answers : ccGetLeft s site = false
  quiet : noFaults s1 = true
  fetched : ((tileOf s site).spec = none ∧ ∃ w, fetch s site l.ctx pc 4 = (s1, .ok w) ∧ (ccDecode site w.word).isSome = true) ∨
    (past = true ∧ (tileOf s site).spec ≠ none ∧ s1 = s ∧
      ∃ w, wordHeld s site l.ctx pc 4 = some w ∧ (ccDecode site w).isSome = true)

/-- The tile of a control core that has retired one more instruction: its samples have aged, or, past an unresolved branch,
the count of what the branch holds back has risen (R102, R389). -/
def ccAged (t : Tile) : Tile :=
  match t.spec with
  | none => ageSamples t none
  | some c => { t with spec := some { c with done := c.done + 1 } }

/-- From s to t the control core of a site has retired one instruction of the launch l: it stands at pc, RD holds v where
it is not s0, and nothing else has changed but the counts of retired instructions and of the samples that wait, which an
unresolved branch holds back. -/
structure CcRetired (s t : State) (l : Launch) (site rd : Nat) (v : T64) (pc : DWord) : Prop where
  frame : ∃ tiles counters, t = { s with tiles := tiles, counters := counters }
  tiles : ∀ k, k ≠ site → tileOf t k = tileOf s k
  tile : tileOf t site = { ccAged (tileOf s site) with ccRegs := (tileOf t site).ccRegs, ccPc := pc }
  zero : ccReg (tileOf t site) 0 = T64.zero
  dest : rd ≠ 0 → ccReg (tileOf t site) rd = v
  regs : ∀ r, r ≠ rd → ccReg (tileOf t site) r = ccReg (tileOf s site) r
  count : site < 384 → counter t 1 site 0 = if (tileOf s site).spec = none then satAdd (counter s 1 site 0) 1 else counter s 1 site 0
  counts : ∀ k, k ≠ ckey 1 site 0 → k ≠ ckey 5 l.ctx 0 → NMap.getD t.counters k 0 = NMap.getD s.counters k 0

/-! ### A thread group -/

/-- Group g of a site, its leading set lanes at pc, can run its next instruction for the launch l: it stands in the active
set, no verdict is due, and its word stands in the instruction cache and leaves s1 when it is fetched (R115, R117, R131). -/
structure ThReady (s : State) (site g : Nat) (l : Launch) (lanes : List Nat) (pc : DWord) (s1 : State) : Prop where
  up : s.run = Run.up
  launch : runningLaunch s site = some l
  running : (groupOf (tileOf s site) g).running = true
  active : (tileOf s site).active.contains g = true
  verdicts : sampleBlocked (tileOf s site) (some g) = false
  leading : leadingSet (groupOf (tileOf s site) g) = lanes
  first : ∃ i r, lanes = i :: r ∧ lanePc (groupOf (tileOf s site) g) i = pc
  quiet : noFaults s1 = true
  fetched : ∃ w, fetch s site l.ctx pc 8 = (s1, .ok w) ∧ w.missed = false ∧ (thDecode site g w.word).isSome = true

/-- The register fields of an instruction are legal for REGS (R104): those that hold operands, and those that must hold
0xFF; and no load or token holds a register that it names (R115, R168). -/
structure ThFields (s : State) (site g : Nat) (l : Launch) (lanes : List Nat) (uses : List RegUse) (unused : List Nat)
    (dst : Option RegUse) : Prop where
  legal : ∀ u ∈ uses, u.ok l.regs = true ∧ (u.r = 255 ∨ u.r + u.n ≤ 255)
  zero : ∀ r ∈ unused, r = 255
  free : regBusy (groupOf (tileOf s site) g) lanes uses dst = false

/-- From s to t group g of a site has retired one instruction of the launch l: y is the group after the instruction's
effect on registers, each lane of the leading set goes on at its pc, every other lane stays where it is, every group
with a thread at a barrier counts one decision (R124), and nothing else has changed but the places of the sets of R115,
the samples, and the counts of R408. -/
structure ThRetired (s t : State) (l : Launch) (site g : Nat) (lanes : List Nat) (y : TGroup) (pc : Nat → DWord) : Prop where
  frame : ∃ tiles counters, t = { s with tiles := tiles, counters := counters }
  tiles : ∀ k, k ≠ site → tileOf t k = tileOf s k
  tile : tileOf t site = { tileOf s site with
    samples := (tileOf t site).samples, sampleCount := (tileOf t site).sampleCount, groups := (tileOf t site).groups
    active := (tileOf t site).active, eligible := (tileOf t site).eligible }
  others : ∀ k, k ≠ g → groupOf (tileOf t site) k = { groupOf (tileOf s site) k with
    sentinel := (groupOf (tileOf s site) k).sentinel + if (groupOf (tileOf s site) k).barWait = [] then 0 else 1 }
  group : groupOf (tileOf t site) g = { y with
    pcs := (groupOf (tileOf t site) g).pcs, laneDone := y.laneDone &&& ~~~maskOf lanes
    parked := (groupOf (tileOf t site) g).parked, waitsOn := (groupOf (tileOf t site) g).waitsOn
    sentinel := y.sentinel + if y.barWait = [] then 0 else 1 }
  pcs : ∀ i, lanePc (groupOf (tileOf t site) g) i = if i ∈ lanes then pc i else lanePc y i
  count : site < 384 → counter t 1 site 0 = satAdd (counter s 1 site 0) 1
  counts : ∀ k, k ≠ ckey 1 site 0 → k ≠ ckey 5 l.ctx 0 → k ≠ ckey 1 site 14 → k ≠ ckey 1 site 12 →
    NMap.getD t.counters k 0 = NMap.getD s.counters k 0

/-- y is x but for the registers of the lanes in dst: n of them from r on (R103, R104). -/
structure OnlyRegs (x y : TGroup) (lanes : List Nat) (r n : Nat) : Prop where
  frame : y = { x with regs := y.regs }
  regs : ∀ i k, k < 256 → ¬ (i ∈ lanes ∧ r ≤ k ∧ k < r + n) → treg y i k = treg x i k

/-! ### The matrix array -/

/-- From s to t group g of a site has issued the matrix instruction m (R126, R148, R168): m stands last in the array, its
token is pending, binds are bound to it, the issue is counted, and the instruction has retired. -/
structure MatIssued (s t : State) (l : Launch) (site g : Nat) (lanes : List Nat) (pc : DWord) (m : MatInst)
    (binds : List RegBind) : Prop where
  token : m.group = g ∧ m.pc = pc ∧ m.count = (groupOf (tileOf s site) g).matCount ∧ m.fed = 0
  retired : ∃ s2 y, (∃ tiles counters, s2 = { s with tiles := tiles, counters := counters }) ∧
    (∀ k, k ≠ site → tileOf s2 k = tileOf s k) ∧
    tileOf s2 site = { tileOf s site with
      array := { (tileOf s site).array with accepted := (tileOf s site).array.accepted ++ [m] } } ∧
    (site < 384 → counter s2 1 site 1 = satAdd (counter s 1 site 1) 1) ∧
    ThRetired s2 t l site g lanes y (fun _ => pc + 8) ∧
    y = { groupOf (tileOf s site) g with
      tokens := (groupOf (tileOf s site) g).tokens ||| BitVec.ofNat 8 (2 ^ m.token)
      matCount := (groupOf (tileOf s site) g).matCount + 1, bound := (groupOf (tileOf s site) g).bound ++ binds }

/-! ### The vector engine -/

/-- The vector engine of a site can perform the oldest instruction e of its queue, rest the others (R247). -/
structure VecHead (s : State) (site : Nat) (l : Launch) (e : VEntry) (rest : List VEntry) : Prop where
  up : s.run = Run.up
  launch : runningLaunch s site = some l
  queue : (tileOf s site).vec.queue = e :: rest
  legal : vChk e.instr e.vl = none
  quiet : noFaults s = true

/-- From s to t the vector engine of a site has performed its oldest instruction: its registers and histograms are those
of v, and nothing else has changed but the samples and their count. -/
structure VecDone (s t : State) (site : Nat) (v : VecUnit) (rest : List VEntry) : Prop where
  frame : ∃ tiles counters, t = { s with tiles := tiles, counters := counters }
  tiles : ∀ k, k ≠ site → tileOf t k = tileOf s k
  tile : tileOf t site = { tileOf s site with
    samples := (tileOf t site).samples, sampleCount := (tileOf t site).sampleCount, vec := v }
  unit : v = { (tileOf s site).vec with
    regs := v.regs, poison := v.poison, queue := rest, h0 := v.h0, h1 := v.h1, h2 := v.h2, h3 := v.h3 }
  counts : ∀ k, k ≠ ckey 1 site 12 → NMap.getD t.counters k 0 = NMap.getD s.counters k 0

/-- From u to v every byte of the vector registers but n bytes from byte lo on is the same, and so are the poison marks, a
mark for 32 bits (R392), but of the units where those bytes lie. -/
def VecKept (u v : VecUnit) (lo n : Nat) : Prop :=
  (∀ b, (b < lo ∨ lo + n ≤ b) → NMap.getD v.regs b 0 = NMap.getD u.regs b 0) ∧
    ∀ b, (b < lo / 4 * 4 ∨ (lo + n + 3) / 4 * 4 ≤ b) → NSet.has v.poison b = NSet.has u.poison b

/-- From u to v elements 0 to n - 1 of register r, w bytes each, have been written with es, and nothing else. A unit of 32
bits is poisoned by a poisoned element, and keeps the mark that it had where clean elements replace only a part of it
(R261, R392). -/
def VecPut (u v : VecUnit) (r w n : Nat) (es : Nat → VEl) : Prop :=
  VecKept u v (r * 4096) (n * w) ∧ (∀ i, i < n → (vGet v r w i).v = (es i).v % 2 ^ (8 * w)) ∧
    ∀ k i, k * w = 4 → i < (n + k - 1) / k * k → let first := i / k * k
      (vGet v r w i).bad = (((List.range k).any fun j => decide (first + j < n) && (es (first + j)).bad) ||
        (decide (n < first + k) && (vGet u r w i).bad))

/-- Going from u to v each histogram bound to register r has watched n values of a format and events more (R259), and the
others are as they were; without a format all are as they were. -/
def VecWatched (u v : VecUnit) (r : Nat) (fmt : Option Fmt) (n : Nat) (es : Nat → VEl) (events : Nat) : Prop :=
  ∀ k, k < 4 → histOf v k = match fmt with
    | some f => if (histOf u k).bind = some r then histNonfin ((List.range n).foldl (fun h i => histWatch f h (es i)) (histOf u k)) events
      else histOf u k
    | none => histOf u k

/-- From s to t the oldest vector instruction has written elements 0 to n - 1 of register vd, w bytes each. -/
def VecWrites (s t : State) (site : Nat) (rest : List VEntry) (vd w n : Nat) (fmt : Option Fmt) (es : Nat → VEl)
    (events : Nat) : Prop :=
  ∃ v, VecDone s t site v rest ∧ VecPut (tileOf s site).vec v vd w n es ∧
    VecWatched (tileOf s site).vec v vd fmt n es events

/-! ### Commands of the queues -/

/-- The command c, k as it stands, has started and may go on: it is of opcode op, and its context runs, or is suspended
and has not stopped it (R61, R87). -/
structure Runs (s : State) (c : CmdRef) (op : Nat) (k : Cmd) : Prop where
  up : s.run = Run.up
  cmd : cmdOf s c = some k
  started : k.phase = Phase.started
  opcode : k.opcode.toNat = op
  stopped : k.stopped = false
  ctx : (ctxOf s c.ctx).state = CtxState.active ∨ (ctxOf s c.ctx).state = CtxState.suspended

/-- A command of the dispatch engine ends in DISPATCH_DESCRIPTOR, class F, against its context: OPERAND holds the address that
it names, WHERE is zero, and DETAIL holds the reason and the route entry (R58, R186). Nothing else has changed since t but
the count of free values. -/
def DispFaults (t : State) (c : CmdRef) (va : DWord) (reason entry : Nat) (out : Host.Outcome State Fault Refusal) : Prop :=
  ∃ f free, out = .next (raiseFault { t with freeCtr := free } c.ctx .f f) ∧ f.code = 0x3A ∧ f.queue = c.queue ∧
    f.operand = BitVec.ofNat 64 (va.toNat % 2 ^ 52) ∧ f.unit = 8 ∧ f.tile = 0 ∧ f.group = 0 ∧ f.loc = 0 ∧ f.mask = 0 ∧
    f.detail = BitVec.ofNat 64 (reason + entry * 2 ^ 32)

/-! ### The fabric -/

/-- The packet p, of a type, stands first of its path in the inbox, and came by a port. -/
structure PacketHere (s : State) (p : Packet) (type port : Nat) : Prop where
  up : s.run = Run.up
  type : p.type.toNat = type
  front : frontPort s.inbox p = some port

/-- The state once the packet p has been taken from the inbox. -/
def taken (s : State) (p : Packet) : State := { s with inbox := withoutPacket s.inbox p }

/-- The collective packet p has come for the run r, whose command k still goes on, and which has sent all it had to. -/
structure CollHere (s : State) (p : Packet) (type port : Nat) (r : CollRun) (k : Cmd) : Prop where
  packet : PacketHere s p type port
  fresh : stalePacket s p = false
  key : runFor s p = some r
  one : (s.collRuns.map (·.cmd)).Nodup
  cmd : cmdOf s r.cmd = some k
  started : k.phase = Phase.started
  serves : ctxServes s r.cmd.ctx = true
  goesOn : r.aborted = false
  idle : r.out = []

end Sys2Proof
end

