-- ==== Sys2Proof/Certificates/Slice0/Obligations.lean ====
section
/-! DEFINITION. The statements for the provers, from the numbered rules of the specification. -/

set_option Elab.async false

open Sys2Proof Sys2Proof.Machine

/-! ### The control core -/

/-- R106: what each integer function gives on operands of 32 or 64 bits. -/
def Obligations.IntegerFunctions : Prop :=
  ∀ w, w = 32 ∨ w = 64 → ∀ a b c : BitVec w, let f := fun fn => (intFn w fn a.toNat b.toNat c.toNat).map fun v => BitVec.ofNat w v
    let low := BitVec.intMin w
    f 0x00 = some (a + b) ∧ f 0x01 = some (a - b) ∧ f 0x02 = some (a * b) ∧
    f 0x03 = some (BitVec.ofInt w (a.toInt * b.toInt / 2 ^ w)) ∧ f 0x04 = some (BitVec.ofNat w (a.toNat * b.toNat / 2 ^ w)) ∧
    f 0x05 = some (a * b + c) ∧
    f 0x06 = some (if b = 0 then BitVec.allOnes w else if a = low ∧ b = BitVec.allOnes w then low else BitVec.ofInt w (a.toInt.tdiv b.toInt)) ∧
    f 0x07 = some (if b = 0 then BitVec.allOnes w else a / b) ∧
    f 0x08 = some (if b = 0 then a else if a = low ∧ b = BitVec.allOnes w then 0 else BitVec.ofInt w (a.toInt.tmod b.toInt)) ∧
    f 0x09 = some (if b = 0 then a else a % b) ∧
    f 0x0A = some (a &&& b) ∧ f 0x0B = some (a ||| b) ∧ f 0x0C = some (a ^^^ b) ∧ f 0x0D = some (a &&& ~~~b) ∧
    f 0x0E = some (a <<< (b.toNat % w)) ∧ f 0x0F = some (a >>> (b.toNat % w)) ∧
    f 0x10 = some (a.sshiftRight (b.toNat % w)) ∧
    f 0x11 = some (if a.sle b then a else b) ∧ f 0x12 = some (if a.sle b then b else a) ∧
    f 0x13 = some (if a.ule b then a else b) ∧ f 0x14 = some (if a.ule b then b else a) ∧
    f 0x15 = some (BitVec.ofNat w (if a = 0 then w else w - 1 - Nat.log2 a.toNat)) ∧
    f 0x16 = some (BitVec.ofNat w ((List.range w).countP a.getLsbD)) ∧ f 0x17 = some a.reverse ∧
    f 0x18 = some (if a = b then 1 else 0) ∧ f 0x19 = some (if a = b then 0 else 1) ∧
    f 0x1A = some (if a.slt b then 1 else 0) ∧ f 0x1B = some (if a.ult b then 1 else 0) ∧
    f 0x1C = some (if a.sle b then 1 else 0) ∧ f 0x1D = some (if a.ule b then 1 else 0) ∧
    f 0x1E = some (if c = 0 then b else a)

/-- R100, R112: every defined ALU function and every immediate row of the control core retires with its result in RD, and
changes nothing else; poison of a source passes to RD. -/
def Obligations.ControlArithmetic : Prop :=
  ∀ s site l pc s1, CcReady true s site l pc s1 →
    let x := fun r : BitVec 6 => ccReg (tileOf s1 site) r.toNat
    let retires := fun i (rd : BitVec 6) v p => ∃ t, exec i s = .next t ∧ CcRetired s1 t l site rd.toNat { val := v, poison := p } (pc + 4)
    (∀ f : CrF, ∀ v, f.fn.toNat ≤ 0x1D → f.fn.toNat ≠ 0x05 → (intArity f.fn.toNat = 1 → f.rs2 = 0) →
      intFn 64 f.fn.toNat (x f.rs1).val.toNat (x f.rs2).val.toNat 0 = some v →
      retires (.ccAlu site f) f.rd (BitVec.ofNat 64 v) ((x f.rs1).poison || (intArity f.fn.toNat == 2 && (x f.rs2).poison))) ∧
    (∀ f : CiF, let a := x f.rs1
      let k := f.imm.signExtend 64
      retires (.addi site f) f.rd (a.val + k) a.poison ∧ retires (.andi site f) f.rd (a.val &&& k) a.poison ∧
      retires (.ori site f) f.rd (a.val ||| k) a.poison ∧ retires (.xori site f) f.rd (a.val ^^^ k) a.poison ∧
      retires (.slti site f) f.rd (if a.val.slt k then 1 else 0) a.poison ∧
      retires (.sltiu site f) f.rd (if a.val.ult k then 1 else 0) a.poison ∧
      (f.imm.toNat < 64 →
        retires (.shli site f) f.rd (a.val <<< f.imm.toNat) a.poison ∧
        retires (.shri site f) f.rd (a.val >>> f.imm.toNat) a.poison ∧
        retires (.srai site f) f.rd (a.val.sshiftRight f.imm.toNat) a.poison)) ∧
    (∀ f : ClF, f.rsv = 0 → ∀ j : Nat, j < 64 → ∃ v, retires (.lim site f) f.rd v (x f.rd).poison ∧
      v.getLsbD j = if j / 16 = f.k.toNat then f.imm16.getLsbD (j % 16) else (x f.rd).val.getLsbD j)

/-- R99, R100: LD and ST of either width at an aligned address load 8 or 4 bytes, zero-extended, or store the low bytes of RD, lowest byte
first, through the tile's L1 and the context's tables; every other register, tile and byte of memory stays; a load is stated
while one of the L1's 512 miss registers is free. An access that
is not aligned to its size faults MISALIGNED, class F, at the instruction. -/
def Obligations.ControlMemory : Prop :=
  (∀ s site l pc s1 f pa cp at_, CcReady false s site l pc s1 →
    let a := (ccReg (tileOf s1 site) f.rs1.toNat).val + f.imm.signExtend 64
    let loads := fun i n => ∃ t s2 bs p, exec i s = .next t ∧ TileMemoryOnly site s1 s2 ∧ BytesKept s1 s2 0 0 at_ ∧
      Loaded s1 s2 site pa cp n bs p ∧
      CcRetired s2 t l site f.rd.toNat { val := BitVec.ofNat 64 (leNat bs), poison := p } (pc + 4)
    (ccReg (tileOf s1 site) f.rs1.toNat).poison = false → Reaches s1 l.ctx .read a pa cp at_ → missFull (tileOf s1 site) = false →
      (a.toNat % 8 = 0 → loads (.ldD site f) 8) ∧ (a.toNat % 4 = 0 → loads (.ldW site f) 4)) ∧
  (∀ s site l pc s1 f pa cp at_, CcReady false s site l pc s1 →
    let a := (ccReg (tileOf s1 site) f.rs1.toNat).val + f.imm.signExtend 64
    let d := ccReg (tileOf s1 site) f.rd.toNat
    let stores := fun i n => ∃ t s2, exec i s = .next t ∧ TileMemoryOnly site s1 s2 ∧ BytesKept s1 s2 pa n at_ ∧
      (∀ j, j < n → cohByte s2 (pa + j) = d.val.extractLsb' (8 * j) 8) ∧ CcRetired s2 t l site 0 T64.zero (pc + 4)
    (ccReg (tileOf s1 site) f.rs1.toNat).poison = false → Reaches s1 l.ctx .write a pa cp at_ →
    frozenSector s1 (pa / 64) = false →
      (a.toNat % 8 = 0 → stores (.stD site f) 8) ∧ (a.toNat % 4 = 0 → stores (.stW site f) 4)) ∧
  (∀ s site l pc s1 f, CcReady false s site l pc s1 →
    let a := (ccReg (tileOf s1 site) f.rs1.toNat).val + f.imm.signExtend 64
    let faults := fun i => exec i s = .next (tileFault s1 l site 1 misaligned (a &&& 0xFFFFFFFFFFFFF#64) pc 0)
    (ccReg (tileOf s1 site) f.rs1.toNat).poison = false →
      (a.toNat % 8 ≠ 0 → faults (.ldD site f) ∧ faults (.stD site f)) ∧
      (a.toNat % 4 ≠ 0 → faults (.ldW site f) ∧ faults (.stW site f) ∧ faults (.jalr site f none)))

/-- R100, R102: the six branches go to PC + 4 × OFF where their condition on RS1 and RS2 holds and to PC + 4 otherwise; JAL and JALR
link PC + 4 in RD. Past a predicted branch the core goes on at the guess; CC_BRANCH_RESOLVE keeps what it did when the guess
is the target, the branch and what followed it retiring, and otherwise gives back the registers of the branch and the target,
the branch alone retiring. -/
def Obligations.Branches : Prop :=
  (∀ s site l pc s1, CcReady false s site l pc s1 →
    let x := fun r : BitVec 6 => ccReg (tileOf s1 site) r.toNat
    let goes := fun i (rd : BitVec 6) v dest => ∃ t, exec i s = .next t ∧ CcRetired s1 t l site rd.toNat v dest
    (∀ f : CbF, (x f.rs1).poison = false → (x f.rs2).poison = false →
      let a := (x f.rs1).val
      let b := (x f.rs2).val
      let dest := fun c : Bool => if c then pc + f.off.signExtend 64 * 4 else pc + 4
      goes (.beq site f none) 0 T64.zero (dest (a == b)) ∧ goes (.bne site f none) 0 T64.zero (dest (a != b)) ∧
      goes (.blt site f none) 0 T64.zero (dest (a.slt b)) ∧ goes (.bge site f none) 0 T64.zero (dest (b.sle a)) ∧
      goes (.bltu site f none) 0 T64.zero (dest (a.ult b)) ∧ goes (.bgeu site f none) 0 T64.zero (dest (b.ule a))) ∧
    (∀ f : CjF, goes (.jal site f) f.rd { val := pc + 4, poison := false } (pc + f.off.signExtend 64 * 4)) ∧
    (∀ f : CiF, (x f.rs1).poison = false → ((x f.rs1).val + f.imm.signExtend 64).toNat % 4 = 0 →
      goes (.jalr site f none) f.rd { val := pc + 4, poison := false } ((x f.rs1).val + f.imm.signExtend 64))) ∧
  ((∀ s site l pc s1 guess (f : CbF), CcReady false s site l pc s1 → (ccReg (tileOf s1 site) f.rs1.toNat).poison = false →
    (ccReg (tileOf s1 site) f.rs2.toNat).poison = false → (tileOf s1 site).spec = none →
    let regs := (tileOf s1 site).ccRegs
    let target := if (ccReg (tileOf s1 site) f.rs1.toNat).val = (ccReg (tileOf s1 site) f.rs2.toNat).val
      then pc + f.off.signExtend 64 * 4 else pc + 4
    ∃ t, exec (.beq site f (some guess)) s = .next t ∧ (tileOf t site).ccPc = guess ∧ (tileOf t site).ccRegs = regs ∧
      (tileOf t site).spec = some { regs := regs, target := target, guess := guess, done := 1 } ∧ t.mem = s1.mem ∧ t.lines = s1.lines) ∧
  (∀ s site l c, s.run = .up → runningLaunch s site = some l → (tileOf s site).spec = some c →
    let t := tileOf s site
    let n := if c.guess = c.target then c.done else 1
    ∃ u, exec (.ccBranchResolve site) s = .next u ∧ (∃ tiles counters, u = { s with tiles := tiles, counters := counters }) ∧
      (∀ k, k ≠ site → tileOf u k = tileOf s k) ∧
      tileOf u site = ageSamples (if c.guess = c.target then { t with spec := none }
        else { t with spec := none, ccRegs := c.regs, ccPc := c.target }) none n ∧
      (site < 384 → counter u 1 site 0 = satAdd (counter s 1 site 0) (BitVec.ofNat 64 (min n (2 ^ 64 - 1))))))

/-- R100, R101, R111: G.START starts each group of its mask below GROUPS, at RS1, with 32 threads at call depth 0 and their first
registers; G.WAIT retires once no group that RS1 names runs, G.STAT gives the mask of running groups, TCFG sets whether groups
may run ahead, and SYS NOP only retires. -/
def Obligations.GroupStarts : Prop :=
  (∀ s site l pc s1 f, CcReady false s site l pc s1 →
    let x := fun r : BitVec 6 => ccReg (tileOf s1 site) r.toNat
    let running := fun g => (groupOf (tileOf s1 site) g).running
    (f.fn = 0x01 → f.rd = 0 → f.rs2 = 0 → (x f.rs1).poison = false →
      ((∀ g, g < 64 → (x f.rs1).val.getLsbD g = true → running g = false) →
        ∃ t, exec (.gWait site f) s = .next t ∧ CcRetired s1 t l site 0 T64.zero (pc + 4)) ∧
      ((∃ g, g < 64 ∧ (x f.rs1).val.getLsbD g = true ∧ running g = true) → exec (.gWait site f) s = .next s1)) ∧
    (f.fn = 0x02 → f.rs1 = 0 → f.rs2 = 0 → ∃ t v, exec (.gStat site f) s = .next t ∧
      CcRetired s1 t l site f.rd.toNat { val := v, poison := false } (pc + 4) ∧ ∀ g, g < 64 → v.getLsbD g = running g) ∧
    (f.fn = 0x03 → f.rd = 0 → f.rs2 = 0 → (x f.rs1).val.toNat < 2 → ∃ t, exec (.tcfg site f) s = .next t ∧
      CcRetired (updTile s1 site fun t => { t with runAheadOn := (x f.rs1).val.getLsbD 0 }) t l site 0 T64.zero (pc + 4)) ∧
    (f.fn = 0x00 → f.rd = 0 → f.rs1 = 0 → f.rs2 = 0 → ∃ t, exec (.sysNop site f) s = .next t ∧
      CcRetired s1 t l site 0 T64.zero (pc + 4))) ∧
  (∀ s site l pc s1 f, CcReady false s site l pc s1 → f.fn = 0x00 →
    let m := ccReg (tileOf s1 site) f.rd.toNat
    let e := ccReg (tileOf s1 site) f.rs1.toNat
    let a := ccReg (tileOf s1 site) f.rs2.toNat
    let old := fun g => groupOf (tileOf s1 site) g
    m.poison = false → e.poison = false → e.val.toNat % 8 = 0 → (tileOf s1 site).vec.queue = [] →
    (tileOf s1 site).startLeft = none → (∀ g, m.val.getLsbD g = true → g < l.groups → (old g).running = false) →
    ∃ t, exec (.gStart site f) s = .next t ∧ (tileOf t site).ccPc = pc + 4 ∧ (tileOf t site).ccRegs = (tileOf s1 site).ccRegs ∧
      (∀ k, k ≠ site → tileOf t k = tileOf s1 k) ∧ t.mem = s1.mem ∧ t.lines = s1.lines ∧
      ∀ g, let x := groupOf (tileOf t site) g
        if m.val.getLsbD g = true ∧ g < l.groups then
          x.running = true ∧ x.exited = 0 ∧ x.barWait = [] ∧ x.region = none ∧ x.tokens = (old g).tokens ∧
          ∀ i, i < 32 → lanePc x i = e.val ∧ callDepth x i = 0 ∧ ∀ r, r < 255 → treg x i r =
            if l.regs ≤ r then T32.zero
            else if r = 0 then { val := BitVec.ofNat 32 i, poison := false }
            else if r = 1 then { val := BitVec.ofNat 32 g, poison := false }
            else if r = 2 then { val := a.val.extractLsb' 0 32, poison := a.poison }
            else if r = 3 then { val := a.val.extractLsb' 32 32, poison := a.poison }
            else T32.zero
        else x = { old g with parked := x.parked })

/-! ### Thread groups -/

/-- R104 to R108, R112, R216: an instruction of the integer ALU, of the integer ALU with an immediate, of the float ALU or a
conversion writes its result in every lane of the leading set, poisoned where a source is, and nothing else. -/
def Obligations.ThreadArithmetic : Prop :=
  ∀ s site g l lanes pc s1, ThReady s site g l lanes pc s1 →
    let x := groupOf (tileOf s1 site) g
    let use := fun (r : BitVec 8) n => ({ r := r.toNat, n := n } : RegUse)
    let free := ThFields s site g l lanes
    let does := fun i (dst : BitVec 8) w (sr : Bool) (v : Nat → Nat × Bool) => ∃ t y, exec i s = .next t ∧
      ThRetired s1 t l site g lanes y (fun _ => pc + 8) ∧
      y = { x with regs := y.regs, srCount := if sr then y.srCount else x.srCount } ∧
      (∀ i k, k < 255 → ¬ (i ∈ lanes ∧ dst.toNat ≤ k ∧ k < dst.toNat + w / 32) → treg y i k = treg x i k) ∧
      (∀ i, NMap.getD y.srCount i 0 = NMap.getD x.srCount i 0 + if sr ∧ i ∈ lanes then 1 else 0) ∧
      (dst ≠ 255 → ∀ i ∈ lanes, getSrc y i dst.toNat w = v i)
    let arg := fun (n : Nat) (k : Nat) (r : BitVec 8) w i => if k ≤ n then getSrc x i r.toNat w else (0, false)
    (∀ f : TrF, f.rsv = 0 → f.mod = 0 → f.fn.toNat % 128 ≤ 0x1E →
      let w := if f.fn.toNat < 128 then 32 else 64
      let n := intArity (f.fn.toNat % 128)
      let us := [use f.src1 (w / 32)] ++ (if 2 ≤ n then [use f.src2 (w / 32)] else []) ++ if n = 3 then [use f.src3 (w / 32)] else []
      free (use f.dst (w / 32) :: us) ((if 2 ≤ n then [] else [f.src2.toNat]) ++ if n = 3 then [] else [f.src3.toNat]) (some (use f.dst (w / 32))) →
      does (.integerAlu site g f) f.dst w false fun i =>
        let a := arg n 1 f.src1 w i
        let b := arg n 2 f.src2 w i
        let c := arg n 3 f.src3 w i
        ((intFn w (f.fn.toNat % 128) a.1 b.1 c.1).getD 0, a.2 || b.2 || c.2)) ∧
    (∀ f : TiF, f.fn.toNat % 128 ≤ 0x1D → f.fn.toNat % 128 ≠ 0x05 →
      let w := if f.fn.toNat < 128 then 32 else 64
      free [use f.dst (w / 32), use f.src1 (w / 32)] [] (some (use f.dst (w / 32))) →
      does (.integerAluImmediate site g f) f.dst w false fun i =>
        let a := getSrc x i f.src1.toNat w
        ((intFn w (f.fn.toNat % 128) a.1 (f.imm.signExtend w).toNat 0).getD 0, a.2)) ∧
    (∀ f : TrF, f.rsv = 0 → ∀ v : Nat → Word,
      (if f.fn.toNat ≤ 0x05 ∨ (0x0A ≤ f.fn.toNat ∧ f.fn.toNat ≤ 0x0C) then f.mod.toNat < 4 else f.mod = 0) →
      let n := floatArity f.fn.toNat
      let us := [use f.src1 1] ++ (if 2 ≤ n then [use f.src2 1] else []) ++ if n = 3 then [use f.src3 1] else []
      free (use f.dst 1 :: us) ((if 2 ≤ n then [] else [f.src2.toNat]) ++ if n = 3 then [] else [f.src3.toNat]) (some (use f.dst 1)) →
      let arg := fun k (r : BitVec 8) i => if k ≤ n then treg x i r.toNat else T32.zero
      (∀ i, floatFn f.fn.toNat (RMode.ofCode f.mod.toNat) (arg 1 f.src1 i).val (arg 2 f.src2 i).val (arg 3 f.src3 i).val = some (v i)) →
      does (.floatAlu site g f) f.dst 32 false fun i =>
        ((v i).toNat, (arg 1 f.src1 i).poison || (arg 2 f.src2 i).poison || (arg 3 f.src3 i).poison)) ∧
    (∀ (f : TrF) src dst, f.rsv = 0 → f.mod.toNat % 8 ≤ 4 → src ≠ dst → CFmt.ofCode (f.fn.toNat / 16) = some src →
      CFmt.ofCode (f.fn.toNat % 16) = some dst →
      free [use f.dst 1, use f.src1 1] [f.src2.toNat, f.src3.toNat] (some (use f.dst 1)) →
      does (.conversion site g f) f.dst 32 (f.mod.toNat % 8 == 4) fun i =>
        let count := BitVec.ofNat 64 (NMap.getD x.srCount i 0)
        let mode := if f.mod.toNat % 8 = 4 then .sr (srDraw (ctxOf s1 l.ctx).seed (srKey 3 (tileOf s1 site).index g i 0) count)
          else RMode.ofCode (f.mod.toNat % 8)
        (convert src dst mode (8 ≤ f.mod.toNat) ((treg x i f.src1.toNat).val.toNat % 2 ^ src.bits), (treg x i f.src1.toNat).poison))

/-- R104: a thread instruction with a reserved encoding or a register field that is not legal for REGS faults
ILLEGAL_INSTRUCTION, class F, naming the leading set, and does nothing else; shown for each class of R105 whose
instructions run in the thread unit. -/
def Obligations.ThreadIllegal : Prop :=
  ∀ s site g l lanes pc s1, ThReady s site g l lanes pc s1 →
    let faults := fun i => exec i s = .next (tileFault s1 l site 2 illegalInstruction pc pc 0 g (maskOf lanes))
    let bad := fun (r : BitVec 8) n => (r.toNat ≠ 255 ∧ (l.regs < r.toNat + n ∨ r.toNat % n ≠ 0))
    (∀ f : TrF, f.rsv ≠ 0 ∨ f.mod ≠ 0 ∨ 0x1E < f.fn.toNat % 128 ∨ bad f.dst (if f.fn.toNat < 128 then 1 else 2) ∨
      bad f.src1 (if f.fn.toNat < 128 then 1 else 2) → faults (.integerAlu site g f)) ∧
    (∀ f : TiF, 0x1D < f.fn.toNat % 128 ∨ f.fn.toNat % 128 = 0x05 → faults (.integerAluImmediate site g f)) ∧
    (∀ f : TrF, f.rsv ≠ 0 ∨ 0x13 < f.fn.toNat ∨ 4 ≤ f.mod.toNat ∨ bad f.dst 1 → faults (.floatAlu site g f)) ∧
    (∀ f : TrF, f.rsv ≠ 0 ∨ 5 ≤ f.mod.toNat % 8 ∨ f.fn.toNat / 16 = f.fn.toNat % 16 ∨ f.src2 ≠ 255 ∨ f.src3 ≠ 255 →
      faults (.conversion site g f)) ∧
    (∀ f : TiF, 6 < f.fn.toNat ∨ bad f.src1 2 → faults (.ld site g f)) ∧
    (∀ f : TiF, 6 < f.fn.toNat ∨ f.fn = 1 ∨ f.fn = 3 ∨ bad f.src1 2 → faults (.st site g f)) ∧
    (∀ f : TrF, f.rsv ≠ 0 ∨ f.mod ≠ 0 ∨ f.fn.toNat = 128 + 0x10 ∨ (f.src3 ≠ 255 ∧ f.fn.toNat % 128 ≠ 9) → faults (.atom site g f)) ∧
    (∀ f : TiF, f.fn = 4 → f.imm ≠ 0 → faults (.callr site g f)) ∧
    (∀ f : TiF, f.fn = 5 → 4 < f.imm.toNat → faults (.sreg site g f)) ∧
    (∀ f : TiF, f.fn = 1 → 16 ≤ f.imm.toNat → faults (.barT site g f))

/-- R109, R289: LD loads in each lane of the leading set, one after another, from the SRC1 pair + IMM while the L1 has a miss
register for each lane that misses, and LDS from the tile store; narrow values are extended, and an LDS at or beyond the allocation reads zero and is counted. -/
def Obligations.ThreadLoads : Prop :=
  ∀ s site g l lanes pc s1 f, ThReady s site g l lanes pc s1 → f.fn.toNat ≤ 6 →
    let x := groupOf (tileOf s1 site) g
    let n := (sizeCode f.fn.toNat).1
    let regs := (n + 3) / 4
    let use := fun (r : BitVec 8) n => ({ r := r.toNat, n := n } : RegUse)
    let value := fun (bs : List Byte) => if n = 1 ∧ f.fn = 1#8 ∨ n = 2 ∧ f.fn = 3#8
      then leBytes (BitVec.ofInt 32 (toSigned (8 * n) (leNat bs))).toNat 4 else leBytes (leNat bs) (4 * regs)
    let writes := fun y => (∀ i k, k < 255 → ¬ (i ∈ lanes ∧ f.dst.toNat ≤ k ∧ k < f.dst.toNat + regs) → treg y i k = treg x i k)
    (ThFields s site g l lanes [use f.dst regs, use f.src1 2] [] (some (use f.dst regs)) →
      ∀ pa cp at_ : Nat → Nat,
      let va := fun i => (tpair x i f.src1.toNat).val + f.imm.signExtend 64
      let σ := after (fun s i => match tileLoad s site l.ctx (va i) n with
        | (u, .ok (_, true)) => updTile u site fun t => takeMiss t g ((va i).toNat / 64)
        | (u, _) => u) s1 lanes
      (∀ i ∈ lanes, (tpair x i f.src1.toNat).poison = false ∧ (va i).toNat % n = 0) →
      (∀ k i, lanes[k]? = some i → Reaches (σ k) l.ctx .read (va i) (pa i) (cp i) (at_ i) ∧ missFull (tileOf (σ k) site) = false) →
      ∃ t y, exec (.ld site g f) s = .next t ∧ ThRetired (σ lanes.length) t l site g lanes y (fun _ => pc + 8) ∧
        y = { x with regs := y.regs, missPend := y.missPend } ∧ writes y ∧
        ∀ k i, lanes[k]? = some i → TileMemoryOnly site (σ k) (σ (k + 1)) ∧ BytesKept (σ k) (σ (k + 1)) 0 0 (at_ i) ∧
          ∃ bs p, Loaded (σ k) (σ (k + 1)) site (pa i) (cp i) n bs p ∧ (f.dst ≠ 255 → tbytes y i f.dst.toNat (4 * regs) = (value bs, p))) ∧
    (ThFields s site g l lanes [use f.dst regs, use f.src1 1] [] (some (use f.dst regs)) →
      let off := fun i => ((treg x i f.src1.toNat).val + f.imm).toNat
      (∀ i ∈ lanes, (treg x i f.src1.toNat).poison = false ∧ off i % n = 0) →
      ∃ t y s2, exec (.lds site g f) s = .next t ∧ ThRetired s2 t l site g lanes y (fun _ => pc + 8) ∧
        s2 = bump s1 1 site 10 ((lanes.filter fun i => l.store * 1024 < off i + n).length) ∧
        y = { x with regs := y.regs } ∧ writes y ∧
        ∀ i ∈ lanes, f.dst ≠ 255 → tbytes y i f.dst.toNat (4 * regs) =
          if off i + n ≤ l.store * 1024 then
            (value ((List.range n).map fun j => storeByte (tileOf s1 site) (off i + j)),
              NSet.has (tileOf s1 site).storePoison (off i / 64))
          else (leBytes 0 (4 * regs), false))

/-- R109, R289: ST stores in each lane of the leading set, one after another, the low bytes of DST at the SRC1 pair + IMM,
lowest byte first, and STS in the tile store, where a store at or beyond the allocation is discarded and counted. -/
def Obligations.ThreadStores : Prop :=
  ∀ s site g l lanes pc s1 f, ThReady s site g l lanes pc s1 → f.fn.toNat ≤ 6 → f.fn ≠ 1 → f.fn ≠ 3 →
    let x := groupOf (tileOf s1 site) g
    let n := (sizeCode f.fn.toNat).1
    let regs := (n + 3) / 4
    let use := fun (r : BitVec 8) n => ({ r := r.toNat, n := n } : RegUse)
    let data := fun i => tbytes x i f.dst.toNat n
    (ThFields s site g l lanes [use f.dst regs, use f.src1 2] [] none →
      ∀ pa cp at_ : Nat → Nat,
      let va := fun i => (tpair x i f.src1.toNat).val + f.imm.signExtend 64
      let σ := after (fun s i => (tileStore s site (some (g * 32 + i)) l.ctx (va i) (data i).1 (data i).2).1) s1 lanes
      (∀ i ∈ lanes, (tpair x i f.src1.toNat).poison = false ∧ (va i).toNat % n = 0) →
      (∀ k i, lanes[k]? = some i → Reaches (σ k) l.ctx .write (va i) (pa i) (cp i) (at_ i) ∧ frozenSector (σ k) (pa i / 64) = false) →
      ∃ t, exec (.st site g f) s = .next t ∧ ThRetired (σ lanes.length) t l site g lanes x (fun _ => pc + 8) ∧
        ∀ k i, lanes[k]? = some i → TileMemoryOnly site (σ k) (σ (k + 1)) ∧ BytesKept (σ k) (σ (k + 1)) (pa i) n (at_ i) ∧
          cohBytes (σ (k + 1)) (pa i) n = (data i).1) ∧
    (ThFields s site g l lanes [use f.dst regs, use f.src1 1] [] none →
      let off := fun i => ((treg x i f.src1.toNat).val + f.imm).toNat
      (∀ i ∈ lanes, (treg x i f.src1.toNat).poison = false ∧ off i % n = 0) →
      ∃ t s2, exec (.sts site g f) s = .next t ∧ ThRetired s2 t l site g lanes x (fun _ => pc + 8) ∧
        (∃ tiles counters, s2 = { s1 with tiles := tiles, counters := counters }) ∧ (∀ k, k ≠ site → tileOf s2 k = tileOf s1 k) ∧
        tileOf s2 site = { tileOf s1 site with store := (tileOf s2 site).store, storePoison := (tileOf s2 site).storePoison } ∧
        (∀ k, NMap.getD s2.counters k 0 = NMap.getD (bump s1 1 site 10
          (lanes.filter fun i => l.store * 1024 < off i + n).length).counters k 0) ∧
        ∀ a, storeByte (tileOf s2 site) a =
          match lanes.reverse.find? fun i => decide (off i + n ≤ l.store * 1024 ∧ off i ≤ a ∧ a < off i + n) with
          | some i => ((data i).1[a - off i]?).getD 0
          | none => storeByte (tileOf s1 site) a)

/-- R110, R112, R115, R117, R120: branches send each lane of the leading set to its target, the calls linking PC + 8 one call deeper, RET one
call back; SREG gives each lane the value that IMM selects and NOP only retires; EXIT ends the threads of the leading set, and a
group with no thread left stops running. -/
def Obligations.ThreadControl : Prop :=
  (∀ s site g l lanes pc s1 f, ThReady s site g l lanes pc s1 →
    let x := groupOf (tileOf s1 site) g
    let fields := ThFields s site g l lanes
    let use := fun (r : BitVec 8) n => ({ r := r.toNat, n := n } : RegUse)
    let rel := pc + f.imm.signExtend 64
    let reg := fun i => (tpair x i f.src1.toNat).val
    let clean := ∀ i ∈ lanes, (tpair x i f.src1.toNat).poison = false
    let depth := fun i (d : Nat → Nat) dest => ∃ t y, exec i s = .next t ∧ ThRetired s1 t l site g lanes y dest ∧
      y = { x with regs := y.regs, depths := y.depths } ∧ (∀ j, callDepth y j = if j ∈ lanes then d (callDepth x j) else callDepth x j) ∧
      (∀ j k, k < 255 → ¬ (j ∈ lanes ∧ f.dst.toNat ≤ k ∧ k < f.dst.toNat + 2) → treg y j k = treg x j k) ∧
      (f.dst ≠ 255 → ∀ j ∈ lanes, tpair y j f.dst.toNat = { val := pc + 8, poison := false })
    let goes := fun i dest => ∃ t, exec i s = .next t ∧ ThRetired s1 t l site g lanes x dest
    (f.fn = 0 → fields [] [f.dst.toNat, f.src1.toNat] none → rel.toNat % 8 = 0 → goes (.bra site g f) fun _ => rel) ∧
    (f.fn = 1 → fields [use f.src1 1] [f.dst.toNat] none → rel.toNat % 8 = 0 →
      (∀ i ∈ lanes, (treg x i f.src1.toNat).poison = false) →
      goes (.brz site g f) fun i => if (treg x i f.src1.toNat).val = 0 then rel else pc + 8) ∧
    (f.fn = 2 → fields [use f.src1 1] [f.dst.toNat] none → rel.toNat % 8 = 0 →
      (∀ i ∈ lanes, (treg x i f.src1.toNat).poison = false) →
      goes (.brnz site g f) fun i => if (treg x i f.src1.toNat).val = 0 then pc + 8 else rel) ∧
    (f.fn = 3 → fields [use f.dst 2] [f.src1.toNat] (some (use f.dst 2)) → rel.toNat % 8 = 0 →
      depth (.call site g f) (· + 1) fun _ => rel) ∧
    (f.fn = 4 → f.imm = 0 → fields [use f.dst 2, use f.src1 2] [] (some (use f.dst 2)) → clean → (∀ i ∈ lanes, (reg i).toNat % 8 = 0) →
      depth (.callr site g f) (· + 1) reg) ∧
    (f.fn = 5 → fields [use f.src1 2] [f.dst.toNat] none → clean → (∀ i ∈ lanes, (reg i).toNat % 8 = 0) → goes (.jmp site g f) reg) ∧
    (f.fn = 6 → fields [use f.src1 2] [f.dst.toNat] none → clean → (∀ i ∈ lanes, (reg i).toNat % 8 = 0) →
      depth (.ret site g f) (· - 1) reg) ∧
    (f.fn = 0 → fields [] [f.dst.toNat, f.src1.toNat] none → rel.toNat % 8 ≠ 0 →
      exec (.bra site g f) s = .next (tileFault s1 l site 2 misaligned (rel &&& 0xFFFFFFFFFFFFF#64) pc 0 g (maskOf lanes)))) ∧
  (∀ s site g l lanes pc s1 f, ThReady s site g l lanes pc s1 →
    let x := groupOf (tileOf s1 site) g
    let u := tileOf s1 site
    let value := fun i => if f.imm = 0 then i else if f.imm = 1 then g else if f.imm = 2 then u.index
      else if f.imm = 3 then l.sites.length else site / 192 * 256 + u.logical
    (f.fn = 0 → ThFields s site g l lanes [] [f.dst.toNat, f.src1.toNat] none →
      ∃ t, exec (.threadNop site g f) s = .next t ∧ ThRetired s1 t l site g lanes x fun _ => pc + 8) ∧
    (f.fn = 5 → f.imm.toNat ≤ 4 →
      ThFields s site g l lanes [{ r := f.dst.toNat, n := 1 }] [f.src1.toNat] (some { r := f.dst.toNat, n := 1 }) →
      ∃ t y, exec (.sreg site g f) s = .next t ∧ ThRetired s1 t l site g lanes y (fun _ => pc + 8) ∧
        OnlyRegs x y lanes f.dst.toNat 1 ∧
        (f.dst ≠ 255 → ∀ i ∈ lanes, treg y i f.dst.toNat = { val := BitVec.ofNat 32 (value i), poison := false }))) ∧
  (∀ s site g l lanes pc s1 f, ThReady s site g l lanes pc s1 → f.fn = 1 → (tileOf s1 site).bars = [] →
    (∀ k, (groupOf (tileOf s1 site) k).gphase = none ∧ (groupOf (tileOf s1 site) k).barWait = []) →
    ThFields s site g l lanes [] [f.dst.toNat, f.src1.toNat] none →
    let x := groupOf (tileOf s1 site) g
    ∃ t, exec (.exit site g f) s = .next t ∧ (∃ tiles counters, t = { s1 with tiles := tiles, counters := counters }) ∧
      (∀ k, k ≠ site → tileOf t k = tileOf s1 k) ∧ (∀ k, k ≠ g → groupOf (tileOf t site) k = groupOf (tileOf s1 site) k) ∧
      let y := groupOf (tileOf t site) g
      y.exited = x.exited ||| maskOf lanes ∧ y.regs = x.regs ∧ y.tokens = x.tokens ∧
      if x.exited ||| maskOf lanes = 0xFFFFFFFF then
        y.running = false ∧ y.region = none ∧ (tileOf t site).active.contains g = false ∧ (tileOf t site).eligible.contains g = false
      else y.running = true)

/-- R109, R299, R303: ATOM gives each lane the old value at its address and stores FN of it and the operands there, in
ascending lane order, and the tile's L1 gives up its copy; without a destination, ADD to OR and FADD are reductions, which
do the same but for the old value; PREF never faults and changes no byte of memory. -/
def Obligations.ThreadAtomics : Prop :=
  ∀ s site g l lanes pc s1, ThReady s site g l lanes pc s1 →
    let x := groupOf (tileOf s1 site) g
    let use := fun (r : BitVec 8) n => ({ r := r.toNat, n := n } : RegUse)
    (∀ (f : TrF) (pa cp at_ : Nat → Nat), f.rsv = 0 → f.mod = 0 →
      let fn := f.fn.toNat % 128
      let w := if f.fn.toNat < 128 then 32 else 64
      let n := w / 8
      let us := [use f.src1 2, use f.src2 (w / 32)] ++ if fn = 9 then [use f.src3 (w / 32)] else []
      (fn ≤ 9 ∨ (fn = 0x10 ∧ w = 32)) → (f.dst ≠ 255 ∨ fn = 7 ∨ fn = 8 ∨ fn = 9) →
      ThFields s site g l lanes (use f.dst (w / 32) :: us) (if fn = 9 then [] else [f.src3.toNat]) (some (use f.dst (w / 32))) →
      let va := fun i => (tpair x i f.src1.toNat).val
      let v := fun i => getSrc x i f.src2.toNat w
      let c := fun i => if fn = 9 then getSrc x i f.src3.toNat w else (0, false)
      let σ := after (fun s i => l1Drop (atomicAt s l.ctx (va i) n fn (v i).1 (c i).1 ((v i).2 || (c i).2)).1 site (pa i)) s1 lanes
      (∀ i ∈ lanes, (tpair x i f.src1.toNat).poison = false ∧ (va i).toNat % n = 0) →
      (∀ k i, lanes[k]? = some i → Reaches (σ k) l.ctx .write (va i) (pa i) (cp i) (at_ i) ∧ frozenSector (σ k) (pa i / 64) = false) →
      ∃ t y, exec (.atom site g f) s = .next t ∧ ThRetired (σ lanes.length) t l site g lanes y (fun _ => pc + 8) ∧
        OnlyRegs x y lanes f.dst.toNat (w / 32) ∧
        ∀ k i, lanes[k]? = some i → ∃ s2 old, TileMemoryOnly site (σ k) (σ (k + 1)) ∧
          MemoryOnly (σ k) s2 ∧ BytesKept (σ k) s2 0 0 (at_ i) ∧ old = leNat (cohBytes s2 (pa i) n) ∧
          BytesKept s2 (σ (k + 1)) (pa i) n (at_ i) ∧
          (∃ new, atomFn w fn old (v i).1 (c i).1 = some new ∧ cohBytes (σ (k + 1)) (pa i) n = leBytes new n) ∧
          NMap.find (tileOf (σ (k + 1)) site).l1 (pa i / 64) = none ∧
          (f.dst ≠ 255 → getSrc y i f.dst.toNat w = (old, cohPoison s2 (pa i)))) ∧
    (∀ (f : TrF) (pa cp at_ : Nat → Nat), f.rsv = 0 → f.mod = 0 → f.dst = 255 → f.src3 = 255 →
      let fn := f.fn.toNat % 128
      let w := if f.fn.toNat < 128 then 32 else 64
      let n := w / 8
      (fn ≤ 6 ∨ (fn = 0x10 ∧ w = 32)) →
      ThFields s site g l lanes [use f.dst (w / 32), use f.src1 2, use f.src2 (w / 32)] [f.src3.toNat] (some (use f.dst (w / 32))) →
      let va := fun i => (tpair x i f.src1.toNat).val
      let v := fun i => (getSrc x i f.src2.toNat w).1
      let σ := after (fun s i => l1Drop (rmwTarget s l.ctx (va i)).1 site (pa i)) s1 lanes
      (∀ i ∈ lanes, (tpair x i f.src1.toNat).poison = false ∧ (va i).toNat % n = 0 ∧ orderedAt s1 (pa i) = none) →
      (∀ k i, lanes[k]? = some i → Reaches (σ k) l.ctx .write (va i) (pa i) (cp i) (at_ i) ∧ frozenSector (σ k) (pa i / 64) = false) →
      ∃ t s2, exec (.atom site g f) s = .next t ∧ ThRetired s2 t l site g lanes x (fun _ => pc + 8) ∧ TileMemoryOnly site s1 s2 ∧
        (∀ i ∈ lanes, leNat (cohBytes s2 (pa i) n) = (lanes.filter fun j => pa j == pa i).foldl
          (fun old j => (atomFn w fn old (v j) 0).getD 0) (leNat (cohBytes s1 (pa i) n))) ∧
        ∀ a, inDriverPool a = false → (∀ i ∈ lanes, a < pa i ∨ pa i + n ≤ a) → cohByte s2 a = cohByte s1 a) ∧
    (∀ f : TiF, f.fn.toNat ≤ 1 →
      ThFields s site g l lanes [use f.src1 2] [f.dst.toNat] none →
      ∃ t s2, exec (.pref site g f) s = .next t ∧ ThRetired s2 t l site g lanes x (fun _ => pc + 8) ∧
        (∃ chips, TileMemoryOnly site { s1 with chips := chips } s2) ∧ DataKept s1 s2)

/-- R98, R100, R292, R370: MFENCE.T, MFENCE.M and MFENCE.F of either ISA retire once the issuer's messages are performed, at
module scope its waiting reductions and its writes that wait for the companion link too, at fabric scope its remote messages
too; the wider two invalidate the tile's L1. -/
def Obligations.Fences : Prop :=
  let drained := fun (s : State) site (scope : Nat) (who : List (Option Nat)) =>
    (∀ m ∈ (tileOf s site).msgs, m.issuer ∉ who) ∧ (1 ≤ scope → ∀ i ∈ who,
        (∀ r ∈ redsLeft s site, issuedBy r i = false) ∧ ∀ h ∈ s.sovel.held, h.site ≠ some (site, i)) ∧
      (scope = 2 → ∀ e ∈ s.remotes, ∀ i ∈ who, e.2.what ≠ .msgSend site i ∧ ∀ reg, e.2.what ≠ .msgGet site i reg)
  let fenced := fun (s : State) site (scope : Nat) => if scope = 0 then s else updTile s site fun t => { t with l1 := [] }
  (∀ s site l pc s1 f, CcReady false s site l pc s1 → (tileOf s1 site).vec.queue = [] → f.rd = 0 → f.rs1 = 0 → f.rs2 = 0 →
    let done := fun i scope => drained s1 site scope [none] →
      ∃ t, exec i s = .next t ∧ CcRetired (fenced s1 site scope) t l site 0 T64.zero (pc + 4)
    (f.fn = 2 → done (.mfenceT site (.cc f)) 0) ∧ (f.fn = 3 → done (.mfenceM site (.cc f)) 1) ∧
    (f.fn = 4 → done (.mfenceF site (.cc f)) 2)) ∧
  (∀ s site g l lanes pc s1 f, ThReady s site g l lanes pc s1 → ThFields s site g l lanes [] [f.dst.toNat, f.src1.toNat] none →
    let done := fun i scope => drained s1 site scope (lanes.map fun k => some (g * 32 + k)) →
      ∃ t, exec i s = .next t ∧ ThRetired (fenced s1 site scope) t l site g lanes (groupOf (tileOf s1 site) g) fun _ => pc + 8
    (f.fn = 2 → done (.mfenceT site (.th g f)) 0) ∧ (f.fn = 3 → done (.mfenceM site (.th g f)) 1) ∧
    (f.fn = 4 → done (.mfenceF site (.th g f)) 2))

/-! ### Barriers, tokens, stalls and run-ahead -/

/-- R119 to R122, R125: a barrier of every thread of the expected set completes its phase; of a part of it, BAR.G and BAR.T make it wait and
BAR.T.ARV does not; a mask without the group faults BARRIER_DIVERGENCE. TOK.WAIT retires once no named token is pending, and
TOK.TEST says whether. -/
def Obligations.BarriersAndTokens : Prop :=
  (∀ s site g l lanes pc s1 f, ThReady s site g l lanes pc s1 → g < 64 → (tileOf s1 site).bars = [] →
    (∀ k, (groupOf (tileOf s1 site) k).gphase = none ∧ (groupOf (tileOf s1 site) k).barWait = []) →
    let x := groupOf (tileOf s1 site) g
    let mask := (tpair x (lanes.headD 0) f.src1.toNat).val
    let goes := fun (t : State) => ∀ i ∈ lanes, lanePc (groupOf (tileOf t site) g) i = pc + 8
    let waits := fun (t : State) bar => ∀ i ∈ lanes, ∃ w, NMap.find (groupOf (tileOf t site) g).barWait i = some w ∧
      w.bar = bar ∧ w.pc = pc
    let open_ := fun (t : State) => t.run = s1.run ∧ t.ctxs = s1.ctxs ∧ t.mem = s1.mem ∧ (groupOf (tileOf t site) g).regs = x.regs
    (f.fn = 0 → f.imm = 0 → ThFields s site g l lanes [] [f.dst.toNat, f.src1.toNat] none →
      ∃ t, exec (.barG site g f) s = .next t ∧ open_ t ∧ goes t ∧
        if lanes = liveLanes x then (groupOf (tileOf t site) g).gphase = none ∧ (groupOf (tileOf t site) g).barWait = []
        else waits t none ∧ (groupOf (tileOf t site) g).gphase = some { pc := pc, arrived := maskOf lanes }) ∧
    (f.fn = 1 ∨ f.fn = 2 → f.imm.toNat < 16 → ThFields s site g l lanes [{ r := f.src1.toNat, n := 2 }] [f.dst.toNat] none →
      (∀ i ∈ lanes, tpair x i f.src1.toNat = { val := mask, poison := false }) →
      let i := if f.fn = 1 then Instr.barT site g f else Instr.barTArv site g f
      let alone := ∀ k, k < 64 → mask.getLsbD k = true → k ≠ g → (groupOf (tileOf s1 site) k).running = false
      (mask.getLsbD g = true → alone → ∃ t, exec i s = .next t ∧ open_ t ∧ goes t ∧
        if lanes = liveLanes x then (tileOf t site).bars = [] ∧ (groupOf (tileOf t site) g).barWait = []
        else (∃ p, NMap.find (tileOf t site).bars f.imm.toNat = some p ∧ p.mask = mask ∧ arrivedOf p.arrived g = maskOf lanes) ∧
          if f.fn = 1 then waits t (some f.imm.toNat) else (groupOf (tileOf t site) g).barWait = []) ∧
      (mask.getLsbD g = false → exec i s = .next (tileFault s1 l site 2 barrierDivergence (pc &&& 0xFFFFFFFFFFFFF#64) pc mask g (maskOf lanes))))) ∧
  (∀ s site g l lanes pc s1 f, ThReady s site g l lanes pc s1 → f.imm.toNat < 256 →
    let x := groupOf (tileOf s1 site) g
    let clear := ∀ k, k < 8 → f.imm.getLsbD k = true → x.tokens.getLsbD k = false
    (f.fn = 3 → ThFields s site g l lanes [] [f.dst.toNat, f.src1.toNat] none →
      (clear → ∃ t, exec (.tokWait site g f) s = .next t ∧ ThRetired s1 t l site g lanes x fun _ => pc + 8) ∧
      (¬ clear → exec (.tokWait site g f) s = .next (updTile s site fun t => park t g (.tokens f.imm.toNat)))) ∧
    (f.fn = 4 → ThFields s site g l lanes [{ r := f.dst.toNat, n := 1 }] [f.src1.toNat] (some { r := f.dst.toNat, n := 1 }) →
      ∃ t y, exec (.tokTest site g f) s = .next t ∧ ThRetired s1 t l site g lanes y (fun _ => pc + 8) ∧
        OnlyRegs x y lanes f.dst.toNat 1 ∧
        (f.dst ≠ 255 → ∀ i ∈ lanes, (clear → treg y i f.dst.toNat = { val := 1, poison := false }) ∧
          (¬ clear → treg y i f.dst.toNat = { val := 0, poison := false }))))

/-- R124: GROUP_STALLED_SENTINEL faults a group whose count has reached 2^24, at the instruction where its earliest-arrived
thread waits, and does nothing before. R128, R130: entering run-ahead changes no register of the group and no byte of
memory; L1_MISS_RETURN ends it and makes the loaded registers ready, and a group that waited for them becomes eligible. -/
def Obligations.StallsAndRunAhead : Prop :=
  (∀ s site g l, s.run = .up → runningLaunch s site = some l →
    let x := groupOf (tileOf s site) g
    (x.sentinel < 2 ^ 24 → exec (.groupStalledSentinel site g) s = .next s) ∧
    (∀ i w, 2 ^ 24 ≤ x.sentinel → NMap.find x.barWait i = some w →
      (∀ j v, (j, v) ∈ x.barWait → v = w ∨ w.order < v.order) →
      exec (.groupStalledSentinel site g) s = .next (tileFault s l site 2 groupStalled (w.pc &&& 0xFFFFFFFFFFFFF#64) w.pc 0 g
        (maskOf (x.barWait.map (·.1)))))) ∧
  (∀ s site g, s.run = .up → noFaults s = true → ∃ t, exec (.runAheadEnter site g) s = .next t ∧ DataKept s t ∧
    t.ctxs = s.ctxs ∧ (∀ k, k ≠ site → tileOf t k = tileOf s k) ∧
    tileOf t site = { tileOf s site with
      l1 := (tileOf t site).l1, l1Miss := (tileOf t site).l1Miss, groups := (tileOf t site).groups } ∧
    ∀ k, groupOf (tileOf t site) k = { groupOf (tileOf s site) k with runAhead := (groupOf (tileOf t site) k).runAhead }) ∧
  (∀ s site g, s.run = .up → s.remotes = [] → ∃ t, exec (.l1MissReturn site g) s = .next t ∧
    let x := groupOf (tileOf s site) g
    let y := groupOf (tileOf t site) g
    y.missPend = [] ∧ y.regs = x.regs ∧ (x.missPend ≠ [] → y.runAhead = false) ∧
    (x.missPend ≠ [] → x.running = true → x.parked = true → g < 64 →
      (∃ uses dst, x.waitsOn = some (.regs uses dst) ∧ regBusy { x with missPend := [] } (leadingSet x) uses dst = false) →
      (tileOf t site).active.contains g = true ∨ (tileOf t site).eligible.contains g = true))

/-! ### The matrix array -/

/-- R126, R141 to R144, R148: a legal MMA, MDRAIN, MZERO or MLOAD of the issuer (the lowest lane of the leading set) whose token
is free joins the array where it has room, with the issuer's operands; its token becomes pending, and the group goes on. -/
def Obligations.MatrixIssue : Prop :=
  ∀ s site g l lanes pc s1 (f : TrF), ThReady s site g l lanes pc s1 → (tileOf s1 site).array.accepted.length < 16 →
    let x := groupOf (tileOf s1 site) g
    let i := lanes.headD 0
    let token := f.mod.toNat / 2
    let a := treg x i f.src1.toNat
    let b := treg x i f.src2.toNat
    let opts := if f.src3 = 255 then T64.zero else tpair x i f.src3.toNat
    let ahead := kindAhead (tileOf s1 site).array
    let use := fun (r : BitVec 8) n => ({ r := r.toNat, n := n } : RegUse)
    let offset := fun (v : T32) => v.poison = false ∧ v.val.toNat % 64 = 0
    let issues := fun i kind set => ∃ t m, exec i s = .next t ∧ m.kind = kind ∧ m.set = set ∧ m.token = token ∧
      m.mask = BitVec.ofNat 32 (2 ^ (lanes.headD 0)) ∧ MatIssued s1 t l site g lanes pc m []
    f.dst = 255 → f.rsv = 0 → x.tokens.getLsbD token = false →
    (∀ set : BitVec 2, let fa := f.fn.toNat / 16
      let fb := f.fn.toNat % 16
      let z := f.mod.toNat % 2 == 1
      ThFields s site g l lanes [use f.src1 1, use f.src2 1, use f.src3 2] [] none → pairOk fa fb = true →
      opts.poison = false → mmaOptsBad fa opts.val = false → offset a → offset b →
      (z = true ∨ ahead set.toNat = .empty ∨ ahead set.toNat = mmaKind fa) →
      issues (.mma site g set f) (.mma (BitVec.ofNat 4 fa) (BitVec.ofNat 4 fb) z a.val.toNat b.val.toNat) set.toNat) ∧
    (let fmt := f.fn.toNat % 16
      let set := f.fn.toNat / 16 % 4
      ThFields s site g l lanes [use f.src1 1, use f.src3 2] [] none → f.src2 = 255 → f.fn.toNat < 128 → drainFmt fmt = true →
      opts.poison = false → drainOptsBad opts.val = false → offset a → drainAllowed (ahead set) fmt = true →
      issues (.mdrain site g f) (.mdrain (BitVec.ofNat 4 fmt) (f.fn.toNat / 64 == 1) (f.mod.toNat % 2 == 1) a.val.toNat) set) ∧
    (ThFields s site g l lanes [] [] none → f.src1 = 255 → f.src2 = 255 → f.src3 = 255 → f.fn.toNat < 16 → f.mod.toNat % 2 = 0 →
      issues (.mzero site g f) (.mzero (BitVec.ofNat 4 f.fn.toNat)) 0) ∧
    (let fmt := f.fn.toNat % 16
      let set := f.fn.toNat / 16 % 4
      let int := decide (128 ≤ f.fn.toNat)
      ThFields s site g l lanes [use f.src1 1] [] none → f.src2 = 255 → f.src3 = 255 → f.fn.toNat / 64 % 2 = 0 → f.mod.toNat % 2 = 0 →
      (fmt = 15 ∨ (int = false ∧ (fmt = 0 ∨ fmt = 8))) → offset a → (ahead set = .empty ∨ ahead set = loadKind fmt int) →
      issues (.mload site g f) (.mload (BitVec.ofNat 4 fmt) int a.val.toNat) set)

/-- R127, R145, R146, R168: MREG.OPEN opens a region with the active mask and MREG.CLOSE of the same mask closes it; inside it
MACC.ST.G and MACC.LD.G of that mask issue and bind their registers. A wrong mask faults MATRIX_DIVERGENT, and no region, or
a second one, MATRIX_REGION. -/
def Obligations.MatrixRegions : Prop :=
  ∀ s site g l lanes pc s1 (f : TrF), ThReady s site g l lanes pc s1 →
    let x := groupOf (tileOf s1 site) g
    let mask := maskOf lanes
    let fault := fun i code (d : Nat) =>
      exec i s = .next (tileFault s1 l site 3 code (pc &&& 0xFFFFFFFFFFFFF#64) pc (BitVec.ofNat 64 d) g mask)
    let moves := fun i region => ∃ t, exec i s = .next t ∧ ThRetired s1 t l site g lanes { x with region := region } fun _ => pc + 8
    let none_ := f.src1 = 255 ∧ f.src2 = 255 ∧ f.src3 = 255 ∧ f.dst = 255 ∧ f.mod = 0 ∧ f.rsv = 0
    (none_ → f.fn = 0 → ThFields s site g l lanes [] [] none →
      (x.region = none → moves (.mregOpen site g f) (some mask)) ∧
      (x.region ≠ none → fault (.mregOpen site g f) matrixRegion 1)) ∧
    (none_ → f.fn = 1 → ThFields s site g l lanes [] [] none →
      (x.region = some mask → moves (.mregClose site g f) none) ∧
      (x.region = none → fault (.mregClose site g f) matrixRegion 2) ∧
      (∀ m, x.region = some m → m ≠ mask → fault (.mregClose site g f) matrixDivergent m.toNat)) ∧
    ((tileOf s1 site).array.accepted.length < 16 → f.src2 = 255 → f.src3 = 255 → f.rsv = 0 → f.fn.toNat < 64 → f.mod.toNat % 2 = 0 →
      x.tokens.getLsbD (f.mod.toNat / 2) = false →
      let set := f.fn.toNat / 16
      let frag := f.fn.toNat / 4 % 4
      let fmt := f.fn.toNat % 4
      let n := if fmt = 1 ∨ fmt = 2 then 16 else 32
      let k := kindAhead (tileOf s1 site).array set
      let issues := fun i store (r : BitVec 8) kind => r.toNat % 4 = 0 → r.toNat + n ≤ l.regs → r.toNat + n ≤ 255 →
        regBusy (groupOf (tileOf s site) g) lanes [{ r := r.toNat, n := n }] (if store then some { r := r.toNat, n := n } else none) = false →
        (x.region = some mask → ∃ t m, exec i s = .next t ∧ m.kind = kind ∧ m.set = set ∧ m.token = f.mod.toNat / 2 ∧ m.mask = mask ∧
          MatIssued s1 t l site g lanes pc m [{ token := f.mod.toNat / 2, dst := store, lo := r.toNat, n := n, mask := mask }]) ∧
        (x.region = none → fault i matrixRegion 0) ∧ (∀ m, x.region = some m → m ≠ mask → fault i matrixDivergent m.toNat)
      (f.src1 = 255 → (k = .empty ∨ fmt = 0 ∨ (fmt = 3 ∧ k = .int) ∨ ((fmt = 1 ∨ fmt = 2) ∧ k = .float)) →
        issues (.maccStG site g f) true f.dst (.stG frag (BitVec.ofNat 2 fmt) f.dst.toNat)) ∧
      (f.dst = 255 → (k = .empty ∨ k = if fmt = 3 then .int else .float) →
        issues (.maccLdG site g f) false f.src1 (.ldG frag (BitVec.ofNat 2 fmt) f.src1.toNat)))

/-- R139, R144, R150, R168: DRAIN_PATH_COMPLETE performs the oldest drain-path instruction whose sets no earlier one uses. MZERO
makes its sets EMPTY, MLOAD fills its set from the tile store, MDRAIN reads its set out to the tile store and with CLR makes
it EMPTY, the group-wide two move fragments to and from registers; each completes its token and leaves the array. -/
def Obligations.DrainPath : Prop :=
  ∀ s site l m, s.run = .up → launchOn s site = some l → noFaults s = true →
    let t := tileOf s site
    t.array.accepted.find? (fun m => !isMma m) = some m → setsFree t.array m = true →
    let done := fun (u : State) => (groupOf (tileOf u site) m.group).tokens = (groupOf t m.group).tokens &&& ~~~BitVec.ofNat 8 (2 ^ m.token) ∧
      (tileOf u site).array.accepted = t.array.accepted.erase m ∧ (∀ k, k ≠ site → tileOf u k = tileOf s k) ∧
      (∃ tiles counters, u = { s with tiles := tiles, counters := counters })
    let sets := fun (u : State) => accOf (tileOf u site).array
    ∃ u, exec (.drainPathComplete site) s = .next u ∧ done u ∧
      (∀ ks, m.kind = .mzero ks → (∀ k, k < 4 → sets u k = if ks.getLsbD k then AccSet.none else accOf t.array k) ∧
        (tileOf u site).store = t.store) ∧
      (∀ fmt int off, m.kind = .mload fmt int off → m.set < 4 → off % 64 = 0 →
        (∀ k, k < 4 → k ≠ m.set → sets u k = accOf t.array k) ∧ (sets u m.set).kind = loadKind fmt.toNat int ∧
        ∀ p, p < 4096 → let w := if fmt = 15 then 8 else 4
          let bytes := (List.range w).map fun j => if off + p * w + j < l.store * 1024 then storeByte t (off + p * w + j) else 0
          let c := NMap.getD (sets u m.set).cells p AccCell.zero
          c.sum = BitVec.ofNat 32 (leNat (bytes.take 4)) ∧ c.err = BitVec.ofNat 32 (leNat (bytes.drop 4))) ∧
      (∀ fmt clr off, m.kind = .mdrain fmt clr false off → m.set < 4 → off % 64 = 0 →
        drainFmt fmt.toNat = true → oSr m.opts = false →
        (∀ k, k < 4 → sets u k = if clr ∧ k = m.set then AccSet.none else accOf t.array k) ∧
        ∀ p j, p < 4096 → let w := mWidth fmt.toNat / 8
          j < w → let a := off + p * w + j
            storeByte (tileOf u site) a = if a < l.store * 1024 then BitVec.ofNat 8 (readOut (accOf t.array m.set).kind
              (NMap.getD (accOf t.array m.set).cells p AccCell.zero) fmt.toNat (RMode.ofCode (oRnd m.opts)) (oSat m.opts) / 256 ^ j)
            else storeByte t a) ∧
      (∀ frag fmt base, m.kind = .ldG frag fmt base → fmt = 0 ∨ fmt = 3 → m.set < 4 → frag < 4 → base + 32 ≤ 255 →
        ∀ lane c, lane < 32 → c < 32 → m.mask.getLsbD lane = true →
          NMap.getD (sets u m.set).cells (64 * (16 * frag + lane / 2) + 32 * (lane % 2) + c) AccCell.zero =
            { sum := (treg (groupOf t m.group) lane (base + c)).val, err := 0
              poison := (treg (groupOf t m.group) lane (base + c)).poison }) ∧
      (∀ frag fmt base, m.kind = .stG frag fmt base → fmt = 0 ∨ fmt = 3 → base + 32 ≤ 255 →
        ((groupOf t m.group).bound.any fun b => b.token == m.token) = true →
        ∀ lane c, lane < 32 → c < 32 → m.mask.getLsbD lane = true →
          let a := accOf t.array m.set
          (treg (groupOf (tileOf u site) m.group) lane (base + c)).val = BitVec.ofNat 32 (readOut a.kind
            (NMap.getD a.cells (64 * (16 * frag + lane / 2) + 32 * (lane % 2) + c) AccCell.zero) (if fmt = 0 then 0 else 8) .rne false))

/-- R161, R162, R165: MATRIX_VERDICT commits the oldest wholly fed MMA, feeds it again once where comparisons of more than one line fail, and
faults CHECKSUM_UNRECOVERED where a replay fails too, each verdict counting its skipped comparisons; at every window the
activity of an array changes by at most one slot, under the governor's ceiling. -/
def Obligations.MatrixArray : Prop :=
  (∀ s site l m fa fb z aOff bOff (chk : Checks), s.run = .up → launchOn s site = some l → noFaults s = true →
    let t := tileOf s site
    t.array.accepted.find? isMma = some m → m.kind = .mma fa fb z aOff bOff → m.slots ≤ m.fed → m.doomed = false → m.set < 4 →
    setsFree t.array m = true →
    let p := layOut m.store m.storePoison fa.toNat fb.toNat aOff bOff m.opts
    let src : SrSrc := { dom := 1, seed := (ctxOf s l.ctx).seed, tile := t.index, group := m.group, count := m.count }
    let r := mmaCommit p z src (accOf t.array m.set).cells
    let fails := fun (l : List Nat) (k : Nat → List Bool) => l.filter fun i => !(k i).all id
    let rows := fails chk.rows fun i => (r.skipRows[i]?).getD [true]
    let cols := fails chk.cols fun j => (r.skipCols[j]?).getD [true]
    (rows.length + cols.length ≤ 1 → ∃ u, exec (.matrixVerdict site chk) s = .next u ∧
      (∀ k, k < 4 → accOf (tileOf u site).array k = if k = m.set then
        { kind := if z || (accOf t.array k).kind == .empty then mmaKind fa.toNat else (accOf t.array k).kind, cells := r.cells }
        else accOf t.array k) ∧
      (tileOf u site).array.accepted = t.array.accepted.erase m ∧
      (groupOf (tileOf u site) m.group).tokens = (groupOf t m.group).tokens &&& ~~~BitVec.ofNat 8 (2 ^ m.token) ∧
      (tileOf u site).store = t.store ∧ u.mem = s.mem ∧ u.ctxs = s.ctxs) ∧
    (1 < rows.length + cols.length → m.replayed = false → ∃ u m', exec (.matrixVerdict site chk) s = .next u ∧
      (∃ tiles counters, u = { s with tiles := tiles, counters := counters }) ∧ m' ∈ (tileOf u site).array.accepted ∧ m'.fed = 0 ∧ m'.replayed = true ∧
      m' = { m with fed := 0, replayed := true, row := rows.headD 0x7F, col := cols.headD 0x7F, cause := m'.cause } ∧
      (tileOf u site).array.accepted.length = t.array.accepted.length ∧
      (∀ k, accOf (tileOf u site).array k = accOf t.array k)) ∧
    (1 < rows.length + cols.length → m.replayed = true → ∃ u d, (∃ counters, u = { s with counters := counters }) ∧
      exec (.matrixVerdict site chk) s = .next (tileFault u l site 3 checksumUnrecovered 0 m.pc d m.group m.mask) ∧
      d.extractLsb' 56 8 = 0x0A#8 ∧ d.extractLsb' 0 7 = BitVec.ofNat 7 (rows.headD 0x7F) ∧
      d.extractLsb' 8 7 = BitVec.ofNat 7 (cols.headD 0x7F))) ∧
  (∀ s site ready, s.run = .up → (tileOf s site).array.lastAct ≤ 16 →
    (∀ d, (tileOf s site).array.winDone = some d → d.1 ≤ min 16 ((tileOf s site).array.lastAct + 1)) → ∃ t, exec (.arrayWindow site ready) s = .next t ∧
    let a := (tileOf s site).array
    let b := (tileOf t site).array
    b.lastAct ≤ a.lastAct + 1 ∧ b.lastAct ≤ 16 ∧
    (a.winDone = none → b.winDone = none → (a.accepted ≠ [] ∨ a.lastAct ≠ 0) → b.lastAct ≤ s.power.ceil.toNat ∧ min s.power.ceil.toNat (a.lastAct - 1) ≤ b.lastAct) ∧
    b.accepted.length = a.accepted.length ∧ (∀ k, k < 4 → accOf b k = accOf a k) ∧
    (∃ tiles counters, t = { s with tiles := tiles, counters := counters }) ∧ (∀ k, k ≠ site → tileOf t k = tileOf s k) ∧
    tileOf t site = { tileOf s site with array := b })

/-- R153, R154, R204: an integer MMA adds to each element the exact dot product of its row of A and its column of B, modulo
2^32; a poisoned element of either poisons it. -/
def Obligations.IntegerMatrixProduct : Prop :=
  ∀ m ps (fa fb : Nat) aOff bOff src old i j, (fa = 10 ∨ fa = 11) → (fb = 10 ∨ fb = 11) → i < 64 → j < 64 →
    let a := fun (k : Nat) => NMap.getD m (aOff + i * 64 + k) 0
    let b := fun (k : Nat) => NMap.getD m (bOff + j * 64 + k) 0
    let int := fun (f : Nat) (x : Byte) => if f = 10 then x.toInt else (x.toNat : Int)
    let c := NMap.getD old (64 * i + j) AccCell.zero
    let r := mmaCommit (layOut m ps fa fb aOff bOff 0) false src old
    let dot := ((List.range 64).map fun k => int fa (a k) * int fb (b k)).sum
    NMap.getD r.cells (64 * i + j) AccCell.zero =
      { sum := BitVec.ofInt 32 (c.sum.toInt + dot), err := 0
        poison := c.poison || (List.range 64).any fun k => NSet.has ps ((aOff + i * 64 + k) / 64) || NSet.has ps ((bOff + j * 64 + k) / 64) }

/-! ### The vector engine -/

/-- R244, R249, R250, R258: the vector instructions that the control core performs itself: VSETVL sets vl to the lesser of RS1
and the greatest length, VGETVL reads it, VWAIT waits for an empty queue, and VMV.XV reads an element once it is empty. The
histogram instructions run from the queue: VHBIND binds, VHCLR clears with a new base, VHREAD writes the record of R234 to
the tile store. -/
def Obligations.VectorControl : Prop :=
  (∀ s site l pc s1, CcReady false s site l pc s1 →
    let x := fun r : BitVec 6 => ccReg (tileOf s1 site) r.toNat
    let v := (tileOf s1 site).vec
    let retires := fun i s2 (rd : BitVec 6) w => ∃ t, exec i s = .next t ∧ CcRetired s2 t l site rd.toNat w (pc + 4)
    let with_ := fun u => updTile s1 site fun t => { t with vec := u }
    (∀ f : CrF, f.rs2 = 0 → let a := x f.rs1
      let sets := fun i m => retires i (with_ { v with vl := min a.val.toNat m }) f.rd
        { val := BitVec.ofNat 64 (min a.val.toNat m), poison := a.poison }
      (f.fn = 0 → sets (.vsetvlW32 site f) 1024) ∧ (f.fn = 1 → sets (.vsetvlW16 site f) 2048)) ∧
    (∀ f : CrF, f.fn = 2 → f.rs1 = 0 → f.rs2 = 0 → retires (.vgetvl site f) s1 f.rd { val := BitVec.ofNat 64 v.vl, poison := false }) ∧
    (∀ f : CrF, f.fn = 3 → f.rd = 0 → f.rs1 = 0 → f.rs2 = 0 →
      (v.queue = [] → retires (.vwait site f) s1 0 T64.zero) ∧ (v.queue ≠ [] → exec (.vwait site f) s = .next s1)) ∧
    (v.queue = [] → v.vl ≤ 1024 → ∀ f : VsF, f.fn = 0x10 → f.rsv = 0 → (x f.ri).poison = false → let k := (x f.ri).val.toNat
      let e := vGet v f.vr.toNat 4 k
      ∃ s2, (∃ tiles counters, s2 = { s1 with tiles := tiles, counters := counters }) ∧ (∀ j, j ≠ site → tileOf s2 j = tileOf s1 j) ∧
        tileOf s2 site = { tileOf s1 site with
          samples := (tileOf s2 site).samples, sampleCount := (tileOf s1 site).sampleCount + 1 } ∧
        retires (.vmvXv site f) s2 f.rd (if k < 1024 then { val := BitVec.ofNat 64 e.v, poison := e.bad } else T64.zero))) ∧
  (∀ s site l e rest (f : CrF), VecHead s site l e rest → e.instr = .vc f → e.scalar.poison = false →
    let v := { (tileOf s site).vec with queue := rest }
    let a := e.scalar.val
    let b := e.stride.val
    let k := a.toNat % 4
    let leaves := fun i u => ∃ t, exec i s = .next t ∧ VecDone s t site u rest
    (f.fn = 8 → a &&& 0xFFFFFFFFFFFFEE0C#64 = 0 →
      leaves (.vhbind site f) (setHist v k { histOf v k with bind := if a.getLsbD 12 then some (a.toNat / 16 % 32) else none })) ∧
    (e.stride.poison = false → f.fn = 0x0A →
      leaves (.vhclr site f) (setHist v k { Hist.reset with bind := (histOf v k).bind, base := b.extractLsb' 0 16 })) ∧
    (e.stride.poison = false → f.fn = 9 → b.toNat % 64 = 0 → b.toNat + 256 ≤ l.store * 1024 → ∃ t, exec (.vhread site f) s = .next t ∧
      (∃ tiles, t = { s with tiles := tiles }) ∧ (∀ k, k ≠ site → tileOf t k = tileOf s k) ∧
      tileOf t site = { tileOf s site with
        vec := v, store := (tileOf t site).store, storePoison := (tileOf t site).storePoison } ∧
      let h := histOf v k
      let word := fun o n => leNat ((List.range n).map fun j => storeByte (tileOf t site) (b.toNat + o + j))
      word 0 8 = h.base.toNat * 2 ^ 48 + h.emax.toNat * 2 ^ 32 + h.amax.toNat ∧
      word 8 8 = h.zero.toNat * 2 ^ 32 + h.nonfin.toNat ∧ word 16 8 = h.below.toNat * 2 ^ 32 + h.above.toNat ∧
      (∀ k, k < 48 → word (24 + 4 * k) 4 = (NMap.getD h.bins k 0).toNat) ∧ word 216 8 = h.total.toNat ∧ word 224 32 = 0 ∧
      ∀ o, (o < b.toNat ∨ b.toNat + 256 ≤ o) → storeByte (tileOf t site) o = storeByte (tileOf s site) o))

/-- R247, R248, R260: VECTOR_QUEUE_ISSUE puts a legal instruction last in the queue of 16 with its scalar operands and vl, and
the core goes on; it waits where the queue is full; an encoding that does not exist faults with its reason once the queue
is empty. -/
def Obligations.VectorIssue : Prop :=
  ∀ s site l pc s1 i, CcReady false s site l pc s1 → vDirect i = false →
    let t := tileOf s1 site
    (vChk i t.vec.vl = none → t.vec.queue.length < 16 → ∃ u e, exec (.vectorQueueIssue site i) s = .next u ∧
      e.instr = i ∧ e.vl = t.vec.vl ∧ e.pc = pc ∧ e.srCount = t.vec.srCount ∧
      (∀ f, i = .vc f → e.scalar = ccReg t f.rs1.toNat ∧ e.stride = ccReg t f.rs2.toNat) ∧
      (∀ op f, i = .vv op f → f.sb = 1 → e.scalar = ccReg t f.x.toNat) ∧
      (∀ op f, i = .vs op f → e.scalar = ccReg t f.rd.toNat ∧ e.stride = ccReg t f.ri.toNat) ∧
      (∀ op f, i = .vm op f → e.scalar = ccReg t f.rb.toNat ∧ (f.fn.toNat % 8 = 1 → e.stride = ccReg t f.rt.toNat)) ∧
      CcRetired (updTile s1 site fun t => { t with vec := { t.vec with
        queue := t.vec.queue ++ [e], srCount := t.vec.srCount + if vDraws i then 1 else 0 } }) u l site 0 T64.zero (pc + 4)) ∧
    (vChk i t.vec.vl = none → 16 ≤ t.vec.queue.length → exec (.vectorQueueIssue site i) s = .next s1) ∧
    (∀ r, vChk i t.vec.vl = some r → (t.vec.queue = [] → exec (.vectorQueueIssue site i) s =
        .next (tileFault s1 l site 4 illegalInstruction (pc &&& 0xFFFFFFFFFFFFF#64) pc (BitVec.ofNat 64 r))) ∧
      (t.vec.queue ≠ [] → exec (.vectorQueueIssue site i) s = .next s1))

/-- R251 to R255, R259, R261: the oldest vector instruction, where it computes: it writes elements 0 to vl - 1 of VD from the
elements of VS1, VS2 or the scalar, and VD, poisoned where an operand is, and an encoded block where any of its elements is;
later elements, other registers and memory stay; a histogram bound to VD watches float results. A reduction of an associative function gives the fold of its elements. -/
def Obligations.VectorCompute : Prop :=
  ∀ s site l e rest (f : VvF), VecHead s site l e rest →
    let v := (tileOf s site).vec
    let seed := (ctxOf s l.ctx).seed
    let x := fun w i => vGet v f.vs1.toNat w i
    let y := fun w i => if f.sb = 1 then { v := e.scalar.val.toNat % 2 ^ (8 * w), bad := e.scalar.poison } else vGet v f.x.toNat w i
    let z := fun w i => vGet v f.vd.toNat w i
    let mode := fun i => if f.rm = 4 then .sr (srDraw seed (srKey 4 (tileOf s site).index 0 i 0) (BitVec.ofNat 64 e.srCount))
      else RMode.ofCode f.rm.toNat
    let writes := fun i w fmt es events => ∃ t, exec i s = .next t ∧ VecWrites s t site rest f.vd.toNat w e.vl fmt es events
    let fn := f.fn.toNat
    let result := fun (n : Nat) w (g : Nat → Nat → Nat → Nat → Option Nat) i =>
      VEl.mk ((g i (x w i).v (if 2 ≤ n then (y w i).v else 0) (if n = 3 then (z w i).v else 0)).getD 0)
        ((x w i).bad || (2 ≤ n && (y w i).bad) || (n == 3 && (z w i).bad))
    (e.instr = .vv 0x21 f → writes (.vectorInteger site f) 4 none (result (intArity fn) 4 fun _ => intFn 32 fn) 0) ∧
    (e.instr = .vv 0x22 f → writes (.vectorFp32 site f) 4 (if fn < 0x10 then some .f32 else none)
      (result (floatArity fn) 4 fun i => fltFn .f32 fn (mode i)) 0) ∧
    (e.instr = .vv 0x23 f → writes (.vectorBf16 site f) 2 (if fn < 0x10 then some .bf16 else none)
      (result (floatArity fn) 2 fun i => fltFn .bf16 fn (mode i)) 0) ∧
    (e.instr = .vv 0x24 f → ∀ src dst, CFmt.ofCode f.x.toNat = some src → CFmt.ofCode (fn % 16) = some dst →
      let a := fun i => x (src.bits / 8) i
      writes (.vectorConversion site f) (dst.bits / 8) (match dst with | .flt g => some g | _ => none)
        (fun i => VEl.mk (convert src dst (mode i) (16 ≤ fn) (a i).v) (a i).bad)
        ((List.range e.vl).countP fun i => !(a i).bad && countsNonfin src dst (mode i) (a i).v)) ∧
    (e.instr = .vv 0x25 f → fn < 16 → ∃ t u, exec (.vectorBlockScaleEncode site f) s = .next t ∧ VecDone s t site u rest ∧
      VecKept v u (f.vd.toNat * 4096) (4096 + e.vl / 32) ∧
      ∀ b, b < e.vl / 32 → let block := (List.range 32).map fun j => x 4 (32 * b + j)
        let r := mxEncode (mxFmt fn) block
        (vGet u (f.vd.toNat + 1) 1 b).v = r.1 ∧ (block.any (·.bad) = true → (vGet u (f.vd.toNat + 1) 1 b).bad = true) ∧
        ∀ j, j < 32 → let c := packedGet u f.vd.toNat (mWidth fn) (32 * b + j)
          some c.v = (r.2.1[j]?).map (·.v) ∧ c.bad = block.any (·.bad)) ∧
    (e.instr = .vv 0x25 f → 16 ≤ fn → writes (.vectorBlockScaleDecode site f) 4 none (fun i =>
      let a := packedGet v f.vs1.toNat (mWidth (fn % 16)) i
      let sc := vGet v (f.vs1.toNat + 1) 1 (i / 32)
      VEl.mk (mxDecode (mxFmt (fn % 16)) sc.v a.v) (a.bad || sc.bad)) 0) ∧
    (e.instr = .vv 0x26 f → ∃ t u, exec (.vectorReduction site f) s = .next t ∧ VecDone s t site u rest ∧
      (e.vl = 0 → u = { v with queue := rest }) ∧
      (0 < e.vl → VecKept v u (f.vd.toNat * 4096) 4 ∧
        VecWatched v u f.vd.toNat (if fn ≤ 2 then some .f32 else none) 1 (fun _ => vGet u f.vd.toNat 4 0) 0 ∧
        (8 ≤ fn → vGet u f.vd.toNat 4 0 = (List.range (e.vl - 1)).foldl (fun r i => redOp fn .rne r (x 4 (i + 1))) (x 4 0)) ∧
        (fn ≤ 2 → some (vGet u f.vd.toNat 4 0) = treeReduce (redOp fn (RMode.ofCode f.rm.toNat)) (x 4) e.vl))) ∧
    (e.instr = .vv 0x27 f →
      (fn = 0 → writes (.vbcast site f) 4 none (y 4) 0) ∧ (fn = 1 → writes (.vbcastH site f) 2 none (y 2) 0) ∧
      (fn = 2 → writes (.viota site f) 4 none (fun i => VEl.mk i false) 0) ∧
      (fn = 3 → writes (.vslidedn site f) 4 none (fun i =>
        let r := if i + (y 4 i).v < e.vl then x 4 (i + (y 4 i).v) else VEl.mk 0 false
        VEl.mk r.v (r.bad || (y 4 i).bad)) 0) ∧
      (fn = 4 → writes (.vslideup site f) 4 none (fun i =>
        let r := if (y 4 i).v ≤ i then x 4 (i - (y 4 i).v) else z 4 i
        VEl.mk r.v (r.bad || (y 4 i).bad)) 0) ∧
      (fn = 5 → let k := fun i => vGet v f.x.toNat 4 i
        ((∀ i, i < e.vl → (k i).bad = false) →
          writes (.vperm site f) 4 none (fun i => if (k i).v < e.vl then x 4 (k i).v else VEl.mk 0 false) 0)) ∧
      (fn = 6 → writes (.vmov site f) 4 none (x 4) 0)) ∧
    (∀ g : VsF, e.instr = .vs 0x27 g → g.fn = 0x11 → e.stride.poison = false → let k := e.stride.val.toNat
      ∃ t u, exec (.vmvVx site g) s = .next t ∧ VecDone s t site u rest ∧ VecWatched v u 0 none 0 (fun _ => VEl.mk 0 false) 0 ∧
        (k < 1024 → VecKept v u (g.vr.toNat * 4096 + 4 * k) 4 ∧
          vGet u g.vr.toNat 4 k = { v := e.scalar.val.toNat % 2 ^ 32, bad := e.scalar.poison }) ∧
        (1024 ≤ k → VecKept v u 0 0))

/-- R250, R256, R261: vector loads and stores of the three address forms, element after element. From the tile store an
element beyond the allocation loads zero, and a store there is discarded, and either is counted; memory is read and written
through the tile's L1. A poisoned base or a misaligned element faults. -/
def Obligations.VectorMemory : Prop :=
  ∀ s site l e rest (f : VmF), VecHead s site l e rest →
    let v := (tileOf s site).vec
    let w := if f.w = 0 then 4 else if f.w = 1 then 2 else 1
    let end_ := fun (t : State) => updTile t site fun t => { t with vec := { t.vec with queue := rest } }
    let addr := fun k i => if k = 0 then e.scalar.val + BitVec.ofNat 64 (i * w) else if k = 1 then e.scalar.val + BitVec.ofNat 64 i * e.stride.val
      else e.scalar.val + (BitVec.ofNat 32 (vGet v f.rt.toNat 4 i).v).signExtend 64
    let ready := fun k => e.scalar.poison = false ∧ (k = 1 → e.stride.poison = false) ∧
      ∀ i, i < e.vl → (k = 2 → (vGet v f.rt.toNat 4 i).bad = false) ∧ (addr k i).toNat % w = 0
    let inside := fun k i => (addr k i).toNat + w ≤ l.store * 1024
    let beyond := fun k => bump s 1 site 10 ((List.range e.vl).countP fun i => !decide (inside k i))
    let x := fun i => vGet v f.vd.toNat w i
    let loadS := fun i k => e.instr = .vm 0x28 f → f.fn.toNat = k → ready k → ∃ t, exec i s = .next t ∧
      VecWrites (beyond k) t site rest f.vd.toNat w e.vl none (fun i => if inside k i then
        VEl.mk (leNat ((List.range w).map fun j => storeByte (tileOf s site) ((addr k i).toNat + j)))
          (NSet.has (tileOf s site).storePoison ((addr k i).toNat / 64))
        else VEl.mk 0 false) 0
    let storeS := fun i k => e.instr = .vm 0x28 f → f.fn.toNat = 8 + k → ready k → ∃ t s2, exec i s = .next t ∧ t = end_ s2 ∧
      (∃ tiles counters, s2 = { s with tiles := tiles, counters := counters }) ∧ (∀ k, k ≠ site → tileOf s2 k = tileOf s k) ∧
      tileOf s2 site = { tileOf s site with store := (tileOf s2 site).store, storePoison := (tileOf s2 site).storePoison } ∧
      (∀ j, NMap.getD s2.counters j 0 = NMap.getD (beyond k).counters j 0) ∧
      ∀ a, storeByte (tileOf s2 site) a =
        match (List.range e.vl).reverse.find? fun i => decide (inside k i ∧ (addr k i).toNat ≤ a ∧ a < (addr k i).toNat + w) with
        | some i => BitVec.ofNat 8 ((x i).v / 256 ^ (a - (addr k i).toNat))
        | none => storeByte (tileOf s site) a
    let loadM := fun i k => e.instr = .vm 0x29 f → f.fn.toNat = k → ready k → ∀ pa cp at_ : Nat → Nat,
      let σ := after (fun s i => (tileLoad s site l.ctx (addr k i) w).1) s (List.range e.vl)
      (∀ i, i < e.vl → Reaches (σ i) l.ctx .read (addr k i) (pa i) (cp i) (at_ i) ∧ missFull (tileOf (σ i) site) = false) →
      ∃ t u es, exec i s = .next t ∧ VecDone (σ e.vl) t site u rest ∧ VecPut v u f.vd.toNat w e.vl es ∧
        ∀ i, i < e.vl → TileMemoryOnly site (σ i) (σ (i + 1)) ∧ BytesKept (σ i) (σ (i + 1)) 0 0 (at_ i) ∧
          ∃ bs, Loaded (σ i) (σ (i + 1)) site (pa i) (cp i) w bs (es i).bad ∧ (es i).v = leNat bs
    let storeM := fun i k => e.instr = .vm 0x29 f → f.fn.toNat = 8 + k → ready k → ∀ pa cp at_ : Nat → Nat,
      let σ := after (fun s i => (tileStore s site none l.ctx (addr k i) (leBytes (x i).v w) (x i).bad).1) s (List.range e.vl)
      (∀ i, i < e.vl → Reaches (σ i) l.ctx .write (addr k i) (pa i) (cp i) (at_ i) ∧ frozenSector (σ i) (pa i / 64) = false) →
      exec i s = .next (end_ (σ e.vl)) ∧ ∀ i, i < e.vl → TileMemoryOnly site (σ i) (σ (i + 1)) ∧
        BytesKept (σ i) (σ (i + 1)) (pa i) w (at_ i) ∧ cohBytes (σ (i + 1)) (pa i) w = leBytes (x i).v w
    loadS (.vldS site f) 0 ∧ loadS (.vldSStr site f) 1 ∧ loadS (.vldSIdx site f) 2 ∧
    storeS (.vstS site f) 0 ∧ storeS (.vstSStr site f) 1 ∧ storeS (.vstSIdx site f) 2 ∧
    loadM (.vldM site f) 0 ∧ loadM (.vldMStr site f) 1 ∧ loadM (.vldMIdx site f) 2 ∧
    storeM (.vstM site f) 0 ∧ storeM (.vstMStr site f) 1 ∧ storeM (.vstMIdx site f) 2 ∧
    (0 < e.vl → e.scalar.poison = true → e.instr = .vm 0x28 f → f.fn = 0 →
      ∃ u, (∃ tiles, u = { s with tiles := tiles }) ∧ (∀ k, tileOf u k = tileOf s k) ∧
        exec (.vldS site f) s = .next (tileFault u l site 4 poisonConsumed 0 e.pc 0x02))

/-! ### The device allocator -/

/-- R53 to R55, R113, R114: the device allocator takes the smallest, then lowest, free block that serves, leaves the upper halves free, and
answers its address, or 3, 2 or 1; HALLOC.Z zeroes the block first; HFREE returns a live block, which merges with a free buddy,
and faults HEAP_BAD_FREE elsewhere. Lanes of a group go one after another. -/
def Obligations.Allocator : Prop :=
  ((∀ s ctx slot size, (boundHeap s ctx slot = none → halloc s ctx slot size = (s, 3)) ∧
    ∀ i, boundHeap s ctx slot = some i → (2 ^ 26 < size → halloc s ctx slot size = (s, 2)) ∧
      (size ≤ 2 ^ 26 → ∃ k, 8 ≤ k ∧ size ≤ 2 ^ k ∧ (k = 8 ∨ 2 ^ (k - 1) < size) ∧ blockLog size = k ∧
        let h := heapOf s i
        ((∀ b ∈ h.free, b.2 < k) → halloc s ctx slot size = (s, 1)) ∧
        ∀ b ∈ h.free, k ≤ b.2 → (∀ c ∈ h.free, k ≤ c.2 → b.2 < c.2 ∨ (b.2 = c.2 ∧ b.1 ≤ c.1)) →
          ∃ t free, halloc s ctx slot size = (t, BitVec.ofNat 64 ((objOf s i).w1.toNat % 2 ^ 52 + b.1)) ∧
            t = { s with heaps := t.heaps } ∧ (∀ j, j ≠ i → heapOf t j = heapOf s j) ∧
            heapOf t i = { h with free := free, live := (b.1, k) :: h.live } ∧
            ∀ c, c ∈ free ↔ (c ∈ h.free ∧ c ≠ b) ∨ ∃ j, k ≤ j ∧ j < b.2 ∧ c = (b.1 + 2 ^ j, j))) ∧
  (∀ s ctx (va : DWord), let base := fun i => (objOf s i).w1.toNat % 2 ^ 52
    let starts := fun j => ∃ i b, boundHeap s ctx j = some i ∧ b ∈ (heapOf s i).live ∧ base i + b.1 = va.toNat
    (va = 0 → hfree s ctx va = some s) ∧
    (va ≠ 0 → (∀ j, j < 4 → ¬ starts j) → hfree s ctx va = none) ∧
    (∀ j i off k, j < 4 → boundHeap s ctx j = some i → (off, k) ∈ (heapOf s i).live → base i + off = va.toNat → va ≠ 0 →
      (∀ m, m < 4 → m ≠ j → ¬ starts m) → (∀ b ∈ (heapOf s i).live, b.1 = off → b = (off, k)) →
      let h := heapOf s i
      ∃ t, hfree s ctx va = some t ∧ t = { s with heaps := t.heaps } ∧ (∀ m, m ≠ i → heapOf t m = heapOf s m) ∧
        let g := heapOf t i
        g.book = h.book ∧ (∀ c, c ∈ g.live ↔ c ∈ h.live ∧ c ≠ (off, k)) ∧
        ((off ^^^ 2 ^ k, k) ∉ h.free → g.free = (off, k) :: h.free) ∧ ((off ^^^ 2 ^ k, k) ∈ h.free → (off ^^^ 2 ^ k, k) ∉ g.free) ∧
        (h.free.Nodup → (g.free.map fun b => 2 ^ b.2).sum = (h.free.map fun b => 2 ^ b.2).sum + 2 ^ k))) ∧
  (∀ s ctx va n, ∀ pa cp at_ : Nat → Nat, va % 64 = 0 → n % 64 = 0 →
    let σ := after (fun s i => (vWrite s ctx (BitVec.ofNat 64 (va + 64 * i)) (List.replicate 64 0) false).1) s (List.range (n / 64))
    (∀ i, i < n / 64 → Reaches (σ i) ctx .write (BitVec.ofNat 64 (va + 64 * i)) (pa i) (cp i) (at_ i) ∧
      frozenSector (σ i) (pa i / 64) = false) →
    zeroBlock s ctx va n = (σ (n / 64), .ok ()) ∧
      ∀ i j, i < n / 64 → j < 64 → inDriverPool (pa i + j) = false → cohByte (σ (n / 64)) (pa i + j) = 0)) ∧
  (let zeroed := fun (s : State) ctx size v => if 0x10000 ≤ v then zeroBlock s ctx v (2 ^ blockLog size) else (s, .ok ())
  (∀ s site l pc s1 (f : CrF), CcReady false s site l pc s1 → f.fn.toNat / 4 % 4 = 0 → f.rs2 = 0 →
    let a := ccReg (tileOf s1 site) f.rs1.toNat
    let slot := f.fn.toNat % 4
    let r := halloc s1 l.ctx slot a.val.toNat
    a.poison = false →
    (f.fn.toNat / 16 = 0 → ∃ t, exec (.halloc site (.cc f)) s = .next t ∧
      CcRetired r.1 t l site f.rd.toNat { val := r.2, poison := false } (pc + 4)) ∧
    (f.fn.toNat / 16 = 1 → ∀ u, zeroed r.1 l.ctx a.val.toNat r.2.toNat = (u, .ok ()) → ∃ t, exec (.hallocZ site (.cc f)) s = .next t ∧
      CcRetired u t l site f.rd.toNat { val := r.2, poison := false } (pc + 4)) ∧
    (f.fn.toNat / 16 = 1 → ∀ u c va d, zeroed r.1 l.ctx a.val.toNat r.2.toNat = (u, .fault c va d) →
      ∃ die, exec (.hallocZ site (.cc f)) s = .next (raiseFault u l.ctx .f
        { code := BitVec.ofNat 8 c, queue := l.cmd.queue, operand := va, die := die, unit := 12, tile := 0, group := 0, loc := pc
          mask := 0, detail := BitVec.ofNat 64 d })) ∧
    (f.fn.toNat / 16 = 2 → f.rd = 0 →
      (∀ u, hfree s1 l.ctx a.val = some u → ∃ t, exec (.hfree site (.cc f)) s = .next t ∧ CcRetired u t l site 0 T64.zero (pc + 4)) ∧
      (hfree s1 l.ctx a.val = none → ∃ die, exec (.hfree site (.cc f)) s = .next (raiseFault s1 l.ctx .f
        { code := 0x08, queue := l.cmd.queue, operand := a.val &&& 0xFFFFFFFFFFFFF#64, die := die, unit := 12, tile := 0
          group := 0, loc := pc, mask := 0, detail := 0 })))) ∧
  (∀ s site g l lanes pc s1 (f : TrF), ThReady s site g l lanes pc s1 → f.rsv = 0 → f.mod.toNat < 4 →
    let x := groupOf (tileOf s1 site) g
    let use := fun (r : BitVec 8) n => ({ r := r.toNat, n := n } : RegUse)
    let size := fun i => (treg x i f.src1.toNat).val.toNat
    let allocs := fun c (σ : Nat → State) => ∃ t y, exec c s = .next t ∧ ThRetired (σ lanes.length) t l site g lanes y (fun _ => pc + 8) ∧
      OnlyRegs x y lanes f.dst.toNat 2 ∧
      (f.dst ≠ 255 → ∀ k i, lanes[k]? = some i → tpair y i f.dst.toNat = { val := (halloc (σ k) l.ctx f.mod.toNat (size i)).2, poison := false })
    (ThFields s site g l lanes [use f.dst 2, use f.src1 1] [f.src2.toNat, f.src3.toNat] (some (use f.dst 2)) →
      (∀ i ∈ lanes, (treg x i f.src1.toNat).poison = false) →
      (f.fn = 0 → allocs (.halloc site (.th g f)) (after (fun s i => (halloc s l.ctx f.mod.toNat (size i)).1) s1 lanes)) ∧
      (f.fn = 1 → let z := fun s i => zeroed (halloc s l.ctx f.mod.toNat (size i)).1 l.ctx (size i) (halloc s l.ctx f.mod.toNat (size i)).2.toNat
        let σ := after (fun s i => (z s i).1) s1 lanes
        (∀ k i, lanes[k]? = some i → (z (σ k) i).2 = .ok ()) → allocs (.hallocZ site (.th g f)) σ)) ∧
    (ThFields s site g l lanes [use f.src1 2] [f.dst.toNat, f.src2.toNat, f.src3.toNat] none → f.fn = 2 →
      (∀ i ∈ lanes, (tpair x i f.src1.toNat).poison = false) →
      let σ := after (fun s i => (hfree s l.ctx (tpair x i f.src1.toNat).val).getD s) s1 lanes
      (∀ k i, lanes[k]? = some i → (hfree (σ k) l.ctx (tpair x i f.src1.toNat).val).isSome = true) →
      ∃ t, exec (.hfree site (.th g f)) s = .next t ∧ ThRetired (σ lanes.length) t l site g lanes x fun _ => pc + 8)))

/-! ### Streams, batons and messages -/

/-- R262 to R266, R268, R269: STRM.GET to STRM.RPUT start a stream of their kind from a descriptor in the tile store, FROZEN ones taking or
waiting for one of the 256 freezes; a malformed descriptor faults STREAM_DESCRIPTOR with its slot and reason. STRM.WAIT, STRM.STAT
and STRM.CANCEL wait for, report and end uncompleted streams. -/
def Obligations.StreamInstructions : Prop :=
  (let slots := fun (s : State) site (l : Launch) (kind : Nat) (off slot : T64) pc group (done : State → Prop) (fault : Nat → DWord → DWord → Prop) =>
    let t := tileOf s site
    let k := slot.val.toNat
    let word := fun i => BitVec.ofNat 64 (leNat ((List.range 8).map fun j => storeByte t (off.val.toNat + 8 * i + j)))
    let x : Strm := { kind := kind, d0 := word 0, d1 := word 1, d2 := word 2, d3 := word 3, d4 := word 4, d5 := word 5, d6 := word 6,
                      d7 := word 7, pc := pc, group := group, st := .active, next := 0, issued := [], failed := [], frozen := [], seen := [] }
    let reason := fun n => BitVec.ofNat 64 (k % 64 * 256 + n)
    off.poison = false → slot.poison = false →
      (k < 64 → NMap.find t.streams k = none → off.val.toNat % 64 = 0 → off.val.toNat + 64 ≤ l.store * 1024 →
        NSet.has t.storePoison (off.val.toNat / 64) = false →
        (descReason l t.index x = none →
          (x.d6.getLsbD 63 = false → done (setStrm s site k x)) ∧
          (x.d6.getLsbD 63 = true → let w := setStrm s site k { x with st := .waitFreeze }
            (256 ≤ freezesHeld w → done w) ∧
            (freezesHeld w < 256 → done (setStrm w site k { x with st := .active, frozen := spanSectors w l.ctx x })))) ∧
        (∀ n, descReason l t.index x = some n → fault streamDescriptor (pc &&& 0xFFFFFFFFFFFFF#64) (reason n))) ∧
      (64 ≤ k → fault streamDescriptor (pc &&& 0xFFFFFFFFFFFFF#64) (reason 7)) ∧
      (k < 64 → NMap.find t.streams k = none → off.val.toNat % 64 ≠ 0 → fault streamDescriptor (pc &&& 0xFFFFFFFFFFFFF#64) (reason 5))
  ∀ kind site, kind < 6 → let row : CrTr → Instr := fun i => match kind with
    | 0 => .strmGet site i
    | 1 => .strmPut site i
    | 2 => .strmXfer site i
    | 3 => .strmPref site i
    | 4 => .strmRget site i
    | _ => .strmRput site i
    (∀ s l pc s1 (f : CrF), CcReady false s site l pc s1 → f.fn.toNat = kind → f.rd = 0 →
      slots s1 site l kind (ccReg (tileOf s1 site) f.rs1.toNat) (ccReg (tileOf s1 site) f.rs2.toNat) pc none
        (fun u => ∃ t, exec (row (.cc f)) s = .next t ∧ CcRetired u t l site 0 T64.zero (pc + 4))
        (fun code operand detail => exec (row (.cc f)) s = .next (tileFault s1 l site 5 code operand pc detail))) ∧
    (∀ s g l lanes pc s1 (f : TrF), ThReady s site g l lanes pc s1 → f.fn.toNat = kind → f.mod = 0 → f.rsv = 0 →
      ThFields s site g l lanes [{ r := f.src1.toNat, n := 1 }, { r := f.src2.toNat, n := 1 }] [f.dst.toNat, f.src3.toNat] none →
      let x := groupOf (tileOf s1 site) g
      slots s1 site l kind (wide (treg x (lanes.headD 0) f.src1.toNat)) (wide (treg x (lanes.headD 0) f.src2.toNat)) pc (some g)
        (fun u => ∃ t, exec (row (.th g f)) s = .next t ∧ ThRetired u t l site g lanes x fun _ => pc + 8)
        (fun code operand detail => exec (row (.th g f)) s = .next (tileFault s1 l site 5 code operand pc detail)))) ∧
  ((∀ s site l pc s1 (f : CrF), CcReady false s site l pc s1 →
    let t := tileOf s1 site
    let open_ := strmMask t
    (f.fn = 0x10 → f.rd = 0 → f.rs2 = 0 → let m := ccReg t f.rs1.toNat
      m.poison = false →
      (open_ &&& m.val = 0 → ∃ u, exec (.strmWait site (.cc f)) s = .next u ∧ CcRetired s1 u l site 0 T64.zero (pc + 4)) ∧
      (open_ &&& m.val ≠ 0 → exec (.strmWait site (.cc f)) s = .next s1)) ∧
    (f.fn = 0x11 → f.rs1 = 0 → f.rs2 = 0 → ∃ u, exec (.strmStat site (.cc f)) s = .next u ∧
      CcRetired s1 u l site f.rd.toNat { val := open_, poison := false } (pc + 4) ∧
      (NMap.risingFrom 0 t.streams = true → (∀ e ∈ t.streams, e.1 < 64) → ∀ k, k < 64 →
        open_.getLsbD k = match NMap.find t.streams k with
          | some x => decide (x.st ≠ .posting)
          | none => false)) ∧
    (f.fn = 0x12 → f.rs1 = 0 → let k := ccReg t f.rs2.toNat
      k.poison = false → k.val.toNat < 64 → let slot := k.val.toNat
      let gives := fun u s2 v => exec (.strmCancel site (.cc f)) s = .next u ∧ CcRetired s2 u l site f.rd.toNat { val := v, poison := false } (pc + 4)
      (NMap.find t.streams slot = none → ∃ u, gives u s1 0) ∧
      (∀ x, NMap.find t.streams slot = some x → (x.st = .posting ∨ x.moved = true → ∃ u, gives u s1 0) ∧
        (x.st ≠ .posting → x.moved = false → x.issued = [] ∨ x.sHint ≠ 2 → ∃ u s2, gives u s2 1 ∧ NMap.find (tileOf s2 site).streams slot = none ∧
          (∀ j, j ≠ slot → NMap.find (tileOf s2 site).streams j = NMap.find t.streams j) ∧
          (∀ k q, bqOf (tileOf s2 k) q = bqOf (tileOf s1 k) q) ∧ s2.halts = s1.halts.filter (fun h => h.what != .stream site slot) ∧
          s2.remotes = s1.remotes.filter (fun r => match r.2.what with
            | .stream a b _ => !(a == site && b == slot)
            | _ => true) ∧
          (x.issued = [] → s2.mem = s1.mem ∧ s2.lines = s1.lines ∧ s2.ctxs = s1.ctxs))))) ∧
  (∀ s site g l lanes pc s1 (f : TrF), ThReady s site g l lanes pc s1 → f.mod = 0 → f.rsv = 0 →
    let x := groupOf (tileOf s1 site) g
    let t := tileOf s1 site
    let use := fun (r : BitVec 8) n => ({ r := r.toNat, n := n } : RegUse)
    let fields := ThFields s site g l lanes
    (f.fn = 0x10 → fields [use f.src1 2] [f.dst.toNat, f.src2.toNat, f.src3.toNat] none → let m := tpair x (lanes.headD 0) f.src1.toNat
      m.poison = false → (strmMask t &&& m.val = 0 → ∃ u, exec (.strmWait site (.th g f)) s = .next u ∧
          ThRetired s1 u l site g lanes x fun _ => pc + 8) ∧
        (strmMask t &&& m.val ≠ 0 → exec (.strmWait site (.th g f)) s = .next (updTile s site fun t => park t g (.streams m.val.toNat)))) ∧
    (f.fn = 0x11 → fields [use f.dst 2] [f.src1.toNat, f.src2.toNat, f.src3.toNat] (some (use f.dst 2)) →
      ∃ u y, exec (.strmStat site (.th g f)) s = .next u ∧ ThRetired s1 u l site g lanes y (fun _ => pc + 8) ∧
        OnlyRegs x y lanes f.dst.toNat 2 ∧ (f.dst ≠ 255 → ∀ i ∈ lanes, tpair y i f.dst.toNat = { val := strmMask t, poison := false })) ∧
    (f.fn = 0x12 → fields [use f.dst 1, use f.src2 1] [f.src1.toNat, f.src3.toNat] (some (use f.dst 1)) →
      let k := treg x (lanes.headD 0) f.src2.toNat
      k.poison = false → NMap.find t.streams k.val.toNat = none → k.val.toNat < 64 →
      ∃ u y, exec (.strmCancel site (.th g f)) s = .next u ∧ ThRetired s1 u l site g lanes y (fun _ => pc + 8) ∧
        OnlyRegs x y lanes f.dst.toNat 1 ∧ (f.dst ≠ 255 → ∀ i ∈ lanes, treg y i f.dst.toNat = { val := 0, poison := false }))))

/-- R93, R266 to R268, R273, R274: the stream engine. A stream that waits takes a free freeze; the next request of a stream is
issued in source order, cut at sector ends; a request reads its source sector, once for the whole stream, and moves its bytes
between memory and a tile store, and its tag is free; a stream whose requests are all performed posts its baton, or lets it
wait at a full queue, and its slot is free. -/
def Obligations.StreamEngine : Prop :=
  ∀ s site l, s.run = .up → runningLaunch s site = some l → noFaults s = true →
    let t := tileOf s site
    (∀ k x, NMap.find t.streams k = some x →
      (x.st = .waitFreeze → freezesHeld s < 256 →
        exec (.freezeAcquire site k) s = .next (setStrm s site k { x with st := .active, frozen := spanSectors s l.ctx x })) ∧
      (x.st = .waitFreeze → 256 ≤ freezesHeld s → exec (.freezeAcquire site k) s = .next s)) ∧
    ((1536 ≤ (t.streams.map fun e => e.2.issued.length).sum → exec (.streamRequestIssue site) s = .next s) ∧
      ∀ k x, t.streams = [(k, x)] → k < 64 → x.st = .active → x.issued.length < 1536 → x.next / 2 ^ 24 ≤ x.d3.toNat / 2 ^ 24 % 2 ^ 20 →
        x.kind ≤ 3 → let n := x.reqBytes x.next
        ∃ u, exec (.streamRequestIssue site) s = .next u ∧ (∃ tiles, u = { s with tiles := tiles }) ∧
          (∀ j, j ≠ site → tileOf u j = tileOf s j) ∧ tileOf u site = { t with strmRr := (k + 1) % 64, streams := (tileOf u site).streams } ∧
          NMap.find (tileOf u site).streams k = some { x with issued := x.issued ++ [x.next], next :=
            if x.next % 2 ^ 24 + n < x.d3.toNat % 2 ^ 24 then x.next + n else (x.next / 2 ^ 24 + 1) * 2 ^ 24 }) ∧
    (∀ k x r pa cp at_, NMap.find t.streams k = some x → r ∈ x.issued → let n := x.reqBytes r
      let src := x.srcAddr r
      let dst := x.dstAddr r
      let left := fun sec => some { x with
        issued := x.issued.filter (· != r), seen := NMap.insert x.seen (src.toNat / 64) sec }
      let sameTile := fun (u : State) => (∀ j, j ≠ site → tileOf u j = tileOf s j) ∧ tileOf u site = { t with
        streams := (tileOf u site).streams, store := (tileOf u site).store, storePoison := (tileOf u site).storePoison }
      (x.kind = 0 → x.sHint ≠ 2 → dst.toNat + n ≤ l.store * 1024 → 0 < n → NMap.find x.seen (src.toNat / 64) = none →
        Reaches s l.ctx .read src pa cp at_ →
        ∃ u v, exec (.streamRequestComplete site k r) s = .next u ∧ MemoryOnly s v ∧ BytesKept s v 0 0 at_ ∧
          (∃ tiles, u = { v with tiles := tiles }) ∧ sameTile u ∧
          (∀ a, storeByte (tileOf u site) a = if dst.toNat ≤ a ∧ a < dst.toNat + n then cohByte v (pa + (a - dst.toNat)) else storeByte t a) ∧
          NMap.find (tileOf u site).streams k = left { data := cohBytes v (pa / 64 * 64) 64, poison := cohPoison v pa }) ∧
      (∀ sec, x.kind = 0 → x.sHint ≠ 2 → dst.toNat + n ≤ l.store * 1024 → 0 < n → NMap.find x.seen (src.toNat / 64) = some sec →
        sec.data.length = 64 → ∃ u, exec (.streamRequestComplete site k r) s = .next u ∧
          (∃ tiles, u = { s with tiles := tiles }) ∧ sameTile u ∧
          (∀ a, storeByte (tileOf u site) a = if dst.toNat ≤ a ∧ a < dst.toNat + n
            then (sec.data[src.toNat % 64 + (a - dst.toNat)]?).getD 0 else storeByte t a) ∧
          NMap.find (tileOf u site).streams k = some { x with issued := x.issued.filter (· != r) }) ∧
      (x.kind = 1 → Reaches s l.ctx .write dst pa cp at_ → frozenSector s (pa / 64) = false → pa % 64 + n ≤ 64 →
        src.toNat + n ≤ l.store * 1024 → 0 < n → NMap.find x.seen (src.toNat / 64) = none →
        ∃ u v, exec (.streamRequestComplete site k r) s = .next u ∧ MemoryOnly s v ∧ BytesKept s v pa n at_ ∧
          cohBytes v pa n = (List.range n).map (fun j => storeByte t (src.toNat + j)) ∧
          (∃ tiles, u = { v with tiles := tiles }) ∧ sameTile u ∧ (∀ a, storeByte (tileOf u site) a = storeByte t a) ∧
          NMap.find (tileOf u site).streams k = left { data := (List.range 64).map fun j => storeByte t (src.toNat / 64 * 64 + j)
                                                       poison := NSet.has t.storePoison (src.toNat / 64) })) ∧
    (∀ k x, NMap.find t.streams k = some x → x.st = .active → x.moved = true → let n := x.rows * x.rowBytes
      ∃ u, exec (.streamComplete site k) s = .next u ∧ (site < 384 → l.ctx < 4096 → counter u 5 l.ctx 8 = satAdd (counter s 5 l.ctx 8) (BitVec.ofNat 64 (min n (2 ^ 64 - 1)))) ∧
        u.mem = s.mem ∧ (∀ j, j ≠ k → NMap.find (tileOf u site).streams j = NMap.find t.streams j) ∧
        (x.bp = false → NMap.find (tileOf u site).streams k = none ∧ (∀ a q, bqOf (tileOf u a) q = bqOf (tileOf s a) q)) ∧
        (∀ dest, x.bp = true → l.sites[x.d5.toNat / 2 ^ 50 % 512]? = some dest → let q := x.d5.toNat / 2 ^ 59 % 16
          deferredBefore s dest q s.reqCtr = false →
          let b : T64 := strmBaton t.index x
          let items := (bqOf (tileOf s dest) q).items
          (items.length < 64 → (bqOf (tileOf u dest) q).items = items ++ [b] ∧ NMap.find (tileOf u site).streams k = none) ∧
          (64 ≤ items.length → bqOf (tileOf u dest) q = bqOf (tileOf s dest) q ∧
            (tileOf u site).deferred = t.deferred ++ [{ slot := some k, site := dest, queue := q, baton := b, order := s.reqCtr }] ∧
            NMap.find (tileOf u site).streams k = some { x with frozen := [], st := .posting })))

/-- R272 to R276: BATON.PUT adds a baton to a queue that has room, BATON.TAKE and BATON.TRY take the oldest, TRY of an empty queue gives all
ones, BQ.COUNT counts, BQ.ARM and BQ.DISARM arm and disarm; groups that wait for the baton or for the room become eligible; an
armed queue starts its group with the baton once that does not run; a deferred baton is posted when there is room. A bad operand faults BATON_INVALID with its reason. -/
def Obligations.Batons : Prop :=
  (let queue := fun (s : State) site (q : T64) => bqOf (tileOf s site) q.val.toNat
  let takes := fun (s : State) site (q : T64) (u : State) (b : T64) (rest : List T64) =>
    (queue s site q).items = b :: rest ∧
      u = wakeAll (updTile s site fun t => setBq t q.val.toNat { bqOf t q.val.toNat with items := rest })
  let queueOk := fun (s : State) site (q : T64) => q.poison = false ∧ q.val.toNat < 16 ∧ (queue s site q).armed = none
  let puts := fun (s : State) (l : Launch) (b d : T64) (u : State) => d.poison = false ∧ b.val.toNat % 64 = 0 ∧
    d.val &&& 0xFFFFFFFFFFF0FE00#64 = 0 ∧ ∃ dest, l.sites[d.val.toNat % 512]? = some dest ∧
    let x := bqOf (tileOf s dest) (d.val.toNat / 65536 % 16)
    x.items.length < 64 ∧ u = wake (updTile s dest fun t => setBq t (d.val.toNat / 65536 % 16) { x with items := x.items ++ [b] }) dest
  (∀ s site l pc s1 (f : CrF), CcReady false s site l pc s1 →
    let x := fun r : BitVec 6 => ccReg (tileOf s1 site) r.toNat
    let retires := fun i u (rd : BitVec 6) v => ∃ t, exec i s = .next t ∧ CcRetired u t l site rd.toNat v (pc + 4)
    let invalid := fun i (n : DWord) => exec i s = .next (tileFault s1 l site 1 batonInvalid (pc &&& 0xFFFFFFFFFFFFF#64) pc n)
    (f.fn = 0 → f.rd = 0 → (∀ u, puts s1 l (x f.rs1) (x f.rs2) u → retires (.batonPut site (.cc f)) u 0 T64.zero) ∧
      ((x f.rs2).poison = false → (x f.rs1).val.toNat % 64 ≠ 0 → invalid (.batonPut site (.cc f)) 1)) ∧
    (f.rs1 = 0 → let q := x f.rs2
      (queueOk s1 site q → (∀ u b rest, takes s1 site q u b rest →
          (f.fn = 1 → retires (.batonTake site (.cc f)) u f.rd b) ∧ (f.fn = 2 → retires (.batonTry site (.cc f)) u f.rd b)) ∧
        ((queue s1 site q).items = [] → (f.fn = 1 → exec (.batonTake site (.cc f)) s = .next s1) ∧
          (f.fn = 2 → retires (.batonTry site (.cc f)) s1 f.rd { val := BitVec.allOnes 64, poison := false }))) ∧
      (q.poison = false → q.val.toNat < 16 → f.fn = 5 →
        retires (.bqCount site (.cc f)) s1 f.rd { val := BitVec.ofNat 64 (queue s1 site q).items.length, poison := false }) ∧
      (q.poison = false → 16 ≤ q.val.toNat → (f.fn = 1 → invalid (.batonTake site (.cc f)) 3) ∧
        (f.fn = 2 → invalid (.batonTry site (.cc f)) 3) ∧ (f.fn = 5 → invalid (.bqCount site (.cc f)) 3)))) ∧
  (∀ s site g l lanes pc s1 (f : TrF), ThReady s site g l lanes pc s1 → f.mod = 1 → f.rsv = 0 →
    let x := groupOf (tileOf s1 site) g
    let use := fun (r : BitVec 8) n => ({ r := r.toNat, n := n } : RegUse)
    let fields := ThFields s site g l lanes
    let i := lanes.headD 0
    let q := wide (treg x i f.src2.toNat)
    let gives := fun c u n (v : TGroup → Nat → Prop) => ∃ t y, exec c s = .next t ∧ ThRetired u t l site g lanes y (fun _ => pc + 8) ∧
      OnlyRegs x y lanes f.dst.toNat n ∧ (f.dst ≠ 255 → ∀ i ∈ lanes, v y i)
    (f.fn = 0 → fields [use f.src1 2, use f.src2 2] [f.dst.toNat, f.src3.toNat] none →
      ∀ u, puts s1 l (tpair x i f.src1.toNat) (tpair x i f.src2.toNat) u → ∃ t, exec (.batonPut site (.th g f)) s = .next t ∧
        ThRetired u t l site g lanes x fun _ => pc + 8) ∧
    (fields [use f.dst 2, use f.src2 1] [f.src1.toNat, f.src3.toNat] (some (use f.dst 2)) → queueOk s1 site q →
      ∀ u b rest, takes s1 site q u b rest →
        (f.fn = 1 → gives (.batonTake site (.th g f)) u 2 fun y i => tpair y i f.dst.toNat = b) ∧
        (f.fn = 2 → gives (.batonTry site (.th g f)) u 2 fun y i => tpair y i f.dst.toNat = b)) ∧
    (f.fn = 5 → fields [use f.dst 1, use f.src2 1] [f.src1.toNat, f.src3.toNat] (some (use f.dst 1)) → q.poison = false →
      q.val.toNat < 16 → gives (.bqCount site (.th g f)) s1 1 fun y i =>
        treg y i f.dst.toNat = { val := BitVec.ofNat 32 (queue s1 site q).items.length, poison := false })) ∧
  (∀ s site g l lanes pc s1 (f : TrF) (u : Nat → State), ThReady s site g l lanes pc s1 → f.mod = 0 → f.rsv = 0 → u 0 = s1 →
    let x := groupOf (tileOf s1 site) g
    let use := fun (r : BitVec 8) n => ({ r := r.toNat, n := n } : RegUse)
    let fields := ThFields s site g l lanes
    let q := fun i => wide (treg x i f.src2.toNat)
    let gives := fun c n (v : TGroup → Nat → Nat → Prop) => ∃ t y, exec c s = .next t ∧ ThRetired (u lanes.length) t l site g lanes y (fun _ => pc + 8) ∧
      OnlyRegs { x with laneDone := y.laneDone } y lanes f.dst.toNat n ∧ (f.dst ≠ 255 → ∀ k i, lanes[k]? = some i → v y k i)
    x.laneDone &&& maskOf lanes = 0 →
    (f.fn = 0 → fields [use f.src1 2, use f.src2 2] [f.dst.toNat, f.src3.toNat] none →
      (∀ k i, lanes[k]? = some i → puts (u k) l (tpair x i f.src1.toNat) (tpair x i f.src2.toNat) (u (k + 1))) →
      ∃ t, exec (.batonPut site (.th g f)) s = .next t ∧ ThRetired (u lanes.length) t l site g lanes x fun _ => pc + 8) ∧
    (fields [use f.dst 2, use f.src2 1] [f.src1.toNat, f.src3.toNat] (some (use f.dst 2)) →
      ∀ b : Nat → T64, (∀ k i, lanes[k]? = some i → queueOk (u k) site (q i) ∧ ∃ rest, takes (u k) site (q i) (u (k + 1)) (b k) rest) →
        (f.fn = 1 → gives (.batonTake site (.th g f)) 2 fun y k i => tpair y i f.dst.toNat = b k) ∧
        (f.fn = 2 → gives (.batonTry site (.th g f)) 2 fun y k i => tpair y i f.dst.toNat = b k)) ∧
    (f.fn = 5 → fields [use f.dst 1, use f.src2 1] [f.src1.toNat, f.src3.toNat] (some (use f.dst 1)) →
      (∀ k i, lanes[k]? = some i → (q i).poison = false ∧ (q i).val.toNat < 16 ∧ u (k + 1) = s1) →
      gives (.bqCount site (.th g f)) 1 fun y _ i =>
        treg y i f.dst.toNat = { val := BitVec.ofNat 32 (queue s1 site (q i)).items.length, poison := false }))) ∧
  ((∀ s site l pc s1 (f : CrF), CcReady false s site l pc s1 →
    let e := ccReg (tileOf s1 site) f.rs1.toNat
    let d := ccReg (tileOf s1 site) f.rs2.toNat
    let q := d.val.toNat % 16
    let g := d.val.toNat / 256 % 64
    let retires := fun i u => ∃ t, exec i s = .next t ∧ CcRetired u t l site 0 T64.zero (pc + 4)
    let invalid := fun i (n : DWord) => exec i s = .next (tileFault s1 l site 1 batonInvalid (pc &&& 0xFFFFFFFFFFFFF#64) pc n)
    (f.fn = 3 → f.rd = 0 → e.poison = false → d.poison = false →
      (d.val &&& 0xFFFFFFFFFFFFC0F0#64 = 0 →
        ((bqOf (tileOf s1 site) q).armed = none → g < l.groups → e.val.toNat % 8 = 0 →
          retires (.bqArm site f) (updTile s1 site fun t => setBq t q { bqOf t q with armed := some (e.val, g) })) ∧
        ((bqOf (tileOf s1 site) q).armed ≠ none ∨ l.groups ≤ g ∨ e.val.toNat % 8 ≠ 0 → invalid (.bqArm site f) 5)) ∧
      (d.val &&& 0xFFFFFFFFFFFFC0F0#64 ≠ 0 → invalid (.bqArm site f) 3)) ∧
    (f.fn = 4 → f.rd = 0 → f.rs1 = 0 → d.poison = false →
      (d.val.toNat < 16 → retires (.bqDisarm site f) (updTile s1 site fun t => setBq t d.val.toNat { bqOf t d.val.toNat with armed := none })) ∧
      (16 ≤ d.val.toNat → invalid (.bqDisarm site f) 3))) ∧
  (∀ s site q l e g b rest, s.run = .up → runningLaunch s site = some l → q < 16 →
    (bqOf (tileOf s site) q).armed = some (e, g) → (bqOf (tileOf s site) q).items = b :: rest →
    ((groupOf (tileOf s site) g).running = true → exec (.armedQueueStart site q) s = .next s) ∧
    ((groupOf (tileOf s site) g).running = false →
      (∀ k, k < 16 → k ≠ q → ∀ e', (bqOf (tileOf s site) k).armed ≠ some (e', g)) →
      ∃ t, exec (.armedQueueStart site q) s = .next t ∧ (bqOf (tileOf t site) q).items = rest ∧
        let x := groupOf (tileOf t site) g
        x.running = true ∧ x.exited = 0 ∧ (∀ i, i < 32 → lanePc x i = e ∧ callDepth x i = 0 ∧
          (3 < l.regs → treg x i 0 = { val := BitVec.ofNat 32 i, poison := false } ∧ treg x i 1 = { val := BitVec.ofNat 32 g, poison := false } ∧
            treg x i 2 = { val := b.val.extractLsb' 0 32, poison := b.poison } ∧
            treg x i 3 = { val := b.val.extractLsb' 32 32, poison := b.poison })) ∧
        (∀ k, k ≠ g → (groupOf (tileOf t site) k).regs = (groupOf (tileOf s site) k).regs) ∧
        (∀ k, k ≠ q → bqOf (tileOf t site) k = bqOf (tileOf s site) k) ∧ t.mem = s.mem)) ∧
  (∀ s site l d rest, s.run = .up → runningLaunch s site = some l → (tileOf s site).deferred = d :: rest →
    let x := bqOf (tileOf s d.site) d.queue
    x.items.length < 64 → deferredBefore s d.site d.queue d.order = false → ∃ t, exec (.deferredBatonPost site) s = .next t ∧ (tileOf t site).deferred = rest ∧
      (bqOf (tileOf t d.site) d.queue).items = x.items ++ [d.baton] ∧
      ∀ k, d.slot = some k → NMap.find (tileOf t site).streams k = none))

/-- R277 to R281: MSG.SEND puts a message on the tile's path of 64 and goes on; MSG.GET reads its target, and MSG.FLUSH retires
once every earlier message of the issuer is performed; MESSAGE_DELIVERY performs a message at its target, in order to
each target. A destination that does not exist, or is malformed, faults MESSAGE_DEST. -/
def Obligations.Messages : Prop :=
  let wellFormed := fun (s : State) (l : Launch) (d : MsgDest) get => d.poison = false ∧ destRsv d get = false ∧
    d.addr.toNat % d.len = 0 ∧ (d.dkind = 0 → d.tile < l.sites.length) ∧ (d.dkind = 2 → jobFor s l.ctx l.cmd.queue ≠ 0)
  (∀ s site l pc s1 (f : CrF), CcReady false s site l pc s1 →
    let t := tileOf s1 site
    let d := ccDest t f.rs1.toNat
    let retires := fun i u => ∃ t, exec i s = .next t ∧ CcRetired u t l site 0 T64.zero (pc + 4)
    (f.fn = 0 → f.rd = 0 → f.rs1.toNat % 2 = 0 → wellFormed s1 l d false → f.rs2.toNat + (d.len + 7) / 8 ≤ 64 →
      (d.dkind = 2 → (ccBytes t f.rs2.toNat d.len).2 = false) →
      (msgsInFlight s1 site < 64 → ∃ m, m.issuer = none ∧ m.w0 = d.w0 ∧ m.w1 = d.w1 ∧ m.pc = pc ∧ m.payload.length = d.len ∧
        (∀ j, j < d.len → m.payload[j]? = some ((ccReg t (f.rs2.toNat + j / 8)).val.extractLsb' (j % 8 * 8) 8)) ∧
        retires (.msgSend site (.cc f)) (updTile s1 site fun t => { t with msgs := t.msgs ++ [m] })) ∧
      (64 ≤ msgsInFlight s1 site → exec (.msgSend site (.cc f)) s = .next s1)) ∧
    (f.fn = 1 → f.rs2 = 0 → f.rs1.toNat % 2 = 0 → wellFormed s1 l d true → 0 < f.rd.toNat → f.rd.toNat + (d.len + 7) / 8 ≤ 64 →
      t.msgs = [] → msgsInFlight s1 site < 64 →
      ∀ dest, d.dkind = 0 → l.sites[d.tile]? = some dest → d.addr.toNat + d.len ≤ l.store * 1024 →
        ∃ u t', exec (.msgGet site (.cc f)) s = .next u ∧ CcRetired (updTile s1 site fun _ => t') u l site 0 T64.zero (pc + 4) ∧
          t' = { t with ccRegs := t'.ccRegs } ∧
          (∀ r, r < f.rd.toNat ∨ f.rd.toNat + (d.len + 7) / 8 ≤ r → ccReg t' r = ccReg t r) ∧
          ∀ k, k < (d.len + 7) / 8 → ccReg t' (f.rd.toNat + k) =
            { val := BitVec.ofNat 64 (leNat ((List.range (min 8 (d.len - 8 * k))).map fun j => storeByte (tileOf s1 dest) (d.addr.toNat + 8 * k + j)))
              poison := NSet.has (tileOf s1 dest).storePoison (d.addr.toNat / 64) }) ∧
    (f.fn = 2 → f.rd = 0 → f.rs1 = 0 → f.rs2 = 0 → (∀ m ∈ t.msgs, m.issuer ≠ none) → s1.remotes = [] →
      retires (.msgFlush site (.cc f)) s1) ∧
    (f.fn = 0 → f.rd = 0 → f.rs1.toNat % 2 = 0 → d.poison = false → destRsv d false = true → f.rs2.toNat + (d.len + 7) / 8 ≤ 64 →
      exec (.msgSend site (.cc f)) s = .next (tileFault s1 l site 6 messageDest (pc &&& 0xFFFFFFFFFFFFF#64) pc 0))) ∧
  (∀ s site g l lanes pc s1 (f : TrF), ThReady s site g l lanes pc s1 → f.mod = 0 → f.rsv = 0 →
    ThFields s site g l lanes [] [f.dst.toNat, f.src1.toNat, f.src2.toNat, f.src3.toNat] none → f.fn = 2 →
    (∀ m ∈ (tileOf s1 site).msgs, ∀ i ∈ lanes, m.issuer ≠ some (g * 32 + i)) → s1.remotes = [] →
    ∃ t, exec (.msgFlush site (.th g f)) s = .next t ∧ ThRetired s1 t l site g lanes (groupOf (tileOf s1 site) g) fun _ => pc + 8) ∧
  (∀ s site g l lanes pc s1 (f : TrF), ThReady s site g l lanes pc s1 → f.mod = 0 → f.rsv = 0 → s1.remotes = [] →
    let t := tileOf s1 site
    let x := groupOf t g
    let d := fun i => thDest x i f.src1.toNat
    let n := msgRegs s site g f.src1
    let use := fun (r : BitVec 8) n => ({ r := r.toNat, n := n } : RegUse)
    let aligned := fun (r : BitVec 8) => r = 255 ∨ (r.toNat % 4 = 0 ∧ r.toNat + n ≤ l.regs)
    let reg := fun i (r : BitVec 8) k => if r = 255 then T32.zero else treg x i (r.toNat + k)
    x.laneDone &&& maskOf lanes = 0 → msgsInFlight s1 site + lanes.length ≤ 64 →
    (f.fn = 0 → aligned f.src2 → ThFields s site g l lanes [use f.src1 4, use f.src2 n] [f.dst.toNat, f.src3.toNat] none →
      (∀ i ∈ lanes, wellFormed s1 l (d i) false ∧ ((d i).dkind = 2 → (tbytes x i f.src2.toNat (d i).len).2 = false)) →
      ∃ u, ∃ ms : List Msg, exec (.msgSend site (.th g f)) s = .next u ∧
        ThRetired (updTile s1 site fun t => { t with msgs := t.msgs ++ ms }) u l site g lanes x (fun _ => pc + 8) ∧
        ms.length = lanes.length ∧ ∀ (k i : Nat) (m : Msg), lanes[k]? = some i → ms[k]? = some m → m.issuer = some (g * 32 + i) ∧
          m.w0 = (d i).w0 ∧ m.w1 = (d i).w1 ∧ m.pc = pc ∧ m.payload.length = (d i).len ∧
          ∀ j, j < (d i).len → m.payload[j]? = some ((reg i f.src2 (j / 4)).val.extractLsb' (j % 4 * 8) 8)) ∧
    (f.fn = 1 → aligned f.dst → ThFields s site g l lanes [use f.dst n, use f.src1 4] [f.src2.toNat, f.src3.toNat] (some (use f.dst n)) →
      t.msgs = [] → ∀ dest : Nat → Nat, (∀ i ∈ lanes, wellFormed s1 l (d i) true ∧ (d i).dkind = 0 ∧ l.sites[(d i).tile]? = some (dest i) ∧
        (d i).addr.toNat + (d i).len ≤ l.store * 1024) →
      ∃ u y, exec (.msgGet site (.th g f)) s = .next u ∧ ThRetired s1 u l site g lanes y (fun _ => pc + 8) ∧
        OnlyRegs { x with laneDone := y.laneDone } y lanes f.dst.toNat n ∧ (f.dst ≠ 255 → ∀ i ∈ lanes,
          tbytes y i f.dst.toNat (d i).len = ((List.range (d i).len).map fun j => storeByte (tileOf s1 (dest i)) ((d i).addr.toNat + j),
            NSet.has (tileOf s1 (dest i)).storePoison ((d i).addr.toNat / 64))))) ∧
  (∀ s site l m rest, s.run = .up → runningLaunch s site = some l → (tileOf s site).msgs = m :: rest → noFaults s = true →
    let d : MsgDest := { w0 := m.w0, w1 := m.w1, poison := false }
    (∀ dest, d.dkind = 0 → l.sites[d.tile]? = some dest → d.bp = false → d.addr.toNat + m.payload.length ≤ l.store * 1024 →
      ∃ t, exec (.messageDelivery site 0) s = .next t ∧ (tileOf t site).msgs = rest ∧ t.mem = s.mem ∧ (∀ k, k ≠ site → k ≠ dest → tileOf t k = tileOf s k) ∧
        ∀ a, storeByte (tileOf t dest) a = if d.addr.toNat ≤ a ∧ a < d.addr.toNat + m.payload.length
          then (m.payload[a - d.addr.toNat]?).getD 0 else storeByte (tileOf s dest) a) ∧
    (∀ pa cp at_, d.dkind = 1 → d.op = 0 → Reaches s l.ctx .write d.addr pa cp at_ → frozenSector s (pa / 64) = false →
      pa % 64 + m.payload.length ≤ 64 → 0 < m.payload.length →
      ∃ t, exec (.messageDelivery site 0) s = .next t ∧ (tileOf t site).msgs = rest ∧ BytesKept s t pa m.payload.length at_ ∧
        cohBytes t pa m.payload.length = m.payload)) ∧
  (∀ s site l pos m, s.run = .up → runningLaunch s site = some l → (tileOf s site).msgs[pos]? = some m →
    (∃ k n, k < pos ∧ (tileOf s site).msgs[k]? = some n ∧ n.issuer = m.issuer ∧ sameGoal n.w0 n.w1 m.w0 m.w1 = true) →
    exec (.messageDelivery site pos) s = .next s)

/-! ### The command front end -/

/-- R66, R67, R69, R71 to R76: a doorbell moves TAIL, rings the queue and binds it, or is rejected with a notification, or does
nothing where it is stale; a freed slot goes to the head of the waiting list; PACKET_PARSE reads the packet at HEAD, and
it fails with the first check that it fails, is aborted, or takes its references and waits. -/
def Obligations.FrontEnd : Prop :=
  (∀ s ctx queue (data : DWord) stores, s.run = .up → linkUp s = true → ctx < 4096 → queue < 16 →
    let q := queueOf s ctx queue
    let st := (ctxOf s ctx).state
    let s1 := companionStores s stores
    let tail : Word := data.extractLsb' 0 32
    let rings := (tail - q.tail).toNat < 2 ^ 31 ∧ (tail - q.head).toNat ≤ 2 ^ (6 + (ringsOf s q).1)
    let serves := (st = .active ∨ st = .suspended ∨ st = .faulted) ∧ q.qstate ≠ .disabled ∧ q.bootRings = false ∧ ringMarked s q = false
    let rejected := exec (.doorbellWrite ctx queue data stores) s = .next (notify s1 5 queue ctx tail 0)
    (serves → rings → ∃ t, exec (.doorbellWrite ctx queue data stores) s = .next t ∧ t.mem = s1.mem ∧ t.cmds = s.cmds ∧
      t.ctxs = s.ctxs ∧ t.bells = s.bells.filter (· != ctx * 16 + queue) ++ [ctx * 16 + queue] ∧
      let r := queueOf t ctx queue
      r = { q with tail := tail, bound := r.bound, slot := r.slot } ∧
      (q.qstate = .enabled → r.bound = true ∨ ctx * 16 + queue ∈ t.waiting) ∧ (q.bound = true → r.bound = true)) ∧
    (serves → 2 ^ 31 ≤ (tail - q.tail).toNat → exec (.doorbellWrite ctx queue data stores) s = .next s1) ∧
    (serves → (tail - q.tail).toNat < 2 ^ 31 → 2 ^ (6 + (ringsOf s q).1) < (tail - q.head).toNat → rejected) ∧
    (st = .free ∨ st = .killing ∨ st = .scrubbing ∨ q.qstate = .disabled ∨ ringMarked s q = true → rejected)) ∧
  (∀ s, s.run = .up → (s.waiting = [] → exec .queueBindFromWait s = .next s) ∧
    ∀ q r, s.waiting = q :: r → ((queueOf s (q / 16) (q % 16)).bound = true → exec .queueBindFromWait s = .next { s with waiting := r }) ∧
      ((queueOf s (q / 16) (q % 16)).bound = false → (usedSlots s).length < 16384 → ∃ t, exec .queueBindFromWait s = .next t ∧ t.waiting = r ∧
      let b := queueOf t (q / 16) (q % 16)
      b = { queueOf s (q / 16) (q % 16) with bound := true, slot := b.slot } ∧ b.slot.toNat ∉ usedSlots s ∧
      (∀ k, k ≠ q → NMap.getD t.queues k Queue.empty = NMap.getD s.queues k Queue.empty) ∧
      t = { s with waiting := r, queues := t.queues, freeCtr := s.freeCtr + 1 })) ∧
  (∀ s ctx queue, s.run = .up → ctx < 4096 → queue < 16 → let q := queueOf s ctx queue
    (q.head = q.tail → q.lists = none → exec (.packetParse ctx queue) s = .next s) ∧
    (mayParse s ctx queue = false → exec (.packetParse ctx queue) s = .next s) ∧
    (mayParse s ctx queue = true → q.lists = none → q.head ≠ q.tail →
      let c : CmdRef := { ctx := ctx, queue := queue, index := q.head.toNat, lpos := 0 }
      let addr := (ringsOf s q).2.1 + q.head.toNat % 2 ^ (6 + (ringsOf s q).1) * 64
      let p := RawPacket.ofBytes (cohBytes s addr 64)
      let word := fun k => BitVec.ofNat 64 (leNat (cohBytes s (addr + 8 * k) 8))
      let enters := fun (t : State) (k : Cmd) => k ∈ t.cmds ∧ k.ref = c ∧ k.order = s.cmdCtr ∧ k.pktAddr = BitVec.ofNat 64 addr ∧
        k.opcode = cohByte s (addr + 7) ∧ k.w0 = word 4 ∧ k.w1 = word 5 ∧ k.w2 = word 6 ∧ k.w3 = word 7 ∧ k.wval = word 2 ∧
        k.sval = word 3 ∧ k.tag = (word 0).extractLsb' 0 32 ∧ k.notify = (word 0).getLsbD 55 ∧ k.serial = (word 0).getLsbD 54 ∧
        k.ignerr = (word 0).getLsbD 53 ∧ (queueOf t ctx queue).head = q.head + 1 ∧ (queueOf t ctx queue).outst = q.outst + 1
      let poisoned := fun die : BitVec 1 => ({ code := 0x40, queue := queue, operand := 0, die := die, unit := 0, tile := 0, group := 0,
                                               loc := BitVec.ofNat 64 addr, mask := 0, detail := 0x03 } : FaultInfo)
      (cohPoison s addr = true → ∃ die, exec (.packetParse ctx queue) s =
        .next (raiseFault { s with freeCtr := s.freeCtr + 1 } ctx .f (poisoned die))) ∧
      (cohPoison s addr = false → c ∈ s.doomed → refsFull s c p = false → ∃ t k, exec (.packetParse ctx queue) s = .next t ∧
        enters t k ∧ k.phase = .done ∧ k.status = 1 ∧ k.code = 0x25 ∧ t.doomed = s.doomed.filter (· != c)) ∧
      (cohPoison s addr = false → c ∉ s.doomed → ∀ code operand detail, packetFault s ctx q p false = some (code, operand, detail) →
        ∃ t k, exec (.packetParse ctx queue) s = .next t ∧ enters t k ∧ k.phase = .done ∧ k.status = 2 ∧ k.code = BitVec.ofNat 8 code ∧
          k.refs = [] ∧ (ctxOf t ctx).fseq = (ctxOf s ctx).fseq + 1 ∧ (ctxOf t ctx).state = (ctxOf s ctx).state) ∧
      (cohPoison s addr = false → c ∉ s.doomed → packetFault s ctx q p false = none → refsFull s c p = false → p.wfence = 0 →
        ∃ t k, exec (.packetParse ctx queue) s = .next t ∧ enters t k ∧ k.phase = .waiting ∧ k.waits = none ∧
          k.refs = packetRefs s ctx q p ∧ (∀ i, (objOf t i).inflight = (objOf s i).inflight + if i ∈ k.refs then 1 else 0) ∧
          t.ctxs = s.ctxs ∧ t.mem = s.mem) ∧
      (cohPoison s addr = false → refsFull s c p = true → exec (.packetParse ctx queue) s = .next s)))

/-- R28, R61 to R63, R72: COMMAND_START starts, of the ready commands of an engine class, one of the highest priority,
evaluation queues last, the next in round-robin order of its rank, and counts one pass for the others; a command passed over
1,024 times goes first. A ready control command starts. The queue of either is at a command boundary. -/
def Obligations.Arbitration : Prop :=
  (∀ s cls, s.run = .up → let ready := readyOf s cls
    let starts := fun (t : State) (k : Cmd) => k ∈ ready ∧ t = { s with cmds := t.cmds, rr := t.rr, queues := t.queues } ∧
      queueOf t k.ref.ctx k.ref.queue = { queueOf s k.ref.ctx k.ref.queue with keep := none } ∧
      (∀ j, j ≠ qidx k.ref.ctx k.ref.queue → NMap.getD t.queues j Queue.empty = NMap.getD s.queues j Queue.empty) ∧
      t.cmds = s.cmds.map (fun x => if x.ref = k.ref then { x with phase := .started }
        else if ∃ r ∈ ready, r.ref = x.ref then { x with passed := x.passed + 1 } else x) ∧
      NMap.find t.rr cls = some (queueOf s k.ref.ctx k.ref.queue).slot.toNat
    let rank := fun (k : Cmd) => let q := queueOf s k.ref.ctx k.ref.queue
      if q.eval then 0 else q.prio.toNat + 1
    ((∀ k ∈ ready, k.passed < 1024) → ready ≠ [] → ∃ t k, exec (.commandStart (.engine cls)) s = .next t ∧ starts t k ∧
      ∀ j ∈ ready, rank j < rank k ∨ (rank j = rank k ∧ rrDist s cls k ≤ rrDist s cls j)) ∧
    (ready = [] → exec (.commandStart (.engine cls)) s = .next s) ∧
    ((∃ k ∈ ready, 1024 ≤ k.passed) → exec (.commandStart (.engine cls)) s = .next s ∧
      ∃ t k, exec (.arbitrationStarvationGuard cls) s = .next t ∧ starts t k ∧ ∀ j ∈ ready, j.passed ≤ k.passed) ∧
    ((∀ k ∈ ready, k.passed < 1024) → exec (.arbitrationStarvationGuard cls) s = .next s)) ∧
  (∀ s ctx queue k, s.run = .up → readyHead s ctx queue = some k → opClass k.opcode.toNat = some none →
    exec (.commandStart (.control ctx queue)) s =
      .next (updQueue { s with cmds := s.cmds.map fun x => if x.ref = k.ref then { x with phase := .started } else x }
        k.ref.ctx k.ref.queue fun q => { q with keep := none }))

/-- R68, R78, R79, R82, R84: at its completion a command's fence is signalled, its record is written in companion memory at CPROD,
CPROD and RETIRED count it, its references are dropped, and it is gone; in a FAULTED context it is held. A signal raises a fence's value, an error also
sets ERR and the first CODE, and ends every wait that is then reached. -/
def Obligations.Retirement : Prop :=
  (∀ s c k, s.run = .up → linkUp s = true → cmdOf s c = some k → k.phase = .done → (k.opcode ≠ 0x03 ∨ k.ref.lpos ≠ 0 ∨ listedLeft s c = false) →
    (ctxOf s c.ctx).state ≠ .faulted → s.collRuns = [] →
    let q := queueOf s c.ctx c.queue
    let pa := (ringsOf s q).2.2.2 + q.cprod.toNat % 2 ^ (6 + (ringsOf s q).2.2.1) * 32
    k.sfence = 0 → k.notify = false → k.refs = [] → s.waiting = [] → s.heldGroups = [] → s.updRuns = [] → s.halts = [] →
    c.queue < 16 → c.ctx < 4096 →
    ∃ t, exec (.commandCompletion c) s = .next t ∧ t = { s with mem := t.mem, queues := t.queues, cmds := s.cmds.filter (fun x => x.ref != c) } ∧
      queueOf t c.ctx c.queue = { q with
        cprod := q.cprod + 1, retired := q.retired + 1, outst := q.outst - 1
        keep := if t.cmds.any fun x => x.ref.ctx == c.ctx && x.ref.queue == c.queue && x.phase == .started then q.keep else none } ∧
      (∀ a, ¬ (pa ≤ a ∧ a < pa + 32) → memByte t a = memByte s a) ∧
      let word := fun n => leNat ((List.range 8).map fun j => memByte t (pa + 8 * n + j))
      word 0 = k.status.toNat * 2 ^ 56 + k.code.toNat * 2 ^ 48 + c.queue * 2 ^ 44 + c.ctx * 2 ^ 32 + k.tag.toNat ∧
      word 1 = c.lpos % 2 ^ 32 * 2 ^ 32 + c.index % 2 ^ 32 ∧ word 2 = k.result.toNat ∧ word 3 = 0) ∧
  (∀ s c k, s.run = .up → cmdOf s c = some k → k.phase = .done → (k.opcode ≠ 0x03 ∨ k.ref.lpos ≠ 0 ∨ listedLeft s c = false) →
    ((ctxOf s c.ctx).state = .faulted → exec (.commandCompletion c) s = .next s) ∧ ((ctxOf s c.ctx).state ≠ .faulted →
    ∃ t, exec (.commandCompletion c) s = .next t ∧ (∀ x ∈ t.cmds, x.ref ≠ c) ∧
      (k.sfence ≠ 0 → k.status = 0 → k.errSignal = 0 → k.refs = [] → fenceStands s k.sfence = true →
        let i := originOf s (hIndex k.sfence)
        (objOf t i).w1 = if (objOf s i).w1.toNat < k.sval.toNat then k.sval else (objOf s i).w1))) ∧
  (∀ s i val err, let t := signalFence s i val err
    let o := objOf s i
    let p := objOf t i
    p.w1 = (if o.w1.toNat < val.toNat then val else o.w1) ∧ (∀ j, j ≠ i → objOf t j = objOf s j) ∧
    (err = none → fenceErr p = fenceErr o ∧ fenceCode p = fenceCode o) ∧
    (∀ e, err = some e → e < 256 → fenceErr p = true ∧ fenceCode p = if fenceCode o = 0 then e else fenceCode o) ∧
    (∀ k ∈ t.cmds, k.waits = some i → k.phase = .waiting → (ctxOf s k.ref.ctx).state ≠ .faulted → waitEnd p k.ignerr k.wval = .goesOn)) ∧
  (∀ (o : Obj) ign (v : DWord), let reached := v.toNat ≤ o.w1.toNat
    let err := o.w2.getLsbD 63 = true
    (waitEnd o ign v = .ok ↔ reached ∧ (ign = true ∨ ¬ err)) ∧
    (waitEnd o ign v = .goesOn ↔ ¬ reached ∧ ¬ err) ∧
    (waitEnd o ign v = .error (o.w2.toNat / 2 ^ 48 % 256) ↔ err ∧ (ign = false ∨ ¬ reached)))

/-- R25 to R27, R57, R58: a class F fault takes the next FSEQ and sets FIRSTCODE; its 64-byte record stands at FRPROD where the
ring has room, and is counted lost otherwise; an ACTIVE or SUSPENDED context becomes FAULTED, its queues STOPPED and its
tiles free. -/
def Obligations.ContextFault : Prop :=
  ∀ s ctx f, s.run = .up → isClassF f.code.toNat = true → ctx < 4096 → (ctxOf s ctx).state ≠ .free →
    let d := ctxOf s ctx
    ∃ t, exec (.contextFault ctx f) s = .next t ∧
      let e := ctxOf t ctx
      let room := d.frset = true ∧ (d.frprod - d.frcons).toNat < 2 ^ (6 + d.frsize.toNat)
      e.fseq = d.fseq + 1 ∧ e.firstcode = (if d.firstcode = 0 then f.code else d.firstcode) ∧
      (room → e.frprod = d.frprod + 1 ∧ e.frlost = d.frlost) ∧ (¬ room → e.frprod = d.frprod ∧ e.frlost = d.frlost + 1) ∧
      (∀ c, c ≠ ctx → ctxOf t c = ctxOf s c) ∧
      (d.state = .active ∨ d.state = .suspended → e.state = .faulted ∧ (∀ l ∈ t.launches, l.ctx ≠ ctx) ∧
        (∀ q, q < 16 → (queueOf t ctx q).qstate = if (queueOf s ctx q).qstate = .disabled then .disabled else .stopped) ∧
        (∀ k c, (tileOf t k).launch = some c → c.ctx ≠ ctx)) ∧
      (d.state ≠ .active → d.state ≠ .suspended → e.state = d.state) ∧
      (∀ pa, room → pa = d.frbase.toNat * 64 + d.frprod.toNat % 2 ^ (6 + d.frsize.toNat) * 64 → pa < 0xBC00000000 → f.queue < 16 →
        let word := fun n => leNat (cohBytes t (pa + 8 * n) 8)
        word 0 = f.code.toNat * 2 ^ 56 + 2 * 2 ^ 54 + f.queue * 2 ^ 44 + ctx * 2 ^ 32 + d.fseq.toNat ∧
        word 1 = f.operand.toNat ∧ word 2 = f.die.toNat * 2 ^ 63 + f.unit.toNat * 2 ^ 59 + f.tile.toNat * 2 ^ 51 + f.group.toNat * 2 ^ 45 ∧
        word 3 = f.loc.toNat ∧ word 4 = f.mask.toNat ∧ word 5 = f.detail.toNat ∧ word 6 = 0 ∧ word 7 = 0)

/-! ### Control commands -/

/-- R24 to R28, R64, R73, R75: CTX_CREATE makes a FREE context ACTIVE with the packet's fields, CTX_CONFIG sets the fields that SEL
selects, a queue with a started command keeping the old PART, JOB and DEADCHK, QUEUE_CONFIG sets a queue's class, priority and
state and gives an idle queue a new ring, and XLAT_INVAL removes cached translations and ends the use of earlier table entries
(R36); each fails with BAD_PACKET on a context that it may not name. -/
def Obligations.ContextConfiguration : Prop :=
  ∀ s c k, let ctx := k.w0.toNat % 4096
    let d := ctxOf s ctx
    let field := fun (w : DWord) lo n => w.extractLsb' lo n
    let fails := fun i => exec i s = .next (failC s k 0 badPacket 0 0)
    let gone := d.state = .free ∨ d.state = .killing ∨ d.state = .scrubbing
    (Runs s c 0x10 k → (d.state ≠ .free → fails (.ctxCreate c)) ∧
      (d.state = .free → ∃ u, exec (.ctxCreate c) s = .next (finish u c 0 0 0) ∧ u = { s with ctxs := u.ctxs, routes := u.routes, counters := u.counters } ∧
        ctxOf u ctx = { Ctx.empty with
          state := .active, priv := k.w0.getLsbD 12, deadchk := k.w0.getLsbD 13, part := field k.w0 16 6, job := field k.w0 24 20
          objquota := field k.w0 44 20, root := field k.w1 16 32, frsize := field k.w1 60 4, frbase := field k.w2 6 42
          frset := true, seed := k.w3 } ∧
        (∀ e, e ≠ ctx → ctxOf u e = ctxOf s e) ∧ (∀ w, w < 64 → counter u 5 ctx w = 0) ∧
        ∀ i, rCtx (routeOf u i) = ctx → rValid (routeOf u i) = false)) ∧
    (Runs s c 0x11 k → (gone → fails (.ctxConfig c)) ∧
      (¬ gone → ∃ u, exec (.ctxConfig c) s = .next (finish u c 0 0 0) ∧ u = { s with ctxs := u.ctxs, queues := u.queues } ∧
        (∀ e, e ≠ ctx → ctxOf u e = ctxOf s e) ∧
        let sel := k.w1.getLsbD
        (∀ x q, x < 4096 → q < 16 → queueOf u x q =
          if x = ctx ∧ (sel 0 || sel 1 || sel 2) = true ∧ (∃ y ∈ s.cmds, y.ref.ctx = ctx ∧ y.ref.queue = q ∧ y.phase = .started) then
            { queueOf s x q with keep := some ((queueOf s x q).keep.getD { part := d.part, job := d.job, deadchk := d.deadchk }) }
          else queueOf s x q) ∧
        ctxOf u ctx = { d with
          part := if sel 0 then field k.w0 16 6 else d.part, job := if sel 1 then field k.w0 24 20 else d.job
          deadchk := if sel 2 then k.w0.getLsbD 13 else d.deadchk, root := if sel 3 then field k.w1 16 32 else d.root
          seed := if sel 4 then k.w3 else d.seed, objquota := if sel 5 then field k.w0 44 20 else d.objquota
          priv := if sel 6 then k.w0.getLsbD 12 else d.priv, frbase := if sel 7 then field k.w2 6 42 else d.frbase
          frsize := if sel 7 then field k.w1 60 4 else d.frsize, frset := if sel 7 then true else d.frset
          frprod := if sel 7 then 0 else d.frprod, frcons := if sel 7 then 0 else d.frcons })) ∧
    (Runs s c 0x16 k → let q := queueOf s ctx (k.w0.toNat / 4096 % 16)
      let h : Word := field k.w1 0 32
      let o := objOf s (h.toNat % 2 ^ 20)
      let suits := ¬ gone ∧ o.owner.toNat = ctx ∧ o.w1.toNat / 2 ^ 60 = k.w0.toNat / 4096 % 16
      let idle := q.head = q.tail ∧ q.outst = 0
      let same := q.ring = h ∧ q.bootRings = false
      (¬ suits ∨ (¬ same ∧ ¬ idle) → fails (.queueConfig c)) ∧
      (suits → same ∨ idle → ∃ u, exec (.queueConfig c) s = .next (finish u c 0 0 0) ∧ u = { s with queues := u.queues } ∧
        (∀ j, j ≠ ctx * 16 + k.w0.toNat / 4096 % 16 → NMap.getD u.queues j Queue.empty = NMap.getD s.queues j Queue.empty) ∧
        let r := queueOf u ctx (k.w0.toNat / 4096 % 16)
        r.engine = field k.w0 16 3 ∧ r.prio = field k.w0 20 2 ∧ r.eval = k.w0.getLsbD 22 ∧ r.ring = h ∧ r.bootRings = false ∧
        r.bound = q.bound ∧ r.slot = q.slot ∧
        (if same then r.head = q.head ∧ r.tail = q.tail ∧ r.cprod = q.cprod ∧ r.retired = q.retired
         else r.head = 0 ∧ r.tail = 0 ∧ r.cprod = 0 ∧ r.ccons = 0 ∧ r.retired = 0 ∧ r.outst = 0) ∧
        (d.state ≠ .faulted → r.qstate = if k.w0.getLsbD 23 = false then .disabled
          else if ∃ h ∈ s.halts, h.ctx = ctx ∧ h.queue = k.w0.toNat / 4096 % 16 then .halted else .enabled) ∧
        (d.state = .faulted → k.w0.getLsbD 23 = true → r.qstate = .stopped))) ∧
    (Runs s c 0x17 k → (gone → fails (.xlatInval c)) ∧
      (¬ gone → let first := if k.w0.getLsbD 12 then 0 else k.w1.toNat / 2 ^ 16 % 2 ^ 36
        let n := if k.w0.getLsbD 12 then 2 ^ 36 else k.w2.toNat % 2 ^ 32
        let v : Inval := { ctx := ctx, first := first, n := n, stamp := s.pteCtr }
        ∃ xs, exec (.xlatInval c) s = .next (finish { s with xlats := xs, invals := s.invals ++ [v], pteCtr := s.pteCtr + 1 } c 0 0 0) ∧
          (∀ x, x ∈ xs ↔ x ∈ s.xlats ∧ ¬ (x.ctx = ctx ∧ first ≤ x.page ∧ x.page < first + n)) ∧
          ∀ (va : DWord) at_, (∀ o ∈ s.oldPtes, o.stamp < s.pteCtr) → first ≤ va.toNat / 65536 → va.toNat / 65536 < first + n →
            oldWords { s with xlats := xs, invals := s.invals ++ [v], pteCtr := s.pteCtr + 1 } ctx va.toNat at_ = []))

/-- R25, R75, R85 to R92: CTX_SUSPEND stops an ACTIVE context, saves its tiles and completes once nothing of it runs; CTX_RESUME
makes it ACTIVE again; CONTEXT_KILL stops its queues, drops its commands, and completes when its entries are free;
CMD_ABORT answers how its target stood, and FAULT_RESUME whether its record stood. -/
def Obligations.ContextControl : Prop :=
  ∀ s c k, let ctx := k.w0.toNat % 4096
    let d := ctxOf s ctx
    let fails := fun i => exec i s = .next (failC s k 0 badPacket 0 0)
    (Runs s c 0x12 k →
      (k.pos = 0 → d.state = .suspended → ctx ≠ c.ctx → exec (.ctxSuspend c) s = .next (finish s c 0 0 2)) ∧
      (k.pos = 0 → d.state ≠ .active → d.state ≠ .suspended → fails (.ctxSuspend c)) ∧
      (k.pos = 0 → d.state = .active → ctx = c.ctx → fails (.ctxSuspend c)) ∧
      (k.pos = 0 → d.state = .active → ctx ≠ c.ctx →
        saveBytes * tilesHeld s ctx ≤ (objOf s (k.w1.toNat % 2 ^ 20)).w2.toNat % 2 ^ 32 * 65536 →
        ∃ t, exec (.ctxSuspend c) s = .next t ∧ (ctxOf t ctx).state = .suspended ∧
          ((∀ x ∈ s.cmds, x.ref.ctx = ctx → x.phase = .started → x.opcode ≠ 0x28 ∧ x.opcode ≠ 0x29) →
            ctxOf t ctx = { d with state := .suspended } ∧ t.mem = s.mem ∧ t.tiles = s.tiles) ∧
          (∀ x, cmdOf t c = some x → x.pos = 1) ∧
          ∀ x ∈ t.cmds, x.ref.ctx = ctx → x.phase = .started → (opClass x.opcode.toNat = some (some 0) ∨ opClass x.opcode.toNat = some (some 1)) →
            x.stopped = true) ∧
      (∀ u, k.pos = 1 → d.state = .suspended → (∀ e ∈ s.tiles, heldBy ctx e.2 = true → saveReady s e = true) →
        fillBuffer s (objOf s (k.w1.toNat % 2 ^ 20)) (saveBytes * tilesHeld s ctx) = (u, .ok ()) →
        ∃ t, exec (.ctxSuspend c) s = .next t ∧ (∀ x, cmdOf t c = some x → x.pos = 2) ∧ (∀ j, heldBy ctx (tileOf t j) = false) ∧
          (∀ j, heldBy ctx (tileOf u j) = false → tileOf t j = tileOf u j) ∧ t.ctxs = u.ctxs ∧
          ∀ l ∈ t.launches, l.ctx = ctx → ∀ i x, NMap.find l.saved i = some x → x.l1 = [] ∧ x.icache = [] ∧
            ∀ e ∈ x.streams, e.2.st = .active → e.2.next = e.2.pos ∧ e.2.issued = []) ∧
      (2 ≤ k.pos → d.state = .suspended → (∀ x ∈ s.cmds, x.ref.ctx = ctx → stillRuns s x = false) →
        exec (.ctxSuspend c) s = .next (finish (stopCmds s ctx fun x => x.phase == .started && combineWaits s x.ref) c 0 0 1)) ∧
      (2 ≤ k.pos → d.state = .suspended → (∃ x ∈ s.cmds, x.ref.ctx = ctx ∧ stillRuns s x = true) → exec (.ctxSuspend c) s = .next s)) ∧
    (Runs s c 0x13 k → (d.state ≠ .suspended → fails (.ctxResume c)) ∧
      (d.state = .suspended → suspending s ctx = false → (∀ l ∈ s.launches, l.ctx ≠ ctx) → ∃ t, exec (.ctxResume c) s = .next t ∧
        ctxOf t ctx = { d with state := .active } ∧ (∀ j, tileOf t j = tileOf s j) ∧ t.launches = s.launches ∧ t.halts = s.halts ∧
        (∀ x ∈ t.cmds, x.ref.ctx = ctx → x.stopped = false) ∧
        ∀ x, cmdOf t c = some x → x.phase = .done ∧ x.status = 0 ∧ x.result = 0)) ∧
    (Runs s c 0x14 k → (ctx = c.ctx → fails (.contextKill c)) ∧
      (ctx ≠ c.ctx → (d.state = .free → exec (.contextKill c) s = .next (finish s c 0 0 2)) ∧
        (d.state = .active ∨ d.state = .suspended ∨ d.state = .faulted → ∃ t, exec (.contextKill c) s = .next t ∧
          (ctxOf t ctx).state = .killing ∧ (ctxOf t ctx).killers = [(c, 0)] ∧ (∀ h ∈ t.halts, h.ctx ≠ ctx) ∧
          (∀ i ∈ t.injections, i.ctx ≠ ctx) ∧ (∀ x ∈ t.cmds, x.ref.ctx = ctx → x.phase = .done) ∧
          (∀ x ∈ s.cmds, x.ref.ctx = ctx → x.phase ≠ .done → ∀ y, cmdOf t x.ref = some y → y.status = 3 ∧ y.code = 0x26) ∧
          ∀ q, q < 16 → (queueOf t ctx q).head = (queueOf t ctx q).tail ∧ (queueOf t ctx q).qstate = .stopped))) ∧
    (Runs s c 0x15 k → let seq : Word := k.w1.extractLsb' 0 32
      (d.state = .free ∨ d.state = .killing ∨ d.state = .scrubbing → fails (.faultResume c)) ∧
      (d.state = .active ∨ d.state = .suspended ∨ d.state = .faulted →
        ((∀ h ∈ s.halts, ¬ (h.ctx = ctx ∧ h.seq = seq)) → exec (.faultResume c) s = .next (finish s c 0 0 0)) ∧
        (∀ h, s.halts = [h] → h.ctx = ctx → h.seq = seq → ∃ t, exec (.faultResume c) s = .next (finish t c 0 0 1) ∧ t.halts = [] ∧
          t.mem = s.mem ∧ ((queueOf s ctx h.queue).qstate = .halted → (queueOf t ctx h.queue).qstate = .enabled) ∧
          ∀ site slot x, h.what = .stream site slot → heldBy ctx (tileOf s site) = true → NMap.find (tileOf s site).streams slot = some x →
            x.st = .halted → NMap.find (tileOf t site).streams slot = some { x with st := .active, next := x.pos, issued := [], failed := [], seen := [] }))) ∧
    (Runs s c 0x1B k → let queue := k.w0.toNat / 4096 % 16
      let index : Word := k.w1.extractLsb' 0 32
      let target : CmdRef := { ctx := ctx, queue := queue, index := index.toNat, lpos := 0 }
      let q := queueOf s ctx queue
      let answers := fun r => exec (.cmdAbort c) s = .next (finish s c 0 0 r)
      ((index - q.tail).toNat < 2 ^ 31 → answers 5) ∧
      (2 ^ 31 ≤ (index - q.tail).toNat → (target = c → answers 4) ∧ (target ≠ c →
        (cmdOf s target = none → 2 ^ 31 ≤ (index - q.head).toNat → answers 4) ∧
        (cmdOf s target = none → (index - q.head).toNat < 2 ^ 31 → target ∉ s.doomed →
          exec (.cmdAbort c) s = .next (finish { s with doomed := s.doomed ++ [target] } c 0 0 1)) ∧
        (∀ x, cmdOf s target = some x → (x.phase = .done → answers 4) ∧
          (x.phase = .started → agreeCommitted s target = true → exec (.cmdAbort c) s = .next s) ∧
          (x.phase = .started → agreeCommitted s target = false → runCommitted s target = true → answers 4) ∧
          (x.phase = .started → agreeCommitted s target = false → runCommitted s target = false → ∃ t, exec (.cmdAbort c) s = .next t ∧
            (∀ y, cmdOf t target = some y → y.phase = .done ∧ y.status = 1 ∧ y.code = 0x25) ∧
            ∀ y, cmdOf t c = some y → y.phase = .done ∧ y.status = 0 ∧ y.result = 1))))) 

/-- R25, R43, R45, R47, R80, R81, R90, R309: a KILLING context with no command left becomes SCRUBBING and its LIVE entries are marked free with
their next generation; an entry is released once nothing refers to it, its frames read zero without poison, and it is FREE on
the free list; with all entries FREE the context is FREE, and event 0x02 logs the kill. -/
def Obligations.Teardown : Prop :=
  (∀ s ctx, s.run = .up → ctx < 4096 → let d := ctxOf s ctx
    (d.state ≠ .killing → exec (.contextEnterScrubbing ctx) s = .next s) ∧
    (d.state = .killing → (∃ k ∈ s.cmds, k.ref.ctx = ctx) → exec (.contextEnterScrubbing ctx) s = .next s) ∧
    (d.state = .killing → (∀ k ∈ s.cmds, k.ref.ctx ≠ ctx) → s.groups = [] → NMap.risingFrom 0 s.objs = true →
      ∃ t, exec (.contextEnterScrubbing ctx) s = .next t ∧
      ctxOf t ctx = { d with state := .scrubbing, heap0 := 0, heap1 := 0, heap2 := 0, heap3 := 0, abandoned := (ctxOf t ctx).abandoned } ∧
      (∀ x ∈ t.xlats, x.ctx ≠ ctx) ∧ (∀ e ∈ t.rxt, ¬ (eV e.2 = true ∧ eCtx e.2 = ctx)) ∧ t.mem = s.mem ∧
      ∀ i, let o := objOf s i
        let p := objOf t i
        if o.state = .live ∧ o.owner.toNat = ctx then p.state = .freePending ∧ p.gen = (if o.gen = 0xFFF then 1 else o.gen + 1)
        else p.state = o.state ∧ p.gen = o.gen ∧ p.inflight = o.inflight ∧ p.w1 = o.w1 ∧ ((∀ x ∈ s.cmds, x.waits = none) → p = o)) ∧
    (∀ fence x, d.state = .killing → (∀ k ∈ s.cmds, k.ref.ctx ≠ ctx) → s.objs = [(fence, objOf s fence)] → s.cmds = [x] →
      (objOf s fence).state = .live → (objOf s fence).kind = .fence → (objOf s fence).owner.toNat = ctx →
      (objOf s fence).w2.toNat / 2 ^ 48 % 2 ^ 8 = 0 → x.waits = some fence → x.phase = .waiting → x.ignerr = false →
      (ctxOf s x.ref.ctx).state = .active →
      ∃ t, exec (.contextEnterScrubbing ctx) s = .next t ∧ (objOf t fence).w2.toNat / 2 ^ 63 = 1 ∧
        (objOf t fence).w2.toNat / 2 ^ 48 % 2 ^ 8 = fenceAbandoned ∧ (ctxOf t ctx).abandoned = d.abandoned + 1 ∧
        cmdOf t x.ref = some { x with waits := none, phase := .done, status := 2, code := BitVec.ofNat 8 fenceAbandoned, result := 0 }) ∧
    (d.state ≠ .scrubbing → exec (.contextReachFree ctx) s = .next s) ∧
    (d.state = .scrubbing → (∀ e ∈ s.objs, e.2.owner.toNat = ctx → e.2.state = .free) → d.killers = [] → ∃ t,
      exec (.contextReachFree ctx) s = .next t ∧ ctxOf t ctx = { d with state := .free, killers := [] } ∧
      (∀ q, q < 16 → (queueOf t ctx q).qstate = .disabled) ∧ (∀ j, (tileOf t j).lastCtx ≠ some ctx) ∧
      (∀ e, e ≠ ctx → ctxOf t e = ctxOf s e) ∧ t.seq0 = s.seq0 + 1 ∧ ∃ e, t.log0.getLast? = some e ∧ e.event = 0x02 ∧
        e.ctx = BitVec.ofNat 12 ctx ∧ e.arg0 = BitVec.ofNat 64 d.dropped ∧ e.arg1 = BitVec.ofNat 64 d.abandoned ∧
        e.arg2 = BitVec.ofNat 64 d.scrubbed)) ∧
  ((∀ s i, s.run = .up → let o := objOf s i
    (o.state ≠ .freePending ∨ o.inflight ≠ 0 ∨ o.scrubbing = true → exec (.objectRelease i) s = .next s) ∧
    (o.state = .freePending → o.inflight = 0 → o.scrubbing = false → o.impcount = 0 → o.kind = .fence → o.relFence = 0 →
      exec (.objectRelease i) s = .next { setObj (retireFrames s o.frames) i { o with state := .free, w1 := 0, w2 := 0, relVal := 0, frames := [] } with
        ctxs := (updCtx s o.owner.toNat fun d => { d with objcount := d.objcount - 1 }).ctxs
        objFreed := s.objFreed ++ [i], heaps := NMap.erase s.heaps i }) ∧
    (o.state = .freePending → o.inflight = 0 → o.scrubbing = false → o.impcount = 0 → o.kind = .buffer ∨ o.kind = .heap →
      ∃ t, exec (.objectRelease i) s = .next t ∧ objOf t i = { o with scrubbing := true, frames := (objOf t i).frames } ∧
        (∀ j, j ≠ i → objOf t j = objOf s j) ∧ t.ctxs = s.ctxs ∧
        (∀ x ∈ t.xlats, ¬ (x.ctx = o.owner.toNat ∧ o.w1.toNat / 2 ^ 16 % 2 ^ 36 ≤ x.page ∧
          x.page < o.w1.toNat / 2 ^ 16 % 2 ^ 36 + o.w2.toNat % 2 ^ 32)) ∧
        (∀ f at_ n, n < o.w2.toNat % 2 ^ 32 → frameOf s o.owner.toNat (o.w1.toNat / 2 ^ 16 % 2 ^ 36 + n) = some (f, at_) →
          f ∈ (objOf t i).frames ∧ ∀ l, l / 256 = f → NMap.find t.lines l = none))) ∧
  (∀ s i, s.run = .up → let o := objOf s i
    (o.scrubbing = false → exec (.objectScrubComplete i) s = .next s) ∧
    (o.scrubbing = true → o.relFence = 0 → ∃ t, exec (.objectScrubComplete i) s = .next t ∧
      objOf t i = { o with state := .free, relVal := 0, scrubbing := false, frames := [] , w1 := (objOf t i).w1, w2 := (objOf t i).w2 } ∧
      (o.kind ≠ .fence → (objOf t i).w1 = o.w1 ∧ (objOf t i).w2 = o.w2) ∧ t.objFreed = s.objFreed ++ [i] ∧
      (ctxOf t o.owner.toNat).objcount = (ctxOf s o.owner.toNat).objcount - 1 ∧
      (∀ f ∈ o.frames, scrubbed s f = true → (∀ a, a / 65536 = f → memByte t a = 0) ∧
        ∀ k, k / 1024 = f → NSet.has t.poison k = false ∧ NSet.has t.dead k = false) ∧
      (∀ a, a / 65536 ∉ o.frames → memByte t a = memByte s a) ∧
      (∀ f ∈ o.frames, NSet.has s.retire f = true → NSet.has t.retired f = true))))

/-- R38 to R43, R45, R46, R51, R52: OBJ_CREATE takes the next index for a LIVE entry and answers its handle, OBJ_IMPORT names an
original with rights of its own, OBJ_FREE marks an entry FREE_PENDING with the next generation, and HEAP_BIND binds a
heap in a slot; a full table or quota, and a handle that fails its check, fail the command. -/
def Obligations.ObjectCommands : Prop :=
  ∀ s c k, let field := fun (w : DWord) lo n => w.extractLsb' lo n
    let h : Word := field k.w0 0 32
    let i := h.toNat % 2 ^ 20
    let gone := fun ctx => let st := (ctxOf s ctx).state
      st = .free ∨ st = .killing ∨ st = .scrubbing
    let n := s.objNext
    let e := objOf s n
    let room := fun ctx => n < 2 ^ 20 ∧ ((ctxOf s ctx).objquota = 0 ∨ (ctxOf s ctx).objcount.toNat < (ctxOf s ctx).objquota.toNat)
    let handle := BitVec.ofNat 64 (e.gen.toNat * 2 ^ 20 + n)
    let fails := fun i code operand detail => exec i s = .next (failC s k 0 code operand detail)
    let enters := fun u ctx => u = { s with objs := u.objs, ctxs := u.ctxs, objNext := n + 1, heaps := u.heaps } ∧
      (∀ x, x ≠ ctx → ctxOf u x = ctxOf s x) ∧ ctxOf u ctx = { ctxOf s ctx with objcount := (ctxOf s ctx).objcount + 1 }
    (Runs s c 0x18 k → let owner := k.w0.toNat % 4096
      let kind := k.w0.toNat / 4096 % 8
      (gone owner → fails (.objCreate c) badPacket 0 0) ∧
      (¬ gone owner → room owner → kind < 4 → ∃ u, exec (.objCreate c) s = .next (finish u c 0 0 handle) ∧ enters u owner ∧
        (∀ j, j ≠ n → objOf u j = objOf s j) ∧
        objOf u n = { e with
          state := .live, rights := 7, owner := field k.w0 0 12, src := BitVec.ofNat 20 n, w1 := k.w1
          kind := if kind = 0 then .buffer else if kind = 1 then .heap else if kind = 2 then .fence else .ring
          w2 := if kind = 2 then 0 else k.w2 } ∧
        (kind = 1 → heapOf u n = { book := k.w3.toNat / 2 ^ 16 % 2 ^ 32 * 65536, free := [(0, Nat.log2 (k.w2.toNat % 2 ^ 32 * 65536))], live := [] })) ∧
      (¬ gone owner → n = 2 ^ 20 → s.objFreed = [] → fails (.objCreate c) objectTableFull 0 0) ∧
      (¬ gone owner → n < 2 ^ 20 → (ctxOf s owner).objquota ≠ 0 → (ctxOf s owner).objquota.toNat ≤ (ctxOf s owner).objcount.toNat →
        fails (.objCreate c) objectQuota 0 0)) ∧
    (Runs s c 0x19 k → let dest := k.w0.toNat / 2 ^ 32 % 4096
      (∀ code, checkHandle s c.ctx h { kinds := [], imports := false, right := none } = some code →
        fails (.objImport c) code (h.zeroExtend 64) (if code = staleHandle then (objOf s i).gen.zeroExtend 64 else 0)) ∧
      (checkHandle s c.ctx h { kinds := [], imports := false, right := none } = none → ¬ gone dest → room dest → i ≠ n →
        ∃ u, exec (.objImport c) s = .next (finish u c 0 0 handle) ∧ enters u dest ∧ (∀ j, j ≠ n → j ≠ i → objOf u j = objOf s j) ∧
          objOf u i = { objOf s i with impcount := (objOf s i).impcount + 1 } ∧
          let p := objOf u n
          p.state = .live ∧ p.kind = .imported ∧ p.rights = field k.w0 48 3 ∧ p.owner = field k.w0 32 12 ∧ p.src.toNat = i ∧
          p.gen = e.gen ∧ p.w1 = k.w1)) ∧
    (Runs s c 0x04 k → k.w1 = 0 → let need : HandleNeed := { kinds := [], imports := true, right := none }
      (∀ code, checkHandle s c.ctx h need = some code →
        fails (.objFree c) code (h.zeroExtend 64) (if code = staleHandle then (objOf s i).gen.zeroExtend 64 else 0)) ∧
      (checkHandle s c.ctx h need = none → ∃ u, exec (.objFree c) s = .next (finish u c 0 0 0) ∧
        u = { s with objs := u.objs, ctxs := u.ctxs } ∧ (∀ j, j ≠ i → objOf u j = objOf s j) ∧
        let o := objOf s i
        objOf u i = { o with state := .freePending, gen := if o.gen = 0xFFF then 1 else o.gen + 1
                             wrapped := o.wrapped || o.gen == 0xFFF, relFence := 0, relVal := k.w2 } ∧
        (o.kind ≠ .heap → u.ctxs = s.ctxs) ∧ (o.kind = .heap → ∀ j, j < 4 → hIndex (heapSlot (ctxOf u o.owner.toNat) j) ≠ i ∨ i = 0))) ∧
    (Runs s c 0x1A k → let ctx := k.w0.toNat % 4096
      let slot := k.w0.toNat / 4096 % 4
      let hp : Word := field k.w1 0 32
      (gone ctx → fails (.heapBind c) badPacket 0 0) ∧
      (¬ gone ctx → k.w0.getLsbD 14 = true →
        exec (.heapBind c) s = .next (finish (setCtx s ctx (setHeapSlot (ctxOf s ctx) slot 0)) c 0 0 0)) ∧
      (¬ gone ctx → k.w0.getLsbD 14 = false → checkHandle s c.ctx hp { kinds := [.heap], imports := false, right := none } = none →
        ((objOf s (hIndex hp)).owner.toNat ≠ ctx → fails (.heapBind c) badPacket 0 0) ∧
        ((objOf s (hIndex hp)).owner.toNat = ctx → heapSlot (ctxOf s ctx) slot ≠ hp →
          (∀ j, j < 4 → j ≠ slot → heapSlot (ctxOf s ctx) j ≠ hp) →
          exec (.heapBind c) s = .next (finish (setCtx s ctx (setHeapSlot (ctxOf s ctx) slot hp)) c 0 0 0)) ∧
        ((objOf s (hIndex hp)).owner.toNat = ctx → heapSlot (ctxOf s ctx) slot ≠ hp →
          (∃ j, j < 4 ∧ j ≠ slot ∧ heapSlot (ctxOf s ctx) j = hp) → fails (.heapBind c) badPacket 0 0)))

/-- R75, R94, R95, R97, R400: KLAUNCH fails with LAUNCH_RESOURCES where no tile set could hold it, waits while too few tiles are
free, and else takes the free tiles of lowest logical number of each die, as its die selector says, and starts each:
its control core at the code address, s1 to s4 set, every other register and every store of another context zero. END (R98, R250, R389)
retires once every group has ended, the vector queue and the array are empty, and no message, stream, reduction, baton or sample
is left; it gives the tile up, and with its last part the launch completes, OK. -/
def Obligations.LaunchAndEnd : Prop :=
  (∀ s c k, Runs s c 0x20 k → (∀ l ∈ s.launches, l.cmd ≠ c) →
    let n := k.w2.toNat % 512
    let groups := k.w2.toNat / 512 % 128
    let regs := k.w2.toNat / 2 ^ 16 % 256
    let store := k.w2.toNat / 2 ^ 32 % 2 ^ 11
    let sel := k.w3.toNat % 4
    let d0 := s.map0.length
    let d1 := s.map1.length
    let fits := groups ≤ 64 ∧ groups * roundUp regs 8 ≤ 4096 ∧ store ≤ 1536 ∧ n ≤ d0 + d1 ∧ (sel = 1 → n ≤ d0) ∧ (sel = 2 → n ≤ d1) ∧
      (sel = 3 → (n + 1) / 2 ≤ d0 ∧ n / 2 ≤ d1)
    let free := fun site => (tileOf s site).launch = none ∧ NSet.has s.marked site = false
    let f0 := s.map0.countP fun x => (tileOf s x).launch.isNone && !NSet.has s.marked x
    let f1 := s.map1.countP fun x => (tileOf s (x + 192)).launch.isNone && !NSet.has s.marked (x + 192)
    let n0 := if sel = 1 then n else if sel = 2 then 0 else if sel = 3 then (n + 1) / 2 else if f1 ≤ f0 then min n f0 else n - min n f1
    (¬ fits → exec (.klaunch c) s = .next (failC s k 0 launchResources 0 0)) ∧
    (fits → (f0 < n0 ∨ f1 < n - n0) → exec (.klaunch c) s = .next s) ∧
    (fits → n0 ≤ f0 → n - n0 ≤ f1 → (s.map0 ++ s.map1.map (· + 192)).Nodup → (∀ x ∈ s.map0, x < 192) →
      (∀ site, repairPend (repairOf s site) = false) →
      ∃ t l, exec (.klaunch c) s = .next t ∧ t = { s with tiles := t.tiles, launches := s.launches ++ [l], freeCtr := t.freeCtr } ∧
        l.cmd = c ∧ l.ctx = c.ctx ∧ l.groups = groups ∧ l.regs = regs ∧ l.store = store ∧ l.code = k.w0 ∧ l.arg = k.w1 ∧ l.ended = [] ∧
        l.sites.length = n ∧ (∀ i x, l.sites[i]? = some x → free x ∧ (x < 192 ↔ i < n0)) ∧
        (∀ x, x ∉ l.sites → tileOf t x = tileOf s x) ∧
        ∀ i x, l.sites[i]? = some x → let u := tileOf t x
          u.launch = some c ∧ u.index = i ∧ u.ccPc = k.w0 ∧ u.l1 = [] ∧ u.icache = [] ∧ u.groups = [] ∧ u.bqs = [] ∧ u.streams = [] ∧ u.msgs = [] ∧
          u.vec.queue = [] ∧ u.vec.vl = 0 ∧ (x < 192 → s.map0[u.logical]? = some x) ∧ (192 ≤ x → s.map1[u.logical]? = some (x - 192)) ∧
          (∀ r, r < 64 → ccReg u r = { val := if r = 1 then k.w1 else if r = 2 then BitVec.ofNat 64 i else if r = 3 then BitVec.ofNat 64 n
            else if r = 4 then BitVec.ofNat 64 (x / 192 * 256 + u.logical) else 0, poison := false }) ∧
          (∀ r, r < 4 → (accOf u.array r).kind = .empty ∧ (accOf u.array r).cells = []) ∧
          ((tileOf s x).lastCtx ≠ some c.ctx → (∀ a, storeByte u a = 0) ∧ u.vec.regs = [] ∧ u.vec.junk = none))) ∧
  (∀ s site l pc s1 (f : CrF), CcReady false s site l pc s1 → f.fn = 1 → f.rd = 0 → f.rs1 = 0 → f.rs2 = 0 →
    let a := tileOf s1 site
    (∀ g, g < 64 → (groupOf a g).running = false) → a.vec.queue = [] → a.array.accepted = [] → a.streams = [] → a.msgs = [] →
    a.deferred = [] → a.bqs = [] → a.samples = [] → s1.remotes = [] → redsLeft s1 site = [] →
    ∃ t, exec (.endTile site f) s = .next t ∧ (∀ k, k ≠ site → tileOf t k = tileOf s1 k) ∧ t.mem = s1.mem ∧ t.ctxs = s1.ctxs ∧
      (tileOf t site).launch = none ∧ (tileOf t site).groups = [] ∧ (tileOf t site).store = a.store ∧
      if l.sites.length ≤ (NSet.add l.ended a.index).length then
        (∀ k ∈ t.launches, k.cmd ≠ l.cmd) ∧ ∀ k, cmdOf s1 l.cmd = some k → cmdOf t l.cmd = some { k with phase := .done, status := 0, code := 0, result := 0 }
      else t.cmds = s1.cmds ∧ ∀ k ∈ t.launches, k.cmd = l.cmd → k.ended = NSet.add l.ended a.index)

/-- R71, R73, R74, R87, R393, R411: NOP only completes; TIME_MARK logs event 0x01 with its time stamp, marker and ring index;
CALL_LIST completes once its list has been parsed. FILL writes its pattern over its whole range, and COPY moves the bytes of its
source to its destination, and they complete; a fault of an access is class F against their context. -/
def Obligations.CopiesAndLists : Prop :=
  (∀ s c k, (Runs s c 0x01 k → exec (.nop c) s = .next (finish s c 0 0 0)) ∧
    (Runs s c 0x02 k → ∃ u e, exec (.timeMark c) s = .next (finish u c 0 0 0) ∧ u = { s with log0 := u.log0, seq0 := s.seq0 + 1 } ∧
      u.log0 = (s.log0 ++ [e]).drop (s.log0.length + 1 - 65536) ∧ e.event = 0x01 ∧ e.seq = s.seq0 ∧ e.queue = BitVec.ofNat 4 c.queue ∧
      e.ctx = BitVec.ofNat 12 c.ctx ∧ e.arg0 = k.w0 ∧ e.arg1 = BitVec.ofNat 64 (k.w1.toNat % 2 ^ 32 + c.index % 2 ^ 32 * 2 ^ 32)) ∧
    (Runs s c 0x03 k →
      ((∀ l, (queueOf s c.ctx c.queue).lists = some l → l.call ≠ c) → exec (.callList c) s = .next (finish s c 0 0 0)) ∧
      (∀ l, (queueOf s c.ctx c.queue).lists = some l → l.call = c → exec (.callList c) s = .next s))) ∧
  (∀ s c k σ pa cp at_, Runs s c 0x29 k → k.pos = 0 → let n := k.w1.toNat % 2 ^ 40
    let bs := (List.range n).map fun i => (k.w2.extractLsb' (8 * (i % 4)) 8)
    StoreChain s c.ctx k.w0.toNat bs σ pa cp at_ → exec (.fill c) s = .next (finish (σ (pieces k.w0.toNat n).length) c 0 0 0) ∧
      Stored k.w0.toNat bs σ pa at_) ∧
  (∀ s c k bs ρ pa cp at_ σ pb cq bt, Runs s c 0x28 k → k.pos = 0 → let n := k.w2.toNat % 2 ^ 40
    let src := k.w0.toNat
    let dst := k.w1.toNat
    dst % 4096 + n ≤ 4096 → src + n ≤ dst ∨ dst + n ≤ src → LoadChain s c.ctx src n bs ρ pa cp at_ →
    StoreChain (ρ (pieces src n).length) c.ctx dst bs σ pb cq bt →
      exec (.copy c) s = .next (finish (σ (pieces dst n).length) c 0 0 0) ∧ Stored dst bs σ pb bt) ∧
  (∀ s c k (σ : Nat → State) m, Runs s c 0x28 k → let n := k.w2.toNat % 2 ^ 40
    let dst := k.w1.toNat
    let pos := fun i => if i = 0 then k.pos else ((dst + k.pos) / 4096 + i) * 4096 - dst
    σ 0 = s → (∀ i, i < m → pos i < n) → n ≤ pos m →
    (∀ i, i < m → copyBlock (σ i) c.ctx k.w0.toNat dst n (pos i) (min n (pos (i + 1)) - pos i) = (σ (i + 1), .ok ())) →
      exec (.copy c) s = .next (finish (σ m) c 0 0 0)) ∧
  (∀ s c k code d, Runs s c 0x28 k → k.pos = 0 → 0 < k.w2.toNat % 2 ^ 40 → noFaults s = true →
    (∀ pick, walkPick s c.ctx k.w0 pick = .fault code d) → code ≠ poisonConsumed →
    ∃ u, MemoryOnly s u ∧ exec (.copy c) s = .next (failF u k 0 code (k.w0 &&& 0xFFFFFFFFFFFFF#64) (BitVec.ofNat 64 d)))

/-- R31 to R36, R283, R284: the walk of an address from ROOT, four levels of entries in the driver pools. An address of 2^52 or
more faults ADDRESS_RANGE, one of the first 64 KiB or under an invalid entry PAGE_NOT_PRESENT; a leaf gives the address
its frame and offset; an access that the leaf permits sets A, a write D too, and one that it does not faults
PAGE_PERMISSION. -/
def Obligations.Translation : Prop :=
  (∀ s ctx (va : DWord), (2 ^ 52 ≤ va.toNat → walk s ctx va = .fault addressRange 0) ∧
    (va.toNat < 65536 → walk s ctx va = .fault pageNotPresent 0) ∧
    (65536 ≤ va.toNat → va.toNat < 2 ^ 52 →
      let entry := fun table hi lo => table + va.toNat / 2 ^ lo % 2 ^ (hi + 1 - lo) * 8
      let next := fun (e : DWord) => e.toNat / 2 ^ 8 % 2 ^ 40 * 256
      let step := fun at_ => inDriverPool at_ = true ∧ cohPoison s at_ = false
      let a3 := entry ((ctxOf s ctx).root.toNat * 65536) 51 39
      let e3 := physWord s a3
      let a2 := entry (next e3) 38 30
      let e2 := physWord s a2
      let a1 := entry (next e2) 29 21
      let e1 := physWord s a1
      let a0 := entry (next e1) 20 16
      let e0 := physWord s a0
      let table := fun lvl at_ (e : DWord) => step at_ ∧ e.getLsbD 0 = true ∧ pteBad lvl e = false ∧ e.getLsbD 1 = false
      let leaf := fun lvl at_ (e : DWord) => step at_ ∧ e.getLsbD 0 = true ∧ pteBad lvl e = false ∧ e.getLsbD 1 = true ∧
        leafForbidden s ctx lvl e = false
      (¬ inDriverPool a3 = true → walk s ctx va = .fault pteMalformed 0) ∧
      (step a3 → e3.getLsbD 0 = false → walk s ctx va = .fault pageNotPresent 0) ∧
      (step a3 → e3.getLsbD 0 = true → pteBad 3 e3 = true → walk s ctx va = .fault pteMalformed 0) ∧
      (table 3 a3 e3 → leaf 2 a2 e2 → walk s ctx va = .leaf e2 2 a2 ∧
        (targetOf 2 e2 va).pa = e2.toNat / 2 ^ 16 % 2 ^ 32 * 65536 / 2 ^ 30 * 2 ^ 30 + va.toNat % 2 ^ 30) ∧
      (table 3 a3 e3 → table 2 a2 e2 → leaf 1 a1 e1 → walk s ctx va = .leaf e1 1 a1 ∧
        (targetOf 1 e1 va).pa = e1.toNat / 2 ^ 16 % 2 ^ 32 * 65536 / 2 ^ 21 * 2 ^ 21 + va.toNat % 2 ^ 21) ∧
      (table 3 a3 e3 → table 2 a2 e2 → table 1 a1 e1 → leaf 0 a0 e0 → walk s ctx va = .leaf e0 0 a0 ∧
        (targetOf 0 e0 va).pa = e0.toNat / 2 ^ 16 % 2 ^ 32 * 65536 + va.toNat % 65536))) ∧
  (∀ s ctx acc va e lvl at_, noFaults s = true → (∀ pick, walkPick s ctx va pick = .leaf e lvl at_) →
    (permits acc e = false → ∃ t, translate s ctx acc va = (t, .fault pagePermission (va &&& 0xFFFFFFFFFFFFF#64) 0) ∧
      MemoryOnly s t ∧ BytesKept s t 0 0 at_) ∧
    (permits acc e = true → ∃ t, translate s ctx acc va = (t, .ok (targetOf lvl e va)) ∧ MemoryOnly s t ∧ BytesKept s t 0 0 at_ ∧
      physWord t at_ = e ||| if acc = .write then 0x60 else 0x20)) ∧
  (∀ s ctx (va : DWord) pick, s.oldPtes = [] → walkPick s ctx va pick = walk s ctx va) ∧
  (∀ (e : DWord), permits .read e = e.getLsbD 2 ∧ permits .write e = e.getLsbD 3 ∧ permits .fetch e = e.getLsbD 4) ∧
  (∀ s ctx va bs σ pa cp at_, StoreChain s ctx va bs σ pa cp at_ →
    vWriteN s ctx va bs = (σ (pieces va bs.length).length, .ok ()) ∧ Stored va bs σ pa at_) ∧
  (∀ s ctx va n bs σ pa cp at_, LoadChain s ctx va n bs σ pa cp at_ →
    cReadN s ctx va n = (σ (pieces va n).length, .ok (bs, List.replicate (pieces va n).length false)))

/-! ### The event recorder and injections -/

/-- R388, R403 to R414: REC_SNAPSHOT writes the header with both dies' LAST and OLDEST and the records and entries that fit, and
answers their count; REC_CLEAR sets the selected counters to zero and logs event 0x09; ERR_INJECT arms one of 64
injections, discards a context's, and sets the checking fraction. -/
def Obligations.RecorderAndInjections : Prop :=
  (∀ s c k, Runs s c 0x2A k → let n := k.w1.toNat % 2 ^ 40
    (n < 64 → exec (.recSnapshot c) s = .next (finish s c 0 0 (BitVec.ofNat 64 (2 ^ 32)))) ∧
    (∀ (parts : List (List Byte)) e0 e1 r0 r1 σ pa cp at_, 64 ≤ n → parts.length < 2 ^ 32 → s.log0 = e0 :: r0 → s.log1 = e1 :: r1 →
      snapParts s k = parts → 64 + (parts.map List.length).sum ≤ n →
      let le := fun (v w : Nat) => (List.range w).map fun i => BitVec.ofNat 8 (v / 256 ^ i)
      let bs := le (s.seq0 - 1).toNat 4 ++ le (s.seq1 - 1).toNat 4 ++ le e0.seq.toNat 4 ++ le e1.seq.toNat 4 ++ le parts.length 8 ++
        List.replicate 40 0 ++ parts.flatten
      StoreChain s c.ctx k.w0.toNat bs σ pa cp at_ (some 63) →
        exec (.recSnapshot c) s = .next (finish (σ (pieces k.w0.toNat bs.length).length) c 0 0 (BitVec.ofNat 64 parts.length)) ∧
        Stored k.w0.toNat bs σ pa at_)) ∧
  (∀ s type index, 1 ≤ type → type ≤ 5 → (type = 1 → index < 384) → (type = 2 → index < 256) → (type = 3 → index < 256) →
    (type = 4 → index < 20) → (type = 5 → index < 4096) →
    let bs := recBytes s type index
    let word := fun i => leNat ((bs.drop (8 * i)).take 8)
    bs.length = 16 + 8 * recWords type ∧ word 0 / 2 ^ 56 = type ∧ word 0 / 2 ^ 32 % 2 ^ 12 = index ∧ word 0 / 2 ^ 16 % 2 ^ 16 = recWords type ∧
      ∀ w, w < recWords type → ¬ (type = 1 ∧ w = 15) → word (2 + w) = (counter s type index w).toNat) ∧
  (∀ s c k, Runs s c 0x2B k → ∃ u e, exec (.recClear c) s = .next (finish u c 0 0 0) ∧ u = { s with counters := u.counters, log0 := u.log0, seq0 := s.seq0 + 1 } ∧
    (∀ type index word, 1 ≤ type → type ≤ 7 → index < 2 ^ 18 → word < 64 → counter u type index word =
      if k.w0.toNat / 2 ^ (type + 7) % 2 = 1 ∧ (k.w1.toNat / 2 ^ 16 % 2 ^ 16 = 0 ∨
        (k.w1.toNat % 2 ^ 16 ≤ index ∧ index < k.w1.toNat % 2 ^ 16 + k.w1.toNat / 2 ^ 16 % 2 ^ 16)) then 0 else counter s type index word) ∧
    u.log0 = (s.log0 ++ [e]).drop (s.log0.length + 1 - 65536) ∧ e.event = 0x09 ∧ e.seq = s.seq0) ∧
  (∀ s c k, Runs s c 0x2C k → let func := k.w0.toNat % 16
    let ctx := k.w0.toNat / 2 ^ 20 % 4096
    let st := (ctxOf s ctx).state
    let i : Injection := { det := k.w0.extractLsb' 8 8, kind := k.w0.extractLsb' 16 2, ctx := ctx, target := k.w1.extractLsb' 0 16,
                           va := k.w2.extractLsb' 0 52 }
    (func = 0 → (st = .free ∨ st = .killing ∨ st = .scrubbing ∨ 64 ≤ s.injections.length →
        exec (.errInjectArm c) s = .next (failC s k 0 badPacket 0 0)) ∧
      (st = .active ∨ st = .suspended ∨ st = .faulted → s.injections.length < 64 → ∃ u, exec (.errInjectArm c) s = .next (finish u c 0 0 1) ∧
        u.injections = s.injections ++ [i] ∧ u.mem = s.mem ∧ u.ctxs = s.ctxs)) ∧
    (func = 1 → ∃ u, exec (.errInjectDisarm c) s = .next (finish u c 0 0 (BitVec.ofNat 64 (s.injections.countP fun i => i.ctx == ctx))) ∧
      u.injections = s.injections.filter (fun i => i.ctx != ctx) ∧ u.mem = s.mem ∧ u.ctxs = s.ctxs) ∧
    (func = 2 → exec (.errInjectSetFraction c) s = .next (finish { s with fraction := k.w1.extractLsb' 0 3 } c 0 0 (s.fraction.zeroExtend 64))))

/-! ### The dispatch engine -/

/-- R183, R186, R195: ROUTE_LOAD writes its entries, or loads none where one is malformed; a run checks its descriptor and its
route entries in the order of the table; a routing run completes, with its RESULT and every PLOAD brought up to date, once
its rows and arrival records have gone and every request is answered. -/
def Obligations.DispatchRuns : Prop :=
  (∀ s c k bs t, Runs s c 0x31 k → let first := k.w1.toNat % 2 ^ 18
    let count := k.w2.toNat % 2 ^ 19
    let word := fun i j : Nat => (BitVec.ofNat 64 (leNat ((bs.drop (32 * i + 8 * j)).take 8)) : DWord)
    let bad := fun i => (word i 0).extractLsb' 60 3 ≠ 0 ∨ (word i 1).extractLsb' 40 24 ≠ 0 ∨ (word i 1).toNat % 64 ≠ 0 ∨
      (word i 2).extractLsb' 52 12 ≠ 0 ∨ (word i 2).extractLsb' 0 16 ≠ 0 ∨ (word i 3).extractLsb' 32 16 ≠ 0
    bs.length = count * 32 → ReadsTo s c.ctx k.w0.toNat bs t →
      ((∀ i, i < count → ¬ bad i) → ∃ u, exec (.routeLoad c) s = .next (finish u c 0 0 (BitVec.ofNat 64 count)) ∧ u = { t with routes := u.routes } ∧
        ∀ j, routeOf u j = if first ≤ j ∧ j < first + count then
            { w0 := word (j - first) 0, w1 := word (j - first) 1, w2 := word (j - first) 2, w3 := word (j - first) 3, loads := (routeOf s j).loads + 1 }
          else routeOf s j) ∧
      (∀ i, i < count → bad i → (∀ j, j < i → ¬ bad j) → DispFaults t c k.w0 8 (first + i) (exec (.routeLoad c) s))) ∧
  (∀ s c k d t, Runs s c 0x30 k → k.w1.toNat % 4 < 2 → (∀ r ∈ s.dispRuns, r.cmd ≠ c) → d.length = 16 →
    ReadsTo s c.ctx k.w0.toNat (d.flatMap fun w => leBytes w.toNat 8) t →
    let i : Instr := if k.w1.toNat % 4 = 0 then .dispatchRoute c else .dispatchCombine c
    let faults := fun (reason entry : Nat) => DispFaults t c k.w0 reason entry (exec i s)
    let w := fun i hi lo => (nthWord d i).toNat / 2 ^ lo % 2 ^ (hi + 1 - lo)
    let tokens := w 0 52 32
    let top := w 0 59 57 + 1
    let experts := w 0 31 17
    let c1 := w 0 63 62 = 3 ∨ 2 ≤ w 0 61 60 ∨ 2 ≤ w 0 56 55 ∨ w 0 16 0 ≠ 0 ∨ w 1 12 0 ≠ 0 ∨ w 11 63 16 ≠ 0 ∨ ∃ i, 12 ≤ i ∧ i < 16 ∧ w i 63 0 ≠ 0
    let c2 := tokens = 0 ∨ 1048576 < tokens ∨ experts < top ∨ 16384 < experts ∨ 262144 < w 1 63 46 + experts ∨ 16384 < w 1 27 13 ∨
      262144 < w 1 45 28 + w 1 27 13 ∨ w 9 47 32 = 0 ∨ 1024 < w 9 47 32 ∨ w 9 63 48 = 0 ∨ 1024 < w 9 63 48 ∨ w 8 63 32 < w 9 47 32 * 64 ∨
      w 8 31 0 < experts * (if w 0 61 60 = 0 then 4 else 2) ∨ w 9 31 0 < w 9 63 48 * 64
    let c3 := k.w0.toNat % 64 ≠ 0 ∨ (∃ i, 2 ≤ i ∧ i ≤ 7 ∧ w i 63 0 % 64 ≠ 0) ∨ w 8 63 32 % 64 ≠ 0 ∨ w 8 31 0 % 64 ≠ 0 ∨ w 9 31 0 % 64 ≠ 0
    let entries := (List.range experts).map (w 1 63 46 + ·) ++ (List.range (w 1 27 13)).map (w 1 45 28 + ·)
    let invalid := fun e => !(routeOf s e).w0.getLsbD 63
    let foreign := fun e => (routeOf s e).w0.toNat / 2 ^ 48 % 4096 != c.ctx
    (c1 → faults 1 0) ∧ (¬ c1 → c2 → faults 2 0) ∧ (¬ c1 → ¬ c2 → c3 → faults 3 0) ∧
    (¬ c1 → ¬ c2 → ¬ c3 → (∀ e, entries.find? invalid = some e → faults 4 e) ∧
      (entries.find? invalid = none → (∀ e, entries.find? foreign = some e → faults 5 e) ∧
        (entries.find? foreign = none → jobFor s c.ctx c.queue = 0 → faults 6 0)))) ∧
  (∀ s c k r, Runs s c 0x30 k → k.w1.toNat % 4 = 0 → dispRunOf s c = some r → r.sends = [] →
    ((∀ p ∈ r.parts, p.done = true) → (∀ e ∈ s.remotes, ofRun c e.2.what = false) → (r.parts.map (·.expert)).Nodup →
      ∃ u, exec (.dispatchRoute c) s = .next (finish u c 0 0 r.result) ∧
        u = { s with dispRuns := s.dispRuns.filter fun x => x.cmd != c, routes := u.routes } ∧
        (∀ p ∈ r.parts, let e := routeOf s (dRb r.desc + p.expert)
          let pload := (3 * (e.w3.toNat / 2 ^ 48) + 4 * min p.count 4095) / 4
          routeOf u (dRb r.desc + p.expert) = if p.route.loads = e.loads
            then { e with w3 := BitVec.ofNat 64 (e.w3.toNat % 2 ^ 48 + pload * 2 ^ 48) } else e) ∧
        ∀ j, (∀ p ∈ r.parts, j ≠ dRb r.desc + p.expert) → routeOf u j = routeOf s j) ∧
    ((∃ p ∈ r.parts, p.done = false) ∨ (∃ e ∈ s.remotes, ofRun c e.2.what = true) → exec (.dispatchRoute c) s = .next s)) ∧
  (∀ s c k r (p : DispPart), Runs s c 0x30 k → dispRunOf s c = some r → r.parts.find? (fun q => q.expert == p.expert) = some p →
    let asks := fun (q : Remote) type bs u => q.ctx = c.ctx ∧ q.queue = c.queue ∧ q.node.toNat = rNode p.route ∧ q.window.toNat = rWindow p.route ∧
      sendRequest s q type bs [] = .sent u
    (r.combine = false → p.done = false → (∀ x ∈ r.sends, x.expert ≠ p.expert) → (∀ e ∈ s.remotes, e.2.what ≠ .dispatchRow c p.expert) →
      ∀ q u, asks q typeWrite (leBytes p.count 8 ++ leBytes (nthWord r.desc 10).toNat 8 ++ List.replicate 48 0) u →
        q.what = .arrival c p.expert → q.offset = BitVec.ofNat 40 (rOffset p.route) → q.bytes = 64 → q.pc = 0 → q.read = false →
        exec (.arrivalRecordWrite c p.expert) s = .next (setDispRun u (setPart r { p with done := true }))) ∧
    (r.combine = false → (p.done = true ∨ (∃ x ∈ r.sends, x.expert = p.expert) ∨ ∃ e ∈ s.remotes, e.2.what = .dispatchRow c p.expert) →
      exec (.arrivalRecordWrite c p.expert) s = .next s) ∧
    (r.combine = true → p.done = false → (ctxOf s c.ctx).state = .active → (∀ e ∈ s.remotes, e.2.what ≠ .combine c p.expert 0) → ∀ q u, asks q typeRead [] u →
      q.what = .combine c p.expert 0 → q.offset = BitVec.ofNat 40 (rOffset p.route + 64) → q.bytes = 64 → q.pc = 0 → q.read = false →
        exec (.combinePoll c p.expert) s = .next u) ∧
    (r.combine = true → p.done = false → (ctxOf s c.ctx).state = .active → (∃ e ∈ s.remotes, e.2.what = .combine c p.expert 0) →
      exec (.combinePoll c p.expert) s = .next s) ∧
    (r.combine = true → (∃ q ∈ r.parts, q.done = false) → (ctxOf s c.ctx).state = .suspended →
      exec (.combinePoll c p.expert) s = .next (updCmd s c fun k => { k with stopped := true })) ∧
    (r.combine = true → p.done = true → (ctxOf s c.ctx).state = .active → p.count * dOutRow r.desc ≤ p.asked →
      exec (.combinePoll c p.expert) s = .next (setDispRun s (setPart r p)))) ∧
  (∀ s c k r (es : Nat → List CEntry) (τ υ : Nat → State), Runs s c 0x30 k → k.w1.toNat % 4 = 1 → dispRunOf s c = some r →
    let d := r.desc
    let f := outFmt d
    let n := f.bits / 8
    let dropped := (List.range (dT d)).countP fun t => (es t).any fun e => decide (2 ≤ e.status)
    let sum := fun t i => (es t).foldl (fun acc e => match r.parts.find? fun p => p.expert == e.expert with
      | some p => if e.status ≤ 1 then ffma .rne e.gate (rnd32 .rne (decode f (leNat ((List.range n).map fun j =>
          NMap.getD p.rows (e.slot * dOutRow d + i * n + j) 0)))) acc else acc
      | none => acc) (0 : Word)
    (∀ p ∈ r.parts, p.done = true ∧ p.count * dOutRow d ≤ p.asked ∧ p.bad = []) → (∀ e ∈ s.remotes, ofRun c e.2.what = false) → τ 0 = s →
    (∀ t, t < dT d → (es t).length = dK d ∧ (∀ e ∈ es t, e.expert < 2 ^ 32 ∧ e.status < 4 ∧ e.slot < 2 ^ 18) ∧
      ReadsTo (τ t) c.ctx (dClist d + t * dK d * 16) ((es t).flatMap fun e =>
        leBytes (e.expert + e.gate.toNat * 2 ^ 32) 8 ++ leBytes (e.slot + e.status * 2 ^ 62) 8) (υ t) ∧
      WritesTo (υ t) c.ctx (dOut d + t * dOstride d) ((List.range (dOutRow d / n)).flatMap fun i =>
        leBytes (round f .rne false (decode .f32 (sum t i).toNat)) n) (τ (t + 1))) →
      exec (.dispatchCombine c) s = .next (finish { τ (dT d) with dispRuns := (τ (dT d)).dispRuns.filter fun x => x.cmd != c } c 0 0
        (BitVec.ofNat 64 (dropped % 2 ^ 24)))) ∧
  (∀ s c k, Runs s c 0x30 k → NMap.risingFrom 0 s.fills = true → NMap.risingFrom 0 s.lines = true →
    let ep := k.w1.toNat / 2 ^ 16 % 2 ^ 16
    let is_open := ∃ e ∈ s.epochs, e.ctx = c.ctx ∧ e.epoch = ep
    let mine := fun (t : State) => t.fills.filter fun e => e.2.ctx == c.ctx && e.2.epoch == ep && !e.2.confirmed
    let closes := fun (t u : State) (keep : Nat → Bool) =>
      (∀ e, e ∈ u.epochs ↔ e ∈ t.epochs ∧ ¬ (e.ctx = c.ctx ∧ e.epoch = ep)) ∧ u.mem = t.mem ∧ (∀ a, cohByte u a = cohByte t a) ∧
      ∀ line f, NMap.find t.fills line = some f → NMap.find u.fills line =
        if ¬ (f.ctx = c.ctx ∧ f.epoch = ep ∧ f.confirmed = false) then some f
        else if keep f.entry = true ∧ f.arrived = false then some { f with confirmed := true } else none
    (k.w1.toNat % 4 = 3 → (¬ is_open → exec (.dispatchDiscard c) s = .next (finish s c 0 0 0)) ∧
      (is_open → ∃ u, exec (.dispatchDiscard c) s = .next (finish u c 0 0 (BitVec.ofNat 64 (mine s).length)) ∧ closes s u fun _ => false)) ∧
    (k.w1.toNat % 4 = 2 → k.w0 = 0 → (¬ is_open → exec (.dispatchConfirm c) s = .next (finish s c 0 0 0)) ∧
      (is_open → ∃ u, exec (.dispatchConfirm c) s = .next (finish u c 0 0 (BitVec.ofNat 64 (mine s).length)) ∧ closes s u fun _ => true)) ∧
    (k.w1.toNat % 4 = 2 → k.w0.toNat % 4 ≠ 0 → DispFaults s c k.w0 7 0 (exec (.dispatchConfirm c) s)) ∧
    (∀ (list : List Nat) t, k.w1.toNat % 4 = 2 → k.w0 ≠ 0 → k.w0.toNat % 4 = 0 → list.length = k.w2.toNat % 2 ^ 19 → (∀ e ∈ list, e < 2 ^ 32) →
      ReadsTo s c.ctx k.w0.toNat (list.flatMap fun e => leBytes e 4) t →
      ((∃ e ∈ list, 262144 ≤ e) → DispFaults t c k.w0 7 0 (exec (.dispatchConfirm c) s)) ∧
      ((∀ e ∈ list, e < 262144) → ¬ is_open → exec (.dispatchConfirm c) s = .next (finish t c 0 0 0)) ∧
      ((∀ e ∈ list, e < 262144) → is_open → let good := (mine t).countP fun e => list.contains e.2.entry
        ∃ u, exec (.dispatchConfirm c) s = .next (finish u c 0 0 (BitVec.ofNat 64 (good + ((mine t).length - good) * 2 ^ 32))) ∧
          closes t u list.contains))) ∧
  (∀ s line, s.run = .up → (NMap.find s.fills line = none → exec (.speculativeFillArrive line) s = .next s) ∧
    (∀ f, NMap.find s.fills line = some f → f.confirmed = false →
      exec (.speculativeFillArrive line) s = .next { s with fills := NMap.insert s.fills line { f with arrived := true } }) ∧
    (∀ f, NMap.find s.fills line = some f → f.confirmed = true → ∃ t, exec (.speculativeFillArrive line) s = .next t ∧
      t = { s with fills := t.fills, lines := t.lines } ∧ NMap.find t.fills line = none ∧ (NMap.find t.lines line).isSome = true ∧
      ∀ a, cohByte t a = cohByte s a))

/-- R187 to R190, R194, R196, R197: the ranking of a token's scores, the gates, and the placement of assignments rank by rank and
token by token; a routing run writes its three lists and stands ready to send, and may open an epoch of speculative
fills, which changes nothing that an access reads. -/
def Obligations.Routing : Prop :=
  (let nan := fun (b : Nat) => b / 2 ^ 23 % 256 = 255 ∧ b % 2 ^ 23 ≠ 0
    let val := fun (b : Nat) => if b / 2 ^ 31 = 0 then (b : Int) else 2 ^ 31 - (b : Int)
    ∀ scores : List Nat, (∀ b ∈ scores, b < 2 ^ 32) → (rankOfScores scores).Perm (List.range scores.length) ∧
      (rankOfScores scores).Pairwise fun x y => let a := (scores[x]?).getD 0
        let b := (scores[y]?).getD 0
        let above := (¬ nan a ∧ nan b) ∨ (¬ nan a ∧ ¬ nan b ∧ val b < val a)
        let equal := (nan a ∧ nan b) ∨ (¬ nan a ∧ ¬ nan b ∧ val a = val b)
        above ∨ (equal ∧ x < y)) ∧
  (∀ sel : List Nat, gatesOf 0 sel = sel.map (BitVec.ofNat 32) ∧
    ((∃ b ∈ sel, b / 2 ^ 23 % 256 = 255) → gatesOf 1 sel = sel.map fun _ => 0x7FC00000#32) ∧
    ((∀ b ∈ sel, b / 2 ^ 23 % 256 ≠ 255) → ∀ b0 rest, sel = b0 :: rest →
      let e := fun b : Nat => BitVec.ofNat 32 ((fltFn .f32 0x0B .rne
        (fmul .rne (fsub .rne (BitVec.ofNat 32 b) (BitVec.ofNat 32 b0)) 0x3FB8AA3B).toNat 0 0).getD 0)
      gatesOf 1 sel = sel.map fun b => fdiv .rne (e b) (rest.foldl (fun acc x => fadd .rne acc (e x)) (e b0)))) ∧
  (∀ d cap (toks : List Tok), let p := placeAll d cap toks
    let n := toks.length
    p.2.length = dK d * n ∧ (∀ x, NMap.getD p.1 x 0 = p.2.countP fun a => a.expert == x && a.status != 2) ∧
    ∀ i a tok, p.2[i]? = some a → toks[i % n]? = some tok →
      let x := (tok.ranks[i / n]?).getD 0
      let earlier := p.2.take i
      let count := fun y => earlier.countP fun b => b.expert == y && b.status != 2
      let room := fun y => decide (count y < cap y) && !(earlier.any fun b => b.token == i % n && b.expert == y && b.status != 2)
      let as := fun y status slot => a = { token := i % n, rank := i / n, expert := y, status := status, slot := slot }
      (count x < cap x → as x 0 (count x)) ∧
      (cap x ≤ count x → dOvf d = false → as x 2 0) ∧
      (cap x ≤ count x → dOvf d = true → ((tok.ranks.drop (dK d)).take 8).find? room = none → as x 2 0) ∧
      (∀ y, cap x ≤ count x → dOvf d = true → ((tok.ranks.drop (dK d)).take 8).find? room = some y → as y 1 (count y))) ∧
  (∀ d (toks : List Tok) cap, let p := placeAll d cap toks
    let start := fun x => ((List.range x).map fun y => NMap.getD p.1 y 0).sum
    (dcountBytes d p.1).length = 4 * dE d ∧ (clistBytes d toks p.2).length = 16 * dK d * toks.length ∧
    (∀ x, x < dE d → ((dcountBytes d p.1).drop (4 * x)).take 4 = leBytes (NMap.getD p.1 x 0) 4) ∧
    ∀ a ∈ p.2, (a.status ≠ 2 → a.expert < dE d → ((dlistBytes d toks p.2).drop (8 * (start a.expert + a.slot))).take 8 =
        leBytes a.token 4 ++ leBytes (gateOf toks a).toNat 4) ∧
      ((clistBytes d toks p.2).drop (16 * (a.token * dK d + a.rank))).take 16 =
        leBytes (a.expert + (gateOf toks a).toNat * 2 ^ 32) 8 ++ leBytes (a.slot + a.status * 2 ^ 62) 8) ∧
  (∀ s c k d (τ : Nat → State) (rows : Nat → List Nat) u1 u2 u3, Runs s c 0x30 k → k.w1.toNat % 4 = 0 → dispRunOf s c = none → d.length = 16 →
    ReadsTo s c.ctx k.w0.toNat (d.flatMap fun w => leBytes w.toNat 8) (τ 0) → runFault s c.ctx c.queue k.w0.toNat d = none →
    (∀ i, i < dT d → (rows i).length = dE d ∧ (∀ x ∈ rows i, x < 2 ^ 32 ∧ (dSfmt d ≠ 0 → x % 65536 = 0)) ∧
      ReadsTo (τ i) c.ctx (dScores d + i * dSstride d) ((rows i).flatMap fun x => if dSfmt d = 0 then leBytes x 4 else leBytes (x / 65536) 2)
        (τ (i + 1))) →
    let toks := (List.range (dT d)).map fun i =>
      let ranks := rankOfScores (rows i)
      ({ ranks := ranks, gates := gatesOf (dGate d) ((ranks.take (dK d)).map fun x => ((rows i)[x]?).getD 0) } : Tok)
    let p := placeAll d (fun x => rCap (routeOf s (dRb d + x))) toks
    WritesTo (τ (dT d)) c.ctx (dDcount d) (dcountBytes d p.1) u1 → WritesTo u1 c.ctx (dDlist d) (dlistBytes d toks p.2) u2 →
    WritesTo u2 c.ctx (dClist d) (clistBytes d toks p.2) u3 →
      let pre := prefetchRun u3 k d
      ∃ r : DispRun, exec (.dispatchRoute c) s = .next { pre.1 with dispRuns := s.dispRuns ++ [r] } ∧ r.cmd = c ∧ r.desc = d ∧ r.combine = false ∧
        r.result.toNat = p.2.countP (·.status == 2) % 2 ^ 24 + p.2.countP (·.status == 1) % 2 ^ 24 * 2 ^ 24 + pre.2 * 2 ^ 48 ∧
        r.parts = ((List.range (dE d)).map fun x => { expert := x, route := routeOf s (dRb d + x), count := NMap.getD p.1 x 0
                                                      done := false, asked := 0, rows := [], bad := [] }) ∧
        ∀ (x : Nat) (a : Assign) (j : Nat), (rowsOf p.2 x)[j]? = some a → x < dE d → ∀ b, b < dInRow d → ∃ q ∈ r.sends, q.expert = x ∧
          q.offset ≤ rOffset (routeOf s (dRb d + x)) + 128 + a.slot * dInRow d + b ∧
          rOffset (routeOf s (dRb d + x)) + 128 + a.slot * dInRow d + b < q.offset + q.bytes ∧
          q.va + (rOffset (routeOf s (dRb d + x)) + 128 + a.slot * dInRow d) = dTokens d + a.token * dTstride d + q.offset) ∧
  (∀ s c k r p rest bs t, Runs s c 0x30 k → k.w1.toNat % 4 = 0 → dispRunOf s c = some r → r.sends = p :: rest → bs.length = p.bytes →
    ReadsTo s c.ctx p.va bs t → let route := ((r.parts.find? fun x => x.expert == p.expert).map (·.route)).getD Route.empty
    let q := dispRemote k (.dispatchRow c p.expert) route p.offset p.bytes
    (sendRequest t q typeWrite bs [] = .wait → exec (.dispatchRoute c) s = .next (setDispRun t r)) ∧
    (sendRequest t q typeWrite bs [] = .unreachable → exec (.dispatchRoute c) s =
      .next (failF t k 8 remoteUnreachable (remoteOperand q) (remoteDetail q 0xF0))) ∧
    (∀ u, sendRequest t q typeWrite bs [] = .sent u → rest = [] → exec (.dispatchRoute c) s = .next (setDispRun u { r with sends := [] }))) ∧
  (∀ s k d, let ctx := k.ref.ctx
    let r := prefetchRun s k d
    (dPref d = false ∨ dNe d = 0 ∨ dBudget d = 0 → r = (s, 0)) ∧ (r.2 = 0 → r.1 = s) ∧
    (r.2 ≠ 0 → r.2 = NMap.getD s.lastEpoch ctx 0 % 65535 + 1 ∧ NMap.getD r.1.lastEpoch ctx 0 = r.2 ∧
      (∃ e ∈ r.1.epochs, e.ctx = ctx ∧ e.epoch = r.2 ∧ e.run = k.ref) ∧
      ((s.epochs.countP fun e => e.ctx == ctx) ≤ 4 → (r.1.epochs.countP fun e => e.ctx == ctx) ≤ 4)) ∧
    (∀ a, cohByte r.1 a = cohByte s a) ∧
    (∃ u epochs lastEpoch, MemoryOnly s u ∧ r.1 = { u with epochs := epochs, lastEpoch := lastEpoch }) ∧
    ∀ e ∈ r.1.fills, e ∈ s.fills ∨ (e.2.ctx = ctx ∧ e.2.epoch = r.2 ∧ e.2.arrived = false ∧ e.2.confirmed = false ∧
      dNb d ≤ e.2.entry ∧ e.2.entry < dNb d + dNe d ∧ (∀ i, i < 4 → NSet.has s.dead (e.1 * 4 + i) = false) ∧ let x := routeOf s e.2.entry
        rNode x = fabNode s ∧ 0 < rPages x ∧ 0 < rPload x))

/-! ### Collectives -/

/-- R374 to R377: a collective command checks its descriptor and its member list in the order of the table and fails with
BAD_PACKET, or opens its run; a member without children sends its TREE.UP to its parent at once. A digest check over one
member, and the arithmetic of a hop. -/
def Obligations.CollectiveStarts : Prop :=
  (∀ s c k d (ms : List Nat) t0 t1, Runs s c 0x38 k → (∀ r ∈ s.collRuns, r.cmd ≠ c) → d.length = 8 → cMode d ≤ 2 →
    ReadsTo s c.ctx k.w0.toNat (d.flatMap fun w => leBytes w.toNat 8) t0 →
    let i : Instr := if cMode d = 0 then .collReduceScatter c else if cMode d = 1 then .collAllReduce c else .collAgree c
    let bad := fun (t : State) (reason : DWord) => exec i s = .next (failC t k 9 badPacket 0 reason)
    let w := fun i hi lo => (nthWord d i).toNat / 2 ^ lo % 2 ^ (hi + 1 - lo)
    let data := cMode d < 2
    let p := w 0 29 15
    let me := w 0 14 0
    let nb := w 1 63 48 + 1
    let bid0 := w 1 47 32
    let belems := w 1 31 0
    let n := w 2 39 0
    let c1 := (data ∧ 3 < w 0 59 56) ∨ w 0 42 30 ≠ 0 ∨ w 2 63 40 ≠ 0 ∨ w 7 63 0 ≠ 0 ∨
      (¬ data ∧ (w 0 59 43 ≠ 0 ∨ belems ≠ 0 ∨ n ≠ 0 ∨ w 4 63 0 ≠ 0 ∨ w 5 63 0 ≠ 0))
    let c2 := p = 0 ∨ 16384 < p ∨ p ≤ me ∨ 65536 < bid0 + nb ∨ w 3 63 0 % 64 ≠ 0 ∨ w 6 63 0 % 64 ≠ 0 ∨
      (data ∧ (belems < 64 ∨ 2 ^ 28 < belems ∨ belems % 64 ≠ 0 ∨ n ≤ (nb - 1) * belems ∨ nb * belems < n ∨ w 4 63 0 % 64 ≠ 0 ∨ w 5 63 0 % 64 ≠ 0))
    (c1 → bad t0 1) ∧ (¬ c1 → c2 → bad t0 2) ∧
    (¬ c1 → ¬ c2 → ms.length = p → (∀ m ∈ ms, m < 2 ^ 16) → ReadsTo t0 c.ctx (w 3 63 0) (ms.flatMap fun m => leBytes m 2) t1 →
      let mine := ∃ m, ms[me]? = some m ∧ (m = fabNode s ∨ m ∈ aliasesOf (cfgWord s 4))
      (¬ mine ∨ ¬ ms.Nodup → bad t1 3) ∧
      (mine → ms.Nodup → let job := jobFor s c.ctx c.queue
        let reads := fun (tb : List DWord) t2 => tb.length = 2 * nb ∧ w 0 43 43 = 0 ∧
          ReadsTo t1 c.ctx (w 6 63 0 + 16 * bid0) (tb.flatMap fun x => leBytes x.toNat 8) t2
        (job = 0 → bad t1 4) ∧
        (∀ tb t2, job ≠ 0 → reads tb t2 → (∃ i, i < nb ∧ (nthWord tb (2 * i)).getLsbD 51 = false) → bad t2 5) ∧
        (∀ t2, job ≠ 0 → ((w 0 43 43 = 1 ∧ t2 = t1) ∨ ∃ tb, reads tb t2 ∧ ∀ i, i < nb → (nthWord tb (2 * i)).getLsbD 51 = true) →
          let step : Word := k.w1.extractLsb' 0 32
          ((∃ r ∈ s.collRuns, (cmdOf s r.cmd).isSome = true ∧ r.job = job ∧ r.step = step ∧ r.bid0 = bid0 ∧ r.mode = cMode d) → bad t2 6) ∧
          (s.collRuns = [] → 0 < me → p ≤ 16 * me + 1 → (ctxOf s c.ctx).state = .active → (∀ m ∈ ms, m < 2 ^ 14) →
            let rdig := ((digest (([BitVec.ofNat 64 (w 0 63 15 * 2 ^ 15), nthWord d 1, nthWord d 2].flatMap fun x => leBytes x.toNat 8) ++
              ms.flatMap fun m => leBytes m 2)).extractLsb' 0 64 : DWord)
            let epoch := (NMap.find s.jobs job.toNat).map fun j => (j.epoch, j.cdig)
            let r : CollRun :=
              { cmd := c, job := job, step := step, mode := cMode d, fmt := w 0 59 56, bid0 := bid0, nb := nb, belems := belems, n := n, me := me
                members := ms.map (BitVec.ofNat 14), src := w 4 63 0, dst := w 5 63 0, stab := w 6 63 0, init := w 0 43 43 == 1
                s0 := BitVec.ofNat 8 (w 0 51 44), h0 := BitVec.ofNat 4 (w 0 55 52), epoch := epoch, rdig := rdig, phase := .openWait, kids := []
                buckets := [], out := [], fail := 0, aborted := false }
            let pk : Packet :=
              { type := 0x28, vc := 2, dnode := BitVec.ofNat 14 ((ms[(me - 1) / 16]?).getD 0), snode := BitVec.ofNat 14 ((ms[me]?).getD 0)
                sinc := BitVec.ofNat 8 (fabNinc s), job := job, window := BitVec.ofNat 16 bid0, len := 0, offset := step.zeroExtend 40, tag := 0
                dinc := 0, status := 0, opx := BitVec.ofNat 8 (cMode d * 16 + w 0 59 56), scale := 0, arg := 0, payload := [], poison := []
                tree := some { epoch := (epoch.map (·.1)).getD 0, cdig := (epoch.map (·.2)).getD 0, rdig := rdig, mismatch := epoch.isNone
                               poisoned := false, sums := [], digs := [] } }
            (∀ u, sendPacket t2 (runKey c) false pk = .sent u → exec i s = .next { u with collRuns := [r] }) ∧
            (sendPacket t2 (runKey c) false pk = .wait → exec i s = .next { t2 with collRuns := [{ r with out := [pk] }] })))))) ∧
  (∀ s c k (m : Nat) (ds : List (BitVec 128)) t0 t1 t2, Runs s c 0x39 k → s.collRuns = [] → s.injections = [] → k.w3.toNat % 2 ^ 15 = 1 →
    k.w3.toNat / 2 ^ 15 % 2 ^ 15 = 0 → ds.length = k.w3.toNat / 2 ^ 30 % 2 ^ 12 + 1 → m < 2 ^ 14 → (m = fabNode s ∨ m ∈ aliasesOf (cfgWord s 4)) →
    let job := jobFor s c.ctx c.queue
    job ≠ 0 → (ctxOf s c.ctx).state = .active → NMap.find s.jobs job.toNat ≠ none →
    ReadsTo s c.ctx k.w0.toNat (leBytes m 2) t0 → ReadsTo t0 c.ctx k.w2.toNat (ds.flatMap fun x => leBytes x.toNat 16) t1 →
    WritesTo t1 c.ctx (k.w2.toNat + 16 * ds.length) (List.replicate ((ds.length + 7) / 8) 0) t2 →
      ∃ r : CollRun, exec (.digestCheck c) s = .next (updCmd (finish { t2 with collRuns := [r] } c 0 0 0) c fun x => { x with errSignal := 0 }) ∧
        r.cmd = c ∧ r.job = job ∧ r.mode = 3 ∧ r.phase = .finished ∧ r.aborted = true ∧ r.out = []) ∧
  (∀ s c k, Runs s c 0x39 k → (∀ r ∈ s.collRuns, r.cmd ≠ c) → let p := k.w3.toNat % 2 ^ 15
    p = 0 ∨ 16384 < p ∨ p ≤ k.w3.toNat / 2 ^ 15 % 2 ^ 15 → exec (.digestCheck c) s = .next (failC s k 9 badPacket 0 2)) ∧
  (∀ (s : Int) (a b : Nat), let sum := fun f x y => round f .rne false (addV false (decode f x) (decode f y))
    (hopElem 3 s (some a) b).1 = (a + b) % 2 ^ 32 ∧ (hopElem 1 s (some a) b).1 = sum .f32 a b ∧ (hopElem 2 s (some a) b).1 = sum .bf16 a b ∧
    (hopElem 1 s none b).1 = b ∧ (hopElem 2 s none b).1 = b ∧
    (hopElem 0 s none b).1 = round .f16 .rne false (scaleV s (decode .f32 b)) ∧
    (hopElem 0 s (some a) b).1 = round .f16 .rne false (addV false (decode .f16 a) (scaleV s (decode .f32 b))) ∧
    ∀ fmt prev, fmt < 3 → (hopElem fmt s prev b).2.1 = !(decode (if fmt = 2 then .bf16 else .f32) b).isFinite) ∧
  (∀ (r : CollRun) b, 0 < r.members.length → r.me < r.members.length → let p := r.members.length
    r.owner b < p ∧ r.owner b % p = (r.bid0 + b) % p ∧ (r.owner b + 1 + r.place b) % p = r.me ∧ r.place b < p ∧ r.next b = (r.me + 1) % p)

/-- R374, R378 to R382: what the packets of a collective do at a member: a child's TREE.UP is kept until every child has sent
one; TREE.DOWN ends the command with EPOCH_MISMATCH or OP_ABORTED, the buckets that the member would have finalized recorded as
failed, writes the map of a digest check, or records the flag of an agreement and writes its table, the run standing until its
command retires; the owner of a bucket keeps the running sums of its relay and writes the result and the summary at
the tail. A stale packet is discarded, and one whose run has not started is held. -/
def Obligations.CollectivePackets : Prop :=
  (∀ s p port, (∀ type i, (type, i) ∈ [(0x20, Instr.relayHead p), (0x21, .relayData p), (0x22, .relayTail p), (0x28, .treeUp p), (0x29, .treeDown p)] →
    PacketHere s p type port → (stalePacket s p = true → exec i s = .next (countDiscard (taken s p) port)) ∧
      (stalePacket s p = false → runFor s p = none → exec i s = .next s))) ∧
  (∀ s p port r k i v, CollHere s p 0x28 port r k → r.phase = .openUp ∨ r.phase = .roundUp → r.members.findIdx? (· == p.snode) = some i →
    i ∈ r.children → p.tree = some v → (∃ j ∈ r.children, j ≠ i ∧ NMap.find r.kids j = none) →
    exec (.treeUp p) s = .next (setColl (taken s p) { r with kids := NMap.insert r.kids i v })) ∧
  (∀ s r bs (τ : Nat → State), r.mode < 2 → ctxServes s r.cmd.ctx = true → (bucketsOf r).filter (unfinalized r) = bs → τ 0 = s →
    (∀ i b, bs[i]? = some b → WritesTo (τ i) r.cmd.ctx (r.stab + 16 * (r.bid0 + b.index) + 8)
      (leBytes (r.step.toNat * 2 ^ 32 + 2 ^ 31 + 2 ^ 27 + 0x8000) 8) (τ (i + 1))) → recordFails s r = τ bs.length) ∧
  (∀ s r, 2 ≤ r.mode → recordFails s r = s) ∧
  (∀ s p port r k v, CollHere s p 0x29 port r k → p.tree = some v → r.children = [] →
    let ended := { r with phase := .finished, aborted := true }
    let gone := fun (u : State) => { u with collRuns := s.collRuns.map fun x => if x.cmd = r.cmd then ended else x }
    let completes := fun (u : State) (result : DWord) err => updCmd (finish u r.cmd 0 0 result) r.cmd fun x => { x with errSignal := err }
    (r.phase = .openWait → v.poisoned = false → v.mismatch = true →
      exec (.treeDown p) s = .next (gone (failC (recordFails (taken s p) r) k 9 epochMismatch 0 0))) ∧
    (r.phase = .openWait → v.poisoned = true → r.mode ≠ 2 →
      exec (.treeDown p) s = .next (gone (finish (recordFails (taken s p) r) r.cmd 2 opAborted 0))) ∧
    (r.phase = .roundWait → r.mode = 3 → v.poisoned = false → ∀ u, let bits := v.digs.map (·.2)
      let n := bits.countP id
      WritesTo (taken s p) r.cmd.ctx (r.src + 16 * r.belems) ((List.range ((bits.length + 7) / 8)).map fun i =>
        BitVec.ofNat 8 ((List.range 8).map fun j => if bits[8 * i + j]? = some true then 2 ^ j else 0).sum) u →
      (n = 0 → exec (.treeDown p) s = .next (gone (completes u 0 0))) ∧
      (n ≠ 0 → ∃ e t, exec (.treeDown p) s = .next t ∧
        t = gone (completes { u with log0 := t.log0, seq0 := s.seq0 + 1 } (BitVec.ofNat 64 n) (BitVec.ofNat 8 digestMismatch)) ∧
        t.log0 = (s.log0 ++ [e]).drop (s.log0.length + 1 - 65536) ∧ e.event = 0x0B ∧ e.inj = r.injected ∧ e.arg0 = BitVec.ofNat 64 r.step.toNat ∧ e.arg1 = BitVec.ofNat 64 n)) ∧
    (∀ ws : List DWord, ∀ τ : Nat → State, ∀ j : Job, r.phase = .roundWait → r.mode = 2 → v.poisoned = false → ws.length = 2 * r.nb → v.sums.length = r.nb →
      NMap.find s.jobs r.job.toNat = some j → let flags := (j.flags.filter fun e => e.1 != r.step) ++ [(r.step, v.sums.any fun x => x.nf || x.ov || x.fail)]
      ReadsTo { taken s p with jobs := NMap.insert s.jobs r.job.toNat { j with flags := flags.drop (flags.length - 256) } } r.cmd.ctx
        (r.stab + 16 * r.bid0) (ws.flatMap fun w => leBytes w.toNat 8) (τ 0) →
      (∀ i x, v.sums[i]? = some x → WritesTo (τ i) r.cmd.ctx (r.stab + 16 * r.bid0 + 16 * i)
        (leBytes (agreedWord (nthWord ws (2 * i)) x) 8 ++ leBytes (sumWord r.step x) 8) (τ (i + 1))) →
      exec (.treeDown p) s = .next (gone (completes (τ r.nb) 0 0)))) ∧
  (∀ (w : DWord) (x : Summary), (x.pr = false → agreedWord w x = w.toNat) ∧
    (∀ e, x.pr = true → x.seamax = some e → -32768 < e → e ≤ 32767 → let old := (w.extractLsb' 56 8 : BitVec 8).toInt
      let h : Int := (w.toNat / 2 ^ 52 % 16 : Nat)
      let new := BitVec.ofNat 64 (agreedWord w x)
      (new.extractLsb' 56 8 : BitVec 8).toInt = (if x.ov then max (old - 8) (-128) else if x.nf || x.fail then old else max (min (14 - e - h) 127) (-128)) ∧
      (new.extractLsb' 0 16 : BitVec 16).toInt = e ∧ new.extractLsb' 16 40 = w.extractLsb' 16 40)) ∧
  (∀ s p port r k b, r.phase = .data → r.mode = 0 → r.buckets.find? (fun x => x.index == p.window.toNat - r.bid0) = some b → b.sum = false →
    r.place b.index = r.members.length - 1 → (∀ x ∈ r.buckets, r.place x.index = 0 → x.sum = true) →
    (∃ x ∈ r.buckets, x.index ≠ b.index ∧ x.sum = false) →
    let span := (b.index * r.belems, min r.belems (r.n - b.index * r.belems))
    let w := if r.fmt = 2 then 2 else 4
    let wd := if r.fmt = 0 ∨ r.fmt = 2 then 2 else 4
    (CollHere s p 0x20 port r k → p.head = r.epoch → ∀ own t, own.length = span.2 * w → ReadsTo (taken s p) r.cmd.ctx (r.src + span.1 * w) own t →
      exec (.relayHead p) s = .next (setColl t (setBucket r { b with s := p.scale, headIn := true, acc := [], status := 0 }))) ∧
    (CollHere s p 0x20 port r k → p.head ≠ r.epoch →
      exec (.relayHead p) s = .next (setColl (taken s p) (setBucket r { b with s := p.scale, headIn := true, acc := [], status := 2 }))) ∧
    (CollHere s p 0x21 port r k → b.status = 0 → ∀ (own : List Byte) t n, n = min (p.payload.length / wd) (span.2 - p.tag.toNat) → 0 < n → own.length = n * w →
      ReadsTo (taken s p) r.cmd.ctx (r.src + (span.1 + p.tag.toNat) * w) own t → ∃ b', exec (.relayData p) s = .next (setColl t (setBucket r b')) ∧
        b' = { b with acc := b'.acc, nf := b'.nf, ov := b'.ov } ∧
        (∀ j, j < n → let h := hopElem r.fmt b.s.toInt (some (leNat ((p.payload.drop (j * wd)).take wd))) (leNat ((own.drop (j * w)).take w))
          ∀ i, i < wd → NMap.getD b'.acc ((p.tag.toNat + j) * wd + i) 0 = BitVec.ofNat 8 (h.1 / 256 ^ i)) ∧
        (∀ a, (a < p.tag.toNat * wd ∨ (p.tag.toNat + n) * wd ≤ a) → NMap.getD b'.acc a 0 = NMap.getD b.acc a 0)) ∧
    (CollHere s p 0x22 port r k → b.status = 0 → p.status = 0 → b.nf = false → b.ov = false → p.opx.toNat < 64 → ∀ bs u t, bs.length = span.2 * wd →
      (∀ i, i < bs.length → bs[i]? = some (NMap.getD b.acc i 0)) → WritesTo (taken s p) r.cmd.ctx (r.dst + span.1 * wd) bs u →
      WritesTo u r.cmd.ctx (r.stab + 16 * (r.bid0 + b.index) + 8) (leBytes (sumWord r.step (finalSummary r.fmt b.s.toInt bs false false)) 8) t →
      exec (.relayTail p) s = .next (setColl t (setBucket r { b with sum := true, fin := true, acc := [], headIn := false }))))

/-! ### The update class -/

/-- R321 to R323, R326, R328 to R330, R340: GROUP_ASSIGN gives entries their reset values and an owner or none; GROUP_WRITE
writes the masked words and never A and OWNER; UPDATE_RUN checks its list entry by entry, holds its groups at once, waits
for its agreement flag, and where the flag is set writes result records alone. -/
def Obligations.UpdateCommands : Prop :=
  (∀ s c k, Runs s c 0x42 k → updHalted s c 0 = false → let first := k.w0.toNat % 2 ^ 14
    let count := k.w0.toNat / 2 ^ 16 % 2 ^ 12 + 1
    let ctx := k.w0.toNat / 2 ^ 32 % 4096
    let i : Instr := if k.w0.getLsbD 48 then .groupRelease c else .groupAssign c
    let named := fun g => first ≤ g ∧ g < first + count
    ((∃ h ∈ s.heldGroups, named h.1 ∧ h.2 ≠ c) → exec i s = .next s) ∧
    ((∀ h ∈ s.heldGroups, named h.1 → h.2 = c) → ∃ u, exec i s = .next (finish u c 0 0 (BitVec.ofNat 64 count)) ∧
      u = { s with groups := u.groups, heldGroups := u.heldGroups } ∧ (∀ g, named g → (g, c) ∈ u.heldGroups) ∧
      (∀ g w, ¬ named g → groupWord u g w = groupWord s g w) ∧
      ∀ g w, named g → w < 16 → groupWord u g w = if w = 0 then (if k.w0.getLsbD 48 then 0 else BitVec.ofNat 64 (2 ^ 12 + ctx))
        else if w = 7 then 0x3F800000 else if w = 8 then 0x3F80000000000000 else if w = 10 then 0x8000800080000000 else 0)) ∧
  (∀ s c k, Runs s c 0x41 k → updHalted s c 0 = false → let gid := k.w0.toNat % 2 ^ 14
    (∀ h ∈ s.heldGroups, h.1 = gid → h.2 = c) → let t := takeGroups s c [gid]
    let mine := (groupWord s gid 0).getLsbD 12 = true ∧ (groupWord s gid 0).toNat % 4096 = c.ctx
    let i : Instr := if k.w0.getLsbD 16 then .groupReadOut c else .groupWrite c
    let va := k.w1.toNat % 2 ^ 52
    (¬ mine → exec i s = .next (failC t k 11 updateGroupInvalid 0 (BitVec.ofNat 64 (gid + 0x10000)))) ∧
    (∀ u, mine → k.w0.getLsbD 16 = true → WritesTo t c.ctx va ((List.range 16).flatMap fun w => leBytes (groupWord s gid w).toNat 8) u →
      exec i s = .next (finish u c 0 0 0)) ∧
    (∀ img u, mine → k.w0.getLsbD 16 = false → img.length = 16 → ReadsTo t c.ctx va (img.flatMap fun w => leBytes w.toNat 8) u →
      let new := fun w => let x := if k.w2.getLsbD w then nthWord img w else groupWord s gid w
        if w = 0 then (x &&& ~~~0x1FFF#64) ||| (groupWord s gid 0 &&& 0x1FFF#64) else x
      (groupBad new = true → ∃ v detail, exec i s = .next (failC v k 11 updateStateFormat 0 detail) ∧ v.groups = s.groups ∧ v.mem = u.mem) ∧
      (groupBad new = false → ∃ v, exec i s = .next (finish v c 0 0 0) ∧ v = { u with groups := v.groups } ∧
        (∀ w, w < 16 → groupWord v gid w = new w) ∧ ∀ g w, g ≠ gid → groupWord v g w = groupWord s g w))) ∧
  (∀ s c k (l : List RunEntry) t, Runs s c 0x40 k → updHalted s c 0 = false → updRunOf s c = none →
    (jobFor s c.ctx c.queue = 0 → exec (.updateRun c) s = .next (failC s k 11 badPacket 0 0)) ∧
    (jobFor s c.ctx c.queue ≠ 0 → l.length = k.w1.toNat % 2 ^ 15 →
      ReadsTo s c.ctx (k.w0.toNat % 2 ^ 52) (l.flatMap fun x => [x.w0, x.gva, x.wva, x.rva].flatMap fun w => leBytes w.toNat 8) t →
      let gid := fun (x : RunEntry) => x.w0.toNat % 2 ^ 14
      let fails := fun (i : Nat) (x : RunEntry) => let e := groupWord s (gid x) 0
        let fmts := e.toNat / 2 ^ 44 % 16 * 2 ^ 12 + e.toNat / 2 ^ 40 % 16 * 2 ^ 8 + e.toNat / 2 ^ 48 % 2 ^ 8
        if e.getLsbD 12 = false ∨ e.toNat % 4096 ≠ c.ctx then some (updateGroupInvalid, 1)
        else if e.getLsbD 63 = false then some (updateGroupInvalid, 2)
        else if ((l.take i).any fun y => gid y == gid x) = true then some (updateGroupInvalid, 3)
        else if x.w0.toNat / 2 ^ 48 ≠ fmts then some (updateStateFormat, 1)
        else if x.w0.toNat / 2 ^ 40 % 2 ^ 8 ≠ 0 ∨ x.w0.toNat / 2 ^ 14 % 2 ^ 18 ≠ 0 ∨ x.gva.toNat % 64 ≠ 0 ∨ x.rva.toNat % 64 ≠ 0 ∨
          (e.toNat / 2 ^ 40 % 16 ≠ 15 ∧ x.wva.toNat % 64 ≠ 0) then some (updateStateFormat, 2)
        else none
      ((∀ i x, l[i]? = some x → fails i x = none) → exec (.updateRun c) s = .next { t with updRuns := s.updRuns ++ [{
        cmd := c, step := k.w2.extractLsb' 0 32, list := l, phase := .hold, pos := [], acc := [], guard := 0 }] }) ∧
      (∀ (i : Nat) x code reason, l[i]? = some x → fails i x = some (code, reason) → (∀ j y, j < i → l[j]? = some y → fails j y = none) →
        exec (.updateRun c) s = .next (failC t k 11 code 0 (BitVec.ofNat 64 (gid x + reason * 2 ^ 16 + i * 2 ^ 24)))))) ∧
  (∀ s c k r, Runs s c 0x40 k → updRunOf s c = some r → let gids := r.list.map entryGid
    let other := ∃ h ∈ s.heldGroups, h.1 ∈ gids ∧ h.2 ≠ c
    (r.phase = .hold → (other → exec (.updateGroupHold c) s = .next s) ∧
      (¬ other → listFault s c.ctx [] 0 r.list = none → exec (.updateGroupHold c) s = .next (setUpdRun (takeGroups s c gids) { r with phase := .agree }))) ∧
    (r.phase = .agree → (ctxOf s c.ctx).state = .active → let flag := finalFlag s (jobFor s c.ctx c.queue) r.step
      (flag = none → exec (.updateAgree c) s = .next s) ∧
      (flag = some false → exec (.updateAgree c) s = .next (setUpdRun s { r with phase := .pass })) ∧
      (∀ τ : Nat → State, flag = some true → τ 0 = s → (∀ i x, r.list[i]? = some x → WritesTo (τ i) c.ctx x.rva.toNat
          (leBytes (2 ^ 62 + entryGid x * 2 ^ 48 + (groupWord s (entryGid x) 8).toNat % 2 ^ 8 * 2 ^ 40 + (groupWord s (entryGid x) 7).toNat / 2 ^ 32) 8 ++
            leBytes 0 8 ++ ([12, 13, 14, 15, 10].flatMap fun w => leBytes (groupWord s (entryGid x) w).toNat 8) ++ leBytes 0 8) (τ (i + 1))) →
        exec (.updateAgree c) s = .next (finish (τ r.list.length) c 0 0 (BitVec.ofNat 64 (r.list.length + 2 ^ 16))))))

/-- R324, R325, R331 to R334, R336 to R339, R342 to R344: the formulas of one element, its stored forms and scales; a chunk is
judged, its state region on the engine's own chip (R325), read, computed and written whole, the last chunk of a group sets the engine's fields and writes its result
record; STATE_MOVE moves the region, block by block, and writes the digest of its bytes. -/
def Obligations.UpdatePass : Prop :=
  (∀ (p : UpdP) e grad, let g := fmul .rne (gradDecode p.gfmt p.gscl grad) p.gmul
    let f := updateElem p e grad
    let one : Word := 0x3F800000
    let mul := fmul .rne
    let add := fadd .rne
    let sub := fsub .rne
    let div := fdiv .rne
    let ema := fun b x y => add (mul b x) (mul (sub one b) y)
    let decay := mul p.wd e.w
    (g.toNat / 2 ^ 23 % 256 = 255 → f = { e with u := none }) ∧
    (g.toNat / 2 ^ 23 % 256 ≠ 255 → ∃ u, f.u = some u ∧
      (p.kind = 0 → f.m = add (mul p.b1 e.m) g ∧ f.v = e.v ∧ u = add (if p.nest then add g (mul p.b1 f.m) else f.m) decay) ∧
      (p.kind = 1 → f.m = ema p.b1 e.m g ∧ f.v = add (mul p.b2 e.v) (mul (sub one p.b2) (mul g g)) ∧
        u = add (div (div f.m (sub one p.p1)) (add (fsqrt .rne (div f.v (sub one p.p2))) p.eps)) decay) ∧
      (p.kind = 2 → f.m = ema p.b2 e.m g ∧ f.v = e.v ∧ u = add (sgn32 (ema p.b1 e.m g)) decay) ∧
      (p.mcomp = false → f.w = sub e.w (mul p.lr u) ∧ f.k = e.k) ∧
      (p.mcomp = true → let y := sub (fneg (mul p.lr u)) e.k
        f.w = add e.w y ∧ f.k = sub (sub (add e.w y) e.w) y))) ∧
  (∀ emax sc, (∀ fmt, fmt < 2 → newScale fmt emax sc = 0) ∧ newScale 2 0x8000 sc = sc ∧ newScale 3 0x8000 sc = sc ∧
    (emax ≠ 0x8000 → emax < 2 ^ 16 → let e := (BitVec.ofNat 16 emax).toInt
      newScale 2 emax sc = max (-127) (min 127 (8 - e - 1)) ∧ newScale 3 emax sc = max (-127) (min 127 (15 - e - 1)) ∧
      outScale 2 emax = max (-127) (min 127 (15 - e)) ∧ outScale 3 emax = max (-127) (min 127 (8 - e))) ∧
    outScale 2 0x8000 = 0 ∧ outScale 3 0x8000 = 0 ∧ outScale 0 emax = 0 ∧ outScale 1 emax = 0) ∧
  (∀ s c k r chip x st gr s1 s2 s3 s4 sts wts sp gp, Runs s c 0x40 k → chip < 4 → updRunOf s c = some r → r.phase = .pass → updHalted s c chip = false →
    (chipList r chip)[NMap.getD r.pos chip 0]? = some x → let gid := x.w0.toNat % 2 ^ 14
    let e := groupWord s gid
    let p := passOf e x (ctxOf s c.ctx).seed
    let a := NMap.getD r.acc chip .start
    let lanes := min 64 (p.n - 64 * a.chunk)
    let cb := chunkBytes (e 0)
    let sva := (e 2).toNat % 2 ^ 52 / 64 * 64 + a.chunk * cb
    let wva := x.wva.toNat + 64 * a.chunk * outWidth p.wfmt
    let gva := x.gva.toNat + 64 * a.chunk * gradWidth p.gfmt
    let o := updateChunk p a.chunk lanes st gr
    a.chunk * 64 + 64 < p.n → judgeState s c.ctx chip .write (pieces sva cb) = (s1, .ok sts) →
    judgePieces s1 c.ctx .write (pieces wva (lanes * outWidth p.wfmt)) = (s2, .ok wts) →
    engineReadN s2 c.ctx chip true sva cb = (s3, .ok (st, sp)) → engineReadN s3 c.ctx chip false gva (lanes * gradWidth p.gfmt) = (s4, .ok (gr, gp)) →
      (true ∈ sp → exec (.updateChunk c chip) s = .next (chunkFault s4 k chip gid a.chunk poisonConsumed (poisonAt sva cb sp) 0x06)) ∧
      (true ∉ sp → true ∈ gp → exec (.updateChunk c chip) s = .next (chunkFault s4 k chip gid a.chunk poisonConsumed
        (poisonAt gva (lanes * gradWidth p.gfmt) gp) 0x06)) ∧
      (true ∉ sp → true ∉ gp → exec (.updateChunk c chip) s = .next (setUpdRun (writeJudged (writeJudged s4 c.ctx chip sva o.bytes (pieces sva cb) sts)
        c.ctx chip wva o.out (pieces wva (lanes * outWidth p.wfmt)) wts) { r with acc := NMap.insert r.acc chip (takeChunk p a o) }))) ∧
  (∀ s s1 ctx chip acc ps ts, judgePieces s ctx acc ps = (s1, .ok ts) →
    let own := fun t : Target => regionOf t.pa = .slow chip ∨ regionOf t.pa = .far chip
    ((∀ e ∈ ps.zip ts, own e.2) → judgeState s ctx chip acc ps = (s1, .ok ts)) ∧
    ∀ (i : Nat) p t, ps[i]? = some p → ts[i]? = some t → ¬ own t → (∀ j q u, j < i → ps[j]? = some q → ts[j]? = some u → own u) →
      judgeState s ctx chip acc ps = (s1, .fault pagePermission (BitVec.ofNat 64 (p.1 % 2 ^ 52)) 1)) ∧
  (∀ s c k r chip x u, Runs s c 0x40 k → chip < 4 → updRunOf s c = some r → r.phase = .pass → updHalted s c chip = false →
    (chipList r chip)[NMap.getD r.pos chip 0]? = some x → let gid := x.w0.toNat % 2 ^ 14
    let e := groupWord s gid
    let p := passOf e x (ctxOf s c.ctx).seed
    let a := NMap.getD r.acc chip .start
    p.n ≤ a.chunk * 64 → let s' := setParams s gid (entryAfter p e a)
    engineWriteN s' c.ctx chip false x.rva.toNat (resultRecord s' gid 0 a.guard) = (u, .ok ()) → ∃ t r', exec (.updateChunk c chip) s = .next t ∧
      t.groups = s'.groups ∧ t.mem = u.mem ∧ r' = { r with pos := NMap.insert r.pos chip (NMap.getD r.pos chip 0 + 1), acc := NMap.erase r.acc chip
                                                           guard := r.guard + a.guard } ∧ r' ∈ t.updRuns ∧
      groupWord t gid 7 = BitVec.ofNat 64 ((p.step + 1) % 2 ^ 32 * 2 ^ 32 + p.p1.toNat) ∧ (∀ w, w < 7 → groupWord t gid w = e w) ∧
      ((∀ b, b < 4 → NMap.getD r'.pos b 0 = (chipList r b).length) → ∃ v, t = finish v c 0 0
        (BitVec.ofNat 64 (r.list.length + r'.guard % 2 ^ 40 * 2 ^ 24)))) ∧
  (∀ s c k out m (bs : Nat → List Byte) (ps : Nat → List Bool) (τ υ : Nat → State), Runs s c 0x43 k → updHalted s c 0 = false → k.w0.getLsbD 16 = !out →
    let gid := k.w0.toNat % 2 ^ 14
    let e := groupWord s gid
    let va := k.w1.toNat % 2 ^ 52
    let sva := (e 2).toNat % 2 ^ 52 / 64 * 64
    let n := ((e 1).toNat % 2 ^ 40 + 63) / 64 * chunkBytes (e 0)
    let src := if out then sva else va
    let dst := if out then va else sva
    let chip := gid / 4096
    let i : Instr := if out then .stateMoveOut c else .stateMoveIn c
    let mine := (e 0).getLsbD 12 = true ∧ (e 0).toNat % 4096 = c.ctx
    (∀ h ∈ s.heldGroups, h.1 = gid → h.2 = c) → let t := takeGroups s c [gid]
    let bad := fun code reason => exec i s = .next (failC t k 11 code 0 (BitVec.ofNat 64 (gid + reason * 2 ^ 16)))
    (¬ mine → bad updateGroupInvalid 1) ∧ (mine → (e 0).getLsbD 63 = false → bad updateGroupInvalid 2) ∧
    (mine → (e 0).getLsbD 63 = true → va % 64 ≠ 0 → bad updateStateFormat 2) ∧
    (mine → (e 0).getLsbD 63 = true → va % 64 = 0 → updRunOf s c = none → src + n ≤ dst ∨ dst + n ≤ src → τ 0 = t → (m - 1) * 4096 < n → n ≤ m * 4096 →
      (∀ i, i < m → engineReadN (τ i) c.ctx chip out (src + 4096 * i) (min 4096 (n - 4096 * i)) = (υ i, .ok (bs i, ps i)) ∧ true ∉ ps i ∧
        engineWriteN (υ i) c.ctx chip (!out) (dst + 4096 * i) (bs i) = (τ (i + 1), .ok ())) →
      (k.w2.toNat % 2 ^ 52 = 0 → exec i s = .next (finish (τ m) c 0 0 (BitVec.ofNat 64 n))) ∧
      (∀ u run, k.w2.toNat % 2 ^ 52 ≠ 0 → run.cmd = c → run.step = 0 → run.list = [] → run.phase = .hold → run.pos = [(0, n)] → run.guard = 0 →
        run.acc = [(0, { PassAcc.start with digM := ((List.range m).flatMap fun i => chunksOf 16 (bs i)).foldl digestBlock 0 })] →
        engineWriteN (setUpdRun (τ m) run) c.ctx chip false (k.w2.toNat % 2 ^ 52) (leBytes (digest ((List.range m).flatMap bs)).toNat 16) = (u, .ok ()) →
        exec i s = .next (finish u c 0 0 (BitVec.ofNat 64 n))))) ∧
  (∀ a b : BitVec 128, gmul a b = (List.range 128).foldl (fun acc i => if b.getLsbD i
    then acc ^^^ (List.range i).foldl (fun x _ => if x.getLsbD 127 then (x <<< 1) ^^^ 0x87#128 else x <<< 1) a else acc) 0) ∧
  (∀ bs : List Byte, let key : BitVec 128 := 0x94D049BB133111EBBF58476D1CE4E5B9
    let block := fun j => BitVec.ofNat 128 (leNat ((bs.drop (16 * j)).take 16))
    digest bs = gmul ((List.range ((bs.length + 15) / 16)).foldl (fun d j => gmul (d ^^^ block j) key) 0 ^^^ BitVec.ofNat 128 bs.length) key)

/-! ### The home slices -/

/-- R268, R282, R290, R291, R295 to R306: what a home slice does with a request in one sector: it answers a read of bytes that
its line holds at once, has a request wait behind an earlier one for its sector, gives one that needs a transfer a miss
register or a place in its bank's queue or refuses it, performs writes, atomics and reductions in its order, lets a
reduction of an ordered range wait for its turn, and drops the line of a dead hint. A transfer waits for a credit of its
partition, and a request into a hole of the address map stops the model. -/
def Obligations.Slices : Prop :=
  (∀ s r, s.run = .up → regionOf r.pa = .hole → exec (.sliceRequest r) s = .fault (.hole r.pa)) ∧
  (∀ s r, s.run = .up → regionOf r.pa = .fast → 1 ≤ r.bytes → r.pa % 64 + r.bytes ≤ 64 → noFaults s = true →
    let sector := r.pa / 64
    let slice := homeSlice s r.pa
    let answer := fun bs p status => ({ requester := r.requester, data := bs, poison := p, status := status } : Answer)
    let answers := fun (t : State) as => ∃ u, MemoryOnly s u ∧ t = { u with reply := .slice as }
    let others := fun (t : State) n => ∀ a, (a < r.pa ∨ r.pa + n ≤ a) → cohByte t a = cohByte s a
    let line := r.pa / 256
    let lanes := r.info.unit = 2 ∨ r.info.unit = 3
    let faults := fun (code : Nat) (operand : DWord) => raiseFault s r.ctx .f { r.info with
      code := BitVec.ofNat 8 code, operand := operand, detail := 0, group := if lanes then r.info.group else 0, mask := if lanes then r.info.mask else 0 }
    let first := ∀ q ∈ s.refused, ¬ (q.req.requester = r.requester ∧ q.req.pa / 64 = sector)
    let clear := NMap.find s.misses sector = none ∧ (∀ q ∈ s.bankQ, q.req.pa / 64 ≠ sector) ∧ first
    let waiting : Waiting := { num := s.reqCtr, req := r, joined := [] }
    let refused := ∃ t, exec (.sliceRequest r) s = .next t ∧ t = { s with refused := s.refused ++ [waiting], reqCtr := s.reqCtr + 1, counters := t.counters } ∧
      counter t 2 slice 3 = satAdd (counter s 2 slice 3) 1
    ((r.op ≠ .read → r.op ≠ .deadHint → frozenSector s sector = true →
        exec (.sliceRequest r) s = .next (faults frozenWrite (r.info.operand &&& 0xFFFFFFFFFFFFF#64))) ∧
      (r.op = .deadHint → (∃ i, i < 4 ∧ frozenSector s (line * 4 + i) = true) →
        exec (.sliceRequest r) s = .next (faults frozenWrite (r.info.operand &&& 0xFFFFFFFFFFFFF#64)))) ∧
    (r.op = .read → NSet.has s.dead sector = false → sliceHit s r.pa r.bytes = true → clear → ∃ t, exec (.sliceRequest r) s = .next t ∧
      answers t [answer (cohBytes s r.pa r.bytes) (cohPoison s r.pa) 0] ∧ others t 0 ∧ counter t 2 slice 0 = satAdd (counter s 2 slice 0) 1) ∧
    (r.op = .read → NSet.has s.dead sector = true → sliceHit s r.pa r.bytes = true → clear → exec (.sliceRequest r) s =
      .next { faults deadLineRead (r.info.operand &&& 0xFFFFFFFFFFFC0#64) with reply := .slice [answer [] false 0x05] }) ∧
    (r.op ≠ .deadHint → (r.op ≠ .read → frozenSector s sector = false) →
      (¬ first → refused) ∧
      (∀ m, first → NMap.find s.misses sector = some m → (waitersUsed s slice < 4095 → ∃ t, exec (.sliceRequest r) s = .next t ∧ t = { s with
        misses := NMap.insert s.misses sector { m with waiters := m.waiters ++ [r] }, counters := t.counters }) ∧
        (4095 ≤ waitersUsed s slice → refused)) ∧
      (clear → ((r.op = .read ∨ ∃ fn v c, r.op = .atomic fn v c) ∧ sliceHit s r.pa r.bytes = false) ∨
          ((∃ data, r.op = .write data) ∧ held s r.pa = false ∧ r.cp ≠ 0) →
        let room := (missesOf s slice).countP (fun e => !e.2.kept) < 1279 ∧ missesIn s slice (bankOf r.pa) < 160
        (room → exec (.sliceRequest r) s =
          .next { s with misses := NMap.insert s.misses sector { fwd := false, kept := false, waiters := [r] } }) ∧
        (¬ room → (queueOfReq s r).length < 15 →
          exec (.sliceRequest r) s = .next { s with bankQ := s.bankQ ++ [waiting], reqCtr := s.reqCtr + 1 }) ∧
        (¬ room → 15 ≤ (queueOfReq s r).length → refused))) ∧
    (∀ data, r.op = .write data → data.length = r.bytes → frozenSector s sector = false → clear → held s r.pa = true ∨ r.cp = 0 → ∃ t,
      exec (.sliceRequest r) s = .next t ∧ answers t [answer [] false 0] ∧ others t r.bytes ∧ cohBytes t r.pa r.bytes = data ∧
      NSet.has t.dead sector = false) ∧
    (∀ fn v cmp new, r.op = .atomic fn v cmp → r.bytes = 4 ∨ r.bytes = 8 → frozenSector s sector = false → NSet.has s.dead sector = false →
      sliceHit s r.pa r.bytes = true → clear → let old := leNat (cohBytes s r.pa r.bytes)
      atomFn (8 * r.bytes) fn.toNat old (v.toNat % 2 ^ (8 * r.bytes)) (cmp.toNat % 2 ^ (8 * r.bytes)) = some new → ∃ t,
        exec (.sliceRequest r) s = .next t ∧ answers t [answer (cohBytes s r.pa r.bytes) (cohPoison s r.pa) 0] ∧ others t r.bytes ∧
        cohBytes t r.pa r.bytes = leBytes new r.bytes) ∧
    (∀ op scale data, r.op = .reduce op scale data → reduceOp op.toNat = true → let w := reduceWidths op.toNat
      data.length = w.2 → r.bytes = w.1 → r.pa % w.1 = 0 → frozenSector s sector = false → NSet.has s.dead sector = false → clear →
      let applied := fun (t : State) => others t w.1 ∧
        cohBytes t r.pa w.1 = leBytes (reduceElem op.toNat scale.toInt (leNat (cohBytes s r.pa w.1)) (leNat data)) w.1
      (orderedAt s r.pa = none → ∃ t, exec (.sliceRequest r) s = .next t ∧ answers t [] ∧ applied t) ∧
      (∀ cnt, orderedAt s r.pa = some cnt → r.agent < cnt → let next := NMap.getD s.nexts sector 0
        let alone := ∀ q ∈ s.turns, ¬ (q.pa / 64 = sector ∧ q.agent = r.agent)
        (r.agent = next → alone → ∃ t u, exec (.sliceRequest r) s = .next t ∧ MemoryOnly s u ∧ applied t ∧
          t = { u with nexts := NMap.put 0 s.nexts sector ((next + 1) % cnt), reply := .slice [] }) ∧
        (r.agent ≠ next ∨ ¬ alone → waitersUsed s slice < 4095 → ∃ t u, exec (.sliceRequest r) s = .next t ∧ MemoryOnly s u ∧ others t 0 ∧
          t = { u with turns := s.turns ++ [r], reply := .slice [] }) ∧
        (r.agent ≠ next ∨ ¬ alone → 4095 ≤ waitersUsed s slice → ∃ t u, exec (.sliceRequest r) s = .next t ∧ MemoryOnly s u ∧ others t 0 ∧
          t = { u with refused := s.refused ++ [waiting], reqCtr := s.reqCtr + 1, reply := .slice [] })) ∧
      (∀ cnt, orderedAt s r.pa = some cnt → cnt ≤ r.agent → ∃ t, exec (.sliceRequest r) s = .next t ∧ answers t [] ∧ applied t ∧
        counter t 2 slice 7 = satAdd (counter s 2 slice 7) 1)) ∧
    (r.op = .deadHint → (∀ i, i < 4 → frozenSector s (line * 4 + i) = false ∧ NMap.find s.misses (line * 4 + i) = none) →
      (∀ q ∈ s.bankQ, q.req.pa / 256 ≠ line) → first →
      (orderedAt s r.pa ≠ none → exec (.sliceRequest r) s = .next { s with reply := .slice [] }) ∧
      (orderedAt s r.pa = none → ∃ t, exec (.sliceRequest r) s = .next t ∧ answers t [] ∧ NMap.find t.lines line = none ∧
        NMap.find t.fills line = none ∧ t.mem = s.mem ∧ (∀ a, a / 256 = line → cohByte t a = memByte s a) ∧
        (∀ a, a / 256 ≠ line → cohByte t a = cohByte s a) ∧
        ∀ k, NSet.has t.dead k = (NSet.has s.dead k || ((anySetting s r.ctx).deadchk && k / 4 == line))))) ∧
  (∀ s slice, s.run = .up → ((∀ q ∈ s.refused, homeSlice s q.req.pa ≠ slice) → exec (.creditReturn slice) s = .next s) ∧
    (∀ q rest, s.refused = q :: rest → homeSlice s q.req.pa = slice → regionOf q.req.pa = .fast → NMap.find s.misses (q.req.pa / 64) = none →
      (∀ w ∈ s.bankQ, w.req.pa / 64 ≠ q.req.pa / 64) → noTransfer s q.req = false →
      let general := (missesOf s slice).countP (fun e => !e.2.kept) < 1279 ∧ missesIn s slice (bankOf q.req.pa) < 160
      let register := fun kept => NMap.insert s.misses (q.req.pa / 64) { fwd := false, kept := kept, waiters := [q.req] }
      (general → exec (.creditReturn slice) s = .next { s with refused := rest, misses := register false }) ∧
      (¬ general → isOldest s q = true → keptUsed s slice = false → ∃ t, exec (.creditReturn slice) s = .next t ∧
        t = { s with refused := rest, misses := register true, counters := t.counters } ∧ counter t 2 slice 4 = satAdd (counter s 2 slice 4) 1) ∧
      (¬ general → isOldest s q = false → 15 ≤ (queueOfReq s q.req).length → exec (.creditReturn slice) s = .next s))) ∧
  (∀ s slice p, (creditLeft s slice p = false → granted s slice p = false) ∧
    (waitingParts s slice = [p] → creditLeft s slice p = true → granted s slice p = true)) ∧
  (∀ s sector, s.run = .up → (NMap.find s.misses sector = none → ∀ f, exec (.channelTransferComplete sector f) s = .next s) ∧
    (∀ m r rest f, NMap.find s.misses sector = some m → m.fwd = false → m.waiters = r :: rest → granted s (homeSlice s (sector * 64)) r.part = false →
      exec (.channelTransferComplete sector f) s = .next s) ∧
    (∀ m r, NMap.find s.misses sector = some m → m.fwd = false → m.waiters = [r] → r.op = .read → r.pa / 64 = sector → regionOf r.pa = .fast →
      r.pa % 64 + r.bytes ≤ 64 → NSet.has s.dead sector = false → noFaults s = true → (∀ q ∈ s.bankQ, homeSlice s q.req.pa ≠ homeSlice s r.pa) →
      granted s (homeSlice s r.pa) r.part = true → ∃ t,
        exec (.channelTransferComplete sector .clean) s = .next t ∧ NMap.find t.misses sector = none ∧ (∀ a, cohByte t a = cohByte s a) ∧
        t.reply = .slice [{ requester := r.requester, data := cohBytes s r.pa r.bytes, poison := cohPoison t r.pa, status := 0 }] ∧
        NMap.getD s.credits (homeSlice s r.pa * 64 + r.part) 0 < NMap.getD t.credits (homeSlice s r.pa * 64 + r.part) 0)) ∧
  (∀ s line, s.run = .up → (orderedAt s (line * 256) ≠ none → exec (.sliceEviction line) s = .next s) ∧
    (orderedAt s (line * 256) = none → ∃ t, exec (.sliceEviction line) s = .next t ∧ MemoryOnly s t ∧ NMap.find t.lines line = none ∧
      NMap.find t.fills line = none ∧ (∀ a, cohByte t a = cohByte s a) ∧ ∀ a, a / 256 = line → memByte t a = cohByte s a)) ∧
  (∀ s sector, s.run = .up → ((∀ b ∈ s.addBufs, b.1 ≠ sector) → exec (.adderBufferTimeout sector) s = .next s) ∧
    (∀ b, s.addBufs.find? (fun b => b.1 == sector) = some b → ∃ t, exec (.adderBufferTimeout sector) s = .next t ∧
      t = { s with addBufs := s.addBufs.erase b, credits := t.credits, counters := t.counters })) ∧
  (∀ s sector, s.run = .up → let next := NMap.getD s.nexts sector 0
    (orderedAt s (sector * 64) = none → exec (.orderedReductionApply sector) s = .next s) ∧
    ((∀ q ∈ s.turns, ¬ (q.pa / 64 = sector ∧ q.agent = next)) → exec (.orderedReductionApply sector) s = .next s) ∧
    (∀ cnt r, orderedAt s (sector * 64) = some cnt → s.turns.find? (fun q => q.pa / 64 == sector && q.agent == next) = some r →
      let runs := (ctxOf s r.ctx).state = .active ∨ (ctxOf s r.ctx).state = .suspended
      (¬ runs → exec (.orderedReductionApply sector) s = .next s) ∧
      (∀ op scale data, runs → r.op = .reduce op scale data → regionOf r.pa = .fast → noFaults s = true → frozenSector s sector = false →
        let w := reduceWidths op.toNat
        data.length = w.2 → r.pa % 64 + w.1 ≤ 64 → ∃ t u, exec (.orderedReductionApply sector) s = .next t ∧ MemoryOnly s u ∧
          t = { u with turns := s.turns.erase r, nexts := NMap.put 0 s.nexts sector ((next + 1) % cnt) } ∧
          (∀ a, (a < r.pa ∨ r.pa + w.1 ≤ a) → cohByte t a = cohByte s a) ∧
          cohBytes t r.pa w.1 = leBytes (reduceElem op.toNat scale.toInt (leNat (cohBytes s r.pa w.1)) (leNat data)) w.1)))

/-- R293 to R296, R307 to R309, R312, R313, R317, R319, R460: what happens at channels, tier chips and the partition control
block: unused credits lapse with the window; a commit applies a staged entry or says why not; patrol and refresh count what
they find, an uncorrectable error poisons its sector and marks its frame, and the fourth correctable one of a row repairs
it; a tier link retrains on two lanes or goes down, and a CXL device or DIMM reports its loss or heat. -/
def Obligations.Channels : Prop :=
  (∀ s ch, s.run = .up → ch < 256 → ∃ t, exec (.regulatorWindow ch) s = .next t ∧ t = { s with credits := t.credits, counters := t.counters } ∧
    (∀ k, k / 64 = ch → NMap.getD t.credits k 0 = 0) ∧ (∀ k, k / 64 ≠ ch → NMap.getD t.credits k 0 = NMap.getD s.credits k 0) ∧
    ((∀ b, b < 32 → missesIn s ch b < 10) → (counter s 2 ch 12).toNat % 2 ^ 32 < 2 ^ 32 - 1 → counter t 2 ch 12 = counter s 2 ch 12 + 1)) ∧
  (∀ s (data : DWord), s.run = .up → linkUp s = true → s.pcbNext.isSome = true → exec (.partitionCommit data []) s = .next s) ∧
  (∀ s (data : DWord), s.run = .up → linkUp s = true → s.pcbNext = none → let p := data.toNat % 64
    let e := stagedOf s p
    let w := fun (x : DWord) hi lo => x.toNat / 2 ^ lo % 2 ^ (hi + 1 - lo)
    let pinw := fun q => w (partOf s q).w0 63 60
    let other := fun q => q < 63 ∧ q ≠ p
    let limit := 0xBC00000000 / 2 ^ 18
    let ranges := [(w e.w1 63 34, w e.w1 33 14), (w e.w2 63 34, w e.w2 33 14), (w e.w3 63 34, w e.w3 33 14)]
    let ob := fun q => w (partOf s q).w3 63 34
    let os := fun q => w (partOf s q).w3 33 14
    let c1 := 8 < w e.w0 63 60 ∨ w e.w0 59 53 = 0 ∨ 64 < w e.w0 59 53 ∨ w e.w0 52 49 = 0 ∨ w e.w0 48 0 ≠ 0 ∨ w e.w1 13 0 ≠ 0 ∨ w e.w2 13 0 ≠ 0 ∨
      w e.w3 4 0 ≠ 0 ∨ (w e.w3 13 5 = 0 ∧ w e.w3 33 14 ≠ 0) ∨ 352 < w e.w3 13 5
    let c2 := 8 < w e.w0 63 60 + (((List.range 63).filter (· ≠ p)).map pinw).sum
    let c3 := (∃ r ∈ ranges, r.2 ≠ 0 ∧ limit < r.1 + r.2) ∨
      (∃ q, other q ∧ 0 < w e.w3 33 14 ∧ 0 < os q ∧ w e.w3 63 34 < ob q + os q ∧ ob q < w e.w3 63 34 + w e.w3 33 14) ∨
      256 < w e.w3 33 14 + (((List.range 63).filter (· ≠ p)).map os).sum
    let c4 := (partOf s p).w3 ≠ e.w3 ∧ ∃ x ∈ s.nexts, ob p ≤ x.1 / 4096 ∧ x.1 / 4096 < ob p + os p
    let refused := fun (r : Byte) => exec (.partitionCommit data []) s = .next { s with pcbLast := BitVec.ofNat 8 p, pcbResult := r }
    (p = 63 → refused 5) ∧ (p ≠ 63 → c1 → refused 1) ∧ (p ≠ 63 → ¬ c1 → c2 → refused 2) ∧ (p ≠ 63 → ¬ c1 → ¬ c2 → c3 → refused 3) ∧
    (p ≠ 63 → ¬ c1 → ¬ c2 → ¬ c3 → c4 → refused 4) ∧
    (p ≠ 63 → ¬ c1 → ¬ c2 → ¬ c3 → ¬ c4 → exec (.partitionCommit data []) s =
      .next { s with pcbLast := BitVec.ofNat 8 p, pcbResult := 0, pcbNext := some (p, e) })) ∧
  (∀ s, s.run = .up → (s.pcbNext = none → exec .partitionCommitDone s = .next s) ∧
    (∀ p e, s.pcbNext = some (p, e) → ∃ t, exec .partitionCommitDone s = .next t ∧ t = { s with parts := t.parts, pcbNext := none } ∧
      partOf t p = e ∧ ∀ q, q ≠ p → partOf t q = partOf s q)) ∧
  (∀ s ch temp, s.run = .up → ch < 256 → ∃ t, exec (.refresh ch temp) s = .next t ∧
    t = { s with counters := t.counters, tempSeen := t.tempSeen, power := { s.power with stackT := NMap.insert s.power.stackT ch temp } } ∧
    (NSet.has s.tempSeen (ckey 3 ch 6) = false → -32768 ≤ temp → temp < 32768 → let w := counter t 3 ch 6
      (w.extractLsb' 0 16).toInt = temp ∧ (w.extractLsb' 16 16).toInt = temp) ∧
    (85 < temp → counter t 3 ch 5 = satAdd (counter s 3 ch 5) 1) ∧ (temp ≤ 85 → counter t 3 ch 5 = counter s 3 ch 5)) ∧
  (∀ s pa fnd, s.run = .up → regionOf pa = .hole → exec (.patrolRead pa fnd) s = .fault (.hole pa)) ∧
  (∀ s pa fnd, s.run = .up → regionOf pa = .fast → creditLeft s (homeSlice s (pa / 64 * 64)) 63 = false → exec (.patrolRead pa fnd) s = .next s) ∧
  (∀ s pa, s.run = .up → regionOf pa = .fast → patrolEnds s (pa / 64 * 64) = false → creditLeft s (homeSlice s (pa / 64 * 64)) 63 = true →
    let a := pa / 64 * 64
    let ch := homeSlice s a
    let row := a / 1024
    let found := NSet.add (NMap.getD s.patrol row []) (a / 64)
    let spare := NMap.getD s.spareRows (ch * 32 + bankOf a) 0
    (∃ t, exec (.patrolRead pa .clean) s = .next t ∧ t = { s with credits := t.credits, counters := t.counters } ∧
      NMap.getD t.credits (ch * 64 + 63) 0 = NMap.getD s.credits (ch * 64 + 63) 0 + 1) ∧
    (∃ t, exec (.patrolRead pa .correctable) s = .next t ∧ counter t 3 ch 0 = satAdd (counter s 3 ch 0) 1 ∧ t.mem = s.mem ∧ t.poison = s.poison ∧
      (found.length < 4 → NMap.getD t.patrol row [] = found ∧ t.log0 = s.log0 ∧ t.log1 = s.log1 ∧ t.retire = s.retire) ∧
      (4 ≤ found.length → spare < 2 → NMap.getD t.patrol row [] = [] ∧ NMap.getD t.spareRows (ch * 32 + bankOf a) 0 = spare + 1 ∧
        t.persist.softRows = s.persist.softRows ++ [(ch, a)] ∧ t.retire = s.retire ∧
        ∃ e, (if ch < 128 then t.log0 else t.log1).getLast? = some e ∧ e.event = 0x05) ∧
      (4 ≤ found.length → 2 ≤ spare → NSet.has t.retire (a / 65536) = true)) ∧
    (∃ t, exec (.patrolRead pa .uncorrectable) s = .next t ∧ counter t 3 ch 1 = satAdd (counter s 3 ch 1) 1 ∧ t.mem = s.mem ∧
      NSet.has t.poison (a / 64) = true ∧ NSet.has t.retire (a / 65536) = true ∧
      (∀ k, k ≠ a / 64 → NSet.has t.poison k = NSet.has s.poison k) ∧ (∀ k, k ≠ a / 65536 → NSet.has t.retire k = NSet.has s.retire k) ∧
      (NSet.has s.retire (a / 65536) = false → ∃ e, (if ch < 128 then t.log0 else t.log1).getLast? = some e ∧ e.event = 0x04 ∧
        e.arg0 = BitVec.ofNat 64 (a / 65536 * 65536) ∧ e.arg1 = 0x01))) ∧
  (∀ s chip, s.run = .up → chip < 4 → let x := chipOf s chip
    let events := fun (t : State) (y : TierChip) what => chipOf t chip = y ∧ (∀ k, k ≠ chip → chipOf t k = chipOf s k) ∧ t.mem = s.mem ∧
      ∃ e, (if chip < 2 then t.log0 else t.log1).getLast? = some e ∧ e.event = 0x0A ∧ e.arg0.toNat % 2 ^ 8 = chip ∧ e.arg0.toNat / 2 ^ 8 % 2 ^ 8 = what
    (x.link ≠ .down → ∃ t, exec (.tierLinkFlitRetry chip) s = .next t ∧ counter t 7 chip 4 = satAdd (counter s 7 chip 4) 1 ∧
      (x.retries < 1024 → t = { s with counters := t.counters, chips := t.chips } ∧ chipOf t chip = { x with retries := x.retries + 1 } ∧
        ∀ k, k ≠ chip → chipOf t k = chipOf s k) ∧
      (1024 ≤ x.retries → (chipOf t chip).link ≠ .four ∧ events t { x with link := (chipOf t chip).link, flits := 0, retries := 0 } 3)) ∧
    (∀ a b, x.link ≠ .down → ∃ t, exec (.tierLinkRetrain chip a b) s = .next t ∧
      events t { x with link := if a || b then .two else .down, flits := 0, retries := 0 } 3) ∧
    (∀ a b, x.link = .down → exec (.tierLinkRetrain chip a b) s = .next s) ∧
    (x.cxl ≠ 0 → x.cxlLost = false → ∃ t, exec (.cxlDeviceLost chip) s = .next t ∧ events t { x with cxlLost := true } 2) ∧
    (∀ d, x.cxlLost = false → d < farBytes s chip → ∃ t, exec (.cxlMediaErrorReport chip d) s = .next t ∧ t.mem = s.mem ∧
      counter t 7 chip 1 = satAdd (counter s 7 chip 1) 1 ∧ NSet.has t.retire ((0x040000000000 + chip * 0x40000000000 + d) / 65536) = true) ∧
    (∀ temp, x.dimmA ≠ 0 → x.slowA = false → 95 ≤ temp → ∃ t, exec (.dimmThermalLimit (2 * chip) temp) s = .next t ∧ events t { x with slowA := true } 0) ∧
    (∀ temp, x.dimmA ≠ 0 → x.slowA = true → temp ≤ 90 → ∃ t, exec (.dimmThermalLimit (2 * chip) temp) s = .next t ∧ events t { x with slowA := false } 0) ∧
    (∀ temp, x.dimmB ≠ 0 → x.slowB = false → 95 ≤ temp → ∃ t, exec (.dimmThermalLimit (2 * chip + 1) temp) s = .next t ∧ events t { x with slowB := true } 1) ∧
    (∀ temp, x.slowA = true → 90 < temp → exec (.dimmThermalLimit (2 * chip) temp) s =
      .next { s with power := { s.power with dimmT := NMap.insert s.power.dimmT (2 * chip) temp } }))

/-! ### The fabric -/

/-- R350 to R352, R363, R373: RXT_WRITE checks every entry of its image, then writes them all, or copies a table out; JOB_EPOCH
keeps at most 4,096 job records, and answers the epoch before. -/
def Obligations.FabricTables : Prop :=
  (∀ s c k (es : List (List Byte)) t, Runs s c 0x3A k → k.w0.getLsbD 4 = false → let table := k.w0.toNat % 16
    let first := k.w2.toNat % 2 ^ 20
    let count := k.w3.toNat % 2 ^ 20
    table < 4 → es.length = count → (∀ e ∈ es, e.length = if table = 0 then 32 else if table = 1 then 4 else if table = 2 then 1 else 128) →
    ReadsTo s c.ctx k.w1.toNat es.flatten t →
    let word := fun (e : List Byte) i => (BitVec.ofNat 64 (leNat ((e.drop (8 * i)).take 8)) : DWord)
    let entry := fun j => (es[j - first]?).getD []
    let within := fun j => first ≤ j ∧ j < first + count
    ((∀ e ∈ es, imageChk s table e = .good) → ∃ u, exec (.rxtWrite c) s = .next (finish u c 0 0 (BitVec.ofNat 64 count)) ∧
      (table = 0 → u = { t with rxt := u.rxt } ∧ ∀ j, rxtOf u j = if within j then
        { w0 := word (entry j) 0, w1 := word (entry j) 1, w2 := word (entry j) 2, w3 := word (entry j) 3 } else rxtOf s j) ∧
      (table = 1 → u = { t with nodeRoute := u.nodeRoute } ∧ ∀ j, NMap.getD u.nodeRoute j 0 =
        if within j then BitVec.ofNat 32 (leNat (entry j)) else NMap.getD s.nodeRoute j 0) ∧
      (table = 2 → u = { t with peerInc := u.peerInc } ∧ ∀ j, NMap.getD u.peerInc j 0 =
        if within j then BitVec.ofNat 8 (leNat (entry j)) else NMap.getD s.peerInc j 0) ∧
      (table = 3 → first = 0 → count = 1 → ∀ w, w < 16 → cfgWord u w = word (entry 0) w)) ∧
    (∀ (i : Nat) e, es[i]? = some e → (∀ (j : Nat) x, j < i → es[j]? = some x → imageChk s table x = .good) →
      (imageChk s table e = .bad → exec (.rxtWrite c) s = .next (failC t k 9 badPacket 0 (BitVec.ofNat 64 (first + i)))) ∧
      (∀ code h, imageChk s table e = .handle code h → exec (.rxtWrite c) s = .next (failC t k 9 code (h.zeroExtend 64) (handleDetail t code h))))) ∧
  (∀ s (e : List Byte), imageChk s 2 e = .good ∧ (leNat e < 2 ^ 20 → imageChk s 1 e = .good) ∧ (2 ^ 20 ≤ leNat e → imageChk s 1 e = .bad)) ∧
  (∀ s (e : Rxt), let w := fun (x : DWord) hi lo => x.toNat / 2 ^ lo % 2 ^ (hi + 1 - lo)
    let rsv := w e.w0 59 56 ≠ 0 ∨ w e.w0 23 0 ≠ 0 ∨ w e.w1 15 0 ≠ 0 ∨ w e.w2 63 52 ≠ 0 ∨ w e.w2 15 0 ≠ 0 ∨ w e.w3 63 32 ≠ 0
    let d := ctxOf s (w e.w0 55 44)
    let h : Word := e.w3.extractLsb' 0 32
    let need : HandleNeed := { kinds := [.buffer], imports := true, right := some 2 }
    let o := objOf s (h.toNat % 2 ^ 20)
    let offlo := w e.w1 63 40
    let pages := w e.w1 39 16
    let va := w e.w2 51 16
    (rsv → rxtChk s e = .bad) ∧ (¬ rsv → e.w0.getLsbD 63 = false → rxtChk s e = .good) ∧
    (¬ rsv → e.w0.getLsbD 63 = true →
      (¬ (d.state = .active ∨ d.state = .suspended) ∨ w e.w0 43 24 = 0 ∨ d.job.toNat ≠ w e.w0 43 24 → rxtChk s e = .bad) ∧
      (d.state = .active ∨ d.state = .suspended → w e.w0 43 24 ≠ 0 → d.job.toNat = w e.w0 43 24 →
        (∀ code, checkHandle s (w e.w0 55 44) h need = some code → rxtChk s e = .handle code h) ∧
        (checkHandle s (w e.w0 55 44) h need = none →
          (rxtChk s e = .good ↔ (e.w0.getLsbD 60 = true → o.rights.getLsbD 0 = true) ∧
            (e.w0.getLsbD 61 = true ∨ e.w0.getLsbD 62 = true → o.rights.getLsbD 1 = true) ∧ pages ≠ 0 ∧ offlo + pages ≤ 2 ^ 24 ∧
            w o.w1 51 16 ≤ va ∧ va + pages ≤ w o.w1 51 16 + w o.w2 31 0))))) ∧
  (∀ s c k t, Runs s c 0x3A k → k.w0.getLsbD 4 = true → let table := k.w0.toNat % 16
    WritesTo s c.ctx k.w1.toNat ((List.range (k.w3.toNat % 2 ^ 20)).flatMap fun i => tableBytes s table (k.w2.toNat % 2 ^ 20 + i)) t →
      exec (.rxtReadOut c) s = .next (finish t c 0 0 (BitVec.ofNat 64 (k.w3.toNat % 2 ^ 20)))) ∧
  (∀ s c k, Runs s c 0x3B k → let job := k.w0.toNat % 2 ^ 20
    let old := NMap.find s.jobs job
    let result := BitVec.ofNat 64 ((old.map (·.epoch.toNat)).getD 0)
    (k.w0.getLsbD 20 = false → (old = none → 4096 ≤ s.jobs.length → exec (.jobEpoch c) s = .next (failC s k 9 badPacket 0 0)) ∧
      (old ≠ none ∨ s.jobs.length < 4096 → exec (.jobEpoch c) s = .next (finish { s with
        jobs := NMap.insert s.jobs job { epoch := k.w1.extractLsb' 0 32, cdig := k.w3 ++ k.w2, flags := [] } } c 0 0 result))) ∧
    (k.w0.getLsbD 20 = true → exec (.jobEpochDrop c) s = .next (finish { s with jobs := NMap.erase s.jobs job } c 0 0 result)))

/-- R346, R348, R352, R354 to R359: the lanes of an enabled port train and its hello leaves, the peer's hello makes it ACTIVE or
quarantines it with the first failing check; a flit that comes in order delivers its packets and is acknowledged, and the credits
of those it discards go back; any other is discarded with one request to retry, which names the flit expected; a peer's request
has what the replay buffer still holds sent again; a lane that fails is replaced, which the peer is told, halves the port, or takes
it down. The premise on rehomed is that no packet waits for another port, which a port that frees may take. -/
def Obligations.FabricPorts : Prop :=
  (∀ m, m < 512 → let up := (List.range 9).filter m.testBit
    let n := if 8 ≤ up.length then 8 else 4
    (up.length < 4 → lanesFor m = none) ∧ (4 ≤ up.length → ∃ use, lanesFor m = some use ∧ ∀ j, j < 9 → (use.getLsbD j = true ↔ j ∈ up.take n))) ∧
  (∀ s port, s.run = .up → port < 20 → let d := portOf s port
    let moves := fun (t : State) (y : Port) (sends : List SentFlit) => ∃ logs0 logs1 seq0 seq1,
      t = { s with ports := t.ports, flits := s.flits ++ sends.map (Prod.mk port), log0 := logs0, log1 := logs1, seq0 := seq0, seq1 := seq1 } ∧
      portOf t port = { y with changes := satAdd d.changes 1 } ∧ (∀ k, k ≠ port → portOf t k = portOf s k) ∧
      ∃ e, (if port < 10 then t.log0 else t.log1).getLast? = some e ∧ e.event = 0x03 ∧ e.arg0 = BitVec.ofNat 64
        (port + d.pstate.code * 2 ^ 8 + y.pstate.code * 2 ^ 16 + y.qreason.toNat * 2 ^ 24)
    (∀ lanes use, d.pstate = .down → d.training = true → lanesFor lanes.toNat = some use → ∃ t, exec (.laneTraining port lanes) s = .next t ∧
      moves t { d with lanes := use, failed := ~~~lanes, training := false, pstate := .trained, qreason := 0 } (if fabCv s then [.hello {
        verLo := BitVec.ofNat 8 (max ((cfgWord s 1).toNat / 2 ^ 48 % 256) 1), verHi := BitVec.ofNat 8 (min ((cfgWord s 1).toNat / 2 ^ 56) 1)
        prof := cfgWord s 3 ++ cfgWord s 2, node := (cfgWord s 0).extractLsb' 0 14, ninc := (cfgWord s 1).extractLsb' 40 8
        port := BitVec.ofNat 8 port, isSwitch := false }] else [])) ∧
    (∀ lanes, d.pstate ≠ .down ∨ d.training = false ∨ lanesFor lanes.toNat = none → exec (.laneTraining port lanes) s = .next s) ∧
    (∀ h : Hello, d.pstate = .trained → fabCv s = true → s.rehomed = [] → let lo := max ((cfgWord s 1).toNat / 2 ^ 48 % 256) 1
      let hi := min ((cfgWord s 1).toNat / 2 ^ 56) 1
      let agree := lo ≤ hi ∧ h.verLo.toNat ≤ 1 ∧ 1 ≤ h.verHi.toNat
      let inc := NMap.getD s.peerInc h.node.toNat 0
      let q : BitVec 4 := if ¬ agree then 1 else if h.prof ≠ cfgWord s 3 ++ cfgWord s 2 then 2
        else if h.isSwitch = false ∧ answers s h.node.toNat = true then 3 else if h.isSwitch = false ∧ inc ≠ 0 ∧ inc ≠ h.ninc then 4 else 0
      ∃ t, exec (.hello port h) s = .next t ∧ moves t { d with
        pstate := if q = 0 then .active else .quarantine, qreason := q, ver := if agree then 1 else 0, peerport := h.port, peersw := h.isSwitch
        peerinc := h.ninc, peernode := if h.isSwitch then 0 else h.node, peerprof := h.prof } []) ∧
    (∀ h, d.pstate ≠ .trained ∨ fabCv s = false → exec (.hello port h) s = .next s)) ∧
  (∀ s port (f : Flit), s.run = .up → port < 20 → let d := portOf s port
    d.pstate = .trained ∨ d.pstate = .quarantine ∨ d.pstate = .active → s.injections = [] → s.rehomed = [] →
    let sends := fun (t : State) (l : List SentFlit) => t.flits = s.flits ++ l.map (Prod.mk port)
    let acked := d.replay.filter fun u => !decide ((f.ack - u.seq).toNat < 512)
    let credits := fun (y : Port) => y.cred0 = d.cred0 + (if f.cvc = 0 then (f.cred.toNat : Int) else 0) ∧
      y.cred1 = d.cred1 + (if f.cvc = 1 then (f.cred.toNat : Int) else 0) ∧ y.cred2 = d.cred2 + if f.cvc = 2 then (f.cred.toNat : Int) else 0
    let ports := fun (t : State) (y : Port) => portOf t port = y ∧ (∀ k, k ≠ port → portOf t k = portOf s k) ∧ t.mem = s.mem ∧ t.remotes = s.remotes
    let asks := fun (t : State) (y : Port) => ports t (if y.rxGap then y else { y with rxGap := true, retries := satAdd y.retries 1 }) ∧
      (counter t 4 port 2 = if y.rxGap then counter s 4 port 2 else satAdd (counter s 4 port 2) 1) ∧
      sends t (if y.rxGap then [] else [.retry d.rxSeq])
    let good := f.good = true
    (good → f.seq = d.rxSeq → ∃ t y, exec (.dataFlitReceive port f) s = .next t ∧ ports t y ∧ credits y ∧
      y = { d with rxSeq := d.rxSeq + 1, rxGap := false, replay := acked, cred0 := y.cred0, cred1 := y.cred1, cred2 := y.cred2, owed := y.owed } ∧
      (d.pstate = .active → (∀ p ∈ f.packets, answers s p.dnode.toNat = true ∧ ((1 ≤ p.type.toNat ∧ p.type.toNat ≤ 4 ∧ p.vc = 0) ∨
          (0x10 ≤ p.type.toNat ∧ p.type.toNat ≤ 0x12 ∧ p.vc = 1))) → t.inbox = s.inbox ++ f.packets.map (fun p => (port, p)) ∧ sends t [.idle d.txSeq d.rxSeq 0 0]) ∧
      (d.pstate ≠ .active → t.inbox = s.inbox ∧
        sends t ((f.packets.map fun p => .idle d.txSeq d.rxSeq p.vc (BitVec.ofNat 8 (packetCredits p))) ++ [.idle d.txSeq d.rxSeq 0 0]) ∧ (f.packets.length < 2 ^ 32 → (counter s 4 port 5).toNat < 2 ^ 63 →
        counter t 4 port 5 = counter s 4 port 5 + BitVec.ofNat 64 f.packets.length))) ∧
    (¬ good ∨ f.seq ≠ d.rxSeq → ∃ t, exec (.dataFlitReceive port f) s = .next t ∧ asks t d ∧ t.inbox = s.inbox) ∧
    (¬ good → ∃ t, exec (.idleFlitReceive port f) s = .next t ∧ asks t d ∧ t.inbox = s.inbox) ∧
    (good → ∃ t y, exec (.idleFlitReceive port f) s = .next t ∧ credits y ∧ t.inbox = s.inbox ∧
      y = { d with replay := acked, cred0 := y.cred0, cred1 := y.cred1, cred2 := y.cred2, owed := y.owed } ∧
      (f.seq = d.rxSeq → ports t y ∧ sends t []) ∧ (f.seq ≠ d.rxSeq → asks t y)) ∧
    (∀ seq, let kept := d.replay.filter fun u => !decide (((seq - 1) - u.seq).toNat < 512)
      ∃ t, exec (.retryRequest port seq) s = .next t ∧ ports t { d with replay := kept, retries := satAdd d.retries 1 } ∧
        counter t 4 port 2 = satAdd (counter s 4 port 2) 1 ∧ sends t [] ∧ t.outbox = s.outbox ++ kept.map fun u => (port, u.packet)) ∧
    (∀ lane, lane < 9 → d.failed.getLsbD lane = false → let failed := d.failed ||| BitVec.ofNat 9 (2 ^ lane)
      ∃ t, exec (.laneFailure port lane) s = .next t ∧
        (d.lanes.getLsbD lane = false → ports t { d with failed := failed } ∧ sends t []) ∧
        (∀ use, d.lanes.getLsbD lane = true → lanesFor (~~~failed).toNat = some use → ports t { d with failed := failed, lanes := use } ∧
          sends t (if 8 ≤ ((List.range 9).filter use.getLsbD).length then [.laneMap use] else [])) ∧
        (d.lanes.getLsbD lane = true → lanesFor (~~~failed).toNat = none → d.replay = [] →
          ports t { Port.reset with pstate := .down, lanes := d.lanes, retries := d.retries, changes := satAdd d.changes 1, failed := failed } ∧ sends t [])))

/-- R362 to R368, R371, R372: a request of another module is discarded where it is malformed, refused with the status of the first
check of R364 that fails, else performed at its home slice and answered; a response ends the request that waits for it, by its
data or by the fault of its status, and a deadline ends it as unreachable. -/
def Obligations.FabricPackets : Prop :=
  (∀ s p port i type rsp (need : Nat) shape,
    (i, type, rsp, need, shape) ∈ [(Instr.readPkt p, 0x01, 0x10, 60, requestShape p false), (.writePkt p, 0x02, 0x11, 61, requestShape p true),
      (.reducePkt p, 0x03, 0x11, 62, reduceShape p), (.atomicPkt p, 0x04, 0x12, 62, atomicShape p)] →
    PacketHere s p type port → let x := taken s p
    let replies := fun (t : State) status bs ps => let res := sendPacket t (8 * p.snode.toNat + 4) false { p with
        type := BitVec.ofNat 6 rsp, vc := 1, dnode := p.snode, snode := p.dnode, sinc := (cfgWord s 1).extractLsb' 40 8
        len := BitVec.ofNat 6 (bs.length / 4 - 1), dinc := p.sinc, status := status, opx := 0, scale := 0, arg := 0, payload := bs, poison := ps }
      (∀ u, res = .sent u → exec i s = .next (returnCredits u port p)) ∧ (res = .unreachable → exec i s = .next (returnCredits t port p)) ∧
      (res = .wait → exec i s = .next s)
    let refuses := fun (t : State) (status : BitVec 8) (bad : Option DWord) => replies (logEvent t (p.window.toNat / 32768) 0x0C 0 0
      (BitVec.ofNat 64 (p.snode.toNat + p.job.toNat * 2 ^ 20 + p.window.toNat * 2 ^ 40 + status.toNat * 2 ^ 56)) (if bad.isSome then 1 else 0) (bad.getD 0))
      status [] []
    let inc := NMap.getD s.peerInc p.snode.toNat 0
    let stale := inc ≠ 0 ∧ inc ≠ p.sinc
    let w := fun (y : DWord) hi lo => y.toNat / 2 ^ lo % 2 ^ (hi + 1 - lo)
    let fits := fun (e : Rxt) => e.w0.getLsbD 63 = true ∧ w e.w0 43 24 = p.job.toNat ∧ w e.w1 63 40 * 65536 ≤ p.offset.toNat ∧
      p.offset.toNat < (w e.w1 63 40 + w e.w1 39 16) * 65536
    let way := fun k => rxtOf s (p.window.toNat * 8 + k)
    (shape = false → exec i s = .next (returnCredits (countDiscard x port) port p)) ∧
    (shape = true → stale → refuses (countDiscard x port) 0x06 none) ∧
    (shape = true → ¬ stale → (∀ k, k < 8 → ¬ fits (way k)) → refuses x 0x01 none) ∧
    (∀ k, shape = true → ¬ stale → k < 8 → fits (way k) → (∀ j, j < k → ¬ fits (way j)) →
      let e := way k
      let ctx := w e.w0 55 44
      let o := objOf s (w e.w3 19 0)
      let lives := o.state = .live ∧ o.gen.toNat = w e.w3 31 20 ∧ ((ctxOf s ctx).state = .active ∨ (ctxOf s ctx).state = .suspended) ∧
        (ctxOf s ctx).job = p.job
      let va : DWord := BitVec.ofNat 64 (w e.w2 51 16 * 65536 + (p.offset.toNat - w e.w1 63 40 * 65536))
      let acc : Acc := if type = 0x01 then .read else .write
      let walked := walk x ctx va
      (¬ lives → refuses x 0x01 none) ∧ (lives → e.w0.getLsbD need = false → refuses x 0x02 none) ∧
      (lives → e.w0.getLsbD need = true → noFaults s = true → (∀ pick, walkPick x ctx va pick = walked) →
        let refusesAfter := fun status bad => ∃ u, MemoryOnly x u ∧ (∀ a, cohByte u a = cohByte x a) ∧ refuses u status bad
        (∀ d, walked = .fault pageNotPresent d → refusesAfter 0x03 none) ∧
        (∀ code d, walked = .fault code d → code ≠ pageNotPresent → refusesAfter 0x02 (some va)) ∧
        (∀ leaf lvl at_, walked = .leaf leaf lvl at_ → permits acc leaf = false ∨ pteRmt leaf = false → refusesAfter 0x02 (some va)) ∧
        (∀ leaf lvl at_ pa cp, walked = .leaf leaf lvl at_ → pteRmt leaf = true → Reaches x ctx acc va pa cp at_ →
          let n := (p.len.toNat + 1) * 4
          let ps := pieces pa n
          (∀ q ∈ ps, q.1 / 64 ≠ at_ / 64) →
          let frozen := ∃ q ∈ ps, frozenSector s (q.1 / 64) = true
          let dead := ∃ q ∈ ps, NSet.has s.dead (q.1 / 64) = true
          (type = 0x01 → (dead → ∃ t, MemoryOnly x t ∧ BytesKept x t 0 0 at_ ∧ refuses t 0x05 none) ∧
            (¬ dead → ∃ t, MemoryOnly x t ∧ BytesKept x t 0 0 at_ ∧ replies t 0 (cohBytes t pa n) (ps.map fun q => cohPoison t q.1))) ∧
          (type = 0x02 → (frozen → ∃ t, MemoryOnly x t ∧ BytesKept x t 0 0 at_ ∧ refuses t 0x04 none) ∧
            (¬ frozen → ∃ t, MemoryOnly x t ∧ BytesKept x t pa n at_ ∧ cohBytes t pa n = p.payload ∧ replies t 0 [] [])) ∧
          (type = 0x03 → let r := reduceWidths p.opx.toNat
            let count := n / r.2
            let mine := pieces pa (count * r.1)
            ((∃ q ∈ mine, frozenSector s (q.1 / 64) = true) → ∃ t, MemoryOnly x t ∧ BytesKept x t 0 0 at_ ∧ refuses t 0x04 none) ∧
            ((∀ q ∈ mine, frozenSector s (q.1 / 64) = false ∧ NSet.has s.dead (q.1 / 64) = false ∧ orderedAt s q.1 = none) →
              ∃ t, MemoryOnly x t ∧ BytesKept x t pa (count * r.1) at_ ∧ replies t 0 [] [] ∧ ∀ j, j < count →
                cohBytes t (pa + j * r.1) r.1 = leBytes (reduceElem p.opx.toNat p.scale.toInt (leNat (cohBytes s (pa + j * r.1) r.1))
                  (leNat ((p.payload.drop (j * r.2)).take r.2))) r.1)) ∧
          (type = 0x04 → let size := if p.opx.getLsbD 7 then 8 else 4
            let old := cohBytes s pa size
            (frozen → ∃ t, MemoryOnly x t ∧ BytesKept x t 0 0 at_ ∧ refuses t 0x04 none) ∧
            (¬ frozen → ∃ t, MemoryOnly x t ∧ BytesKept x t pa size at_ ∧ replies t 0 old [cohPoison s pa] ∧
              some (leNat (cohBytes t pa size)) = atomFn (8 * size) (p.opx.toNat % 128) (leNat old) (leNat p.payload)
                (p.arg.toNat % 2 ^ (8 * size)))))))) ∧
  (∀ s p port i type, (i, type) ∈ [(Instr.readRsp p, 0x10), (.ack p, 0x11), (.atomicRsp p, 0x12)] → PacketHere s p type port → let x := taken s p
    let mine := p.dinc = (cfgWord s 1).extractLsb' 40 8
    let gone := exec i s = .next (returnCredits (countDiscard x port) port p)
    (¬ mine → exec i s = .next (returnCredits x port p)) ∧ (mine → NMap.find s.remotes p.tag.toNat = none → gone) ∧
    (∀ q, mine → NMap.find s.remotes p.tag.toNat = some q → (type = 0x10 ∧ q.read = false) ∨ (type = 0x11 ∧ q.read = true) ∨ type = 0x12 → gone)) ∧
  (∀ s p port, returnCredits s port p = if port < 20 ∧ linked (portOf s port) = true then { s with flits := s.flits ++ [(port, .idle (portOf s port).txSeq
    ((portOf s port).rxSeq - 1) p.vc (BitVec.ofNat 8 (((32 + p.payload.length + 15) / 16 * 16 + 63) / 64)))] } else s) ∧
  (∀ s p port q i, (i = Instr.ack p ∧ q.read = false ∧ PacketHere s p 0x11 port) ∨ (i = .readRsp p ∧ q.read = true ∧ PacketHere s p 0x10 port) →
    p.dinc = (cfgWord s 1).extractLsb' 40 8 → NMap.find s.remotes p.tag.toNat = some q →
    let x := { taken s p with remotes := NMap.erase s.remotes p.tag.toNat }
    (∀ site issuer, i = .ack p → q.what = .msgSend site issuer → p.status = 0 → exec i s = .next (returnCredits x port p)) ∧
    (∀ site slot r l y, i = .ack p → q.what = .stream site slot r → p.status = 0 → launchOn s site = some l → l.ctx = q.ctx →
      NMap.find (tileOf s site).streams slot = some y → y.kind = 5 → r ∈ y.issued →
      exec i s = .next (returnCredits (setStrm x site slot { y with issued := y.issued.filter (· ≠ r) }) port p)) ∧
    (∀ site reg l (v : DWord), i = .readRsp p → q.what = .msgGet site none reg → p.status = 0 → launchOn s site = some l → l.ctx = q.ctx →
      p.payload = leBytes v.toNat 8 → reg < 64 → ∃ t, exec i s = .next (returnCredits t port p) ∧ t = { x with tiles := t.tiles } ∧ (∀ k, k ≠ site → tileOf t k = tileOf s k) ∧
      tileOf t site = { tileOf s site with ccRegs := (tileOf t site).ccRegs } ∧
      (reg ≠ 0 → ccReg (tileOf t site) reg = { val := v, poison := p.poison.any id }) ∧
      ∀ k, k ≠ reg → ccReg (tileOf t site) k = ccReg (tileOf s site) k) ∧
    (∀ site slot r l y, i = .readRsp p → q.what = .stream site slot r → p.status = 0 → launchOn s site = some l → l.ctx = q.ctx →
      NMap.find (tileOf s site).streams slot = some y → y.kind = 4 → r ∈ y.issued →
      exec i s = .next (returnCredits (setStrm (storePieces x l site (y.dstAddr r).toNat (y.srcAddr r).toNat p.payload p.poison) site slot
        { y with issued := y.issued.filter (· ≠ r) }) port p))) ∧
  (∀ s q site l tag status i x (frees : State → State), q.what = .msgSend site none ∨ (∃ reg, q.what = .msgGet site none reg) → launchOn s site = some l → l.ctx = q.ctx →
    NMap.find s.remotes tag = some q →
    (∃ p port, tag = p.tag.toNat ∧ status = p.status.toNat ∧ p.status ≠ 0 ∧ p.dinc = (cfgWord s 1).extractLsb' 40 8 ∧
      x = { taken s p with remotes := NMap.erase s.remotes tag } ∧
      ((q.read = false ∧ i = Instr.ack p ∧ PacketHere s p 0x11 port) ∨ (q.read = true ∧ i = .readRsp p ∧ PacketHere s p 0x10 port)) ∧
      frees = fun u => returnCredits u port p) ∨
    (s.run = .up ∧ frees = id ∧ status = 0xF0 ∧ x = { s with remotes := NMap.erase s.remotes tag } ∧ ∃ t32 : BitVec 32, tag = t32.toNat ∧ i = .responseDeadline t32) →
    let code := if status = 0x01 then remoteNoWindow else if status = 0x02 then remotePermission else if status = 0x03 then pageNotPresent
      else if status = 0x04 then frozenWrite else if status = 0x05 then deadLineRead else if status = 0xF1 then remoteNoWindow else remoteUnreachable
    exec i s = .next (frees (raiseFault x l.ctx .f (tileFaultInfo l site 6 code (BitVec.ofNat 64 q.offset.toNat) q.pc
      (BitVec.ofNat 64 (q.window.toNat * 2 ^ 48 + q.node.toNat * 2 ^ 34 + status)) 0 0)))) ∧
  (∀ s tag, s.run = .up → NMap.find s.remotes tag.toNat = none → exec (.responseDeadline tag) s = .next s)

/-! ### Checking, spares and power -/

/-- R387, R397 to R401, R405, R409: the verdict of the oldest sample of a site, which an injection decides where the hardware finds
nothing; a marked site leaves service once it holds no launch, for a spare of its die where there is one; a window of an island
ends, and its canary trips are counted; the counts of the beat monitors, and the faults that arise (the model's choice,
notes/assumptions/43.md). -/
def Obligations.Checking : Prop :=
  (∀ s site differs bad (x : Sample) rest l, s.run = .up → (tileOf s site).samples = x :: rest → launchOn s site = some l → site < 384 →
    let i := Instr.sampleVerdict site differs bad
    let u := setTile s site { tileOf s site with samples := rest }
    let partner := if site % 2 = 0 then site + 1 else site - 1
    let fault := fun (t : State) (lane : Nat) => raiseFault t l.ctx .f (tileFaultInfo l site (if x.group.isSome then 2 else 4) checksumUnrecovered 0 x.pc
      (BitVec.ofNat 64 (0x0E * 2 ^ 56 + partner % 192 * 2 ^ 8 + if x.group.isSome then lane else x.part % 256)) (x.group.getD 0)
      (if x.group.isSome then x.mask else 0))
    let faults := fun (t : State) => (x.group = none → exec i s = .next (fault t 0)) ∧
      (x.group ≠ none → ∃ lane, lane < 32 ∧ exec i s = .next (fault { t with freeCtr := t.freeCtr + 1 } lane))
    let armed := fun (j : Injection) => j.det = 0x0E ∧ j.ctx = l.ctx ∧ j.target.toNat = site
    let d := islandOf s bad
    let logs := fun (t : State) (rung : BitVec 3) => ∃ e, (if bad < 192 then t.log0 else t.log1).getLast? = some e ∧ e.event = 0x06 ∧
      e.arg0 = BitVec.ofNat 64 (bad + 3 * 2 ^ 16 + rung.toNat * 2 ^ 24) ∧ e.arg1 = BitVec.ofNat 64 x.part
    (differs = false → x.bad = false → exec i s = .next u) ∧
    (differs = false → x.bad = true → (∀ j ∈ s.injections, ¬ armed j) → exec i s = .next u) ∧
    (∀ j, differs = false → x.bad = true → j ∈ s.injections → armed j → ∃ v k, faults v ∧ k ∈ s.injections ∧ armed k ∧ v = { u with
      injections := s.injections.erase k, persist := v.persist, log0 := v.log0, log1 := v.log1, seq0 := v.seq0, seq1 := v.seq1
      counters := v.counters, freeCtr := v.freeCtr }) ∧
    (differs = true → bad ≠ site → bad ≠ partner → faults u) ∧
    (differs = true → bad = site ∨ bad = partner → d.rung.toNat < 6 → ∃ t, faults t ∧ logs t (d.rung + 1) ∧
      t = { u with islands := t.islands, persist := t.persist, log0 := t.log0, log1 := t.log1, seq0 := t.seq0, seq1 := t.seq1, counters := t.counters } ∧
      islandOf t bad = { d with
        rung := d.rung + 1, margin := if d.rung.toNat % 2 = 0 ∧ d.margin.toNat < 7 then d.margin + 1 else d.margin
        trim := if d.rung.toNat % 2 = 1 ∧ d.trim.toNat < 3 then d.trim + 1 else d.trim } ∧
      ∀ k, k ≠ bad → islandOf t k = islandOf s k) ∧
    (differs = true → bad = site ∨ bad = partner → 6 ≤ d.rung.toNat → ∃ t, faults t ∧ logs t d.rung ∧
      t = { u with marked := NSet.add s.marked bad, log0 := t.log0, log1 := t.log1, seq0 := t.seq0, seq1 := t.seq1, counters := t.counters })) ∧
  (∀ s site differs bad, s.run = .up → (tileOf s site).samples = [] → exec (.sampleVerdict site differs bad) s = .next s) ∧
  (∀ s site, s.run = .up → site < 384 →
    (NSet.has s.marked site = false ∨ (tileOf s site).launch ≠ none → exec (.tileSiteSpare site) s = .next s) ∧
    (NSet.has s.marked site = true → (tileOf s site).launch = none → (siteMap s (site / 192)).1.contains (site % 192) = true → ∃ t,
      exec (.tileSiteSpare site) s = .next t ∧ t = { s with
        marked := NSet.del s.marked site, map0 := t.map0, map1 := t.map1, spares0 := t.spares0, spares1 := t.spares1, log0 := t.log0, log1 := t.log1
        seq0 := t.seq0, seq1 := t.seq1, persist := t.persist, freeCtr := s.freeCtr + 1 } ∧
      NSet.has t.persist.retiredSites site = true ∧ siteMap t (1 - site / 192) = siteMap s (1 - site / 192) ∧
      let m := siteMap s (site / 192)
      (m.2 ≠ [] → ∃ sp ∈ m.2, siteMap t (site / 192) = (m.1.map fun k => if k = site % 192 then sp else k, m.2.filter (· ≠ sp))) ∧
      (m.2 = [] → siteMap t (site / 192) = (m.1.filter (· ≠ site % 192), [])))) ∧
  (∀ s island, s.run = .up →
    let ends := fun (t : State) => setIsland t island { islandOf t island with cells := [], checks := [], arrays := [], trips := 0 }
    let trip := fun (l : Latent) => l.det = 0x13 ∧ l.target = island
    (island < 412 → noFaults s = true → exec (.islandWindow island) s = .next (ends s)) ∧
    (island < 412 → (∃ l ∈ s.latents, trip l) → (islandOf s island).trips + (s.latents.countP trip) ≤ 256 → ∃ t, exec (.islandWindow island) s = .next t ∧
      t = { ends s with counters := t.counters, islands := t.islands, latents := s.latents.filter fun l => !decide (trip l) } ∧
      islandOf t island = islandOf (ends s) island ∧ ((counter s 6 island 1).toNat + 256 < 2 ^ 64 →
        counter t 6 island 1 = counter s 6 island 1 + BitVec.ofNat 64 (s.latents.countP trip))) ∧
    (412 ≤ island → exec (.islandWindow island) s = .next s)) ∧
  (∀ s counts faults, s.run = .up → s.injections = [] → (∀ l ∈ s.latents ++ faults, l.det ≠ 0x13) →
    (counts.map (·.1)).Nodup → ∃ t, exec (.beatMonitorPeriod { counts := counts, faults := faults }) s = .next t ∧
    t = { s with counters := t.counters, latents := s.latents ++ faults.filter latentOk } ∧ (∀ c ∈ counts, c.1 < 412 → counter t 6 c.1 3 = BitVec.ofNat 64 c.2) ∧
    ∀ k, (∀ c ∈ counts, k ≠ ckey 6 c.1 3) → NMap.getD t.counters k 0 = NMap.getD s.counters k 0)

/-- R446, R448, R451 to R455, R458: the governor acts on the first line of its table that holds, and sets the effective envelope and
the hold count; a current above 78 A sets the ceiling to 8; an input voltage out of range, a hot junction, the breaker, the
short contact and PWR_EN power the module off, which keeps the fuses and the flash alone (and, DESIGN CHOICE, companion memory). -/
def Obligations.PowerCommands : Prop :=
  (∀ s pW iin vin tj tin, s.run = .up → let p := s.power
    let eff := min (min (min p.envcap.toNat (74 * vin / 100)) (if p.envreq = 0 then p.envcap.toNat else max 1100 (min 2600 p.envreq.toNat)))
      (if p.coolId = 1 then 1100 else p.envcap.toNat)
    let vreq := if p.opreq = 0 then 620 else if p.opreq = 2 then 820 else 750
    let v := p.vcore.toNat
    let c := p.ceil.toNat
    let excess := eff < pW ∨ 7400 < iin ∨ 100 < tj
    let room := pW + 50 < eff ∧ tj < 98
    ∃ t, exec (.governorPeriod pW iin vin tj tin) s = .next t ∧ t = { s with power := t.power, mgmt := t.mgmt } ∧
      t.power.eff = BitVec.ofNat 12 eff ∧ t.power.hold = BitVec.ofNat 4
        (if pW + 400 ≤ eff then min 15 p.hmax.toNat else if eff ≤ pW + 100 then 0 else min p.hmax.toNat ((eff - 100 - pW) / 20)) ∧
      (excess → 550 < v → t.power.vcore = BitVec.ofNat 16 (max 550 (v - 10)) ∧ t.power.ceil = p.ceil) ∧
      (excess → v ≤ 550 → t.power.vcore = p.vcore ∧ t.power.ceil = BitVec.ofNat 5 (max 1 (c - 1))) ∧
      (¬ excess → c < 16 → room → t.power.vcore = p.vcore ∧ t.power.ceil = p.ceil + 1) ∧
      (¬ excess → ¬ (c < 16 ∧ room) → v < vreq → room → t.power.vcore = BitVec.ofNat 16 (v + 5) ∧ t.power.ceil = p.ceil) ∧
      (¬ excess → ¬ (c < 16 ∧ room) → vreq < v → t.power.vcore = BitVec.ofNat 16 (v - 10) ∧ t.power.ceil = p.ceil) ∧
      (¬ excess → ¬ room → v ≤ vreq → t.power.vcore = p.vcore ∧ t.power.ceil = p.ceil) ∧
      (t.power.limit.getLsbD 0 = true ↔ eff < pW) ∧ (t.power.limit.getLsbD 1 = true ↔ 7400 < iin) ∧ (t.power.limit.getLsbD 2 = true ↔ 100 < tj) ∧
      (t.power.limit.getLsbD 3 = true ↔ t.power.ceil.toNat < 16) ∧ t.power.pin = BitVec.ofNat 16 pW ∧ t.power.iin = BitVec.ofNat 16 iin ∧
      t.power.vin = BitVec.ofNat 16 vin ∧ t.power.tjmax = BitVec.ofInt 8 tj ∧ t.power.tinlet = BitVec.ofInt 8 tin ∧
      (iin ≤ 7400 → tj ≤ 100 → t.mgmt = s.mgmt)) ∧
  (∀ s iin, s.run = .up → (7800 < iin → exec (.currentEmergency iin) s = .next { s with power := { s.power with ceil := 8 } }) ∧
    (iin ≤ 7800 → exec (.currentEmergency iin) s = .next s)) ∧
  (∀ s i trips latch excess therm en mate, s.run ≠ .off →
    (∃ vin us, i = Instr.undervoltageTurnOff vin us ∧ (trips ↔ vin < 3300 ∧ 1000 < us) ∧ latch = s.power.latch ∧ excess = s.power.overVolt ∧
      therm = s.power.thermTrip ∧ en = s.power.pwrEn ∧ mate = s.power.mateShort) ∨
    (∃ vin us, i = .overvoltageTurnOff vin us ∧ (trips ↔ 6300 < vin ∧ 1000 < us) ∧ latch = s.power.latch ∧ excess = true ∧
      therm = s.power.thermTrip ∧ en = s.power.pwrEn ∧ mate = s.power.mateShort) ∨
    (∃ island tj, i = .thermalTrip island tj ∧ (trips ↔ island < 412 ∧ 115 ≤ tj) ∧ latch = true ∧ excess = s.power.overVolt ∧ therm = true ∧
      en = s.power.pwrEn ∧ mate = s.power.mateShort) ∨
    (∃ iin us, i = .breakerTrip iin us ∧ (trips ↔ 9000 ≤ iin ∧ 1000 ≤ us) ∧ latch = true ∧ excess = s.power.overVolt ∧ therm = s.power.thermTrip ∧
      en = s.power.pwrEn ∧ mate = s.power.mateShort) ∨
    (i = .mateShortBreak ∧ (trips ↔ True) ∧ latch = s.power.latch ∧ excess = s.power.overVolt ∧ therm = s.power.thermTrip ∧ en = s.power.pwrEn ∧
      mate = false) ∨
    (∃ ms, i = .powerOff ms ∧ (trips ↔ True) ∧ latch = (s.power.latch && decide (ms < 100)) ∧ excess = s.power.overVolt ∧
      therm = (s.power.thermTrip && decide (ms < 100)) ∧ en = false ∧ mate = s.power.mateShort) →
    (¬ trips → exec i s = .next s) ∧
    (trips → ∃ t, exec i s = .next t ∧ t.run = .off ∧ t.persist = s.persist ∧ t.pending = s.pending ∧ t.ctxs = State.reset.ctxs ∧
      t.queues = State.reset.queues ∧ t.tiles = State.reset.tiles ∧ t.launches = State.reset.launches ∧ t.objs = State.reset.objs ∧
      t.lines = State.reset.lines ∧ t.counters = State.reset.counters ∧ t.log0 = State.reset.log0 ∧ t.ports = State.reset.ports ∧
      t.remotes = State.reset.remotes ∧ t.rxt = State.reset.rxt ∧ t.groups = State.reset.groups ∧ t.injections = State.reset.injections ∧
      (∀ a, a < 0x800000000000 → memByte t a = 0) ∧ (∀ a, 0x800000000000 ≤ a → memByte t a = memByte s a) ∧ t.sovel.lstate = 0 ∧
      (∀ chip, chip < 4 → (chipOf t chip).perst = true) ∧ t.power.pwrGood = false ∧ t.power.latch = latch ∧ t.power.overVolt = excess ∧
      t.power.thermTrip = therm ∧ t.power.pwrEn = en ∧ t.power.mateShort = mate ∧ t.power.coolId = s.power.coolId)) ∧
  (∀ s i, s.run = .off → (∃ vin us, i = Instr.undervoltageTurnOff vin us ∨ i = .overvoltageTurnOff vin us ∨ i = .breakerTrip vin us) ∨
    (∃ island tj, i = .thermalTrip island tj) → exec i s = .next s) ∧
  (∀ s ms, s.run = .off → 100 ≤ ms → ∃ t, exec (.powerOff ms) s = .next t ∧ t = { s with power := t.power } ∧
    t.power = { s.power with pwrEn := false, latch := false, thermTrip := false })

/-! ### Management -/

/-- R420 to R423, R427, R431, R433 to R435, R438 to R445, R468 to R471: what the management endpoint and the mailbox answer, and what their
requests change. The codes and the layout of an answer are PRESUMED (notes/assumptions/70.md). -/
def Obligations.Management : Prop :=
  let arrives := fun (s : State) mb (type : Byte) => if mb then linkUp s = true ∧ (s.run = .up ∨ s.run = .recovery ∨ s.run = .scrapped) ∧
    s.boot.mbstate = 1 ∧ NMap.getD s.boot.reqBuf 0 0 = type else s.run ≠ .off
  let answers := fun (i : Instr) (s t : State) mb type code body =>
    (mb = true → exec i s = .next (sendInterrupt { t with boot := { t.boot with
      rspBuf := memPut [] 0 ((Config.frame type code body).take 28672), rsplen := BitVec.ofNat 16 (min (Config.frame type code body).length 28672)
      mbstate := 2 } })) ∧
    (mb = false → exec i s = .next { t with reply := if type = 5 then .spdm code body else .pldm code body })
  let opened := fun (s : State) => s.run ≠ .off ∧ s.run ≠ .scrapped ∧ 8 ≤ s.mgmt.progStep.toNat
  (∀ s mb i, ((∃ n, i = Instr.pldmSensorRead n mb) ∨ i = .getPowerStatus mb ∨ i = .resetStepLog mb ∨ (∃ w, i = .setEnvelopeCap w mb) ∨
      (∃ t, i = .submitTransition t mb) ∨ (∃ img, i = .firmwareUpdate img mb) ∨ (∃ x, i = .getDebugChallenge x mb) ∨ (∃ k r h, i = .debugResponse k r h mb)) ∨
      (mb = false ∧ ((∃ k g r h o, i = .vendorKeyRevocationRequest k g r h o) ∨ (∃ d, i = .ownerDataWrite d) ∨ i = .platformEventRetrieval)) →
    (¬ arrives s mb 1 → exec i s = .next s) ∧
    (arrives s mb 1 → ¬ opened s ∨ (mb = true ∧ ∃ w, i = .setEnvelopeCap w mb) → answers i s s mb 1 5 [])) ∧
  (∀ s mb, arrives s mb 1 → let p := s.power
    let w12 := p.envcap.toNat * 2 ^ 52 + p.envreq.toNat * 2 ^ 40 + p.opreq.toNat * 2 ^ 38 + p.hmax.toNat * 2 ^ 32 + p.eff.toNat * 2 ^ 16 + p.ceil.toNat
    let w13 := p.pin.toNat * 2 ^ 48 + p.iin.toNat * 2 ^ 32 + p.vin.toNat * 2 ^ 16 + p.vcore.toNat
    let w14 := p.tjmax.toNat * 2 ^ 56 + p.tinlet.toNat * 2 ^ 48 + p.limit.toNat * 2 ^ 44
    let progress := s.mgmt.progStep.toNat * 2 ^ 24 + s.mgmt.progCount.toNat
    answers (.getProgress mb) s s mb 1 0 (leBytes progress 4) ∧
    (∀ first count, (count ≤ 64 → answers (.getStepLog first count mb) s s mb 1 0 ((((s.persist.steplog.drop first).take count).map stepBytes).flatten ++
        Config.fallbackBytes (s.persist.fallback.map fun e => (e.1, e.2.toNat)))) ∧
      (64 < count → answers (.getStepLog first count mb) s s mb 1 2 [])) ∧
    (opened s → answers (.getPowerStatus mb) s s mb 1 0 (leBytes w12 8 ++ leBytes w13 8 ++ leBytes w14 8) ∧
      answers (.resetStepLog mb) s { s with persist := { s.persist with resetPending := true } } mb 1 0 [] ∧
      (∀ n (v : Int), (n, v) ∈ [(1, (p.vin.toNat : Int)), (2, p.iin.toNat), (3, p.pin.toNat), (4, p.eff.toNat), (5, p.tjmax.toInt), (6, p.tinlet.toInt),
          (10, p.vcore.toNat), (11, s.sovel.lstate.toNat), (12, progress)] ∨
          (n = 7 ∧ (∃ e ∈ p.stackT, e.2 = v) ∧ ∀ e ∈ p.stackT, e.2 ≤ v) ∨ (n = 8 ∧ (∃ e ∈ p.dimmT, e.2 = v) ∧ ∀ e ∈ p.dimmT, e.2 ≤ v) →
        answers (.pldmSensorRead n mb) s { s with freeCtr := s.freeCtr + 1 } mb 1 0 (leBytes (BitVec.ofInt 32 v).toNat 4)) ∧
      (∀ n, n = 0 ∨ 12 < n → answers (.pldmSensorRead n mb) s s mb 1 2 []) ∧
      (∀ w, mb = false → (1100 ≤ w ∧ w ≤ 2600 → let cap := if p.coolId = 1 then 1100 else w
          answers (.setEnvelopeCap w mb) s { s with power := { p with envcap := BitVec.ofNat 12 cap } } mb 1 0 (leBytes cap 2)) ∧
        (w < 1100 ∨ 2600 < w → answers (.setEnvelopeCap w mb) s s mb 1 2 [])) ∧
      (∀ t, (transitionOk s.persist t = true → answers (.submitTransition t mb) s { s with persist := { s.persist with staged := some t } } mb 1 0 []) ∧
        (transitionOk s.persist t = false → ∃ b, answers (.submitTransition t mb) s { s with freeCtr := s.freeCtr + 1 } mb 1 1 [b])) ∧
      (∀ img, ∃ credits counters, let w := { s with credits := credits, counters := counters }
        (∀ channel part, part < 63 → NMap.getD credits (channel * 64 + part) 0 = NMap.getD s.credits (channel * 64 + part) 0) ∧
        (imageFails s.persist img = none → answers (.firmwareUpdate img mb) s
          { w with persist := { s.persist with image := some img, resetPending := true } } mb 1 0 []) ∧
        ∀ n, imageFails s.persist img = some n → answers (.firmwareUpdate img mb) s w mb 1 1 [BitVec.ofNat 8 n]) ∧
      (∀ scope, (s.persist.life ≠ .owned → answers (.getDebugChallenge scope mb) s s mb 1 1 []) ∧
        (s.persist.life = .owned → scope ≠ 1 → scope ≠ 2 → answers (.getDebugChallenge scope mb) s s mb 1 2 []) ∧
        (s.persist.life = .owned → scope = 1 ∨ scope = 2 → ∃ nonce : BitVec 256, answers (.getDebugChallenge scope mb) s
          { s with freeCtr := s.freeCtr + 4, mgmt := { s.mgmt with nonce := some (nonce, scope) } } mb 1 0
          (leBytes nonce.toNat 32 ++ leBytes Config.devId.toNat 8 ++ leBytes s.persist.boot.toNat 4 ++ [scope]))) ∧
      (∀ key rsa slh, s.persist.life = .owned →
        let id := leBytes Config.devId.toNat 8 ++ leBytes s.persist.boot.toNat 4
        let dig := fun (nonce : BitVec 256) (scope : Byte) => Config.sha384 (id ++ leBytes nonce.toNat 32 ++ [scope])
        let ok := ∃ nonce scope, s.mgmt.nonce = some (nonce, scope) ∧ s.persist.ownerHash = some (Config.sha384 key) ∧
          Config.rsaVerify key (dig nonce scope) rsa = true ∧ Config.slhVerify key (dig nonce scope) slh = true
        (8 ≤ s.mgmt.fails → answers (.debugResponse key rsa slh mb) s { s with mgmt := { s.mgmt with nonce := none } } mb 1 1 []) ∧
        (s.mgmt.fails < 8 → ¬ ok → answers (.debugResponse key rsa slh mb) s
          { s with mgmt := { s.mgmt with nonce := none, fails := s.mgmt.fails + 1 } } mb 1 1 []) ∧
        (∀ nonce scope, s.mgmt.fails < 8 → ok → s.mgmt.nonce = some (nonce, scope) → answers (.debugResponse key rsa slh mb) s
          { s with mgmt := { s.mgmt with nonce := none }, persist := { s.persist with grant := scope } } mb 1 0 [])) ∧
      (mb = false → (∀ slot key rsa slh owner, let i := Instr.vendorKeyRevocationRequest slot key rsa slh owner
          (revocationOk s.persist slot key rsa slh owner = true → answers i s { s with persist := { s.persist with stagedRevoke := some slot } } mb 1 0 []) ∧
          (revocationOk s.persist slot key rsa slh owner = false → answers i s s mb 1 1 [])) ∧
        (∀ data, let n := s.persist.ownerCert.length + s.persist.ownerData.length + data.length
          (n ≤ 2 ^ 24 → answers (.ownerDataWrite data) s { s with persist := { s.persist with ownerData := s.persist.ownerData ++ data } } mb 1 0 []) ∧
          (2 ^ 24 < n → answers (.ownerDataWrite data) s s mb 1 1 [])) ∧
        (s.mgmt.events = [] → answers .platformEventRetrieval s s mb 1 0 []) ∧
        (∀ e rest, s.mgmt.events = e :: rest →
          let tells := answers .platformEventRetrieval s { s with mgmt := { s.mgmt with events := rest }, power := { p with alert := !rest.isEmpty } } mb 1 0
          (e ≠ 1 ∨ s.mgmt.stopAt = none → tells [BitVec.ofNat 8 e]) ∧
          ∀ step unit, e = 1 → s.mgmt.stopAt = some (step, unit) → tells ([1, BitVec.ofNat 8 step] ++ leBytes unit 2))))) ∧
  (∀ e : StepEntry, let head := leBytes (e.boot.toNat * 2 ^ 32 + e.step.toNat * 2 ^ 24 + e.kind.toNat * 2 ^ 20 + e.outcome.toNat * 2 ^ 16 +
      e.reason.toNat * 2 ^ 8 + e.unit.toNat) 8 ++ leBytes e.detail.toNat 8 ++ List.replicate 12 0
    stepBytes e = head ++ leBytes (crc32 head).toNat 4) ∧
  (∀ s mb, let answers := fun (i : Instr) t code body => (¬ arrives s mb 5 → exec i s = .next s) ∧
      (arrives s mb 5 → ¬ (s.run = .scrapped ∨ (s.run ≠ .off ∧ 0x13 ≤ s.mgmt.progStep.toNat)) → answers i s s mb 5 0x7F [3]) ∧
      (arrives s mb 5 → s.run = .scrapped ∨ (s.run ≠ .off ∧ 0x13 ≤ s.mgmt.progStep.toNat) → answers i s t mb 5 code body)
    let slot1 := s.run ≠ .scrapped ∧ s.persist.life = .owned ∧ s.persist.ownerCert ≠ []
    let held := fun slot => slot = 0 ∨ (slot = 1 ∧ slot1)
    let offered := fun k => if s.run = .scrapped then k = 1 ∨ k = 4 ∨ k = 5 ∨ k = 6 else 1 ≤ k ∧ k ≤ 9
    answers (.getVersion mb) s 0x04 (Config.spdmAnswer 0x84 []) ∧ answers (.getCapabilities mb) s 0x61 (Config.spdmAnswer 0xE1 []) ∧
    (∀ req, answers (.negotiateAlgorithms req mb) s 0x63 (Config.spdmAnswer 0xE3 req)) ∧
    (slot1 → answers (.getDigests mb) s 0x01 (leBytes (Config.sha384 (chainOf s 0)).toNat 48 ++ leBytes (Config.sha384 s.persist.ownerCert).toNat 48)) ∧
    (¬ slot1 → answers (.getDigests mb) s 0x01 (leBytes (Config.sha384 (chainOf s 0)).toNat 48)) ∧
    (∀ slot off n, (held slot → let part := ((chainOf s slot).drop off).take n
        answers (.getCertificate slot off n mb) s 0x02 (leBytes part.length 2 ++ leBytes ((chainOf s slot).length - off - part.length) 2 ++ part)) ∧
      (¬ held slot → answers (.getCertificate slot off n mb) s 0x7F [1])) ∧
    (∀ slot nonce, (held slot → let msg := Config.spdmAnswer 0x83 (leBytes nonce.toNat 32 ++ leBytes (Config.sha384 (chainOf s slot)).toNat 48)
        answers (.challenge slot nonce mb) s 0x03 (msg ++ signedBy s slot msg)) ∧
      (¬ held slot → answers (.challenge slot nonce mb) s 0x7F [1])) ∧
    (∀ k raw nonce slot, (held slot → offered k → let body := blockOf s k raw
        answers (.getMeasurements k raw nonce slot mb) s 0x60 (body ++ signedBy s slot (leBytes nonce.toNat 32 ++ body))) ∧
      (¬ held slot ∨ (¬ offered k ∧ k ≠ 0xFF) → answers (.getMeasurements k raw nonce slot mb) s 0x7F [1])) ∧
    (∀ slot cert, let ok := mb = true ∧ slot = 1 ∧ s.persist.life = .owned ∧ s.run ≠ .scrapped ∧ cert.length + s.persist.ownerData.length ≤ 2 ^ 24
      (ok → answers (.setCertificate slot cert mb) { s with persist := { s.persist with ownerCert := cert } } 0x6E [1]) ∧
      (¬ ok → answers (.setCertificate slot cert mb) s 0x7F [7]))) ∧
  (∀ s tdi, s.run = .off → exec (.debugUnlock tdi) s = .next s) ∧
  (∀ s (tdi : BitVec 2048), s.run ≠ .off → let scope := tdi.toNat % 2 ^ 8
    let secret := s.persist.life = .vendor ∨ s.persist.life = .returned
    let ok := (scope = 1 ∨ scope = 2) ∧ Config.sha384 (leBytes (tdi.toNat / 2 ^ 8 % 2 ^ 256) 32) = Config.debugPasswordHash
    ∃ out, let u := { s with freeCtr := s.freeCtr + 32, mgmt := { s.mgmt with unlockOut := out } }
      (secret → s.mgmt.fails < 8 → ok → exec (.debugUnlock tdi) s = .next { u with persist := { s.persist with grant := BitVec.ofNat 8 scope } }) ∧
      (secret → s.mgmt.fails < 8 → ¬ ok → exec (.debugUnlock tdi) s = .next { u with mgmt := { u.mgmt with fails := s.mgmt.fails + 1 } }) ∧
      (¬ secret ∨ 8 ≤ s.mgmt.fails → exec (.debugUnlock tdi) s = .next u)) ∧
  (∀ s msg, (s.run = .off → exec (.mctpControl msg) s = .next s) ∧
    (s.run ≠ .off → exec (.mctpControl msg) s = .next { s with reply := .data (Config.frame 0 0 msg) false })) ∧
  (∀ s addr, (s.run = .off ∨ s.power.mgmtMode = false → exec (.dynamicAddressAssignment addr) s = .next s) ∧
    (s.run ≠ .off → s.power.mgmtMode = true → exec (.dynamicAddressAssignment addr) s = .next { s with mgmt := { s.mgmt with dynAddr := addr } }))

/-- R415 to R417, R421, R428 to R430, R435, R442, R446, R449 to R451: POWER_UP closes the switch only where the pins and the input
allow it; POWER_UP, MOD_RESET and an accepted recovery fetch boot the module, which ends up, in the recovery wait, or scrapped;
a staged transition takes effect at the boot. -/
def Obligations.BootCommands : Prop :=
  let sound := fun (p : Persist) (b : BootIn) => p.fallback = [] ∧ p.resetPending = false ∧ p.boot ≠ BitVec.allOnes 32 ∧ p.stagedRevoke = none ∧
    (∀ e, (p.steplog.filter fun x => x.boot == p.boot && x.kind != 2).getLast? = some e → e.kind ≠ 0) ∧
    b.torn = 0 ∧ b.trials = [] ∧ b.interrupted = none ∧ b.bridgeBad.Nodup ∧ (∀ d ∈ b.dimms, d = none) ∧ b.sovLo.toNat ≤ 1 ∧ 1 ≤ b.sovHi.toNat ∧
    b.wbase.toNat % 2 ^ 35 = 0 ∧ b.wbase.toNat ≤ 2 ^ 47 - 2 ^ 35
  let fresh := fun (s t : State) => t.pending = s.pending ∧ t.ctxs = State.reset.ctxs ∧ t.queues = State.reset.queues ∧ t.tiles = State.reset.tiles ∧
    t.launches = State.reset.launches ∧ t.objs = State.reset.objs ∧ t.lines = State.reset.lines ∧ t.ports = State.reset.ports ∧
    t.rxt = State.reset.rxt ∧ t.groups = State.reset.groups ∧ t.parts = State.reset.parts ∧ t.boot = State.reset.boot ∧
    (∀ a, a < 0x800000000000 → memByte t a = 0) ∧ t.persist.ownerCert = (if s.persist.staged = none then s.persist.ownerCert else [])
  let boots := fun (i : Instr) (s : State) (b : BootIn) (cap : BitVec 12) (cool : BitVec 2) =>
    let p := s.persist
    sound p b → (p.life = .owned → p.ownerHash ≠ none) →
    let bad := (p.image.map (imageFails p)).getD (some 1)
    (p.life = .scrapped → ∃ t, exec i s = .next t ∧ t.run = .scrapped ∧ fresh { s with persist := { p with staged := none } } t ∧
      t.mgmt.progStep = 4 ∧ t.persist.boot = p.boot + 1 ∧ t.persist.life = .scrapped) ∧
    (∀ n, p.life ≠ .scrapped → bad = some n → ∃ t, exec i s = .next t ∧ t.run = .recovery ∧ fresh { s with persist := { p with staged := none } } t ∧
      t.mgmt.progStep = 5 ∧ t.mgmt.rstate = 1 ∧ t.mgmt.rreason = BitVec.ofNat 8 n ∧ t.power.envcap = cap ∧ t.power.coolId = cool ∧ t.persist.boot = p.boot + 1 ∧
      t.persist.life = p.life) ∧
    (p.life ≠ .scrapped → bad = none → ∀ life hash, (p.staged = none ∧ life = p.life ∧ hash = p.ownerHash) ∨
        (∃ x, p.staged = some x ∧ Life.ofCode x.target.toNat = some life ∧ hash = if life = .owned then some x.newOwn else none) → life ≠ .scrapped →
      ∃ t, exec i s = .next t ∧ t.run = .up ∧ fresh s t ∧ t.hashKey = b.hashKey ∧ t.mgmt.progStep = 0x13 ∧ t.mgmt.events = [2] ∧ t.power.alert = true ∧
        t.power.envcap = cap ∧ t.power.coolId = cool ∧ t.sovel = { Sovel.reset with wbase := b.wbase } ∧ t.bridge = b.bridgeBad ∧ t.repair = p.repair ∧ t.islands = p.islands ∧
        (∀ c, c < 4 → (chipOf t c).link = .four ∧ (chipOf t c).perst = false ∧ (chipOf t c).cxl = (b.cxlGiB[c]?).getD 0 ∧ (chipOf t c).dimmA = 0) ∧
        t.persist.boot = p.boot + 1 ∧ t.persist.life = life ∧ t.persist.ownerHash = hash ∧ t.persist.staged = none ∧ t.persist.grant = 0 ∧
        t.persist.ogen = p.ogen + (if p.staged ≠ none ∧ life = .owned then 1 else 0) ∧
        t.mgmt.scope = (if p.staged = none then p.grant else 0) ∧
        ∀ m, p.image = some m → t.persist.svn = max p.svn (min m.svn.toNat 64))
  (∀ s vin mate cool b, let p := s.power
    let may := s.run = .off ∧ p.latch = false ∧ mate = true ∧ cool.toNat ≤ 1 ∧ 3550 ≤ vin ∧ if p.overVolt then vin < 6100 else vin ≤ 6300
    (¬ may → exec (.powerUp vin mate cool b) s = .next { s with power := { p with pwrEn := true } }) ∧
    (may → boots (.powerUp vin mate cool b) s b 0x44C cool)) ∧
  (∀ s b, (s.run = .off → exec (.modReset b) s = .next s) ∧ (s.run ≠ .off → boots (.modReset b) s b s.power.envcap s.power.coolId)) ∧
  (∀ s stores (data : DWord), let here := s.run = .recovery ∧ linkUp s = true
    let u := companionStores s stores
    let go := data.getLsbD 0 = true ∧ (s.mgmt.rstate = 1 ∨ s.mgmt.rstate = 3)
    (¬ here → exec (.recoveryFetch data stores) s = .next s) ∧ (here → ¬ go → exec (.recoveryFetch data stores) s = .next u) ∧
    (here → go → exec (.recoveryFetch data stores) s = .next { u with mgmt := { s.mgmt with rstate := 2 } })) ∧
  (∀ s img b, let i := Instr.recoveryFetchComplete img b
    (s.run ≠ .recovery ∨ s.mgmt.rstate ≠ 2 → exec i s = .next s) ∧
    (∀ n, s.run = .recovery → s.mgmt.rstate = 2 → imageFails s.persist img = some n →
      exec i s = .next { s with mgmt := { s.mgmt with rstate := 3, rreason := BitVec.ofNat 8 n } }) ∧
    (s.run = .recovery → s.mgmt.rstate = 2 → imageFails s.persist img = none → s.persist.fallback = [] → b.trials = [] → b.interrupted = none →
      (∀ d ∈ b.dimms, d = none) → s.persist.staged = none → s.persist.stagedRevoke = none → s.persist.life ≠ .scrapped →
      (s.persist.life = .owned → s.persist.ownerHash ≠ none) → ∃ t, exec i s = .next t ∧ t.run = .up ∧ t.mgmt.rstate = 4 ∧ t.mgmt.rreason = 0 ∧
        t.persist.image = some img ∧ t.persist.resetPending = true ∧ t.persist.boot = s.persist.boot ∧ t.hashKey = b.hashKey ∧
        t.mgmt.progStep = 0x13 ∧ t.ctxs = s.ctxs ∧ t.sovel = s.sovel ∧ t.persist.svn = max s.persist.svn (min img.svn.toNat 64))) ∧
  (∀ s, let waits := s.run = .recovery ∧ (s.mgmt.rstate = 1 ∨ s.mgmt.rstate = 3)
    (¬ waits → exec .recoveryWaitProgressAdvance s = .next s) ∧
    (waits → exec .recoveryWaitProgressAdvance s = .next { s with mgmt := { s.mgmt with progStep := 5, progCount := s.mgmt.progCount + 1 } })) ∧
  (∀ (p : Persist) (t : Transition), transitionOk p t = true ↔ t.rsvZero = true ∧ Life.ofCode t.fromSt.toNat = some p.life ∧ t.devid = Config.devId ∧
    t.ogen.toNat = p.ogen ∧ (t.target = 2 ∨ t.newOwn = 0) ∧ (t.target = 2 → p.ogen < 16) ∧ p.staged = none ∧ signersOk p t = true) ∧
  (∀ (p : Persist) i (m : Image), let dig := Config.sha384 m.body
    let keyed := ∃ k, k < 4 ∧ p.revoked.getLsbD k = false ∧ Config.vendorKeyHash k = Config.sha384 m.vendorKey
    let owner := ∃ key rsa slh, m.ownerSet = some (key, rsa, slh) ∧ p.ownerHash = some (Config.sha384 key) ∧ Config.rsaVerify key dig rsa = true ∧
      Config.slhVerify key dig slh = true
    let passes := fun k => if k = 1 then headerOk m = true else if k = 2 then keyed else if k = 3 then Config.rsaVerify m.vendorKey dig m.vendorRsa = true
      else if k = 4 then Config.slhVerify m.vendorKey dig m.vendorSlh = true else if k = 5 then p.life = .owned → owner else p.svn ≤ m.svn.toNat
    (imageFails p m = none ↔ ∀ k, 1 ≤ k → k ≤ 6 → passes k) ∧
    (imageFails p m = some i ↔ 1 ≤ i ∧ i ≤ 6 ∧ ¬ passes i ∧ ∀ k, 1 ≤ k → k < i → passes k))

/-- R461 to R468, R293, R429, R464, R465: the Sovel link goes down, retrains and loses lanes, and what waited for it is delivered; the
companion processor reads and writes the device memory window: the driver pool, the tables, the bootstrap block, the recovery
block and the mailbox. -/
def Obligations.SovelWindow : Prop :=
  let up := fun (s : State) => linkUp s = true ∧ (s.run = .up ∨ s.run = .recovery ∨ s.run = .scrapped)
  let linked := fun (t : State) (st : BitVec 4) => if t.sovel.lstate = st then t else { t with
    sovel := { t.sovel with lstate := st }, mgmt := { t.mgmt with events := t.mgmt.events ++ [4] }, power := { t.power with alert := true } }
  let words := fun (s : State) => let b := s.boot
    let p := s.power
    [(0, b.rsize.toNat * 2 ^ 56 + b.rbase.toNat * 2 ^ 12), (1, b.csize.toNat * 2 ^ 56 + b.cbase.toNat * 2 ^ 6), (2, b.nsize.toNat * 2 ^ 56 + b.nbase.toNat * 2 ^ 4),
     (3, b.nprod.toNat * 2 ^ 32 + b.ncons.toNat), (4, 0x0FE00001 * 2 ^ 19), (5, b.nlost.toNat), (6, 0), (7, 0),
     (8, s.sovel.sver.toNat * 2 ^ 56 + s.sovel.lanes.toNat * 2 ^ 47 + s.sovel.lstate.toNat), (9, s.sovel.wbase.toNat / 2 ^ 35 % 2 ^ 12 * 2 ^ 35),
     (10, b.intaddr.toNat * 2 ^ 2), (11, (if b.inten then 2 ^ 63 else 0) + b.intdata.toNat),
     (12, p.envcap.toNat * 2 ^ 52 + p.envreq.toNat * 2 ^ 40 + p.opreq.toNat * 2 ^ 38 + p.hmax.toNat * 2 ^ 32 + p.eff.toNat * 2 ^ 16 + p.ceil.toNat),
     (13, p.pin.toNat * 2 ^ 48 + p.iin.toNat * 2 ^ 32 + p.vin.toNat * 2 ^ 16 + p.vcore.toNat),
     (14, p.tjmax.toNat * 2 ^ 56 + p.tinlet.toNat * 2 ^ 48 + p.limit.toNat * 2 ^ 44), (15, 0), (16, b.reqlen.toNat), (17, 0),
     (18, b.mbstate.toNat * 2 ^ 62 + b.rsplen.toNat)]
  let submits := fun (t : State) => let n := t.boot.reqlen.toNat
    let type := NMap.getD t.boot.reqBuf 0 0
    if t.boot.mbstate = 1 then t
    else if 1 ≤ n ∧ n ≤ 28672 ∧ (type = 1 ∨ type = 5) then { t with boot := { t.boot with mbstate := 1 } }
    else sendInterrupt { t with boot := { t.boot with rspBuf := [], rsplen := 0, mbstate := 3 } }
  let consumed := fun (t : State) (v : Word) => let n := { t with boot := { t.boot with ncons := v, intPrev := t.boot.nprod != v } }
    if t.boot.nprod = v then n else sendInterrupt n
  (∀ s, s.run = .up → exec .sovelLinkDown s = .next (linked s 0)) ∧
  (∀ s lo hi wbase (lanes : BitVec 9), s.run = .up → let i := Instr.sovelLinkRetrain lo hi wbase lanes
    let same := lo.toNat ≤ 1 ∧ 1 ≤ hi.toNat ∧ wbase = s.sovel.wbase ∧ wbase.toNat % 2 ^ 35 = 0 ∧ wbase.toNat ≤ 2 ^ 47 - 2 ^ 35
    (linkUp s = true ∨ s.sovel.dead = true → exec i s = .next s) ∧
    (linkUp s = false → s.sovel.dead = false → ¬ same → exec i s = .next { s with sovel := { s.sovel with dead := true } }) ∧
    (linkUp s = false → s.sovel.dead = false → same → lanesFor lanes.toNat = none → exec i s = .next s) ∧
    (∀ use, linkUp s = false → s.sovel.dead = false → same → lanesFor lanes.toNat = some use → let st : BitVec 4 := if popCount use.toNat 9 = 8 then 2 else 3
      ∃ mem, exec i s = .next { s with
          mem := mem, sovel := { s.sovel with lanes := use, failed := ~~~lanes, held := [], lstate := st }
          mgmt := { s.mgmt with events := s.mgmt.events ++ [4] }, power := { s.power with alert := true } } ∧
        ∀ a, NMap.getD mem a 0 = ((s.sovel.held.reverse.find? fun c => c.pa = a).map (·.byte)).getD (memByte s a))) ∧
  (∀ s lane, s.run = .up → let d := s.sovel
    let failed := d.failed ||| BitVec.ofNat 9 (2 ^ lane)
    let u := { s with sovel := { d with failed := failed } }
    (9 ≤ lane ∨ linkUp s = false ∨ d.failed.getLsbD lane = true → exec (.sovelLaneFailure lane) s = .next s) ∧
    (lane < 9 → linkUp s = true → d.failed.getLsbD lane = false → d.lanes.getLsbD lane = false → exec (.sovelLaneFailure lane) s = .next u) ∧
    (lane < 9 → linkUp s = true → d.failed.getLsbD lane = false → d.lanes.getLsbD lane = true →
      (∀ use, lanesFor (~~~failed).toNat = some use → exec (.sovelLaneFailure lane) s =
        .next (linked { s with sovel := { d with failed := failed, lanes := use } } (if popCount use.toNat 9 = 8 then 2 else 3))) ∧
      (lanesFor (~~~failed).toNat = none → exec (.sovelLaneFailure lane) s = .next (linked u 0)))) ∧
  (∀ s i, ¬ up s → ((∃ off n, i = Instr.windowRead off n) ∨ (∃ off d c, i = .windowWrite off d c) ∨ (∃ off x y c, i = .windowCompareAndSwap off x y c) ∨
    (∃ v c, i = .nconsWrite v c) ∨ (∃ d c, i = .mailboxSubmit d c) ∨ (∃ off d n c, i = .registerWrite off d n c)) → exec i s = .next s) ∧
  (∀ s off n, up s → let ok := 1 ≤ n ∧ n ≤ 64 ∧ off % 64 + n ≤ 64
    let i := Instr.windowRead off n
    let reads := fun (bs : List Byte) => exec i s = .next { s with reply := .data bs false }
    let reg := (n = 4 ∨ n = 8) ∧ off % n = 0
    (¬ ok → reads (List.replicate n 0xFF)) ∧ (ok → 0x500000000 ≤ off → reads (List.replicate n 0)) ∧
    (ok → 0x400000000 ≤ off → off < 0x500000000 → ¬ reg → reads (List.replicate n 0xFF)) ∧
    (∀ w v, reg → off / 8 * 8 = 0x400000000 + 8 * w → (w, v) ∈ words s → s.run ≠ .recovery ∨ 4 ≤ w → reads (((leBytes v 8).drop (off % 8)).take n)) ∧
    (∀ w v, reg → off / 8 * 8 = 0x400000000 + 8 * w → (w, v) ∈ [(0, s.mgmt.rstate.toNat * 2 ^ 56 + s.mgmt.rreason.toNat * 2 ^ 48),
      (1, s.mgmt.imgaddr.toNat / 2 ^ 12 % 2 ^ 36 * 2 ^ 12), (2, s.mgmt.imglen.toNat), (3, 0)] → s.run = .recovery →
      reads (((leBytes v 8).drop (off % 8)).take n)) ∧
    (reg → 0x400008000 ≤ off → off + n ≤ 0x40000F000 → reads ((List.range n).map fun k => NMap.getD s.boot.rspBuf (off - 0x400008000 + k) 0)) ∧
    (∀ p w, p < 63 → w < 4 → n = 8 → off = 0x400010000 + 32 * p + 8 * w → let e := stagedOf s p
      reads (leBytes (if w = 0 then e.w0.toNat / 2 ^ 49 * 2 ^ 49 else if w = 1 then e.w1.toNat / 2 ^ 14 * 2 ^ 14
        else if w = 2 then e.w2.toNat / 2 ^ 14 * 2 ^ 14 else e.w3.toNat / 2 ^ 5 * 2 ^ 5) 8)) ∧
    (n = 8 → off = 0x400010808 → reads (leBytes ((if s.pcbNext ≠ none then 2 ^ 63 else 0) + s.pcbLast.toNat * 2 ^ 8 + s.pcbResult.toNat) 8)) ∧
    (ok → s.run = .up → noFaults s = true → off < 0x400000000 → inDriverPool (0xBC00000000 + off) = true → ∃ t, MemoryOnly s t ∧ BytesKept s t 0 0 0 ∧ exec i s =
      .next { t with reply := .data (cohBytes s (0xBC00000000 + off) n) (cohPoison s (0xBC00000000 + off)) }) ∧
    (∀ ctx w, ok → s.run = .up → ctx < 4096 → w < 16 → off = ctx * 128 + w * 8 → n = 8 →
      exec i s = .next { s with freeCtr := s.freeCtr + 1, reply := .data (leBytes (ctxWord s ctx w) 8) false }) ∧
    (ok → s.run = .up → 0x480000 ≤ off → off + n ≤ 0x1000000 → exec i s =
      .next { s with freeCtr := s.freeCtr + 1, reply := .data (List.replicate n 0) false }) ∧
    (ok → s.run ≠ .up → off < 0x400000000 → ∃ bs, bs.length = n ∧ exec i s = .next { s with freeCtr := s.freeCtr + n, reply := .data bs false })) ∧
  (∀ s off data stores, up s → let n := data.length
    let u := companionStores s stores
    let i := Instr.windowWrite off data stores
    let pa := 0xBC00000000 + off
    let ok := 1 ≤ n ∧ n ≤ 64 ∧ off % 64 + n ≤ 64
    (¬ ok ∨ 0x500000000 ≤ off ∨ (off < 0x400000000 ∧ s.run ≠ .up) ∨ (0x400000000 ≤ off ∧ ¬ ((n = 4 ∨ n = 8) ∧ off % n = 0)) → exec i s = .next u) ∧
    (ok → s.run = .up → noFaults s = true → off < 0x400000000 → inDriverPool pa = true → (frozenSector s (pa / 64) = true → exec i s = .next u) ∧
      (frozenSector s (pa / 64) = false → ∃ t, exec i s = .next t ∧ MemoryOnly u t ∧ (∀ a, (a < pa ∨ pa + n ≤ a) → cohByte t a = cohByte u a) ∧
        cohBytes t pa n = data)) ∧
    (∀ ctx, n = 4 → s.run = .up → ctx < 4096 → off = ctx * 128 + 0x28 → ∃ t, exec i s = .next t ∧ t = { u with ctxs := t.ctxs } ∧
      ctxOf t ctx = { ctxOf s ctx with frcons := BitVec.ofNat 32 (leNat data) } ∧ ∀ c, c ≠ ctx → ctxOf t c = ctxOf s c) ∧
    (∀ ctx q, n = 4 → s.run = .up → ctx < 4096 → q < 16 → off = 0x80000 + (ctx * 16 + q) * 64 + 16 → ∃ t, exec i s = .next t ∧
      t = { u with queues := t.queues } ∧ queueOf t ctx q = { queueOf s ctx q with ccons := BitVec.ofNat 32 (leNat data) } ∧
      ∀ c r, (c, r) ≠ (ctx, q) → r < 16 → queueOf t c r = queueOf s c r) ∧
    (ok → s.run = .up → 0x480000 ≤ off → off < 0x80000000 → exec i s = .next u) ∧
    (∀ ctx, ok → s.run = .up → off < 0x80000 → ctx = off / 128 → off + n ≤ ctx * 128 + 0x28 ∨ ctx * 128 + 0x2C ≤ off → exec i s = .next u)) ∧
  (∀ s off (data : DWord) n stores i, up s → (n = 4 ∨ n = 8) → off % n = 0 → let x := data.toNat % 2 ^ (8 * n)
    i = Instr.registerWrite off data n stores ∨ (i = .windowWrite (0x400000000 + off) (leBytes x n) stores ∧ off < 0x100000000) →
    let u := companionStores s stores
    let low := off % 8 = 0
    let new := fun (old : Nat) => (BitVec.ofNat 64 (if n = 8 then x else if low then old / 2 ^ 32 * 2 ^ 32 + x else x * 2 ^ 32 + old % 2 ^ 32) : DWord)
    (∀ w old, off / 8 = w → (w, old) ∈ words s → s.run ≠ .recovery ∨ 4 ≤ w → let v := new old
      let rings := fun b => exec i s = .next (if s.boot.locked then u else { u with boot := b })
      (w = 0 → rings { s.boot with rsize := v.extractLsb' 56 4, rbase := v.extractLsb' 12 36 }) ∧
      (w = 1 → rings { s.boot with csize := v.extractLsb' 56 4, cbase := v.extractLsb' 6 42 }) ∧
      (w = 2 → rings { s.boot with nsize := v.extractLsb' 56 4, nbase := v.extractLsb' 4 44 }) ∧
      (w = 3 → exec i s = .next (if low then consumed u (v.extractLsb' 0 32) else u)) ∧
      (w = 10 → exec i s = .next { u with boot := { s.boot with intaddr := v.extractLsb' 2 46 } }) ∧
      (w = 11 → exec i s = .next { u with boot := { s.boot with inten := v.getLsbD 63, intdata := v.extractLsb' 0 32 } }) ∧
      (w = 12 → exec i s = .next { u with power := { s.power with
        envreq := v.extractLsb' 40 12, opreq := v.extractLsb' 38 2, hmax := v.extractLsb' 32 4 } }) ∧
      (w = 16 → exec i s = .next { u with boot := { s.boot with reqlen := v.extractLsb' 0 16 } }) ∧
      (w = 17 → exec i s = .next (if low ∧ x % 2 = 1 then submits u else u)) ∧
      (w ∈ [4, 5, 6, 7, 8, 9, 13, 14, 15, 18] → exec i s = .next u)) ∧
    (∀ w, off / 8 = w → w < 4 → s.run = .recovery → let m := s.mgmt
      (w = 0 → exec i s = .next u) ∧
      (w = 1 → exec i s = .next { u with mgmt := { m with imgaddr := new (m.imgaddr.toNat / 2 ^ 12 % 2 ^ 36 * 2 ^ 12) &&& 0x0000FFFFFFFFF000 } }) ∧
      (w = 2 → exec i s = .next { u with mgmt := { m with imglen := (new m.imglen.toNat).extractLsb' 0 32 } }) ∧
      (w = 3 → exec i s = .next (if low ∧ x % 2 = 1 ∧ (m.rstate = 1 ∨ m.rstate = 3) then { u with mgmt := { m with rstate := 2 } } else u))) ∧
    (0x1000 ≤ off → off + n ≤ 0x8000 → exec i s = .next { u with boot := { s.boot with reqBuf := memPut s.boot.reqBuf (off - 0x1000) (leBytes x n) } }) ∧
    (0x8000 ≤ off → off < 0x10000 → exec i s = .next u) ∧
    (∀ p, n = 8 → s.run = .up → p < 63 → off = 0x10000 + 32 * p → ∃ t, exec i s = .next t ∧ t = { u with staged := t.staged } ∧
      stagedOf t p = { stagedOf s p with w0 := data } ∧ ∀ q, q ≠ p → stagedOf t q = stagedOf s q) ∧
    (s.run = .up → off = 0x10800 → exec i s = exec (.partitionCommit (BitVec.ofNat 64 x) stores) s) ∧
    (∀ ctx q, n = 4 → s.run = .up → ctx < 4096 → q < 16 → off = 0x80000 + ctx * 128 + q * 8 → exec i s = .next (doorbell u ctx q (BitVec.ofNat 64 x)))) ∧
  (∀ s off (data : DWord) n stores, up s → ¬ ((n = 4 ∨ n = 8) ∧ off % n = 0) →
    exec (.registerWrite off data n stores) s = .next (companionStores s stores)) ∧
  (∀ s v stores, up s → let u := companionStores s stores
    (s.run ≠ .recovery → exec (.nconsWrite v stores) s = .next (consumed u v)) ∧
    (s.run = .recovery → exec (.nconsWrite v stores) s = .next (if v.getLsbD 0 = true ∧ (s.mgmt.rstate = 1 ∨ s.mgmt.rstate = 3) then
      { u with mgmt := { s.mgmt with rstate := 2 } } else u))) ∧
  (∀ s (data : DWord) stores, up s → let u := companionStores s stores
    exec (.mailboxSubmit data stores) s = .next (if data.getLsbD 0 then submits u else u)) ∧
  (∀ s off expect new stores, up s → let u := companionStores s stores
    let pa := 0xBC00000000 + off
    let i := Instr.windowCompareAndSwap off expect new stores
    let ok := s.run = .up ∧ off < 0x400000000 ∧ off % 8 = 0 ∧ inDriverPool pa = true
    let reply := Reply.data (cohBytes u pa 8) (cohPoison u pa)
    (¬ ok → exec i s = .next { u with reply := .data (List.replicate 8 0xFF) false }) ∧
    (ok → noFaults s = true → leNat (cohBytes u pa 8) ≠ expect.toNat ∨ frozenSector s (pa / 64) = true → ∃ t, exec i s = .next { t with reply := reply } ∧ MemoryOnly u t ∧
      ∀ a, cohByte t a = cohByte u a) ∧
    (ok → noFaults s = true → leNat (cohBytes u pa 8) = expect.toNat → frozenSector s (pa / 64) = false → ∃ t, exec i s = .next { t with reply := reply } ∧ MemoryOnly u t ∧
      (∀ a, (a < pa ∨ pa + 8 ≤ a) → cohByte t a = cohByte u a) ∧ cohBytes t pa 8 = leBytes new.toNat 8))

/-! ### The whole machine -/

/-- One step takes the command at the front of the queue: it is exec of that command on the state with the queue's rest. On an
empty queue the block idles (DESIGN CHOICE, notes/assumptions/7.md). -/
def Obligations.StepTakesFront : Prop :=
  (∀ (s : State) c rest, step { s with pending := c :: rest } = exec c { s with pending := rest }) ∧
  (∀ s : State, s.pending = [] → step s = .next s)

/-- R24, R67, R293, R321, R350, R352, R355, R363, R467: what the module holds after reset. Fields for which the manual gives no value
(ROOT, FRBASE, SEED) and the bytes of memory are zero by the model's choice (notes/assumptions/1.md, 5.md). -/
def Obligations.ResetState : Prop :=
  let s := State.reset
  s.run = .up ∧ s.pending = [] ∧ Memory.wf s = true ∧ (∀ a, memByte s a = 0) ∧
  (∀ ctx w, ctx < 4096 → w < 16 → ctxWord s ctx w = if w = 0 then ctx + (if ctx = 0 then 2 ^ 61 + 2 ^ 60 else 0) else 0) ∧
  (∀ ctx q w, ctx < 4096 → q < 16 → (ctx, q) ≠ (0, 0) → w < 8 → queueWord s ctx q w = 0) ∧
  (queueOf s 0 0).qstate = .enabled ∧ (queueOf s 0 0).engine = 1 ∧ (queueOf s 0 0).prio = 3 ∧ (queueOf s 0 0).bootRings = true ∧
  (∀ w v, (w, v) ∈ [(0, 0), (1, 0), (2, 0), (3, 0), (4, 0x7F0000080000), (5, 0), (8, 2 ^ 56 + 0xFF * 2 ^ 47 + 2), (10, 0), (11, 0),
      (12, 0x44C * 2 ^ 52 + 2 ^ 38 + 0xF * 2 ^ 32 + 0x44C * 2 ^ 16 + 0x10), (13, 0x2BC), (14, 0), (16, 0), (18, 0)] →
    exec (.windowRead (0x400000000 + 8 * w) 8) s = .next { s with reply := .data (leBytes v 8) false }) ∧
  (∀ i, (objOf s i).state = .free) ∧
  (∀ p, partOf s p = { w0 := BitVec.ofNat 64 (0x40 * 2 ^ 53 + 8 * 2 ^ 49), w1 := 0, w2 := 0, w3 := 0 }) ∧
  (s.pcbNext = none ∧ s.pcbLast = 0 ∧ s.pcbResult = 0) ∧
  (∀ g w, groupWord s g w = if w = 7 then 0x3F800000 else if w = 8 then 0x3F80000000000000 else if w = 10 then 0x8000800080000000 else 0) ∧
  (∀ w, cfgWord s w = if w = 1 then 0x0101000000000020 else 0) ∧ (∀ i, (rxtOf s i).w0.getLsbD 63 = false) ∧
  (∀ n, NMap.getD s.nodeRoute n 0 = 0 ∧ NMap.getD s.peerInc n 0 = 0) ∧
  (∀ p, (portOf s p).pstate = .off ∧ (portOf s p).lanes = 0x0FF ∧ (portOf s p).retries = 0 ∧ (portOf s p).changes = 0) ∧
  (∀ type index word, counter s type index word = 0) ∧ s.log0 = [] ∧ s.log1 = [] ∧ s.seq0 = 0 ∧ s.seq1 = 0 ∧ s.injections = [] ∧
  s.launches = [] ∧ s.cmds = [] ∧ s.remotes = [] ∧ s.jobs = []

/-- R385: a module stop halts every engine until a reset or a power-off: whatever command comes but those, the module stays
stopped, and nothing changes but the flash, the management core with its pins and registers, what it answers, and the count of
free values. -/
def Obligations.StopPersists : Prop :=
  ∀ s c, s.run = .stop → (∀ b, c ≠ .modReset b) → (∀ ms, c ≠ .powerOff ms) → (∀ v us, c ≠ .undervoltageTurnOff v us) →
    (∀ v us, c ≠ .overvoltageTurnOff v us) → (∀ island tj, c ≠ .thermalTrip island tj) → (∀ v us, c ≠ .breakerTrip v us) → c ≠ .mateShortBreak →
    ∃ t, exec c s = .next t ∧ t = { s with persist := t.persist, mgmt := t.mgmt, power := t.power, reply := t.reply, freeCtr := t.freeCtr }

/-- Every step completes, or stops at a hole of the address map that a slice request or a patrol read names; no command is
refused. A step keeps the canonical form of memory and takes the front of the queue and nothing else from it. -/
def Obligations.EveryStep : Prop :=
  ∀ s, (∃ t, step s = .next t ∧ t.pending = s.pending.tail ∧ (Memory.wf s = true → Memory.wf t = true)) ∨
    ∃ pa rest, step s = .fault (.hole pa) ∧ regionOf pa = .hole ∧
      ((∃ r, s.pending = .sliceRequest r :: rest ∧ r.pa = pa) ∨ ∃ f, s.pending = .patrolRead pa f :: rest)
end

