-- ==== Sys2Proof/Laws/NMap.lean ====
section
/-! SUPPORT. Laws of the sparse tables: a read after a write of the same key, of another key, and the canonical form. -/

set_option Elab.async false

namespace Sys2Proof.Machine

variable {β : Type}

@[simp] theorem NMap.find_nil (k : Nat) : NMap.find ([] : NMap β) k = none := rfl

@[simp] theorem NMap.find_insert_same (m : NMap β) (k : Nat) (v : β) : NMap.find (NMap.insert m k v) k = some v := by
  induction m with
  | nil => simp [NMap.insert, NMap.find]
  | cons e r ih =>
    obtain ⟨j, w⟩ := e
    unfold NMap.insert
    split
    · simp [NMap.find]
    · split
      · simp [NMap.find]
      · rename_i h; simp [NMap.find, ih, Ne.symm h]

theorem NMap.find_insert_other (m : NMap β) {k j : Nat} (v : β) (h : j ≠ k) :
    NMap.find (NMap.insert m k v) j = NMap.find m j := by
  induction m with
  | nil => simp [NMap.insert, NMap.find, Ne.symm h]
  | cons e r ih =>
    obtain ⟨i, w⟩ := e
    unfold NMap.insert
    split
    · simp [NMap.find, Ne.symm h]
    · split
      · rename_i hk; subst hk; simp [NMap.find, Ne.symm h]
      · simp [NMap.find, ih]

@[simp] theorem NMap.find_erase_same (m : NMap β) (k : Nat) : NMap.find (NMap.erase m k) k = none := by
  induction m with
  | nil => rfl
  | cons e r ih =>
    obtain ⟨j, w⟩ := e
    unfold NMap.erase
    split
    · exact ih
    · rename_i h; simp [NMap.find, h, ih]

theorem NMap.find_erase_other (m : NMap β) {k j : Nat} (h : j ≠ k) : NMap.find (NMap.erase m k) j = NMap.find m j := by
  induction m with
  | nil => rfl
  | cons e r ih =>
    obtain ⟨i, w⟩ := e
    unfold NMap.erase
    split
    · rename_i hk; subst hk; simp [NMap.find, Ne.symm h, ih]
    · simp [NMap.find, ih]

@[simp] theorem NMap.getD_nil (k : Nat) (d : β) : NMap.getD ([] : NMap β) k d = d := rfl

@[simp] theorem NMap.getD_insert_same (m : NMap β) (k : Nat) (v d : β) : NMap.getD (NMap.insert m k v) k d = v := by
  simp [NMap.getD]

theorem NMap.getD_insert_other (m : NMap β) {k j : Nat} (v d : β) (h : j ≠ k) :
    NMap.getD (NMap.insert m k v) j d = NMap.getD m j d := by
  simp [NMap.getD, NMap.find_insert_other m v h]

@[simp] theorem NMap.getD_put_same [DecidableEq β] (d : β) (m : NMap β) (k : Nat) (v : β) :
    NMap.getD (NMap.put d m k v) k d = v := by
  unfold NMap.put
  split
  · rename_i h; simp [NMap.getD, h]
  · simp

theorem NMap.getD_put_other [DecidableEq β] (d : β) (m : NMap β) {k j : Nat} (v e : β) (h : j ≠ k) :
    NMap.getD (NMap.put d m k v) j e = NMap.getD m j e := by
  unfold NMap.put
  split
  · simp [NMap.getD, NMap.find_erase_other m h]
  · simp [NMap.getD, NMap.find_insert_other m v h]

/-! ### The canonical form -/

theorem NMap.risingFrom_mono {lo hi : Nat} (m : NMap β) (h : lo ≤ hi) (hm : NMap.risingFrom hi m = true) :
    NMap.risingFrom lo m = true := by
  cases m with
  | nil => rfl
  | cons e r => simp only [NMap.risingFrom, Bool.and_eq_true, decide_eq_true_eq] at hm ⊢; exact ⟨by omega, hm.2⟩

theorem NMap.risingFrom_insert {lo k : Nat} (m : NMap β) (v : β) (h : lo ≤ k) (hm : NMap.risingFrom lo m = true) :
    NMap.risingFrom lo (NMap.insert m k v) = true := by
  induction m generalizing lo with
  | nil => simp [NMap.insert, NMap.risingFrom, h]
  | cons e r ih =>
    obtain ⟨j, w⟩ := e
    simp only [NMap.risingFrom, Bool.and_eq_true, decide_eq_true_eq] at hm
    unfold NMap.insert
    split
    · simp only [NMap.risingFrom, Bool.and_eq_true, decide_eq_true_eq]
      exact ⟨h, by omega, hm.2⟩
    · split
      · rename_i hk; subst hk
        simp only [NMap.risingFrom, Bool.and_eq_true, decide_eq_true_eq]
        exact ⟨h, hm.2⟩
      · simp only [NMap.risingFrom, Bool.and_eq_true, decide_eq_true_eq]
        exact ⟨hm.1, ih (by omega) hm.2⟩

theorem NMap.risingFrom_erase {lo k : Nat} (m : NMap β) (hm : NMap.risingFrom lo m = true) :
    NMap.risingFrom lo (NMap.erase m k) = true := by
  induction m generalizing lo with
  | nil => rfl
  | cons e r ih =>
    obtain ⟨j, w⟩ := e
    simp only [NMap.risingFrom, Bool.and_eq_true, decide_eq_true_eq] at hm
    unfold NMap.erase
    split
    · exact ih (NMap.risingFrom_mono r (by omega) hm.2)
    · simp only [NMap.risingFrom, Bool.and_eq_true, decide_eq_true_eq]
      exact ⟨hm.1, ih hm.2⟩

theorem NMap.noDefault_insert [DecidableEq β] {d v : β} (m : NMap β) (k : Nat) (hv : v ≠ d)
    (hm : NMap.noDefault d m = true) : NMap.noDefault d (NMap.insert m k v) = true := by
  induction m with
  | nil => simp [NMap.insert, NMap.noDefault, hv]
  | cons e r ih =>
    obtain ⟨j, w⟩ := e
    simp only [NMap.noDefault, Bool.and_eq_true, decide_eq_true_eq] at hm
    unfold NMap.insert
    split
    · simp [NMap.noDefault, hv, hm.1, hm.2]
    · split
      · simp [NMap.noDefault, hv, hm.2]
      · simp [NMap.noDefault, hm.1, ih hm.2]

theorem NMap.noDefault_erase [DecidableEq β] {d : β} (m : NMap β) (k : Nat) (hm : NMap.noDefault d m = true) :
    NMap.noDefault d (NMap.erase m k) = true := by
  induction m with
  | nil => rfl
  | cons e r ih =>
    obtain ⟨j, w⟩ := e
    simp only [NMap.noDefault, Bool.and_eq_true, decide_eq_true_eq] at hm
    unfold NMap.erase
    split
    · exact ih hm.2
    · simp [NMap.noDefault, hm.1, ih hm.2]

/-- Storing keeps the canonical form. -/
theorem NMap.wf_put [DecidableEq β] (d : β) (m : NMap β) (k : Nat) (v : β) (hm : NMap.wf d m = true) :
    NMap.wf d (NMap.put d m k v) = true := by
  simp only [NMap.wf, Bool.and_eq_true] at hm ⊢
  unfold NMap.put
  split
  · exact ⟨NMap.risingFrom_erase m hm.1, NMap.noDefault_erase m k hm.2⟩
  · rename_i h; exact ⟨NMap.risingFrom_insert m v (by omega) hm.1, NMap.noDefault_insert m k h hm.2⟩

theorem NMap.find_map {γ : Type} (m : NMap β) (f : β → γ) (k : Nat) :
    NMap.find (m.map fun e => (e.1, f e.2)) k = (NMap.find m k).map f := by
  induction m with
  | nil => rfl
  | cons e r ih =>
    obtain ⟨j, v⟩ := e
    simp only [List.map_cons, NMap.find]
    split
    · rfl
    · exact ih

theorem NMap.getD_map {γ : Type} (m : NMap β) (f : β → γ) (k : Nat) (d : β) :
    NMap.getD (m.map fun e => (e.1, f e.2)) k (f d) = f (NMap.getD m k d) := by
  simp only [NMap.getD, NMap.find_map]
  cases NMap.find m k <;> rfl

end Sys2Proof.Machine
end

