-- ==== Sys2Proof/Laws/State.lean ====
section
/-! SUPPORT. What each update of a table of the state leaves: one lemma per update and field, and what a read of the table
gives after it. -/

namespace Sys2Proof.Machine

/-! ### setTile -/

@[simp] theorem setTile_pending (s : State) (k : Nat) (x : Tile) : (setTile s k x).pending = s.pending := rfl
@[simp] theorem setTile_freeCtr (s : State) (k : Nat) (x : Tile) : (setTile s k x).freeCtr = s.freeCtr := rfl
@[simp] theorem setTile_run (s : State) (k : Nat) (x : Tile) : (setTile s k x).run = s.run := rfl
@[simp] theorem setTile_ctxs (s : State) (k : Nat) (x : Tile) : (setTile s k x).ctxs = s.ctxs := rfl
@[simp] theorem setTile_queues (s : State) (k : Nat) (x : Tile) : (setTile s k x).queues = s.queues := rfl
@[simp] theorem setTile_waiting (s : State) (k : Nat) (x : Tile) : (setTile s k x).waiting = s.waiting := rfl
@[simp] theorem setTile_bells (s : State) (k : Nat) (x : Tile) : (setTile s k x).bells = s.bells := rfl
@[simp] theorem setTile_objs (s : State) (k : Nat) (x : Tile) : (setTile s k x).objs = s.objs := rfl
@[simp] theorem setTile_objNext (s : State) (k : Nat) (x : Tile) : (setTile s k x).objNext = s.objNext := rfl
@[simp] theorem setTile_objFreed (s : State) (k : Nat) (x : Tile) : (setTile s k x).objFreed = s.objFreed := rfl
@[simp] theorem setTile_heaps (s : State) (k : Nat) (x : Tile) : (setTile s k x).heaps = s.heaps := rfl
@[simp] theorem setTile_cmds (s : State) (k : Nat) (x : Tile) : (setTile s k x).cmds = s.cmds := rfl
@[simp] theorem setTile_cmdCtr (s : State) (k : Nat) (x : Tile) : (setTile s k x).cmdCtr = s.cmdCtr := rfl
@[simp] theorem setTile_doomed (s : State) (k : Nat) (x : Tile) : (setTile s k x).doomed = s.doomed := rfl
@[simp] theorem setTile_rr (s : State) (k : Nat) (x : Tile) : (setTile s k x).rr = s.rr := rfl
@[simp] theorem setTile_halts (s : State) (k : Nat) (x : Tile) : (setTile s k x).halts = s.halts := rfl
@[simp] theorem setTile_launches (s : State) (k : Nat) (x : Tile) : (setTile s k x).launches = s.launches := rfl
@[simp] theorem setTile_mem (s : State) (k : Nat) (x : Tile) : (setTile s k x).mem = s.mem := rfl
@[simp] theorem setTile_poison (s : State) (k : Nat) (x : Tile) : (setTile s k x).poison = s.poison := rfl
@[simp] theorem setTile_dead (s : State) (k : Nat) (x : Tile) : (setTile s k x).dead = s.dead := rfl
@[simp] theorem setTile_retire (s : State) (k : Nat) (x : Tile) : (setTile s k x).retire = s.retire := rfl
@[simp] theorem setTile_retired (s : State) (k : Nat) (x : Tile) : (setTile s k x).retired = s.retired := rfl
@[simp] theorem setTile_xlats (s : State) (k : Nat) (x : Tile) : (setTile s k x).xlats = s.xlats := rfl
@[simp] theorem setTile_oldPtes (s : State) (k : Nat) (x : Tile) : (setTile s k x).oldPtes = s.oldPtes := rfl
@[simp] theorem setTile_invals (s : State) (k : Nat) (x : Tile) : (setTile s k x).invals = s.invals := rfl
@[simp] theorem setTile_pteCtr (s : State) (k : Nat) (x : Tile) : (setTile s k x).pteCtr = s.pteCtr := rfl
@[simp] theorem setTile_hashKey (s : State) (k : Nat) (x : Tile) : (setTile s k x).hashKey = s.hashKey := rfl
@[simp] theorem setTile_lines (s : State) (k : Nat) (x : Tile) : (setTile s k x).lines = s.lines := rfl
@[simp] theorem setTile_fills (s : State) (k : Nat) (x : Tile) : (setTile s k x).fills = s.fills := rfl
@[simp] theorem setTile_epochs (s : State) (k : Nat) (x : Tile) : (setTile s k x).epochs = s.epochs := rfl
@[simp] theorem setTile_lastEpoch (s : State) (k : Nat) (x : Tile) : (setTile s k x).lastEpoch = s.lastEpoch := rfl
@[simp] theorem setTile_redBufs (s : State) (k : Nat) (x : Tile) : (setTile s k x).redBufs = s.redBufs := rfl
@[simp] theorem setTile_addBufs (s : State) (k : Nat) (x : Tile) : (setTile s k x).addBufs = s.addBufs := rfl
@[simp] theorem setTile_nexts (s : State) (k : Nat) (x : Tile) : (setTile s k x).nexts = s.nexts := rfl
@[simp] theorem setTile_turns (s : State) (k : Nat) (x : Tile) : (setTile s k x).turns = s.turns := rfl
@[simp] theorem setTile_misses (s : State) (k : Nat) (x : Tile) : (setTile s k x).misses = s.misses := rfl
@[simp] theorem setTile_bankQ (s : State) (k : Nat) (x : Tile) : (setTile s k x).bankQ = s.bankQ := rfl
@[simp] theorem setTile_refused (s : State) (k : Nat) (x : Tile) : (setTile s k x).refused = s.refused := rfl
@[simp] theorem setTile_reqCtr (s : State) (k : Nat) (x : Tile) : (setTile s k x).reqCtr = s.reqCtr := rfl
@[simp] theorem setTile_credits (s : State) (k : Nat) (x : Tile) : (setTile s k x).credits = s.credits := rfl
@[simp] theorem setTile_chanTurn (s : State) (k : Nat) (x : Tile) : (setTile s k x).chanTurn = s.chanTurn := rfl
@[simp] theorem setTile_parts (s : State) (k : Nat) (x : Tile) : (setTile s k x).parts = s.parts := rfl
@[simp] theorem setTile_staged (s : State) (k : Nat) (x : Tile) : (setTile s k x).staged = s.staged := rfl
@[simp] theorem setTile_pcbNext (s : State) (k : Nat) (x : Tile) : (setTile s k x).pcbNext = s.pcbNext := rfl
@[simp] theorem setTile_pcbLast (s : State) (k : Nat) (x : Tile) : (setTile s k x).pcbLast = s.pcbLast := rfl
@[simp] theorem setTile_pcbResult (s : State) (k : Nat) (x : Tile) : (setTile s k x).pcbResult = s.pcbResult := rfl
@[simp] theorem setTile_map0 (s : State) (k : Nat) (x : Tile) : (setTile s k x).map0 = s.map0 := rfl
@[simp] theorem setTile_map1 (s : State) (k : Nat) (x : Tile) : (setTile s k x).map1 = s.map1 := rfl
@[simp] theorem setTile_spares0 (s : State) (k : Nat) (x : Tile) : (setTile s k x).spares0 = s.spares0 := rfl
@[simp] theorem setTile_spares1 (s : State) (k : Nat) (x : Tile) : (setTile s k x).spares1 = s.spares1 := rfl
@[simp] theorem setTile_marked (s : State) (k : Nat) (x : Tile) : (setTile s k x).marked = s.marked := rfl
@[simp] theorem setTile_routes (s : State) (k : Nat) (x : Tile) : (setTile s k x).routes = s.routes := rfl
@[simp] theorem setTile_dispRuns (s : State) (k : Nat) (x : Tile) : (setTile s k x).dispRuns = s.dispRuns := rfl
@[simp] theorem setTile_chips (s : State) (k : Nat) (x : Tile) : (setTile s k x).chips = s.chips := rfl
@[simp] theorem setTile_groups (s : State) (k : Nat) (x : Tile) : (setTile s k x).groups = s.groups := rfl
@[simp] theorem setTile_heldGroups (s : State) (k : Nat) (x : Tile) : (setTile s k x).heldGroups = s.heldGroups := rfl
@[simp] theorem setTile_updRuns (s : State) (k : Nat) (x : Tile) : (setTile s k x).updRuns = s.updRuns := rfl
@[simp] theorem setTile_rxt (s : State) (k : Nat) (x : Tile) : (setTile s k x).rxt = s.rxt := rfl
@[simp] theorem setTile_nodeRoute (s : State) (k : Nat) (x : Tile) : (setTile s k x).nodeRoute = s.nodeRoute := rfl
@[simp] theorem setTile_peerInc (s : State) (k : Nat) (x : Tile) : (setTile s k x).peerInc = s.peerInc := rfl
@[simp] theorem setTile_fabCfg (s : State) (k : Nat) (x : Tile) : (setTile s k x).fabCfg = s.fabCfg := rfl
@[simp] theorem setTile_ports (s : State) (k : Nat) (x : Tile) : (setTile s k x).ports = s.ports := rfl
@[simp] theorem setTile_remotes (s : State) (k : Nat) (x : Tile) : (setTile s k x).remotes = s.remotes := rfl
@[simp] theorem setTile_tagCtr (s : State) (k : Nat) (x : Tile) : (setTile s k x).tagCtr = s.tagCtr := rfl
@[simp] theorem setTile_jobs (s : State) (k : Nat) (x : Tile) : (setTile s k x).jobs = s.jobs := rfl
@[simp] theorem setTile_collRuns (s : State) (k : Nat) (x : Tile) : (setTile s k x).collRuns = s.collRuns := rfl
@[simp] theorem setTile_inbox (s : State) (k : Nat) (x : Tile) : (setTile s k x).inbox = s.inbox := rfl
@[simp] theorem setTile_outbox (s : State) (k : Nat) (x : Tile) : (setTile s k x).outbox = s.outbox := rfl
@[simp] theorem setTile_flits (s : State) (k : Nat) (x : Tile) : (setTile s k x).flits = s.flits := rfl
@[simp] theorem setTile_rehomed (s : State) (k : Nat) (x : Tile) : (setTile s k x).rehomed = s.rehomed := rfl
@[simp] theorem setTile_injections (s : State) (k : Nat) (x : Tile) : (setTile s k x).injections = s.injections := rfl
@[simp] theorem setTile_latents (s : State) (k : Nat) (x : Tile) : (setTile s k x).latents = s.latents := rfl
@[simp] theorem setTile_fraction (s : State) (k : Nat) (x : Tile) : (setTile s k x).fraction = s.fraction := rfl
@[simp] theorem setTile_islands (s : State) (k : Nat) (x : Tile) : (setTile s k x).islands = s.islands := rfl
@[simp] theorem setTile_repair (s : State) (k : Nat) (x : Tile) : (setTile s k x).repair = s.repair := rfl
@[simp] theorem setTile_bridge (s : State) (k : Nat) (x : Tile) : (setTile s k x).bridge = s.bridge := rfl
@[simp] theorem setTile_log0 (s : State) (k : Nat) (x : Tile) : (setTile s k x).log0 = s.log0 := rfl
@[simp] theorem setTile_log1 (s : State) (k : Nat) (x : Tile) : (setTile s k x).log1 = s.log1 := rfl
@[simp] theorem setTile_seq0 (s : State) (k : Nat) (x : Tile) : (setTile s k x).seq0 = s.seq0 := rfl
@[simp] theorem setTile_seq1 (s : State) (k : Nat) (x : Tile) : (setTile s k x).seq1 = s.seq1 := rfl
@[simp] theorem setTile_counters (s : State) (k : Nat) (x : Tile) : (setTile s k x).counters = s.counters := rfl
@[simp] theorem setTile_tempSeen (s : State) (k : Nat) (x : Tile) : (setTile s k x).tempSeen = s.tempSeen := rfl
@[simp] theorem setTile_patrol (s : State) (k : Nat) (x : Tile) : (setTile s k x).patrol = s.patrol := rfl
@[simp] theorem setTile_spareRows (s : State) (k : Nat) (x : Tile) : (setTile s k x).spareRows = s.spareRows := rfl
@[simp] theorem setTile_persist (s : State) (k : Nat) (x : Tile) : (setTile s k x).persist = s.persist := rfl
@[simp] theorem setTile_mgmt (s : State) (k : Nat) (x : Tile) : (setTile s k x).mgmt = s.mgmt := rfl
@[simp] theorem setTile_boot (s : State) (k : Nat) (x : Tile) : (setTile s k x).boot = s.boot := rfl
@[simp] theorem setTile_sovel (s : State) (k : Nat) (x : Tile) : (setTile s k x).sovel = s.sovel := rfl
@[simp] theorem setTile_power (s : State) (k : Nat) (x : Tile) : (setTile s k x).power = s.power := rfl
@[simp] theorem setTile_reply (s : State) (k : Nat) (x : Tile) : (setTile s k x).reply = s.reply := rfl

/-! ### updTile -/

@[simp] theorem updTile_pending (s : State) (k : Nat) (f : Tile → Tile) : (updTile s k f).pending = s.pending := rfl
@[simp] theorem updTile_freeCtr (s : State) (k : Nat) (f : Tile → Tile) : (updTile s k f).freeCtr = s.freeCtr := rfl
@[simp] theorem updTile_run (s : State) (k : Nat) (f : Tile → Tile) : (updTile s k f).run = s.run := rfl
@[simp] theorem updTile_ctxs (s : State) (k : Nat) (f : Tile → Tile) : (updTile s k f).ctxs = s.ctxs := rfl
@[simp] theorem updTile_queues (s : State) (k : Nat) (f : Tile → Tile) : (updTile s k f).queues = s.queues := rfl
@[simp] theorem updTile_waiting (s : State) (k : Nat) (f : Tile → Tile) : (updTile s k f).waiting = s.waiting := rfl
@[simp] theorem updTile_bells (s : State) (k : Nat) (f : Tile → Tile) : (updTile s k f).bells = s.bells := rfl
@[simp] theorem updTile_objs (s : State) (k : Nat) (f : Tile → Tile) : (updTile s k f).objs = s.objs := rfl
@[simp] theorem updTile_objNext (s : State) (k : Nat) (f : Tile → Tile) : (updTile s k f).objNext = s.objNext := rfl
@[simp] theorem updTile_objFreed (s : State) (k : Nat) (f : Tile → Tile) : (updTile s k f).objFreed = s.objFreed := rfl
@[simp] theorem updTile_heaps (s : State) (k : Nat) (f : Tile → Tile) : (updTile s k f).heaps = s.heaps := rfl
@[simp] theorem updTile_cmds (s : State) (k : Nat) (f : Tile → Tile) : (updTile s k f).cmds = s.cmds := rfl
@[simp] theorem updTile_cmdCtr (s : State) (k : Nat) (f : Tile → Tile) : (updTile s k f).cmdCtr = s.cmdCtr := rfl
@[simp] theorem updTile_doomed (s : State) (k : Nat) (f : Tile → Tile) : (updTile s k f).doomed = s.doomed := rfl
@[simp] theorem updTile_rr (s : State) (k : Nat) (f : Tile → Tile) : (updTile s k f).rr = s.rr := rfl
@[simp] theorem updTile_halts (s : State) (k : Nat) (f : Tile → Tile) : (updTile s k f).halts = s.halts := rfl
@[simp] theorem updTile_launches (s : State) (k : Nat) (f : Tile → Tile) : (updTile s k f).launches = s.launches := rfl
@[simp] theorem updTile_mem (s : State) (k : Nat) (f : Tile → Tile) : (updTile s k f).mem = s.mem := rfl
@[simp] theorem updTile_poison (s : State) (k : Nat) (f : Tile → Tile) : (updTile s k f).poison = s.poison := rfl
@[simp] theorem updTile_dead (s : State) (k : Nat) (f : Tile → Tile) : (updTile s k f).dead = s.dead := rfl
@[simp] theorem updTile_retire (s : State) (k : Nat) (f : Tile → Tile) : (updTile s k f).retire = s.retire := rfl
@[simp] theorem updTile_retired (s : State) (k : Nat) (f : Tile → Tile) : (updTile s k f).retired = s.retired := rfl
@[simp] theorem updTile_xlats (s : State) (k : Nat) (f : Tile → Tile) : (updTile s k f).xlats = s.xlats := rfl
@[simp] theorem updTile_oldPtes (s : State) (k : Nat) (f : Tile → Tile) : (updTile s k f).oldPtes = s.oldPtes := rfl
@[simp] theorem updTile_invals (s : State) (k : Nat) (f : Tile → Tile) : (updTile s k f).invals = s.invals := rfl
@[simp] theorem updTile_pteCtr (s : State) (k : Nat) (f : Tile → Tile) : (updTile s k f).pteCtr = s.pteCtr := rfl
@[simp] theorem updTile_hashKey (s : State) (k : Nat) (f : Tile → Tile) : (updTile s k f).hashKey = s.hashKey := rfl
@[simp] theorem updTile_lines (s : State) (k : Nat) (f : Tile → Tile) : (updTile s k f).lines = s.lines := rfl
@[simp] theorem updTile_fills (s : State) (k : Nat) (f : Tile → Tile) : (updTile s k f).fills = s.fills := rfl
@[simp] theorem updTile_epochs (s : State) (k : Nat) (f : Tile → Tile) : (updTile s k f).epochs = s.epochs := rfl
@[simp] theorem updTile_lastEpoch (s : State) (k : Nat) (f : Tile → Tile) : (updTile s k f).lastEpoch = s.lastEpoch := rfl
@[simp] theorem updTile_redBufs (s : State) (k : Nat) (f : Tile → Tile) : (updTile s k f).redBufs = s.redBufs := rfl
@[simp] theorem updTile_addBufs (s : State) (k : Nat) (f : Tile → Tile) : (updTile s k f).addBufs = s.addBufs := rfl
@[simp] theorem updTile_nexts (s : State) (k : Nat) (f : Tile → Tile) : (updTile s k f).nexts = s.nexts := rfl
@[simp] theorem updTile_turns (s : State) (k : Nat) (f : Tile → Tile) : (updTile s k f).turns = s.turns := rfl
@[simp] theorem updTile_misses (s : State) (k : Nat) (f : Tile → Tile) : (updTile s k f).misses = s.misses := rfl
@[simp] theorem updTile_bankQ (s : State) (k : Nat) (f : Tile → Tile) : (updTile s k f).bankQ = s.bankQ := rfl
@[simp] theorem updTile_refused (s : State) (k : Nat) (f : Tile → Tile) : (updTile s k f).refused = s.refused := rfl
@[simp] theorem updTile_reqCtr (s : State) (k : Nat) (f : Tile → Tile) : (updTile s k f).reqCtr = s.reqCtr := rfl
@[simp] theorem updTile_credits (s : State) (k : Nat) (f : Tile → Tile) : (updTile s k f).credits = s.credits := rfl
@[simp] theorem updTile_chanTurn (s : State) (k : Nat) (f : Tile → Tile) : (updTile s k f).chanTurn = s.chanTurn := rfl
@[simp] theorem updTile_parts (s : State) (k : Nat) (f : Tile → Tile) : (updTile s k f).parts = s.parts := rfl
@[simp] theorem updTile_staged (s : State) (k : Nat) (f : Tile → Tile) : (updTile s k f).staged = s.staged := rfl
@[simp] theorem updTile_pcbNext (s : State) (k : Nat) (f : Tile → Tile) : (updTile s k f).pcbNext = s.pcbNext := rfl
@[simp] theorem updTile_pcbLast (s : State) (k : Nat) (f : Tile → Tile) : (updTile s k f).pcbLast = s.pcbLast := rfl
@[simp] theorem updTile_pcbResult (s : State) (k : Nat) (f : Tile → Tile) : (updTile s k f).pcbResult = s.pcbResult := rfl
@[simp] theorem updTile_map0 (s : State) (k : Nat) (f : Tile → Tile) : (updTile s k f).map0 = s.map0 := rfl
@[simp] theorem updTile_map1 (s : State) (k : Nat) (f : Tile → Tile) : (updTile s k f).map1 = s.map1 := rfl
@[simp] theorem updTile_spares0 (s : State) (k : Nat) (f : Tile → Tile) : (updTile s k f).spares0 = s.spares0 := rfl
@[simp] theorem updTile_spares1 (s : State) (k : Nat) (f : Tile → Tile) : (updTile s k f).spares1 = s.spares1 := rfl
@[simp] theorem updTile_marked (s : State) (k : Nat) (f : Tile → Tile) : (updTile s k f).marked = s.marked := rfl
@[simp] theorem updTile_routes (s : State) (k : Nat) (f : Tile → Tile) : (updTile s k f).routes = s.routes := rfl
@[simp] theorem updTile_dispRuns (s : State) (k : Nat) (f : Tile → Tile) : (updTile s k f).dispRuns = s.dispRuns := rfl
@[simp] theorem updTile_chips (s : State) (k : Nat) (f : Tile → Tile) : (updTile s k f).chips = s.chips := rfl
@[simp] theorem updTile_groups (s : State) (k : Nat) (f : Tile → Tile) : (updTile s k f).groups = s.groups := rfl
@[simp] theorem updTile_heldGroups (s : State) (k : Nat) (f : Tile → Tile) : (updTile s k f).heldGroups = s.heldGroups := rfl
@[simp] theorem updTile_updRuns (s : State) (k : Nat) (f : Tile → Tile) : (updTile s k f).updRuns = s.updRuns := rfl
@[simp] theorem updTile_rxt (s : State) (k : Nat) (f : Tile → Tile) : (updTile s k f).rxt = s.rxt := rfl
@[simp] theorem updTile_nodeRoute (s : State) (k : Nat) (f : Tile → Tile) : (updTile s k f).nodeRoute = s.nodeRoute := rfl
@[simp] theorem updTile_peerInc (s : State) (k : Nat) (f : Tile → Tile) : (updTile s k f).peerInc = s.peerInc := rfl
@[simp] theorem updTile_fabCfg (s : State) (k : Nat) (f : Tile → Tile) : (updTile s k f).fabCfg = s.fabCfg := rfl
@[simp] theorem updTile_ports (s : State) (k : Nat) (f : Tile → Tile) : (updTile s k f).ports = s.ports := rfl
@[simp] theorem updTile_remotes (s : State) (k : Nat) (f : Tile → Tile) : (updTile s k f).remotes = s.remotes := rfl
@[simp] theorem updTile_tagCtr (s : State) (k : Nat) (f : Tile → Tile) : (updTile s k f).tagCtr = s.tagCtr := rfl
@[simp] theorem updTile_jobs (s : State) (k : Nat) (f : Tile → Tile) : (updTile s k f).jobs = s.jobs := rfl
@[simp] theorem updTile_collRuns (s : State) (k : Nat) (f : Tile → Tile) : (updTile s k f).collRuns = s.collRuns := rfl
@[simp] theorem updTile_inbox (s : State) (k : Nat) (f : Tile → Tile) : (updTile s k f).inbox = s.inbox := rfl
@[simp] theorem updTile_outbox (s : State) (k : Nat) (f : Tile → Tile) : (updTile s k f).outbox = s.outbox := rfl
@[simp] theorem updTile_flits (s : State) (k : Nat) (f : Tile → Tile) : (updTile s k f).flits = s.flits := rfl
@[simp] theorem updTile_rehomed (s : State) (k : Nat) (f : Tile → Tile) : (updTile s k f).rehomed = s.rehomed := rfl
@[simp] theorem updTile_injections (s : State) (k : Nat) (f : Tile → Tile) : (updTile s k f).injections = s.injections := rfl
@[simp] theorem updTile_latents (s : State) (k : Nat) (f : Tile → Tile) : (updTile s k f).latents = s.latents := rfl
@[simp] theorem updTile_fraction (s : State) (k : Nat) (f : Tile → Tile) : (updTile s k f).fraction = s.fraction := rfl
@[simp] theorem updTile_islands (s : State) (k : Nat) (f : Tile → Tile) : (updTile s k f).islands = s.islands := rfl
@[simp] theorem updTile_repair (s : State) (k : Nat) (f : Tile → Tile) : (updTile s k f).repair = s.repair := rfl
@[simp] theorem updTile_bridge (s : State) (k : Nat) (f : Tile → Tile) : (updTile s k f).bridge = s.bridge := rfl
@[simp] theorem updTile_log0 (s : State) (k : Nat) (f : Tile → Tile) : (updTile s k f).log0 = s.log0 := rfl
@[simp] theorem updTile_log1 (s : State) (k : Nat) (f : Tile → Tile) : (updTile s k f).log1 = s.log1 := rfl
@[simp] theorem updTile_seq0 (s : State) (k : Nat) (f : Tile → Tile) : (updTile s k f).seq0 = s.seq0 := rfl
@[simp] theorem updTile_seq1 (s : State) (k : Nat) (f : Tile → Tile) : (updTile s k f).seq1 = s.seq1 := rfl
@[simp] theorem updTile_counters (s : State) (k : Nat) (f : Tile → Tile) : (updTile s k f).counters = s.counters := rfl
@[simp] theorem updTile_tempSeen (s : State) (k : Nat) (f : Tile → Tile) : (updTile s k f).tempSeen = s.tempSeen := rfl
@[simp] theorem updTile_patrol (s : State) (k : Nat) (f : Tile → Tile) : (updTile s k f).patrol = s.patrol := rfl
@[simp] theorem updTile_spareRows (s : State) (k : Nat) (f : Tile → Tile) : (updTile s k f).spareRows = s.spareRows := rfl
@[simp] theorem updTile_persist (s : State) (k : Nat) (f : Tile → Tile) : (updTile s k f).persist = s.persist := rfl
@[simp] theorem updTile_mgmt (s : State) (k : Nat) (f : Tile → Tile) : (updTile s k f).mgmt = s.mgmt := rfl
@[simp] theorem updTile_boot (s : State) (k : Nat) (f : Tile → Tile) : (updTile s k f).boot = s.boot := rfl
@[simp] theorem updTile_sovel (s : State) (k : Nat) (f : Tile → Tile) : (updTile s k f).sovel = s.sovel := rfl
@[simp] theorem updTile_power (s : State) (k : Nat) (f : Tile → Tile) : (updTile s k f).power = s.power := rfl
@[simp] theorem updTile_reply (s : State) (k : Nat) (f : Tile → Tile) : (updTile s k f).reply = s.reply := rfl

/-! ### setCtx -/

@[simp] theorem setCtx_pending (s : State) (k : Nat) (x : Ctx) : (setCtx s k x).pending = s.pending := rfl
@[simp] theorem setCtx_freeCtr (s : State) (k : Nat) (x : Ctx) : (setCtx s k x).freeCtr = s.freeCtr := rfl
@[simp] theorem setCtx_run (s : State) (k : Nat) (x : Ctx) : (setCtx s k x).run = s.run := rfl
@[simp] theorem setCtx_queues (s : State) (k : Nat) (x : Ctx) : (setCtx s k x).queues = s.queues := rfl
@[simp] theorem setCtx_waiting (s : State) (k : Nat) (x : Ctx) : (setCtx s k x).waiting = s.waiting := rfl
@[simp] theorem setCtx_bells (s : State) (k : Nat) (x : Ctx) : (setCtx s k x).bells = s.bells := rfl
@[simp] theorem setCtx_objs (s : State) (k : Nat) (x : Ctx) : (setCtx s k x).objs = s.objs := rfl
@[simp] theorem setCtx_objNext (s : State) (k : Nat) (x : Ctx) : (setCtx s k x).objNext = s.objNext := rfl
@[simp] theorem setCtx_objFreed (s : State) (k : Nat) (x : Ctx) : (setCtx s k x).objFreed = s.objFreed := rfl
@[simp] theorem setCtx_heaps (s : State) (k : Nat) (x : Ctx) : (setCtx s k x).heaps = s.heaps := rfl
@[simp] theorem setCtx_cmds (s : State) (k : Nat) (x : Ctx) : (setCtx s k x).cmds = s.cmds := rfl
@[simp] theorem setCtx_cmdCtr (s : State) (k : Nat) (x : Ctx) : (setCtx s k x).cmdCtr = s.cmdCtr := rfl
@[simp] theorem setCtx_doomed (s : State) (k : Nat) (x : Ctx) : (setCtx s k x).doomed = s.doomed := rfl
@[simp] theorem setCtx_rr (s : State) (k : Nat) (x : Ctx) : (setCtx s k x).rr = s.rr := rfl
@[simp] theorem setCtx_halts (s : State) (k : Nat) (x : Ctx) : (setCtx s k x).halts = s.halts := rfl
@[simp] theorem setCtx_launches (s : State) (k : Nat) (x : Ctx) : (setCtx s k x).launches = s.launches := rfl
@[simp] theorem setCtx_mem (s : State) (k : Nat) (x : Ctx) : (setCtx s k x).mem = s.mem := rfl
@[simp] theorem setCtx_poison (s : State) (k : Nat) (x : Ctx) : (setCtx s k x).poison = s.poison := rfl
@[simp] theorem setCtx_dead (s : State) (k : Nat) (x : Ctx) : (setCtx s k x).dead = s.dead := rfl
@[simp] theorem setCtx_retire (s : State) (k : Nat) (x : Ctx) : (setCtx s k x).retire = s.retire := rfl
@[simp] theorem setCtx_retired (s : State) (k : Nat) (x : Ctx) : (setCtx s k x).retired = s.retired := rfl
@[simp] theorem setCtx_xlats (s : State) (k : Nat) (x : Ctx) : (setCtx s k x).xlats = s.xlats := rfl
@[simp] theorem setCtx_oldPtes (s : State) (k : Nat) (x : Ctx) : (setCtx s k x).oldPtes = s.oldPtes := rfl
@[simp] theorem setCtx_invals (s : State) (k : Nat) (x : Ctx) : (setCtx s k x).invals = s.invals := rfl
@[simp] theorem setCtx_pteCtr (s : State) (k : Nat) (x : Ctx) : (setCtx s k x).pteCtr = s.pteCtr := rfl
@[simp] theorem setCtx_hashKey (s : State) (k : Nat) (x : Ctx) : (setCtx s k x).hashKey = s.hashKey := rfl
@[simp] theorem setCtx_lines (s : State) (k : Nat) (x : Ctx) : (setCtx s k x).lines = s.lines := rfl
@[simp] theorem setCtx_fills (s : State) (k : Nat) (x : Ctx) : (setCtx s k x).fills = s.fills := rfl
@[simp] theorem setCtx_epochs (s : State) (k : Nat) (x : Ctx) : (setCtx s k x).epochs = s.epochs := rfl
@[simp] theorem setCtx_lastEpoch (s : State) (k : Nat) (x : Ctx) : (setCtx s k x).lastEpoch = s.lastEpoch := rfl
@[simp] theorem setCtx_redBufs (s : State) (k : Nat) (x : Ctx) : (setCtx s k x).redBufs = s.redBufs := rfl
@[simp] theorem setCtx_addBufs (s : State) (k : Nat) (x : Ctx) : (setCtx s k x).addBufs = s.addBufs := rfl
@[simp] theorem setCtx_nexts (s : State) (k : Nat) (x : Ctx) : (setCtx s k x).nexts = s.nexts := rfl
@[simp] theorem setCtx_turns (s : State) (k : Nat) (x : Ctx) : (setCtx s k x).turns = s.turns := rfl
@[simp] theorem setCtx_misses (s : State) (k : Nat) (x : Ctx) : (setCtx s k x).misses = s.misses := rfl
@[simp] theorem setCtx_bankQ (s : State) (k : Nat) (x : Ctx) : (setCtx s k x).bankQ = s.bankQ := rfl
@[simp] theorem setCtx_refused (s : State) (k : Nat) (x : Ctx) : (setCtx s k x).refused = s.refused := rfl
@[simp] theorem setCtx_reqCtr (s : State) (k : Nat) (x : Ctx) : (setCtx s k x).reqCtr = s.reqCtr := rfl
@[simp] theorem setCtx_credits (s : State) (k : Nat) (x : Ctx) : (setCtx s k x).credits = s.credits := rfl
@[simp] theorem setCtx_chanTurn (s : State) (k : Nat) (x : Ctx) : (setCtx s k x).chanTurn = s.chanTurn := rfl
@[simp] theorem setCtx_parts (s : State) (k : Nat) (x : Ctx) : (setCtx s k x).parts = s.parts := rfl
@[simp] theorem setCtx_staged (s : State) (k : Nat) (x : Ctx) : (setCtx s k x).staged = s.staged := rfl
@[simp] theorem setCtx_pcbNext (s : State) (k : Nat) (x : Ctx) : (setCtx s k x).pcbNext = s.pcbNext := rfl
@[simp] theorem setCtx_pcbLast (s : State) (k : Nat) (x : Ctx) : (setCtx s k x).pcbLast = s.pcbLast := rfl
@[simp] theorem setCtx_pcbResult (s : State) (k : Nat) (x : Ctx) : (setCtx s k x).pcbResult = s.pcbResult := rfl
@[simp] theorem setCtx_tiles (s : State) (k : Nat) (x : Ctx) : (setCtx s k x).tiles = s.tiles := rfl
@[simp] theorem setCtx_map0 (s : State) (k : Nat) (x : Ctx) : (setCtx s k x).map0 = s.map0 := rfl
@[simp] theorem setCtx_map1 (s : State) (k : Nat) (x : Ctx) : (setCtx s k x).map1 = s.map1 := rfl
@[simp] theorem setCtx_spares0 (s : State) (k : Nat) (x : Ctx) : (setCtx s k x).spares0 = s.spares0 := rfl
@[simp] theorem setCtx_spares1 (s : State) (k : Nat) (x : Ctx) : (setCtx s k x).spares1 = s.spares1 := rfl
@[simp] theorem setCtx_marked (s : State) (k : Nat) (x : Ctx) : (setCtx s k x).marked = s.marked := rfl
@[simp] theorem setCtx_routes (s : State) (k : Nat) (x : Ctx) : (setCtx s k x).routes = s.routes := rfl
@[simp] theorem setCtx_dispRuns (s : State) (k : Nat) (x : Ctx) : (setCtx s k x).dispRuns = s.dispRuns := rfl
@[simp] theorem setCtx_chips (s : State) (k : Nat) (x : Ctx) : (setCtx s k x).chips = s.chips := rfl
@[simp] theorem setCtx_groups (s : State) (k : Nat) (x : Ctx) : (setCtx s k x).groups = s.groups := rfl
@[simp] theorem setCtx_heldGroups (s : State) (k : Nat) (x : Ctx) : (setCtx s k x).heldGroups = s.heldGroups := rfl
@[simp] theorem setCtx_updRuns (s : State) (k : Nat) (x : Ctx) : (setCtx s k x).updRuns = s.updRuns := rfl
@[simp] theorem setCtx_rxt (s : State) (k : Nat) (x : Ctx) : (setCtx s k x).rxt = s.rxt := rfl
@[simp] theorem setCtx_nodeRoute (s : State) (k : Nat) (x : Ctx) : (setCtx s k x).nodeRoute = s.nodeRoute := rfl
@[simp] theorem setCtx_peerInc (s : State) (k : Nat) (x : Ctx) : (setCtx s k x).peerInc = s.peerInc := rfl
@[simp] theorem setCtx_fabCfg (s : State) (k : Nat) (x : Ctx) : (setCtx s k x).fabCfg = s.fabCfg := rfl
@[simp] theorem setCtx_ports (s : State) (k : Nat) (x : Ctx) : (setCtx s k x).ports = s.ports := rfl
@[simp] theorem setCtx_remotes (s : State) (k : Nat) (x : Ctx) : (setCtx s k x).remotes = s.remotes := rfl
@[simp] theorem setCtx_tagCtr (s : State) (k : Nat) (x : Ctx) : (setCtx s k x).tagCtr = s.tagCtr := rfl
@[simp] theorem setCtx_jobs (s : State) (k : Nat) (x : Ctx) : (setCtx s k x).jobs = s.jobs := rfl
@[simp] theorem setCtx_collRuns (s : State) (k : Nat) (x : Ctx) : (setCtx s k x).collRuns = s.collRuns := rfl
@[simp] theorem setCtx_inbox (s : State) (k : Nat) (x : Ctx) : (setCtx s k x).inbox = s.inbox := rfl
@[simp] theorem setCtx_outbox (s : State) (k : Nat) (x : Ctx) : (setCtx s k x).outbox = s.outbox := rfl
@[simp] theorem setCtx_flits (s : State) (k : Nat) (x : Ctx) : (setCtx s k x).flits = s.flits := rfl
@[simp] theorem setCtx_rehomed (s : State) (k : Nat) (x : Ctx) : (setCtx s k x).rehomed = s.rehomed := rfl
@[simp] theorem setCtx_injections (s : State) (k : Nat) (x : Ctx) : (setCtx s k x).injections = s.injections := rfl
@[simp] theorem setCtx_latents (s : State) (k : Nat) (x : Ctx) : (setCtx s k x).latents = s.latents := rfl
@[simp] theorem setCtx_fraction (s : State) (k : Nat) (x : Ctx) : (setCtx s k x).fraction = s.fraction := rfl
@[simp] theorem setCtx_islands (s : State) (k : Nat) (x : Ctx) : (setCtx s k x).islands = s.islands := rfl
@[simp] theorem setCtx_repair (s : State) (k : Nat) (x : Ctx) : (setCtx s k x).repair = s.repair := rfl
@[simp] theorem setCtx_bridge (s : State) (k : Nat) (x : Ctx) : (setCtx s k x).bridge = s.bridge := rfl
@[simp] theorem setCtx_log0 (s : State) (k : Nat) (x : Ctx) : (setCtx s k x).log0 = s.log0 := rfl
@[simp] theorem setCtx_log1 (s : State) (k : Nat) (x : Ctx) : (setCtx s k x).log1 = s.log1 := rfl
@[simp] theorem setCtx_seq0 (s : State) (k : Nat) (x : Ctx) : (setCtx s k x).seq0 = s.seq0 := rfl
@[simp] theorem setCtx_seq1 (s : State) (k : Nat) (x : Ctx) : (setCtx s k x).seq1 = s.seq1 := rfl
@[simp] theorem setCtx_counters (s : State) (k : Nat) (x : Ctx) : (setCtx s k x).counters = s.counters := rfl
@[simp] theorem setCtx_tempSeen (s : State) (k : Nat) (x : Ctx) : (setCtx s k x).tempSeen = s.tempSeen := rfl
@[simp] theorem setCtx_patrol (s : State) (k : Nat) (x : Ctx) : (setCtx s k x).patrol = s.patrol := rfl
@[simp] theorem setCtx_spareRows (s : State) (k : Nat) (x : Ctx) : (setCtx s k x).spareRows = s.spareRows := rfl
@[simp] theorem setCtx_persist (s : State) (k : Nat) (x : Ctx) : (setCtx s k x).persist = s.persist := rfl
@[simp] theorem setCtx_mgmt (s : State) (k : Nat) (x : Ctx) : (setCtx s k x).mgmt = s.mgmt := rfl
@[simp] theorem setCtx_boot (s : State) (k : Nat) (x : Ctx) : (setCtx s k x).boot = s.boot := rfl
@[simp] theorem setCtx_sovel (s : State) (k : Nat) (x : Ctx) : (setCtx s k x).sovel = s.sovel := rfl
@[simp] theorem setCtx_power (s : State) (k : Nat) (x : Ctx) : (setCtx s k x).power = s.power := rfl
@[simp] theorem setCtx_reply (s : State) (k : Nat) (x : Ctx) : (setCtx s k x).reply = s.reply := rfl

/-! ### updCtx -/

@[simp] theorem updCtx_pending (s : State) (k : Nat) (f : Ctx → Ctx) : (updCtx s k f).pending = s.pending := rfl
@[simp] theorem updCtx_freeCtr (s : State) (k : Nat) (f : Ctx → Ctx) : (updCtx s k f).freeCtr = s.freeCtr := rfl
@[simp] theorem updCtx_run (s : State) (k : Nat) (f : Ctx → Ctx) : (updCtx s k f).run = s.run := rfl
@[simp] theorem updCtx_queues (s : State) (k : Nat) (f : Ctx → Ctx) : (updCtx s k f).queues = s.queues := rfl
@[simp] theorem updCtx_waiting (s : State) (k : Nat) (f : Ctx → Ctx) : (updCtx s k f).waiting = s.waiting := rfl
@[simp] theorem updCtx_bells (s : State) (k : Nat) (f : Ctx → Ctx) : (updCtx s k f).bells = s.bells := rfl
@[simp] theorem updCtx_objs (s : State) (k : Nat) (f : Ctx → Ctx) : (updCtx s k f).objs = s.objs := rfl
@[simp] theorem updCtx_objNext (s : State) (k : Nat) (f : Ctx → Ctx) : (updCtx s k f).objNext = s.objNext := rfl
@[simp] theorem updCtx_objFreed (s : State) (k : Nat) (f : Ctx → Ctx) : (updCtx s k f).objFreed = s.objFreed := rfl
@[simp] theorem updCtx_heaps (s : State) (k : Nat) (f : Ctx → Ctx) : (updCtx s k f).heaps = s.heaps := rfl
@[simp] theorem updCtx_cmds (s : State) (k : Nat) (f : Ctx → Ctx) : (updCtx s k f).cmds = s.cmds := rfl
@[simp] theorem updCtx_cmdCtr (s : State) (k : Nat) (f : Ctx → Ctx) : (updCtx s k f).cmdCtr = s.cmdCtr := rfl
@[simp] theorem updCtx_doomed (s : State) (k : Nat) (f : Ctx → Ctx) : (updCtx s k f).doomed = s.doomed := rfl
@[simp] theorem updCtx_rr (s : State) (k : Nat) (f : Ctx → Ctx) : (updCtx s k f).rr = s.rr := rfl
@[simp] theorem updCtx_halts (s : State) (k : Nat) (f : Ctx → Ctx) : (updCtx s k f).halts = s.halts := rfl
@[simp] theorem updCtx_launches (s : State) (k : Nat) (f : Ctx → Ctx) : (updCtx s k f).launches = s.launches := rfl
@[simp] theorem updCtx_mem (s : State) (k : Nat) (f : Ctx → Ctx) : (updCtx s k f).mem = s.mem := rfl
@[simp] theorem updCtx_poison (s : State) (k : Nat) (f : Ctx → Ctx) : (updCtx s k f).poison = s.poison := rfl
@[simp] theorem updCtx_dead (s : State) (k : Nat) (f : Ctx → Ctx) : (updCtx s k f).dead = s.dead := rfl
@[simp] theorem updCtx_retire (s : State) (k : Nat) (f : Ctx → Ctx) : (updCtx s k f).retire = s.retire := rfl
@[simp] theorem updCtx_retired (s : State) (k : Nat) (f : Ctx → Ctx) : (updCtx s k f).retired = s.retired := rfl
@[simp] theorem updCtx_xlats (s : State) (k : Nat) (f : Ctx → Ctx) : (updCtx s k f).xlats = s.xlats := rfl
@[simp] theorem updCtx_oldPtes (s : State) (k : Nat) (f : Ctx → Ctx) : (updCtx s k f).oldPtes = s.oldPtes := rfl
@[simp] theorem updCtx_invals (s : State) (k : Nat) (f : Ctx → Ctx) : (updCtx s k f).invals = s.invals := rfl
@[simp] theorem updCtx_pteCtr (s : State) (k : Nat) (f : Ctx → Ctx) : (updCtx s k f).pteCtr = s.pteCtr := rfl
@[simp] theorem updCtx_hashKey (s : State) (k : Nat) (f : Ctx → Ctx) : (updCtx s k f).hashKey = s.hashKey := rfl
@[simp] theorem updCtx_lines (s : State) (k : Nat) (f : Ctx → Ctx) : (updCtx s k f).lines = s.lines := rfl
@[simp] theorem updCtx_fills (s : State) (k : Nat) (f : Ctx → Ctx) : (updCtx s k f).fills = s.fills := rfl
@[simp] theorem updCtx_epochs (s : State) (k : Nat) (f : Ctx → Ctx) : (updCtx s k f).epochs = s.epochs := rfl
@[simp] theorem updCtx_lastEpoch (s : State) (k : Nat) (f : Ctx → Ctx) : (updCtx s k f).lastEpoch = s.lastEpoch := rfl
@[simp] theorem updCtx_redBufs (s : State) (k : Nat) (f : Ctx → Ctx) : (updCtx s k f).redBufs = s.redBufs := rfl
@[simp] theorem updCtx_addBufs (s : State) (k : Nat) (f : Ctx → Ctx) : (updCtx s k f).addBufs = s.addBufs := rfl
@[simp] theorem updCtx_nexts (s : State) (k : Nat) (f : Ctx → Ctx) : (updCtx s k f).nexts = s.nexts := rfl
@[simp] theorem updCtx_turns (s : State) (k : Nat) (f : Ctx → Ctx) : (updCtx s k f).turns = s.turns := rfl
@[simp] theorem updCtx_misses (s : State) (k : Nat) (f : Ctx → Ctx) : (updCtx s k f).misses = s.misses := rfl
@[simp] theorem updCtx_bankQ (s : State) (k : Nat) (f : Ctx → Ctx) : (updCtx s k f).bankQ = s.bankQ := rfl
@[simp] theorem updCtx_refused (s : State) (k : Nat) (f : Ctx → Ctx) : (updCtx s k f).refused = s.refused := rfl
@[simp] theorem updCtx_reqCtr (s : State) (k : Nat) (f : Ctx → Ctx) : (updCtx s k f).reqCtr = s.reqCtr := rfl
@[simp] theorem updCtx_credits (s : State) (k : Nat) (f : Ctx → Ctx) : (updCtx s k f).credits = s.credits := rfl
@[simp] theorem updCtx_chanTurn (s : State) (k : Nat) (f : Ctx → Ctx) : (updCtx s k f).chanTurn = s.chanTurn := rfl
@[simp] theorem updCtx_parts (s : State) (k : Nat) (f : Ctx → Ctx) : (updCtx s k f).parts = s.parts := rfl
@[simp] theorem updCtx_staged (s : State) (k : Nat) (f : Ctx → Ctx) : (updCtx s k f).staged = s.staged := rfl
@[simp] theorem updCtx_pcbNext (s : State) (k : Nat) (f : Ctx → Ctx) : (updCtx s k f).pcbNext = s.pcbNext := rfl
@[simp] theorem updCtx_pcbLast (s : State) (k : Nat) (f : Ctx → Ctx) : (updCtx s k f).pcbLast = s.pcbLast := rfl
@[simp] theorem updCtx_pcbResult (s : State) (k : Nat) (f : Ctx → Ctx) : (updCtx s k f).pcbResult = s.pcbResult := rfl
@[simp] theorem updCtx_tiles (s : State) (k : Nat) (f : Ctx → Ctx) : (updCtx s k f).tiles = s.tiles := rfl
@[simp] theorem updCtx_map0 (s : State) (k : Nat) (f : Ctx → Ctx) : (updCtx s k f).map0 = s.map0 := rfl
@[simp] theorem updCtx_map1 (s : State) (k : Nat) (f : Ctx → Ctx) : (updCtx s k f).map1 = s.map1 := rfl
@[simp] theorem updCtx_spares0 (s : State) (k : Nat) (f : Ctx → Ctx) : (updCtx s k f).spares0 = s.spares0 := rfl
@[simp] theorem updCtx_spares1 (s : State) (k : Nat) (f : Ctx → Ctx) : (updCtx s k f).spares1 = s.spares1 := rfl
@[simp] theorem updCtx_marked (s : State) (k : Nat) (f : Ctx → Ctx) : (updCtx s k f).marked = s.marked := rfl
@[simp] theorem updCtx_routes (s : State) (k : Nat) (f : Ctx → Ctx) : (updCtx s k f).routes = s.routes := rfl
@[simp] theorem updCtx_dispRuns (s : State) (k : Nat) (f : Ctx → Ctx) : (updCtx s k f).dispRuns = s.dispRuns := rfl
@[simp] theorem updCtx_chips (s : State) (k : Nat) (f : Ctx → Ctx) : (updCtx s k f).chips = s.chips := rfl
@[simp] theorem updCtx_groups (s : State) (k : Nat) (f : Ctx → Ctx) : (updCtx s k f).groups = s.groups := rfl
@[simp] theorem updCtx_heldGroups (s : State) (k : Nat) (f : Ctx → Ctx) : (updCtx s k f).heldGroups = s.heldGroups := rfl
@[simp] theorem updCtx_updRuns (s : State) (k : Nat) (f : Ctx → Ctx) : (updCtx s k f).updRuns = s.updRuns := rfl
@[simp] theorem updCtx_rxt (s : State) (k : Nat) (f : Ctx → Ctx) : (updCtx s k f).rxt = s.rxt := rfl
@[simp] theorem updCtx_nodeRoute (s : State) (k : Nat) (f : Ctx → Ctx) : (updCtx s k f).nodeRoute = s.nodeRoute := rfl
@[simp] theorem updCtx_peerInc (s : State) (k : Nat) (f : Ctx → Ctx) : (updCtx s k f).peerInc = s.peerInc := rfl
@[simp] theorem updCtx_fabCfg (s : State) (k : Nat) (f : Ctx → Ctx) : (updCtx s k f).fabCfg = s.fabCfg := rfl
@[simp] theorem updCtx_ports (s : State) (k : Nat) (f : Ctx → Ctx) : (updCtx s k f).ports = s.ports := rfl
@[simp] theorem updCtx_remotes (s : State) (k : Nat) (f : Ctx → Ctx) : (updCtx s k f).remotes = s.remotes := rfl
@[simp] theorem updCtx_tagCtr (s : State) (k : Nat) (f : Ctx → Ctx) : (updCtx s k f).tagCtr = s.tagCtr := rfl
@[simp] theorem updCtx_jobs (s : State) (k : Nat) (f : Ctx → Ctx) : (updCtx s k f).jobs = s.jobs := rfl
@[simp] theorem updCtx_collRuns (s : State) (k : Nat) (f : Ctx → Ctx) : (updCtx s k f).collRuns = s.collRuns := rfl
@[simp] theorem updCtx_inbox (s : State) (k : Nat) (f : Ctx → Ctx) : (updCtx s k f).inbox = s.inbox := rfl
@[simp] theorem updCtx_outbox (s : State) (k : Nat) (f : Ctx → Ctx) : (updCtx s k f).outbox = s.outbox := rfl
@[simp] theorem updCtx_flits (s : State) (k : Nat) (f : Ctx → Ctx) : (updCtx s k f).flits = s.flits := rfl
@[simp] theorem updCtx_rehomed (s : State) (k : Nat) (f : Ctx → Ctx) : (updCtx s k f).rehomed = s.rehomed := rfl
@[simp] theorem updCtx_injections (s : State) (k : Nat) (f : Ctx → Ctx) : (updCtx s k f).injections = s.injections := rfl
@[simp] theorem updCtx_latents (s : State) (k : Nat) (f : Ctx → Ctx) : (updCtx s k f).latents = s.latents := rfl
@[simp] theorem updCtx_fraction (s : State) (k : Nat) (f : Ctx → Ctx) : (updCtx s k f).fraction = s.fraction := rfl
@[simp] theorem updCtx_islands (s : State) (k : Nat) (f : Ctx → Ctx) : (updCtx s k f).islands = s.islands := rfl
@[simp] theorem updCtx_repair (s : State) (k : Nat) (f : Ctx → Ctx) : (updCtx s k f).repair = s.repair := rfl
@[simp] theorem updCtx_bridge (s : State) (k : Nat) (f : Ctx → Ctx) : (updCtx s k f).bridge = s.bridge := rfl
@[simp] theorem updCtx_log0 (s : State) (k : Nat) (f : Ctx → Ctx) : (updCtx s k f).log0 = s.log0 := rfl
@[simp] theorem updCtx_log1 (s : State) (k : Nat) (f : Ctx → Ctx) : (updCtx s k f).log1 = s.log1 := rfl
@[simp] theorem updCtx_seq0 (s : State) (k : Nat) (f : Ctx → Ctx) : (updCtx s k f).seq0 = s.seq0 := rfl
@[simp] theorem updCtx_seq1 (s : State) (k : Nat) (f : Ctx → Ctx) : (updCtx s k f).seq1 = s.seq1 := rfl
@[simp] theorem updCtx_counters (s : State) (k : Nat) (f : Ctx → Ctx) : (updCtx s k f).counters = s.counters := rfl
@[simp] theorem updCtx_tempSeen (s : State) (k : Nat) (f : Ctx → Ctx) : (updCtx s k f).tempSeen = s.tempSeen := rfl
@[simp] theorem updCtx_patrol (s : State) (k : Nat) (f : Ctx → Ctx) : (updCtx s k f).patrol = s.patrol := rfl
@[simp] theorem updCtx_spareRows (s : State) (k : Nat) (f : Ctx → Ctx) : (updCtx s k f).spareRows = s.spareRows := rfl
@[simp] theorem updCtx_persist (s : State) (k : Nat) (f : Ctx → Ctx) : (updCtx s k f).persist = s.persist := rfl
@[simp] theorem updCtx_mgmt (s : State) (k : Nat) (f : Ctx → Ctx) : (updCtx s k f).mgmt = s.mgmt := rfl
@[simp] theorem updCtx_boot (s : State) (k : Nat) (f : Ctx → Ctx) : (updCtx s k f).boot = s.boot := rfl
@[simp] theorem updCtx_sovel (s : State) (k : Nat) (f : Ctx → Ctx) : (updCtx s k f).sovel = s.sovel := rfl
@[simp] theorem updCtx_power (s : State) (k : Nat) (f : Ctx → Ctx) : (updCtx s k f).power = s.power := rfl
@[simp] theorem updCtx_reply (s : State) (k : Nat) (f : Ctx → Ctx) : (updCtx s k f).reply = s.reply := rfl

/-! ### setQueue -/

@[simp] theorem setQueue_pending (s : State) (c q : Nat) (x : Queue) : (setQueue s c q x).pending = s.pending := rfl
@[simp] theorem setQueue_freeCtr (s : State) (c q : Nat) (x : Queue) : (setQueue s c q x).freeCtr = s.freeCtr := rfl
@[simp] theorem setQueue_run (s : State) (c q : Nat) (x : Queue) : (setQueue s c q x).run = s.run := rfl
@[simp] theorem setQueue_ctxs (s : State) (c q : Nat) (x : Queue) : (setQueue s c q x).ctxs = s.ctxs := rfl
@[simp] theorem setQueue_waiting (s : State) (c q : Nat) (x : Queue) : (setQueue s c q x).waiting = s.waiting := rfl
@[simp] theorem setQueue_bells (s : State) (c q : Nat) (x : Queue) : (setQueue s c q x).bells = s.bells := rfl
@[simp] theorem setQueue_objs (s : State) (c q : Nat) (x : Queue) : (setQueue s c q x).objs = s.objs := rfl
@[simp] theorem setQueue_objNext (s : State) (c q : Nat) (x : Queue) : (setQueue s c q x).objNext = s.objNext := rfl
@[simp] theorem setQueue_objFreed (s : State) (c q : Nat) (x : Queue) : (setQueue s c q x).objFreed = s.objFreed := rfl
@[simp] theorem setQueue_heaps (s : State) (c q : Nat) (x : Queue) : (setQueue s c q x).heaps = s.heaps := rfl
@[simp] theorem setQueue_cmds (s : State) (c q : Nat) (x : Queue) : (setQueue s c q x).cmds = s.cmds := rfl
@[simp] theorem setQueue_cmdCtr (s : State) (c q : Nat) (x : Queue) : (setQueue s c q x).cmdCtr = s.cmdCtr := rfl
@[simp] theorem setQueue_doomed (s : State) (c q : Nat) (x : Queue) : (setQueue s c q x).doomed = s.doomed := rfl
@[simp] theorem setQueue_rr (s : State) (c q : Nat) (x : Queue) : (setQueue s c q x).rr = s.rr := rfl
@[simp] theorem setQueue_halts (s : State) (c q : Nat) (x : Queue) : (setQueue s c q x).halts = s.halts := rfl
@[simp] theorem setQueue_launches (s : State) (c q : Nat) (x : Queue) : (setQueue s c q x).launches = s.launches := rfl
@[simp] theorem setQueue_mem (s : State) (c q : Nat) (x : Queue) : (setQueue s c q x).mem = s.mem := rfl
@[simp] theorem setQueue_poison (s : State) (c q : Nat) (x : Queue) : (setQueue s c q x).poison = s.poison := rfl
@[simp] theorem setQueue_dead (s : State) (c q : Nat) (x : Queue) : (setQueue s c q x).dead = s.dead := rfl
@[simp] theorem setQueue_retire (s : State) (c q : Nat) (x : Queue) : (setQueue s c q x).retire = s.retire := rfl
@[simp] theorem setQueue_retired (s : State) (c q : Nat) (x : Queue) : (setQueue s c q x).retired = s.retired := rfl
@[simp] theorem setQueue_xlats (s : State) (c q : Nat) (x : Queue) : (setQueue s c q x).xlats = s.xlats := rfl
@[simp] theorem setQueue_oldPtes (s : State) (c q : Nat) (x : Queue) : (setQueue s c q x).oldPtes = s.oldPtes := rfl
@[simp] theorem setQueue_invals (s : State) (c q : Nat) (x : Queue) : (setQueue s c q x).invals = s.invals := rfl
@[simp] theorem setQueue_pteCtr (s : State) (c q : Nat) (x : Queue) : (setQueue s c q x).pteCtr = s.pteCtr := rfl
@[simp] theorem setQueue_hashKey (s : State) (c q : Nat) (x : Queue) : (setQueue s c q x).hashKey = s.hashKey := rfl
@[simp] theorem setQueue_lines (s : State) (c q : Nat) (x : Queue) : (setQueue s c q x).lines = s.lines := rfl
@[simp] theorem setQueue_fills (s : State) (c q : Nat) (x : Queue) : (setQueue s c q x).fills = s.fills := rfl
@[simp] theorem setQueue_epochs (s : State) (c q : Nat) (x : Queue) : (setQueue s c q x).epochs = s.epochs := rfl
@[simp] theorem setQueue_lastEpoch (s : State) (c q : Nat) (x : Queue) : (setQueue s c q x).lastEpoch = s.lastEpoch := rfl
@[simp] theorem setQueue_redBufs (s : State) (c q : Nat) (x : Queue) : (setQueue s c q x).redBufs = s.redBufs := rfl
@[simp] theorem setQueue_addBufs (s : State) (c q : Nat) (x : Queue) : (setQueue s c q x).addBufs = s.addBufs := rfl
@[simp] theorem setQueue_nexts (s : State) (c q : Nat) (x : Queue) : (setQueue s c q x).nexts = s.nexts := rfl
@[simp] theorem setQueue_turns (s : State) (c q : Nat) (x : Queue) : (setQueue s c q x).turns = s.turns := rfl
@[simp] theorem setQueue_misses (s : State) (c q : Nat) (x : Queue) : (setQueue s c q x).misses = s.misses := rfl
@[simp] theorem setQueue_bankQ (s : State) (c q : Nat) (x : Queue) : (setQueue s c q x).bankQ = s.bankQ := rfl
@[simp] theorem setQueue_refused (s : State) (c q : Nat) (x : Queue) : (setQueue s c q x).refused = s.refused := rfl
@[simp] theorem setQueue_reqCtr (s : State) (c q : Nat) (x : Queue) : (setQueue s c q x).reqCtr = s.reqCtr := rfl
@[simp] theorem setQueue_credits (s : State) (c q : Nat) (x : Queue) : (setQueue s c q x).credits = s.credits := rfl
@[simp] theorem setQueue_chanTurn (s : State) (c q : Nat) (x : Queue) : (setQueue s c q x).chanTurn = s.chanTurn := rfl
@[simp] theorem setQueue_parts (s : State) (c q : Nat) (x : Queue) : (setQueue s c q x).parts = s.parts := rfl
@[simp] theorem setQueue_staged (s : State) (c q : Nat) (x : Queue) : (setQueue s c q x).staged = s.staged := rfl
@[simp] theorem setQueue_pcbNext (s : State) (c q : Nat) (x : Queue) : (setQueue s c q x).pcbNext = s.pcbNext := rfl
@[simp] theorem setQueue_pcbLast (s : State) (c q : Nat) (x : Queue) : (setQueue s c q x).pcbLast = s.pcbLast := rfl
@[simp] theorem setQueue_pcbResult (s : State) (c q : Nat) (x : Queue) : (setQueue s c q x).pcbResult = s.pcbResult := rfl
@[simp] theorem setQueue_tiles (s : State) (c q : Nat) (x : Queue) : (setQueue s c q x).tiles = s.tiles := rfl
@[simp] theorem setQueue_map0 (s : State) (c q : Nat) (x : Queue) : (setQueue s c q x).map0 = s.map0 := rfl
@[simp] theorem setQueue_map1 (s : State) (c q : Nat) (x : Queue) : (setQueue s c q x).map1 = s.map1 := rfl
@[simp] theorem setQueue_spares0 (s : State) (c q : Nat) (x : Queue) : (setQueue s c q x).spares0 = s.spares0 := rfl
@[simp] theorem setQueue_spares1 (s : State) (c q : Nat) (x : Queue) : (setQueue s c q x).spares1 = s.spares1 := rfl
@[simp] theorem setQueue_marked (s : State) (c q : Nat) (x : Queue) : (setQueue s c q x).marked = s.marked := rfl
@[simp] theorem setQueue_routes (s : State) (c q : Nat) (x : Queue) : (setQueue s c q x).routes = s.routes := rfl
@[simp] theorem setQueue_dispRuns (s : State) (c q : Nat) (x : Queue) : (setQueue s c q x).dispRuns = s.dispRuns := rfl
@[simp] theorem setQueue_chips (s : State) (c q : Nat) (x : Queue) : (setQueue s c q x).chips = s.chips := rfl
@[simp] theorem setQueue_groups (s : State) (c q : Nat) (x : Queue) : (setQueue s c q x).groups = s.groups := rfl
@[simp] theorem setQueue_heldGroups (s : State) (c q : Nat) (x : Queue) : (setQueue s c q x).heldGroups = s.heldGroups := rfl
@[simp] theorem setQueue_updRuns (s : State) (c q : Nat) (x : Queue) : (setQueue s c q x).updRuns = s.updRuns := rfl
@[simp] theorem setQueue_rxt (s : State) (c q : Nat) (x : Queue) : (setQueue s c q x).rxt = s.rxt := rfl
@[simp] theorem setQueue_nodeRoute (s : State) (c q : Nat) (x : Queue) : (setQueue s c q x).nodeRoute = s.nodeRoute := rfl
@[simp] theorem setQueue_peerInc (s : State) (c q : Nat) (x : Queue) : (setQueue s c q x).peerInc = s.peerInc := rfl
@[simp] theorem setQueue_fabCfg (s : State) (c q : Nat) (x : Queue) : (setQueue s c q x).fabCfg = s.fabCfg := rfl
@[simp] theorem setQueue_ports (s : State) (c q : Nat) (x : Queue) : (setQueue s c q x).ports = s.ports := rfl
@[simp] theorem setQueue_remotes (s : State) (c q : Nat) (x : Queue) : (setQueue s c q x).remotes = s.remotes := rfl
@[simp] theorem setQueue_tagCtr (s : State) (c q : Nat) (x : Queue) : (setQueue s c q x).tagCtr = s.tagCtr := rfl
@[simp] theorem setQueue_jobs (s : State) (c q : Nat) (x : Queue) : (setQueue s c q x).jobs = s.jobs := rfl
@[simp] theorem setQueue_collRuns (s : State) (c q : Nat) (x : Queue) : (setQueue s c q x).collRuns = s.collRuns := rfl
@[simp] theorem setQueue_inbox (s : State) (c q : Nat) (x : Queue) : (setQueue s c q x).inbox = s.inbox := rfl
@[simp] theorem setQueue_outbox (s : State) (c q : Nat) (x : Queue) : (setQueue s c q x).outbox = s.outbox := rfl
@[simp] theorem setQueue_flits (s : State) (c q : Nat) (x : Queue) : (setQueue s c q x).flits = s.flits := rfl
@[simp] theorem setQueue_rehomed (s : State) (c q : Nat) (x : Queue) : (setQueue s c q x).rehomed = s.rehomed := rfl
@[simp] theorem setQueue_injections (s : State) (c q : Nat) (x : Queue) : (setQueue s c q x).injections = s.injections := rfl
@[simp] theorem setQueue_latents (s : State) (c q : Nat) (x : Queue) : (setQueue s c q x).latents = s.latents := rfl
@[simp] theorem setQueue_fraction (s : State) (c q : Nat) (x : Queue) : (setQueue s c q x).fraction = s.fraction := rfl
@[simp] theorem setQueue_islands (s : State) (c q : Nat) (x : Queue) : (setQueue s c q x).islands = s.islands := rfl
@[simp] theorem setQueue_repair (s : State) (c q : Nat) (x : Queue) : (setQueue s c q x).repair = s.repair := rfl
@[simp] theorem setQueue_bridge (s : State) (c q : Nat) (x : Queue) : (setQueue s c q x).bridge = s.bridge := rfl
@[simp] theorem setQueue_log0 (s : State) (c q : Nat) (x : Queue) : (setQueue s c q x).log0 = s.log0 := rfl
@[simp] theorem setQueue_log1 (s : State) (c q : Nat) (x : Queue) : (setQueue s c q x).log1 = s.log1 := rfl
@[simp] theorem setQueue_seq0 (s : State) (c q : Nat) (x : Queue) : (setQueue s c q x).seq0 = s.seq0 := rfl
@[simp] theorem setQueue_seq1 (s : State) (c q : Nat) (x : Queue) : (setQueue s c q x).seq1 = s.seq1 := rfl
@[simp] theorem setQueue_counters (s : State) (c q : Nat) (x : Queue) : (setQueue s c q x).counters = s.counters := rfl
@[simp] theorem setQueue_tempSeen (s : State) (c q : Nat) (x : Queue) : (setQueue s c q x).tempSeen = s.tempSeen := rfl
@[simp] theorem setQueue_patrol (s : State) (c q : Nat) (x : Queue) : (setQueue s c q x).patrol = s.patrol := rfl
@[simp] theorem setQueue_spareRows (s : State) (c q : Nat) (x : Queue) : (setQueue s c q x).spareRows = s.spareRows := rfl
@[simp] theorem setQueue_persist (s : State) (c q : Nat) (x : Queue) : (setQueue s c q x).persist = s.persist := rfl
@[simp] theorem setQueue_mgmt (s : State) (c q : Nat) (x : Queue) : (setQueue s c q x).mgmt = s.mgmt := rfl
@[simp] theorem setQueue_boot (s : State) (c q : Nat) (x : Queue) : (setQueue s c q x).boot = s.boot := rfl
@[simp] theorem setQueue_sovel (s : State) (c q : Nat) (x : Queue) : (setQueue s c q x).sovel = s.sovel := rfl
@[simp] theorem setQueue_power (s : State) (c q : Nat) (x : Queue) : (setQueue s c q x).power = s.power := rfl
@[simp] theorem setQueue_reply (s : State) (c q : Nat) (x : Queue) : (setQueue s c q x).reply = s.reply := rfl

/-! ### updQueue -/

@[simp] theorem updQueue_pending (s : State) (c q : Nat) (f : Queue → Queue) : (updQueue s c q f).pending = s.pending := rfl
@[simp] theorem updQueue_freeCtr (s : State) (c q : Nat) (f : Queue → Queue) : (updQueue s c q f).freeCtr = s.freeCtr := rfl
@[simp] theorem updQueue_run (s : State) (c q : Nat) (f : Queue → Queue) : (updQueue s c q f).run = s.run := rfl
@[simp] theorem updQueue_ctxs (s : State) (c q : Nat) (f : Queue → Queue) : (updQueue s c q f).ctxs = s.ctxs := rfl
@[simp] theorem updQueue_waiting (s : State) (c q : Nat) (f : Queue → Queue) : (updQueue s c q f).waiting = s.waiting := rfl
@[simp] theorem updQueue_bells (s : State) (c q : Nat) (f : Queue → Queue) : (updQueue s c q f).bells = s.bells := rfl
@[simp] theorem updQueue_objs (s : State) (c q : Nat) (f : Queue → Queue) : (updQueue s c q f).objs = s.objs := rfl
@[simp] theorem updQueue_objNext (s : State) (c q : Nat) (f : Queue → Queue) : (updQueue s c q f).objNext = s.objNext := rfl
@[simp] theorem updQueue_objFreed (s : State) (c q : Nat) (f : Queue → Queue) : (updQueue s c q f).objFreed = s.objFreed := rfl
@[simp] theorem updQueue_heaps (s : State) (c q : Nat) (f : Queue → Queue) : (updQueue s c q f).heaps = s.heaps := rfl
@[simp] theorem updQueue_cmds (s : State) (c q : Nat) (f : Queue → Queue) : (updQueue s c q f).cmds = s.cmds := rfl
@[simp] theorem updQueue_cmdCtr (s : State) (c q : Nat) (f : Queue → Queue) : (updQueue s c q f).cmdCtr = s.cmdCtr := rfl
@[simp] theorem updQueue_doomed (s : State) (c q : Nat) (f : Queue → Queue) : (updQueue s c q f).doomed = s.doomed := rfl
@[simp] theorem updQueue_rr (s : State) (c q : Nat) (f : Queue → Queue) : (updQueue s c q f).rr = s.rr := rfl
@[simp] theorem updQueue_halts (s : State) (c q : Nat) (f : Queue → Queue) : (updQueue s c q f).halts = s.halts := rfl
@[simp] theorem updQueue_launches (s : State) (c q : Nat) (f : Queue → Queue) : (updQueue s c q f).launches = s.launches := rfl
@[simp] theorem updQueue_mem (s : State) (c q : Nat) (f : Queue → Queue) : (updQueue s c q f).mem = s.mem := rfl
@[simp] theorem updQueue_poison (s : State) (c q : Nat) (f : Queue → Queue) : (updQueue s c q f).poison = s.poison := rfl
@[simp] theorem updQueue_dead (s : State) (c q : Nat) (f : Queue → Queue) : (updQueue s c q f).dead = s.dead := rfl
@[simp] theorem updQueue_retire (s : State) (c q : Nat) (f : Queue → Queue) : (updQueue s c q f).retire = s.retire := rfl
@[simp] theorem updQueue_retired (s : State) (c q : Nat) (f : Queue → Queue) : (updQueue s c q f).retired = s.retired := rfl
@[simp] theorem updQueue_xlats (s : State) (c q : Nat) (f : Queue → Queue) : (updQueue s c q f).xlats = s.xlats := rfl
@[simp] theorem updQueue_oldPtes (s : State) (c q : Nat) (f : Queue → Queue) : (updQueue s c q f).oldPtes = s.oldPtes := rfl
@[simp] theorem updQueue_invals (s : State) (c q : Nat) (f : Queue → Queue) : (updQueue s c q f).invals = s.invals := rfl
@[simp] theorem updQueue_pteCtr (s : State) (c q : Nat) (f : Queue → Queue) : (updQueue s c q f).pteCtr = s.pteCtr := rfl
@[simp] theorem updQueue_hashKey (s : State) (c q : Nat) (f : Queue → Queue) : (updQueue s c q f).hashKey = s.hashKey := rfl
@[simp] theorem updQueue_lines (s : State) (c q : Nat) (f : Queue → Queue) : (updQueue s c q f).lines = s.lines := rfl
@[simp] theorem updQueue_fills (s : State) (c q : Nat) (f : Queue → Queue) : (updQueue s c q f).fills = s.fills := rfl
@[simp] theorem updQueue_epochs (s : State) (c q : Nat) (f : Queue → Queue) : (updQueue s c q f).epochs = s.epochs := rfl
@[simp] theorem updQueue_lastEpoch (s : State) (c q : Nat) (f : Queue → Queue) : (updQueue s c q f).lastEpoch = s.lastEpoch := rfl
@[simp] theorem updQueue_redBufs (s : State) (c q : Nat) (f : Queue → Queue) : (updQueue s c q f).redBufs = s.redBufs := rfl
@[simp] theorem updQueue_addBufs (s : State) (c q : Nat) (f : Queue → Queue) : (updQueue s c q f).addBufs = s.addBufs := rfl
@[simp] theorem updQueue_nexts (s : State) (c q : Nat) (f : Queue → Queue) : (updQueue s c q f).nexts = s.nexts := rfl
@[simp] theorem updQueue_turns (s : State) (c q : Nat) (f : Queue → Queue) : (updQueue s c q f).turns = s.turns := rfl
@[simp] theorem updQueue_misses (s : State) (c q : Nat) (f : Queue → Queue) : (updQueue s c q f).misses = s.misses := rfl
@[simp] theorem updQueue_bankQ (s : State) (c q : Nat) (f : Queue → Queue) : (updQueue s c q f).bankQ = s.bankQ := rfl
@[simp] theorem updQueue_refused (s : State) (c q : Nat) (f : Queue → Queue) : (updQueue s c q f).refused = s.refused := rfl
@[simp] theorem updQueue_reqCtr (s : State) (c q : Nat) (f : Queue → Queue) : (updQueue s c q f).reqCtr = s.reqCtr := rfl
@[simp] theorem updQueue_credits (s : State) (c q : Nat) (f : Queue → Queue) : (updQueue s c q f).credits = s.credits := rfl
@[simp] theorem updQueue_chanTurn (s : State) (c q : Nat) (f : Queue → Queue) : (updQueue s c q f).chanTurn = s.chanTurn := rfl
@[simp] theorem updQueue_parts (s : State) (c q : Nat) (f : Queue → Queue) : (updQueue s c q f).parts = s.parts := rfl
@[simp] theorem updQueue_staged (s : State) (c q : Nat) (f : Queue → Queue) : (updQueue s c q f).staged = s.staged := rfl
@[simp] theorem updQueue_pcbNext (s : State) (c q : Nat) (f : Queue → Queue) : (updQueue s c q f).pcbNext = s.pcbNext := rfl
@[simp] theorem updQueue_pcbLast (s : State) (c q : Nat) (f : Queue → Queue) : (updQueue s c q f).pcbLast = s.pcbLast := rfl
@[simp] theorem updQueue_pcbResult (s : State) (c q : Nat) (f : Queue → Queue) : (updQueue s c q f).pcbResult = s.pcbResult := rfl
@[simp] theorem updQueue_tiles (s : State) (c q : Nat) (f : Queue → Queue) : (updQueue s c q f).tiles = s.tiles := rfl
@[simp] theorem updQueue_map0 (s : State) (c q : Nat) (f : Queue → Queue) : (updQueue s c q f).map0 = s.map0 := rfl
@[simp] theorem updQueue_map1 (s : State) (c q : Nat) (f : Queue → Queue) : (updQueue s c q f).map1 = s.map1 := rfl
@[simp] theorem updQueue_spares0 (s : State) (c q : Nat) (f : Queue → Queue) : (updQueue s c q f).spares0 = s.spares0 := rfl
@[simp] theorem updQueue_spares1 (s : State) (c q : Nat) (f : Queue → Queue) : (updQueue s c q f).spares1 = s.spares1 := rfl
@[simp] theorem updQueue_marked (s : State) (c q : Nat) (f : Queue → Queue) : (updQueue s c q f).marked = s.marked := rfl
@[simp] theorem updQueue_routes (s : State) (c q : Nat) (f : Queue → Queue) : (updQueue s c q f).routes = s.routes := rfl
@[simp] theorem updQueue_dispRuns (s : State) (c q : Nat) (f : Queue → Queue) : (updQueue s c q f).dispRuns = s.dispRuns := rfl
@[simp] theorem updQueue_chips (s : State) (c q : Nat) (f : Queue → Queue) : (updQueue s c q f).chips = s.chips := rfl
@[simp] theorem updQueue_groups (s : State) (c q : Nat) (f : Queue → Queue) : (updQueue s c q f).groups = s.groups := rfl
@[simp] theorem updQueue_heldGroups (s : State) (c q : Nat) (f : Queue → Queue) : (updQueue s c q f).heldGroups = s.heldGroups := rfl
@[simp] theorem updQueue_updRuns (s : State) (c q : Nat) (f : Queue → Queue) : (updQueue s c q f).updRuns = s.updRuns := rfl
@[simp] theorem updQueue_rxt (s : State) (c q : Nat) (f : Queue → Queue) : (updQueue s c q f).rxt = s.rxt := rfl
@[simp] theorem updQueue_nodeRoute (s : State) (c q : Nat) (f : Queue → Queue) : (updQueue s c q f).nodeRoute = s.nodeRoute := rfl
@[simp] theorem updQueue_peerInc (s : State) (c q : Nat) (f : Queue → Queue) : (updQueue s c q f).peerInc = s.peerInc := rfl
@[simp] theorem updQueue_fabCfg (s : State) (c q : Nat) (f : Queue → Queue) : (updQueue s c q f).fabCfg = s.fabCfg := rfl
@[simp] theorem updQueue_ports (s : State) (c q : Nat) (f : Queue → Queue) : (updQueue s c q f).ports = s.ports := rfl
@[simp] theorem updQueue_remotes (s : State) (c q : Nat) (f : Queue → Queue) : (updQueue s c q f).remotes = s.remotes := rfl
@[simp] theorem updQueue_tagCtr (s : State) (c q : Nat) (f : Queue → Queue) : (updQueue s c q f).tagCtr = s.tagCtr := rfl
@[simp] theorem updQueue_jobs (s : State) (c q : Nat) (f : Queue → Queue) : (updQueue s c q f).jobs = s.jobs := rfl
@[simp] theorem updQueue_collRuns (s : State) (c q : Nat) (f : Queue → Queue) : (updQueue s c q f).collRuns = s.collRuns := rfl
@[simp] theorem updQueue_inbox (s : State) (c q : Nat) (f : Queue → Queue) : (updQueue s c q f).inbox = s.inbox := rfl
@[simp] theorem updQueue_outbox (s : State) (c q : Nat) (f : Queue → Queue) : (updQueue s c q f).outbox = s.outbox := rfl
@[simp] theorem updQueue_flits (s : State) (c q : Nat) (f : Queue → Queue) : (updQueue s c q f).flits = s.flits := rfl
@[simp] theorem updQueue_rehomed (s : State) (c q : Nat) (f : Queue → Queue) : (updQueue s c q f).rehomed = s.rehomed := rfl
@[simp] theorem updQueue_injections (s : State) (c q : Nat) (f : Queue → Queue) : (updQueue s c q f).injections = s.injections := rfl
@[simp] theorem updQueue_latents (s : State) (c q : Nat) (f : Queue → Queue) : (updQueue s c q f).latents = s.latents := rfl
@[simp] theorem updQueue_fraction (s : State) (c q : Nat) (f : Queue → Queue) : (updQueue s c q f).fraction = s.fraction := rfl
@[simp] theorem updQueue_islands (s : State) (c q : Nat) (f : Queue → Queue) : (updQueue s c q f).islands = s.islands := rfl
@[simp] theorem updQueue_repair (s : State) (c q : Nat) (f : Queue → Queue) : (updQueue s c q f).repair = s.repair := rfl
@[simp] theorem updQueue_bridge (s : State) (c q : Nat) (f : Queue → Queue) : (updQueue s c q f).bridge = s.bridge := rfl
@[simp] theorem updQueue_log0 (s : State) (c q : Nat) (f : Queue → Queue) : (updQueue s c q f).log0 = s.log0 := rfl
@[simp] theorem updQueue_log1 (s : State) (c q : Nat) (f : Queue → Queue) : (updQueue s c q f).log1 = s.log1 := rfl
@[simp] theorem updQueue_seq0 (s : State) (c q : Nat) (f : Queue → Queue) : (updQueue s c q f).seq0 = s.seq0 := rfl
@[simp] theorem updQueue_seq1 (s : State) (c q : Nat) (f : Queue → Queue) : (updQueue s c q f).seq1 = s.seq1 := rfl
@[simp] theorem updQueue_counters (s : State) (c q : Nat) (f : Queue → Queue) : (updQueue s c q f).counters = s.counters := rfl
@[simp] theorem updQueue_tempSeen (s : State) (c q : Nat) (f : Queue → Queue) : (updQueue s c q f).tempSeen = s.tempSeen := rfl
@[simp] theorem updQueue_patrol (s : State) (c q : Nat) (f : Queue → Queue) : (updQueue s c q f).patrol = s.patrol := rfl
@[simp] theorem updQueue_spareRows (s : State) (c q : Nat) (f : Queue → Queue) : (updQueue s c q f).spareRows = s.spareRows := rfl
@[simp] theorem updQueue_persist (s : State) (c q : Nat) (f : Queue → Queue) : (updQueue s c q f).persist = s.persist := rfl
@[simp] theorem updQueue_mgmt (s : State) (c q : Nat) (f : Queue → Queue) : (updQueue s c q f).mgmt = s.mgmt := rfl
@[simp] theorem updQueue_boot (s : State) (c q : Nat) (f : Queue → Queue) : (updQueue s c q f).boot = s.boot := rfl
@[simp] theorem updQueue_sovel (s : State) (c q : Nat) (f : Queue → Queue) : (updQueue s c q f).sovel = s.sovel := rfl
@[simp] theorem updQueue_power (s : State) (c q : Nat) (f : Queue → Queue) : (updQueue s c q f).power = s.power := rfl
@[simp] theorem updQueue_reply (s : State) (c q : Nat) (f : Queue → Queue) : (updQueue s c q f).reply = s.reply := rfl

/-! ### setObj -/

@[simp] theorem setObj_pending (s : State) (k : Nat) (x : Obj) : (setObj s k x).pending = s.pending := rfl
@[simp] theorem setObj_freeCtr (s : State) (k : Nat) (x : Obj) : (setObj s k x).freeCtr = s.freeCtr := rfl
@[simp] theorem setObj_run (s : State) (k : Nat) (x : Obj) : (setObj s k x).run = s.run := rfl
@[simp] theorem setObj_ctxs (s : State) (k : Nat) (x : Obj) : (setObj s k x).ctxs = s.ctxs := rfl
@[simp] theorem setObj_queues (s : State) (k : Nat) (x : Obj) : (setObj s k x).queues = s.queues := rfl
@[simp] theorem setObj_waiting (s : State) (k : Nat) (x : Obj) : (setObj s k x).waiting = s.waiting := rfl
@[simp] theorem setObj_bells (s : State) (k : Nat) (x : Obj) : (setObj s k x).bells = s.bells := rfl
@[simp] theorem setObj_objNext (s : State) (k : Nat) (x : Obj) : (setObj s k x).objNext = s.objNext := rfl
@[simp] theorem setObj_objFreed (s : State) (k : Nat) (x : Obj) : (setObj s k x).objFreed = s.objFreed := rfl
@[simp] theorem setObj_heaps (s : State) (k : Nat) (x : Obj) : (setObj s k x).heaps = s.heaps := rfl
@[simp] theorem setObj_cmds (s : State) (k : Nat) (x : Obj) : (setObj s k x).cmds = s.cmds := rfl
@[simp] theorem setObj_cmdCtr (s : State) (k : Nat) (x : Obj) : (setObj s k x).cmdCtr = s.cmdCtr := rfl
@[simp] theorem setObj_doomed (s : State) (k : Nat) (x : Obj) : (setObj s k x).doomed = s.doomed := rfl
@[simp] theorem setObj_rr (s : State) (k : Nat) (x : Obj) : (setObj s k x).rr = s.rr := rfl
@[simp] theorem setObj_halts (s : State) (k : Nat) (x : Obj) : (setObj s k x).halts = s.halts := rfl
@[simp] theorem setObj_launches (s : State) (k : Nat) (x : Obj) : (setObj s k x).launches = s.launches := rfl
@[simp] theorem setObj_mem (s : State) (k : Nat) (x : Obj) : (setObj s k x).mem = s.mem := rfl
@[simp] theorem setObj_poison (s : State) (k : Nat) (x : Obj) : (setObj s k x).poison = s.poison := rfl
@[simp] theorem setObj_dead (s : State) (k : Nat) (x : Obj) : (setObj s k x).dead = s.dead := rfl
@[simp] theorem setObj_retire (s : State) (k : Nat) (x : Obj) : (setObj s k x).retire = s.retire := rfl
@[simp] theorem setObj_retired (s : State) (k : Nat) (x : Obj) : (setObj s k x).retired = s.retired := rfl
@[simp] theorem setObj_xlats (s : State) (k : Nat) (x : Obj) : (setObj s k x).xlats = s.xlats := rfl
@[simp] theorem setObj_oldPtes (s : State) (k : Nat) (x : Obj) : (setObj s k x).oldPtes = s.oldPtes := rfl
@[simp] theorem setObj_invals (s : State) (k : Nat) (x : Obj) : (setObj s k x).invals = s.invals := rfl
@[simp] theorem setObj_pteCtr (s : State) (k : Nat) (x : Obj) : (setObj s k x).pteCtr = s.pteCtr := rfl
@[simp] theorem setObj_hashKey (s : State) (k : Nat) (x : Obj) : (setObj s k x).hashKey = s.hashKey := rfl
@[simp] theorem setObj_lines (s : State) (k : Nat) (x : Obj) : (setObj s k x).lines = s.lines := rfl
@[simp] theorem setObj_fills (s : State) (k : Nat) (x : Obj) : (setObj s k x).fills = s.fills := rfl
@[simp] theorem setObj_epochs (s : State) (k : Nat) (x : Obj) : (setObj s k x).epochs = s.epochs := rfl
@[simp] theorem setObj_lastEpoch (s : State) (k : Nat) (x : Obj) : (setObj s k x).lastEpoch = s.lastEpoch := rfl
@[simp] theorem setObj_redBufs (s : State) (k : Nat) (x : Obj) : (setObj s k x).redBufs = s.redBufs := rfl
@[simp] theorem setObj_addBufs (s : State) (k : Nat) (x : Obj) : (setObj s k x).addBufs = s.addBufs := rfl
@[simp] theorem setObj_nexts (s : State) (k : Nat) (x : Obj) : (setObj s k x).nexts = s.nexts := rfl
@[simp] theorem setObj_turns (s : State) (k : Nat) (x : Obj) : (setObj s k x).turns = s.turns := rfl
@[simp] theorem setObj_misses (s : State) (k : Nat) (x : Obj) : (setObj s k x).misses = s.misses := rfl
@[simp] theorem setObj_bankQ (s : State) (k : Nat) (x : Obj) : (setObj s k x).bankQ = s.bankQ := rfl
@[simp] theorem setObj_refused (s : State) (k : Nat) (x : Obj) : (setObj s k x).refused = s.refused := rfl
@[simp] theorem setObj_reqCtr (s : State) (k : Nat) (x : Obj) : (setObj s k x).reqCtr = s.reqCtr := rfl
@[simp] theorem setObj_credits (s : State) (k : Nat) (x : Obj) : (setObj s k x).credits = s.credits := rfl
@[simp] theorem setObj_chanTurn (s : State) (k : Nat) (x : Obj) : (setObj s k x).chanTurn = s.chanTurn := rfl
@[simp] theorem setObj_parts (s : State) (k : Nat) (x : Obj) : (setObj s k x).parts = s.parts := rfl
@[simp] theorem setObj_staged (s : State) (k : Nat) (x : Obj) : (setObj s k x).staged = s.staged := rfl
@[simp] theorem setObj_pcbNext (s : State) (k : Nat) (x : Obj) : (setObj s k x).pcbNext = s.pcbNext := rfl
@[simp] theorem setObj_pcbLast (s : State) (k : Nat) (x : Obj) : (setObj s k x).pcbLast = s.pcbLast := rfl
@[simp] theorem setObj_pcbResult (s : State) (k : Nat) (x : Obj) : (setObj s k x).pcbResult = s.pcbResult := rfl
@[simp] theorem setObj_tiles (s : State) (k : Nat) (x : Obj) : (setObj s k x).tiles = s.tiles := rfl
@[simp] theorem setObj_map0 (s : State) (k : Nat) (x : Obj) : (setObj s k x).map0 = s.map0 := rfl
@[simp] theorem setObj_map1 (s : State) (k : Nat) (x : Obj) : (setObj s k x).map1 = s.map1 := rfl
@[simp] theorem setObj_spares0 (s : State) (k : Nat) (x : Obj) : (setObj s k x).spares0 = s.spares0 := rfl
@[simp] theorem setObj_spares1 (s : State) (k : Nat) (x : Obj) : (setObj s k x).spares1 = s.spares1 := rfl
@[simp] theorem setObj_marked (s : State) (k : Nat) (x : Obj) : (setObj s k x).marked = s.marked := rfl
@[simp] theorem setObj_routes (s : State) (k : Nat) (x : Obj) : (setObj s k x).routes = s.routes := rfl
@[simp] theorem setObj_dispRuns (s : State) (k : Nat) (x : Obj) : (setObj s k x).dispRuns = s.dispRuns := rfl
@[simp] theorem setObj_chips (s : State) (k : Nat) (x : Obj) : (setObj s k x).chips = s.chips := rfl
@[simp] theorem setObj_groups (s : State) (k : Nat) (x : Obj) : (setObj s k x).groups = s.groups := rfl
@[simp] theorem setObj_heldGroups (s : State) (k : Nat) (x : Obj) : (setObj s k x).heldGroups = s.heldGroups := rfl
@[simp] theorem setObj_updRuns (s : State) (k : Nat) (x : Obj) : (setObj s k x).updRuns = s.updRuns := rfl
@[simp] theorem setObj_rxt (s : State) (k : Nat) (x : Obj) : (setObj s k x).rxt = s.rxt := rfl
@[simp] theorem setObj_nodeRoute (s : State) (k : Nat) (x : Obj) : (setObj s k x).nodeRoute = s.nodeRoute := rfl
@[simp] theorem setObj_peerInc (s : State) (k : Nat) (x : Obj) : (setObj s k x).peerInc = s.peerInc := rfl
@[simp] theorem setObj_fabCfg (s : State) (k : Nat) (x : Obj) : (setObj s k x).fabCfg = s.fabCfg := rfl
@[simp] theorem setObj_ports (s : State) (k : Nat) (x : Obj) : (setObj s k x).ports = s.ports := rfl
@[simp] theorem setObj_remotes (s : State) (k : Nat) (x : Obj) : (setObj s k x).remotes = s.remotes := rfl
@[simp] theorem setObj_tagCtr (s : State) (k : Nat) (x : Obj) : (setObj s k x).tagCtr = s.tagCtr := rfl
@[simp] theorem setObj_jobs (s : State) (k : Nat) (x : Obj) : (setObj s k x).jobs = s.jobs := rfl
@[simp] theorem setObj_collRuns (s : State) (k : Nat) (x : Obj) : (setObj s k x).collRuns = s.collRuns := rfl
@[simp] theorem setObj_inbox (s : State) (k : Nat) (x : Obj) : (setObj s k x).inbox = s.inbox := rfl
@[simp] theorem setObj_outbox (s : State) (k : Nat) (x : Obj) : (setObj s k x).outbox = s.outbox := rfl
@[simp] theorem setObj_flits (s : State) (k : Nat) (x : Obj) : (setObj s k x).flits = s.flits := rfl
@[simp] theorem setObj_rehomed (s : State) (k : Nat) (x : Obj) : (setObj s k x).rehomed = s.rehomed := rfl
@[simp] theorem setObj_injections (s : State) (k : Nat) (x : Obj) : (setObj s k x).injections = s.injections := rfl
@[simp] theorem setObj_latents (s : State) (k : Nat) (x : Obj) : (setObj s k x).latents = s.latents := rfl
@[simp] theorem setObj_fraction (s : State) (k : Nat) (x : Obj) : (setObj s k x).fraction = s.fraction := rfl
@[simp] theorem setObj_islands (s : State) (k : Nat) (x : Obj) : (setObj s k x).islands = s.islands := rfl
@[simp] theorem setObj_repair (s : State) (k : Nat) (x : Obj) : (setObj s k x).repair = s.repair := rfl
@[simp] theorem setObj_bridge (s : State) (k : Nat) (x : Obj) : (setObj s k x).bridge = s.bridge := rfl
@[simp] theorem setObj_log0 (s : State) (k : Nat) (x : Obj) : (setObj s k x).log0 = s.log0 := rfl
@[simp] theorem setObj_log1 (s : State) (k : Nat) (x : Obj) : (setObj s k x).log1 = s.log1 := rfl
@[simp] theorem setObj_seq0 (s : State) (k : Nat) (x : Obj) : (setObj s k x).seq0 = s.seq0 := rfl
@[simp] theorem setObj_seq1 (s : State) (k : Nat) (x : Obj) : (setObj s k x).seq1 = s.seq1 := rfl
@[simp] theorem setObj_counters (s : State) (k : Nat) (x : Obj) : (setObj s k x).counters = s.counters := rfl
@[simp] theorem setObj_tempSeen (s : State) (k : Nat) (x : Obj) : (setObj s k x).tempSeen = s.tempSeen := rfl
@[simp] theorem setObj_patrol (s : State) (k : Nat) (x : Obj) : (setObj s k x).patrol = s.patrol := rfl
@[simp] theorem setObj_spareRows (s : State) (k : Nat) (x : Obj) : (setObj s k x).spareRows = s.spareRows := rfl
@[simp] theorem setObj_persist (s : State) (k : Nat) (x : Obj) : (setObj s k x).persist = s.persist := rfl
@[simp] theorem setObj_mgmt (s : State) (k : Nat) (x : Obj) : (setObj s k x).mgmt = s.mgmt := rfl
@[simp] theorem setObj_boot (s : State) (k : Nat) (x : Obj) : (setObj s k x).boot = s.boot := rfl
@[simp] theorem setObj_sovel (s : State) (k : Nat) (x : Obj) : (setObj s k x).sovel = s.sovel := rfl
@[simp] theorem setObj_power (s : State) (k : Nat) (x : Obj) : (setObj s k x).power = s.power := rfl
@[simp] theorem setObj_reply (s : State) (k : Nat) (x : Obj) : (setObj s k x).reply = s.reply := rfl

/-! ### updObj -/

@[simp] theorem updObj_pending (s : State) (k : Nat) (f : Obj → Obj) : (updObj s k f).pending = s.pending := rfl
@[simp] theorem updObj_freeCtr (s : State) (k : Nat) (f : Obj → Obj) : (updObj s k f).freeCtr = s.freeCtr := rfl
@[simp] theorem updObj_run (s : State) (k : Nat) (f : Obj → Obj) : (updObj s k f).run = s.run := rfl
@[simp] theorem updObj_ctxs (s : State) (k : Nat) (f : Obj → Obj) : (updObj s k f).ctxs = s.ctxs := rfl
@[simp] theorem updObj_queues (s : State) (k : Nat) (f : Obj → Obj) : (updObj s k f).queues = s.queues := rfl
@[simp] theorem updObj_waiting (s : State) (k : Nat) (f : Obj → Obj) : (updObj s k f).waiting = s.waiting := rfl
@[simp] theorem updObj_bells (s : State) (k : Nat) (f : Obj → Obj) : (updObj s k f).bells = s.bells := rfl
@[simp] theorem updObj_objNext (s : State) (k : Nat) (f : Obj → Obj) : (updObj s k f).objNext = s.objNext := rfl
@[simp] theorem updObj_objFreed (s : State) (k : Nat) (f : Obj → Obj) : (updObj s k f).objFreed = s.objFreed := rfl
@[simp] theorem updObj_heaps (s : State) (k : Nat) (f : Obj → Obj) : (updObj s k f).heaps = s.heaps := rfl
@[simp] theorem updObj_cmds (s : State) (k : Nat) (f : Obj → Obj) : (updObj s k f).cmds = s.cmds := rfl
@[simp] theorem updObj_cmdCtr (s : State) (k : Nat) (f : Obj → Obj) : (updObj s k f).cmdCtr = s.cmdCtr := rfl
@[simp] theorem updObj_doomed (s : State) (k : Nat) (f : Obj → Obj) : (updObj s k f).doomed = s.doomed := rfl
@[simp] theorem updObj_rr (s : State) (k : Nat) (f : Obj → Obj) : (updObj s k f).rr = s.rr := rfl
@[simp] theorem updObj_halts (s : State) (k : Nat) (f : Obj → Obj) : (updObj s k f).halts = s.halts := rfl
@[simp] theorem updObj_launches (s : State) (k : Nat) (f : Obj → Obj) : (updObj s k f).launches = s.launches := rfl
@[simp] theorem updObj_mem (s : State) (k : Nat) (f : Obj → Obj) : (updObj s k f).mem = s.mem := rfl
@[simp] theorem updObj_poison (s : State) (k : Nat) (f : Obj → Obj) : (updObj s k f).poison = s.poison := rfl
@[simp] theorem updObj_dead (s : State) (k : Nat) (f : Obj → Obj) : (updObj s k f).dead = s.dead := rfl
@[simp] theorem updObj_retire (s : State) (k : Nat) (f : Obj → Obj) : (updObj s k f).retire = s.retire := rfl
@[simp] theorem updObj_retired (s : State) (k : Nat) (f : Obj → Obj) : (updObj s k f).retired = s.retired := rfl
@[simp] theorem updObj_xlats (s : State) (k : Nat) (f : Obj → Obj) : (updObj s k f).xlats = s.xlats := rfl
@[simp] theorem updObj_oldPtes (s : State) (k : Nat) (f : Obj → Obj) : (updObj s k f).oldPtes = s.oldPtes := rfl
@[simp] theorem updObj_invals (s : State) (k : Nat) (f : Obj → Obj) : (updObj s k f).invals = s.invals := rfl
@[simp] theorem updObj_pteCtr (s : State) (k : Nat) (f : Obj → Obj) : (updObj s k f).pteCtr = s.pteCtr := rfl
@[simp] theorem updObj_hashKey (s : State) (k : Nat) (f : Obj → Obj) : (updObj s k f).hashKey = s.hashKey := rfl
@[simp] theorem updObj_lines (s : State) (k : Nat) (f : Obj → Obj) : (updObj s k f).lines = s.lines := rfl
@[simp] theorem updObj_fills (s : State) (k : Nat) (f : Obj → Obj) : (updObj s k f).fills = s.fills := rfl
@[simp] theorem updObj_epochs (s : State) (k : Nat) (f : Obj → Obj) : (updObj s k f).epochs = s.epochs := rfl
@[simp] theorem updObj_lastEpoch (s : State) (k : Nat) (f : Obj → Obj) : (updObj s k f).lastEpoch = s.lastEpoch := rfl
@[simp] theorem updObj_redBufs (s : State) (k : Nat) (f : Obj → Obj) : (updObj s k f).redBufs = s.redBufs := rfl
@[simp] theorem updObj_addBufs (s : State) (k : Nat) (f : Obj → Obj) : (updObj s k f).addBufs = s.addBufs := rfl
@[simp] theorem updObj_nexts (s : State) (k : Nat) (f : Obj → Obj) : (updObj s k f).nexts = s.nexts := rfl
@[simp] theorem updObj_turns (s : State) (k : Nat) (f : Obj → Obj) : (updObj s k f).turns = s.turns := rfl
@[simp] theorem updObj_misses (s : State) (k : Nat) (f : Obj → Obj) : (updObj s k f).misses = s.misses := rfl
@[simp] theorem updObj_bankQ (s : State) (k : Nat) (f : Obj → Obj) : (updObj s k f).bankQ = s.bankQ := rfl
@[simp] theorem updObj_refused (s : State) (k : Nat) (f : Obj → Obj) : (updObj s k f).refused = s.refused := rfl
@[simp] theorem updObj_reqCtr (s : State) (k : Nat) (f : Obj → Obj) : (updObj s k f).reqCtr = s.reqCtr := rfl
@[simp] theorem updObj_credits (s : State) (k : Nat) (f : Obj → Obj) : (updObj s k f).credits = s.credits := rfl
@[simp] theorem updObj_chanTurn (s : State) (k : Nat) (f : Obj → Obj) : (updObj s k f).chanTurn = s.chanTurn := rfl
@[simp] theorem updObj_parts (s : State) (k : Nat) (f : Obj → Obj) : (updObj s k f).parts = s.parts := rfl
@[simp] theorem updObj_staged (s : State) (k : Nat) (f : Obj → Obj) : (updObj s k f).staged = s.staged := rfl
@[simp] theorem updObj_pcbNext (s : State) (k : Nat) (f : Obj → Obj) : (updObj s k f).pcbNext = s.pcbNext := rfl
@[simp] theorem updObj_pcbLast (s : State) (k : Nat) (f : Obj → Obj) : (updObj s k f).pcbLast = s.pcbLast := rfl
@[simp] theorem updObj_pcbResult (s : State) (k : Nat) (f : Obj → Obj) : (updObj s k f).pcbResult = s.pcbResult := rfl
@[simp] theorem updObj_tiles (s : State) (k : Nat) (f : Obj → Obj) : (updObj s k f).tiles = s.tiles := rfl
@[simp] theorem updObj_map0 (s : State) (k : Nat) (f : Obj → Obj) : (updObj s k f).map0 = s.map0 := rfl
@[simp] theorem updObj_map1 (s : State) (k : Nat) (f : Obj → Obj) : (updObj s k f).map1 = s.map1 := rfl
@[simp] theorem updObj_spares0 (s : State) (k : Nat) (f : Obj → Obj) : (updObj s k f).spares0 = s.spares0 := rfl
@[simp] theorem updObj_spares1 (s : State) (k : Nat) (f : Obj → Obj) : (updObj s k f).spares1 = s.spares1 := rfl
@[simp] theorem updObj_marked (s : State) (k : Nat) (f : Obj → Obj) : (updObj s k f).marked = s.marked := rfl
@[simp] theorem updObj_routes (s : State) (k : Nat) (f : Obj → Obj) : (updObj s k f).routes = s.routes := rfl
@[simp] theorem updObj_dispRuns (s : State) (k : Nat) (f : Obj → Obj) : (updObj s k f).dispRuns = s.dispRuns := rfl
@[simp] theorem updObj_chips (s : State) (k : Nat) (f : Obj → Obj) : (updObj s k f).chips = s.chips := rfl
@[simp] theorem updObj_groups (s : State) (k : Nat) (f : Obj → Obj) : (updObj s k f).groups = s.groups := rfl
@[simp] theorem updObj_heldGroups (s : State) (k : Nat) (f : Obj → Obj) : (updObj s k f).heldGroups = s.heldGroups := rfl
@[simp] theorem updObj_updRuns (s : State) (k : Nat) (f : Obj → Obj) : (updObj s k f).updRuns = s.updRuns := rfl
@[simp] theorem updObj_rxt (s : State) (k : Nat) (f : Obj → Obj) : (updObj s k f).rxt = s.rxt := rfl
@[simp] theorem updObj_nodeRoute (s : State) (k : Nat) (f : Obj → Obj) : (updObj s k f).nodeRoute = s.nodeRoute := rfl
@[simp] theorem updObj_peerInc (s : State) (k : Nat) (f : Obj → Obj) : (updObj s k f).peerInc = s.peerInc := rfl
@[simp] theorem updObj_fabCfg (s : State) (k : Nat) (f : Obj → Obj) : (updObj s k f).fabCfg = s.fabCfg := rfl
@[simp] theorem updObj_ports (s : State) (k : Nat) (f : Obj → Obj) : (updObj s k f).ports = s.ports := rfl
@[simp] theorem updObj_remotes (s : State) (k : Nat) (f : Obj → Obj) : (updObj s k f).remotes = s.remotes := rfl
@[simp] theorem updObj_tagCtr (s : State) (k : Nat) (f : Obj → Obj) : (updObj s k f).tagCtr = s.tagCtr := rfl
@[simp] theorem updObj_jobs (s : State) (k : Nat) (f : Obj → Obj) : (updObj s k f).jobs = s.jobs := rfl
@[simp] theorem updObj_collRuns (s : State) (k : Nat) (f : Obj → Obj) : (updObj s k f).collRuns = s.collRuns := rfl
@[simp] theorem updObj_inbox (s : State) (k : Nat) (f : Obj → Obj) : (updObj s k f).inbox = s.inbox := rfl
@[simp] theorem updObj_outbox (s : State) (k : Nat) (f : Obj → Obj) : (updObj s k f).outbox = s.outbox := rfl
@[simp] theorem updObj_flits (s : State) (k : Nat) (f : Obj → Obj) : (updObj s k f).flits = s.flits := rfl
@[simp] theorem updObj_rehomed (s : State) (k : Nat) (f : Obj → Obj) : (updObj s k f).rehomed = s.rehomed := rfl
@[simp] theorem updObj_injections (s : State) (k : Nat) (f : Obj → Obj) : (updObj s k f).injections = s.injections := rfl
@[simp] theorem updObj_latents (s : State) (k : Nat) (f : Obj → Obj) : (updObj s k f).latents = s.latents := rfl
@[simp] theorem updObj_fraction (s : State) (k : Nat) (f : Obj → Obj) : (updObj s k f).fraction = s.fraction := rfl
@[simp] theorem updObj_islands (s : State) (k : Nat) (f : Obj → Obj) : (updObj s k f).islands = s.islands := rfl
@[simp] theorem updObj_repair (s : State) (k : Nat) (f : Obj → Obj) : (updObj s k f).repair = s.repair := rfl
@[simp] theorem updObj_bridge (s : State) (k : Nat) (f : Obj → Obj) : (updObj s k f).bridge = s.bridge := rfl
@[simp] theorem updObj_log0 (s : State) (k : Nat) (f : Obj → Obj) : (updObj s k f).log0 = s.log0 := rfl
@[simp] theorem updObj_log1 (s : State) (k : Nat) (f : Obj → Obj) : (updObj s k f).log1 = s.log1 := rfl
@[simp] theorem updObj_seq0 (s : State) (k : Nat) (f : Obj → Obj) : (updObj s k f).seq0 = s.seq0 := rfl
@[simp] theorem updObj_seq1 (s : State) (k : Nat) (f : Obj → Obj) : (updObj s k f).seq1 = s.seq1 := rfl
@[simp] theorem updObj_counters (s : State) (k : Nat) (f : Obj → Obj) : (updObj s k f).counters = s.counters := rfl
@[simp] theorem updObj_tempSeen (s : State) (k : Nat) (f : Obj → Obj) : (updObj s k f).tempSeen = s.tempSeen := rfl
@[simp] theorem updObj_patrol (s : State) (k : Nat) (f : Obj → Obj) : (updObj s k f).patrol = s.patrol := rfl
@[simp] theorem updObj_spareRows (s : State) (k : Nat) (f : Obj → Obj) : (updObj s k f).spareRows = s.spareRows := rfl
@[simp] theorem updObj_persist (s : State) (k : Nat) (f : Obj → Obj) : (updObj s k f).persist = s.persist := rfl
@[simp] theorem updObj_mgmt (s : State) (k : Nat) (f : Obj → Obj) : (updObj s k f).mgmt = s.mgmt := rfl
@[simp] theorem updObj_boot (s : State) (k : Nat) (f : Obj → Obj) : (updObj s k f).boot = s.boot := rfl
@[simp] theorem updObj_sovel (s : State) (k : Nat) (f : Obj → Obj) : (updObj s k f).sovel = s.sovel := rfl
@[simp] theorem updObj_power (s : State) (k : Nat) (f : Obj → Obj) : (updObj s k f).power = s.power := rfl
@[simp] theorem updObj_reply (s : State) (k : Nat) (f : Obj → Obj) : (updObj s k f).reply = s.reply := rfl

/-! ### setChip -/

@[simp] theorem setChip_pending (s : State) (k : Nat) (x : TierChip) : (setChip s k x).pending = s.pending := rfl
@[simp] theorem setChip_freeCtr (s : State) (k : Nat) (x : TierChip) : (setChip s k x).freeCtr = s.freeCtr := rfl
@[simp] theorem setChip_run (s : State) (k : Nat) (x : TierChip) : (setChip s k x).run = s.run := rfl
@[simp] theorem setChip_ctxs (s : State) (k : Nat) (x : TierChip) : (setChip s k x).ctxs = s.ctxs := rfl
@[simp] theorem setChip_queues (s : State) (k : Nat) (x : TierChip) : (setChip s k x).queues = s.queues := rfl
@[simp] theorem setChip_waiting (s : State) (k : Nat) (x : TierChip) : (setChip s k x).waiting = s.waiting := rfl
@[simp] theorem setChip_bells (s : State) (k : Nat) (x : TierChip) : (setChip s k x).bells = s.bells := rfl
@[simp] theorem setChip_objs (s : State) (k : Nat) (x : TierChip) : (setChip s k x).objs = s.objs := rfl
@[simp] theorem setChip_objNext (s : State) (k : Nat) (x : TierChip) : (setChip s k x).objNext = s.objNext := rfl
@[simp] theorem setChip_objFreed (s : State) (k : Nat) (x : TierChip) : (setChip s k x).objFreed = s.objFreed := rfl
@[simp] theorem setChip_heaps (s : State) (k : Nat) (x : TierChip) : (setChip s k x).heaps = s.heaps := rfl
@[simp] theorem setChip_cmds (s : State) (k : Nat) (x : TierChip) : (setChip s k x).cmds = s.cmds := rfl
@[simp] theorem setChip_cmdCtr (s : State) (k : Nat) (x : TierChip) : (setChip s k x).cmdCtr = s.cmdCtr := rfl
@[simp] theorem setChip_doomed (s : State) (k : Nat) (x : TierChip) : (setChip s k x).doomed = s.doomed := rfl
@[simp] theorem setChip_rr (s : State) (k : Nat) (x : TierChip) : (setChip s k x).rr = s.rr := rfl
@[simp] theorem setChip_halts (s : State) (k : Nat) (x : TierChip) : (setChip s k x).halts = s.halts := rfl
@[simp] theorem setChip_launches (s : State) (k : Nat) (x : TierChip) : (setChip s k x).launches = s.launches := rfl
@[simp] theorem setChip_mem (s : State) (k : Nat) (x : TierChip) : (setChip s k x).mem = s.mem := rfl
@[simp] theorem setChip_poison (s : State) (k : Nat) (x : TierChip) : (setChip s k x).poison = s.poison := rfl
@[simp] theorem setChip_dead (s : State) (k : Nat) (x : TierChip) : (setChip s k x).dead = s.dead := rfl
@[simp] theorem setChip_retire (s : State) (k : Nat) (x : TierChip) : (setChip s k x).retire = s.retire := rfl
@[simp] theorem setChip_retired (s : State) (k : Nat) (x : TierChip) : (setChip s k x).retired = s.retired := rfl
@[simp] theorem setChip_xlats (s : State) (k : Nat) (x : TierChip) : (setChip s k x).xlats = s.xlats := rfl
@[simp] theorem setChip_oldPtes (s : State) (k : Nat) (x : TierChip) : (setChip s k x).oldPtes = s.oldPtes := rfl
@[simp] theorem setChip_invals (s : State) (k : Nat) (x : TierChip) : (setChip s k x).invals = s.invals := rfl
@[simp] theorem setChip_pteCtr (s : State) (k : Nat) (x : TierChip) : (setChip s k x).pteCtr = s.pteCtr := rfl
@[simp] theorem setChip_hashKey (s : State) (k : Nat) (x : TierChip) : (setChip s k x).hashKey = s.hashKey := rfl
@[simp] theorem setChip_lines (s : State) (k : Nat) (x : TierChip) : (setChip s k x).lines = s.lines := rfl
@[simp] theorem setChip_fills (s : State) (k : Nat) (x : TierChip) : (setChip s k x).fills = s.fills := rfl
@[simp] theorem setChip_epochs (s : State) (k : Nat) (x : TierChip) : (setChip s k x).epochs = s.epochs := rfl
@[simp] theorem setChip_lastEpoch (s : State) (k : Nat) (x : TierChip) : (setChip s k x).lastEpoch = s.lastEpoch := rfl
@[simp] theorem setChip_redBufs (s : State) (k : Nat) (x : TierChip) : (setChip s k x).redBufs = s.redBufs := rfl
@[simp] theorem setChip_addBufs (s : State) (k : Nat) (x : TierChip) : (setChip s k x).addBufs = s.addBufs := rfl
@[simp] theorem setChip_nexts (s : State) (k : Nat) (x : TierChip) : (setChip s k x).nexts = s.nexts := rfl
@[simp] theorem setChip_turns (s : State) (k : Nat) (x : TierChip) : (setChip s k x).turns = s.turns := rfl
@[simp] theorem setChip_misses (s : State) (k : Nat) (x : TierChip) : (setChip s k x).misses = s.misses := rfl
@[simp] theorem setChip_bankQ (s : State) (k : Nat) (x : TierChip) : (setChip s k x).bankQ = s.bankQ := rfl
@[simp] theorem setChip_refused (s : State) (k : Nat) (x : TierChip) : (setChip s k x).refused = s.refused := rfl
@[simp] theorem setChip_reqCtr (s : State) (k : Nat) (x : TierChip) : (setChip s k x).reqCtr = s.reqCtr := rfl
@[simp] theorem setChip_credits (s : State) (k : Nat) (x : TierChip) : (setChip s k x).credits = s.credits := rfl
@[simp] theorem setChip_chanTurn (s : State) (k : Nat) (x : TierChip) : (setChip s k x).chanTurn = s.chanTurn := rfl
@[simp] theorem setChip_parts (s : State) (k : Nat) (x : TierChip) : (setChip s k x).parts = s.parts := rfl
@[simp] theorem setChip_staged (s : State) (k : Nat) (x : TierChip) : (setChip s k x).staged = s.staged := rfl
@[simp] theorem setChip_pcbNext (s : State) (k : Nat) (x : TierChip) : (setChip s k x).pcbNext = s.pcbNext := rfl
@[simp] theorem setChip_pcbLast (s : State) (k : Nat) (x : TierChip) : (setChip s k x).pcbLast = s.pcbLast := rfl
@[simp] theorem setChip_pcbResult (s : State) (k : Nat) (x : TierChip) : (setChip s k x).pcbResult = s.pcbResult := rfl
@[simp] theorem setChip_tiles (s : State) (k : Nat) (x : TierChip) : (setChip s k x).tiles = s.tiles := rfl
@[simp] theorem setChip_map0 (s : State) (k : Nat) (x : TierChip) : (setChip s k x).map0 = s.map0 := rfl
@[simp] theorem setChip_map1 (s : State) (k : Nat) (x : TierChip) : (setChip s k x).map1 = s.map1 := rfl
@[simp] theorem setChip_spares0 (s : State) (k : Nat) (x : TierChip) : (setChip s k x).spares0 = s.spares0 := rfl
@[simp] theorem setChip_spares1 (s : State) (k : Nat) (x : TierChip) : (setChip s k x).spares1 = s.spares1 := rfl
@[simp] theorem setChip_marked (s : State) (k : Nat) (x : TierChip) : (setChip s k x).marked = s.marked := rfl
@[simp] theorem setChip_routes (s : State) (k : Nat) (x : TierChip) : (setChip s k x).routes = s.routes := rfl
@[simp] theorem setChip_dispRuns (s : State) (k : Nat) (x : TierChip) : (setChip s k x).dispRuns = s.dispRuns := rfl
@[simp] theorem setChip_groups (s : State) (k : Nat) (x : TierChip) : (setChip s k x).groups = s.groups := rfl
@[simp] theorem setChip_heldGroups (s : State) (k : Nat) (x : TierChip) : (setChip s k x).heldGroups = s.heldGroups := rfl
@[simp] theorem setChip_updRuns (s : State) (k : Nat) (x : TierChip) : (setChip s k x).updRuns = s.updRuns := rfl
@[simp] theorem setChip_rxt (s : State) (k : Nat) (x : TierChip) : (setChip s k x).rxt = s.rxt := rfl
@[simp] theorem setChip_nodeRoute (s : State) (k : Nat) (x : TierChip) : (setChip s k x).nodeRoute = s.nodeRoute := rfl
@[simp] theorem setChip_peerInc (s : State) (k : Nat) (x : TierChip) : (setChip s k x).peerInc = s.peerInc := rfl
@[simp] theorem setChip_fabCfg (s : State) (k : Nat) (x : TierChip) : (setChip s k x).fabCfg = s.fabCfg := rfl
@[simp] theorem setChip_ports (s : State) (k : Nat) (x : TierChip) : (setChip s k x).ports = s.ports := rfl
@[simp] theorem setChip_remotes (s : State) (k : Nat) (x : TierChip) : (setChip s k x).remotes = s.remotes := rfl
@[simp] theorem setChip_tagCtr (s : State) (k : Nat) (x : TierChip) : (setChip s k x).tagCtr = s.tagCtr := rfl
@[simp] theorem setChip_jobs (s : State) (k : Nat) (x : TierChip) : (setChip s k x).jobs = s.jobs := rfl
@[simp] theorem setChip_collRuns (s : State) (k : Nat) (x : TierChip) : (setChip s k x).collRuns = s.collRuns := rfl
@[simp] theorem setChip_inbox (s : State) (k : Nat) (x : TierChip) : (setChip s k x).inbox = s.inbox := rfl
@[simp] theorem setChip_outbox (s : State) (k : Nat) (x : TierChip) : (setChip s k x).outbox = s.outbox := rfl
@[simp] theorem setChip_flits (s : State) (k : Nat) (x : TierChip) : (setChip s k x).flits = s.flits := rfl
@[simp] theorem setChip_rehomed (s : State) (k : Nat) (x : TierChip) : (setChip s k x).rehomed = s.rehomed := rfl
@[simp] theorem setChip_injections (s : State) (k : Nat) (x : TierChip) : (setChip s k x).injections = s.injections := rfl
@[simp] theorem setChip_latents (s : State) (k : Nat) (x : TierChip) : (setChip s k x).latents = s.latents := rfl
@[simp] theorem setChip_fraction (s : State) (k : Nat) (x : TierChip) : (setChip s k x).fraction = s.fraction := rfl
@[simp] theorem setChip_islands (s : State) (k : Nat) (x : TierChip) : (setChip s k x).islands = s.islands := rfl
@[simp] theorem setChip_repair (s : State) (k : Nat) (x : TierChip) : (setChip s k x).repair = s.repair := rfl
@[simp] theorem setChip_bridge (s : State) (k : Nat) (x : TierChip) : (setChip s k x).bridge = s.bridge := rfl
@[simp] theorem setChip_log0 (s : State) (k : Nat) (x : TierChip) : (setChip s k x).log0 = s.log0 := rfl
@[simp] theorem setChip_log1 (s : State) (k : Nat) (x : TierChip) : (setChip s k x).log1 = s.log1 := rfl
@[simp] theorem setChip_seq0 (s : State) (k : Nat) (x : TierChip) : (setChip s k x).seq0 = s.seq0 := rfl
@[simp] theorem setChip_seq1 (s : State) (k : Nat) (x : TierChip) : (setChip s k x).seq1 = s.seq1 := rfl
@[simp] theorem setChip_counters (s : State) (k : Nat) (x : TierChip) : (setChip s k x).counters = s.counters := rfl
@[simp] theorem setChip_tempSeen (s : State) (k : Nat) (x : TierChip) : (setChip s k x).tempSeen = s.tempSeen := rfl
@[simp] theorem setChip_patrol (s : State) (k : Nat) (x : TierChip) : (setChip s k x).patrol = s.patrol := rfl
@[simp] theorem setChip_spareRows (s : State) (k : Nat) (x : TierChip) : (setChip s k x).spareRows = s.spareRows := rfl
@[simp] theorem setChip_persist (s : State) (k : Nat) (x : TierChip) : (setChip s k x).persist = s.persist := rfl
@[simp] theorem setChip_mgmt (s : State) (k : Nat) (x : TierChip) : (setChip s k x).mgmt = s.mgmt := rfl
@[simp] theorem setChip_boot (s : State) (k : Nat) (x : TierChip) : (setChip s k x).boot = s.boot := rfl
@[simp] theorem setChip_sovel (s : State) (k : Nat) (x : TierChip) : (setChip s k x).sovel = s.sovel := rfl
@[simp] theorem setChip_power (s : State) (k : Nat) (x : TierChip) : (setChip s k x).power = s.power := rfl
@[simp] theorem setChip_reply (s : State) (k : Nat) (x : TierChip) : (setChip s k x).reply = s.reply := rfl

/-! ### setIsland -/

@[simp] theorem setIsland_pending (s : State) (k : Nat) (x : Island) : (setIsland s k x).pending = s.pending := rfl
@[simp] theorem setIsland_freeCtr (s : State) (k : Nat) (x : Island) : (setIsland s k x).freeCtr = s.freeCtr := rfl
@[simp] theorem setIsland_run (s : State) (k : Nat) (x : Island) : (setIsland s k x).run = s.run := rfl
@[simp] theorem setIsland_ctxs (s : State) (k : Nat) (x : Island) : (setIsland s k x).ctxs = s.ctxs := rfl
@[simp] theorem setIsland_queues (s : State) (k : Nat) (x : Island) : (setIsland s k x).queues = s.queues := rfl
@[simp] theorem setIsland_waiting (s : State) (k : Nat) (x : Island) : (setIsland s k x).waiting = s.waiting := rfl
@[simp] theorem setIsland_bells (s : State) (k : Nat) (x : Island) : (setIsland s k x).bells = s.bells := rfl
@[simp] theorem setIsland_objs (s : State) (k : Nat) (x : Island) : (setIsland s k x).objs = s.objs := rfl
@[simp] theorem setIsland_objNext (s : State) (k : Nat) (x : Island) : (setIsland s k x).objNext = s.objNext := rfl
@[simp] theorem setIsland_objFreed (s : State) (k : Nat) (x : Island) : (setIsland s k x).objFreed = s.objFreed := rfl
@[simp] theorem setIsland_heaps (s : State) (k : Nat) (x : Island) : (setIsland s k x).heaps = s.heaps := rfl
@[simp] theorem setIsland_cmds (s : State) (k : Nat) (x : Island) : (setIsland s k x).cmds = s.cmds := rfl
@[simp] theorem setIsland_cmdCtr (s : State) (k : Nat) (x : Island) : (setIsland s k x).cmdCtr = s.cmdCtr := rfl
@[simp] theorem setIsland_doomed (s : State) (k : Nat) (x : Island) : (setIsland s k x).doomed = s.doomed := rfl
@[simp] theorem setIsland_rr (s : State) (k : Nat) (x : Island) : (setIsland s k x).rr = s.rr := rfl
@[simp] theorem setIsland_halts (s : State) (k : Nat) (x : Island) : (setIsland s k x).halts = s.halts := rfl
@[simp] theorem setIsland_launches (s : State) (k : Nat) (x : Island) : (setIsland s k x).launches = s.launches := rfl
@[simp] theorem setIsland_mem (s : State) (k : Nat) (x : Island) : (setIsland s k x).mem = s.mem := rfl
@[simp] theorem setIsland_poison (s : State) (k : Nat) (x : Island) : (setIsland s k x).poison = s.poison := rfl
@[simp] theorem setIsland_dead (s : State) (k : Nat) (x : Island) : (setIsland s k x).dead = s.dead := rfl
@[simp] theorem setIsland_retire (s : State) (k : Nat) (x : Island) : (setIsland s k x).retire = s.retire := rfl
@[simp] theorem setIsland_retired (s : State) (k : Nat) (x : Island) : (setIsland s k x).retired = s.retired := rfl
@[simp] theorem setIsland_xlats (s : State) (k : Nat) (x : Island) : (setIsland s k x).xlats = s.xlats := rfl
@[simp] theorem setIsland_oldPtes (s : State) (k : Nat) (x : Island) : (setIsland s k x).oldPtes = s.oldPtes := rfl
@[simp] theorem setIsland_invals (s : State) (k : Nat) (x : Island) : (setIsland s k x).invals = s.invals := rfl
@[simp] theorem setIsland_pteCtr (s : State) (k : Nat) (x : Island) : (setIsland s k x).pteCtr = s.pteCtr := rfl
@[simp] theorem setIsland_hashKey (s : State) (k : Nat) (x : Island) : (setIsland s k x).hashKey = s.hashKey := rfl
@[simp] theorem setIsland_lines (s : State) (k : Nat) (x : Island) : (setIsland s k x).lines = s.lines := rfl
@[simp] theorem setIsland_fills (s : State) (k : Nat) (x : Island) : (setIsland s k x).fills = s.fills := rfl
@[simp] theorem setIsland_epochs (s : State) (k : Nat) (x : Island) : (setIsland s k x).epochs = s.epochs := rfl
@[simp] theorem setIsland_lastEpoch (s : State) (k : Nat) (x : Island) : (setIsland s k x).lastEpoch = s.lastEpoch := rfl
@[simp] theorem setIsland_redBufs (s : State) (k : Nat) (x : Island) : (setIsland s k x).redBufs = s.redBufs := rfl
@[simp] theorem setIsland_addBufs (s : State) (k : Nat) (x : Island) : (setIsland s k x).addBufs = s.addBufs := rfl
@[simp] theorem setIsland_nexts (s : State) (k : Nat) (x : Island) : (setIsland s k x).nexts = s.nexts := rfl
@[simp] theorem setIsland_turns (s : State) (k : Nat) (x : Island) : (setIsland s k x).turns = s.turns := rfl
@[simp] theorem setIsland_misses (s : State) (k : Nat) (x : Island) : (setIsland s k x).misses = s.misses := rfl
@[simp] theorem setIsland_bankQ (s : State) (k : Nat) (x : Island) : (setIsland s k x).bankQ = s.bankQ := rfl
@[simp] theorem setIsland_refused (s : State) (k : Nat) (x : Island) : (setIsland s k x).refused = s.refused := rfl
@[simp] theorem setIsland_reqCtr (s : State) (k : Nat) (x : Island) : (setIsland s k x).reqCtr = s.reqCtr := rfl
@[simp] theorem setIsland_credits (s : State) (k : Nat) (x : Island) : (setIsland s k x).credits = s.credits := rfl
@[simp] theorem setIsland_chanTurn (s : State) (k : Nat) (x : Island) : (setIsland s k x).chanTurn = s.chanTurn := rfl
@[simp] theorem setIsland_parts (s : State) (k : Nat) (x : Island) : (setIsland s k x).parts = s.parts := rfl
@[simp] theorem setIsland_staged (s : State) (k : Nat) (x : Island) : (setIsland s k x).staged = s.staged := rfl
@[simp] theorem setIsland_pcbNext (s : State) (k : Nat) (x : Island) : (setIsland s k x).pcbNext = s.pcbNext := rfl
@[simp] theorem setIsland_pcbLast (s : State) (k : Nat) (x : Island) : (setIsland s k x).pcbLast = s.pcbLast := rfl
@[simp] theorem setIsland_pcbResult (s : State) (k : Nat) (x : Island) : (setIsland s k x).pcbResult = s.pcbResult := rfl
@[simp] theorem setIsland_tiles (s : State) (k : Nat) (x : Island) : (setIsland s k x).tiles = s.tiles := rfl
@[simp] theorem setIsland_map0 (s : State) (k : Nat) (x : Island) : (setIsland s k x).map0 = s.map0 := rfl
@[simp] theorem setIsland_map1 (s : State) (k : Nat) (x : Island) : (setIsland s k x).map1 = s.map1 := rfl
@[simp] theorem setIsland_spares0 (s : State) (k : Nat) (x : Island) : (setIsland s k x).spares0 = s.spares0 := rfl
@[simp] theorem setIsland_spares1 (s : State) (k : Nat) (x : Island) : (setIsland s k x).spares1 = s.spares1 := rfl
@[simp] theorem setIsland_marked (s : State) (k : Nat) (x : Island) : (setIsland s k x).marked = s.marked := rfl
@[simp] theorem setIsland_routes (s : State) (k : Nat) (x : Island) : (setIsland s k x).routes = s.routes := rfl
@[simp] theorem setIsland_dispRuns (s : State) (k : Nat) (x : Island) : (setIsland s k x).dispRuns = s.dispRuns := rfl
@[simp] theorem setIsland_chips (s : State) (k : Nat) (x : Island) : (setIsland s k x).chips = s.chips := rfl
@[simp] theorem setIsland_groups (s : State) (k : Nat) (x : Island) : (setIsland s k x).groups = s.groups := rfl
@[simp] theorem setIsland_heldGroups (s : State) (k : Nat) (x : Island) : (setIsland s k x).heldGroups = s.heldGroups := rfl
@[simp] theorem setIsland_updRuns (s : State) (k : Nat) (x : Island) : (setIsland s k x).updRuns = s.updRuns := rfl
@[simp] theorem setIsland_rxt (s : State) (k : Nat) (x : Island) : (setIsland s k x).rxt = s.rxt := rfl
@[simp] theorem setIsland_nodeRoute (s : State) (k : Nat) (x : Island) : (setIsland s k x).nodeRoute = s.nodeRoute := rfl
@[simp] theorem setIsland_peerInc (s : State) (k : Nat) (x : Island) : (setIsland s k x).peerInc = s.peerInc := rfl
@[simp] theorem setIsland_fabCfg (s : State) (k : Nat) (x : Island) : (setIsland s k x).fabCfg = s.fabCfg := rfl
@[simp] theorem setIsland_ports (s : State) (k : Nat) (x : Island) : (setIsland s k x).ports = s.ports := rfl
@[simp] theorem setIsland_remotes (s : State) (k : Nat) (x : Island) : (setIsland s k x).remotes = s.remotes := rfl
@[simp] theorem setIsland_tagCtr (s : State) (k : Nat) (x : Island) : (setIsland s k x).tagCtr = s.tagCtr := rfl
@[simp] theorem setIsland_jobs (s : State) (k : Nat) (x : Island) : (setIsland s k x).jobs = s.jobs := rfl
@[simp] theorem setIsland_collRuns (s : State) (k : Nat) (x : Island) : (setIsland s k x).collRuns = s.collRuns := rfl
@[simp] theorem setIsland_inbox (s : State) (k : Nat) (x : Island) : (setIsland s k x).inbox = s.inbox := rfl
@[simp] theorem setIsland_outbox (s : State) (k : Nat) (x : Island) : (setIsland s k x).outbox = s.outbox := rfl
@[simp] theorem setIsland_flits (s : State) (k : Nat) (x : Island) : (setIsland s k x).flits = s.flits := rfl
@[simp] theorem setIsland_rehomed (s : State) (k : Nat) (x : Island) : (setIsland s k x).rehomed = s.rehomed := rfl
@[simp] theorem setIsland_injections (s : State) (k : Nat) (x : Island) : (setIsland s k x).injections = s.injections := rfl
@[simp] theorem setIsland_latents (s : State) (k : Nat) (x : Island) : (setIsland s k x).latents = s.latents := rfl
@[simp] theorem setIsland_fraction (s : State) (k : Nat) (x : Island) : (setIsland s k x).fraction = s.fraction := rfl
@[simp] theorem setIsland_repair (s : State) (k : Nat) (x : Island) : (setIsland s k x).repair = s.repair := rfl
@[simp] theorem setIsland_bridge (s : State) (k : Nat) (x : Island) : (setIsland s k x).bridge = s.bridge := rfl
@[simp] theorem setIsland_log0 (s : State) (k : Nat) (x : Island) : (setIsland s k x).log0 = s.log0 := rfl
@[simp] theorem setIsland_log1 (s : State) (k : Nat) (x : Island) : (setIsland s k x).log1 = s.log1 := rfl
@[simp] theorem setIsland_seq0 (s : State) (k : Nat) (x : Island) : (setIsland s k x).seq0 = s.seq0 := rfl
@[simp] theorem setIsland_seq1 (s : State) (k : Nat) (x : Island) : (setIsland s k x).seq1 = s.seq1 := rfl
@[simp] theorem setIsland_counters (s : State) (k : Nat) (x : Island) : (setIsland s k x).counters = s.counters := rfl
@[simp] theorem setIsland_tempSeen (s : State) (k : Nat) (x : Island) : (setIsland s k x).tempSeen = s.tempSeen := rfl
@[simp] theorem setIsland_patrol (s : State) (k : Nat) (x : Island) : (setIsland s k x).patrol = s.patrol := rfl
@[simp] theorem setIsland_spareRows (s : State) (k : Nat) (x : Island) : (setIsland s k x).spareRows = s.spareRows := rfl
@[simp] theorem setIsland_persist (s : State) (k : Nat) (x : Island) : (setIsland s k x).persist = s.persist := rfl
@[simp] theorem setIsland_mgmt (s : State) (k : Nat) (x : Island) : (setIsland s k x).mgmt = s.mgmt := rfl
@[simp] theorem setIsland_boot (s : State) (k : Nat) (x : Island) : (setIsland s k x).boot = s.boot := rfl
@[simp] theorem setIsland_sovel (s : State) (k : Nat) (x : Island) : (setIsland s k x).sovel = s.sovel := rfl
@[simp] theorem setIsland_power (s : State) (k : Nat) (x : Island) : (setIsland s k x).power = s.power := rfl
@[simp] theorem setIsland_reply (s : State) (k : Nat) (x : Island) : (setIsland s k x).reply = s.reply := rfl

/-! ### setRepair -/

@[simp] theorem setRepair_pending (s : State) (k : Nat) (x : DWord) : (setRepair s k x).pending = s.pending := rfl
@[simp] theorem setRepair_freeCtr (s : State) (k : Nat) (x : DWord) : (setRepair s k x).freeCtr = s.freeCtr := rfl
@[simp] theorem setRepair_run (s : State) (k : Nat) (x : DWord) : (setRepair s k x).run = s.run := rfl
@[simp] theorem setRepair_ctxs (s : State) (k : Nat) (x : DWord) : (setRepair s k x).ctxs = s.ctxs := rfl
@[simp] theorem setRepair_queues (s : State) (k : Nat) (x : DWord) : (setRepair s k x).queues = s.queues := rfl
@[simp] theorem setRepair_waiting (s : State) (k : Nat) (x : DWord) : (setRepair s k x).waiting = s.waiting := rfl
@[simp] theorem setRepair_bells (s : State) (k : Nat) (x : DWord) : (setRepair s k x).bells = s.bells := rfl
@[simp] theorem setRepair_objs (s : State) (k : Nat) (x : DWord) : (setRepair s k x).objs = s.objs := rfl
@[simp] theorem setRepair_objNext (s : State) (k : Nat) (x : DWord) : (setRepair s k x).objNext = s.objNext := rfl
@[simp] theorem setRepair_objFreed (s : State) (k : Nat) (x : DWord) : (setRepair s k x).objFreed = s.objFreed := rfl
@[simp] theorem setRepair_heaps (s : State) (k : Nat) (x : DWord) : (setRepair s k x).heaps = s.heaps := rfl
@[simp] theorem setRepair_cmds (s : State) (k : Nat) (x : DWord) : (setRepair s k x).cmds = s.cmds := rfl
@[simp] theorem setRepair_cmdCtr (s : State) (k : Nat) (x : DWord) : (setRepair s k x).cmdCtr = s.cmdCtr := rfl
@[simp] theorem setRepair_doomed (s : State) (k : Nat) (x : DWord) : (setRepair s k x).doomed = s.doomed := rfl
@[simp] theorem setRepair_rr (s : State) (k : Nat) (x : DWord) : (setRepair s k x).rr = s.rr := rfl
@[simp] theorem setRepair_halts (s : State) (k : Nat) (x : DWord) : (setRepair s k x).halts = s.halts := rfl
@[simp] theorem setRepair_launches (s : State) (k : Nat) (x : DWord) : (setRepair s k x).launches = s.launches := rfl
@[simp] theorem setRepair_mem (s : State) (k : Nat) (x : DWord) : (setRepair s k x).mem = s.mem := rfl
@[simp] theorem setRepair_poison (s : State) (k : Nat) (x : DWord) : (setRepair s k x).poison = s.poison := rfl
@[simp] theorem setRepair_dead (s : State) (k : Nat) (x : DWord) : (setRepair s k x).dead = s.dead := rfl
@[simp] theorem setRepair_retire (s : State) (k : Nat) (x : DWord) : (setRepair s k x).retire = s.retire := rfl
@[simp] theorem setRepair_retired (s : State) (k : Nat) (x : DWord) : (setRepair s k x).retired = s.retired := rfl
@[simp] theorem setRepair_xlats (s : State) (k : Nat) (x : DWord) : (setRepair s k x).xlats = s.xlats := rfl
@[simp] theorem setRepair_oldPtes (s : State) (k : Nat) (x : DWord) : (setRepair s k x).oldPtes = s.oldPtes := rfl
@[simp] theorem setRepair_invals (s : State) (k : Nat) (x : DWord) : (setRepair s k x).invals = s.invals := rfl
@[simp] theorem setRepair_pteCtr (s : State) (k : Nat) (x : DWord) : (setRepair s k x).pteCtr = s.pteCtr := rfl
@[simp] theorem setRepair_hashKey (s : State) (k : Nat) (x : DWord) : (setRepair s k x).hashKey = s.hashKey := rfl
@[simp] theorem setRepair_lines (s : State) (k : Nat) (x : DWord) : (setRepair s k x).lines = s.lines := rfl
@[simp] theorem setRepair_fills (s : State) (k : Nat) (x : DWord) : (setRepair s k x).fills = s.fills := rfl
@[simp] theorem setRepair_epochs (s : State) (k : Nat) (x : DWord) : (setRepair s k x).epochs = s.epochs := rfl
@[simp] theorem setRepair_lastEpoch (s : State) (k : Nat) (x : DWord) : (setRepair s k x).lastEpoch = s.lastEpoch := rfl
@[simp] theorem setRepair_redBufs (s : State) (k : Nat) (x : DWord) : (setRepair s k x).redBufs = s.redBufs := rfl
@[simp] theorem setRepair_addBufs (s : State) (k : Nat) (x : DWord) : (setRepair s k x).addBufs = s.addBufs := rfl
@[simp] theorem setRepair_nexts (s : State) (k : Nat) (x : DWord) : (setRepair s k x).nexts = s.nexts := rfl
@[simp] theorem setRepair_turns (s : State) (k : Nat) (x : DWord) : (setRepair s k x).turns = s.turns := rfl
@[simp] theorem setRepair_misses (s : State) (k : Nat) (x : DWord) : (setRepair s k x).misses = s.misses := rfl
@[simp] theorem setRepair_bankQ (s : State) (k : Nat) (x : DWord) : (setRepair s k x).bankQ = s.bankQ := rfl
@[simp] theorem setRepair_refused (s : State) (k : Nat) (x : DWord) : (setRepair s k x).refused = s.refused := rfl
@[simp] theorem setRepair_reqCtr (s : State) (k : Nat) (x : DWord) : (setRepair s k x).reqCtr = s.reqCtr := rfl
@[simp] theorem setRepair_credits (s : State) (k : Nat) (x : DWord) : (setRepair s k x).credits = s.credits := rfl
@[simp] theorem setRepair_chanTurn (s : State) (k : Nat) (x : DWord) : (setRepair s k x).chanTurn = s.chanTurn := rfl
@[simp] theorem setRepair_parts (s : State) (k : Nat) (x : DWord) : (setRepair s k x).parts = s.parts := rfl
@[simp] theorem setRepair_staged (s : State) (k : Nat) (x : DWord) : (setRepair s k x).staged = s.staged := rfl
@[simp] theorem setRepair_pcbNext (s : State) (k : Nat) (x : DWord) : (setRepair s k x).pcbNext = s.pcbNext := rfl
@[simp] theorem setRepair_pcbLast (s : State) (k : Nat) (x : DWord) : (setRepair s k x).pcbLast = s.pcbLast := rfl
@[simp] theorem setRepair_pcbResult (s : State) (k : Nat) (x : DWord) : (setRepair s k x).pcbResult = s.pcbResult := rfl
@[simp] theorem setRepair_tiles (s : State) (k : Nat) (x : DWord) : (setRepair s k x).tiles = s.tiles := rfl
@[simp] theorem setRepair_map0 (s : State) (k : Nat) (x : DWord) : (setRepair s k x).map0 = s.map0 := rfl
@[simp] theorem setRepair_map1 (s : State) (k : Nat) (x : DWord) : (setRepair s k x).map1 = s.map1 := rfl
@[simp] theorem setRepair_spares0 (s : State) (k : Nat) (x : DWord) : (setRepair s k x).spares0 = s.spares0 := rfl
@[simp] theorem setRepair_spares1 (s : State) (k : Nat) (x : DWord) : (setRepair s k x).spares1 = s.spares1 := rfl
@[simp] theorem setRepair_marked (s : State) (k : Nat) (x : DWord) : (setRepair s k x).marked = s.marked := rfl
@[simp] theorem setRepair_routes (s : State) (k : Nat) (x : DWord) : (setRepair s k x).routes = s.routes := rfl
@[simp] theorem setRepair_dispRuns (s : State) (k : Nat) (x : DWord) : (setRepair s k x).dispRuns = s.dispRuns := rfl
@[simp] theorem setRepair_chips (s : State) (k : Nat) (x : DWord) : (setRepair s k x).chips = s.chips := rfl
@[simp] theorem setRepair_groups (s : State) (k : Nat) (x : DWord) : (setRepair s k x).groups = s.groups := rfl
@[simp] theorem setRepair_heldGroups (s : State) (k : Nat) (x : DWord) : (setRepair s k x).heldGroups = s.heldGroups := rfl
@[simp] theorem setRepair_updRuns (s : State) (k : Nat) (x : DWord) : (setRepair s k x).updRuns = s.updRuns := rfl
@[simp] theorem setRepair_rxt (s : State) (k : Nat) (x : DWord) : (setRepair s k x).rxt = s.rxt := rfl
@[simp] theorem setRepair_nodeRoute (s : State) (k : Nat) (x : DWord) : (setRepair s k x).nodeRoute = s.nodeRoute := rfl
@[simp] theorem setRepair_peerInc (s : State) (k : Nat) (x : DWord) : (setRepair s k x).peerInc = s.peerInc := rfl
@[simp] theorem setRepair_fabCfg (s : State) (k : Nat) (x : DWord) : (setRepair s k x).fabCfg = s.fabCfg := rfl
@[simp] theorem setRepair_ports (s : State) (k : Nat) (x : DWord) : (setRepair s k x).ports = s.ports := rfl
@[simp] theorem setRepair_remotes (s : State) (k : Nat) (x : DWord) : (setRepair s k x).remotes = s.remotes := rfl
@[simp] theorem setRepair_tagCtr (s : State) (k : Nat) (x : DWord) : (setRepair s k x).tagCtr = s.tagCtr := rfl
@[simp] theorem setRepair_jobs (s : State) (k : Nat) (x : DWord) : (setRepair s k x).jobs = s.jobs := rfl
@[simp] theorem setRepair_collRuns (s : State) (k : Nat) (x : DWord) : (setRepair s k x).collRuns = s.collRuns := rfl
@[simp] theorem setRepair_inbox (s : State) (k : Nat) (x : DWord) : (setRepair s k x).inbox = s.inbox := rfl
@[simp] theorem setRepair_outbox (s : State) (k : Nat) (x : DWord) : (setRepair s k x).outbox = s.outbox := rfl
@[simp] theorem setRepair_flits (s : State) (k : Nat) (x : DWord) : (setRepair s k x).flits = s.flits := rfl
@[simp] theorem setRepair_rehomed (s : State) (k : Nat) (x : DWord) : (setRepair s k x).rehomed = s.rehomed := rfl
@[simp] theorem setRepair_injections (s : State) (k : Nat) (x : DWord) : (setRepair s k x).injections = s.injections := rfl
@[simp] theorem setRepair_latents (s : State) (k : Nat) (x : DWord) : (setRepair s k x).latents = s.latents := rfl
@[simp] theorem setRepair_fraction (s : State) (k : Nat) (x : DWord) : (setRepair s k x).fraction = s.fraction := rfl
@[simp] theorem setRepair_islands (s : State) (k : Nat) (x : DWord) : (setRepair s k x).islands = s.islands := rfl
@[simp] theorem setRepair_bridge (s : State) (k : Nat) (x : DWord) : (setRepair s k x).bridge = s.bridge := rfl
@[simp] theorem setRepair_log0 (s : State) (k : Nat) (x : DWord) : (setRepair s k x).log0 = s.log0 := rfl
@[simp] theorem setRepair_log1 (s : State) (k : Nat) (x : DWord) : (setRepair s k x).log1 = s.log1 := rfl
@[simp] theorem setRepair_seq0 (s : State) (k : Nat) (x : DWord) : (setRepair s k x).seq0 = s.seq0 := rfl
@[simp] theorem setRepair_seq1 (s : State) (k : Nat) (x : DWord) : (setRepair s k x).seq1 = s.seq1 := rfl
@[simp] theorem setRepair_counters (s : State) (k : Nat) (x : DWord) : (setRepair s k x).counters = s.counters := rfl
@[simp] theorem setRepair_tempSeen (s : State) (k : Nat) (x : DWord) : (setRepair s k x).tempSeen = s.tempSeen := rfl
@[simp] theorem setRepair_patrol (s : State) (k : Nat) (x : DWord) : (setRepair s k x).patrol = s.patrol := rfl
@[simp] theorem setRepair_spareRows (s : State) (k : Nat) (x : DWord) : (setRepair s k x).spareRows = s.spareRows := rfl
@[simp] theorem setRepair_persist (s : State) (k : Nat) (x : DWord) : (setRepair s k x).persist = s.persist := rfl
@[simp] theorem setRepair_mgmt (s : State) (k : Nat) (x : DWord) : (setRepair s k x).mgmt = s.mgmt := rfl
@[simp] theorem setRepair_boot (s : State) (k : Nat) (x : DWord) : (setRepair s k x).boot = s.boot := rfl
@[simp] theorem setRepair_sovel (s : State) (k : Nat) (x : DWord) : (setRepair s k x).sovel = s.sovel := rfl
@[simp] theorem setRepair_power (s : State) (k : Nat) (x : DWord) : (setRepair s k x).power = s.power := rfl
@[simp] theorem setRepair_reply (s : State) (k : Nat) (x : DWord) : (setRepair s k x).reply = s.reply := rfl

/-! ### setRoute -/

@[simp] theorem setRoute_pending (s : State) (k : Nat) (x : Route) : (setRoute s k x).pending = s.pending := rfl
@[simp] theorem setRoute_freeCtr (s : State) (k : Nat) (x : Route) : (setRoute s k x).freeCtr = s.freeCtr := rfl
@[simp] theorem setRoute_run (s : State) (k : Nat) (x : Route) : (setRoute s k x).run = s.run := rfl
@[simp] theorem setRoute_ctxs (s : State) (k : Nat) (x : Route) : (setRoute s k x).ctxs = s.ctxs := rfl
@[simp] theorem setRoute_queues (s : State) (k : Nat) (x : Route) : (setRoute s k x).queues = s.queues := rfl
@[simp] theorem setRoute_waiting (s : State) (k : Nat) (x : Route) : (setRoute s k x).waiting = s.waiting := rfl
@[simp] theorem setRoute_bells (s : State) (k : Nat) (x : Route) : (setRoute s k x).bells = s.bells := rfl
@[simp] theorem setRoute_objs (s : State) (k : Nat) (x : Route) : (setRoute s k x).objs = s.objs := rfl
@[simp] theorem setRoute_objNext (s : State) (k : Nat) (x : Route) : (setRoute s k x).objNext = s.objNext := rfl
@[simp] theorem setRoute_objFreed (s : State) (k : Nat) (x : Route) : (setRoute s k x).objFreed = s.objFreed := rfl
@[simp] theorem setRoute_heaps (s : State) (k : Nat) (x : Route) : (setRoute s k x).heaps = s.heaps := rfl
@[simp] theorem setRoute_cmds (s : State) (k : Nat) (x : Route) : (setRoute s k x).cmds = s.cmds := rfl
@[simp] theorem setRoute_cmdCtr (s : State) (k : Nat) (x : Route) : (setRoute s k x).cmdCtr = s.cmdCtr := rfl
@[simp] theorem setRoute_doomed (s : State) (k : Nat) (x : Route) : (setRoute s k x).doomed = s.doomed := rfl
@[simp] theorem setRoute_rr (s : State) (k : Nat) (x : Route) : (setRoute s k x).rr = s.rr := rfl
@[simp] theorem setRoute_halts (s : State) (k : Nat) (x : Route) : (setRoute s k x).halts = s.halts := rfl
@[simp] theorem setRoute_launches (s : State) (k : Nat) (x : Route) : (setRoute s k x).launches = s.launches := rfl
@[simp] theorem setRoute_mem (s : State) (k : Nat) (x : Route) : (setRoute s k x).mem = s.mem := rfl
@[simp] theorem setRoute_poison (s : State) (k : Nat) (x : Route) : (setRoute s k x).poison = s.poison := rfl
@[simp] theorem setRoute_dead (s : State) (k : Nat) (x : Route) : (setRoute s k x).dead = s.dead := rfl
@[simp] theorem setRoute_retire (s : State) (k : Nat) (x : Route) : (setRoute s k x).retire = s.retire := rfl
@[simp] theorem setRoute_retired (s : State) (k : Nat) (x : Route) : (setRoute s k x).retired = s.retired := rfl
@[simp] theorem setRoute_xlats (s : State) (k : Nat) (x : Route) : (setRoute s k x).xlats = s.xlats := rfl
@[simp] theorem setRoute_oldPtes (s : State) (k : Nat) (x : Route) : (setRoute s k x).oldPtes = s.oldPtes := rfl
@[simp] theorem setRoute_invals (s : State) (k : Nat) (x : Route) : (setRoute s k x).invals = s.invals := rfl
@[simp] theorem setRoute_pteCtr (s : State) (k : Nat) (x : Route) : (setRoute s k x).pteCtr = s.pteCtr := rfl
@[simp] theorem setRoute_hashKey (s : State) (k : Nat) (x : Route) : (setRoute s k x).hashKey = s.hashKey := rfl
@[simp] theorem setRoute_lines (s : State) (k : Nat) (x : Route) : (setRoute s k x).lines = s.lines := rfl
@[simp] theorem setRoute_fills (s : State) (k : Nat) (x : Route) : (setRoute s k x).fills = s.fills := rfl
@[simp] theorem setRoute_epochs (s : State) (k : Nat) (x : Route) : (setRoute s k x).epochs = s.epochs := rfl
@[simp] theorem setRoute_lastEpoch (s : State) (k : Nat) (x : Route) : (setRoute s k x).lastEpoch = s.lastEpoch := rfl
@[simp] theorem setRoute_redBufs (s : State) (k : Nat) (x : Route) : (setRoute s k x).redBufs = s.redBufs := rfl
@[simp] theorem setRoute_addBufs (s : State) (k : Nat) (x : Route) : (setRoute s k x).addBufs = s.addBufs := rfl
@[simp] theorem setRoute_nexts (s : State) (k : Nat) (x : Route) : (setRoute s k x).nexts = s.nexts := rfl
@[simp] theorem setRoute_turns (s : State) (k : Nat) (x : Route) : (setRoute s k x).turns = s.turns := rfl
@[simp] theorem setRoute_misses (s : State) (k : Nat) (x : Route) : (setRoute s k x).misses = s.misses := rfl
@[simp] theorem setRoute_bankQ (s : State) (k : Nat) (x : Route) : (setRoute s k x).bankQ = s.bankQ := rfl
@[simp] theorem setRoute_refused (s : State) (k : Nat) (x : Route) : (setRoute s k x).refused = s.refused := rfl
@[simp] theorem setRoute_reqCtr (s : State) (k : Nat) (x : Route) : (setRoute s k x).reqCtr = s.reqCtr := rfl
@[simp] theorem setRoute_credits (s : State) (k : Nat) (x : Route) : (setRoute s k x).credits = s.credits := rfl
@[simp] theorem setRoute_chanTurn (s : State) (k : Nat) (x : Route) : (setRoute s k x).chanTurn = s.chanTurn := rfl
@[simp] theorem setRoute_parts (s : State) (k : Nat) (x : Route) : (setRoute s k x).parts = s.parts := rfl
@[simp] theorem setRoute_staged (s : State) (k : Nat) (x : Route) : (setRoute s k x).staged = s.staged := rfl
@[simp] theorem setRoute_pcbNext (s : State) (k : Nat) (x : Route) : (setRoute s k x).pcbNext = s.pcbNext := rfl
@[simp] theorem setRoute_pcbLast (s : State) (k : Nat) (x : Route) : (setRoute s k x).pcbLast = s.pcbLast := rfl
@[simp] theorem setRoute_pcbResult (s : State) (k : Nat) (x : Route) : (setRoute s k x).pcbResult = s.pcbResult := rfl
@[simp] theorem setRoute_tiles (s : State) (k : Nat) (x : Route) : (setRoute s k x).tiles = s.tiles := rfl
@[simp] theorem setRoute_map0 (s : State) (k : Nat) (x : Route) : (setRoute s k x).map0 = s.map0 := rfl
@[simp] theorem setRoute_map1 (s : State) (k : Nat) (x : Route) : (setRoute s k x).map1 = s.map1 := rfl
@[simp] theorem setRoute_spares0 (s : State) (k : Nat) (x : Route) : (setRoute s k x).spares0 = s.spares0 := rfl
@[simp] theorem setRoute_spares1 (s : State) (k : Nat) (x : Route) : (setRoute s k x).spares1 = s.spares1 := rfl
@[simp] theorem setRoute_marked (s : State) (k : Nat) (x : Route) : (setRoute s k x).marked = s.marked := rfl
@[simp] theorem setRoute_dispRuns (s : State) (k : Nat) (x : Route) : (setRoute s k x).dispRuns = s.dispRuns := rfl
@[simp] theorem setRoute_chips (s : State) (k : Nat) (x : Route) : (setRoute s k x).chips = s.chips := rfl
@[simp] theorem setRoute_groups (s : State) (k : Nat) (x : Route) : (setRoute s k x).groups = s.groups := rfl
@[simp] theorem setRoute_heldGroups (s : State) (k : Nat) (x : Route) : (setRoute s k x).heldGroups = s.heldGroups := rfl
@[simp] theorem setRoute_updRuns (s : State) (k : Nat) (x : Route) : (setRoute s k x).updRuns = s.updRuns := rfl
@[simp] theorem setRoute_rxt (s : State) (k : Nat) (x : Route) : (setRoute s k x).rxt = s.rxt := rfl
@[simp] theorem setRoute_nodeRoute (s : State) (k : Nat) (x : Route) : (setRoute s k x).nodeRoute = s.nodeRoute := rfl
@[simp] theorem setRoute_peerInc (s : State) (k : Nat) (x : Route) : (setRoute s k x).peerInc = s.peerInc := rfl
@[simp] theorem setRoute_fabCfg (s : State) (k : Nat) (x : Route) : (setRoute s k x).fabCfg = s.fabCfg := rfl
@[simp] theorem setRoute_ports (s : State) (k : Nat) (x : Route) : (setRoute s k x).ports = s.ports := rfl
@[simp] theorem setRoute_remotes (s : State) (k : Nat) (x : Route) : (setRoute s k x).remotes = s.remotes := rfl
@[simp] theorem setRoute_tagCtr (s : State) (k : Nat) (x : Route) : (setRoute s k x).tagCtr = s.tagCtr := rfl
@[simp] theorem setRoute_jobs (s : State) (k : Nat) (x : Route) : (setRoute s k x).jobs = s.jobs := rfl
@[simp] theorem setRoute_collRuns (s : State) (k : Nat) (x : Route) : (setRoute s k x).collRuns = s.collRuns := rfl
@[simp] theorem setRoute_inbox (s : State) (k : Nat) (x : Route) : (setRoute s k x).inbox = s.inbox := rfl
@[simp] theorem setRoute_outbox (s : State) (k : Nat) (x : Route) : (setRoute s k x).outbox = s.outbox := rfl
@[simp] theorem setRoute_flits (s : State) (k : Nat) (x : Route) : (setRoute s k x).flits = s.flits := rfl
@[simp] theorem setRoute_rehomed (s : State) (k : Nat) (x : Route) : (setRoute s k x).rehomed = s.rehomed := rfl
@[simp] theorem setRoute_injections (s : State) (k : Nat) (x : Route) : (setRoute s k x).injections = s.injections := rfl
@[simp] theorem setRoute_latents (s : State) (k : Nat) (x : Route) : (setRoute s k x).latents = s.latents := rfl
@[simp] theorem setRoute_fraction (s : State) (k : Nat) (x : Route) : (setRoute s k x).fraction = s.fraction := rfl
@[simp] theorem setRoute_islands (s : State) (k : Nat) (x : Route) : (setRoute s k x).islands = s.islands := rfl
@[simp] theorem setRoute_repair (s : State) (k : Nat) (x : Route) : (setRoute s k x).repair = s.repair := rfl
@[simp] theorem setRoute_bridge (s : State) (k : Nat) (x : Route) : (setRoute s k x).bridge = s.bridge := rfl
@[simp] theorem setRoute_log0 (s : State) (k : Nat) (x : Route) : (setRoute s k x).log0 = s.log0 := rfl
@[simp] theorem setRoute_log1 (s : State) (k : Nat) (x : Route) : (setRoute s k x).log1 = s.log1 := rfl
@[simp] theorem setRoute_seq0 (s : State) (k : Nat) (x : Route) : (setRoute s k x).seq0 = s.seq0 := rfl
@[simp] theorem setRoute_seq1 (s : State) (k : Nat) (x : Route) : (setRoute s k x).seq1 = s.seq1 := rfl
@[simp] theorem setRoute_counters (s : State) (k : Nat) (x : Route) : (setRoute s k x).counters = s.counters := rfl
@[simp] theorem setRoute_tempSeen (s : State) (k : Nat) (x : Route) : (setRoute s k x).tempSeen = s.tempSeen := rfl
@[simp] theorem setRoute_patrol (s : State) (k : Nat) (x : Route) : (setRoute s k x).patrol = s.patrol := rfl
@[simp] theorem setRoute_spareRows (s : State) (k : Nat) (x : Route) : (setRoute s k x).spareRows = s.spareRows := rfl
@[simp] theorem setRoute_persist (s : State) (k : Nat) (x : Route) : (setRoute s k x).persist = s.persist := rfl
@[simp] theorem setRoute_mgmt (s : State) (k : Nat) (x : Route) : (setRoute s k x).mgmt = s.mgmt := rfl
@[simp] theorem setRoute_boot (s : State) (k : Nat) (x : Route) : (setRoute s k x).boot = s.boot := rfl
@[simp] theorem setRoute_sovel (s : State) (k : Nat) (x : Route) : (setRoute s k x).sovel = s.sovel := rfl
@[simp] theorem setRoute_power (s : State) (k : Nat) (x : Route) : (setRoute s k x).power = s.power := rfl
@[simp] theorem setRoute_reply (s : State) (k : Nat) (x : Route) : (setRoute s k x).reply = s.reply := rfl

/-! ### setPort -/

@[simp] theorem setPort_pending (s : State) (k : Nat) (x : Port) : (setPort s k x).pending = s.pending := rfl
@[simp] theorem setPort_freeCtr (s : State) (k : Nat) (x : Port) : (setPort s k x).freeCtr = s.freeCtr := rfl
@[simp] theorem setPort_run (s : State) (k : Nat) (x : Port) : (setPort s k x).run = s.run := rfl
@[simp] theorem setPort_ctxs (s : State) (k : Nat) (x : Port) : (setPort s k x).ctxs = s.ctxs := rfl
@[simp] theorem setPort_queues (s : State) (k : Nat) (x : Port) : (setPort s k x).queues = s.queues := rfl
@[simp] theorem setPort_waiting (s : State) (k : Nat) (x : Port) : (setPort s k x).waiting = s.waiting := rfl
@[simp] theorem setPort_bells (s : State) (k : Nat) (x : Port) : (setPort s k x).bells = s.bells := rfl
@[simp] theorem setPort_objs (s : State) (k : Nat) (x : Port) : (setPort s k x).objs = s.objs := rfl
@[simp] theorem setPort_objNext (s : State) (k : Nat) (x : Port) : (setPort s k x).objNext = s.objNext := rfl
@[simp] theorem setPort_objFreed (s : State) (k : Nat) (x : Port) : (setPort s k x).objFreed = s.objFreed := rfl
@[simp] theorem setPort_heaps (s : State) (k : Nat) (x : Port) : (setPort s k x).heaps = s.heaps := rfl
@[simp] theorem setPort_cmds (s : State) (k : Nat) (x : Port) : (setPort s k x).cmds = s.cmds := rfl
@[simp] theorem setPort_cmdCtr (s : State) (k : Nat) (x : Port) : (setPort s k x).cmdCtr = s.cmdCtr := rfl
@[simp] theorem setPort_doomed (s : State) (k : Nat) (x : Port) : (setPort s k x).doomed = s.doomed := rfl
@[simp] theorem setPort_rr (s : State) (k : Nat) (x : Port) : (setPort s k x).rr = s.rr := rfl
@[simp] theorem setPort_halts (s : State) (k : Nat) (x : Port) : (setPort s k x).halts = s.halts := rfl
@[simp] theorem setPort_launches (s : State) (k : Nat) (x : Port) : (setPort s k x).launches = s.launches := rfl
@[simp] theorem setPort_mem (s : State) (k : Nat) (x : Port) : (setPort s k x).mem = s.mem := rfl
@[simp] theorem setPort_poison (s : State) (k : Nat) (x : Port) : (setPort s k x).poison = s.poison := rfl
@[simp] theorem setPort_dead (s : State) (k : Nat) (x : Port) : (setPort s k x).dead = s.dead := rfl
@[simp] theorem setPort_retire (s : State) (k : Nat) (x : Port) : (setPort s k x).retire = s.retire := rfl
@[simp] theorem setPort_retired (s : State) (k : Nat) (x : Port) : (setPort s k x).retired = s.retired := rfl
@[simp] theorem setPort_xlats (s : State) (k : Nat) (x : Port) : (setPort s k x).xlats = s.xlats := rfl
@[simp] theorem setPort_oldPtes (s : State) (k : Nat) (x : Port) : (setPort s k x).oldPtes = s.oldPtes := rfl
@[simp] theorem setPort_invals (s : State) (k : Nat) (x : Port) : (setPort s k x).invals = s.invals := rfl
@[simp] theorem setPort_pteCtr (s : State) (k : Nat) (x : Port) : (setPort s k x).pteCtr = s.pteCtr := rfl
@[simp] theorem setPort_hashKey (s : State) (k : Nat) (x : Port) : (setPort s k x).hashKey = s.hashKey := rfl
@[simp] theorem setPort_lines (s : State) (k : Nat) (x : Port) : (setPort s k x).lines = s.lines := rfl
@[simp] theorem setPort_fills (s : State) (k : Nat) (x : Port) : (setPort s k x).fills = s.fills := rfl
@[simp] theorem setPort_epochs (s : State) (k : Nat) (x : Port) : (setPort s k x).epochs = s.epochs := rfl
@[simp] theorem setPort_lastEpoch (s : State) (k : Nat) (x : Port) : (setPort s k x).lastEpoch = s.lastEpoch := rfl
@[simp] theorem setPort_redBufs (s : State) (k : Nat) (x : Port) : (setPort s k x).redBufs = s.redBufs := rfl
@[simp] theorem setPort_addBufs (s : State) (k : Nat) (x : Port) : (setPort s k x).addBufs = s.addBufs := rfl
@[simp] theorem setPort_nexts (s : State) (k : Nat) (x : Port) : (setPort s k x).nexts = s.nexts := rfl
@[simp] theorem setPort_turns (s : State) (k : Nat) (x : Port) : (setPort s k x).turns = s.turns := rfl
@[simp] theorem setPort_misses (s : State) (k : Nat) (x : Port) : (setPort s k x).misses = s.misses := rfl
@[simp] theorem setPort_bankQ (s : State) (k : Nat) (x : Port) : (setPort s k x).bankQ = s.bankQ := rfl
@[simp] theorem setPort_refused (s : State) (k : Nat) (x : Port) : (setPort s k x).refused = s.refused := rfl
@[simp] theorem setPort_reqCtr (s : State) (k : Nat) (x : Port) : (setPort s k x).reqCtr = s.reqCtr := rfl
@[simp] theorem setPort_credits (s : State) (k : Nat) (x : Port) : (setPort s k x).credits = s.credits := rfl
@[simp] theorem setPort_chanTurn (s : State) (k : Nat) (x : Port) : (setPort s k x).chanTurn = s.chanTurn := rfl
@[simp] theorem setPort_parts (s : State) (k : Nat) (x : Port) : (setPort s k x).parts = s.parts := rfl
@[simp] theorem setPort_staged (s : State) (k : Nat) (x : Port) : (setPort s k x).staged = s.staged := rfl
@[simp] theorem setPort_pcbNext (s : State) (k : Nat) (x : Port) : (setPort s k x).pcbNext = s.pcbNext := rfl
@[simp] theorem setPort_pcbLast (s : State) (k : Nat) (x : Port) : (setPort s k x).pcbLast = s.pcbLast := rfl
@[simp] theorem setPort_pcbResult (s : State) (k : Nat) (x : Port) : (setPort s k x).pcbResult = s.pcbResult := rfl
@[simp] theorem setPort_tiles (s : State) (k : Nat) (x : Port) : (setPort s k x).tiles = s.tiles := rfl
@[simp] theorem setPort_map0 (s : State) (k : Nat) (x : Port) : (setPort s k x).map0 = s.map0 := rfl
@[simp] theorem setPort_map1 (s : State) (k : Nat) (x : Port) : (setPort s k x).map1 = s.map1 := rfl
@[simp] theorem setPort_spares0 (s : State) (k : Nat) (x : Port) : (setPort s k x).spares0 = s.spares0 := rfl
@[simp] theorem setPort_spares1 (s : State) (k : Nat) (x : Port) : (setPort s k x).spares1 = s.spares1 := rfl
@[simp] theorem setPort_marked (s : State) (k : Nat) (x : Port) : (setPort s k x).marked = s.marked := rfl
@[simp] theorem setPort_routes (s : State) (k : Nat) (x : Port) : (setPort s k x).routes = s.routes := rfl
@[simp] theorem setPort_dispRuns (s : State) (k : Nat) (x : Port) : (setPort s k x).dispRuns = s.dispRuns := rfl
@[simp] theorem setPort_chips (s : State) (k : Nat) (x : Port) : (setPort s k x).chips = s.chips := rfl
@[simp] theorem setPort_groups (s : State) (k : Nat) (x : Port) : (setPort s k x).groups = s.groups := rfl
@[simp] theorem setPort_heldGroups (s : State) (k : Nat) (x : Port) : (setPort s k x).heldGroups = s.heldGroups := rfl
@[simp] theorem setPort_updRuns (s : State) (k : Nat) (x : Port) : (setPort s k x).updRuns = s.updRuns := rfl
@[simp] theorem setPort_rxt (s : State) (k : Nat) (x : Port) : (setPort s k x).rxt = s.rxt := rfl
@[simp] theorem setPort_nodeRoute (s : State) (k : Nat) (x : Port) : (setPort s k x).nodeRoute = s.nodeRoute := rfl
@[simp] theorem setPort_peerInc (s : State) (k : Nat) (x : Port) : (setPort s k x).peerInc = s.peerInc := rfl
@[simp] theorem setPort_fabCfg (s : State) (k : Nat) (x : Port) : (setPort s k x).fabCfg = s.fabCfg := rfl
@[simp] theorem setPort_remotes (s : State) (k : Nat) (x : Port) : (setPort s k x).remotes = s.remotes := rfl
@[simp] theorem setPort_tagCtr (s : State) (k : Nat) (x : Port) : (setPort s k x).tagCtr = s.tagCtr := rfl
@[simp] theorem setPort_jobs (s : State) (k : Nat) (x : Port) : (setPort s k x).jobs = s.jobs := rfl
@[simp] theorem setPort_collRuns (s : State) (k : Nat) (x : Port) : (setPort s k x).collRuns = s.collRuns := rfl
@[simp] theorem setPort_inbox (s : State) (k : Nat) (x : Port) : (setPort s k x).inbox = s.inbox := rfl
@[simp] theorem setPort_outbox (s : State) (k : Nat) (x : Port) : (setPort s k x).outbox = s.outbox := rfl
@[simp] theorem setPort_flits (s : State) (k : Nat) (x : Port) : (setPort s k x).flits = s.flits := rfl
@[simp] theorem setPort_rehomed (s : State) (k : Nat) (x : Port) : (setPort s k x).rehomed = s.rehomed := rfl
@[simp] theorem setPort_injections (s : State) (k : Nat) (x : Port) : (setPort s k x).injections = s.injections := rfl
@[simp] theorem setPort_latents (s : State) (k : Nat) (x : Port) : (setPort s k x).latents = s.latents := rfl
@[simp] theorem setPort_fraction (s : State) (k : Nat) (x : Port) : (setPort s k x).fraction = s.fraction := rfl
@[simp] theorem setPort_islands (s : State) (k : Nat) (x : Port) : (setPort s k x).islands = s.islands := rfl
@[simp] theorem setPort_repair (s : State) (k : Nat) (x : Port) : (setPort s k x).repair = s.repair := rfl
@[simp] theorem setPort_bridge (s : State) (k : Nat) (x : Port) : (setPort s k x).bridge = s.bridge := rfl
@[simp] theorem setPort_log0 (s : State) (k : Nat) (x : Port) : (setPort s k x).log0 = s.log0 := rfl
@[simp] theorem setPort_log1 (s : State) (k : Nat) (x : Port) : (setPort s k x).log1 = s.log1 := rfl
@[simp] theorem setPort_seq0 (s : State) (k : Nat) (x : Port) : (setPort s k x).seq0 = s.seq0 := rfl
@[simp] theorem setPort_seq1 (s : State) (k : Nat) (x : Port) : (setPort s k x).seq1 = s.seq1 := rfl
@[simp] theorem setPort_counters (s : State) (k : Nat) (x : Port) : (setPort s k x).counters = s.counters := rfl
@[simp] theorem setPort_tempSeen (s : State) (k : Nat) (x : Port) : (setPort s k x).tempSeen = s.tempSeen := rfl
@[simp] theorem setPort_patrol (s : State) (k : Nat) (x : Port) : (setPort s k x).patrol = s.patrol := rfl
@[simp] theorem setPort_spareRows (s : State) (k : Nat) (x : Port) : (setPort s k x).spareRows = s.spareRows := rfl
@[simp] theorem setPort_persist (s : State) (k : Nat) (x : Port) : (setPort s k x).persist = s.persist := rfl
@[simp] theorem setPort_mgmt (s : State) (k : Nat) (x : Port) : (setPort s k x).mgmt = s.mgmt := rfl
@[simp] theorem setPort_boot (s : State) (k : Nat) (x : Port) : (setPort s k x).boot = s.boot := rfl
@[simp] theorem setPort_sovel (s : State) (k : Nat) (x : Port) : (setPort s k x).sovel = s.sovel := rfl
@[simp] theorem setPort_power (s : State) (k : Nat) (x : Port) : (setPort s k x).power = s.power := rfl
@[simp] theorem setPort_reply (s : State) (k : Nat) (x : Port) : (setPort s k x).reply = s.reply := rfl

/-! ### updCmd -/

@[simp] theorem updCmd_pending (s : State) (c : CmdRef) (f : Cmd → Cmd) : (updCmd s c f).pending = s.pending := rfl
@[simp] theorem updCmd_freeCtr (s : State) (c : CmdRef) (f : Cmd → Cmd) : (updCmd s c f).freeCtr = s.freeCtr := rfl
@[simp] theorem updCmd_run (s : State) (c : CmdRef) (f : Cmd → Cmd) : (updCmd s c f).run = s.run := rfl
@[simp] theorem updCmd_ctxs (s : State) (c : CmdRef) (f : Cmd → Cmd) : (updCmd s c f).ctxs = s.ctxs := rfl
@[simp] theorem updCmd_queues (s : State) (c : CmdRef) (f : Cmd → Cmd) : (updCmd s c f).queues = s.queues := rfl
@[simp] theorem updCmd_waiting (s : State) (c : CmdRef) (f : Cmd → Cmd) : (updCmd s c f).waiting = s.waiting := rfl
@[simp] theorem updCmd_bells (s : State) (c : CmdRef) (f : Cmd → Cmd) : (updCmd s c f).bells = s.bells := rfl
@[simp] theorem updCmd_objs (s : State) (c : CmdRef) (f : Cmd → Cmd) : (updCmd s c f).objs = s.objs := rfl
@[simp] theorem updCmd_objNext (s : State) (c : CmdRef) (f : Cmd → Cmd) : (updCmd s c f).objNext = s.objNext := rfl
@[simp] theorem updCmd_objFreed (s : State) (c : CmdRef) (f : Cmd → Cmd) : (updCmd s c f).objFreed = s.objFreed := rfl
@[simp] theorem updCmd_heaps (s : State) (c : CmdRef) (f : Cmd → Cmd) : (updCmd s c f).heaps = s.heaps := rfl
@[simp] theorem updCmd_cmdCtr (s : State) (c : CmdRef) (f : Cmd → Cmd) : (updCmd s c f).cmdCtr = s.cmdCtr := rfl
@[simp] theorem updCmd_doomed (s : State) (c : CmdRef) (f : Cmd → Cmd) : (updCmd s c f).doomed = s.doomed := rfl
@[simp] theorem updCmd_rr (s : State) (c : CmdRef) (f : Cmd → Cmd) : (updCmd s c f).rr = s.rr := rfl
@[simp] theorem updCmd_halts (s : State) (c : CmdRef) (f : Cmd → Cmd) : (updCmd s c f).halts = s.halts := rfl
@[simp] theorem updCmd_launches (s : State) (c : CmdRef) (f : Cmd → Cmd) : (updCmd s c f).launches = s.launches := rfl
@[simp] theorem updCmd_mem (s : State) (c : CmdRef) (f : Cmd → Cmd) : (updCmd s c f).mem = s.mem := rfl
@[simp] theorem updCmd_poison (s : State) (c : CmdRef) (f : Cmd → Cmd) : (updCmd s c f).poison = s.poison := rfl
@[simp] theorem updCmd_dead (s : State) (c : CmdRef) (f : Cmd → Cmd) : (updCmd s c f).dead = s.dead := rfl
@[simp] theorem updCmd_retire (s : State) (c : CmdRef) (f : Cmd → Cmd) : (updCmd s c f).retire = s.retire := rfl
@[simp] theorem updCmd_retired (s : State) (c : CmdRef) (f : Cmd → Cmd) : (updCmd s c f).retired = s.retired := rfl
@[simp] theorem updCmd_xlats (s : State) (c : CmdRef) (f : Cmd → Cmd) : (updCmd s c f).xlats = s.xlats := rfl
@[simp] theorem updCmd_oldPtes (s : State) (c : CmdRef) (f : Cmd → Cmd) : (updCmd s c f).oldPtes = s.oldPtes := rfl
@[simp] theorem updCmd_invals (s : State) (c : CmdRef) (f : Cmd → Cmd) : (updCmd s c f).invals = s.invals := rfl
@[simp] theorem updCmd_pteCtr (s : State) (c : CmdRef) (f : Cmd → Cmd) : (updCmd s c f).pteCtr = s.pteCtr := rfl
@[simp] theorem updCmd_hashKey (s : State) (c : CmdRef) (f : Cmd → Cmd) : (updCmd s c f).hashKey = s.hashKey := rfl
@[simp] theorem updCmd_lines (s : State) (c : CmdRef) (f : Cmd → Cmd) : (updCmd s c f).lines = s.lines := rfl
@[simp] theorem updCmd_fills (s : State) (c : CmdRef) (f : Cmd → Cmd) : (updCmd s c f).fills = s.fills := rfl
@[simp] theorem updCmd_epochs (s : State) (c : CmdRef) (f : Cmd → Cmd) : (updCmd s c f).epochs = s.epochs := rfl
@[simp] theorem updCmd_lastEpoch (s : State) (c : CmdRef) (f : Cmd → Cmd) : (updCmd s c f).lastEpoch = s.lastEpoch := rfl
@[simp] theorem updCmd_redBufs (s : State) (c : CmdRef) (f : Cmd → Cmd) : (updCmd s c f).redBufs = s.redBufs := rfl
@[simp] theorem updCmd_addBufs (s : State) (c : CmdRef) (f : Cmd → Cmd) : (updCmd s c f).addBufs = s.addBufs := rfl
@[simp] theorem updCmd_nexts (s : State) (c : CmdRef) (f : Cmd → Cmd) : (updCmd s c f).nexts = s.nexts := rfl
@[simp] theorem updCmd_turns (s : State) (c : CmdRef) (f : Cmd → Cmd) : (updCmd s c f).turns = s.turns := rfl
@[simp] theorem updCmd_misses (s : State) (c : CmdRef) (f : Cmd → Cmd) : (updCmd s c f).misses = s.misses := rfl
@[simp] theorem updCmd_bankQ (s : State) (c : CmdRef) (f : Cmd → Cmd) : (updCmd s c f).bankQ = s.bankQ := rfl
@[simp] theorem updCmd_refused (s : State) (c : CmdRef) (f : Cmd → Cmd) : (updCmd s c f).refused = s.refused := rfl
@[simp] theorem updCmd_reqCtr (s : State) (c : CmdRef) (f : Cmd → Cmd) : (updCmd s c f).reqCtr = s.reqCtr := rfl
@[simp] theorem updCmd_credits (s : State) (c : CmdRef) (f : Cmd → Cmd) : (updCmd s c f).credits = s.credits := rfl
@[simp] theorem updCmd_chanTurn (s : State) (c : CmdRef) (f : Cmd → Cmd) : (updCmd s c f).chanTurn = s.chanTurn := rfl
@[simp] theorem updCmd_parts (s : State) (c : CmdRef) (f : Cmd → Cmd) : (updCmd s c f).parts = s.parts := rfl
@[simp] theorem updCmd_staged (s : State) (c : CmdRef) (f : Cmd → Cmd) : (updCmd s c f).staged = s.staged := rfl
@[simp] theorem updCmd_pcbNext (s : State) (c : CmdRef) (f : Cmd → Cmd) : (updCmd s c f).pcbNext = s.pcbNext := rfl
@[simp] theorem updCmd_pcbLast (s : State) (c : CmdRef) (f : Cmd → Cmd) : (updCmd s c f).pcbLast = s.pcbLast := rfl
@[simp] theorem updCmd_pcbResult (s : State) (c : CmdRef) (f : Cmd → Cmd) : (updCmd s c f).pcbResult = s.pcbResult := rfl
@[simp] theorem updCmd_tiles (s : State) (c : CmdRef) (f : Cmd → Cmd) : (updCmd s c f).tiles = s.tiles := rfl
@[simp] theorem updCmd_map0 (s : State) (c : CmdRef) (f : Cmd → Cmd) : (updCmd s c f).map0 = s.map0 := rfl
@[simp] theorem updCmd_map1 (s : State) (c : CmdRef) (f : Cmd → Cmd) : (updCmd s c f).map1 = s.map1 := rfl
@[simp] theorem updCmd_spares0 (s : State) (c : CmdRef) (f : Cmd → Cmd) : (updCmd s c f).spares0 = s.spares0 := rfl
@[simp] theorem updCmd_spares1 (s : State) (c : CmdRef) (f : Cmd → Cmd) : (updCmd s c f).spares1 = s.spares1 := rfl
@[simp] theorem updCmd_marked (s : State) (c : CmdRef) (f : Cmd → Cmd) : (updCmd s c f).marked = s.marked := rfl
@[simp] theorem updCmd_routes (s : State) (c : CmdRef) (f : Cmd → Cmd) : (updCmd s c f).routes = s.routes := rfl
@[simp] theorem updCmd_dispRuns (s : State) (c : CmdRef) (f : Cmd → Cmd) : (updCmd s c f).dispRuns = s.dispRuns := rfl
@[simp] theorem updCmd_chips (s : State) (c : CmdRef) (f : Cmd → Cmd) : (updCmd s c f).chips = s.chips := rfl
@[simp] theorem updCmd_groups (s : State) (c : CmdRef) (f : Cmd → Cmd) : (updCmd s c f).groups = s.groups := rfl
@[simp] theorem updCmd_heldGroups (s : State) (c : CmdRef) (f : Cmd → Cmd) : (updCmd s c f).heldGroups = s.heldGroups := rfl
@[simp] theorem updCmd_updRuns (s : State) (c : CmdRef) (f : Cmd → Cmd) : (updCmd s c f).updRuns = s.updRuns := rfl
@[simp] theorem updCmd_rxt (s : State) (c : CmdRef) (f : Cmd → Cmd) : (updCmd s c f).rxt = s.rxt := rfl
@[simp] theorem updCmd_nodeRoute (s : State) (c : CmdRef) (f : Cmd → Cmd) : (updCmd s c f).nodeRoute = s.nodeRoute := rfl
@[simp] theorem updCmd_peerInc (s : State) (c : CmdRef) (f : Cmd → Cmd) : (updCmd s c f).peerInc = s.peerInc := rfl
@[simp] theorem updCmd_fabCfg (s : State) (c : CmdRef) (f : Cmd → Cmd) : (updCmd s c f).fabCfg = s.fabCfg := rfl
@[simp] theorem updCmd_ports (s : State) (c : CmdRef) (f : Cmd → Cmd) : (updCmd s c f).ports = s.ports := rfl
@[simp] theorem updCmd_remotes (s : State) (c : CmdRef) (f : Cmd → Cmd) : (updCmd s c f).remotes = s.remotes := rfl
@[simp] theorem updCmd_tagCtr (s : State) (c : CmdRef) (f : Cmd → Cmd) : (updCmd s c f).tagCtr = s.tagCtr := rfl
@[simp] theorem updCmd_jobs (s : State) (c : CmdRef) (f : Cmd → Cmd) : (updCmd s c f).jobs = s.jobs := rfl
@[simp] theorem updCmd_collRuns (s : State) (c : CmdRef) (f : Cmd → Cmd) : (updCmd s c f).collRuns = s.collRuns := rfl
@[simp] theorem updCmd_inbox (s : State) (c : CmdRef) (f : Cmd → Cmd) : (updCmd s c f).inbox = s.inbox := rfl
@[simp] theorem updCmd_outbox (s : State) (c : CmdRef) (f : Cmd → Cmd) : (updCmd s c f).outbox = s.outbox := rfl
@[simp] theorem updCmd_flits (s : State) (c : CmdRef) (f : Cmd → Cmd) : (updCmd s c f).flits = s.flits := rfl
@[simp] theorem updCmd_rehomed (s : State) (c : CmdRef) (f : Cmd → Cmd) : (updCmd s c f).rehomed = s.rehomed := rfl
@[simp] theorem updCmd_injections (s : State) (c : CmdRef) (f : Cmd → Cmd) : (updCmd s c f).injections = s.injections := rfl
@[simp] theorem updCmd_latents (s : State) (c : CmdRef) (f : Cmd → Cmd) : (updCmd s c f).latents = s.latents := rfl
@[simp] theorem updCmd_fraction (s : State) (c : CmdRef) (f : Cmd → Cmd) : (updCmd s c f).fraction = s.fraction := rfl
@[simp] theorem updCmd_islands (s : State) (c : CmdRef) (f : Cmd → Cmd) : (updCmd s c f).islands = s.islands := rfl
@[simp] theorem updCmd_repair (s : State) (c : CmdRef) (f : Cmd → Cmd) : (updCmd s c f).repair = s.repair := rfl
@[simp] theorem updCmd_bridge (s : State) (c : CmdRef) (f : Cmd → Cmd) : (updCmd s c f).bridge = s.bridge := rfl
@[simp] theorem updCmd_log0 (s : State) (c : CmdRef) (f : Cmd → Cmd) : (updCmd s c f).log0 = s.log0 := rfl
@[simp] theorem updCmd_log1 (s : State) (c : CmdRef) (f : Cmd → Cmd) : (updCmd s c f).log1 = s.log1 := rfl
@[simp] theorem updCmd_seq0 (s : State) (c : CmdRef) (f : Cmd → Cmd) : (updCmd s c f).seq0 = s.seq0 := rfl
@[simp] theorem updCmd_seq1 (s : State) (c : CmdRef) (f : Cmd → Cmd) : (updCmd s c f).seq1 = s.seq1 := rfl
@[simp] theorem updCmd_counters (s : State) (c : CmdRef) (f : Cmd → Cmd) : (updCmd s c f).counters = s.counters := rfl
@[simp] theorem updCmd_tempSeen (s : State) (c : CmdRef) (f : Cmd → Cmd) : (updCmd s c f).tempSeen = s.tempSeen := rfl
@[simp] theorem updCmd_patrol (s : State) (c : CmdRef) (f : Cmd → Cmd) : (updCmd s c f).patrol = s.patrol := rfl
@[simp] theorem updCmd_spareRows (s : State) (c : CmdRef) (f : Cmd → Cmd) : (updCmd s c f).spareRows = s.spareRows := rfl
@[simp] theorem updCmd_persist (s : State) (c : CmdRef) (f : Cmd → Cmd) : (updCmd s c f).persist = s.persist := rfl
@[simp] theorem updCmd_mgmt (s : State) (c : CmdRef) (f : Cmd → Cmd) : (updCmd s c f).mgmt = s.mgmt := rfl
@[simp] theorem updCmd_boot (s : State) (c : CmdRef) (f : Cmd → Cmd) : (updCmd s c f).boot = s.boot := rfl
@[simp] theorem updCmd_sovel (s : State) (c : CmdRef) (f : Cmd → Cmd) : (updCmd s c f).sovel = s.sovel := rfl
@[simp] theorem updCmd_power (s : State) (c : CmdRef) (f : Cmd → Cmd) : (updCmd s c f).power = s.power := rfl
@[simp] theorem updCmd_reply (s : State) (c : CmdRef) (f : Cmd → Cmd) : (updCmd s c f).reply = s.reply := rfl

/-! ### setCounter -/

@[simp] theorem setCounter_pending (s : State) (t i w : Nat) (v : DWord) : (setCounter s t i w v).pending = s.pending := rfl
@[simp] theorem setCounter_freeCtr (s : State) (t i w : Nat) (v : DWord) : (setCounter s t i w v).freeCtr = s.freeCtr := rfl
@[simp] theorem setCounter_run (s : State) (t i w : Nat) (v : DWord) : (setCounter s t i w v).run = s.run := rfl
@[simp] theorem setCounter_ctxs (s : State) (t i w : Nat) (v : DWord) : (setCounter s t i w v).ctxs = s.ctxs := rfl
@[simp] theorem setCounter_queues (s : State) (t i w : Nat) (v : DWord) : (setCounter s t i w v).queues = s.queues := rfl
@[simp] theorem setCounter_waiting (s : State) (t i w : Nat) (v : DWord) : (setCounter s t i w v).waiting = s.waiting := rfl
@[simp] theorem setCounter_bells (s : State) (t i w : Nat) (v : DWord) : (setCounter s t i w v).bells = s.bells := rfl
@[simp] theorem setCounter_objs (s : State) (t i w : Nat) (v : DWord) : (setCounter s t i w v).objs = s.objs := rfl
@[simp] theorem setCounter_objNext (s : State) (t i w : Nat) (v : DWord) : (setCounter s t i w v).objNext = s.objNext := rfl
@[simp] theorem setCounter_objFreed (s : State) (t i w : Nat) (v : DWord) : (setCounter s t i w v).objFreed = s.objFreed := rfl
@[simp] theorem setCounter_heaps (s : State) (t i w : Nat) (v : DWord) : (setCounter s t i w v).heaps = s.heaps := rfl
@[simp] theorem setCounter_cmds (s : State) (t i w : Nat) (v : DWord) : (setCounter s t i w v).cmds = s.cmds := rfl
@[simp] theorem setCounter_cmdCtr (s : State) (t i w : Nat) (v : DWord) : (setCounter s t i w v).cmdCtr = s.cmdCtr := rfl
@[simp] theorem setCounter_doomed (s : State) (t i w : Nat) (v : DWord) : (setCounter s t i w v).doomed = s.doomed := rfl
@[simp] theorem setCounter_rr (s : State) (t i w : Nat) (v : DWord) : (setCounter s t i w v).rr = s.rr := rfl
@[simp] theorem setCounter_halts (s : State) (t i w : Nat) (v : DWord) : (setCounter s t i w v).halts = s.halts := rfl
@[simp] theorem setCounter_launches (s : State) (t i w : Nat) (v : DWord) : (setCounter s t i w v).launches = s.launches := rfl
@[simp] theorem setCounter_mem (s : State) (t i w : Nat) (v : DWord) : (setCounter s t i w v).mem = s.mem := rfl
@[simp] theorem setCounter_poison (s : State) (t i w : Nat) (v : DWord) : (setCounter s t i w v).poison = s.poison := rfl
@[simp] theorem setCounter_dead (s : State) (t i w : Nat) (v : DWord) : (setCounter s t i w v).dead = s.dead := rfl
@[simp] theorem setCounter_retire (s : State) (t i w : Nat) (v : DWord) : (setCounter s t i w v).retire = s.retire := rfl
@[simp] theorem setCounter_retired (s : State) (t i w : Nat) (v : DWord) : (setCounter s t i w v).retired = s.retired := rfl
@[simp] theorem setCounter_xlats (s : State) (t i w : Nat) (v : DWord) : (setCounter s t i w v).xlats = s.xlats := rfl
@[simp] theorem setCounter_oldPtes (s : State) (t i w : Nat) (v : DWord) : (setCounter s t i w v).oldPtes = s.oldPtes := rfl
@[simp] theorem setCounter_invals (s : State) (t i w : Nat) (v : DWord) : (setCounter s t i w v).invals = s.invals := rfl
@[simp] theorem setCounter_pteCtr (s : State) (t i w : Nat) (v : DWord) : (setCounter s t i w v).pteCtr = s.pteCtr := rfl
@[simp] theorem setCounter_hashKey (s : State) (t i w : Nat) (v : DWord) : (setCounter s t i w v).hashKey = s.hashKey := rfl
@[simp] theorem setCounter_lines (s : State) (t i w : Nat) (v : DWord) : (setCounter s t i w v).lines = s.lines := rfl
@[simp] theorem setCounter_fills (s : State) (t i w : Nat) (v : DWord) : (setCounter s t i w v).fills = s.fills := rfl
@[simp] theorem setCounter_epochs (s : State) (t i w : Nat) (v : DWord) : (setCounter s t i w v).epochs = s.epochs := rfl
@[simp] theorem setCounter_lastEpoch (s : State) (t i w : Nat) (v : DWord) : (setCounter s t i w v).lastEpoch = s.lastEpoch := rfl
@[simp] theorem setCounter_redBufs (s : State) (t i w : Nat) (v : DWord) : (setCounter s t i w v).redBufs = s.redBufs := rfl
@[simp] theorem setCounter_addBufs (s : State) (t i w : Nat) (v : DWord) : (setCounter s t i w v).addBufs = s.addBufs := rfl
@[simp] theorem setCounter_nexts (s : State) (t i w : Nat) (v : DWord) : (setCounter s t i w v).nexts = s.nexts := rfl
@[simp] theorem setCounter_turns (s : State) (t i w : Nat) (v : DWord) : (setCounter s t i w v).turns = s.turns := rfl
@[simp] theorem setCounter_misses (s : State) (t i w : Nat) (v : DWord) : (setCounter s t i w v).misses = s.misses := rfl
@[simp] theorem setCounter_bankQ (s : State) (t i w : Nat) (v : DWord) : (setCounter s t i w v).bankQ = s.bankQ := rfl
@[simp] theorem setCounter_refused (s : State) (t i w : Nat) (v : DWord) : (setCounter s t i w v).refused = s.refused := rfl
@[simp] theorem setCounter_reqCtr (s : State) (t i w : Nat) (v : DWord) : (setCounter s t i w v).reqCtr = s.reqCtr := rfl
@[simp] theorem setCounter_credits (s : State) (t i w : Nat) (v : DWord) : (setCounter s t i w v).credits = s.credits := rfl
@[simp] theorem setCounter_chanTurn (s : State) (t i w : Nat) (v : DWord) : (setCounter s t i w v).chanTurn = s.chanTurn := rfl
@[simp] theorem setCounter_parts (s : State) (t i w : Nat) (v : DWord) : (setCounter s t i w v).parts = s.parts := rfl
@[simp] theorem setCounter_staged (s : State) (t i w : Nat) (v : DWord) : (setCounter s t i w v).staged = s.staged := rfl
@[simp] theorem setCounter_pcbNext (s : State) (t i w : Nat) (v : DWord) : (setCounter s t i w v).pcbNext = s.pcbNext := rfl
@[simp] theorem setCounter_pcbLast (s : State) (t i w : Nat) (v : DWord) : (setCounter s t i w v).pcbLast = s.pcbLast := rfl
@[simp] theorem setCounter_pcbResult (s : State) (t i w : Nat) (v : DWord) : (setCounter s t i w v).pcbResult = s.pcbResult := rfl
@[simp] theorem setCounter_tiles (s : State) (t i w : Nat) (v : DWord) : (setCounter s t i w v).tiles = s.tiles := rfl
@[simp] theorem setCounter_map0 (s : State) (t i w : Nat) (v : DWord) : (setCounter s t i w v).map0 = s.map0 := rfl
@[simp] theorem setCounter_map1 (s : State) (t i w : Nat) (v : DWord) : (setCounter s t i w v).map1 = s.map1 := rfl
@[simp] theorem setCounter_spares0 (s : State) (t i w : Nat) (v : DWord) : (setCounter s t i w v).spares0 = s.spares0 := rfl
@[simp] theorem setCounter_spares1 (s : State) (t i w : Nat) (v : DWord) : (setCounter s t i w v).spares1 = s.spares1 := rfl
@[simp] theorem setCounter_marked (s : State) (t i w : Nat) (v : DWord) : (setCounter s t i w v).marked = s.marked := rfl
@[simp] theorem setCounter_routes (s : State) (t i w : Nat) (v : DWord) : (setCounter s t i w v).routes = s.routes := rfl
@[simp] theorem setCounter_dispRuns (s : State) (t i w : Nat) (v : DWord) : (setCounter s t i w v).dispRuns = s.dispRuns := rfl
@[simp] theorem setCounter_chips (s : State) (t i w : Nat) (v : DWord) : (setCounter s t i w v).chips = s.chips := rfl
@[simp] theorem setCounter_groups (s : State) (t i w : Nat) (v : DWord) : (setCounter s t i w v).groups = s.groups := rfl
@[simp] theorem setCounter_heldGroups (s : State) (t i w : Nat) (v : DWord) : (setCounter s t i w v).heldGroups = s.heldGroups := rfl
@[simp] theorem setCounter_updRuns (s : State) (t i w : Nat) (v : DWord) : (setCounter s t i w v).updRuns = s.updRuns := rfl
@[simp] theorem setCounter_rxt (s : State) (t i w : Nat) (v : DWord) : (setCounter s t i w v).rxt = s.rxt := rfl
@[simp] theorem setCounter_nodeRoute (s : State) (t i w : Nat) (v : DWord) : (setCounter s t i w v).nodeRoute = s.nodeRoute := rfl
@[simp] theorem setCounter_peerInc (s : State) (t i w : Nat) (v : DWord) : (setCounter s t i w v).peerInc = s.peerInc := rfl
@[simp] theorem setCounter_fabCfg (s : State) (t i w : Nat) (v : DWord) : (setCounter s t i w v).fabCfg = s.fabCfg := rfl
@[simp] theorem setCounter_ports (s : State) (t i w : Nat) (v : DWord) : (setCounter s t i w v).ports = s.ports := rfl
@[simp] theorem setCounter_remotes (s : State) (t i w : Nat) (v : DWord) : (setCounter s t i w v).remotes = s.remotes := rfl
@[simp] theorem setCounter_tagCtr (s : State) (t i w : Nat) (v : DWord) : (setCounter s t i w v).tagCtr = s.tagCtr := rfl
@[simp] theorem setCounter_jobs (s : State) (t i w : Nat) (v : DWord) : (setCounter s t i w v).jobs = s.jobs := rfl
@[simp] theorem setCounter_collRuns (s : State) (t i w : Nat) (v : DWord) : (setCounter s t i w v).collRuns = s.collRuns := rfl
@[simp] theorem setCounter_inbox (s : State) (t i w : Nat) (v : DWord) : (setCounter s t i w v).inbox = s.inbox := rfl
@[simp] theorem setCounter_outbox (s : State) (t i w : Nat) (v : DWord) : (setCounter s t i w v).outbox = s.outbox := rfl
@[simp] theorem setCounter_flits (s : State) (t i w : Nat) (v : DWord) : (setCounter s t i w v).flits = s.flits := rfl
@[simp] theorem setCounter_rehomed (s : State) (t i w : Nat) (v : DWord) : (setCounter s t i w v).rehomed = s.rehomed := rfl
@[simp] theorem setCounter_injections (s : State) (t i w : Nat) (v : DWord) : (setCounter s t i w v).injections = s.injections := rfl
@[simp] theorem setCounter_latents (s : State) (t i w : Nat) (v : DWord) : (setCounter s t i w v).latents = s.latents := rfl
@[simp] theorem setCounter_fraction (s : State) (t i w : Nat) (v : DWord) : (setCounter s t i w v).fraction = s.fraction := rfl
@[simp] theorem setCounter_islands (s : State) (t i w : Nat) (v : DWord) : (setCounter s t i w v).islands = s.islands := rfl
@[simp] theorem setCounter_repair (s : State) (t i w : Nat) (v : DWord) : (setCounter s t i w v).repair = s.repair := rfl
@[simp] theorem setCounter_bridge (s : State) (t i w : Nat) (v : DWord) : (setCounter s t i w v).bridge = s.bridge := rfl
@[simp] theorem setCounter_log0 (s : State) (t i w : Nat) (v : DWord) : (setCounter s t i w v).log0 = s.log0 := rfl
@[simp] theorem setCounter_log1 (s : State) (t i w : Nat) (v : DWord) : (setCounter s t i w v).log1 = s.log1 := rfl
@[simp] theorem setCounter_seq0 (s : State) (t i w : Nat) (v : DWord) : (setCounter s t i w v).seq0 = s.seq0 := rfl
@[simp] theorem setCounter_seq1 (s : State) (t i w : Nat) (v : DWord) : (setCounter s t i w v).seq1 = s.seq1 := rfl
@[simp] theorem setCounter_tempSeen (s : State) (t i w : Nat) (v : DWord) : (setCounter s t i w v).tempSeen = s.tempSeen := rfl
@[simp] theorem setCounter_patrol (s : State) (t i w : Nat) (v : DWord) : (setCounter s t i w v).patrol = s.patrol := rfl
@[simp] theorem setCounter_spareRows (s : State) (t i w : Nat) (v : DWord) : (setCounter s t i w v).spareRows = s.spareRows := rfl
@[simp] theorem setCounter_persist (s : State) (t i w : Nat) (v : DWord) : (setCounter s t i w v).persist = s.persist := rfl
@[simp] theorem setCounter_mgmt (s : State) (t i w : Nat) (v : DWord) : (setCounter s t i w v).mgmt = s.mgmt := rfl
@[simp] theorem setCounter_boot (s : State) (t i w : Nat) (v : DWord) : (setCounter s t i w v).boot = s.boot := rfl
@[simp] theorem setCounter_sovel (s : State) (t i w : Nat) (v : DWord) : (setCounter s t i w v).sovel = s.sovel := rfl
@[simp] theorem setCounter_power (s : State) (t i w : Nat) (v : DWord) : (setCounter s t i w v).power = s.power := rfl
@[simp] theorem setCounter_reply (s : State) (t i w : Nat) (v : DWord) : (setCounter s t i w v).reply = s.reply := rfl

/-! ### bump -/

@[simp] theorem bump_pending (s : State) (t i w n : Nat) : (bump s t i w n).pending = s.pending := by
  unfold bump; split <;> rfl
@[simp] theorem bump_freeCtr (s : State) (t i w n : Nat) : (bump s t i w n).freeCtr = s.freeCtr := by
  unfold bump; split <;> rfl
@[simp] theorem bump_run (s : State) (t i w n : Nat) : (bump s t i w n).run = s.run := by
  unfold bump; split <;> rfl
@[simp] theorem bump_ctxs (s : State) (t i w n : Nat) : (bump s t i w n).ctxs = s.ctxs := by
  unfold bump; split <;> rfl
@[simp] theorem bump_queues (s : State) (t i w n : Nat) : (bump s t i w n).queues = s.queues := by
  unfold bump; split <;> rfl
@[simp] theorem bump_waiting (s : State) (t i w n : Nat) : (bump s t i w n).waiting = s.waiting := by
  unfold bump; split <;> rfl
@[simp] theorem bump_bells (s : State) (t i w n : Nat) : (bump s t i w n).bells = s.bells := by
  unfold bump; split <;> rfl
@[simp] theorem bump_objs (s : State) (t i w n : Nat) : (bump s t i w n).objs = s.objs := by
  unfold bump; split <;> rfl
@[simp] theorem bump_objNext (s : State) (t i w n : Nat) : (bump s t i w n).objNext = s.objNext := by
  unfold bump; split <;> rfl
@[simp] theorem bump_objFreed (s : State) (t i w n : Nat) : (bump s t i w n).objFreed = s.objFreed := by
  unfold bump; split <;> rfl
@[simp] theorem bump_heaps (s : State) (t i w n : Nat) : (bump s t i w n).heaps = s.heaps := by
  unfold bump; split <;> rfl
@[simp] theorem bump_cmds (s : State) (t i w n : Nat) : (bump s t i w n).cmds = s.cmds := by
  unfold bump; split <;> rfl
@[simp] theorem bump_cmdCtr (s : State) (t i w n : Nat) : (bump s t i w n).cmdCtr = s.cmdCtr := by
  unfold bump; split <;> rfl
@[simp] theorem bump_doomed (s : State) (t i w n : Nat) : (bump s t i w n).doomed = s.doomed := by
  unfold bump; split <;> rfl
@[simp] theorem bump_rr (s : State) (t i w n : Nat) : (bump s t i w n).rr = s.rr := by
  unfold bump; split <;> rfl
@[simp] theorem bump_halts (s : State) (t i w n : Nat) : (bump s t i w n).halts = s.halts := by
  unfold bump; split <;> rfl
@[simp] theorem bump_launches (s : State) (t i w n : Nat) : (bump s t i w n).launches = s.launches := by
  unfold bump; split <;> rfl
@[simp] theorem bump_mem (s : State) (t i w n : Nat) : (bump s t i w n).mem = s.mem := by
  unfold bump; split <;> rfl
@[simp] theorem bump_poison (s : State) (t i w n : Nat) : (bump s t i w n).poison = s.poison := by
  unfold bump; split <;> rfl
@[simp] theorem bump_dead (s : State) (t i w n : Nat) : (bump s t i w n).dead = s.dead := by
  unfold bump; split <;> rfl
@[simp] theorem bump_retire (s : State) (t i w n : Nat) : (bump s t i w n).retire = s.retire := by
  unfold bump; split <;> rfl
@[simp] theorem bump_retired (s : State) (t i w n : Nat) : (bump s t i w n).retired = s.retired := by
  unfold bump; split <;> rfl
@[simp] theorem bump_xlats (s : State) (t i w n : Nat) : (bump s t i w n).xlats = s.xlats := by
  unfold bump; split <;> rfl
@[simp] theorem bump_oldPtes (s : State) (t i w n : Nat) : (bump s t i w n).oldPtes = s.oldPtes := by
  unfold bump; split <;> rfl
@[simp] theorem bump_invals (s : State) (t i w n : Nat) : (bump s t i w n).invals = s.invals := by
  unfold bump; split <;> rfl
@[simp] theorem bump_pteCtr (s : State) (t i w n : Nat) : (bump s t i w n).pteCtr = s.pteCtr := by
  unfold bump; split <;> rfl
@[simp] theorem bump_hashKey (s : State) (t i w n : Nat) : (bump s t i w n).hashKey = s.hashKey := by
  unfold bump; split <;> rfl
@[simp] theorem bump_lines (s : State) (t i w n : Nat) : (bump s t i w n).lines = s.lines := by
  unfold bump; split <;> rfl
@[simp] theorem bump_fills (s : State) (t i w n : Nat) : (bump s t i w n).fills = s.fills := by
  unfold bump; split <;> rfl
@[simp] theorem bump_epochs (s : State) (t i w n : Nat) : (bump s t i w n).epochs = s.epochs := by
  unfold bump; split <;> rfl
@[simp] theorem bump_lastEpoch (s : State) (t i w n : Nat) : (bump s t i w n).lastEpoch = s.lastEpoch := by
  unfold bump; split <;> rfl
@[simp] theorem bump_redBufs (s : State) (t i w n : Nat) : (bump s t i w n).redBufs = s.redBufs := by
  unfold bump; split <;> rfl
@[simp] theorem bump_addBufs (s : State) (t i w n : Nat) : (bump s t i w n).addBufs = s.addBufs := by
  unfold bump; split <;> rfl
@[simp] theorem bump_nexts (s : State) (t i w n : Nat) : (bump s t i w n).nexts = s.nexts := by
  unfold bump; split <;> rfl
@[simp] theorem bump_turns (s : State) (t i w n : Nat) : (bump s t i w n).turns = s.turns := by
  unfold bump; split <;> rfl
@[simp] theorem bump_misses (s : State) (t i w n : Nat) : (bump s t i w n).misses = s.misses := by
  unfold bump; split <;> rfl
@[simp] theorem bump_bankQ (s : State) (t i w n : Nat) : (bump s t i w n).bankQ = s.bankQ := by
  unfold bump; split <;> rfl
@[simp] theorem bump_refused (s : State) (t i w n : Nat) : (bump s t i w n).refused = s.refused := by
  unfold bump; split <;> rfl
@[simp] theorem bump_reqCtr (s : State) (t i w n : Nat) : (bump s t i w n).reqCtr = s.reqCtr := by
  unfold bump; split <;> rfl
@[simp] theorem bump_credits (s : State) (t i w n : Nat) : (bump s t i w n).credits = s.credits := by
  unfold bump; split <;> rfl
@[simp] theorem bump_chanTurn (s : State) (t i w n : Nat) : (bump s t i w n).chanTurn = s.chanTurn := by
  unfold bump; split <;> rfl
@[simp] theorem bump_parts (s : State) (t i w n : Nat) : (bump s t i w n).parts = s.parts := by
  unfold bump; split <;> rfl
@[simp] theorem bump_staged (s : State) (t i w n : Nat) : (bump s t i w n).staged = s.staged := by
  unfold bump; split <;> rfl
@[simp] theorem bump_pcbNext (s : State) (t i w n : Nat) : (bump s t i w n).pcbNext = s.pcbNext := by
  unfold bump; split <;> rfl
@[simp] theorem bump_pcbLast (s : State) (t i w n : Nat) : (bump s t i w n).pcbLast = s.pcbLast := by
  unfold bump; split <;> rfl
@[simp] theorem bump_pcbResult (s : State) (t i w n : Nat) : (bump s t i w n).pcbResult = s.pcbResult := by
  unfold bump; split <;> rfl
@[simp] theorem bump_tiles (s : State) (t i w n : Nat) : (bump s t i w n).tiles = s.tiles := by
  unfold bump; split <;> rfl
@[simp] theorem bump_map0 (s : State) (t i w n : Nat) : (bump s t i w n).map0 = s.map0 := by
  unfold bump; split <;> rfl
@[simp] theorem bump_map1 (s : State) (t i w n : Nat) : (bump s t i w n).map1 = s.map1 := by
  unfold bump; split <;> rfl
@[simp] theorem bump_spares0 (s : State) (t i w n : Nat) : (bump s t i w n).spares0 = s.spares0 := by
  unfold bump; split <;> rfl
@[simp] theorem bump_spares1 (s : State) (t i w n : Nat) : (bump s t i w n).spares1 = s.spares1 := by
  unfold bump; split <;> rfl
@[simp] theorem bump_marked (s : State) (t i w n : Nat) : (bump s t i w n).marked = s.marked := by
  unfold bump; split <;> rfl
@[simp] theorem bump_routes (s : State) (t i w n : Nat) : (bump s t i w n).routes = s.routes := by
  unfold bump; split <;> rfl
@[simp] theorem bump_dispRuns (s : State) (t i w n : Nat) : (bump s t i w n).dispRuns = s.dispRuns := by
  unfold bump; split <;> rfl
@[simp] theorem bump_chips (s : State) (t i w n : Nat) : (bump s t i w n).chips = s.chips := by
  unfold bump; split <;> rfl
@[simp] theorem bump_groups (s : State) (t i w n : Nat) : (bump s t i w n).groups = s.groups := by
  unfold bump; split <;> rfl
@[simp] theorem bump_heldGroups (s : State) (t i w n : Nat) : (bump s t i w n).heldGroups = s.heldGroups := by
  unfold bump; split <;> rfl
@[simp] theorem bump_updRuns (s : State) (t i w n : Nat) : (bump s t i w n).updRuns = s.updRuns := by
  unfold bump; split <;> rfl
@[simp] theorem bump_rxt (s : State) (t i w n : Nat) : (bump s t i w n).rxt = s.rxt := by
  unfold bump; split <;> rfl
@[simp] theorem bump_nodeRoute (s : State) (t i w n : Nat) : (bump s t i w n).nodeRoute = s.nodeRoute := by
  unfold bump; split <;> rfl
@[simp] theorem bump_peerInc (s : State) (t i w n : Nat) : (bump s t i w n).peerInc = s.peerInc := by
  unfold bump; split <;> rfl
@[simp] theorem bump_fabCfg (s : State) (t i w n : Nat) : (bump s t i w n).fabCfg = s.fabCfg := by
  unfold bump; split <;> rfl
@[simp] theorem bump_ports (s : State) (t i w n : Nat) : (bump s t i w n).ports = s.ports := by
  unfold bump; split <;> rfl
@[simp] theorem bump_remotes (s : State) (t i w n : Nat) : (bump s t i w n).remotes = s.remotes := by
  unfold bump; split <;> rfl
@[simp] theorem bump_tagCtr (s : State) (t i w n : Nat) : (bump s t i w n).tagCtr = s.tagCtr := by
  unfold bump; split <;> rfl
@[simp] theorem bump_jobs (s : State) (t i w n : Nat) : (bump s t i w n).jobs = s.jobs := by
  unfold bump; split <;> rfl
@[simp] theorem bump_collRuns (s : State) (t i w n : Nat) : (bump s t i w n).collRuns = s.collRuns := by
  unfold bump; split <;> rfl
@[simp] theorem bump_inbox (s : State) (t i w n : Nat) : (bump s t i w n).inbox = s.inbox := by
  unfold bump; split <;> rfl
@[simp] theorem bump_outbox (s : State) (t i w n : Nat) : (bump s t i w n).outbox = s.outbox := by
  unfold bump; split <;> rfl
@[simp] theorem bump_flits (s : State) (t i w n : Nat) : (bump s t i w n).flits = s.flits := by
  unfold bump; split <;> rfl
@[simp] theorem bump_rehomed (s : State) (t i w n : Nat) : (bump s t i w n).rehomed = s.rehomed := by
  unfold bump; split <;> rfl
@[simp] theorem bump_injections (s : State) (t i w n : Nat) : (bump s t i w n).injections = s.injections := by
  unfold bump; split <;> rfl
@[simp] theorem bump_latents (s : State) (t i w n : Nat) : (bump s t i w n).latents = s.latents := by
  unfold bump; split <;> rfl
@[simp] theorem bump_fraction (s : State) (t i w n : Nat) : (bump s t i w n).fraction = s.fraction := by
  unfold bump; split <;> rfl
@[simp] theorem bump_islands (s : State) (t i w n : Nat) : (bump s t i w n).islands = s.islands := by
  unfold bump; split <;> rfl
@[simp] theorem bump_repair (s : State) (t i w n : Nat) : (bump s t i w n).repair = s.repair := by
  unfold bump; split <;> rfl
@[simp] theorem bump_bridge (s : State) (t i w n : Nat) : (bump s t i w n).bridge = s.bridge := by
  unfold bump; split <;> rfl
@[simp] theorem bump_log0 (s : State) (t i w n : Nat) : (bump s t i w n).log0 = s.log0 := by
  unfold bump; split <;> rfl
@[simp] theorem bump_log1 (s : State) (t i w n : Nat) : (bump s t i w n).log1 = s.log1 := by
  unfold bump; split <;> rfl
@[simp] theorem bump_seq0 (s : State) (t i w n : Nat) : (bump s t i w n).seq0 = s.seq0 := by
  unfold bump; split <;> rfl
@[simp] theorem bump_seq1 (s : State) (t i w n : Nat) : (bump s t i w n).seq1 = s.seq1 := by
  unfold bump; split <;> rfl
@[simp] theorem bump_tempSeen (s : State) (t i w n : Nat) : (bump s t i w n).tempSeen = s.tempSeen := by
  unfold bump; split <;> rfl
@[simp] theorem bump_patrol (s : State) (t i w n : Nat) : (bump s t i w n).patrol = s.patrol := by
  unfold bump; split <;> rfl
@[simp] theorem bump_spareRows (s : State) (t i w n : Nat) : (bump s t i w n).spareRows = s.spareRows := by
  unfold bump; split <;> rfl
@[simp] theorem bump_persist (s : State) (t i w n : Nat) : (bump s t i w n).persist = s.persist := by
  unfold bump; split <;> rfl
@[simp] theorem bump_mgmt (s : State) (t i w n : Nat) : (bump s t i w n).mgmt = s.mgmt := by
  unfold bump; split <;> rfl
@[simp] theorem bump_boot (s : State) (t i w n : Nat) : (bump s t i w n).boot = s.boot := by
  unfold bump; split <;> rfl
@[simp] theorem bump_sovel (s : State) (t i w n : Nat) : (bump s t i w n).sovel = s.sovel := by
  unfold bump; split <;> rfl
@[simp] theorem bump_power (s : State) (t i w n : Nat) : (bump s t i w n).power = s.power := by
  unfold bump; split <;> rfl
@[simp] theorem bump_reply (s : State) (t i w n : Nat) : (bump s t i w n).reply = s.reply := by
  unfold bump; split <;> rfl

/-! ### keepMax -/

@[simp] theorem keepMax_pending (s : State) (t i w n : Nat) : (keepMax s t i w n).pending = s.pending := by
  unfold keepMax; split <;> rfl
@[simp] theorem keepMax_freeCtr (s : State) (t i w n : Nat) : (keepMax s t i w n).freeCtr = s.freeCtr := by
  unfold keepMax; split <;> rfl
@[simp] theorem keepMax_run (s : State) (t i w n : Nat) : (keepMax s t i w n).run = s.run := by
  unfold keepMax; split <;> rfl
@[simp] theorem keepMax_ctxs (s : State) (t i w n : Nat) : (keepMax s t i w n).ctxs = s.ctxs := by
  unfold keepMax; split <;> rfl
@[simp] theorem keepMax_queues (s : State) (t i w n : Nat) : (keepMax s t i w n).queues = s.queues := by
  unfold keepMax; split <;> rfl
@[simp] theorem keepMax_waiting (s : State) (t i w n : Nat) : (keepMax s t i w n).waiting = s.waiting := by
  unfold keepMax; split <;> rfl
@[simp] theorem keepMax_bells (s : State) (t i w n : Nat) : (keepMax s t i w n).bells = s.bells := by
  unfold keepMax; split <;> rfl
@[simp] theorem keepMax_objs (s : State) (t i w n : Nat) : (keepMax s t i w n).objs = s.objs := by
  unfold keepMax; split <;> rfl
@[simp] theorem keepMax_objNext (s : State) (t i w n : Nat) : (keepMax s t i w n).objNext = s.objNext := by
  unfold keepMax; split <;> rfl
@[simp] theorem keepMax_objFreed (s : State) (t i w n : Nat) : (keepMax s t i w n).objFreed = s.objFreed := by
  unfold keepMax; split <;> rfl
@[simp] theorem keepMax_heaps (s : State) (t i w n : Nat) : (keepMax s t i w n).heaps = s.heaps := by
  unfold keepMax; split <;> rfl
@[simp] theorem keepMax_cmds (s : State) (t i w n : Nat) : (keepMax s t i w n).cmds = s.cmds := by
  unfold keepMax; split <;> rfl
@[simp] theorem keepMax_cmdCtr (s : State) (t i w n : Nat) : (keepMax s t i w n).cmdCtr = s.cmdCtr := by
  unfold keepMax; split <;> rfl
@[simp] theorem keepMax_doomed (s : State) (t i w n : Nat) : (keepMax s t i w n).doomed = s.doomed := by
  unfold keepMax; split <;> rfl
@[simp] theorem keepMax_rr (s : State) (t i w n : Nat) : (keepMax s t i w n).rr = s.rr := by
  unfold keepMax; split <;> rfl
@[simp] theorem keepMax_halts (s : State) (t i w n : Nat) : (keepMax s t i w n).halts = s.halts := by
  unfold keepMax; split <;> rfl
@[simp] theorem keepMax_launches (s : State) (t i w n : Nat) : (keepMax s t i w n).launches = s.launches := by
  unfold keepMax; split <;> rfl
@[simp] theorem keepMax_mem (s : State) (t i w n : Nat) : (keepMax s t i w n).mem = s.mem := by
  unfold keepMax; split <;> rfl
@[simp] theorem keepMax_poison (s : State) (t i w n : Nat) : (keepMax s t i w n).poison = s.poison := by
  unfold keepMax; split <;> rfl
@[simp] theorem keepMax_dead (s : State) (t i w n : Nat) : (keepMax s t i w n).dead = s.dead := by
  unfold keepMax; split <;> rfl
@[simp] theorem keepMax_retire (s : State) (t i w n : Nat) : (keepMax s t i w n).retire = s.retire := by
  unfold keepMax; split <;> rfl
@[simp] theorem keepMax_retired (s : State) (t i w n : Nat) : (keepMax s t i w n).retired = s.retired := by
  unfold keepMax; split <;> rfl
@[simp] theorem keepMax_xlats (s : State) (t i w n : Nat) : (keepMax s t i w n).xlats = s.xlats := by
  unfold keepMax; split <;> rfl
@[simp] theorem keepMax_oldPtes (s : State) (t i w n : Nat) : (keepMax s t i w n).oldPtes = s.oldPtes := by
  unfold keepMax; split <;> rfl
@[simp] theorem keepMax_invals (s : State) (t i w n : Nat) : (keepMax s t i w n).invals = s.invals := by
  unfold keepMax; split <;> rfl
@[simp] theorem keepMax_pteCtr (s : State) (t i w n : Nat) : (keepMax s t i w n).pteCtr = s.pteCtr := by
  unfold keepMax; split <;> rfl
@[simp] theorem keepMax_hashKey (s : State) (t i w n : Nat) : (keepMax s t i w n).hashKey = s.hashKey := by
  unfold keepMax; split <;> rfl
@[simp] theorem keepMax_lines (s : State) (t i w n : Nat) : (keepMax s t i w n).lines = s.lines := by
  unfold keepMax; split <;> rfl
@[simp] theorem keepMax_fills (s : State) (t i w n : Nat) : (keepMax s t i w n).fills = s.fills := by
  unfold keepMax; split <;> rfl
@[simp] theorem keepMax_epochs (s : State) (t i w n : Nat) : (keepMax s t i w n).epochs = s.epochs := by
  unfold keepMax; split <;> rfl
@[simp] theorem keepMax_lastEpoch (s : State) (t i w n : Nat) : (keepMax s t i w n).lastEpoch = s.lastEpoch := by
  unfold keepMax; split <;> rfl
@[simp] theorem keepMax_redBufs (s : State) (t i w n : Nat) : (keepMax s t i w n).redBufs = s.redBufs := by
  unfold keepMax; split <;> rfl
@[simp] theorem keepMax_addBufs (s : State) (t i w n : Nat) : (keepMax s t i w n).addBufs = s.addBufs := by
  unfold keepMax; split <;> rfl
@[simp] theorem keepMax_nexts (s : State) (t i w n : Nat) : (keepMax s t i w n).nexts = s.nexts := by
  unfold keepMax; split <;> rfl
@[simp] theorem keepMax_turns (s : State) (t i w n : Nat) : (keepMax s t i w n).turns = s.turns := by
  unfold keepMax; split <;> rfl
@[simp] theorem keepMax_misses (s : State) (t i w n : Nat) : (keepMax s t i w n).misses = s.misses := by
  unfold keepMax; split <;> rfl
@[simp] theorem keepMax_bankQ (s : State) (t i w n : Nat) : (keepMax s t i w n).bankQ = s.bankQ := by
  unfold keepMax; split <;> rfl
@[simp] theorem keepMax_refused (s : State) (t i w n : Nat) : (keepMax s t i w n).refused = s.refused := by
  unfold keepMax; split <;> rfl
@[simp] theorem keepMax_reqCtr (s : State) (t i w n : Nat) : (keepMax s t i w n).reqCtr = s.reqCtr := by
  unfold keepMax; split <;> rfl
@[simp] theorem keepMax_credits (s : State) (t i w n : Nat) : (keepMax s t i w n).credits = s.credits := by
  unfold keepMax; split <;> rfl
@[simp] theorem keepMax_chanTurn (s : State) (t i w n : Nat) : (keepMax s t i w n).chanTurn = s.chanTurn := by
  unfold keepMax; split <;> rfl
@[simp] theorem keepMax_parts (s : State) (t i w n : Nat) : (keepMax s t i w n).parts = s.parts := by
  unfold keepMax; split <;> rfl
@[simp] theorem keepMax_staged (s : State) (t i w n : Nat) : (keepMax s t i w n).staged = s.staged := by
  unfold keepMax; split <;> rfl
@[simp] theorem keepMax_pcbNext (s : State) (t i w n : Nat) : (keepMax s t i w n).pcbNext = s.pcbNext := by
  unfold keepMax; split <;> rfl
@[simp] theorem keepMax_pcbLast (s : State) (t i w n : Nat) : (keepMax s t i w n).pcbLast = s.pcbLast := by
  unfold keepMax; split <;> rfl
@[simp] theorem keepMax_pcbResult (s : State) (t i w n : Nat) : (keepMax s t i w n).pcbResult = s.pcbResult := by
  unfold keepMax; split <;> rfl
@[simp] theorem keepMax_tiles (s : State) (t i w n : Nat) : (keepMax s t i w n).tiles = s.tiles := by
  unfold keepMax; split <;> rfl
@[simp] theorem keepMax_map0 (s : State) (t i w n : Nat) : (keepMax s t i w n).map0 = s.map0 := by
  unfold keepMax; split <;> rfl
@[simp] theorem keepMax_map1 (s : State) (t i w n : Nat) : (keepMax s t i w n).map1 = s.map1 := by
  unfold keepMax; split <;> rfl
@[simp] theorem keepMax_spares0 (s : State) (t i w n : Nat) : (keepMax s t i w n).spares0 = s.spares0 := by
  unfold keepMax; split <;> rfl
@[simp] theorem keepMax_spares1 (s : State) (t i w n : Nat) : (keepMax s t i w n).spares1 = s.spares1 := by
  unfold keepMax; split <;> rfl
@[simp] theorem keepMax_marked (s : State) (t i w n : Nat) : (keepMax s t i w n).marked = s.marked := by
  unfold keepMax; split <;> rfl
@[simp] theorem keepMax_routes (s : State) (t i w n : Nat) : (keepMax s t i w n).routes = s.routes := by
  unfold keepMax; split <;> rfl
@[simp] theorem keepMax_dispRuns (s : State) (t i w n : Nat) : (keepMax s t i w n).dispRuns = s.dispRuns := by
  unfold keepMax; split <;> rfl
@[simp] theorem keepMax_chips (s : State) (t i w n : Nat) : (keepMax s t i w n).chips = s.chips := by
  unfold keepMax; split <;> rfl
@[simp] theorem keepMax_groups (s : State) (t i w n : Nat) : (keepMax s t i w n).groups = s.groups := by
  unfold keepMax; split <;> rfl
@[simp] theorem keepMax_heldGroups (s : State) (t i w n : Nat) : (keepMax s t i w n).heldGroups = s.heldGroups := by
  unfold keepMax; split <;> rfl
@[simp] theorem keepMax_updRuns (s : State) (t i w n : Nat) : (keepMax s t i w n).updRuns = s.updRuns := by
  unfold keepMax; split <;> rfl
@[simp] theorem keepMax_rxt (s : State) (t i w n : Nat) : (keepMax s t i w n).rxt = s.rxt := by
  unfold keepMax; split <;> rfl
@[simp] theorem keepMax_nodeRoute (s : State) (t i w n : Nat) : (keepMax s t i w n).nodeRoute = s.nodeRoute := by
  unfold keepMax; split <;> rfl
@[simp] theorem keepMax_peerInc (s : State) (t i w n : Nat) : (keepMax s t i w n).peerInc = s.peerInc := by
  unfold keepMax; split <;> rfl
@[simp] theorem keepMax_fabCfg (s : State) (t i w n : Nat) : (keepMax s t i w n).fabCfg = s.fabCfg := by
  unfold keepMax; split <;> rfl
@[simp] theorem keepMax_ports (s : State) (t i w n : Nat) : (keepMax s t i w n).ports = s.ports := by
  unfold keepMax; split <;> rfl
@[simp] theorem keepMax_remotes (s : State) (t i w n : Nat) : (keepMax s t i w n).remotes = s.remotes := by
  unfold keepMax; split <;> rfl
@[simp] theorem keepMax_tagCtr (s : State) (t i w n : Nat) : (keepMax s t i w n).tagCtr = s.tagCtr := by
  unfold keepMax; split <;> rfl
@[simp] theorem keepMax_jobs (s : State) (t i w n : Nat) : (keepMax s t i w n).jobs = s.jobs := by
  unfold keepMax; split <;> rfl
@[simp] theorem keepMax_collRuns (s : State) (t i w n : Nat) : (keepMax s t i w n).collRuns = s.collRuns := by
  unfold keepMax; split <;> rfl
@[simp] theorem keepMax_inbox (s : State) (t i w n : Nat) : (keepMax s t i w n).inbox = s.inbox := by
  unfold keepMax; split <;> rfl
@[simp] theorem keepMax_outbox (s : State) (t i w n : Nat) : (keepMax s t i w n).outbox = s.outbox := by
  unfold keepMax; split <;> rfl
@[simp] theorem keepMax_flits (s : State) (t i w n : Nat) : (keepMax s t i w n).flits = s.flits := by
  unfold keepMax; split <;> rfl
@[simp] theorem keepMax_rehomed (s : State) (t i w n : Nat) : (keepMax s t i w n).rehomed = s.rehomed := by
  unfold keepMax; split <;> rfl
@[simp] theorem keepMax_injections (s : State) (t i w n : Nat) : (keepMax s t i w n).injections = s.injections := by
  unfold keepMax; split <;> rfl
@[simp] theorem keepMax_latents (s : State) (t i w n : Nat) : (keepMax s t i w n).latents = s.latents := by
  unfold keepMax; split <;> rfl
@[simp] theorem keepMax_fraction (s : State) (t i w n : Nat) : (keepMax s t i w n).fraction = s.fraction := by
  unfold keepMax; split <;> rfl
@[simp] theorem keepMax_islands (s : State) (t i w n : Nat) : (keepMax s t i w n).islands = s.islands := by
  unfold keepMax; split <;> rfl
@[simp] theorem keepMax_repair (s : State) (t i w n : Nat) : (keepMax s t i w n).repair = s.repair := by
  unfold keepMax; split <;> rfl
@[simp] theorem keepMax_bridge (s : State) (t i w n : Nat) : (keepMax s t i w n).bridge = s.bridge := by
  unfold keepMax; split <;> rfl
@[simp] theorem keepMax_log0 (s : State) (t i w n : Nat) : (keepMax s t i w n).log0 = s.log0 := by
  unfold keepMax; split <;> rfl
@[simp] theorem keepMax_log1 (s : State) (t i w n : Nat) : (keepMax s t i w n).log1 = s.log1 := by
  unfold keepMax; split <;> rfl
@[simp] theorem keepMax_seq0 (s : State) (t i w n : Nat) : (keepMax s t i w n).seq0 = s.seq0 := by
  unfold keepMax; split <;> rfl
@[simp] theorem keepMax_seq1 (s : State) (t i w n : Nat) : (keepMax s t i w n).seq1 = s.seq1 := by
  unfold keepMax; split <;> rfl
@[simp] theorem keepMax_tempSeen (s : State) (t i w n : Nat) : (keepMax s t i w n).tempSeen = s.tempSeen := by
  unfold keepMax; split <;> rfl
@[simp] theorem keepMax_patrol (s : State) (t i w n : Nat) : (keepMax s t i w n).patrol = s.patrol := by
  unfold keepMax; split <;> rfl
@[simp] theorem keepMax_spareRows (s : State) (t i w n : Nat) : (keepMax s t i w n).spareRows = s.spareRows := by
  unfold keepMax; split <;> rfl
@[simp] theorem keepMax_persist (s : State) (t i w n : Nat) : (keepMax s t i w n).persist = s.persist := by
  unfold keepMax; split <;> rfl
@[simp] theorem keepMax_mgmt (s : State) (t i w n : Nat) : (keepMax s t i w n).mgmt = s.mgmt := by
  unfold keepMax; split <;> rfl
@[simp] theorem keepMax_boot (s : State) (t i w n : Nat) : (keepMax s t i w n).boot = s.boot := by
  unfold keepMax; split <;> rfl
@[simp] theorem keepMax_sovel (s : State) (t i w n : Nat) : (keepMax s t i w n).sovel = s.sovel := by
  unfold keepMax; split <;> rfl
@[simp] theorem keepMax_power (s : State) (t i w n : Nat) : (keepMax s t i w n).power = s.power := by
  unfold keepMax; split <;> rfl
@[simp] theorem keepMax_reply (s : State) (t i w n : Nat) : (keepMax s t i w n).reply = s.reply := by
  unfold keepMax; split <;> rfl

/-! ### logEvent -/

@[simp] theorem logEvent_pending (s : State) (d e q c : Nat) (x y z : DWord) (b : Bool) : (logEvent s d e q c x y z b).pending = s.pending := by
  unfold logEvent; dsimp only; split <;> rfl
@[simp] theorem logEvent_freeCtr (s : State) (d e q c : Nat) (x y z : DWord) (b : Bool) : (logEvent s d e q c x y z b).freeCtr = s.freeCtr := by
  unfold logEvent; dsimp only; split <;> rfl
@[simp] theorem logEvent_run (s : State) (d e q c : Nat) (x y z : DWord) (b : Bool) : (logEvent s d e q c x y z b).run = s.run := by
  unfold logEvent; dsimp only; split <;> rfl
@[simp] theorem logEvent_ctxs (s : State) (d e q c : Nat) (x y z : DWord) (b : Bool) : (logEvent s d e q c x y z b).ctxs = s.ctxs := by
  unfold logEvent; dsimp only; split <;> rfl
@[simp] theorem logEvent_queues (s : State) (d e q c : Nat) (x y z : DWord) (b : Bool) : (logEvent s d e q c x y z b).queues = s.queues := by
  unfold logEvent; dsimp only; split <;> rfl
@[simp] theorem logEvent_waiting (s : State) (d e q c : Nat) (x y z : DWord) (b : Bool) : (logEvent s d e q c x y z b).waiting = s.waiting := by
  unfold logEvent; dsimp only; split <;> rfl
@[simp] theorem logEvent_bells (s : State) (d e q c : Nat) (x y z : DWord) (b : Bool) : (logEvent s d e q c x y z b).bells = s.bells := by
  unfold logEvent; dsimp only; split <;> rfl
@[simp] theorem logEvent_objs (s : State) (d e q c : Nat) (x y z : DWord) (b : Bool) : (logEvent s d e q c x y z b).objs = s.objs := by
  unfold logEvent; dsimp only; split <;> rfl
@[simp] theorem logEvent_objNext (s : State) (d e q c : Nat) (x y z : DWord) (b : Bool) : (logEvent s d e q c x y z b).objNext = s.objNext := by
  unfold logEvent; dsimp only; split <;> rfl
@[simp] theorem logEvent_objFreed (s : State) (d e q c : Nat) (x y z : DWord) (b : Bool) : (logEvent s d e q c x y z b).objFreed = s.objFreed := by
  unfold logEvent; dsimp only; split <;> rfl
@[simp] theorem logEvent_heaps (s : State) (d e q c : Nat) (x y z : DWord) (b : Bool) : (logEvent s d e q c x y z b).heaps = s.heaps := by
  unfold logEvent; dsimp only; split <;> rfl
@[simp] theorem logEvent_cmds (s : State) (d e q c : Nat) (x y z : DWord) (b : Bool) : (logEvent s d e q c x y z b).cmds = s.cmds := by
  unfold logEvent; dsimp only; split <;> rfl
@[simp] theorem logEvent_cmdCtr (s : State) (d e q c : Nat) (x y z : DWord) (b : Bool) : (logEvent s d e q c x y z b).cmdCtr = s.cmdCtr := by
  unfold logEvent; dsimp only; split <;> rfl
@[simp] theorem logEvent_doomed (s : State) (d e q c : Nat) (x y z : DWord) (b : Bool) : (logEvent s d e q c x y z b).doomed = s.doomed := by
  unfold logEvent; dsimp only; split <;> rfl
@[simp] theorem logEvent_rr (s : State) (d e q c : Nat) (x y z : DWord) (b : Bool) : (logEvent s d e q c x y z b).rr = s.rr := by
  unfold logEvent; dsimp only; split <;> rfl
@[simp] theorem logEvent_halts (s : State) (d e q c : Nat) (x y z : DWord) (b : Bool) : (logEvent s d e q c x y z b).halts = s.halts := by
  unfold logEvent; dsimp only; split <;> rfl
@[simp] theorem logEvent_launches (s : State) (d e q c : Nat) (x y z : DWord) (b : Bool) : (logEvent s d e q c x y z b).launches = s.launches := by
  unfold logEvent; dsimp only; split <;> rfl
@[simp] theorem logEvent_mem (s : State) (d e q c : Nat) (x y z : DWord) (b : Bool) : (logEvent s d e q c x y z b).mem = s.mem := by
  unfold logEvent; dsimp only; split <;> rfl
@[simp] theorem logEvent_poison (s : State) (d e q c : Nat) (x y z : DWord) (b : Bool) : (logEvent s d e q c x y z b).poison = s.poison := by
  unfold logEvent; dsimp only; split <;> rfl
@[simp] theorem logEvent_dead (s : State) (d e q c : Nat) (x y z : DWord) (b : Bool) : (logEvent s d e q c x y z b).dead = s.dead := by
  unfold logEvent; dsimp only; split <;> rfl
@[simp] theorem logEvent_retire (s : State) (d e q c : Nat) (x y z : DWord) (b : Bool) : (logEvent s d e q c x y z b).retire = s.retire := by
  unfold logEvent; dsimp only; split <;> rfl
@[simp] theorem logEvent_retired (s : State) (d e q c : Nat) (x y z : DWord) (b : Bool) : (logEvent s d e q c x y z b).retired = s.retired := by
  unfold logEvent; dsimp only; split <;> rfl
@[simp] theorem logEvent_xlats (s : State) (d e q c : Nat) (x y z : DWord) (b : Bool) : (logEvent s d e q c x y z b).xlats = s.xlats := by
  unfold logEvent; dsimp only; split <;> rfl
@[simp] theorem logEvent_oldPtes (s : State) (d e q c : Nat) (x y z : DWord) (b : Bool) : (logEvent s d e q c x y z b).oldPtes = s.oldPtes := by
  unfold logEvent; dsimp only; split <;> rfl
@[simp] theorem logEvent_invals (s : State) (d e q c : Nat) (x y z : DWord) (b : Bool) : (logEvent s d e q c x y z b).invals = s.invals := by
  unfold logEvent; dsimp only; split <;> rfl
@[simp] theorem logEvent_pteCtr (s : State) (d e q c : Nat) (x y z : DWord) (b : Bool) : (logEvent s d e q c x y z b).pteCtr = s.pteCtr := by
  unfold logEvent; dsimp only; split <;> rfl
@[simp] theorem logEvent_hashKey (s : State) (d e q c : Nat) (x y z : DWord) (b : Bool) : (logEvent s d e q c x y z b).hashKey = s.hashKey := by
  unfold logEvent; dsimp only; split <;> rfl
@[simp] theorem logEvent_lines (s : State) (d e q c : Nat) (x y z : DWord) (b : Bool) : (logEvent s d e q c x y z b).lines = s.lines := by
  unfold logEvent; dsimp only; split <;> rfl
@[simp] theorem logEvent_fills (s : State) (d e q c : Nat) (x y z : DWord) (b : Bool) : (logEvent s d e q c x y z b).fills = s.fills := by
  unfold logEvent; dsimp only; split <;> rfl
@[simp] theorem logEvent_epochs (s : State) (d e q c : Nat) (x y z : DWord) (b : Bool) : (logEvent s d e q c x y z b).epochs = s.epochs := by
  unfold logEvent; dsimp only; split <;> rfl
@[simp] theorem logEvent_lastEpoch (s : State) (d e q c : Nat) (x y z : DWord) (b : Bool) : (logEvent s d e q c x y z b).lastEpoch = s.lastEpoch := by
  unfold logEvent; dsimp only; split <;> rfl
@[simp] theorem logEvent_redBufs (s : State) (d e q c : Nat) (x y z : DWord) (b : Bool) : (logEvent s d e q c x y z b).redBufs = s.redBufs := by
  unfold logEvent; dsimp only; split <;> rfl
@[simp] theorem logEvent_addBufs (s : State) (d e q c : Nat) (x y z : DWord) (b : Bool) : (logEvent s d e q c x y z b).addBufs = s.addBufs := by
  unfold logEvent; dsimp only; split <;> rfl
@[simp] theorem logEvent_nexts (s : State) (d e q c : Nat) (x y z : DWord) (b : Bool) : (logEvent s d e q c x y z b).nexts = s.nexts := by
  unfold logEvent; dsimp only; split <;> rfl
@[simp] theorem logEvent_turns (s : State) (d e q c : Nat) (x y z : DWord) (b : Bool) : (logEvent s d e q c x y z b).turns = s.turns := by
  unfold logEvent; dsimp only; split <;> rfl
@[simp] theorem logEvent_misses (s : State) (d e q c : Nat) (x y z : DWord) (b : Bool) : (logEvent s d e q c x y z b).misses = s.misses := by
  unfold logEvent; dsimp only; split <;> rfl
@[simp] theorem logEvent_bankQ (s : State) (d e q c : Nat) (x y z : DWord) (b : Bool) : (logEvent s d e q c x y z b).bankQ = s.bankQ := by
  unfold logEvent; dsimp only; split <;> rfl
@[simp] theorem logEvent_refused (s : State) (d e q c : Nat) (x y z : DWord) (b : Bool) : (logEvent s d e q c x y z b).refused = s.refused := by
  unfold logEvent; dsimp only; split <;> rfl
@[simp] theorem logEvent_reqCtr (s : State) (d e q c : Nat) (x y z : DWord) (b : Bool) : (logEvent s d e q c x y z b).reqCtr = s.reqCtr := by
  unfold logEvent; dsimp only; split <;> rfl
@[simp] theorem logEvent_credits (s : State) (d e q c : Nat) (x y z : DWord) (b : Bool) : (logEvent s d e q c x y z b).credits = s.credits := by
  unfold logEvent; dsimp only; split <;> rfl
@[simp] theorem logEvent_chanTurn (s : State) (d e q c : Nat) (x y z : DWord) (b : Bool) : (logEvent s d e q c x y z b).chanTurn = s.chanTurn := by
  unfold logEvent; dsimp only; split <;> rfl
@[simp] theorem logEvent_parts (s : State) (d e q c : Nat) (x y z : DWord) (b : Bool) : (logEvent s d e q c x y z b).parts = s.parts := by
  unfold logEvent; dsimp only; split <;> rfl
@[simp] theorem logEvent_staged (s : State) (d e q c : Nat) (x y z : DWord) (b : Bool) : (logEvent s d e q c x y z b).staged = s.staged := by
  unfold logEvent; dsimp only; split <;> rfl
@[simp] theorem logEvent_pcbNext (s : State) (d e q c : Nat) (x y z : DWord) (b : Bool) : (logEvent s d e q c x y z b).pcbNext = s.pcbNext := by
  unfold logEvent; dsimp only; split <;> rfl
@[simp] theorem logEvent_pcbLast (s : State) (d e q c : Nat) (x y z : DWord) (b : Bool) : (logEvent s d e q c x y z b).pcbLast = s.pcbLast := by
  unfold logEvent; dsimp only; split <;> rfl
@[simp] theorem logEvent_pcbResult (s : State) (d e q c : Nat) (x y z : DWord) (b : Bool) : (logEvent s d e q c x y z b).pcbResult = s.pcbResult := by
  unfold logEvent; dsimp only; split <;> rfl
@[simp] theorem logEvent_tiles (s : State) (d e q c : Nat) (x y z : DWord) (b : Bool) : (logEvent s d e q c x y z b).tiles = s.tiles := by
  unfold logEvent; dsimp only; split <;> rfl
@[simp] theorem logEvent_map0 (s : State) (d e q c : Nat) (x y z : DWord) (b : Bool) : (logEvent s d e q c x y z b).map0 = s.map0 := by
  unfold logEvent; dsimp only; split <;> rfl
@[simp] theorem logEvent_map1 (s : State) (d e q c : Nat) (x y z : DWord) (b : Bool) : (logEvent s d e q c x y z b).map1 = s.map1 := by
  unfold logEvent; dsimp only; split <;> rfl
@[simp] theorem logEvent_spares0 (s : State) (d e q c : Nat) (x y z : DWord) (b : Bool) : (logEvent s d e q c x y z b).spares0 = s.spares0 := by
  unfold logEvent; dsimp only; split <;> rfl
@[simp] theorem logEvent_spares1 (s : State) (d e q c : Nat) (x y z : DWord) (b : Bool) : (logEvent s d e q c x y z b).spares1 = s.spares1 := by
  unfold logEvent; dsimp only; split <;> rfl
@[simp] theorem logEvent_marked (s : State) (d e q c : Nat) (x y z : DWord) (b : Bool) : (logEvent s d e q c x y z b).marked = s.marked := by
  unfold logEvent; dsimp only; split <;> rfl
@[simp] theorem logEvent_routes (s : State) (d e q c : Nat) (x y z : DWord) (b : Bool) : (logEvent s d e q c x y z b).routes = s.routes := by
  unfold logEvent; dsimp only; split <;> rfl
@[simp] theorem logEvent_dispRuns (s : State) (d e q c : Nat) (x y z : DWord) (b : Bool) : (logEvent s d e q c x y z b).dispRuns = s.dispRuns := by
  unfold logEvent; dsimp only; split <;> rfl
@[simp] theorem logEvent_chips (s : State) (d e q c : Nat) (x y z : DWord) (b : Bool) : (logEvent s d e q c x y z b).chips = s.chips := by
  unfold logEvent; dsimp only; split <;> rfl
@[simp] theorem logEvent_groups (s : State) (d e q c : Nat) (x y z : DWord) (b : Bool) : (logEvent s d e q c x y z b).groups = s.groups := by
  unfold logEvent; dsimp only; split <;> rfl
@[simp] theorem logEvent_heldGroups (s : State) (d e q c : Nat) (x y z : DWord) (b : Bool) : (logEvent s d e q c x y z b).heldGroups = s.heldGroups := by
  unfold logEvent; dsimp only; split <;> rfl
@[simp] theorem logEvent_updRuns (s : State) (d e q c : Nat) (x y z : DWord) (b : Bool) : (logEvent s d e q c x y z b).updRuns = s.updRuns := by
  unfold logEvent; dsimp only; split <;> rfl
@[simp] theorem logEvent_rxt (s : State) (d e q c : Nat) (x y z : DWord) (b : Bool) : (logEvent s d e q c x y z b).rxt = s.rxt := by
  unfold logEvent; dsimp only; split <;> rfl
@[simp] theorem logEvent_nodeRoute (s : State) (d e q c : Nat) (x y z : DWord) (b : Bool) : (logEvent s d e q c x y z b).nodeRoute = s.nodeRoute := by
  unfold logEvent; dsimp only; split <;> rfl
@[simp] theorem logEvent_peerInc (s : State) (d e q c : Nat) (x y z : DWord) (b : Bool) : (logEvent s d e q c x y z b).peerInc = s.peerInc := by
  unfold logEvent; dsimp only; split <;> rfl
@[simp] theorem logEvent_fabCfg (s : State) (d e q c : Nat) (x y z : DWord) (b : Bool) : (logEvent s d e q c x y z b).fabCfg = s.fabCfg := by
  unfold logEvent; dsimp only; split <;> rfl
@[simp] theorem logEvent_ports (s : State) (d e q c : Nat) (x y z : DWord) (b : Bool) : (logEvent s d e q c x y z b).ports = s.ports := by
  unfold logEvent; dsimp only; split <;> rfl
@[simp] theorem logEvent_remotes (s : State) (d e q c : Nat) (x y z : DWord) (b : Bool) : (logEvent s d e q c x y z b).remotes = s.remotes := by
  unfold logEvent; dsimp only; split <;> rfl
@[simp] theorem logEvent_tagCtr (s : State) (d e q c : Nat) (x y z : DWord) (b : Bool) : (logEvent s d e q c x y z b).tagCtr = s.tagCtr := by
  unfold logEvent; dsimp only; split <;> rfl
@[simp] theorem logEvent_jobs (s : State) (d e q c : Nat) (x y z : DWord) (b : Bool) : (logEvent s d e q c x y z b).jobs = s.jobs := by
  unfold logEvent; dsimp only; split <;> rfl
@[simp] theorem logEvent_collRuns (s : State) (d e q c : Nat) (x y z : DWord) (b : Bool) : (logEvent s d e q c x y z b).collRuns = s.collRuns := by
  unfold logEvent; dsimp only; split <;> rfl
@[simp] theorem logEvent_inbox (s : State) (d e q c : Nat) (x y z : DWord) (b : Bool) : (logEvent s d e q c x y z b).inbox = s.inbox := by
  unfold logEvent; dsimp only; split <;> rfl
@[simp] theorem logEvent_outbox (s : State) (d e q c : Nat) (x y z : DWord) (b : Bool) : (logEvent s d e q c x y z b).outbox = s.outbox := by
  unfold logEvent; dsimp only; split <;> rfl
@[simp] theorem logEvent_flits (s : State) (d e q c : Nat) (x y z : DWord) (b : Bool) : (logEvent s d e q c x y z b).flits = s.flits := by
  unfold logEvent; dsimp only; split <;> rfl
@[simp] theorem logEvent_rehomed (s : State) (d e q c : Nat) (x y z : DWord) (b : Bool) : (logEvent s d e q c x y z b).rehomed = s.rehomed := by
  unfold logEvent; dsimp only; split <;> rfl
@[simp] theorem logEvent_injections (s : State) (d e q c : Nat) (x y z : DWord) (b : Bool) : (logEvent s d e q c x y z b).injections = s.injections := by
  unfold logEvent; dsimp only; split <;> rfl
@[simp] theorem logEvent_latents (s : State) (d e q c : Nat) (x y z : DWord) (b : Bool) : (logEvent s d e q c x y z b).latents = s.latents := by
  unfold logEvent; dsimp only; split <;> rfl
@[simp] theorem logEvent_fraction (s : State) (d e q c : Nat) (x y z : DWord) (b : Bool) : (logEvent s d e q c x y z b).fraction = s.fraction := by
  unfold logEvent; dsimp only; split <;> rfl
@[simp] theorem logEvent_islands (s : State) (d e q c : Nat) (x y z : DWord) (b : Bool) : (logEvent s d e q c x y z b).islands = s.islands := by
  unfold logEvent; dsimp only; split <;> rfl
@[simp] theorem logEvent_repair (s : State) (d e q c : Nat) (x y z : DWord) (b : Bool) : (logEvent s d e q c x y z b).repair = s.repair := by
  unfold logEvent; dsimp only; split <;> rfl
@[simp] theorem logEvent_bridge (s : State) (d e q c : Nat) (x y z : DWord) (b : Bool) : (logEvent s d e q c x y z b).bridge = s.bridge := by
  unfold logEvent; dsimp only; split <;> rfl
@[simp] theorem logEvent_counters (s : State) (d e q c : Nat) (x y z : DWord) (b : Bool) : (logEvent s d e q c x y z b).counters = s.counters := by
  unfold logEvent; dsimp only; split <;> rfl
@[simp] theorem logEvent_tempSeen (s : State) (d e q c : Nat) (x y z : DWord) (b : Bool) : (logEvent s d e q c x y z b).tempSeen = s.tempSeen := by
  unfold logEvent; dsimp only; split <;> rfl
@[simp] theorem logEvent_patrol (s : State) (d e q c : Nat) (x y z : DWord) (b : Bool) : (logEvent s d e q c x y z b).patrol = s.patrol := by
  unfold logEvent; dsimp only; split <;> rfl
@[simp] theorem logEvent_spareRows (s : State) (d e q c : Nat) (x y z : DWord) (b : Bool) : (logEvent s d e q c x y z b).spareRows = s.spareRows := by
  unfold logEvent; dsimp only; split <;> rfl
@[simp] theorem logEvent_persist (s : State) (d e q c : Nat) (x y z : DWord) (b : Bool) : (logEvent s d e q c x y z b).persist = s.persist := by
  unfold logEvent; dsimp only; split <;> rfl
@[simp] theorem logEvent_mgmt (s : State) (d e q c : Nat) (x y z : DWord) (b : Bool) : (logEvent s d e q c x y z b).mgmt = s.mgmt := by
  unfold logEvent; dsimp only; split <;> rfl
@[simp] theorem logEvent_boot (s : State) (d e q c : Nat) (x y z : DWord) (b : Bool) : (logEvent s d e q c x y z b).boot = s.boot := by
  unfold logEvent; dsimp only; split <;> rfl
@[simp] theorem logEvent_sovel (s : State) (d e q c : Nat) (x y z : DWord) (b : Bool) : (logEvent s d e q c x y z b).sovel = s.sovel := by
  unfold logEvent; dsimp only; split <;> rfl
@[simp] theorem logEvent_power (s : State) (d e q c : Nat) (x y z : DWord) (b : Bool) : (logEvent s d e q c x y z b).power = s.power := by
  unfold logEvent; dsimp only; split <;> rfl
@[simp] theorem logEvent_reply (s : State) (d e q c : Nat) (x y z : DWord) (b : Bool) : (logEvent s d e q c x y z b).reply = s.reply := by
  unfold logEvent; dsimp only; split <;> rfl

/-! ### Reads after updates -/

@[simp] theorem tileOf_setTile_same (s : State) (k : Nat) (x : Tile) : tileOf (setTile s k x) k = x := by
  simp [tileOf, setTile]

theorem tileOf_setTile_other (s : State) (k : Nat) (x : Tile) {j : Nat} (h : j ≠ k) : tileOf (setTile s k x) j = tileOf s j := by
  simp [tileOf, setTile, NMap.getD_put_other _ _ _ _ h]

@[simp] theorem tileOf_updTile_same (s : State) (k : Nat) (f : Tile → Tile) : tileOf (updTile s k f) k = f (tileOf s k) := by
  simp [updTile]

theorem tileOf_updTile_other (s : State) (k : Nat) (f : Tile → Tile) {j : Nat} (h : j ≠ k) : tileOf (updTile s k f) j = tileOf s j := by
  simp [updTile, tileOf_setTile_other _ _ _ h]

@[simp] theorem ctxOf_setCtx_same (s : State) (k : Nat) (x : Ctx) : ctxOf (setCtx s k x) k = x := by
  simp [ctxOf, setCtx]

theorem ctxOf_setCtx_other (s : State) (k : Nat) (x : Ctx) {j : Nat} (h : j ≠ k) : ctxOf (setCtx s k x) j = ctxOf s j := by
  simp [ctxOf, setCtx, NMap.getD_put_other _ _ _ _ h]

@[simp] theorem ctxOf_updCtx_same (s : State) (k : Nat) (f : Ctx → Ctx) : ctxOf (updCtx s k f) k = f (ctxOf s k) := by
  simp [updCtx]

theorem ctxOf_updCtx_other (s : State) (k : Nat) (f : Ctx → Ctx) {j : Nat} (h : j ≠ k) : ctxOf (updCtx s k f) j = ctxOf s j := by
  simp [updCtx, ctxOf_setCtx_other _ _ _ h]

@[simp] theorem objOf_setObj_same (s : State) (k : Nat) (x : Obj) : objOf (setObj s k x) k = x := by
  simp [objOf, setObj]

theorem objOf_setObj_other (s : State) (k : Nat) (x : Obj) {j : Nat} (h : j ≠ k) : objOf (setObj s k x) j = objOf s j := by
  simp [objOf, setObj, NMap.getD_put_other _ _ _ _ h]

@[simp] theorem objOf_updObj_same (s : State) (k : Nat) (f : Obj → Obj) : objOf (updObj s k f) k = f (objOf s k) := by
  simp [updObj]

theorem objOf_updObj_other (s : State) (k : Nat) (f : Obj → Obj) {j : Nat} (h : j ≠ k) : objOf (updObj s k f) j = objOf s j := by
  simp [updObj, objOf_setObj_other _ _ _ h]

@[simp] theorem queueOf_setQueue_same (s : State) (c q : Nat) (x : Queue) : queueOf (setQueue s c q x) c q = x := by
  simp [queueOf, setQueue]

theorem queueOf_setQueue_other (s : State) (c q : Nat) (x : Queue) {d r : Nat} (h : qidx d r ≠ qidx c q) :
    queueOf (setQueue s c q x) d r = queueOf s d r := by
  simp [queueOf, setQueue, NMap.getD_put_other _ _ _ _ h]

@[simp] theorem queueOf_updQueue_same (s : State) (c q : Nat) (f : Queue → Queue) :
    queueOf (updQueue s c q f) c q = f (queueOf s c q) := by
  simp [updQueue]

@[simp] theorem counter_setCounter_same (s : State) (t i w : Nat) (v : DWord) : counter (setCounter s t i w v) t i w = v := by
  simp [counter, setCounter]

theorem getD_setCounter_other (s : State) (t i w : Nat) (v : DWord) {k : Nat} (h : k ≠ ckey t i w) :
    NMap.getD (setCounter s t i w v).counters k 0 = NMap.getD s.counters k 0 := by
  simp [setCounter, NMap.getD_put_other _ _ _ _ h]

/-- A read of a table depends on the table alone. -/
theorem tileOf_congr {s t : State} (h : t.tiles = s.tiles) (k : Nat) : tileOf t k = tileOf s k := by simp [tileOf, h]

theorem ctxOf_congr {s t : State} (h : t.ctxs = s.ctxs) (k : Nat) : ctxOf t k = ctxOf s k := by simp [ctxOf, h]

theorem objOf_congr {s t : State} (h : t.objs = s.objs) (k : Nat) : objOf t k = objOf s k := by simp [objOf, h]

@[simp] theorem tileOf_bump (s : State) (t i w n : Nat) (k : Nat) : tileOf (bump s t i w n) k = tileOf s k := tileOf_congr (bump_tiles s t i w n) k

@[simp] theorem tileOf_keepMax (s : State) (t i w n : Nat) (k : Nat) : tileOf (keepMax s t i w n) k = tileOf s k := tileOf_congr (keepMax_tiles s t i w n) k

@[simp] theorem tileOf_setCounter (s : State) (t i w : Nat) (v : DWord) (k : Nat) : tileOf (setCounter s t i w v) k = tileOf s k := rfl

@[simp] theorem ctxOf_bump (s : State) (t i w n : Nat) (k : Nat) : ctxOf (bump s t i w n) k = ctxOf s k := ctxOf_congr (bump_ctxs s t i w n) k

@[simp] theorem ctxOf_keepMax (s : State) (t i w n : Nat) (k : Nat) : ctxOf (keepMax s t i w n) k = ctxOf s k := ctxOf_congr (keepMax_ctxs s t i w n) k

@[simp] theorem ctxOf_setCounter (s : State) (t i w : Nat) (v : DWord) (k : Nat) : ctxOf (setCounter s t i w v) k = ctxOf s k := rfl

@[simp] theorem objOf_bump (s : State) (t i w n : Nat) (k : Nat) : objOf (bump s t i w n) k = objOf s k := objOf_congr (bump_objs s t i w n) k

@[simp] theorem objOf_keepMax (s : State) (t i w n : Nat) (k : Nat) : objOf (keepMax s t i w n) k = objOf s k := objOf_congr (keepMax_objs s t i w n) k

@[simp] theorem objOf_setCounter (s : State) (t i w : Nat) (v : DWord) (k : Nat) : objOf (setCounter s t i w v) k = objOf s k := rfl

@[simp] theorem ctxOf_setTile (s : State) (i : Nat) (x : Tile) (k : Nat) : ctxOf (setTile s i x) k = ctxOf s k := rfl

@[simp] theorem ctxOf_updTile (s : State) (i : Nat) (f : Tile → Tile) (k : Nat) : ctxOf (updTile s i f) k = ctxOf s k := rfl

end Sys2Proof.Machine
end

