-- ==== Sys2Proof/Laws/Memory.lean ====
section
/-! SUPPORT. Laws of memory: every memory operation keeps the canonical form of the stored bytes, and leaves every byte
outside those it stores as the home slices answered before. -/

set_option Elab.async false

namespace Sys2Proof.Machine

/-! ### The canonical form -/

theorem memPut_wf {m : NMap Byte} (h : NMap.wf 0 m = true) (pa : Nat) (bs : List Byte) :
    NMap.wf 0 (memPut m pa bs) = true := by
  induction bs generalizing m pa with
  | nil => exact h
  | cons b r ih => exact ih (NMap.wf_put 0 m pa b h) (pa + 1)

theorem memCells_wf {m : NMap Byte} (h : NMap.wf 0 m = true) (cells : List (Nat × Byte)) :
    NMap.wf 0 (memCells m cells) = true := by
  induction cells generalizing m with
  | nil => exact h
  | cons c r ih => exact ih (NMap.wf_put 0 m _ c.2 h)

theorem linePutBack_wf {m : NMap Byte} (h : NMap.wf 0 m = true) (line : Nat) (dirty : NMap Byte) :
    NMap.wf 0 (linePutBack m line dirty) = true := by
  induction dirty with
  | nil => exact h
  | cons c r ih =>
    unfold linePutBack
    split
    · exact NMap.wf_put 0 _ _ _ ih
    · exact ih

theorem companionStores_wf {s : State} (h : Memory.wf s = true) (cells : List (Nat × Byte)) :
    Memory.wf (companionStores s cells) = true := memCells_wf h cells

theorem companionWrite_wf {s : State} (h : Memory.wf s = true) (pa : Nat) (bs : List Byte) :
    Memory.wf (companionWrite s pa bs) = true := by
  unfold companionWrite; split
  · exact memPut_wf h pa bs
  · exact h

theorem deliverHeld_wf {s : State} (h : Memory.wf s = true) : Memory.wf (deliverHeld s) = true := by
  have (l : List HeldByte) (m : NMap Byte) (hm : NMap.wf 0 m = true) :
      NMap.wf 0 (l.foldl (fun m c => NMap.put 0 m c.pa c.byte) m) = true := by
    induction l generalizing m with
    | nil => exact hm
    | cons c r ih => exact ih _ (NMap.wf_put 0 m c.pa c.byte hm)
  exact this _ _ h

/-! ### What leaves memory and lines alone -/

@[simp] theorem useCredits_mem (s : State) (c p n : Nat) : (useCredits s c p n).mem = s.mem := by simp [useCredits]
@[simp] theorem useCredits_lines (s : State) (c p n : Nat) : (useCredits s c p n).lines = s.lines := by simp [useCredits]
@[simp] theorem useCredits_dead (s : State) (c p n : Nat) : (useCredits s c p n).dead = s.dead := by simp [useCredits]

theorem adderYield_or (s : State) (sector : Nat) :
    adderYield s sector = s ∨ ∃ b, adderYield s sector = adderFlush s b := by
  unfold adderYield; split
  · exact .inr ⟨_, rfl⟩
  · exact .inl rfl

@[simp] theorem adderYield_mem (s : State) (k : Nat) : (adderYield s k).mem = s.mem := by
  rcases adderYield_or s k with h | ⟨b, h⟩ <;> simp [h, adderFlush]
@[simp] theorem adderYield_lines (s : State) (k : Nat) : (adderYield s k).lines = s.lines := by
  rcases adderYield_or s k with h | ⟨b, h⟩ <;> simp [h, adderFlush]
@[simp] theorem adderYield_dead (s : State) (k : Nat) : (adderYield s k).dead = s.dead := by
  rcases adderYield_or s k with h | ⟨b, h⟩ <;> simp [h, adderFlush]

theorem dropFill_or (s : State) (line word : Nat) :
    dropFill s line word = s ∨ ∃ f, dropFill s line word = bump { s with fills := NMap.erase s.fills line } 5 f word 1 := by
  unfold dropFill; split
  · exact .inl rfl
  · exact .inr ⟨_, rfl⟩

@[simp] theorem dropFill_mem (s : State) (line word : Nat) : (dropFill s line word).mem = s.mem := by
  rcases dropFill_or s line word with h | ⟨f, h⟩ <;> simp [h]
@[simp] theorem dropFill_lines (s : State) (line word : Nat) : (dropFill s line word).lines = s.lines := by
  rcases dropFill_or s line word with h | ⟨f, h⟩ <;> simp [h]
@[simp] theorem dropFill_dead (s : State) (line word : Nat) : (dropFill s line word).dead = s.dead := by
  rcases dropFill_or s line word with h | ⟨f, h⟩ <;> simp [h]

theorem endFill_or (s : State) (line word : Nat) : endFill s line word = s ∨ endFill s line word = dropFill s line word := by
  unfold endFill; split
  · split
    · exact .inl rfl
    · exact .inr rfl
  · exact .inl rfl

@[simp] theorem endFill_mem (s : State) (line word : Nat) : (endFill s line word).mem = s.mem := by
  rcases endFill_or s line word with h | h <;> simp [h]
@[simp] theorem endFill_lines (s : State) (line word : Nat) : (endFill s line word).lines = s.lines := by
  rcases endFill_or s line word with h | h <;> simp [h]
@[simp] theorem endFill_dead (s : State) (line word : Nat) : (endFill s line word).dead = s.dead := by
  rcases endFill_or s line word with h | h <;> simp [h]

/-- Keeping words that a write has changed touches the list of them alone. -/
theorem keepOld_eq (old s : State) (pa n : Nat) :
    ∃ o k, keepOld old s pa n = { s with oldPtes := o, pteCtr := k } := by
  induction n generalizing s pa with
  | zero => exact ⟨_, _, rfl⟩
  | succ n ih =>
    unfold keepOld; dsimp only; split
    · exact ih ..
    · obtain ⟨o, k, h⟩ := ih { s with oldPtes := s.oldPtes ++ [⟨pa, physWord old pa, s.pteCtr⟩], pteCtr := s.pteCtr + 1 } (pa + 8)
      exact ⟨o, k, h⟩

@[simp] theorem keepOld_mem (old s : State) (pa n : Nat) : (keepOld old s pa n).mem = s.mem := by
  obtain ⟨o, k, h⟩ := keepOld_eq old s pa n; rw [h]
@[simp] theorem keepOld_lines (old s : State) (pa n : Nat) : (keepOld old s pa n).lines = s.lines := by
  obtain ⟨o, k, h⟩ := keepOld_eq old s pa n; rw [h]
@[simp] theorem keepOld_dead (old s : State) (pa n : Nat) : (keepOld old s pa n).dead = s.dead := by
  obtain ⟨o, k, h⟩ := keepOld_eq old s pa n; rw [h]

/-! ### Operations that write lines back -/

theorem writeBack_wf {s : State} (h : Memory.wf s = true) (line : Nat) : Memory.wf (writeBack s line) = true := by
  unfold writeBack; split
  · exact h
  · dsimp only; split
    · exact linePutBack_wf h line _
    · simp only [Memory.wf, bump_mem, useCredits_mem]; exact linePutBack_wf h line _

theorem evictLine_wf {s : State} (h : Memory.wf s = true) (line : Nat) : Memory.wf (evictLine s line) = true := by
  simpa [Memory.wf, evictLine] using writeBack_wf h line

theorem takeWay_wf {s : State} (h : Memory.wf s = true) (pa : Nat) (o : Option Nat) : Memory.wf (takeWay s pa o).1 = true := by
  unfold takeWay; dsimp only; split
  · exact h
  · split
    · exact h
    · exact evictLine_wf (s := (takeFree s).2) h _

theorem allocLine_wf {s : State} (h : Memory.wf s = true) (pa part : Nat) : Memory.wf (allocLine s pa part) = true := by
  unfold allocLine; split
  · exact h
  · have := takeWay_wf h pa (lineOwner s pa)
    split <;> rename_i hw <;> rw [hw] at this <;> exact this

theorem fillSector_wf {s : State} (h : Memory.wf s = true) (pa : Nat) : Memory.wf (fillSector s pa) = true := by
  unfold fillSector; split <;> exact h

theorem touchRead_wf {s : State} (h : Memory.wf s = true) (pa n cp part : Nat) : Memory.wf (touchRead s pa n cp part) = true := by
  unfold touchRead; split
  · dsimp only; split
    · simpa [Memory.wf] using h
    · refine fillSector_wf ?_ pa
      split
      · exact allocLine_wf (by simpa [Memory.wf] using h) pa part
      · simpa [Memory.wf] using h
  · exact h

theorem touchWrite_wf {s : State} (h : Memory.wf s = true) (pa n : Nat) (alloc : Bool) (part : Nat) :
    Memory.wf (touchWrite s pa n alloc part) = true := by
  have hb : Memory.wf (bump (endFill s (pa / 256) 4) 2 (homeSlice s pa) 1 1) = true := by simpa [Memory.wf] using h
  have ha : Memory.wf (if alloc = true ∨ (orderedAt (bump (endFill s (pa / 256) 4) 2 (homeSlice s pa) 1 1) pa).isSome = true then
      allocLine (bump (endFill s (pa / 256) 4) 2 (homeSlice s pa) 1 1) pa part
      else bump (endFill s (pa / 256) 4) 2 (homeSlice s pa) 1 1) = true := by
    split
    · exact allocLine_wf hb pa part
    · exact hb
  unfold touchWrite; split
  · dsimp only; split
    · simpa [Memory.wf] using h
    · split
      · exact ha
      · simpa [Memory.wf] using ha
  · exact h

theorem beforeWrite_wf {s : State} (h : Memory.wf s = true) (pa : Nat) (alloc : Bool) (part : Nat) :
    Memory.wf (beforeWrite s pa alloc part) = true := by
  simp only [beforeWrite, Memory.wf, endFill_mem]
  split
  · exact allocLine_wf h pa part
  · exact h

theorem storeSector_wf {s : State} (h : Memory.wf s = true) (pa : Nat) (bs : List Byte) (poison : Bool) (part : Nat) :
    Memory.wf (storeSector s pa bs poison part) = true := by
  unfold storeSector
  dsimp only
  split
  · exact h
  · exact memPut_wf h pa bs

theorem cohWrite_wf {s : State} (h : Memory.wf s = true) (pa : Nat) (bs : List Byte) (poison alloc : Bool) (part : Nat) :
    Memory.wf (cohWrite s pa bs poison alloc part) = true := by
  have hs := storeSector_wf (beforeWrite_wf h pa alloc part) pa bs poison part
  unfold cohWrite
  split
  · exact companionWrite_wf h pa bs
  · split
    · exact h
    · dsimp only; split
      · simpa only [Memory.wf, keepOld_mem] using hs
      · exact hs

theorem physWrite_wf {s : State} (h : Memory.wf s = true) (pa : Nat) (bs : List Byte) (part : Nat) :
    Memory.wf (physWrite s pa bs part) = true := by
  unfold physWrite
  generalize pieces pa bs.length = l
  induction l generalizing s with
  | nil => exact h
  | cons p r ih => exact ih (cohWrite_wf h ..)

/-! ### Bytes -/

theorem memByte_memPut_outside {m : NMap Byte} (pa : Nat) (bs : List Byte) {a : Nat} (h : a < pa ∨ pa + bs.length ≤ a) :
    NMap.getD (memPut m pa bs) a 0 = NMap.getD m a 0 := by
  induction bs generalizing m pa with
  | nil => rfl
  | cons b r ih =>
    simp only [List.length_cons] at h
    unfold memPut
    rw [ih (pa + 1) (by omega), NMap.getD_put_other _ _ _ _ (by omega)]

theorem memByte_memPut_inside {m : NMap Byte} (pa : Nat) (bs : List Byte) {i : Nat} (h : i < bs.length) :
    NMap.getD (memPut m pa bs) (pa + i) 0 = bs[i] := by
  induction bs generalizing m pa i with
  | nil => simp at h
  | cons b r ih =>
    unfold memPut
    cases i with
    | zero => rw [memByte_memPut_outside (pa + 1) r (Or.inl (by omega))]; simp
    | succ i =>
      have := ih (m := NMap.put 0 m pa b) (pa + 1) (i := i) (by simpa using h)
      rw [show pa + (i + 1) = pa + 1 + i by omega, this]; simp

theorem find_linePut_outside {m : NMap Byte} (off : Nat) (bs : List Byte) {a : Nat} (h : a < off ∨ off + bs.length ≤ a) :
    NMap.find (linePut m off bs) a = NMap.find m a := by
  induction bs generalizing m off with
  | nil => rfl
  | cons b r ih =>
    simp only [List.length_cons] at h
    unfold linePut
    rw [ih (off + 1) (by omega), NMap.find_insert_other _ _ (by omega)]

theorem find_linePut_inside {m : NMap Byte} (off : Nat) (bs : List Byte) {i : Nat} (h : i < bs.length) :
    NMap.find (linePut m off bs) (off + i) = some bs[i] := by
  induction bs generalizing m off i with
  | nil => simp at h
  | cons b r ih =>
    unfold linePut
    cases i with
    | zero => rw [find_linePut_outside (off + 1) r (Or.inl (by omega))]; simp
    | succ i =>
      have := ih (m := NMap.insert m off b) (off + 1) (i := i) (by simpa using h)
      rw [show off + (i + 1) = off + 1 + i by omega, this]; simp

theorem getD_linePutBack (m : NMap Byte) (line : Nat) (dirty : NMap Byte) (a : Nat) :
    NMap.getD (linePutBack m line dirty) a 0 =
      if a / 256 = line then (NMap.find dirty (a % 256)).getD (NMap.getD m a 0) else NMap.getD m a 0 := by
  induction dirty with
  | nil => simp [linePutBack]
  | cons c r ih =>
    obtain ⟨o, b⟩ := c
    unfold linePutBack
    by_cases ho : o < 256
    · rw [if_pos ho]
      by_cases ha : a = line * 256 + o
      · subst ha
        have h1 : (line * 256 + o) / 256 = line := by omega
        have h2 : (line * 256 + o) % 256 = o := by omega
        simp [h1, h2, NMap.find]
      · rw [NMap.getD_put_other _ _ _ _ ha, ih]
        split
        · have : o ≠ a % 256 := by omega
          simp [NMap.find, this]
        · rfl
    · rw [if_neg ho, ih]
      split
      · have : o ≠ a % 256 := by omega
        simp [NMap.find, this]
      · rfl

/-- A byte as the home slices answer depends on the memory and the held lines alone. -/
theorem cohByte_congr {s t : State} (hm : t.mem = s.mem) (hl : t.lines = s.lines) (a : Nat) : cohByte t a = cohByte s a := by
  simp [cohByte, memByte, hm, hl]

theorem cohByte_writeBack (s : State) (line a : Nat) : cohByte (writeBack s line) a = cohByte s a := by
  unfold writeBack
  split
  · rfl
  · rename_i l hl
    dsimp only
    have : ∀ t : State, t.mem = linePutBack s.mem line l.dirty → t.lines = NMap.erase s.lines line →
        cohByte t a = cohByte s a := by
      intro t hm ht
      simp only [cohByte, memByte, hm, ht]
      by_cases h : a / 256 = line
      · subst h
        simp only [NMap.find_erase_same, hl]
        rw [getD_linePutBack]; simp
      · rw [NMap.find_erase_other _ h, getD_linePutBack, if_neg h]
    split
    · exact this _ rfl rfl
    · exact this _ (by simp) (by simp)

theorem writeBack_absent {s : State} {k : Nat} (h : NMap.find s.lines k = none) (line : Nat) :
    NMap.find (writeBack s line).lines k = none := by
  have he : NMap.find (NMap.erase s.lines line) k = none := by
    by_cases hk : k = line
    · subst hk; exact NMap.find_erase_same ..
    · rw [NMap.find_erase_other _ hk]; exact h
  unfold writeBack; split
  · exact h
  · dsimp only; split
    · exact he
    · simpa using he

/-- A line that holds no written byte answers as the channel does. -/
theorem cohByte_newLine {s : State} {line : Nat} (hn : NMap.find s.lines line = none) (l : SLine) (hd : l.dirty = [])
    (a : Nat) : cohByte { s with lines := NMap.insert s.lines line l } a = cohByte s a := by
  simp only [cohByte, memByte]
  by_cases h : a / 256 = line
  · subst h; simp [hn, hd]
  · rw [NMap.find_insert_other _ _ h]

theorem cohByte_evictLine (s : State) (line a : Nat) : cohByte (evictLine s line) a = cohByte s a := by
  rw [evictLine, cohByte_congr (s := writeBack s line) (by simp) (by simp), cohByte_writeBack]

theorem cohByte_takeWay (s : State) (pa : Nat) (o : Option Nat) (a : Nat) : cohByte (takeWay s pa o).1 a = cohByte s a := by
  unfold takeWay; dsimp only; split
  · rfl
  · split
    · rfl
    · exact cohByte_evictLine (takeFree s).2 _ a

theorem takeWay_absent {s : State} {k : Nat} (h : NMap.find s.lines k = none) (pa : Nat) (o : Option Nat) :
    NMap.find (takeWay s pa o).1.lines k = none := by
  unfold takeWay; dsimp only; split
  · exact h
  · split
    · exact h
    · simp only [evictLine, dropFill_lines]
      exact writeBack_absent (s := (takeFree s).2) h _

theorem cohByte_allocLine (s : State) (pa part a : Nat) : cohByte (allocLine s pa part) a = cohByte s a := by
  unfold allocLine
  split
  · rfl
  · rename_i hn
    have hb := cohByte_takeWay s pa (lineOwner s pa) a
    have hx := takeWay_absent hn pa (lineOwner s pa)
    split <;> rename_i hw <;> rw [hw] at hb hx
    · rw [cohByte_newLine hx _ rfl]; exact hb
    · exact hb

theorem cohByte_fillSector (s : State) (pa a : Nat) : cohByte (fillSector s pa) a = cohByte s a := by
  unfold fillSector
  split
  · rfl
  · rename_i l hl
    simp only [cohByte, memByte]
    by_cases h : a / 256 = pa / 256
    · rw [h, NMap.find_insert_same, hl]
    · rw [NMap.find_insert_other _ _ h]

theorem cohByte_touchRead (s : State) (pa n cp part a : Nat) : cohByte (touchRead s pa n cp part) a = cohByte s a := by
  unfold touchRead
  split
  · dsimp only
    split
    · exact cohByte_congr (by simp) (by simp) a
    · rw [cohByte_fillSector]
      split
      · rw [cohByte_allocLine]; exact cohByte_congr (by simp) (by simp) a
      · exact cohByte_congr (by simp) (by simp) a
  · rfl

theorem cohByte_touchWrite (s : State) (pa n : Nat) (alloc : Bool) (part a : Nat) :
    cohByte (touchWrite s pa n alloc part) a = cohByte s a := by
  have hb (t i : Nat) : cohByte (bump (endFill s (pa / 256) 4) 2 t i 1) a = cohByte s a :=
    cohByte_congr (by simp) (by simp) a
  unfold touchWrite
  split
  · dsimp only
    split
    · exact hb ..
    · split
      · split
        · rw [cohByte_allocLine]; exact hb ..
        · exact hb ..
      · rw [cohByte_congr (useCredits_mem ..) (useCredits_lines ..), cohByte_congr (adderYield_mem ..) (adderYield_lines ..)]
        split
        · rw [cohByte_allocLine]; exact hb ..
        · exact hb ..
  · rfl

/-! ### Writes -/

theorem cohByte_companionWrite (s : State) (pa : Nat) (bs : List Byte) {a : Nat} (h : a < pa ∨ pa + bs.length ≤ a) :
    cohByte (companionWrite s pa bs) a = cohByte s a := by
  unfold companionWrite
  split
  · simp only [cohByte, memByte, memByte_memPut_outside pa bs h]
  · rfl

theorem cohByte_beforeWrite (s : State) (pa : Nat) (alloc : Bool) (part a : Nat) :
    cohByte (beforeWrite s pa alloc part) a = cohByte s a := by
  unfold beforeWrite
  split
  · rw [cohByte_congr (s := allocLine s pa part) (by simp) (by simp), cohByte_allocLine]
  · exact cohByte_congr (by simp) (by simp) a

theorem cohByte_storeSector_outside (s : State) (pa : Nat) (bs : List Byte) (poison : Bool) (part : Nat)
    (_ : pa % 256 + bs.length ≤ 256) {a : Nat} (h : a < pa ∨ pa + bs.length ≤ a) :
    cohByte (storeSector s pa bs poison part) a = cohByte s a := by
  unfold storeSector
  dsimp only
  split
  · rename_i l hl
    simp only [cohByte, memByte]
    by_cases hq : a / 256 = pa / 256
    · rw [hq, NMap.find_insert_same, hl]
      simp only
      rw [find_linePut_outside]
      omega
    · rw [NMap.find_insert_other _ _ hq]
  · simp only [cohByte, memByte]
    rw [memByte_memPut_outside pa bs h]

theorem cohByte_storeSector_inside (s : State) (pa : Nat) (bs : List Byte) (poison : Bool) (part : Nat)
    (hb : pa % 256 + bs.length ≤ 256) {i : Nat} (h : i < bs.length) :
    cohByte (storeSector s pa bs poison part) (pa + i) = bs[i] := by
  have hq : (pa + i) / 256 = pa / 256 := by omega
  have hm : (pa + i) % 256 = pa % 256 + i := by omega
  unfold storeSector
  dsimp only
  split
  · simp only [cohByte, memByte]
    rw [hq, NMap.find_insert_same, hm]
    simp [find_linePut_inside _ bs h]
  · rename_i hn
    simp only [cohByte, memByte]
    rw [hq, hn]
    exact memByte_memPut_inside pa bs h

/-- A write at its home leaves the memory and lines that storing the sector leaves. -/
theorem cohByte_cohWrite_stored (s : State) (pa : Nat) (bs : List Byte) (poison alloc : Bool) (part a : Nat)
    (hr : regionOf pa ≠ .sovel) (ht : tierLost s pa = false) :
    cohByte (cohWrite s pa bs poison alloc part) a = cohByte (storeSector (beforeWrite s pa alloc part) pa bs poison part) a := by
  unfold cohWrite
  split
  · contradiction
  · simp only [ht, Bool.false_eq_true, if_false]
    split
    · exact cohByte_congr (by simp) (by simp) a
    · rfl

/-- A write within one line leaves every byte outside it. -/
theorem cohByte_cohWrite_outside (s : State) (pa : Nat) (bs : List Byte) (poison alloc : Bool) (part : Nat)
    (hb : pa % 256 + bs.length ≤ 256) {a : Nat} (h : a < pa ∨ pa + bs.length ≤ a) :
    cohByte (cohWrite s pa bs poison alloc part) a = cohByte s a := by
  by_cases hr : regionOf pa = .sovel
  · unfold cohWrite; rw [hr]; exact cohByte_companionWrite s pa bs h
  · cases ht : tierLost s pa with
    | false => rw [cohByte_cohWrite_stored _ _ _ _ _ _ _ hr ht, cohByte_storeSector_outside _ _ _ _ _ hb h, cohByte_beforeWrite]
    | true =>
      unfold cohWrite; split
      · contradiction
      · rw [if_pos ht]

/-- A write within one line of backed module memory puts its bytes there. -/
theorem cohByte_cohWrite_inside (s : State) (pa : Nat) (bs : List Byte) (poison alloc : Bool) (part : Nat)
    (hb : pa % 256 + bs.length ≤ 256) (hr : regionOf pa ≠ .sovel) (ht : tierLost s pa = false) {i : Nat} (h : i < bs.length) :
    cohByte (cohWrite s pa bs poison alloc part) (pa + i) = bs[i] := by
  rw [cohByte_cohWrite_stored _ _ _ _ _ _ _ hr ht]
  exact cohByte_storeSector_inside _ pa bs poison part hb h

theorem length_leBytes (x n : Nat) : (leBytes x n).length = n := by
  induction n generalizing x with
  | zero => rfl
  | succ n ih => simp [leBytes, ih]

theorem length_sliceList {α : Type} (d : α) (l : List α) (pos n : Nat) : (sliceList d l pos n).length = n := by
  simp [sliceList]

/-- A piece lies within one sector and within the bytes that are cut. -/
theorem mem_pieces {a n : Nat} {p : Nat × Nat} (h : p ∈ pieces a n) : p.1 % 64 + p.2 ≤ 64 ∧ a ≤ p.1 ∧ p.1 + p.2 ≤ a + n := by
  unfold pieces at h
  split at h
  · simp at h
  · simp only [List.mem_map, List.mem_range] at h
    obtain ⟨i, hi, rfl⟩ := h
    dsimp only
    split
    · rename_i h0; subst h0; refine ⟨?_, ?_, ?_⟩ <;> omega
    · refine ⟨?_, ?_, ?_⟩ <;> omega

/-- A write of the module by physical address leaves every byte outside it. -/
theorem cohByte_physWrite_outside (s : State) (pa : Nat) (bs : List Byte) (part : Nat) {a : Nat}
    (h : a < pa ∨ pa + bs.length ≤ a) : cohByte (physWrite s pa bs part) a = cohByte s a := by
  unfold physWrite
  suffices ∀ (l : List (Nat × Nat)) (s : State), (∀ p ∈ l, p ∈ pieces pa bs.length) →
      cohByte (l.foldl (fun s p => cohWrite s p.1 (sliceList 0 bs (p.1 - pa) p.2) false false part) s) a = cohByte s a from
    this _ _ fun _ hp => hp
  intro l
  induction l with
  | nil => exact fun s _ => rfl
  | cons p r ih =>
    intro s hp
    have hm := mem_pieces (hp p (by simp))
    rw [List.foldl_cons, ih _ fun q hq => hp q (by simp [hq]), cohByte_cohWrite_outside]
    · rw [length_sliceList]; omega
    · rw [length_sliceList]; omega

/-- A write of a translation table entry leaves every byte but those of the entry. -/
theorem cohByte_tableWrite_outside (s : State) (at_ v part : Nat) {a : Nat} (h : a < at_ ∨ at_ + 8 ≤ a) :
    cohByte (tableWrite s at_ v part) a = cohByte s a := by
  unfold tableWrite
  rw [cohByte_physWrite_outside _ _ _ _ (by rwa [length_leBytes]), cohByte_touchWrite]

/-- Setting A and D leaves every byte but those of the entry (R33). -/
theorem cohByte_setAD_outside (s : State) (ctx : Nat) (acc : Acc) (at_ : Nat) (e : DWord) {a : Nat}
    (h : a < at_ ∨ at_ + 8 ≤ a) : cohByte (setAD s ctx acc at_ e) a = cohByte s a := by
  unfold setAD
  generalize (e ||| if acc = .write then 0x60#64 else 0x20#64) = e'
  dsimp only
  by_cases he : e' = e
  · rw [if_pos he]
  · rw [if_neg he]
    exact cohByte_tableWrite_outside _ _ _ _ h

end Sys2Proof.Machine
end

