-- ==== Sys2Proof/Laws/Access.lean ====
section
/-! SUPPORT. What a translated access does when it reaches the fast tier: what it changes, and the bytes it reads or
leaves. -/

set_option Elab.async false

namespace Sys2Proof

open Machine

/-! ### What memory operations change -/

theorem MemoryOnly.refl (s : State) : MemoryOnly s s := rfl

theorem MemoryOnly.trans {s t u : State} (h : MemoryOnly s t) (k : MemoryOnly t u) : MemoryOnly s u := by
  unfold MemoryOnly at *
  rw [k]
  conv => lhs; rw [h]

/-- A choice between two states, each reached by memory alone. -/
theorem MemoryOnly.choice {s t u : State} {c : Prop} [Decidable c] (h : MemoryOnly s t) (k : MemoryOnly s u) :
    MemoryOnly s (if c then t else u) := by split <;> assumption

theorem MemoryOnly.bump (s : State) (t i w n : Nat) : MemoryOnly s (bump s t i w n) := by
  unfold Machine.bump; exact .choice (.refl s) rfl

theorem MemoryOnly.useCredits (s : State) (c p n : Nat) : MemoryOnly s (useCredits s c p n) :=
  MemoryOnly.trans (t := { s with credits := _ }) rfl (.bump ..)

theorem MemoryOnly.adderYield (s : State) (k : Nat) : MemoryOnly s (adderYield s k) := by
  rcases adderYield_or s k with h | ⟨b, h⟩ <;> rw [h]
  · exact .refl s
  · exact MemoryOnly.trans (t := { s with addBufs := _ }) rfl (.useCredits ..)

theorem MemoryOnly.dropFill (s : State) (line word : Nat) : MemoryOnly s (dropFill s line word) := by
  rcases dropFill_or s line word with h | ⟨f, h⟩ <;> rw [h]
  · exact .refl s
  · exact MemoryOnly.trans (t := { s with fills := _ }) rfl (.bump ..)

theorem MemoryOnly.endFill (s : State) (line word : Nat) : MemoryOnly s (endFill s line word) := by
  rcases endFill_or s line word with h | h <;> rw [h]
  · exact .refl s
  · exact .dropFill ..

theorem MemoryOnly.keepOld (old s : State) (pa n : Nat) : MemoryOnly s (keepOld old s pa n) := by
  obtain ⟨o, k, h⟩ := keepOld_eq old s pa n
  rw [h]; rfl

theorem MemoryOnly.writeBack (s : State) (line : Nat) : MemoryOnly s (writeBack s line) := by
  unfold Machine.writeBack; split
  · exact .refl s
  · rename_i l _
    let ds := dirtySectors l
    let moved (k : Nat) : Bool := ds.contains (k % 4)
    have h : MemoryOnly s { s with
        mem := linePutBack s.mem line l.dirty
        poison := (l.poisonOn.filter moved).foldl NSet.add ((l.poisonOff.filter moved).foldl NSet.del s.poison)
        redBufs := s.redBufs.filter fun x => x / 4 != line
        lines := NMap.erase s.lines line } := rfl
    exact .choice h (h.trans (.trans (.useCredits ..) (.bump ..)))

theorem MemoryOnly.takeWay (s : State) (pa : Nat) (o : Option Nat) : MemoryOnly s (takeWay s pa o).1 := by
  unfold Machine.takeWay; dsimp only; split
  · exact .refl s
  · split
    · exact .refl s
    · exact MemoryOnly.trans (t := (takeFree s).2) rfl ((MemoryOnly.writeBack ..).trans (.dropFill ..))

theorem MemoryOnly.allocLine (s : State) (pa part : Nat) : MemoryOnly s (allocLine s pa part) := by
  have h := MemoryOnly.takeWay s pa (lineOwner s pa)
  unfold Machine.allocLine; split
  · exact .refl s
  · split <;> rename_i hw <;> rw [hw] at h
    · exact h.trans rfl
    · exact h

theorem MemoryOnly.fillSector (s : State) (pa : Nat) : MemoryOnly s (fillSector s pa) := by
  unfold Machine.fillSector; split
  · exact .refl s
  · rfl

theorem MemoryOnly.touchRead (s : State) (pa n cp part : Nat) : MemoryOnly s (touchRead s pa n cp part) := by
  unfold Machine.touchRead
  have h0 : MemoryOnly s { s with redBufs := s.redBufs.filter fun x => x / 4 != pa / 256 } := rfl
  have h := h0.trans (.endFill _ (pa / 256) 5)
  have hb (w : Nat) := h.trans (.bump _ 2 (homeSlice s pa) w 1)
  have hm := ((hb 1).trans (.adderYield _ (pa / 64))).trans (.useCredits _ (homeSlice s pa) part 1)
  exact .choice (.choice (hb 0) (.trans (.choice (hm.trans (.allocLine ..)) hm) (.fillSector ..))) (.refl s)

theorem MemoryOnly.touchWrite (s : State) (pa n : Nat) (alloc : Bool) (part : Nat) :
    MemoryOnly s (touchWrite s pa n alloc part) := by
  have h (i w : Nat) : MemoryOnly s (Machine.bump (Machine.endFill s (pa / 256) 4) 2 i w 1) :=
    MemoryOnly.trans (.endFill ..) (.bump ..)
  unfold Machine.touchWrite; split
  · dsimp only; split
    · exact h ..
    · split
      · exact .choice ((h ..).trans (.allocLine ..)) (h ..)
      · exact .trans (.choice ((h ..).trans (.allocLine ..)) (h ..)) ((MemoryOnly.adderYield ..).trans (.useCredits ..))
  · exact .refl s

theorem MemoryOnly.beforeWrite (s : State) (pa : Nat) (alloc : Bool) (part : Nat) :
    MemoryOnly s (beforeWrite s pa alloc part) := by
  unfold Machine.beforeWrite
  have h (t : State) : MemoryOnly t { t with dead := NSet.del t.dead (pa / 64) } := rfl
  exact (MemoryOnly.choice (.allocLine ..) (.refl s)).trans ((h _).trans (.endFill ..))

theorem MemoryOnly.storeSector (s : State) (pa : Nat) (bs : List Byte) (poison : Bool) (part : Nat) :
    MemoryOnly s (storeSector s pa bs poison part) := by
  unfold Machine.storeSector; dsimp only; split <;> rfl

theorem MemoryOnly.cohWrite (s : State) (pa : Nat) (bs : List Byte) (poison alloc : Bool) (part : Nat)
    (h : regionOf pa ≠ .sovel) : MemoryOnly s (cohWrite s pa bs poison alloc part) := by
  have hs := (MemoryOnly.beforeWrite s pa alloc part).trans (.storeSector _ pa bs poison part)
  unfold Machine.cohWrite; split
  · contradiction
  · exact .choice (.refl s) (.choice (hs.trans (.keepOld ..)) hs)

theorem regionOf_low {pa : Nat} (h : pa < 0x7F0000000000) : regionOf pa ≠ .sovel := by
  have h1 : ¬ (0x7F0000000000 ≤ pa ∧ pa < 0x7F0100000000) := by omega
  have h2 : ¬ (0x800000000000 ≤ pa ∧ pa < 0x1000000000000) := by omega
  unfold regionOf
  rw [if_neg h1, if_neg h2]
  split
  · simp
  split
  · simp
  split
  · simp
  split
  · simp
  split
  · simp
  split <;> simp

theorem MemoryOnly.physWrite (s : State) (pa : Nat) (bs : List Byte) (part : Nat) (h : pa + bs.length < 0x7F0000000000) :
    MemoryOnly s (physWrite s pa bs part) := by
  unfold Machine.physWrite
  have hl : ∀ p ∈ pieces pa bs.length, p.1 < 0x7F0000000000 := fun p hp => by have := mem_pieces hp; omega
  generalize pieces pa bs.length = l at hl
  induction l generalizing s with
  | nil => exact .refl s
  | cons p r ih =>
    exact (MemoryOnly.cohWrite _ _ _ _ _ _ (regionOf_low (hl p List.mem_cons_self))).trans
      (ih _ fun q hq => hl q (List.mem_cons_of_mem _ hq))

theorem MemoryOnly.setAD (s : State) (ctx : Nat) (acc : Acc) (at_ : Nat) (e : DWord) (h : inDriverPool at_ = true) :
    MemoryOnly s (setAD s ctx acc at_ e) := by
  unfold Machine.setAD
  generalize (e ||| if acc = .write then 0x60#64 else 0x20#64) = e'
  refine .choice (.refl s) (.trans (t := tableWrite s at_ e'.toNat (ctxPart s ctx)) ?_ rfl)
  refine (MemoryOnly.touchWrite ..).trans (.physWrite _ _ _ _ ?_)
  rw [length_leBytes]
  simp only [inDriverPool, decide_eq_true_eq] at h
  omega

/-- A walk ends at an entry in a driver pool. -/
theorem walk_entry {s : State} {ctx : Nat} {va : DWord} {e : DWord} {lvl at_ : Nat} (h : walk s ctx va = .leaf e lvl at_) :
    inDriverPool at_ = true := by
  have key (n table : Nat) (h : walkFrom s ctx va.toNat 0 n table = .leaf e lvl at_) : inDriverPool at_ = true := by
    induction n generalizing table with
    | zero => simp [walkFrom] at h
    | succ n ih =>
      unfold walkFrom at h
      dsimp only at h
      repeat' split at h
      all_goals first | (exact ih _ h) | (exact Walk.noConfusion h) | skip
      injection h with he hl ha
      subst ha
      simp_all
  unfold walk walkPick at h
  split at h
  · exact Walk.noConfusion h
  · split at h
    · exact Walk.noConfusion h
    · exact key _ _ h

/-- Where no table entry has an earlier word, a walk has no choice (R36). -/
theorem walkPick_now {s : State} (h : s.oldPtes = []) (ctx : Nat) (va : DWord) (pick : Nat) :
    walkPick s ctx va pick = walk s ctx va := by
  have hp (v p lvl at_ : Nat) : pteAt s ctx v p lvl at_ = (physWord s at_, true) := by
    simp [pteAt, oldWords, h]
  have hw (v n : Nat) : ∀ t, walkFrom s ctx v pick n t = walkFrom s ctx v 0 n t := by
    induction n with
    | zero => intro t; rfl
    | succ n ih => intro t; simp only [walkFrom, hp, ih]
  simp only [walk, walkPick, hw]

/-! ### Translated accesses -/

theorem BytesKept.trans {s t u : State} {pa n at_ : Nat} (h : BytesKept s t pa n at_) (k : BytesKept t u pa n at_) :
    BytesKept s u pa n at_ := fun a h1 h2 => (k a h1 h2).trans (h a h1 h2)

theorem NSet.has_del {l : List Nat} {k j : Nat} (h : NSet.has (NSet.del l k) j = true) : NSet.has l j = true := by
  induction l with
  | nil => exact h
  | cons x r ih =>
    unfold NSet.del at h
    split at h
    · simp [NSet.has, ih h]
    · simp only [NSet.has, Bool.or_eq_true] at h ⊢
      rcases h with h | h
      · exact Or.inl h
      · exact Or.inr (ih h)

/-- No sector becomes dead from s to t. -/
def NoDeath (s t : State) : Prop := ∀ k, NSet.has t.dead k = true → NSet.has s.dead k = true

theorem NoDeath.of_eq {s t : State} (h : t.dead = s.dead) : NoDeath s t := fun k hk => by rwa [← h]

theorem NoDeath.trans {s t u : State} (h : NoDeath s t) (k : NoDeath t u) : NoDeath s u := fun a ha => h a (k a ha)

theorem writeBack_dead (s : State) (line : Nat) : (writeBack s line).dead = s.dead := by
  unfold writeBack; split
  · rfl
  · dsimp only; split
    · rfl
    · simp

theorem takeWay_dead (s : State) (pa : Nat) (o : Option Nat) : (takeWay s pa o).1.dead = s.dead := by
  unfold takeWay; dsimp only; split
  · rfl
  · split
    · rfl
    · simp only [evictLine, dropFill_dead, writeBack_dead]; rfl

theorem allocLine_dead (s : State) (pa part : Nat) : (allocLine s pa part).dead = s.dead := by
  have h := takeWay_dead s pa (lineOwner s pa)
  unfold allocLine; split
  · rfl
  · split <;> rename_i hw <;> rw [hw] at h <;> exact h

theorem fillSector_dead (s : State) (pa : Nat) : (fillSector s pa).dead = s.dead := by
  unfold fillSector; split <;> rfl

theorem touchRead_dead (s : State) (pa n cp part : Nat) : (touchRead s pa n cp part).dead = s.dead := by
  unfold touchRead; split
  · dsimp only; split
    · simp
    · rw [fillSector_dead]; split
      · rw [allocLine_dead]; simp
      · simp
  · rfl

theorem touchWrite_dead (s : State) (pa n : Nat) (alloc : Bool) (part : Nat) : (touchWrite s pa n alloc part).dead = s.dead := by
  have ha (i : Nat) (c : Prop) [Decidable c] : (if c then allocLine (bump (endFill s (pa / 256) 4) 2 i 1 1) pa part
      else bump (endFill s (pa / 256) 4) 2 i 1 1).dead = s.dead := by
    split
    · rw [allocLine_dead]; simp
    · simp
  unfold touchWrite; split
  · dsimp only; split
    · simp
    · split
      · exact ha ..
      · rw [useCredits_dead, adderYield_dead]; exact ha ..
  · rfl

theorem NoDeath.cohWrite (s : State) (pa : Nat) (bs : List Byte) (poison alloc : Bool) (part : Nat) :
    NoDeath s (cohWrite s pa bs poison alloc part) := by
  have hb : NoDeath s (beforeWrite s pa alloc part) := by
    intro k hk
    simp only [beforeWrite, endFill_dead] at hk
    have := NSet.has_del hk
    split at this
    · rwa [allocLine_dead] at this
    · exact this
  have hs (t : State) : (storeSector t pa bs poison part).dead = t.dead := by
    unfold storeSector; dsimp only; split <;> rfl
  unfold Machine.cohWrite; split
  · exact .of_eq (by unfold companionWrite; split <;> rfl)
  · split
    · exact .of_eq rfl
    · dsimp only; split
      · exact hb.trans (.of_eq (by rw [keepOld_dead, hs]))
      · exact hb.trans (.of_eq (hs _))

theorem NoDeath.setAD (s : State) (ctx : Nat) (acc : Acc) (at_ : Nat) (e : DWord) : NoDeath s (setAD s ctx acc at_ e) := by
  have hp (s : State) (bs : List Byte) (part : Nat) (l : List (Nat × Nat)) : NoDeath s
      (l.foldl (fun s p => Machine.cohWrite s p.1 (sliceList 0 bs (p.1 - at_) p.2) false false part) s) := by
    induction l generalizing s with
    | nil => exact .of_eq rfl
    | cons p r ih => exact NoDeath.trans (NoDeath.cohWrite s _ _ _ _ _) (ih _)
  unfold Machine.setAD
  generalize (e ||| if acc = .write then 0x60#64 else 0x20#64) = e'
  dsimp only; split
  · exact .of_eq rfl
  · exact (NoDeath.of_eq (touchWrite_dead ..)).trans ((hp _ _ _ _).trans (.of_eq rfl))

/-! ### Where no detector has anything to meet -/

theorem xlatFinding_quiet {s : State} (h : noFaults s = true) (ctx : Nat) (va : DWord) : xlatFinding s ctx va = (s, false) := by
  simp [xlatFinding, h]

theorem linkFindings_quiet {s : State} (h : noFaults s = true) {pa : Nat} (hf : regionOf pa = .fast) :
    linkFindings s pa = s := by
  simp [linkFindings, hf, h]

theorem readHome_quiet {s : State} (h : noFaults s = true) (ctx pa n cp part : Nat) :
    readHome s ctx pa n cp part = touchRead s pa n cp part := by
  simp [readHome, h]

theorem writeHome_quiet {s : State} (h : noFaults s = true) (ctx pa n : Nat) (alloc : Bool) (part : Nat) :
    writeHome s ctx pa n alloc part = touchWrite s pa n alloc part := by
  simp [writeHome, h]

theorem noFaults_memoryOnly {s t : State} (h : MemoryOnly s t) : noFaults t = noFaults s := by
  rw [show t = _ from h]; rfl

/-- MemoryOnly keeps what the tiles and launches hold frozen. -/
theorem frozenSector_memoryOnly {s t : State} (h : MemoryOnly s t) (k : Nat) : frozenSector t k = frozenSector s k := by
  rw [show t = _ from h]; rfl

theorem tileOf_memoryOnly {s t : State} (h : MemoryOnly s t) (k : Nat) : tileOf t k = tileOf s k := by
  rw [show t = _ from h]; rfl

theorem ctxOf_memoryOnly {s t : State} (h : MemoryOnly s t) (k : Nat) : ctxOf t k = ctxOf s k := by
  rw [show t = _ from h]; rfl

/-- The state s' follows s by memory operations that kill no sector and leave every byte outside an entry. -/
structure Quietly (s s' : State) (at_ : Nat) : Prop where
  only : MemoryOnly s s'
  live : NoDeath s s'
  bytes : ∀ a, (a < at_ ∨ at_ + 8 ≤ a) → cohByte s' a = cohByte s a

theorem Quietly.trans {s t u : State} {at_ : Nat} (h : Quietly s t at_) (k : Quietly t u at_) : Quietly s u at_ :=
  ⟨h.only.trans k.only, h.live.trans k.live, fun a ha => (k.bytes a ha).trans (h.bytes a ha)⟩

theorem Quietly.of_eq {s t : State} {at_ : Nat} (h : MemoryOnly s t) (hd : t.dead = s.dead)
    (hb : ∀ a, cohByte t a = cohByte s a) : Quietly s t at_ := ⟨h, .of_eq hd, fun a _ => hb a⟩

theorem Quietly.touchRead (s : State) (pa n cp part at_ : Nat) : Quietly s (touchRead s pa n cp part) at_ :=
  .of_eq (.touchRead ..) (touchRead_dead ..) (cohByte_touchRead s pa n cp part)

/-- The reads of a walk change memory's bookkeeping alone. -/
theorem Quietly.chargeWalk (s : State) (ctx : Nat) (va : DWord) (pick at_ : Nat) : Quietly s (chargeWalk s ctx va pick) at_ := by
  have hl (part : Nat) (l : List Nat) (s : State) : Quietly s (l.foldl (fun s a => Machine.touchRead s a 8 1 part) s) at_ := by
    induction l generalizing s with
    | nil => exact .of_eq rfl rfl fun _ => rfl
    | cons a r ih => exact (Quietly.touchRead s a 8 1 part at_).trans (ih _)
  have hf (l : List Nat) (f : State → Nat) (s : State) :
      Quietly s (l.foldl (fun s a => Machine.touchRead s a 8 1 (f s)) s) at_ := by
    induction l generalizing s with
    | nil => exact .of_eq rfl rfl fun _ => rfl
    | cons a r ih => exact (Quietly.touchRead s a 8 1 (f s) at_).trans (ih _)
  unfold Machine.chargeWalk
  split
  · exact .of_eq rfl rfl fun _ => rfl
  · split
    · exact .of_eq rfl rfl fun _ => rfl
    · exact hf _ (fun s => ctxPart s ctx) s

/-- A translated access finds its target, and changes at most the A and D bits of the leaf. -/
theorem translate_reaches {s : State} {ctx : Nat} {acc : Acc} {va : DWord} {pa cp at_ : Nat}
    (h : Reaches s ctx acc va pa cp at_) :
    ∃ e s', translate s ctx acc va = (s', .ok { pa := pa, cp := cp, leaf := e }) ∧ Quietly s s' at_ := by
  obtain ⟨e, lvl, hw, hp, ht⟩ := h.leaf
  have hk : Quietly s (takePick s false).2 at_ := by
    unfold takePick; split <;> exact .of_eq rfl rfl fun _ => rfl
  have hwp : walkPick (takePick s false).2 ctx va (takePick s false).1 = walk s ctx va := by
    rw [← h.current (takePick s false).1]
    unfold takePick; split <;> rfl
  have hc := hk.trans (Quietly.chargeWalk (takePick s false).2 ctx va (takePick s false).1 at_)
  have hs (t : State) : Quietly t (Machine.setAD t ctx acc at_ e) at_ :=
    ⟨.setAD _ _ _ _ _ (walk_entry hw), NoDeath.setAD t ctx acc at_ e, fun a ha => cohByte_setAD_outside t ctx acc at_ e ha⟩
  generalize hu : chargeWalk (takePick s false).2 ctx va (takePick s false).1 = u at hc
  have hr (t : State) : Quietly t (rememberXlat t ctx va e lvl) at_ := .of_eq rfl rfl fun _ => rfl
  have hset : Quietly u (if physWord u at_ = e then Machine.setAD u ctx acc at_ e else u) at_ := by
    split
    · exact hs u
    · exact .of_eq rfl rfl fun _ => rfl
  refine ⟨e, _, ?_, (hc.trans hset).trans (hr _)⟩
  unfold Sys2Proof.Machine.translate
  simp only [xlatFinding_quiet h.quiet, hwp, hw, hp, ht, hu, if_true]

theorem fast_not_sovel {pa : Nat} (h : regionOf pa = .fast) : regionOf pa ≠ .sovel := by simp [h]

theorem fast_not_lost {pa : Nat} (h : regionOf pa = .fast) (s : State) : tierLost s pa = false := by simp [tierLost, h]

/-- A sector that is not dead before memory operations that kill none is not dead after. -/
theorem Quietly.not_dead {s s' : State} {at_ k : Nat} (h : Quietly s s' at_) (hl : NSet.has s.dead k = false) :
    NSet.has s'.dead k = false := by
  cases hx : NSet.has s'.dead k with
  | false => rfl
  | true => exact absurd (h.live _ hx) (by simp [hl])

/-- A translated read in the fast tier delivers the bytes as the home slices answer. -/
theorem readTarget_fast {s : State} {ctx n : Nat} {t : Target} {va : DWord} (pass : Bool) (at_ : Nat)
    (hq : noFaults s = true) (hf : regionOf t.pa = .fast) (hl : NSet.has s.dead (t.pa / 64) = false)
    (hn : touchesReserved t.pa n = false) :
    ∃ s', readTarget s ctx t va n pass = (s', .ok (cohBytes s' t.pa n, cohPoison s' t.pa)) ∧ Quietly s s' at_ := by
  refine ⟨touchRead s t.pa n (if pass then 1 else t.cp) (ctxPart s ctx), ?_, .touchRead ..⟩
  unfold readTarget
  simp only [hf, hl, linkFindings_quiet hq hf, readAt, fast_not_lost hf, hn]
  simp [readHome_quiet hq]

/-- A read that reaches the fast tier delivers the bytes as the home slices answer. -/
theorem vRead_reaches {s : State} {ctx : Nat} {va : DWord} {pa cp at_ : Nat} (n : Nat) (pass : Bool)
    (h : Reaches s ctx .read va pa cp at_) (hn : touchesReserved pa n = false) :
    ∃ s', vRead s ctx .read va n pass = (s', .ok (cohBytes s' pa n, cohPoison s' pa)) ∧ Quietly s s' at_ := by
  obtain ⟨e, s1, ht, hq⟩ := translate_reaches h
  obtain ⟨s2, hr, hk⟩ := readTarget_fast (s := s1) (ctx := ctx) (t := ⟨pa, cp, e⟩) (va := va) (n := n) pass at_
    ((noFaults_memoryOnly hq.only).trans h.quiet) h.fast (hq.not_dead h.live) hn
  exact ⟨s2, by unfold vRead; simp only [ht, hr], hq.trans hk⟩

/-- Translation keeps the place in a 64 KiB page. -/
theorem targetOf_mod (lvl : Nat) (e va : DWord) : (targetOf lvl e va).pa % 65536 = va.toNat % 65536 := by
  have h : ∃ k, pageSize lvl = 65536 * k := by
    unfold pageSize
    split
    · exact ⟨1, rfl⟩
    · exact ⟨32, rfl⟩
    · exact ⟨16384, rfl⟩
  obtain ⟨k, hk⟩ := h
  simp only [targetOf, hk]
  rw [show ptePa e / (65536 * k) * (65536 * k) = 65536 * (ptePa e / (65536 * k) * k) by
    rw [Nat.mul_comm (ptePa e / (65536 * k)), Nat.mul_assoc, Nat.mul_comm k]]
  rw [Nat.mul_add_mod, Nat.mod_mod_of_dvd _ ⟨k, rfl⟩]

theorem Reaches.mod {s : State} {ctx : Nat} {acc : Acc} {va : DWord} {pa cp at_ : Nat} (h : Reaches s ctx acc va pa cp at_) :
    pa % 65536 = va.toNat % 65536 := by
  obtain ⟨e, lvl, -, -, ht⟩ := h.leaf
  have := targetOf_mod lvl e va
  rwa [ht] at this

/-- An access that reaches the fast tier and does not cross a sector stays outside the reserved region. -/
theorem Reaches.outside {s : State} {ctx : Nat} {acc : Acc} {va : DWord} {pa cp at_ n : Nat}
    (h : Reaches s ctx acc va pa cp at_) (hn : va.toNat % 64 + n ≤ 64) : touchesReserved pa n = false := by
  have hf := h.fast
  have hm := h.mod
  have : pa < 0xBC00000000 := by
    unfold regionOf at hf
    split at hf
    · assumption
    · split at hf
      · cases hf
      · repeat' split at hf
        all_goals cases hf
  simp only [touchesReserved, decide_eq_false_iff_not, not_and]
  omega

/-- A translated write in the fast tier stores its bytes, and leaves every other byte. -/
theorem writeAt_fast {s : State} {ctx : Nat} {t : Target} {va : DWord} (bs : List Byte) (poison pass : Bool)
    (hq : noFaults s = true) (hr : regionOf t.pa = .fast) (hf : frozenSector s (t.pa / 64) = false)
    (hn : touchesReserved t.pa bs.length = false) (hl : t.pa % 256 + bs.length ≤ 256) :
    ∃ s', writeAt s ctx t va bs poison pass = (s', .ok ()) ∧ MemoryOnly s s' ∧
      (∀ a, (a < t.pa ∨ t.pa + bs.length ≤ a) → cohByte s' a = cohByte s a) ∧
      ∀ i (hi : i < bs.length), cohByte s' (t.pa + i) = bs[i] := by
  let s1 := touchWrite s t.pa bs.length (decide (t.cp = 0) && !pass) (ctxPart s ctx)
  refine ⟨cohWrite s1 t.pa bs poison (decide (t.cp = 0) && !pass) (ctxPart s ctx), ?_, ?_, ?_, ?_⟩
  · unfold writeAt
    simp only [hf, hr, hn, linkFindings_quiet hq hr]
    simp [s1, writeHome_quiet hq]
  · exact (MemoryOnly.touchWrite ..).trans (.cohWrite _ _ _ _ _ _ (fast_not_sovel hr))
  · intro a ha
    rw [cohByte_cohWrite_outside _ _ _ _ _ _ hl ha, cohByte_touchWrite]
  · intro i hi
    exact cohByte_cohWrite_inside _ _ _ _ _ _ hl (fast_not_sovel hr) (fast_not_lost hr _) hi

/-- A write that reaches the fast tier stores its bytes, and leaves every other byte of memory but the leaf's A and D
bits. -/
theorem vWrite_reaches {s : State} {ctx : Nat} {va : DWord} {pa cp at_ : Nat} (bs : List Byte) (poison pass : Bool)
    (h : Reaches s ctx .write va pa cp at_) (hf : frozenSector s (pa / 64) = false)
    (hn : touchesReserved pa bs.length = false) (hl : pa % 256 + bs.length ≤ 256) :
    ∃ s', vWrite s ctx va bs poison pass = (s', .ok ()) ∧ MemoryOnly s s' ∧ BytesKept s s' pa bs.length at_ ∧
      ∀ i (hi : i < bs.length), cohByte s' (pa + i) = bs[i] := by
  obtain ⟨e, s1, ht, hq⟩ := translate_reaches h
  obtain ⟨s2, hw, hm, ho, hi⟩ := writeAt_fast (s := s1) (ctx := ctx) (t := ⟨pa, cp, e⟩) (va := va) bs poison pass
    ((noFaults_memoryOnly hq.only).trans h.quiet) h.fast ((frozenSector_memoryOnly hq.only _).trans hf) hn hl
  refine ⟨s2, ?_, hq.only.trans hm, fun a h1 h2 => (ho a h1).trans (hq.bytes a h2), hi⟩
  unfold vWrite; simp only [ht, hw]

/-- A load of a tile that its L1 does not hold: the bytes of the home slices, which the L1 takes where the page is
cacheable. -/
theorem tileLoad_reaches {s : State} {site ctx : Nat} {va : DWord} {pa cp at_ : Nat} (n : Nat)
    (h : Reaches s ctx .read va pa cp at_) (hn : touchesReserved pa n = false)
    (hl : cp = 0 → NMap.find (tileOf s site).l1 (pa / 64) = none) :
    ∃ s', tileLoad s site ctx va n =
        (if cp = 0 then l1Fill s' site pa else s', .ok ((cohBytes s' pa n, cohPoison s' pa), decide (cp = 0))) ∧
      Quietly s s' at_ := by
  obtain ⟨e, s1, ht, hq⟩ := translate_reaches h
  obtain ⟨s2, hr, hk⟩ := readTarget_fast (s := s1) (ctx := ctx) (t := ⟨pa, cp, e⟩) (va := va) (n := n) false at_
    ((noFaults_memoryOnly hq.only).trans h.quiet) h.fast (hq.not_dead h.live) hn
  have hh : (if cp = 0 then l1Held s1 site ctx pa n else (s1, none)) = (s1, none) := by
    split
    · unfold l1Held; rw [tileOf_memoryOnly hq.only, hl ‹_›]
    · rfl
  refine ⟨s2, ?_, hq.trans hk⟩
  unfold tileLoad
  simp only [ht, hh, hr]

/-- A store of a tile (R289): the write, and the sector in the L1 where it is held. No byte waits for the Sovel link. -/
theorem tileStore_reaches {s : State} {site ctx : Nat} {issuer : Option Nat} {va : DWord} {pa cp at_ : Nat} (bs : List Byte)
    (poison : Bool) (h : Reaches s ctx .write va pa cp at_) (hf : frozenSector s (pa / 64) = false)
    (hn : touchesReserved pa bs.length = false) (hl : pa % 256 + bs.length ≤ 256) :
    ∃ s', tileStore s site issuer ctx va bs poison = (l1Update s' site pa bs poison, .ok ()) ∧ MemoryOnly s s' ∧
      BytesKept s s' pa bs.length at_ ∧ ∀ i (hi : i < bs.length), cohByte s' (pa + i) = bs[i] := by
  obtain ⟨e, s1, ht, hq⟩ := translate_reaches h
  obtain ⟨s2, hw, hm, ho, hi⟩ := writeAt_fast (s := s1) (ctx := ctx) (t := ⟨pa, cp, e⟩) (va := va) bs poison false
    ((noFaults_memoryOnly hq.only).trans h.quiet) h.fast ((frozenSector_memoryOnly hq.only _).trans hf) hn hl
  refine ⟨s2, ?_, hq.only.trans hm, fun a h1 h2 => (ho a h1).trans (hq.bytes a h2), hi⟩
  have hs : s2.sovel = s1.sovel := by rw [show s2 = _ from hm]
  unfold tileStore markHeld
  simp only [ht, hw, hs]
  simp

end Sys2Proof
end

