-- ==== Sys2Proof/Laws/ControlCore.lean ====
section
/-! SUPPORT. What one instruction of the control core can do, once for every row. -/

set_option Elab.async false

namespace Sys2Proof.Machine

@[simp] theorem whenUp_up {s : State} (f : State → State) (h : s.run = Run.up) : whenUp s f = .next (f s) := by
  simp [whenUp, h]

theorem whenUp_down {s : State} (f : State → State) (h : s.run ≠ Run.up) : whenUp s f = .next s := by
  unfold whenUp; split
  · contradiction
  · rfl

@[simp] theorem ccReg_zero (t : Tile) : ccReg t 0 = T64.zero := by simp [ccReg]

theorem ccReg_setCcReg_same (t : Tile) {r : Nat} (v : T64) (h : r ≠ 0) : ccReg (setCcReg t r v) r = v := by
  simp [ccReg, setCcReg, h]

theorem ccReg_setCcReg_other (t : Tile) {r k : Nat} (v : T64) (h : k ≠ r) : ccReg (setCcReg t r v) k = ccReg t k := by
  unfold setCcReg
  split
  · rfl
  · simp [ccReg, NMap.getD_put_other _ _ _ _ h]

theorem setCcReg_frame (t : Tile) (r : Nat) (v : T64) : setCcReg t r v = { t with ccRegs := (setCcReg t r v).ccRegs } := by
  unfold setCcReg; split <;> rfl

theorem fireTile_none {s : State} (h : noFaults s = true) (ctx site det : Nat) : fireTile s ctx site det = none := by
  simp [fireTile, h]

theorem injectCcReg_quiet {s : State} (h : noFaults s = true) (ctx site : Nat) (srcs : List Nat) :
    injectCcReg s ctx site srcs = s := by
  unfold injectCcReg; split
  · rfl
  · simp [fireTile_none h]

theorem ccRun_quiet {s : State} (h : noFaults s = true) (l : Launch) (site : Nat) (pc : DWord) (srcs : List Nat)
    (f : Launch → State → Tile → DWord → CcOut) : ccRun s l site pc srcs f = ccFinish l site pc (f l s (tileOf s site) pc) := by
  simp [ccRun, fireTile_none h, injectCcReg_quiet h]

/-- A row that is defined runs once its core is ready. -/
theorem ccStep_ready {s s1 : State} {site : Nat} {l : Launch} {pc : DWord} {past legal spec : Bool}
    (h : CcReady past s site l pc s1) (hs : past = true → spec = true) (hl : legal = true)
    (f : Launch → State → Tile → DWord → CcOut) (srcs : List Nat) :
    ccStep s site legal spec f srcs = ccFinish l site pc (f l s1 (tileOf s1 site) pc) := by
  unfold ccStep
  rw [h.launch]
  simp only [h.verdicts, h.answers, h.atPc, Bool.or_self, Bool.false_eq_true, if_false]
  rcases h.fetched with ⟨hn, w, hf, hd⟩ | ⟨hp, hn, rfl, w, hw, hd⟩
  · obtain ⟨i, hi⟩ := Option.isSome_iff_exists.1 hd
    rw [hn]; simp only [hf, hl, hi, if_true]
    exact ccRun_quiet h.quiet ..
  · cases hsp : (tileOf s1 site).spec with
    | none => exact absurd hsp hn
    | some c => simp [hw, hs hp, hl, hd]

/-- A reserved encoding faults and has no other effect (R100). -/
theorem ccStep_illegal {s s1 : State} {site : Nat} {l : Launch} {pc : DWord} (h : CcReady false s site l pc s1)
    (f : Launch → State → Tile → DWord → CcOut) (spec : Bool) (srcs : List Nat) :
    ccStep s site false spec f srcs = tileFault s1 l site 1 illegalInstruction pc pc 0 := by
  unfold ccStep
  rw [h.launch]
  simp only [h.verdicts, h.answers, h.atPc, Bool.or_self, Bool.false_eq_true, if_false]
  rcases h.fetched with ⟨hn, w, hf, hd⟩ | ⟨hp, -⟩
  · obtain ⟨i, hi⟩ := Option.isSome_iff_exists.1 hd
    rw [hn]; simp [hf, hi]
  · cases hp

theorem bump_counters_other (s : State) (t i w n : Nat) {k : Nat} (h : k ≠ ckey t i w) :
    NMap.getD (bump s t i w n).counters k 0 = NMap.getD s.counters k 0 := by
  unfold bump; split
  · rfl
  · exact getD_setCounter_other s t i w _ h

theorem counter_bump_one (s : State) (t i w : Nat) : counter (bump s t i w 1) t i w = satAdd (counter s t i w) 1 := by
  simp [bump]

/-- t differs from s in tiles and counters alone. -/
def TilesCounters (s t : State) : Prop := ∃ tiles counters, t = { s with tiles := tiles, counters := counters }

theorem TilesCounters.refl (s : State) : TilesCounters s s := ⟨s.tiles, s.counters, rfl⟩

theorem TilesCounters.trans {s t u : State} (h : TilesCounters s t) (k : TilesCounters t u) : TilesCounters s u := by
  obtain ⟨a, b, rfl⟩ := h
  obtain ⟨c, d, rfl⟩ := k
  exact ⟨c, d, rfl⟩

theorem TilesCounters.bump (s : State) (t i w n : Nat) : TilesCounters s (bump s t i w n) := by
  unfold Machine.bump; split
  · exact .refl s
  · exact ⟨s.tiles, _, rfl⟩

theorem TilesCounters.updTile (s : State) (k : Nat) (f : Tile → Tile) : TilesCounters s (updTile s k f) :=
  ⟨_, s.counters, rfl⟩

/-- Retiring changes the tile of the core, which has aged and stands at pc, and the counters of retired instructions. -/
theorem ccRetire_plain (s : State) (l : Launch) (site : Nat) (pc : DWord) :
    CcRetired s (ccRetire s l site pc) l site 0 T64.zero pc := by
  have key (u t : State) (hu : u = updTile s site fun t => { ccAged t with ccPc := pc })
      (hf : TilesCounters s t) (ht : ∀ k, tileOf t k = tileOf u k)
      (hc : site < 384 → counter t 1 site 0 =
        if (tileOf s site).spec = none then satAdd (counter s 1 site 0) 1 else counter s 1 site 0)
      (hk : ∀ k, k ≠ ckey 1 site 0 → k ≠ ckey 5 l.ctx 0 → NMap.getD t.counters k 0 = NMap.getD s.counters k 0) :
      CcRetired s t l site 0 T64.zero pc := by
    subst hu
    have h0 : tileOf t site = { ccAged (tileOf s site) with ccPc := pc } := by rw [ht]; simp
    have hr : (ccAged (tileOf s site)).ccRegs = (tileOf s site).ccRegs := by unfold ccAged; split <;> rfl
    exact ⟨hf, fun k hne => by rw [ht, tileOf_updTile_other _ _ _ hne], by rw [h0], by simp, fun h => absurd rfl h,
      fun r _ => by rw [h0]; simp [ccReg, hr], hc, hk⟩
  unfold ccRetire
  cases hs : (tileOf s site).spec with
  | none =>
    refine key _ _ rfl (((TilesCounters.updTile _ site _).trans (.updTile ..)).trans ((TilesCounters.bump ..).trans (.bump ..))) ?_ ?_ ?_
    · intro k
      by_cases hk : k = site
      · subst hk; simp [ccCount, ccAged, hs, ageSamples]
      · simp [ccCount, tileOf_updTile_other _ _ _ hk]
    · intro h
      unfold ccCount counter
      rw [bump_counters_other _ _ _ _ _ (by unfold ckey; omega), hs]
      exact counter_bump_one _ 1 site 0
    · intro k h1 h5
      unfold ccCount
      rw [bump_counters_other _ _ _ _ _ h5, bump_counters_other _ _ _ _ _ h1]; rfl
  | some c =>
    refine key _ _ rfl (.updTile ..) ?_ ?_ ?_
    · intro k
      by_cases hk : k = site
      · subst hk; simp [ccAged, hs]
      · simp [tileOf_updTile_other _ _ _ hk]
    · intro _; simp [hs, counter]
    · intro k _ _; rfl

/-- What retiring leaves: the frame of every row whose effect is to write one register. -/
theorem ccRetire_retired (s : State) (l : Launch) (site rd : Nat) (v : T64) (pc : DWord) :
    CcRetired s (ccRetire (updTile s site fun t => setCcReg t rd v) l site pc) l site rd v pc := by
  have h := ccRetire_plain (updTile s site fun t => setCcReg t rd v) l site pc
  have hs : (tileOf (updTile s site fun t => setCcReg t rd v) site) = setCcReg (tileOf s site) rd v := by simp
  have hp : (setCcReg (tileOf s site) rd v).spec = (tileOf s site).spec := by rw [setCcReg_frame]
  have ha : ccAged (setCcReg (tileOf s site) rd v) =
      { ccAged (tileOf s site) with ccRegs := (setCcReg (tileOf s site) rd v).ccRegs } := by
    rw [setCcReg_frame]; unfold ccAged; dsimp only; split <;> simp_all [ageSamples]
  have hr : ∀ r, ccReg (tileOf (ccRetire (updTile s site fun t => setCcReg t rd v) l site pc) site) r =
      ccReg (setCcReg (tileOf s site) rd v) r := by
    intro r
    by_cases h0 : r = 0
    · simp [h0]
    · rw [h.regs r h0, hs]
  constructor
  · exact (TilesCounters.updTile ..).trans h.frame
  · intro k hk; rw [h.tiles k hk, tileOf_updTile_other _ _ _ hk]
  · rw [h.tile, hs, ha]
  · exact h.zero
  · intro h0; rw [hr, ccReg_setCcReg_same _ _ h0]
  · intro r h0; rw [hr, ccReg_setCcReg_other _ _ h0]
  · intro h0; have := h.count h0; rw [hs, hp] at this; exact this
  · exact h.counts

/-- A row that is defined and writes one register retires. -/
theorem cc_retires {s s1 : State} {site : Nat} {l : Launch} {pc : DWord} {past legal spec : Bool} {rd : Nat} {v : T64}
    (h : CcReady past s site l pc s1) (hs : past = true → spec = true) (hl : legal = true)
    (f : Launch → State → Tile → DWord → CcOut) (srcs : List Nat)
    (hf : f l s1 (tileOf s1 site) pc = .next (updTile s1 site fun t => setCcReg t rd v)) :
    ∃ t, whenUp s (fun s => ccStep s site legal spec f srcs) = .next t ∧ CcRetired s1 t l site rd v (pc + 4) := by
  refine ⟨_, whenUp_up _ h.up, ?_⟩
  rw [ccStep_ready h hs hl, hf]
  exact ccRetire_retired s1 l site rd v (pc + 4)

/-- A row that is defined and goes on from the state after its effect retires there. -/
theorem cc_retires_in {s s1 s2 : State} {site : Nat} {l : Launch} {pc : DWord} {past legal spec : Bool}
    (h : CcReady past s site l pc s1) (hs : past = true → spec = true) (hl : legal = true)
    (f : Launch → State → Tile → DWord → CcOut) (srcs : List Nat) (hf : f l s1 (tileOf s1 site) pc = .next s2) :
    ∃ t, whenUp s (fun s => ccStep s site legal spec f srcs) = .next t ∧ CcRetired s2 t l site 0 T64.zero (pc + 4) := by
  refine ⟨_, whenUp_up _ h.up, ?_⟩
  rw [ccStep_ready h hs hl, hf]
  exact ccRetire_plain s2 l site (pc + 4)

end Sys2Proof.Machine
end

