-- ==== Sys2Proof/Laws/Manage.lean ====
section
/-! SUPPORT. What staging an image changes (R431): the transfers of partition 63, and their counts. -/

namespace Sys2Proof

open Machine

/-- A charge changes the credits of its partition, and counters. -/
theorem useCredits_eq (s : State) (ch part n : Nat) : ∃ credits counters,
    useCredits s ch part n = { s with credits := credits, counters := counters } ∧
    ∀ k, k ≠ ch * 64 + part → NMap.getD credits k 0 = NMap.getD s.credits k 0 := by
  let used := NMap.getD s.credits (ch * 64 + part) 0
  let v := if used < windowLimit s part then min (used + n) (windowLimit s part) else used
  have other k (h : k ≠ ch * 64 + part) := NMap.getD_put_other 0 s.credits v 0 h
  rcases Nat.eq_zero_or_pos n with h | h
  · exact ⟨NMap.put 0 s.credits (ch * 64 + part) v, s.counters, by simp only [useCredits, bump, if_pos h]; rfl, other⟩
  · exact ⟨NMap.put 0 s.credits (ch * 64 + part) v, (bump s 3 ch 7 n).counters,
      by simp only [useCredits, bump, if_neg (Nat.pos_iff_ne_zero.mp h)]; rfl, other⟩

/-- Staging charges no partition but 63, and counts. -/
theorem stageImage_eq (s : State) (img : Image) : ∃ credits counters,
    stageImage s img = { s with credits := credits, counters := counters } ∧
    ∀ ch p, p < 63 → NMap.getD credits (ch * 64 + p) 0 = NMap.getD s.credits (ch * 64 + p) 0 := by
  unfold stageImage
  generalize List.range 256 = l
  induction l generalizing s with
  | nil => exact ⟨s.credits, s.counters, rfl, fun _ _ _ => rfl⟩
  | cons c r ih =>
    obtain ⟨c1, r1, h1, k1⟩ := useCredits_eq s c 63 (2 * ((img.body.length + 16383) / 16384))
    obtain ⟨c2, r2, h2, k2⟩ := ih (useCredits s c 63 (2 * ((img.body.length + 16383) / 16384)))
    refine ⟨c2, r2, ?_, fun ch p hp => ?_⟩
    · rw [List.foldl_cons, h2, h1]
    · rw [k2 ch p hp, h1, k1 _ (by omega)]

end Sys2Proof
end

