-- ==== Sys2Proof/Laws/Threads.lean ====
section
/-! SUPPORT. What one instruction of a thread group can do, once for every row. -/

set_option Elab.async false

namespace Sys2Proof.Machine

@[simp] theorem treg_zero (x : TGroup) (i : Nat) : treg x i 255 = T32.zero := by simp [treg]

theorem treg_setTreg_same (x : TGroup) (i : Nat) {r : Nat} (v : T32) (h : r ≠ 255) : treg (setTreg x i r v) i r = v := by
  simp [treg, setTreg, h]

theorem treg_setTreg_other (x : TGroup) {i r j k : Nat} (v : T32) (h : j * 256 + k ≠ i * 256 + r) :
    treg (setTreg x i r v) j k = treg x j k := by
  unfold setTreg; split
  · rfl
  · simp [treg, NMap.getD_put_other _ _ _ _ h]

theorem setTreg_frame (x : TGroup) (i r : Nat) (v : T32) : setTreg x i r v = { x with regs := (setTreg x i r v).regs } := by
  unfold setTreg; split <;> rfl

theorem setTpair_frame (x : TGroup) (i r : Nat) (v : T64) : setTpair x i r v = { x with regs := (setTpair x i r v).regs } := by
  unfold setTpair; split
  · rfl
  · rw [setTreg_frame, setTreg_frame x]

theorem setRes_frame (x : TGroup) (i r w v : Nat) (p : Bool) : setRes x i r w v p = { x with regs := (setRes x i r w v p).regs } := by
  unfold setRes; split
  · exact setTpair_frame ..
  · exact setTreg_frame ..

/-! ### The sets of R115 -/

/-- From t to u only the places of the groups in the sets have changed, and whether group g is parked. -/
def SetsOnly (g : Nat) (t u : Tile) : Prop :=
  u = { t with active := u.active, eligible := u.eligible, groups := u.groups } ∧
    (∀ k, k ≠ g → groupOf u k = groupOf t k) ∧ ∃ p w, groupOf u g = { groupOf t g with parked := p, waitsOn := w }

theorem SetsOnly.refl (g : Nat) (t : Tile) : SetsOnly g t t := ⟨rfl, fun _ _ => rfl, _, _, rfl⟩

theorem groupOf_setGroup_same (t : Tile) (g : Nat) (x : TGroup) : groupOf (setGroup t g x) g = x := by
  simp [groupOf, setGroup]

theorem groupOf_setGroup_other (t : Tile) {g k : Nat} (x : TGroup) (h : k ≠ g) : groupOf (setGroup t g x) k = groupOf t k := by
  simp [groupOf, setGroup, NMap.getD_put_other _ _ _ _ h]

theorem SetsOnly.promote {g : Nat} {t u : Tile} (h : SetsOnly g t u) : SetsOnly g t (promote u) := by
  obtain ⟨h1, h2, h3⟩ := h
  refine ⟨?_, h2, h3⟩
  show { u with active := _, eligible := _ } = _
  rw [h1]; rfl

theorem SetsOnly.park (t : Tile) (g : Nat) (w : GWait) : SetsOnly g t (park t g w) := by
  exact SetsOnly.promote ⟨rfl, fun k h => groupOf_setGroup_other t _ h, true, some w, groupOf_setGroup_same t g _⟩

theorem SetsOnly.parkIdle (t : Tile) (g : Nat) : SetsOnly g t (parkIdle t g) := by
  unfold Machine.parkIdle; split
  · exact SetsOnly.park ..
  · exact SetsOnly.refl ..

theorem groupOf_countDecision (t : Tile) (k : Nat) : groupOf (countDecision t) k =
    { groupOf t k with sentinel := (groupOf t k).sentinel + if (groupOf t k).barWait = [] then 0 else 1 } := by
  have h : groupOf (countDecision t) k = (fun x => if x.barWait = [] then x else { x with sentinel := x.sentinel + 1 })
    (groupOf t k) := NMap.getD_map t.groups (fun x => if x.barWait = [] then x else { x with sentinel := x.sentinel + 1 }) k
      TGroup.empty
  rw [h]
  dsimp only
  split
  · rw [Nat.add_zero]
  · rfl

/-! ### Program counters -/

theorem lanePc_setPcs (x : TGroup) (lanes : List Nat) (pc : Nat → DWord) (i : Nat) :
    lanePc (setPcs x lanes pc) i = if i ∈ lanes then pc i else lanePc x i := by
  simp only [lanePc, setPcs]
  generalize x.pcs = m
  induction lanes generalizing m with
  | nil => rfl
  | cons j r ih =>
    rw [List.foldl_cons, ih]
    by_cases h : i ∈ r
    · simp [h]
    · by_cases hj : i = j
      · subst hj; simp [h]
      · simp [h, hj, NMap.getD_put_other _ _ _ _ hj]

/-! ### The frame of an instruction -/

theorem injectTreg_quiet {s : State} (h : noFaults s = true) (ctx site g lane : Nat) (srcs : List RegUse) :
    injectTreg s ctx site g lane srcs = s := by
  unfold injectTreg; split
  · rfl
  · simp [fireTile_none h]

/-- A row that is defined runs once its group is ready. -/
theorem thStep_ready {s s1 : State} {site g : Nat} {l : Launch} {lanes : List Nat} {pc : DWord} {opOk : Launch → Bool}
    {uses : List RegUse} {unused : List Nat} {dst : Option RegUse} (h : ThReady s site g l lanes pc s1)
    (hl : opOk l = true) (hf : ThFields s site g l lanes uses unused dst) (f : ThEnv → State → TGroup → ThOut) (unit : Nat) :
    thStep s site g opOk uses unused dst f unit =
      thFinish s { launch := l, site := site, g := g, lanes := lanes, pc := pc }
        (f { launch := l, site := site, g := g, lanes := lanes, pc := pc } s1 (groupOf (tileOf s1 site) g)) := by
  obtain ⟨i, r, hc, hp⟩ := h.first
  obtain ⟨w, hw, hm, hd⟩ := h.fetched
  have hn : (thDecode site g w.word).isNone = false := by simpa [Option.isNone_eq_false_iff] using hd
  have h1 : uses.all (RegUse.ok l.regs) = true := List.all_eq_true.2 fun u hu => (hf.legal u hu).1
  have h2 : unused.all (· == 255) = true := by simpa using hf.zero
  unfold thStep
  rw [h.launch]
  simp only [h.leading]
  rw [hc]
  dsimp only
  rw [← hc, hp]
  simp only [h.running, h.verdicts, hw, hm, hn, hl, h1, h2, hf.free, h.active, injectTreg_quiet h.quiet]
  simp

/-- A reserved encoding, or a register field that is not legal for REGS, faults and has no other effect (R104). -/
theorem thStep_illegal {s s1 : State} {site g : Nat} {l : Launch} {lanes : List Nat} {pc : DWord} {opOk : Launch → Bool}
    {uses : List RegUse} {unused : List Nat} {dst : Option RegUse} (h : ThReady s site g l lanes pc s1)
    (hl : (opOk l && uses.all (RegUse.ok l.regs) && unused.all (· == 255)) = false) (f : ThEnv → State → TGroup → ThOut) (unit : Nat) :
    thStep s site g opOk uses unused dst f unit = tileFault s1 l site unit illegalInstruction pc pc 0 g (maskOf lanes) := by
  obtain ⟨i, r, hc, hp⟩ := h.first
  obtain ⟨w, hw, hm, hd⟩ := h.fetched
  have hn : (thDecode site g w.word).isNone = false := by simpa [Option.isNone_eq_false_iff] using hd
  unfold thStep
  rw [h.launch]
  simp only [h.leading]
  rw [hc]
  dsimp only
  rw [← hc, hp]
  simp only [h.running, h.verdicts, hw, hm, hn, hl]
  simp

theorem keepMax_counters_other (s : State) (t i w n : Nat) {k : Nat} (h : k ≠ ckey t i w) :
    NMap.getD (keepMax s t i w n).counters k 0 = NMap.getD s.counters k 0 := by
  unfold keepMax; split
  · exact getD_setCounter_other s t i w _ h
  · rfl

theorem TilesCounters.keepMax (s : State) (t i w n : Nat) : TilesCounters s (keepMax s t i w n) := by
  unfold Machine.keepMax; split
  · exact ⟨s.tiles, _, rfl⟩
  · exact .refl s

/-- What a site's tile holds after a group's effect: y for the group, and the samples that the work counts add (R387). -/
structure Worked (s s2 : State) (site g : Nat) (y : TGroup) : Prop where
  frame : TilesCounters s s2
  tiles : ∀ k, k ≠ site → tileOf s2 k = tileOf s k
  tile : tileOf s2 site = { tileOf s site with samples := (tileOf s2 site).samples, sampleCount := (tileOf s2 site).sampleCount
                                               groups := (tileOf s2 site).groups }
  others : ∀ k, k ≠ g → groupOf (tileOf s2 site) k = groupOf (tileOf s site) k
  group : groupOf (tileOf s2 site) g = y
  counts : ∀ k, k ≠ ckey 1 site 12 → NMap.getD s2.counters k 0 = NMap.getD s.counters k 0

theorem Worked.refl (s : State) (site g : Nat) : Worked s s site g (groupOf (tileOf s site) g) :=
  ⟨.refl s, fun _ _ => rfl, rfl, fun _ _ => rfl, rfl, fun _ _ => rfl⟩

theorem Worked.putGroup {s s2 : State} {site g : Nat} {x : TGroup} (h : Worked s s2 site g x) (y : TGroup) :
    Worked s (putGroup s2 site g y) site g y := by
  have ht : tileOf (Machine.putGroup s2 site g y) site = setGroup (tileOf s2 site) g y := by simp [Machine.putGroup]
  constructor
  · exact h.frame.trans (.updTile ..)
  · intro k hk; rw [Machine.putGroup, tileOf_updTile_other _ _ _ hk, h.tiles k hk]
  · rw [ht, h.tile]; rfl
  · intro k hk; rw [ht, groupOf_setGroup_other _ _ hk, h.others k hk]
  · rw [ht, groupOf_setGroup_same]
  · exact h.counts

theorem Worked.sample (s : State) (site g : Nat) (f : Tile → List Sample) :
    Worked s (updTile s site fun t => { t with sampleCount := t.sampleCount + 1, samples := f t }) site g
      (groupOf (tileOf s site) g) := by
  constructor
  · exact .updTile ..
  · intro k hk; exact tileOf_updTile_other _ _ _ hk
  · simp
  · intro k _; simp; rfl
  · simp; rfl
  · intro k _; rfl

theorem Worked.counted {s u : State} {site g : Nat} {y : TGroup} (h : Worked s u site g y) :
    Worked s (bump u 1 site 12 1) site g y := by
  constructor
  · exact h.frame.trans (.bump ..)
  · intro k hk; rw [tileOf_bump]; exact h.tiles k hk
  · rw [tileOf_bump]; exact h.tile
  · intro k hk; rw [tileOf_bump]; exact h.others k hk
  · rw [tileOf_bump]; exact h.group
  · intro k hk; rw [bump_counters_other _ _ _ _ _ hk]; exact h.counts k hk

theorem Worked.countSample (s : State) (e : ThEnv) :
    Worked s (countSample s e) e.site e.g (groupOf (tileOf s e.site) e.g) := by
  unfold Machine.countSample
  dsimp only
  split
  · exact (Worked.sample s e.site e.g _).counted
  · exact Worked.sample s e.site e.g _

/-- What retiring leaves, whatever the instruction has made of its group. -/
theorem thRetire_retired {s s2 : State} {l : Launch} {site g : Nat} {lanes : List Nat} {y : TGroup} (h : Worked s s2 site g y)
    (pc : Nat → DWord) : ThRetired s (thRetire s2 l site g lanes pc) l site g lanes y pc := by
  have ht : ∀ k, tileOf (thRetire s2 l site g lanes pc) k = tileOf (updTile s2 site fun t =>
      countDecision (parkIdle (setGroup (ageSamples t (some g)) g (goneOn (groupOf t g) lanes pc)) g)) k := by
    intro k; simp [thRetire]
  have h0 : tileOf (thRetire s2 l site g lanes pc) site = countDecision (parkIdle
      (setGroup (ageSamples (tileOf s2 site) (some g)) g (goneOn (groupOf (tileOf s2 site) g) lanes pc)) g) := by
    rw [ht]; simp
  rw [h.group] at h0
  obtain ⟨a1, a2, p, w, a3⟩ := SetsOnly.parkIdle (setGroup (ageSamples (tileOf s2 site) (some g)) g (goneOn y lanes pc)) g
  rw [groupOf_setGroup_same] at a3
  have hg := groupOf_countDecision (parkIdle (setGroup (ageSamples (tileOf s2 site) (some g)) g (goneOn y lanes pc)) g) g
  rw [← h0, a3] at hg
  constructor
  · exact h.frame.trans (((TilesCounters.updTile ..).trans (.bump ..)).trans (.bump ..) |>.trans (.keepMax ..))
  · intro k hk; rw [ht, tileOf_updTile_other _ _ _ hk, h.tiles k hk]
  · rw [h0]
    unfold countDecision
    rw [a1]
    simp only [setGroup, ageSamples]
    rw [h.tile]
  · intro k hk
    rw [h0, groupOf_countDecision, a2 k hk, groupOf_setGroup_other _ _ hk]
    have e : groupOf (ageSamples (tileOf s2 site) (some g)) k = groupOf (tileOf s2 site) k := rfl
    rw [e, h.others k hk]
  · rw [hg]; rfl
  · intro i
    rw [hg]
    exact lanePc_setPcs ..
  · intro hs
    unfold thRetire counter
    rw [keepMax_counters_other _ _ _ _ _ (by unfold ckey; omega), bump_counters_other _ _ _ _ _ (by unfold ckey; omega)]
    refine (counter_bump_one _ 1 site 0).trans ?_
    show satAdd (NMap.getD s2.counters _ _) 1 = _
    rw [h.counts _ (by unfold ckey; omega)]
  · intro k h1 h2 h3 h4
    unfold thRetire
    rw [keepMax_counters_other _ _ _ _ _ h3, bump_counters_other _ _ _ _ _ h2, bump_counters_other _ _ _ _ _ h1]
    exact h.counts k h4

/-- A row that is defined and goes on at the next instruction retires. -/
theorem th_retires {s s1 s2 : State} {site g : Nat} {l : Launch} {lanes : List Nat} {pc : DWord} {opOk : Launch → Bool}
    {uses : List RegUse} {unused : List Nat} {dst : Option RegUse} {y : TGroup} (h : ThReady s site g l lanes pc s1)
    (hl : opOk l = true) (hf : ThFields s site g l lanes uses unused dst) (f : ThEnv → State → TGroup → ThOut) (unit : Nat)
    (hs : f { launch := l, site := site, g := g, lanes := lanes, pc := pc } s1 (groupOf (tileOf s1 site) g) = .next s2)
    (hw : Worked s1 s2 site g y) :
    ∃ t, whenUp s (fun s => thStep s site g opOk uses unused dst f unit) = .next t ∧
      ThRetired s1 t l site g lanes y fun _ => pc + 8 := by
  refine ⟨_, whenUp_up _ h.up, ?_⟩
  rw [thStep_ready h hl hf, hs]
  exact thRetire_retired hw _

/-! ### Lane by lane -/

theorem leadingSet_nodup (x : TGroup) : (leadingSet x).Nodup := by
  unfold leadingSet goingLanes
  exact (List.nodup_range.sublist List.filter_sublist).sublist List.filter_sublist

/-- An effect on one lane: it changes the lane's registers alone, and by them alone. -/
structure LaneEffect (f : TGroup → Nat → TGroup) : Prop where
  frame : ∀ y i, f y i = { y with regs := (f y i).regs }
  others : ∀ y i j k, k < 256 → j ≠ i → treg (f y i) j k = treg y j k
  own : ∀ y z i, (∀ k, k < 256 → treg y i k = treg z i k) → ∀ k, k < 256 → treg (f y i) i k = treg (f z i) i k

/-- The effect on every lane of a list: each lane as if it were alone. -/
theorem eachLane_lanes {f : TGroup → Nat → TGroup} (h : LaneEffect f) (x : TGroup) {lanes : List Nat} (hn : lanes.Nodup) :
    eachLane x lanes f = { x with regs := (eachLane x lanes f).regs } ∧
      (∀ i ∈ lanes, ∀ k, k < 256 → treg (eachLane x lanes f) i k = treg (f x i) i k) ∧
      ∀ i, i ∉ lanes → ∀ k, k < 256 → treg (eachLane x lanes f) i k = treg x i k := by
  induction lanes generalizing x with
  | nil => exact ⟨rfl, by simp, fun _ _ _ _ => rfl⟩
  | cons j r ih =>
    obtain ⟨hj, hr⟩ := List.nodup_cons.1 hn
    obtain ⟨h1, h2, h3⟩ := ih (f x j) hr
    have e : eachLane x (j :: r) f = eachLane (f x j) r f := rfl
    rw [e]
    refine ⟨?_, ?_, ?_⟩
    · rw [h1, h.frame x j]
    · intro i hi k hk
      rcases List.mem_cons.1 hi with rfl | hm
      · exact h3 i hj k hk
      · rw [h2 i hm k hk]
        exact h.own _ _ i (fun k hk => h.others x j i k hk fun e => hj (e ▸ hm)) k hk
    · intro i hi k hk
      rw [h3 i (fun hm => hi (List.mem_cons_of_mem _ hm)) k hk]
      exact h.others x j i k hk fun e => hi (e ▸ List.mem_cons_self ..)

theorem treg_setTpair (x : TGroup) {i r : Nat} (v : T64) {j k : Nat} (hr : r < 256) (hk : k < 256) :
    treg (setTpair x i r v) j k =
      if j = i ∧ r ≠ 255 ∧ k ≠ 255 ∧ (k = r ∨ k = r + 1) then
        { val := BitVec.ofNat 32 (if k = r then fld v.val 31 0 else fld v.val 63 32), poison := v.poison }
      else treg x j k := by
  unfold setTpair
  by_cases h255 : r = 255
  · simp [h255]
  by_cases k255 : k = 255
  · subst k255; simp
  simp only [h255, if_false]
  by_cases hj : j = i
  · subst hj
    by_cases h1 : k = r + 1
    · subst h1
      rw [treg_setTreg_same _ _ _ k255]
      simp [h255, k255]
    · rw [treg_setTreg_other _ _ (by omega)]
      by_cases h2 : k = r
      · subst h2; rw [treg_setTreg_same _ _ _ h255]; simp [h255]
      · rw [treg_setTreg_other _ _ (by omega)]; simp [h1, h2]
  · rw [treg_setTreg_other _ _ (by omega), treg_setTreg_other _ _ (by omega)]; simp [hj]

theorem treg_setTreg (x : TGroup) {i r : Nat} (v : T32) {j k : Nat} (hr : r < 256) (hk : k < 256) :
    treg (setTreg x i r v) j k = if j = i ∧ k = r ∧ r ≠ 255 then v else treg x j k := by
  by_cases h255 : r = 255
  · simp [setTreg, h255]
  by_cases h : j = i ∧ k = r
  · obtain ⟨rfl, rfl⟩ := h; rw [treg_setTreg_same _ _ _ h255]; simp [h255]
  · rw [treg_setTreg_other _ _ (by omega)]; simp [h255]; intro h1 h2; exact absurd ⟨h1, h2⟩ h

end Sys2Proof.Machine
end

