-- ==== Sys2Proof/Laws/ThreadAlu.lean ====
section
/-! SUPPORT. The effect of an ALU instruction on one lane of a thread group. -/

set_option Elab.async false

namespace Sys2Proof.Machine

/-- The halves of a 64-bit value make it. -/
theorem pair32 (v : Nat) (h : v < 2^64) : BitVec.ofNat 64 ((BitVec.ofNat 32 (fld (BitVec.ofNat 64 v) 31 0)).toNat + ((BitVec.ofNat 32 (fld (BitVec.ofNat 64 v) 63 32)).toNat <<< 32)) = BitVec.ofNat 64 v := by
  simp only [fld, field, BitVec.toNat_ofNat, Nat.shiftLeft_eq, Nat.shiftRight_eq_div_pow]
  congr 1; norm_num; omega

theorem getSrc_setRes (x : TGroup) (i r w v : Nat) (p : Bool) (hw : w = 32 ∨ w = 64) (hr : r + w/32 ≤ 255) (hv : v < 2^w) :
   getSrc (setRes x i r w v p) i r w = (v, p) := by
  rcases hw with rfl | rfl
  · norm_num at hr hv
    simp [getSrc, setRes, treg_setTreg _ _ (show r < 256 by omega) (show r < 256 by omega), show r ≠ 255 by omega]; omega
  · norm_num at hr hv
    simp only [getSrc, setRes, if_true, tpair, show r ≠ 255 by omega, if_false]
    simp [treg_setTpair _ _ (show r < 256 by omega) (show r < 256 by omega), treg_setTpair _ _ (show r < 256 by omega) (show r+1 < 256 by omega), show r ≠ 255 by omega, show r +1 ≠ 255 by omega]
    have := pair32 v (by norm_num; exact hv)
    rw [← BitVec.toNat_inj] at this
    simp at this; omega

theorem getSrc_congr {y z : TGroup} {i r w : Nat} (hr : r < 256) (h : ∀ k, k < 256 → treg y i k = treg z i k) : getSrc y i r w = getSrc z i r w := by
  unfold getSrc tpair
  by_cases h255 : r = 255
  · simp [h255]
  · rw [h r hr, h (r+1) (by omega)]

theorem setRes_other (x : TGroup) {i r w v j k : Nat} (p) (hr : r < 256) (hk : k < 256) (hn : ¬ (j = i ∧ r ≤ k ∧ k < r + w/32)) (hw : w = 32 ∨ w = 64):
   treg (setRes x i r w v p) j k = treg x j k := by
  rcases hw with rfl | rfl
  · simp only [setRes, show ¬ (32 = 64) by omega, if_false]; rw [treg_setTreg _ _ hr hk, if_neg]; rintro ⟨rfl,rfl,-⟩; apply hn; simp
  · simp only [setRes, if_true]; rw [treg_setTpair _ _ hr hk, if_neg]; rintro ⟨rfl,-,-,h⟩; apply hn; norm_num; omega

theorem setRes_own (y z : TGroup) {i r w v k : Nat} (p) (hr : r < 256) (hk : k < 256) (h : treg y i k = treg z i k)  (hw : w = 32 ∨ w = 64) :
   treg (setRes y i r w v p) i k = treg (setRes z i r w v p) i k := by
  rcases hw with rfl | rfl
  · simp only [setRes, show ¬ (32 = 64) by omega, if_false]; rw [treg_setTreg _ _ hr hk, treg_setTreg _ _ hr hk, h]
  · simp only [setRes, if_true]; rw [treg_setTpair _ _ hr hk, treg_setTpair _ _ hr hk, h]

theorem intLane_effect (f : TrF) : LaneEffect (intLane f) := by
  have hw : intWidth f.fn.toNat = 32 ∨ intWidth f.fn.toNat = 64 := by unfold intWidth; split <;> simp
  constructor
  · intro y i; exact setRes_frame ..
  · intro y i j k hk hj; exact setRes_other _ _ f.dst.isLt hk (by simp [hj]) hw
  · intro y z i h k hk
    simp only [intLane]
    rw [getSrc_congr f.src1.isLt h, getSrc_congr f.src2.isLt h, getSrc_congr f.src3.isLt h]
    exact setRes_own _ _ _ f.dst.isLt hk (h k hk) hw

end Sys2Proof.Machine
end

