-- ==== Sys2Proof/Machine/Wire.lean ====
section
/-! DEFINITION. The fabric wire: the bytes of packets and flits (R348, R366), and the bits, symbols, codewords, alignment
markers and levels that carry them on the lanes of a port (R347, R349). These are views of what a port has sent; how many
codewords and markers a lane has sent by now depends on time, which the model leaves out (notes/assumptions/85.md). -/

namespace Sys2Proof.Machine

/-! ### Bytes (R348, R366) -/

/-- Bytes of a payload whose layout the manual does not give (R374, R355; notes/assumptions/85.md). -/
def openPayload (n : Nat) : List Byte := (List.range n).map fun i => (Config.freeWord (2 ^ 70 + i)).setWidth 8

/-- The four words of a packet's header. -/
def headerWords (p : Packet) : List DWord :=
  [(p.type.toNat <<< 58) + (p.vc.toNat <<< 56) + (p.dnode.toNat <<< 42) + (p.snode.toNat <<< 28) + (p.sinc.toNat <<< 20) +
     p.job.toNat,
   (p.window.toNat <<< 48) + (p.len.toNat <<< 42) + p.offset.toNat,
   (p.tag.toNat <<< 32) + (p.dinc.toNat <<< 24) + (p.status.toNat <<< 16) + (p.opx.toNat <<< 8) + p.scale.toNat,
   p.arg.toNat].map (BitVec.ofNat 64)

/-- A packet's payload: its bytes, or those of a tree round or a relay head. -/
def payloadWire (p : Packet) : List Byte :=
  if p.tree.isSome || p.head.isSome then openPayload (4 * (p.len.toNat + 1)) else p.payload

/-- Header, payload and padding to a multiple of 16 bytes; the padding is free (notes/assumptions/85.md). -/
def packetWire (p : Packet) : List Byte :=
  let body := ((headerWords p).map fun w => leBytes w.toNat 8).flatten ++ payloadWire p
  body ++ openPayload (roundUp body.length 16 - body.length)

/-- The 264 bytes of a flit: the header word, the payload, and the CRC over both. -/
def flitWire (seq ack : BitVec 10) (ftype : Nat) (cvc : BitVec 2) (cred : BitVec 8) (payload : List Byte) : List Byte :=
  let body := leBytes ((seq.toNat <<< 22) + (ack.toNat <<< 12) + (ftype <<< 10) + (cvc.toNat <<< 8) + cred.toNat) 4 ++
    sliceList 0 payload 0 256
  body ++ leBytes (crc32 body).toNat 4

/-- The data flits of packets laid end to end, from a sequence number upward; the rest of the last payload is free. -/
def dataWire (seq ack : BitVec 10) (ps : List Packet) : List (List Byte) :=
  let cut := chunksOf 256 (ps.map packetWire).flatten
  (List.range cut.length).map fun i =>
    let pay := (cut[i]?).getD []
    flitWire (seq + BitVec.ofNat 10 i) ack 0 0 0 (pay ++ openPayload (256 - pay.length))

/-- A flit other than a data flit. A retry request names the expected SEQ in its SEQ field, and the payload of a control
flit has no stated layout (notes/assumptions/85.md). -/
def sentWire (d : Port) (f : SentFlit) : List Byte :=
  let pay := openPayload 256
  match f with
  | .idle seq ack cvc cred => flitWire seq ack 1 cvc cred pay
  | .retry seq => flitWire seq (d.rxSeq - 1) 2 0 0 pay
  | .hello _ | .laneMap _ => flitWire d.txSeq (d.rxSeq - 1) 3 0 0 pay

/-! ### Symbols and lanes (R349.1, R349.2, R358) -/

/-- The bits of a byte string, each byte from bit 0 upward. -/
def bitsOf (bs : List Byte) : List Bool := (bs.map fun b => (List.range 8).map b.toNat.testBit).flatten

/-- The number whose bit 0 is the first of the bits. -/
def bitsNat (bs : List Bool) : Nat := bs.foldr (fun b n => (if b then 1 else 0) + 2 * n) 0

/-- The 10-bit symbols of a bit stream. -/
def symbolsOf (bs : List Bool) : List Nat := (chunksOf 10 bs).map bitsNat

/-- The active lanes in the order of the round robin: ascending, the spare lane 8 in the place of the lane it replaces. -/
def laneOrder (lanes : BitVec 9) : List Nat :=
  let use := setBits lanes.toNat 8
  if bit (lanes.setWidth 64) 8 then
    match (List.range 8).find? fun i => !use.contains i with
    | some gone => (List.range 8).map fun i => if i = gone then 8 else i
    | none => use ++ [8]
  else use

/-- The symbols that the round robin deals to its lane k of n. -/
def dealt (n k : Nat) (syms : List Nat) : List Nat :=
  (List.range ((syms.length + n - 1 - k) / n)).map fun j => (syms[j * n + k]?).getD 0

/-! ### Codewords (R347, R349.3) -/

/-- Multiplication in GF(2^10) modulo x^10 + x^3 + 1: n bits of b are left, the lowest first. -/
def symMulFrom (n r a b : Nat) : Nat :=
  match n with
  | 0 => r
  | n + 1 => symMulFrom n (if b.testBit 0 then r ^^^ a else r) (if a.testBit 9 then (2 * a) ^^^ 0x409 else 2 * a) (b / 2)

def symMul (a b : Nat) : Nat := symMulFrom 10 0 a b

/-- Coefficients, the highest below the leading 1 first, of the product of the polynomials x − α^i for i below n. -/
def genPoly (n : Nat) : List Nat :=
  let go (st : List Nat × Nat) (_ : Nat) : List Nat × Nat :=
    let g := 1 :: st.1
    (List.zipWith (fun a b => a ^^^ b) (st.1 ++ [0]) (g.map (symMul st.2)), symMul 2 st.2)
  ((List.range n).foldl go ([], 1)).1

/-- The 30 parity symbols of 514 message symbols, in the order they are sent: the remainder that leaves the codeword, its
first symbol the highest coefficient, divisible by the generator of IEEE 802.3 Clause 91 (PRESUMED,
notes/assumptions/93.md). -/
def rsParity (gen msg : List Nat) : List Nat :=
  msg.foldl (fun (r : List Nat) m =>
    List.zipWith (fun a g => a ^^^ symMul (m ^^^ r.headD 0) g) (r.drop 1 ++ [0]) gen) (List.replicate gen.length 0)

/-- An RS(544,514) codeword. -/
def codeword (msg : List Nat) : List Nat := msg ++ rsParity (genPoly 30) msg

/-- The 12-symbol alignment marker of a lane after a number of markers sent. -/
def marker (lane count : Nat) : List Nat :=
  [0x2A5, 0x15A, 0x2A5, 0x15A, 0x3C3, 0x03C, lane, 1023 - lane] ++ (List.range 4).map fun i => field count (10 * i + 9) (10 * i)

/-- The codewords of a lane from its codeword number first, an alignment marker after every 4,096: that marker counts those
before it (notes/assumptions/85.md). -/
def laneSymbols (lane first : Nat) (syms : List Nat) : List Nat :=
  let cs := (chunksOf 514 syms).map codeword
  ((List.range cs.length).map fun i =>
    (cs[i]?).getD [] ++ (if (first + i + 1) % 4096 = 0 then marker lane ((first + i + 1) / 4096 - 1) else [])).flatten

/-! ### Levels (R349.4) -/

/-- The PAM4 level of a pair of bits, the first more significant, Gray-coded. -/
def pam4 (a b : Bool) : Nat :=
  match a, b with
  | false, false => 0
  | false, true => 1
  | true, true => 2
  | true, false => 3

/-- The levels of a lane: its symbols' bits from bit 0 upward, in pairs. -/
def levelsOf (syms : List Nat) : List Nat :=
  (syms.map fun x => (List.range 5).map fun i => pam4 (x.testBit (2 * i)) (x.testBit (2 * i + 1))).flatten

/-- What each active lane of a port sends for a run of flits, from its codeword number first. -/
def portLevels (d : Port) (first : Nat) (flits : List (List Byte)) : List (Nat × List Nat) :=
  let order := laneOrder d.lanes
  let syms := symbolsOf (bitsOf flits.flatten)
  (List.range order.length).map fun k =>
    let lane := (order[k]?).getD 0
    (lane, levelsOf (laneSymbols lane first (dealt order.length k syms)))

/-- What a port sends for the packets it keeps for retry: their data flits, from the oldest (R357). -/
def replayLevels (d : Port) (first : Nat) : List (Nat × List Nat) :=
  portLevels d first (dataWire (d.txSeq - BitVec.ofNat 10 (replayFlits d)) (d.rxSeq - 1) (d.replay.map (·.packet)))

end Sys2Proof.Machine
end

