-- ==== Sys2Proof/WellFormed.lean ====
section
/-! DEFINITION. Well-formed commands: every operand names something that the module has. An encoding of an instruction
row that the manual calls illegal is well formed: its meaning takes the fault (R100, R104). -/

set_option Elab.async false

namespace Sys2Proof

/-- A command reference within the tables (R22, R64, R74, R82). -/
def CmdRef.wf (c : CmdRef) : Bool :=
  decide (c.ctx < 4096 ∧ c.queue < 16 ∧ c.index < 2 ^ 32 ∧ c.lpos ≤ 65536)

/-- Companion stores lie within the companion processor's 2^47 bytes (R282). -/
def storesWf (l : List (Nat × Byte)) : Bool := l.all fun x => decide (x.1 < 2 ^ 47)

/-- A boot input names eight DIMM sockets and four CXL ports (R314, R319). -/
def BootIn.wf (b : BootIn) : Bool := decide (b.dimms.length = 8 ∧ b.cxlGiB.length = 4)

def StartOf.wf : StartOf → Bool
  | .engine cls => decide (cls < 5)
  | .control ctx queue => decide (ctx < 4096 ∧ queue < 16)

/-- A thread form names a group slot (R93). -/
def CrTr.wf : CrTr → Bool
  | .cc _ => true
  | .th g _ => decide (g < 64)

def CrTi.wf : CrTi → Bool
  | .cc _ => true
  | .th g _ => decide (g < 64)

/-- A request names a context, a partition and a physical address (R22, R291). -/
def SliceReq.wf (r : SliceReq) : Bool := decide (r.ctx < 4096 ∧ r.part < 64 ∧ r.pa < 2 ^ 48)

/-- Every operand of the command is within the range that the manual gives it. -/
def Instr.wf (ins : Instr) : Bool :=
  match ins with
  | .nop c | .timeMark c | .callList c | .objFree c | .ctxCreate c | .ctxConfig c | .ctxSuspend c | .ctxResume c
  | .contextKill c | .faultResume c | .queueConfig c | .xlatInval c | .objCreate c | .objImport c | .heapBind c
  | .cmdAbort c | .klaunch c | .copy c | .fill c | .recSnapshot c | .recClear c | .errInjectArm c | .errInjectDisarm c
  | .errInjectSetFraction c | .dispatchRoute c | .dispatchCombine c | .dispatchConfirm c | .dispatchDiscard c
  | .routeLoad c | .collReduceScatter c | .collAllReduce c | .collAgree c | .digestCheck c | .rxtWrite c
  | .rxtReadOut c | .jobEpoch c | .jobEpochDrop c | .updateRun c | .groupWrite c | .groupReadOut c | .groupAssign c
  | .groupRelease c | .stateMoveOut c | .stateMoveIn c | .commandCompletion c | .updateGroupHold c | .updateAgree c => c.wf
  | .doorbellWrite ctx queue _ stores => decide (ctx < 4096) && decide (queue < 16) && storesWf stores
  | .queueBindFromWait | .partitionCommitDone | .readPkt _ | .writePkt _ | .reducePkt _ | .atomicPkt _ | .readRsp _
  | .ack _ | .atomicRsp _ | .responseDeadline _ | .relayHead _ | .relayData _ | .relayTail _ | .treeUp _ | .treeDown _
  | .beatMonitorPeriod _ | .powerOff _ | .undervoltageTurnOff _ _ | .overvoltageTurnOff _ _ | .breakerTrip _ _
  | .governorPeriod _ _ _ _ _ | .currentEmergency _ | .firmwareUpdate _ _ | .debugUnlock _ | .sovelLinkDown
  | .sovelLinkRetrain _ _ _ _ | .mctpControl _ | .pldmSensorRead _ _ | .getProgress _ | .getStepLog _ _ _
  | .resetStepLog _ | .setEnvelopeCap _ _ | .submitTransition _ _ | .getDebugChallenge _ _ | .debugResponse _ _ _ _
  | .getPowerStatus _ | .getVersion _ | .getCapabilities _ | .negotiateAlgorithms _ _ | .getDigests _
  | .getCertificate _ _ _ _ | .challenge _ _ _ | .getMeasurements _ _ _ _ _ | .setCertificate _ _ _
  | .vendorKeyRevocationRequest _ _ _ _ _ | .recoveryWaitProgressAdvance | .platformEventRetrieval | .mateShortBreak
  | .ownerDataWrite _ | .dynamicAddressAssignment _ => true
  | .packetParse ctx queue => decide (ctx < 4096) && decide (queue < 16)
  | .commandStart w => w.wf
  | .arbitrationStarvationGuard cls => decide (cls < 5)
  | .contextFault ctx f => decide (ctx < 4096) && decide (f.queue < 16)
  | .objectRelease index | .objectScrubComplete index => decide (1 ≤ index ∧ index < 1048576)
  | .contextEnterScrubbing ctx | .contextReachFree ctx => decide (ctx < 4096)
  | .halloc site ins | .hallocZ site ins | .hfree site ins | .mfenceT site ins | .mfenceM site ins | .mfenceF site ins
  | .strmGet site ins | .strmPut site ins | .strmXfer site ins | .strmPref site ins | .strmRget site ins
  | .strmRput site ins | .strmWait site ins | .strmStat site ins | .strmCancel site ins | .batonPut site ins
  | .batonTake site ins | .batonTry site ins | .bqCount site ins | .msgSend site ins | .msgGet site ins
  | .msgFlush site ins => decide (site < 384) && ins.wf
  | .ccAlu site _ | .addi site _ | .andi site _ | .ori site _ | .xori site _ | .slti site _ | .sltiu site _
  | .shli site _ | .shri site _ | .srai site _ | .lim site _ | .ldD site _ | .ldW site _ | .stD site _ | .stW site _
  | .beq site _ _ | .bne site _ _ | .blt site _ _ | .bge site _ _ | .bltu site _ _ | .bgeu site _ _ | .jal site _
  | .jalr site _ _ | .gStart site _ | .gWait site _ | .gStat site _ | .tcfg site _ | .sysNop site _ | .endTile site _
  | .ccBranchResolve site | .arrayWindow site _ | .matrixVerdict site _ | .drainPathComplete site
  | .vectorQueueIssue site _ | .vsetvlW32 site _ | .vsetvlW16 site _ | .vgetvl site _ | .vwait site _ | .vhbind site _
  | .vhclr site _ | .vhread site _ | .vectorInteger site _ | .vectorFp32 site _ | .vectorBf16 site _
  | .vectorConversion site _ | .vectorBlockScaleEncode site _ | .vectorBlockScaleDecode site _
  | .vectorReduction site _ | .vbcast site _ | .vbcastH site _ | .viota site _ | .vslidedn site _ | .vslideup site _
  | .vperm site _ | .vmov site _ | .vmvXv site _ | .vmvVx site _ | .vldS site _ | .vldSStr site _ | .vldSIdx site _
  | .vstS site _ | .vstSStr site _ | .vstSIdx site _ | .vldM site _ | .vldMStr site _ | .vldMIdx site _ | .vstM site _
  | .vstMStr site _ | .vstMIdx site _ | .streamRequestIssue site | .bqArm site _ | .bqDisarm site _
  | .deferredBatonPost site | .messageDelivery site _ | .sampleVerdict site _ _ | .tileSiteSpare site => decide (site < 384)
  | .integerAlu site g _ | .integerAluImmediate site g _ | .floatAlu site g _ | .conversion site g _ | .ld site g _
  | .st site g _ | .lds site g _ | .sts site g _ | .atom site g _ | .pref site g _ | .bra site g _ | .brz site g _
  | .brnz site g _ | .call site g _ | .callr site g _ | .jmp site g _ | .ret site g _ | .threadNop site g _
  | .exit site g _ | .sreg site g _ | .barG site g _ | .barT site g _ | .barTArv site g _ | .tokWait site g _
  | .tokTest site g _ | .groupStalledSentinel site g | .runAheadEnter site g | .l1MissReturn site g | .mma site g _ _
  | .mdrain site g _ | .mzero site g _ | .mload site g _ | .maccStG site g _ | .maccLdG site g _ | .mregOpen site g _
  | .mregClose site g _ => decide (site < 384) && decide (g < 64)
  | .arrivalRecordWrite c expert | .combinePoll c expert => c.wf && decide (expert < 32768)
  | .speculativeFillArrive line | .sliceEviction line => decide (line < 2 ^ 40)
  | .freezeAcquire site slot | .streamRequestComplete site slot _ | .streamComplete site slot =>
    decide (site < 384) && decide (slot < 64)
  | .armedQueueStart site queue => decide (site < 384) && decide (queue < 16)
  | .sliceRequest r => r.wf
  | .creditReturn slice => decide (slice < 256)
  | .channelTransferComplete sector _ | .adderBufferTimeout sector | .orderedReductionApply sector =>
    decide (sector < 2 ^ 42)
  | .regulatorWindow channel | .refresh channel _ => decide (channel < 256)
  | .partitionCommit _ stores | .recoveryFetch _ stores | .nconsWrite _ stores | .mailboxSubmit _ stores => storesWf stores
  | .patrolRead pa _ => decide (pa < 2 ^ 48)
  | .tierLinkFlitRetry chip | .tierLinkRetrain chip _ _ => decide (chip < 4)
  | .cxlDeviceLost port | .cxlMediaErrorReport port _ => decide (port < 4)
  | .dimmThermalLimit dimm _ => decide (dimm < 8)
  | .updateChunk c chip => c.wf && decide (chip < 4)
  | .laneTraining port _ | .hello port _ | .dataFlitReceive port _ | .retryRequest port _ | .idleFlitReceive port _ =>
    decide (port < 20)
  | .laneFailure port lane => decide (port < 20) && decide (lane < 9)
  | .islandWindow island | .thermalTrip island _ => decide (island < 412)
  | .powerUp _ _ _ b | .modReset b | .recoveryFetchComplete _ b => b.wf
  | .windowRead offset _ => decide (offset < 2 ^ 35)
  | .windowWrite offset _ stores | .windowCompareAndSwap offset _ _ stores => decide (offset < 2 ^ 35) && storesWf stores
  | .registerWrite offset _ _ stores => decide (offset < 2 ^ 32) && storesWf stores
  | .sovelLaneFailure lane => decide (lane < 9)

end Sys2Proof
end

