-- ==== Sys2Proof/Tests/Slice0.lean ====
section
/-! SUPPORT. Small tests: well-formedness refuses what it should, worked examples of the specification, and for each statement
with hypotheses a concrete state and operands that meet them. -/

set_option Elab.async false

open Sys2Proof Sys2Proof.Machine

namespace Sys2Proof.Tests

/-! ### A small state: context 1 with one 1 GiB page mapped onto itself, and a launch on tile site 0 -/

def cref : CmdRef := { ctx := 1, queue := 0, index := 0, lpos := 0 }

def launch1 : Launch :=
  { cmd := cref, ctx := 1, sites := [0], groups := 2, regs := 32, store := 1, code := 0x40000000, arg := 0, ended := [], saved := [] }

/-- Group 0: lanes 0 and 1 live, at the same address, with a register pair r4 that holds an address. -/
def group0 : TGroup := { TGroup.empty with
  running := true, exited := 0xFFFFFFFC, pcs := [(0, 0x40000800), (1, 0x40000800)]
  regs := [(4, { val := 0x40001000, poison := false }), (260, { val := 0x40001040, poison := false })] }

def clean64 (v : DWord) : T64 := { val := v, poison := false }

/-- A sector of code of which one byte is not zero. -/
def codeSec (k : Nat) (b : Byte) : Sector := { data := (List.replicate 64 (0 : Byte)).set k b, poison := false }

/-- At 0x40000000 an ADDI, and at 0x40000800 an instruction of the thread ISA's integer ALU, both cached. -/
def tile1 : Tile := { Tile.empty with
  launch := some cref, ccPc := 0x40000000, groups := [(0, group0)], active := [0]
  icache := [(0x1000000, codeSec 3 0x08), (0x1000020, codeSec 7 0x01)]
  ccRegs := [(5, clean64 0x40001000), (6, clean64 1), (7, clean64 2), (8, clean64 0x40001002), (9, clean64 0x100000)] }

def code1 : NMap Byte := [(0x40000003, 0x08), (0x40000807, 0x01)]
def page1 : NMap Byte := memPut (memPut code1 0xBC80000000 (leBytes 0xBC80010001 8)) 0xBC80010008 (leBytes 0x400000FF 8)

def st1 : State := { State.reset with
  hashKey := 0, ctxs := [(0, Ctx.zero), (1, { Ctx.empty with state := .active, root := 0xBC8000, job := 7 })]
  mem := page1, launches := [launch1], tiles := [(0, tile1)] }

/-- The state after the fetches of the control core and of group 0. -/
def st1c : State := (fetch st1 0 1 0x40000000 4).1
def st1g : State := (fetch st1 0 1 0x40000800 8).1

/-- A pair by its second component. -/
theorem pair_eq {α β : Type} {p : α × β} {b : β} (h : p.2 = b) : p = (p.1, b) := by
  cases p; cases h; rfl

theorem walk_st1 : walk st1 1 0x40001000 = .leaf 0x400000FF 2 0xBC80010008 := by decide +kernel

/-- The control core is ready at 0x40000000, where an ADDI stands in its instruction cache. -/
theorem core_ready {s : State} {l : Launch} (past : Bool)
    (h : (s.run == .up && runningLaunch s 0 == some l && l.ctx == 1 && (tileOf s 0).ccPc == 0x40000000 &&
      !sampleBlocked (tileOf s 0) none && !ccGetLeft s 0 && noFaults (fetch s 0 1 0x40000000 4).1 && (tileOf s 0).spec == none &&
      decide ((fetch s 0 1 0x40000000 4).2 = .ok { missed := false, word := 0x08000000 })) = true := by decide +kernel) :
    CcReady past s 0 l 0x40000000 (fetch s 0 1 0x40000000 4).1 := by
  simp only [Bool.and_eq_true, beq_iff_eq, decide_eq_true_eq, Bool.not_eq_true'] at h
  obtain ⟨⟨⟨⟨⟨⟨⟨⟨h1, h2⟩, h3⟩, h4⟩, h5⟩, h6⟩, h7⟩, h8⟩, h9⟩ := h
  exact ⟨h1, h2, h4, h5, h6, h7, .inl ⟨h8, _, by rw [h3]; exact pair_eq h9, by decide +kernel⟩⟩

theorem ready_cc : CcReady false st1 0 launch1 0x40000000 st1c := core_ready _
theorem ready_past : CcReady true st1 0 launch1 0x40000000 st1c := core_ready _

/-- Group 0 is ready at 0x40000800, where an instruction of the integer ALU stands in the instruction cache. -/
theorem group_ready {s : State} {l : Launch}
    (h : (s.run == .up && runningLaunch s 0 == some l && l.ctx == 1 && (groupOf (tileOf s 0) 0).running &&
      (tileOf s 0).active.contains 0 && !sampleBlocked (tileOf s 0) (some 0) && leadingSet (groupOf (tileOf s 0) 0) == [0, 1] &&
      lanePc (groupOf (tileOf s 0) 0) 0 == 0x40000800 && noFaults (fetch s 0 1 0x40000800 8).1 &&
      decide ((fetch s 0 1 0x40000800 8).2 = .ok { missed := false, word := 0x0100000000000000 })) = true := by decide +kernel) :
    ThReady s 0 0 l [0, 1] 0x40000800 (fetch s 0 1 0x40000800 8).1 := by
  simp only [Bool.and_eq_true, beq_iff_eq, decide_eq_true_eq, Bool.not_eq_true'] at h
  obtain ⟨⟨⟨⟨⟨⟨⟨⟨⟨h1, h2⟩, hc⟩, h3⟩, h4⟩, h5⟩, h6⟩, h7⟩, h8⟩, h9⟩ := h
  exact ⟨h1, h2, h3, h4, h5, h6, ⟨0, [1], rfl, h7⟩, h8, _, by rw [hc]; exact pair_eq h9, rfl, by decide +kernel⟩

theorem ready_th : ThReady st1 0 0 launch1 [0, 1] 0x40000800 st1g := group_ready

/-- Accesses of context 1 to its page reach the fast tier. -/
theorem reaches {s : State} {acc : Acc} {va : DWord} {pa cp at_ : Nat}
    (h : ((match walk s 1 va with
      | .leaf e lvl a => decide (a = at_) && permits acc e && decide (targetOf lvl e va = { pa := pa, cp := cp, leaf := e })
      | .fault .. => false) && s.oldPtes.isEmpty && noFaults s && decide (regionOf pa = .fast) && !NSet.has s.dead (pa / 64)) = true := by decide +kernel) :
    Reaches s 1 acc va pa cp at_ := by
  simp only [Bool.and_eq_true, decide_eq_true_eq, Bool.not_eq_true', List.isEmpty_iff] at h
  obtain ⟨⟨⟨⟨h, ho⟩, hq⟩, hf⟩, hl⟩ := h
  refine ⟨?_, fun pick => walkPick_now ho 1 va pick, hq, hf, hl⟩
  split at h
  · rename_i e lvl a hw
    simp only [Bool.and_eq_true, decide_eq_true_eq] at h
    obtain ⟨⟨rfl, hp⟩, ht⟩ := h
    exact ⟨e, lvl, hw, hp, ht⟩
  · cases h

/-! ### Witnesses: the control core -/

theorem witness_ControlArithmetic : CcReady true st1 0 launch1 0x40000000 st1c ∧
    intFn 64 0x1D (ccReg (tileOf st1c 0) 1).val.toNat (ccReg (tileOf st1c 0) 2).val.toNat 0 = some 1 ∧ intArity 0x15 = 1 :=
  ⟨ready_past, by decide +kernel⟩

theorem reaches_load : Reaches st1c 1 .read 0x40001000 0x40001000 0 0xBC80010008 :=
  reaches

theorem reaches_store : Reaches st1c 1 .write 0x40001000 0x40001000 0 0xBC80010008 :=
  reaches

/-- Loads and stores at s5 + 0, and a misaligned one at s8 + 0. -/
theorem witness_ControlMemory : CcReady false st1 0 launch1 0x40000000 st1c ∧
    (let a := (ccReg (tileOf st1c 0) 5).val + (0 : BitVec 14).signExtend 64;
      (ccReg (tileOf st1c 0) 5).poison = false ∧ a.toNat % 8 = 0 ∧ Reaches st1c 1 .read a 0x40001000 0 0xBC80010008 ∧
      Reaches st1c 1 .write a 0x40001000 0 0xBC80010008 ∧ frozenSector st1c (0x40001000 / 64) = false ∧ missFull (tileOf st1c 0) = false) ∧
    (ccReg (tileOf st1c 0) 8).poison = false ∧ ((ccReg (tileOf st1c 0) 8).val + (0 : BitVec 14).signExtend 64).toNat % 4 ≠ 0 :=
  ⟨ready_cc, ⟨by decide, by decide, reaches_load, reaches_store, by decide⟩, by decide +kernel⟩

/-- st1 with the branch at its pc taken at a guess. -/
def st1b : State := updTile st1 0 fun t => { t with spec := some { regs := t.ccRegs, target := 0x40000008, guess := 0x40000004, done := 1 } }

theorem witness_Branches : CcReady false st1 0 launch1 0x40000000 st1c ∧ (ccReg (tileOf st1c 0) 5).poison = false ∧
    ((ccReg (tileOf st1c 0) 5).val + (0 : BitVec 14).signExtend 64).toNat % 4 = 0 ∧ (tileOf st1 0).spec = none ∧
    st1b.run = .up ∧ runningLaunch st1b 0 = some launch1 ∧ ∃ c, (tileOf st1b 0).spec = some c ∧ c.guess ≠ c.target :=
  ⟨ready_cc, by decide, by decide, by decide, by decide, by decide, _, rfl, by decide⟩

/-- G.START of group 1 alone at s5 by the mask in s7, and a wait for it and for the running group 0 by s6. -/
theorem witness_GroupStarts : CcReady false st1 0 launch1 0x40000000 st1c ∧
    (let x := fun r => ccReg (tileOf st1c 0) r;
      (x 7).poison = false ∧ (x 5).poison = false ∧ (x 5).val.toNat % 8 = 0 ∧ (tileOf st1c 0).vec.queue = [] ∧
      (tileOf st1c 0).startLeft = none ∧ (∀ g, g < 64 → (x 7).val.getLsbD g = true → (groupOf (tileOf st1c 0) g).running = false) ∧
      (x 6).val.getLsbD 0 = true ∧ (groupOf (tileOf st1c 0) 0).running = true ∧ (x 6).val.toNat < 2) :=
  ⟨ready_cc, by decide +kernel⟩

/-! ### Witnesses: thread groups -/

/-- ThFields, in a form that evaluates. -/
theorem fields {s : State} {site g : Nat} {l : Launch} {lanes : List Nat} {uses : List RegUse} {unused : List Nat}
    {dst : Option RegUse} (h : (uses.all (fun u => u.ok l.regs && (u.r == 255 || decide (u.r + u.n ≤ 255))) &&
      unused.all (· == 255) && !regBusy (groupOf (tileOf s site) g) lanes uses dst) = true := by decide +kernel) :
    ThFields s site g l lanes uses unused dst := by
  simp only [Bool.and_eq_true, List.all_eq_true, Bool.not_eq_true', beq_iff_eq, Bool.or_eq_true, decide_eq_true_eq] at h
  exact ⟨h.1.1, h.1.2, h.2⟩

/-- An operand at the last register of REGS, and a pair and a destination of 0xFF. -/
theorem witness_ThreadArithmetic : ThReady st1 0 0 launch1 [0, 1] 0x40000800 st1g ∧
    ThFields st1 0 0 launch1 [0, 1] [{ r := 31, n := 1 }, { r := 0, n := 1 }, { r := 255, n := 1 }] [255] (some { r := 31, n := 1 }) ∧
    ThFields st1 0 0 launch1 [0, 1] [{ r := 30, n := 2 }, { r := 0, n := 2 }] [255, 255] (some { r := 30, n := 2 }) ∧
    CFmt.ofCode 0 = some (.flt .f32) ∧ CFmt.ofCode 1 ≠ none ∧ floatFn 0 (RMode.ofCode 3) 0 0 0 = some 0 :=
  ⟨ready_th, fields, fields, by decide +kernel⟩

theorem witness_ThreadIllegal : ThReady st1 0 0 launch1 [0, 1] 0x40000800 st1g ∧ launch1.regs < 31 + 2 ∧ 33 % 2 ≠ 0 :=
  ⟨ready_th, by decide +kernel⟩

/-- What holds of the two lanes in turn holds of each place of the list. -/
theorem two_lanes {P : Nat → Nat → Prop} (h0 : P 0 0) (h1 : P 1 1) : ∀ k i, [0, 1][k]? = some i → P k i := by
  intro k i h
  match k with
  | 0 => cases h; exact h0
  | 1 => cases h; exact h1
  | k + 2 => cases h

def pa2 : Nat → Nat := fun i => if i = 0 then 0x40001000 else 0x40001040

/-- Loads of four bytes into r8 through the pair r4, and from the tile store at r8, which holds 0. -/
theorem witness_ThreadLoads : ThReady st1 0 0 launch1 [0, 1] 0x40000800 st1g ∧
    ThFields st1 0 0 launch1 [0, 1] [{ r := 8, n := 1 }, { r := 4, n := 2 }] [] (some { r := 8, n := 1 }) ∧
    ThFields st1 0 0 launch1 [0, 1] [{ r := 8, n := 1 }, { r := 9, n := 1 }] [] (some { r := 8, n := 1 }) ∧
    let x := groupOf (tileOf st1g 0) 0
    let va := fun i => (tpair x i 4).val + (0 : Word).signExtend 64
    let σ := after (fun s i => match tileLoad s 0 1 (va i) 4 with
      | (u, .ok (_, true)) => updTile u 0 fun t => takeMiss t 0 ((va i).toNat / 64)
      | (u, _) => u) st1g [0, 1]
    (∀ i ∈ [0, 1], (tpair x i 4).poison = false ∧ (va i).toNat % 4 = 0) ∧
    (∀ k i, [0, 1][k]? = some i → Reaches (σ k) 1 .read (va i) (pa2 i) 0 0xBC80010008 ∧ missFull (tileOf (σ k) 0) = false) ∧
    ∀ i ∈ [0, 1], (treg x i 9).poison = false ∧ ((treg x i 9).val + 0).toNat % 4 = 0 :=
  ⟨ready_th, fields, fields, by decide,
    two_lanes ⟨reaches, by decide +kernel⟩ ⟨reaches, by decide +kernel⟩,
    by decide⟩

theorem witness_ThreadStores : ThReady st1 0 0 launch1 [0, 1] 0x40000800 st1g ∧
    ThFields st1 0 0 launch1 [0, 1] [{ r := 8, n := 1 }, { r := 4, n := 2 }] [] none ∧
    ThFields st1 0 0 launch1 [0, 1] [{ r := 8, n := 1 }, { r := 9, n := 1 }] [] none ∧
    let x := groupOf (tileOf st1g 0) 0
    let va := fun i => (tpair x i 4).val + (0 : Word).signExtend 64
    let σ := after (fun s i => (tileStore s 0 (some i) 1 (va i) (tbytes x i 8 4).1 (tbytes x i 8 4).2).1) st1g [0, 1]
    (∀ i ∈ [0, 1], (tpair x i 4).poison = false ∧ (va i).toNat % 4 = 0) ∧
    (∀ k i, [0, 1][k]? = some i → Reaches (σ k) 1 .write (va i) (pa2 i) 0 0xBC80010008 ∧ frozenSector (σ k) (pa2 i / 64) = false) ∧
    ∀ i ∈ [0, 1], (treg x i 9).poison = false ∧ ((treg x i 9).val + 0).toNat % 4 = 0 :=
  ⟨ready_th, fields, fields, by decide,
    two_lanes ⟨reaches,
        by decide +kernel⟩
      ⟨reaches,
        by decide +kernel⟩,
    by decide⟩

/-- Branches and calls: a clean r9 of 0, a clean pair r4 that holds a multiple of 8, and no barrier on the tile. -/
theorem witness_ThreadControl : ThReady st1 0 0 launch1 [0, 1] 0x40000800 st1g ∧
    ThFields st1 0 0 launch1 [0, 1] [] [255, 255] none ∧ ThFields st1 0 0 launch1 [0, 1] [{ r := 9, n := 1 }] [255] none ∧
    ThFields st1 0 0 launch1 [0, 1] [{ r := 8, n := 2 }] [255] (some { r := 8, n := 2 }) ∧
    ThFields st1 0 0 launch1 [0, 1] [{ r := 8, n := 2 }, { r := 4, n := 2 }] [] (some { r := 8, n := 2 }) ∧
    let x := groupOf (tileOf st1g 0) 0
    ((0x40000800 : DWord) + (8 : Word).signExtend 64).toNat % 8 = 0 ∧ ((0x40000800 : DWord) + (4 : Word).signExtend 64).toNat % 8 ≠ 0 ∧
    (∀ i ∈ [0, 1], (treg x i 9).poison = false) ∧
    (∀ i ∈ [0, 1], (tpair x i 4).poison = false ∧ (tpair x i 4).val.toNat % 8 = 0) ∧ (tileOf st1g 0).bars = [] ∧
    ∀ k, (groupOf (tileOf st1g 0) k).gphase = none ∧ (groupOf (tileOf st1g 0) k).barWait = [] :=
  ⟨ready_th, fields, fields, fields, fields, by decide, by decide, by decide,
    by decide, by decide, fun k => by
      cases k with
      | zero => decide
      | succ k => exact ⟨rfl, rfl⟩⟩

/-- An atomic with a destination, and a reduction of both lanes; both at the pair r4. -/
theorem witness_ThreadAtomics : ThReady st1 0 0 launch1 [0, 1] 0x40000800 st1g ∧
    ThFields st1 0 0 launch1 [0, 1] [{ r := 8, n := 1 }, { r := 4, n := 2 }, { r := 9, n := 1 }] [255] (some { r := 8, n := 1 }) ∧
    ThFields st1 0 0 launch1 [0, 1] [{ r := 255, n := 1 }, { r := 4, n := 2 }, { r := 9, n := 1 }] [255] (some { r := 255, n := 1 }) ∧
    ThFields st1 0 0 launch1 [0, 1] [{ r := 4, n := 2 }] [255] none ∧
    let x := groupOf (tileOf st1g 0) 0
    let va := fun i => (tpair x i 4).val
    let σ := after (fun s i => l1Drop (atomicAt s 1 (va i) 4 0 (getSrc x i 9 32).1 0 (getSrc x i 9 32).2).1 0 (pa2 i)) st1g [0, 1]
    let ρ := after (fun s i => l1Drop (rmwTarget s 1 (va i)).1 0 (pa2 i)) st1g [0, 1]
    (∀ i ∈ [0, 1], (tpair x i 4).poison = false ∧ (va i).toNat % 4 = 0 ∧ orderedAt st1g (pa2 i) = none) ∧
    (∀ k i, [0, 1][k]? = some i → Reaches (σ k) 1 .write (va i) (pa2 i) 0 0xBC80010008 ∧ frozenSector (σ k) (pa2 i / 64) = false) ∧
    ∀ k i, [0, 1][k]? = some i → Reaches (ρ k) 1 .write (va i) (pa2 i) 0 0xBC80010008 ∧ frozenSector (ρ k) (pa2 i / 64) = false :=
  ⟨ready_th, fields, fields, fields, by decide,
    two_lanes ⟨reaches,
        by decide +kernel⟩
      ⟨reaches,
        by decide +kernel⟩,
    two_lanes ⟨reaches,
        by decide +kernel⟩
      ⟨reaches,
        by decide +kernel⟩⟩

/-- No message, no waiting reduction, no remote request; none of the thread group's either. -/
theorem witness_Fences : CcReady false st1 0 launch1 0x40000000 st1c ∧ ThReady st1 0 0 launch1 [0, 1] 0x40000800 st1g ∧
    ThFields st1 0 0 launch1 [0, 1] [] [255, 255] none ∧
    ((tileOf st1c 0).vec.queue = [] ∧ (tileOf st1c 0).msgs = [] ∧ redsLeft st1c 0 = [] ∧ st1c.sovel.held = [] ∧ st1c.remotes = []) ∧
    (tileOf st1g 0).msgs = [] ∧ redsLeft st1g 0 = [] ∧ st1g.sovel.held = [] ∧ st1g.remotes = [] :=
  ⟨ready_cc, ready_th, fields, by decide +kernel⟩

/-- st1 with group 0's pair r4 a barrier mask of group 0 alone, and its token 7 pending. -/
def st2 : State := updTile st1 0 fun t => { t with groups := [(0, { group0 with
  tokens := 0x80, regs := [(4, { val := 1, poison := false }), (260, { val := 1, poison := false })] })] }
def st2g : State := (fetch st2 0 1 0x40000800 8).1

theorem ready_st2 : ThReady st2 0 0 launch1 [0, 1] 0x40000800 st2g := group_ready

/-- A tile barrier of group 0 alone, whose lanes 0 and 1 are all that live; a mask without it (the pair r6); tokens 0x7F
clear and token 7 pending. -/
theorem witness_BarriersAndTokens : ThReady st2 0 0 launch1 [0, 1] 0x40000800 st2g ∧ (tileOf st2g 0).bars = [] ∧
    (∀ k, (groupOf (tileOf st2g 0) k).gphase = none ∧ (groupOf (tileOf st2g 0) k).barWait = []) ∧
    ThFields st2 0 0 launch1 [0, 1] [] [255, 255] none ∧ ThFields st2 0 0 launch1 [0, 1] [{ r := 4, n := 2 }] [255] none ∧
    ThFields st2 0 0 launch1 [0, 1] [{ r := 8, n := 1 }] [255] (some { r := 8, n := 1 }) ∧
    let x := groupOf (tileOf st2g 0) 0
    (∀ i ∈ [0, 1], tpair x i 4 = { val := 1, poison := false }) ∧ (∀ i ∈ [0, 1], tpair x i 6 = { val := 0, poison := false }) ∧
    (∀ k, k < 64 → (1 : DWord).getLsbD k = true → k ≠ 0 → (groupOf (tileOf st2g 0) k).running = false) ∧ liveLanes x = [0, 1] ∧
    (∀ k, k < 8 → (0x7F : Word).getLsbD k = true → x.tokens.getLsbD k = false) ∧ x.tokens.getLsbD 7 = true :=
  ⟨ready_st2, by decide, fun k => by
      cases k with
      | zero => decide
      | succ k => exact ⟨rfl, rfl⟩,
    fields, fields, fields, by decide +kernel⟩

/-- Two waits at a barrier, the older of lane 1, with the count below 2^24 and at it; and a group with a load out. -/
def stalled (n : Nat) : State := updTile st1 0 fun t => { t with groups := [(0, { group0 with
  sentinel := n, parked := true, waitsOn := some (.regs [{ r := 8, n := 1 }] none), missPend := [8], runAhead := true
  barWait := [(0, { bar := none, pc := 0x40000800, order := 2, early := false, arv := false }),
    (1, { bar := none, pc := 0x40000810, order := 1, early := false, arv := false })] })] }

theorem witness_StallsAndRunAhead : (stalled (2 ^ 24 - 1)).run = .up ∧ runningLaunch (stalled (2 ^ 24)) 0 = some launch1 ∧
    (groupOf (tileOf (stalled (2 ^ 24 - 1)) 0) 0).sentinel < 2 ^ 24 ∧
    (let x := groupOf (tileOf (stalled (2 ^ 24)) 0) 0
     2 ^ 24 ≤ x.sentinel ∧ ∃ w, NMap.find x.barWait 1 = some w ∧ (∀ j v, (j, v) ∈ x.barWait → v = w ∨ w.order < v.order) ∧
      x.missPend ≠ [] ∧ x.running = true ∧ x.parked = true ∧ ∃ uses dst, x.waitsOn = some (.regs uses dst) ∧
        regBusy { x with missPend := [] } (leadingSet x) uses dst = false) ∧ noFaults (stalled 0) = true ∧ (stalled 0).remotes = [] := by
  refine ⟨?up, ?launch, ?few, ⟨?many, _, rfl, ?_, ?miss, rfl, rfl, _, _, rfl, ?free⟩, ?quiet⟩ <;> try decide +kernel
  intro j v h
  have h : (j, v) ∈ [(0, { bar := none, pc := 0x40000800, order := 2, early := false, arv := false : BarWait }),
    (1, { bar := none, pc := 0x40000810, order := 1, early := false, arv := false })] := h
  simp at h
  rcases h with ⟨-, rfl⟩ | ⟨-, rfl⟩
  · exact .inr (by decide)
  · exact .inl rfl

/-! ### Witnesses: the matrix array -/

theorem witness_MatrixIssue : ThReady st1 0 0 launch1 [0, 1] 0x40000800 st1g ∧ (tileOf st1g 0).array.accepted.length < 16 ∧
    ThFields st1 0 0 launch1 [0, 1] [{ r := 8, n := 1 }, { r := 9, n := 1 }, { r := 255, n := 2 }] [] none ∧
    ThFields st1 0 0 launch1 [0, 1] [] [] none ∧
    let x := groupOf (tileOf st1g 0) 0
    (∀ token, token < 8 → x.tokens.getLsbD token = false) ∧ pairOk 10 11 = true ∧ mmaOptsBad 10 0 = false ∧ drainOptsBad 0 = false ∧
    (treg x 0 8).poison = false ∧ (treg x 0 8).val.toNat % 64 = 0 ∧ kindAhead (tileOf st1g 0).array 3 = .empty ∧
    drainFmt 8 = true ∧ drainAllowed .empty 8 = true :=
  ⟨ready_th, by decide, fields, fields, by decide +kernel⟩

/-- A state that has an open region, of the leading set; st1 has none. -/
def st3 : State := updTile st1 0 fun t => { t with groups := [(0, { group0 with region := some 3 })] }
def st3g : State := (fetch st3 0 1 0x40000800 8).1

theorem witness_MatrixRegions : ThReady st1 0 0 launch1 [0, 1] 0x40000800 st1g ∧ (groupOf (tileOf st1g 0) 0).region = none ∧
    ThReady st3 0 0 launch1 [0, 1] 0x40000800 st3g ∧ (groupOf (tileOf st3g 0) 0).region = some (maskOf [0, 1]) ∧
    (tileOf st3g 0).array.accepted.length < 16 ∧ ThFields st3 0 0 launch1 [0, 1] [] [] none ∧ 0 + 32 ≤ launch1.regs ∧
    regBusy (groupOf (tileOf st3 0) 0) [0, 1] [{ r := 0, n := 32 }] (some { r := 0, n := 32 }) = false ∧
    kindAhead (tileOf st3g 0).array 0 = .empty :=
  ⟨ready_th, by decide, group_ready, by decide, by decide, fields, by decide +kernel⟩

def inst (kind : MatKind) (set fed slots : Nat) : MatInst :=
  { kind := kind, set := set, opts := 0, token := 0, group := 0, mask := 3, pc := 0x40000800, count := 0, fed := fed, slots := slots
    store := [], storePoison := [], replayed := false, doomed := false, row := 0x7F, col := 0x7F, cause := .cell }

/-- st1 with instructions in the array and registers bound to token 0. -/
def armed (ms : List MatInst) : State := updTile st1 0 fun t => { t with
  array := { t.array with accepted := ms }
  groups := [(0, { group0 with tokens := 1, bound := [{ token := 0, dst := true, lo := 0, n := 32, mask := 3 }] })] }

theorem witness_DrainPath : ∀ kind ∈ [MatKind.mzero 15, .mload 15 true 64, .mdrain 8 true false 64, .ldG 3 3 0, .stG 0 0 0],
    let m := inst kind 3 0 0
    let s := armed [m]
    s.run = .up ∧ launchOn s 0 = some launch1 ∧ noFaults s = true ∧
    (tileOf s 0).array.accepted.find? (fun m => !isMma m) = some m ∧ setsFree (tileOf s 0).array m = true ∧ m.set < 4 ∧
    (groupOf (tileOf s 0) 0).bound.any (fun b => b.token == m.token) = true := by decide +kernel

theorem witness_MatrixArray : ∀ replayed : Bool,
    let m := { inst (.mma 10 10 false 0 4096) 3 64 64 with replayed := replayed }
    let s := armed [m]
    s.run = .up ∧ launchOn s 0 = some launch1 ∧ noFaults s = true ∧ (tileOf s 0).array.accepted.find? isMma = some m ∧ m.slots ≤ m.fed ∧
    m.doomed = false ∧ m.set < 4 ∧ setsFree (tileOf s 0).array m = true ∧ (tileOf s 0).array.lastAct ≤ 16 ∧ (tileOf s 0).array.winDone = none := by decide +kernel

theorem witness_IntegerMatrixProduct : (11 = 10 ∨ 11 = 11) ∧ 63 < 64 := by decide

/-! ### Witnesses: the vector engine -/

theorem witness_VectorControl : CcReady false st1 0 launch1 0x40000000 st1c ∧
    let x := fun r => ccReg (tileOf st1c 0) r
    (tileOf st1c 0).vec.queue = [] ∧ (tileOf st1c 0).vec.vl ≤ 1024 ∧ (x 6).poison = false ∧ (x 6).val.toNat < 1024 ∧ 1024 ≤ (x 5).val.toNat :=
  ⟨ready_cc, by decide +kernel⟩

def vv (op : BitVec 6) (fn : BitVec 6) (x : BitVec 6) : VInstr :=
  .vv op { vd := 4, vs1 := if op = 0x27 ∧ fn.toNat ≤ 2 then 0 else 2, x := x, sb := if op = 0x27 ∧ fn.toNat ≤ 1 then 1 else 0, rm := 0, fn := fn }

theorem witness_VectorIssue : CcReady false st1 0 launch1 0x40000000 st1c ∧ vDirect (vv 0x22 0 3) = false ∧
    vChk (vv 0x22 0 3) (tileOf st1c 0).vec.vl = none ∧ (tileOf st1c 0).vec.queue.length < 16 ∧
    vChk (vv 0x22 0x3F 3) (tileOf st1c 0).vec.vl ≠ none :=
  ⟨ready_cc, by decide +kernel⟩

/-- st1 with one vector instruction of length vl in the queue, and v1 a zeroed register. -/
def vst (i : VInstr) (vl : Nat) (scalar : T64) : State := updTile st1 0 fun t => { t with
  vec := { t.vec with queue := [{ instr := i, scalar := scalar, stride := T64.zero, vl := vl, pc := 0x40000000, srCount := 0 }] } }

/-- The head of such a queue, in a form that evaluates. -/
theorem vhead (i : VInstr) (vl : Nat) (scalar : T64) (h : vChk i vl = none) : VecHead (vst i vl scalar) 0 launch1
    { instr := i, scalar := scalar, stride := T64.zero, vl := vl, pc := 0x40000000, srCount := 0 } [] :=
  ⟨rfl, rfl, rfl, h, rfl⟩

/-- VHBIND of a bound histogram, VHREAD to a stride of 0 and VHCLR at the head of the queue. -/
theorem witness_histograms : ∀ fn ∈ [(8 : BitVec 8), 9, 10], let f : CrF := { rd := 0, rs1 := 5, rs2 := 0, fn := fn }
    ∃ e, VecHead (vst (.vc f) 0 (clean64 0x1013)) 0 launch1 e [] ∧ e.instr = .vc f ∧ e.scalar.poison = false ∧ e.stride.poison = false ∧
      e.scalar.val &&& 0xFFFFFFFFFFFFEE0C#64 = 0 ∧ e.stride.val.toNat % 64 = 0 ∧ e.stride.val.toNat + 256 ≤ launch1.store * 1024 := by
  intro fn hf
  have h : ∀ fn ∈ [(8 : BitVec 8), 9, 10], vChk (.vc { rd := 0, rs1 := 5, rs2 := 0, fn := fn }) 0 = none := by decide
  exact ⟨_, vhead _ 0 (clean64 0x1013) (h fn hf), rfl, rfl, rfl,
    (by decide : (0x1013 : DWord) &&& 0xFFFFFFFFFFFFEE0C#64 = 0), (by decide : (0 : DWord).toNat % 64 = 0), (by decide : 256 ≤ launch1.store * 1024)⟩

/-- One instruction of each class, at the greatest length that its element width has. -/
theorem witness_VectorCompute : ∀ c ∈ [(vv 0x21 0x05 3, 1024), (vv 0x22 0x03 3, 1024), (vv 0x23 0 3, 2048), (vv 0x24 1 0, 1024),
    (vv 0x25 4 0, 1024), (vv 0x25 0x14 0, 1024), (vv 0x26 0 0, 1024), (vv 0x26 0 0, 0), (vv 0x26 0x08 0, 1024), (vv 0x27 0 3, 1024),
    (vv 0x27 1 3, 2048), (vv 0x27 2 0, 1024), (vv 0x27 3 3, 1024), (vv 0x27 4 3, 1024), (vv 0x27 5 3, 1024), (vv 0x27 6 0, 1024),
    (.vs 0x27 { rd := 5, vr := 2, ri := 6, rsv := 0, fn := 0x11 }, 1024)],
    ∃ e, VecHead (vst c.1 c.2 T64.zero) 0 launch1 e [] ∧ e.instr = c.1 ∧ e.vl = c.2 ∧ e.stride.poison = false := by
  intro c hc
  have h : ∀ c ∈ [(vv 0x21 0x05 3, 1024), (vv 0x22 0x03 3, 1024), (vv 0x23 0 3, 2048), (vv 0x24 1 0, 1024),
    (vv 0x25 4 0, 1024), (vv 0x25 0x14 0, 1024), (vv 0x26 0 0, 1024), (vv 0x26 0 0, 0), (vv 0x26 0x08 0, 1024), (vv 0x27 0 3, 1024),
    (vv 0x27 1 3, 2048), (vv 0x27 2 0, 1024), (vv 0x27 3 3, 1024), (vv 0x27 4 3, 1024), (vv 0x27 5 3, 1024), (vv 0x27 6 0, 1024),
    (.vs 0x27 { rd := 5, vr := 2, ri := 6, rsv := 0, fn := 0x11 }, 1024)], vChk c.1 c.2 = none := by decide +kernel
  exact ⟨_, vhead c.1 c.2 T64.zero (h c hc), rfl, rfl, rfl⟩

/-- The elements of VPERM's index register are clean, as all of an empty unit are. -/
theorem witness_vperm : ∀ i, i < 1024 → (vGet (tileOf (vst (vv 0x27 5 3) 1024 T64.zero) 0).vec 3 4 i).bad = false := by decide +kernel

def vm (op fn : BitVec 6) : VInstr := .vm op { vd := 4, rb := 5, rt := if fn.toNat % 8 = 0 then 0 else 2, w := 0, rsv := 0, fn := fn }

/-- Two elements from the tile store, and in memory at 0x40001000. -/
theorem witness_VectorMemory : (∀ fn ∈ [0, 1, 2, 8, 9, 10], vChk (vm 0x28 fn) 2 = none ∧ vChk (vm 0x29 fn) 2 = none) ∧
    (∀ i, i < 2 → (0 + BitVec.ofNat 64 (i * 4) : DWord).toNat % 4 = 0) ∧
    (let s := vst (vm 0x29 0) 2 (clean64 0x40001000)
     let addr := fun i => (0x40001000 : DWord) + BitVec.ofNat 64 (i * 4)
     let σ := after (fun s i => (tileLoad s 0 1 (addr i) 4).1) s (List.range 2)
     VecHead s 0 launch1 { instr := vm 0x29 0, scalar := clean64 0x40001000, stride := T64.zero, vl := 2, pc := 0x40000000, srCount := 0 } [] ∧
     Reaches (σ 0) 1 .read (addr 0) 0x40001000 0 0xBC80010008 ∧ Reaches (σ 1) 1 .read (addr 1) 0x40001004 0 0xBC80010008 ∧
     missFull (tileOf (σ 1) 0) = false) ∧
    (let s := vst (vm 0x29 8) 2 (clean64 0x40001000)
     let addr := fun i => (0x40001000 : DWord) + BitVec.ofNat 64 (i * 4)
     let σ := after (fun s i => (tileStore s 0 none 1 (addr i) (leBytes (vGet (tileOf st1 0).vec 4 4 i).v 4) false).1) s (List.range 2)
     VecHead s 0 launch1 { instr := vm 0x29 8, scalar := clean64 0x40001000, stride := T64.zero, vl := 2, pc := 0x40000000, srCount := 0 } [] ∧
     Reaches (σ 0) 1 .write (addr 0) 0x40001000 0 0xBC80010008 ∧ Reaches (σ 1) 1 .write (addr 1) 0x40001004 0 0xBC80010008 ∧
     frozenSector (σ 1) (0x40001004 / 64) = false) :=
  ⟨by decide, by decide,
    ⟨vhead _ _ _ (by decide), reaches, reaches, by decide +kernel⟩,
    ⟨vhead _ _ _ (by decide), reaches, reaches, by decide +kernel⟩⟩

/-! ### Witnesses: the device allocator -/

/-- A heap at 0x40010000, bound to slot 0 of context 1, of 16 KiB: a live block of 256 bytes at each of 0 and 0x100, and the
rest free; a second one, in slot 1, at an address that is not mapped. -/
def hst : State := { st1 with
  ctxs := [(0, Ctx.zero), (1, { ctxOf st1 1 with heap0 := 0x00100005, heap1 := 0x00100006 })]
  objs := [(5, { Obj.empty with state := .live, kind := .heap, owner := 1, w1 := 0x40010000 }),
    (6, { Obj.empty with state := .live, kind := .heap, owner := 1, w1 := 0x80010000 })]
  heaps := [(5, { book := 0x40020000, free := [(0x200, 9), (0x400, 10), (0x800, 11), (0x1000, 12), (0x2000, 13)], live := [(0, 8), (0x100, 8)] }),
    (6, { book := 0x80020000, free := [(0, 14)], live := [] })]
  tiles := [(0, { tile1 with
    ccRegs := [(5, clean64 0x40010000), (6, clean64 300), (7, clean64 0x40010001)]
    groups := [(0, { group0 with regs := [(4, { val := 0x40010000, poison := false }), (6, { val := 300, poison := false }),
      (260, { val := 0x40010100, poison := false }), (262, { val := 257, poison := false })] })] })] }
def hstc : State := (fetch hst 0 1 0x40000000 4).1
def hstg : State := (fetch hst 0 1 0x40000800 8).1

theorem ready_hst : CcReady false hst 0 launch1 0x40000000 hstc := core_ready _

theorem ready_hstg : ThReady hst 0 0 launch1 [0, 1] 0x40000800 hstg := group_ready

/-- The block taken for 300 bytes is the smallest, then lowest, that serves; slots 2 and 3 are unbound; a live block starts at
s5 and none at s7; HALLOC.Z of slot 0 zeroes, and of slot 1 faults at the page that is not mapped. -/
theorem witness_Allocator : CcReady false hst 0 launch1 0x40000000 hstc ∧ ThReady hst 0 0 launch1 [0, 1] 0x40000800 hstg ∧
    ThFields hst 0 0 launch1 [0, 1] [{ r := 8, n := 2 }, { r := 6, n := 1 }] [255, 255] (some { r := 8, n := 2 }) ∧
    ThFields hst 0 0 launch1 [0, 1] [{ r := 4, n := 2 }] [255, 255, 255] none ∧
    (let σ := after (fun s i => (hfree s 1 (tpair (groupOf (tileOf hstg 0) 0) i 4).val).getD s) hstg [0, 1]
     ∀ k i, [0, 1][k]? = some i → (hfree (σ k) 1 (tpair (groupOf (tileOf hstg 0) 0) i 4).val).isSome = true) ∧
    boundHeap hst 1 2 = none ∧ boundHeap hst 1 0 = some 5 ∧ (300 : Nat) ≤ 2 ^ 26 ∧
    ((0x200, 9) ∈ (heapOf hst 5).free ∧ ∀ c ∈ (heapOf hst 5).free, 9 ≤ c.2 → 9 < c.2 ∨ (9 = c.2 ∧ 0x200 ≤ c.1)) ∧
    (∀ b ∈ (heapOf hst 5).free, b.2 < 14) ∧ ((0, 8) ∈ (heapOf hst 5).live ∧ ∀ b ∈ (heapOf hst 5).live, b.1 = 0 → b = (0, 8)) ∧
    (heapOf hst 5).free.Nodup ∧ (hfree hst 1 0x40010000).isSome = true ∧ hfree hst 1 0x40010001 = none ∧
    (let r := halloc hstc 1 0 300
     (zeroBlock r.1 1 r.2.toNat 512).2 = .ok ()) ∧
    (let r := halloc hstc 1 1 300
     (match (zeroBlock r.1 1 r.2.toNat 512).2 with | .fault .. => true | _ => false) = true) :=
  ⟨ready_hst, ready_hstg, fields, fields, two_lanes (by decide) (by decide), by decide +kernel⟩

/-! ### Witnesses: streams, batons and messages -/

def launch2 : Launch := { launch1 with sites := [0, 1] }

/-- A descriptor of a kind, one row of 64 bytes: memory at 0x40001000, or fabric offset 0x1000, against tile-store
offset 256, or offset 256 of tile 1; FROZEN where it may be. -/
def descBytes (kind : Nat) (frozen : Bool) : List Byte :=
  let src : DWord := if kind = 0 ∨ kind = 3 then 0x40001000 else if kind = 4 then 0x1000 else 0x100
  let dst : DWord := if kind = 1 then 0x40001000 else if kind = 3 then 0 else if kind = 5 then 0x1000 else 0x100
  leBytes src.toNat 8 ++ leBytes dst.toNat 8 ++ leBytes 0 8 ++ leBytes 64 8 ++ leBytes (if kind = 2 then 1 else 0) 8 ++ leBytes 0 8 ++
    leBytes (if frozen then 2 ^ 63 else 0) 8 ++ leBytes 0 8

/-- st1 with such a descriptor at offset 64, which s10 and r10 name, and slot 63, which s11 and r11 name. -/
def sst (kind : Nat) (frozen : Bool) : State := { st1 with
  launches := [launch2]
  tiles := [(0, { tile1 with
    store := memPut [] 64 (descBytes kind frozen), ccRegs := [(10, clean64 64), (11, clean64 63)]
    groups := [(0, { group0 with regs := [(10, { val := 64, poison := false }), (11, { val := 63, poison := false })] })] })] }

theorem ready_sst (kind : Nat) (h : kind < 6) (frozen : Bool) :
    CcReady false (sst kind frozen) 0 launch2 0x40000000 (fetch (sst kind frozen) 0 1 0x40000000 4).1 := by
  apply core_ready
  revert kind frozen
  decide +kernel

theorem ready_sstg : ThReady (sst 0 false) 0 0 launch2 [0, 1] 0x40000800 (fetch (sst 0 false) 0 1 0x40000800 8).1 := group_ready

def descAt (s : State) (kind : Nat) : Strm :=
  let word := fun i => BitVec.ofNat 64 (leNat ((List.range 8).map fun j => storeByte (tileOf s 0) (64 + 8 * i + j)))
  { kind := kind, d0 := word 0, d1 := word 1, d2 := word 2, d3 := word 3, d4 := word 4, d5 := word 5, d6 := word 6, d7 := word 7
    pc := 0x40000000, group := none, st := .active, next := 0, issued := [], failed := [], frozen := [], seen := [] }

/-- A legal descriptor of each kind, FROZEN ones of the two kinds that have it; as a descriptor of kind 2 that of kind 0 is
malformed. -/
theorem witness_StreamInstructions : (∀ kind, kind < 6 → ∀ frozen : Bool, (frozen = true → kind = 0 ∨ kind = 3) →
      CcReady false (sst kind frozen) 0 launch2 0x40000000 (fetch (sst kind frozen) 0 1 0x40000000 4).1) ∧
    (∀ kind, kind < 6 → ∀ frozen : Bool, (frozen = true → kind = 0 ∨ kind = 3) →
      let s1 := (fetch (sst kind frozen) 0 1 0x40000000 4).1
      let t := tileOf s1 0
      (ccReg t 10).val = 64 ∧ (ccReg t 11).val.toNat = 63 ∧ NMap.find t.streams 63 = none ∧ 64 + 64 ≤ launch2.store * 1024 ∧
      NSet.has t.storePoison 1 = false ∧ descReason launch2 t.index (descAt s1 kind) = none ∧ (descAt s1 kind).d6.getLsbD 63 = frozen ∧
      freezesHeld (setStrm s1 0 63 { descAt s1 kind with st := .waitFreeze }) < 256) ∧
    descReason launch2 0 (descAt (sst 0 false) 2) = some 1 ∧ ThReady (sst 0 false) 0 0 launch2 [0, 1] 0x40000800 (fetch (sst 0 false) 0 1 0x40000800 8).1 ∧
    ThFields (sst 0 false) 0 0 launch2 [0, 1] [{ r := 10, n := 1 }, { r := 11, n := 1 }] [255, 255] none :=
  ⟨fun k h f _ => ready_sst k h f, by decide +kernel, by decide +kernel, ready_sstg, fields⟩

/-- st1 with a stream of a kind in slot 3, one row of 64 bytes, some requests of it issued and the next at next. -/
def eng (kind next : Nat) (issued : List Nat) (st : StrmState) (d5 d6 : DWord) (d0 d1 : DWord) : State := updTile st1 0 fun t => { t with
  streams := [(3, { kind := kind, d0 := d0, d1 := d1, d2 := 0, d3 := 64, d4 := 0, d5 := d5, d6 := d6, d7 := 0, pc := 0x40000000
                    group := none, st := st, next := next, issued := issued, failed := [], frozen := [], seen := [] })] }
def engX (s : State) : Strm := ((NMap.find (tileOf s 0).streams 3).getD (descAt s 0))

/-- A stream that waits for a freeze; one with its request to issue; a get and a put with a request out; and one that has
completed its moves, with a baton to queue 15. -/
theorem witness_StreamEngine :
    (let s := eng 0 0 [] .waitFreeze 0 (0x8000000000000000 : DWord) 0x40001000 0x100
     s.run = .up ∧ runningLaunch s 0 = some launch1 ∧ noFaults s = true ∧ (engX s).st = .waitFreeze ∧ freezesHeld s < 256) ∧
    (let s := eng 0 0 [] .active 0 0 0x40001000 0x100
     ((tileOf s 0).streams.map fun e => e.2.issued.length).sum < 1536 ∧ (tileOf s 0).streams = [(3, engX s)] ∧
      (engX s).next / 2 ^ 24 ≤ (engX s).d3.toNat / 2 ^ 24 % 2 ^ 20) ∧
    (let s := eng 0 0x1000000 [0] .active 0 0 0x40001000 0x100
     Reaches s 1 .read ((engX s).srcAddr 0) 0x40001000 0 0xBC80010008 ∧ 0 ∈ (engX s).issued ∧ (engX s).sHint ≠ 2 ∧
      NMap.find (engX s).seen (0x40001000 / 64) = none ∧ (engX s).reqBytes 0 = 64 ∧
      ((engX s).dstAddr 0).toNat + 64 ≤ launch1.store * 1024) ∧
    (let s := eng 1 0x1000000 [0] .active 0 0 0x100 0x40001000
     Reaches s 1 .write ((engX s).dstAddr 0) 0x40001000 0 0xBC80010008 ∧ 0 ∈ (engX s).issued ∧
      NMap.find (engX s).seen (0x100 / 64) = none ∧ (engX s).reqBytes 0 = 64 ∧
      frozenSector s (0x40001000 / 64) = false ∧ ((engX s).srcAddr 0).toNat + 64 ≤ launch1.store * 1024) ∧
    (let s := eng 0 0x1000000 [] .active (0xF800000000000000 : DWord) 0 0x40001000 0x100
     (engX s).st = .active ∧ (engX s).moved = true ∧ (engX s).sHint ≠ 2 ∧ (engX s).bp = true ∧
      launch1.sites[(engX s).d5.toNat / 2 ^ 50 % 512]? = some 0 ∧ (engX s).d5.toNat / 2 ^ 59 % 16 = 15 ∧ deferredBefore s 0 15 s.reqCtr = false) :=
  ⟨by decide +kernel, by decide +kernel, ⟨reaches, by decide +kernel⟩, ⟨reaches, by decide +kernel⟩, by decide +kernel⟩

/-- st1 with a baton in queue 2 and 64 in queue 4, queue 5 armed for group 1 and holding a baton, and a deferred baton for
queue 2; s10 is a baton, s11 to s14 queue operands, s15 a BATON.PUT destination and s16 a BQ.ARM operand. -/
def bst : State := updTile st1 0 fun t => { t with
  bqs := [(2, { items := [clean64 0x40], armed := none }), (4, { items := List.replicate 64 (clean64 0), armed := none }),
    (5, { items := [clean64 0x80], armed := some (0x40000800, 1) })]
  deferred := [{ slot := some 3, site := 0, queue := 2, baton := clean64 0xC0, order := 0 }]
  ccRegs := [(10, clean64 0x40), (11, clean64 2), (12, clean64 15), (13, clean64 16), (15, clean64 0x20000), (16, clean64 0x102), (17, clean64 0x40000800)]
  groups := [(0, { group0 with regs := [(10, { val := 0x40, poison := false }), (12, { val := 2, poison := false }), (14, { val := 0x20000, poison := false }),
    (266, { val := 0x80, poison := false }), (268, { val := 4, poison := false }), (270, { val := 0x20000, poison := false })] })] }
def bstc : State := (fetch bst 0 1 0x40000000 4).1
def bstg : State := (fetch bst 0 1 0x40000800 8).1

theorem ready_bst : CcReady false bst 0 launch1 0x40000000 bstc := core_ready _

theorem ready_bstg : ThReady bst 0 0 launch1 [0, 1] 0x40000800 bstg := group_ready

/-- Operands of BATON.PUT, TAKE, TRY, BQ.COUNT, ARM and DISARM on both sides of each bound; both lanes take, of queues 2 and 4. -/
theorem witness_Batons : CcReady false bst 0 launch1 0x40000000 bstc ∧ ThReady bst 0 0 launch1 [0, 1] 0x40000800 bstg ∧
    (let t := tileOf bstc 0
     let x := fun r => (ccReg t r).val
     (x 10).toNat % 64 = 0 ∧ x 15 &&& 0xFFFFFFFFFFF0FE00#64 = 0 ∧ launch1.sites[(x 15).toNat % 512]? = some 0 ∧ (bqOf t 2).items.length < 64 ∧
      (x 11).toNat % 64 ≠ 0 ∧ (bqOf t 2).armed = none ∧ (bqOf t 2).items ≠ [] ∧ (bqOf t 15).items = [] ∧ 16 ≤ (x 13).toNat ∧
      x 16 &&& 0xFFFFFFFFFFFFC0F0#64 = 0 ∧ (x 16).toNat / 256 % 64 < launch1.groups ∧ (x 17).toNat % 8 = 0 ∧ (bqOf t 5).armed ≠ none) ∧
    (let x := groupOf (tileOf bstg 0) 0
     x.laneDone &&& maskOf [0, 1] = 0 ∧ (∀ i ∈ [0, 1], (tpair x i 10).val.toNat % 64 = 0 ∧ (tpair x i 14).val &&& 0xFFFFFFFFFFF0FE00#64 = 0) ∧
      (bqOf (tileOf bstg 0) (treg x 0 12).val.toNat).items ≠ [] ∧ (bqOf (tileOf bstg 0) (treg x 1 12).val.toNat).items ≠ []) ∧
    ThFields bst 0 0 launch1 [0, 1] [{ r := 10, n := 2 }, { r := 14, n := 2 }] [255, 255] none ∧
    ThFields bst 0 0 launch1 [0, 1] [{ r := 8, n := 2 }, { r := 12, n := 1 }] [255, 255] (some { r := 8, n := 2 }) ∧
    (let t := tileOf bst 0
     (bqOf t 5).armed = some (0x40000800, 1) ∧ (bqOf t 5).items = [clean64 0x80] ∧ (groupOf t 1).running = false ∧ t.deferred.length = 1 ∧ deferredBefore bst 0 2 0 = false) ∧
    ∀ k, k < 16 → k ≠ 5 → (bqOf (tileOf bst 0) k).armed = none :=
  ⟨ready_bst, ready_bstg, by decide +kernel, by decide +kernel, fields, fields, by decide +kernel⟩

/-- st1 with message operands: to tile 0 at offset 0x80, 64 bytes (s10, r12 quad), to memory (s12), and a reserved DKIND (s14). -/
def mst : State := updTile st1 0 fun t => { t with
  ccRegs := [(10, clean64 (0x3000000000000080 : DWord)), (12, clean64 (0x7000000040001000 : DWord)), (14, clean64 (0xF000000000000000 : DWord))]
  groups := [(0, { group0 with regs := [(12, { val := 0x80, poison := false }), (13, { val := 0x10000000, poison := false }),
    (268, { val := 0x80, poison := false }), (269, { val := 0x10000000, poison := false })] })] }
def mstc : State := (fetch mst 0 1 0x40000000 4).1
def mstg : State := (fetch mst 0 1 0x40000800 8).1

theorem ready_mst : CcReady false mst 0 launch1 0x40000000 mstc := core_ready _

theorem ready_mstg : ThReady mst 0 0 launch1 [0, 1] 0x40000800 mstg := group_ready

/-- st1 with messages on the path: to tile 0, then to memory. -/
def msgs (ws : List DWord) : State := updTile st1 0 fun t => { t with msgs := ws.map fun w =>
  { issuer := none, w0 := w, w1 := 0, payload := List.replicate 4 0x5A, poison := false, pc := 0x40000000 } }

theorem witness_Messages : CcReady false mst 0 launch1 0x40000000 mstc ∧ ThReady mst 0 0 launch1 [0, 1] 0x40000800 mstg ∧
    ThFields mst 0 0 launch1 [0, 1] [{ r := 8, n := 1 }, { r := 12, n := 4 }] [255, 255] (some { r := 8, n := 1 }) ∧
    (let s := msgs [0x5000000040001000]
     Reaches s 1 .write 0x40001000 0x40001000 0 0xBC80010008 ∧ frozenSector s (0x40001000 / 64) = false) ∧
    (∀ r ∈ [10, 12], let d := ccDest (tileOf mstc 0) r
      d.poison = false ∧ destRsv d false = false ∧ d.addr.toNat % d.len = 0 ∧ d.len = 64 ∧ (d.dkind = 0 → d.tile < launch1.sites.length) ∧ d.dkind ≠ 2) ∧
    destRsv (ccDest (tileOf mstc 0) 10) true = false ∧ 40 + (64 + 7) / 8 ≤ 64 ∧ destRsv (ccDest (tileOf mstc 0) 14) false = true ∧
    msgsInFlight mstc 0 < 64 ∧ (tileOf mstc 0).msgs = [] ∧ mstc.remotes = [] ∧ 0x80 + 64 ≤ launch1.store * 1024 ∧
    (let x := groupOf (tileOf mstg 0) 0
     x.laneDone &&& maskOf [0, 1] = 0 ∧ msgsInFlight mstg 0 + 2 ≤ 64 ∧ msgRegs mst 0 0 12 = 1 ∧
      ∀ i ∈ [0, 1], let d := thDest x i 12
        d.poison = false ∧ destRsv d true = false ∧ d.addr.toNat % d.len = 0 ∧ d.dkind = 0 ∧ d.tile = 0) ∧
    (let s := msgs [0x1000000000000080, 0x1000000000000040]
     s.run = .up ∧ runningLaunch s 0 = some launch1 ∧ noFaults s = true ∧ 0x80 + 4 ≤ launch1.store * 1024 ∧
      sameGoal 0x1000000000000080 0 0x1000000000000040 0 = true) :=
  ⟨ready_mst, ready_mstg, fields, ⟨reaches, by decide +kernel⟩, by decide +kernel⟩

/-! ### Witnesses: commands of the queues -/

def ref0 (index : Nat) : CmdRef := { ctx := 0, queue := 0, index := index, lpos := 0 }

def kcmd (r : CmdRef) (op : Byte) (phase : Phase) (w0 w1 w2 w3 : DWord) : Cmd :=
  { ref := r, order := 0, pktAddr := 0, opcode := op, notify := false, serial := false, ignerr := false, tag := 0, wfence := 0, sfence := 0
    wval := 0, sval := 0, w0 := w0, w1 := w1, w2 := w2, w3 := w3, refs := [], waits := none, phase := phase, passed := 0, status := 0
    code := 0, result := 0, errSignal := 0, stopped := false, pos := 0 }

/-- A started command of context 0. -/
def k0 (op : Byte) (w0 w1 w2 w3 : DWord) : Cmd := kcmd (ref0 0) op .started w0 w1 w2 w3

/-- Context 0 runs, so a command of it that has started may go on. -/
theorem runs {s : State} {k : Cmd} (op : Nat) (up : s.run = .up) (hc : cmdOf s (ref0 0) = some k) (hp : k.phase = .started)
    (ho : k.opcode.toNat = op) (hs : k.stopped = false) (hx : (ctxOf s 0).state = .active) : Runs s (ref0 0) op k :=
  ⟨up, hc, hp, ho, hs, .inl hx⟩

def kst (k : Cmd) : State := { st1 with cmds := [k] }

theorem runs_kst (op : Byte) (w0 w1 w2 w3 : DWord) : Runs (kst (k0 op w0 w1 w2 w3)) (ref0 0) op.toNat (k0 op w0 w1 w2 w3) :=
  runs _ rfl rfl rfl rfl rfl rfl

/-- st1 with queue 1 of context 1: rings of 64 entries at 0xC000000000 and 0xC000001000 (R65), bound, with a packet at HEAD
that has the given first byte; queue 2 waits for a slot. -/
def rst (op : Byte) (queue : Queue) (poisoned : List Nat) : State := { st1 with
  mem := memPut st1.mem 0xC000000007 [op], poison := poisoned
  objs := [(7, { Obj.empty with state := .live, kind := .ring, owner := 1, w1 := 0xC000000000, w2 := 0xC000001000 })]
  queues := [(0, Queue.zero), (17, queue), (18, { Queue.empty with qstate := .enabled, ring := 0x00100007 })]
  waiting := [18] }
def rq (head tail : Word) : Queue := { Queue.empty with
  qstate := .enabled, engine := 1, bound := true, slot := 5, ring := 0x00100007, head := head, tail := tail }

/-- A doorbell that moves TAIL by the whole ring of 64, one that goes back and one that goes beyond; and packets at HEAD: a
NOP, an unknown opcode, one that an abort has won and one in a poisoned sector. -/
theorem witness_FrontEnd : (let s := rst 1 (rq 0 0) []
     s.run = .up ∧ linkUp s = true ∧ (ctxOf s 1).state = .active ∧ (queueOf s 1 1).qstate ≠ .disabled ∧ (queueOf s 1 1).bootRings = false ∧
      ringMarked s (queueOf s 1 1) = false ∧ ((64 : Word) - 0).toNat ≤ 2 ^ (6 + (ringsOf s (queueOf s 1 1)).1) ∧
      2 ^ 31 ≤ ((0 : Word) - 1).toNat ∧ 2 ^ (6 + (ringsOf s (queueOf s 1 1)).1) < ((65 : Word) - 0).toNat ∧
      s.waiting = [18] ∧ (usedSlots s).length < 16384) ∧
    (∀ b : Bool, let op : Byte := if b then 1 else 0xFF
     let s := rst op (rq 0 1) []
     let p := RawPacket.ofBytes (cohBytes s 0xC000000000 64)
     mayParse s 1 1 = true ∧ (queueOf s 1 1).lists = none ∧ (queueOf s 1 1).head ≠ (queueOf s 1 1).tail ∧ cohPoison s 0xC000000000 = false ∧
      (packetFault s 1 (queueOf s 1 1) p false).isNone = (op == 1) ∧ refsFull s { ctx := 1, queue := 1, index := 0, lpos := 0 } p = false ∧
      p.wfence = 0 ∧ s.doomed = []) ∧
    cohPoison (rst 1 (rq 0 1) [0xC000000000 / 64]) 0xC000000000 = true ∧ mayParse (rst 1 (rq 0 1) [0xC000000000 / 64]) 1 1 = true :=
  by decide +kernel

/-- A ready FILL of queue 1 of context 1, passed over n times, beside a ready one of context 0, and a ready control command. -/
def ast (n : Nat) : State := { rst 1 (rq 1 1) [] with
  queues := [(0, { Queue.zero with bound := true }), (17, rq 1 1)]
  cmds := [kcmd { ctx := 1, queue := 1, index := 0, lpos := 0 } 0x29 .waiting 0 0 0 0, { kcmd (ref0 0) 0x29 .waiting 0 0 0 0 with passed := n }] }

theorem witness_Arbitration : (readyOf (ast 1023) 1).length = 2 ∧ (∀ k ∈ readyOf (ast 1023) 1, k.passed < 1024) ∧
    (∃ k ∈ readyOf (ast 1024) 1, 1024 ≤ k.passed) ∧ readyOf (ast 0) 2 = [] ∧
    (let s := { ast 0 with cmds := [kcmd (ref0 0) 1 .waiting 0 0 0 0] }
     readyHead s 0 0 = some (kcmd (ref0 0) 1 .waiting 0 0 0 0) ∧ opClass 1 = some none) := by decide +kernel

/-- A completed command without, and one with, a fence to signal; the fence has a wait of 2 on it. -/
def dst (sfence : Word) : State := { rst 1 (rq 1 1) [] with
  waiting := []
  objs := [(7, { Obj.empty with state := .live, kind := .ring, owner := 1, w1 := 0xC000000000, w2 := 0xC000001000 }),
    (8, { Obj.empty with state := .live, kind := .fence, owner := 1 })]
  cmds := [{ kcmd { ctx := 1, queue := 1, index := 0, lpos := 0 } 0x29 .done 0 0 0 0 with sfence := sfence, sval := 1 },
    { kcmd (ref0 0) 0x29 .waiting 0 0 0 0 with waits := some 8, wval := 2 }] }

/-- The same commands with context 1 FAULTED. -/
def fst1 (sfence : Word) : State := { dst sfence with ctxs := [(0, Ctx.zero), (1, { ctxOf st1 1 with state := .faulted })] }

theorem witness_Retirement : (∀ b : Bool, let sfence : Word := if b then 0x00100008 else 0
     let s := dst sfence
     let c : CmdRef := { ctx := 1, queue := 1, index := 0, lpos := 0 }
     s.run = .up ∧ linkUp s = true ∧ (∃ k ∈ s.cmds, cmdOf s c = some k ∧ k.phase = .done ∧ k.opcode ≠ 3 ∧ k.sfence = sfence ∧ k.notify = false ∧
       k.refs = [] ∧ k.status = 0 ∧ k.errSignal = 0) ∧ s.waiting = [] ∧ s.heldGroups = [] ∧ s.updRuns = [] ∧ s.halts = [] ∧
       s.collRuns = [] ∧ (ctxOf s 1).state = .active) ∧ (∃ k ∈ (fst1 1).cmds, k.phase = .done ∧ (ctxOf (fst1 1) k.ref.ctx).state = .faulted) ∧
    fenceStands (dst 0x00100008) 0x00100008 = true ∧
    (∃ k ∈ (signalFence (dst 0) 8 1 none).cmds, k.waits = some 8 ∧ k.phase = .waiting ∧
      (ctxOf (signalFence (dst 0) 8 1 none) k.ref.ctx).state ≠ .faulted) := by decide +kernel

/-- Context 1 with a fault ring of 64 records at 0x40002000, one place left, and the same ring full. -/
def fullRing (prod : Word) : State := { st1 with
  ctxs := [(0, Ctx.zero), (1, { ctxOf st1 1 with frset := true, frbase := 0x1000080, frprod := prod })] }

theorem witness_ContextFault : isClassF 0x08 = true ∧ isClassF 0x53 = true ∧ (∀ b : Bool, let s := fullRing (if b then 64 else 63)
     let d := ctxOf s 1
     s.run = .up ∧ d.state = .active ∧ (d.frprod - d.frcons).toNat ≤ 2 ^ (6 + d.frsize.toNat) ∧ d.frset = true ∧
      d.frbase.toNat * 64 + d.frprod.toNat % 2 ^ (6 + d.frsize.toNat) * 64 < 0xBC00000000) := by decide +kernel

/-- CTX_CREATE of the highest free context, CTX_CONFIG and XLAT_INVAL of context 1 and QUEUE_CONFIG of its idle queue 0 with a new
ring, which suits. -/
theorem witness_ContextConfiguration : (Runs (kst (k0 0x10 0xFFF 0 0 0)) (ref0 0) 0x10 (k0 0x10 0xFFF 0 0 0) ∧
      (ctxOf (kst (k0 0x10 0xFFF 0 0 0)) 0xFFF).state = .free ∧ (ctxOf (kst (k0 0x10 1 0 0 0)) 1).state ≠ .free) ∧
    (Runs (kst (k0 0x11 1 0xFF 0 0)) (ref0 0) 0x11 (k0 0x11 1 0xFF 0 0) ∧ (ctxOf (kst (k0 0x11 1 0xFF 0 0)) 1).state = .active) ∧
    (Runs (kst (k0 0x17 1 0 1 0)) (ref0 0) 0x17 (k0 0x17 1 0 1 0)) ∧
    (let s := { rst 1 (rq 0 0) [] with cmds := [k0 0x16 0x1001 0x00100007 0 0] }
     Runs s (ref0 0) 0x16 (k0 0x16 0x1001 0x00100007 0 0)) ∧
    (let s := { rst 1 (rq 0 0) [] with
       cmds := [k0 0x16 0x1001 0x00100007 0 0], queues := [(0, Queue.zero)]
       objs := [(7, { Obj.empty with state := .live, kind := .ring, owner := 1, w1 := 0x100000C000000000, w2 := 0xC000001000 })] }
     Runs s (ref0 0) 0x16 (k0 0x16 0x1001 0x00100007 0 0) ∧ (objOf s 7).owner.toNat = 1 ∧ (objOf s 7).w1.toNat / 2 ^ 60 = 1 ∧
      (queueOf s 1 1).head = (queueOf s 1 1).tail ∧ (queueOf s 1 1).outst = 0) :=
  ⟨⟨runs_kst .., rfl, by decide⟩, ⟨runs_kst .., rfl⟩, runs_kst .., runs _ rfl rfl rfl rfl rfl rfl,
    runs _ rfl rfl rfl rfl rfl rfl, by decide +kernel⟩

/-- A control command on context 1 in a state, with other commands beside it. -/
def cst (k : Cmd) (st : CtxState) (more : List Cmd) : State := { st1 with
  cmds := k :: more, ctxs := [(0, Ctx.zero), (1, { ctxOf st1 1 with state := st })]
  objs := [(9, { Obj.empty with state := .live, owner := 0, w2 := 0x100 })] }

theorem runs_cst (op : Byte) (pos : Nat) (w0 w1 : DWord) (st : CtxState) (more : List Cmd) :
    Runs (cst { k0 op w0 w1 0 0 with pos := pos } st more) (ref0 0) op.toNat { k0 op w0 w1 0 0 with pos := pos } :=
  runs _ rfl rfl rfl rfl rfl rfl

/-- CTX_SUSPEND before it acts, once its tiles are ready and once nothing runs; CTX_RESUME, CONTEXT_KILL, FAULT_RESUME with a standing halt and
CMD_ABORT of a target that has started, one that is not parsed and one beyond TAIL. -/
theorem witness_ContextControl : Runs (cst { k0 0x12 1 0x00100009 0 0 with pos := 0 } .active []) (ref0 0) 0x12 { k0 0x12 1 0x00100009 0 0 with pos := 0 } ∧
    Runs (cst { k0 0x13 1 0 0 0 with pos := 0 } .suspended []) (ref0 0) 0x13 { k0 0x13 1 0 0 0 with pos := 0 } ∧
    Runs (cst { k0 0x14 1 0 0 0 with pos := 0 } .faulted []) (ref0 0) 0x14 { k0 0x14 1 0 0 0 with pos := 0 } ∧
    Runs (cst { k0 0x15 1 5 0 0 with pos := 0 } .active []) (ref0 0) 0x15 { k0 0x15 1 5 0 0 with pos := 0 } ∧
    (let s := cst (k0 0x12 1 0x00100009 0 0) .active []
     saveBytes * tilesHeld s 1 ≤ (objOf s 9).w2.toNat % 2 ^ 32 * 65536) ∧
    (let s := { cst { k0 0x12 1 0x00100009 0 0 with pos := 1 } .suspended [] with launches := [{ launch1 with ended := [0] }] }
     (∀ e ∈ s.tiles, heldBy 1 e.2 = true → saveReady s e = true) ∧ (∃ e ∈ s.tiles, heldBy 1 e.2 = true) ∧
      (fillBuffer s (objOf s 9) (saveBytes * tilesHeld s 1)).2 = .ok ()) ∧
    (let s := cst { k0 0x12 1 0x00100009 0 0 with pos := 2 } .suspended []
     ∀ x ∈ s.cmds, x.ref.ctx = 1 → stillRuns s x = false) ∧
    (let s := { cst (k0 0x13 1 0 0 0) .suspended [] with launches := [] }
     suspending s 1 = false ∧ ∀ l ∈ s.launches, l.ctx ≠ 1) ∧
    (let s := { cst (k0 0x15 1 5 0 0) .active [] with halts := [{ ctx := 1, queue := 2, seq := 5, what := .stream 0 3 }] }
     ∃ h, s.halts = [h] ∧ h.ctx = 1 ∧ h.seq = (5 : DWord).extractLsb' 0 32) ∧
    (let target : CmdRef := { ctx := 1, queue := 1, index := 0, lpos := 0 }
     let s := { cst (k0 0x1B 0x1001 0 0 0) .active [kcmd target 0x29 .started 0 0 0 0] with queues := [(0, Queue.zero), (17, rq 1 2)] }
     Runs s (ref0 0) 0x1B (k0 0x1B 0x1001 0 0 0) ∧ 2 ^ 31 ≤ ((0 : Word) - (queueOf s 1 1).tail).toNat ∧ target ≠ ref0 0 ∧
      cmdOf s target = some (kcmd target 0x29 .started 0 0 0 0) ∧ committed s target = false ∧
      (((1 : Word) - (queueOf s 1 1).head).toNat < 2 ^ 31 ∧ cmdOf s { target with index := 1 } = none) ∧ ((2 : Word) - (queueOf s 1 1).tail).toNat < 2 ^ 31) :=
  ⟨runs_cst .., runs_cst .., runs_cst .., runs_cst .., by decide +kernel, by decide +kernel, by decide +kernel, by decide +kernel,
    ⟨_, rfl, by decide⟩, runs _ rfl rfl rfl rfl rfl rfl, by decide +kernel⟩

/-- Context 1 KILLING, then SCRUBBING, and entry 5 of it in the state of each step of its release. -/
def tst (st : CtxState) (o : Obj) : State := { st1 with ctxs := [(0, Ctx.zero), (1, { ctxOf st1 1 with state := st })], objs := [(5, o)] }
def obj5 (kind : ObjKind) : Obj := { Obj.empty with state := .freePending, kind := kind, owner := 1, w1 := 0x40010000, w2 := 1 }

theorem witness_Teardown : (let s := tst .killing (obj5 .buffer)
     s.run = .up ∧ (∀ k ∈ s.cmds, k.ref.ctx ≠ 1) ∧ s.groups = [] ∧ NMap.risingFrom 0 s.objs = true ∧ (ctxOf s 1).state = .killing) ∧
    (let s := { tst .killing Obj.empty with
       objs := [(5, { Obj.empty with state := .live, kind := .fence, owner := 1 })]
       cmds := [{ kcmd (ref0 0) 0x29 .waiting 0 0 0 0 with waits := some 5 }] }
     let x := { kcmd (ref0 0) 0x29 .waiting 0 0 0 0 with waits := some 5 }
     s.cmds = [x] ∧ s.objs = [(5, objOf s 5)] ∧ (objOf s 5).state = .live ∧ (objOf s 5).kind = .fence ∧ (objOf s 5).owner.toNat = 1 ∧
      (objOf s 5).w2.toNat / 2 ^ 48 % 2 ^ 8 = 0 ∧ x.waits = some 5 ∧ x.phase = .waiting ∧ x.ignerr = false ∧ x.ref.ctx ≠ 1 ∧
      (ctxOf s x.ref.ctx).state = .active) ∧
    (let s := tst .scrubbing Obj.empty
     (ctxOf s 1).state = .scrubbing ∧ (∀ e ∈ s.objs, e.2.owner.toNat = 1 → e.2.state = .free) ∧ (ctxOf s 1).killers = []) ∧
    (∀ kind ∈ [ObjKind.fence, .buffer, .heap], let o := objOf (tst .active (obj5 kind)) 5
     o.state = .freePending ∧ o.inflight = 0 ∧ o.scrubbing = false ∧ o.impcount = 0 ∧ o.kind = kind ∧ o.relFence = 0) ∧
    (frameOf (tst .active (obj5 .buffer)) 1 0x4001).isSome = true ∧ scrubbed st1 0x4001 = true ∧
    (objOf (tst .active { obj5 .buffer with scrubbing := true, frames := [0x4001] }) 5).scrubbing = true ∧
    (tst .active { obj5 .buffer with scrubbing := true, frames := [0x4001] }).retire = [] := by decide +kernel

/-- OBJ_CREATE of each kind for context 1, OBJ_IMPORT, OBJ_FREE and HEAP_BIND of object 1, a heap of context 1. -/
def ost (k : Cmd) : State := { st1 with
  cmds := [k], objNext := 2, objs := [(1, { Obj.empty with state := .live, kind := .heap, rights := 7, owner := 1, src := 1 })] }

theorem runs_ost (op : Byte) (w0 w1 : DWord) : Runs (ost (k0 op w0 w1 0 0)) (ref0 0) op.toNat (k0 op w0 w1 0 0) := runs _ rfl rfl rfl rfl rfl rfl

theorem witness_ObjectCommands : Runs (ost (k0 0x18 0x3001 0 0 0)) (ref0 0) 0x18 (k0 0x18 0x3001 0 0 0) ∧
    Runs (ost (k0 0x19 0x0007000100100001 0 0 0)) (ref0 0) 0x19 (k0 0x19 0x0007000100100001 0 0 0) ∧
    Runs (ost (k0 0x04 0x00100001 0 0 0)) (ref0 0) 0x04 (k0 0x04 0x00100001 0 0 0) ∧
    Runs (ost (k0 0x1A 0x0001 0x00100001 0 0)) (ref0 0) 0x1A (k0 0x1A 0x0001 0x00100001 0 0) ∧
    (let s := ost (k0 0x18 0x3001 0 0 0)
     (ctxOf s 1).state = .active ∧ s.objNext < 2 ^ 20 ∧ (ctxOf s 1).objquota = 0 ∧ 0x00100001 % 2 ^ 20 ≠ s.objNext ∧
      checkHandle s 0 0x00100001 { kinds := [], imports := false, right := none } = none ∧
      checkHandle s 0 0x00200001 { kinds := [], imports := false, right := none } ≠ none ∧
      checkHandle s 0 0x00100001 { kinds := [.heap], imports := false, right := none } = none ∧ (objOf s 1).owner.toNat = 1 ∧
      heapSlot (ctxOf s 1) 0 ≠ 0x00100001 ∧ ∀ j, j < 4 → j ≠ 0 → heapSlot (ctxOf s 1) j ≠ 0x00100001) :=
  ⟨runs_ost .., runs_ost .., runs_ost .., runs_ost .., by decide +kernel⟩

/-- KLAUNCH of two tiles, the number that is left when two of 352 are asked for, and of more than there are; END of a tile whose groups
have ended. -/
def est : State := { st1 with
  cmds := [kcmd cref 0x20 .started 0 0 0 0], tiles := [(0, { tile1 with groups := [], active := [] })] }
def estc : State := (fetch est 0 1 0x40000000 4).1
def klaunch (n sel : Nat) : Cmd := k0 0x20 0x40000000 0 (BitVec.ofNat 64 (n + 2 * 512 + 32 * 2 ^ 16 + 2 ^ 32)) (BitVec.ofNat 64 sel)

theorem repair_none (site : Nat) : repairPend (repairOf (kst (klaunch 2 3)) site) = false := by
  show ((Config.factoryRepair site &&& 0xFFFF0000#64).getLsbD 1) = false
  simp

theorem maps_nodup : (st1.map0 ++ st1.map1.map (· + 192)).Nodup := by
  show (List.range 176 ++ (List.range 176).map (· + 192)).Nodup
  rw [List.nodup_append]
  refine ⟨List.nodup_range, List.Pairwise.map (R := (· ≠ ·)) _ (fun a b h => by omega) List.nodup_range, fun a ha b hb => ?_⟩
  simp at ha hb
  omega

theorem witness_LaunchAndEnd : Runs (kst (klaunch 2 3)) (ref0 0) 0x20 (klaunch 2 3) ∧ Runs (kst (klaunch 353 0)) (ref0 0) 0x20 (klaunch 353 0) ∧
    (let s := kst (klaunch 2 3)
     (∀ l ∈ s.launches, l.cmd ≠ ref0 0) ∧ 2 * roundUp 32 8 ≤ 4096 ∧
      1 ≤ (s.map0.countP fun x => (tileOf s x).launch.isNone && !NSet.has s.marked x) ∧
      1 ≤ (s.map1.countP fun x => (tileOf s (x + 192)).launch.isNone && !NSet.has s.marked (x + 192)) ∧
      (∀ x ∈ s.map0, x < 192)) ∧ (st1.map0 ++ st1.map1.map (· + 192)).Nodup ∧ (∀ site, repairPend (repairOf (kst (klaunch 2 3)) site) = false) ∧
    st1.map0.length + st1.map1.length < 353 ∧ CcReady false est 0 launch1 0x40000000 estc ∧
    (let a := tileOf estc 0
     (∀ g, g < 64 → (groupOf a g).running = false) ∧ a.vec.queue = [] ∧ a.array.accepted = [] ∧ a.streams = [] ∧ a.msgs = [] ∧ a.deferred = [] ∧
      a.bqs = [] ∧ a.samples = [] ∧ estc.remotes = [] ∧ redsLeft estc 0 = []) :=
  ⟨runs _ rfl rfl rfl rfl rfl rfl, runs _ rfl rfl rfl rfl rfl rfl, by decide +kernel, maps_nodup, repair_none, by decide +kernel,
    core_ready _, by decide +kernel⟩

/-! A write or a read of one piece, in the forms of StoreChain and LoadChain. -/

theorem store_one {s : State} {ctx va : Nat} {bs : List Byte} {pa cp at_ : Nat} {part : Option Nat} (hp : pieces va bs.length = [(va, bs.length)])
    (h : Reaches s ctx .write (BitVec.ofNat 64 va) pa cp at_) (hf : frozenSector s (pa / 64) = false) :
    StoreChain s ctx va bs (fun i => if i = 0 then s else (vWrite s ctx (BitVec.ofNat 64 va) (sliceList 0 bs (va - va) bs.length) false (part := part)).1)
      (fun _ => pa) (fun _ => cp) (fun _ => at_) part := by
  refine ⟨rfl, fun i p hi => ?_⟩
  rw [hp] at hi
  match i with
  | 0 => cases hi; exact ⟨h, hf, rfl⟩
  | i + 1 => cases hi

theorem load_one {s : State} {ctx va : Nat} {bs : List Byte} {pa cp at_ : Nat} (hp : pieces va bs.length = [(va, bs.length)])
    (h : Reaches s ctx .read (BitVec.ofNat 64 va) pa cp at_)
    (h2 : let t := (cRead s ctx (BitVec.ofNat 64 va) bs.length).1
      cohPoison t pa = false ∧ cohBytes t pa bs.length = sliceList 0 bs (va - va) bs.length) :
    LoadChain s ctx va bs.length bs (fun i => if i = 0 then s else (cRead s ctx (BitVec.ofNat 64 va) bs.length).1)
      (fun _ => pa) (fun _ => cp) fun _ => at_ := by
  refine ⟨rfl, rfl, fun i p hi => ?_⟩
  rw [hp] at hi
  match i with
  | 0 => cases hi; exact ⟨h, h2.1, h2.2, rfl⟩
  | i + 1 => cases hi

/-- Context 1 as the issuer of one command. -/
def wst (k : Cmd) : State := { st1 with cmds := [k] }
def k1 (op : Byte) (w0 w1 w2 w3 : DWord) : Cmd := kcmd { ctx := 1, queue := 0, index := 0, lpos := 0 } op .started w0 w1 w2 w3

theorem runs1 (op : Byte) (w0 w1 w2 w3 : DWord) :
    Runs (wst (k1 op w0 w1 w2 w3)) { ctx := 1, queue := 0, index := 0, lpos := 0 } op.toNat (k1 op w0 w1 w2 w3) :=
  ⟨rfl, rfl, rfl, rfl, rfl, .inl rfl⟩

/-- A FILL of 32 bytes, and a COPY of 16 of them: chains of one piece. -/
theorem witness_CopiesAndLists : (∀ op ∈ [(0x01 : Byte), 0x02, 0x03], Runs (wst (k1 op 0 0 0 0)) { ctx := 1, queue := 0, index := 0, lpos := 0 } op.toNat (k1 op 0 0 0 0)) ∧
    Runs (wst (k1 0x29 0x40001000 32 0x11 0)) { ctx := 1, queue := 0, index := 0, lpos := 0 } 0x29 (k1 0x29 0x40001000 32 0x11 0) ∧
    (∃ σ pa cp at_, StoreChain (wst (k1 0x29 0x40001000 32 0x11 0)) 1 0x40001000 (List.replicate 32 0x11) σ pa cp at_) ∧
    Runs (wst (k1 0x28 0x40001000 0x40001010 16 0)) { ctx := 1, queue := 0, index := 0, lpos := 0 } 0x28 (k1 0x28 0x40001000 0x40001010 16 0) ∧
    (∃ σ pa cp at_, LoadChain (wst (k1 0x28 0x40001000 0x40001010 16 0)) 1 0x40001000 16 (List.replicate 16 0) σ pa cp at_) ∧
    (match walk (wst (k1 0x28 0x80000000 0x40001010 16 0)) 1 0x80000000 with | .fault c _ => c == pageNotPresent | _ => false) = true :=
  ⟨fun _ _ => runs1 .., runs1 ..,
    ⟨_, _, _, _, store_one (bs := List.replicate 32 0x11) (pa := 0x40001000) (cp := 0) (at_ := 0xBC80010008) (by decide) (reaches) (by decide +kernel)⟩, runs1 ..,
    ⟨_, _, _, _, load_one (bs := List.replicate 16 0) (pa := 0x40001000) (cp := 0) (at_ := 0xBC80010008) (by decide) (reaches) (by decide +kernel)⟩, by decide +kernel⟩

/-- A 1 GiB leaf, an entry that is not valid, and addresses at the bounds. -/
theorem witness_Translation : walk st1 1 0x7FFFFFFF = .leaf 0x400000FF 2 0xBC80010008 ∧ st1.oldPtes = [] ∧
    permits .write 0x400000FF = true ∧ st1.injections = [] ∧ (2 : Nat) ^ 52 ≤ (0x10000000000000 : DWord).toNat ∧ (0xFFFF : DWord).toNat < 65536 ∧
    inDriverPool 0xBC80000000 = true ∧ (physWord st1 0xBC80000000).getLsbD 0 = true ∧ pteBad 3 (physWord st1 0xBC80000000) = false ∧
    (physWord st1 0xBC80010010).getLsbD 0 = false := by decide +kernel

/-! Chains of reads and of writes, in forms that evaluate: whether each piece in its turn meets what ReadsTo and WritesTo ask. -/

/-- The address and the leaf's place that an access of a context to va has. -/
def paOf (s : State) (ctx : Nat) (va : DWord) : Nat × Nat × Nat :=
  match walk s ctx va with
  | .leaf e lvl a => ((targetOf lvl e va).pa, (targetOf lvl e va).cp, a)
  | .fault .. => (0, 0, 0)

def goes (s : State) (ctx : Nat) (acc : Acc) (va : DWord) : Bool :=
  (match walk s ctx va with
  | .leaf e lvl _ => permits acc e && decide ((targetOf lvl e va).leaf = e)
  | .fault .. => false) && decide (s.oldPtes = [] ∧ noFaults s = true ∧
    regionOf (paOf s ctx va).1 = .fast ∧ NSet.has s.dead ((paOf s ctx va).1 / 64) = false)

theorem goes_reaches {s : State} {ctx : Nat} {acc : Acc} {va : DWord} (h : goes s ctx acc va = true := by decide +kernel) :
    Reaches s ctx acc va (paOf s ctx va).1 (paOf s ctx va).2.1 (paOf s ctx va).2.2 := by
  simp only [goes, Bool.and_eq_true, decide_eq_true_eq] at h
  obtain ⟨h, ho, hq, hf, hl⟩ := h
  refine ⟨?_, fun pick => walkPick_now ho ctx va pick, hq, hf, hl⟩
  unfold paOf
  split at h
  · rename_i e lvl a hw
    simp only [Bool.and_eq_true, decide_eq_true_eq] at h
    refine ⟨e, lvl, hw, h.1, ?_⟩
    generalize targetOf lvl e va = x at h
    cases x
    cases h.2
    rfl
  · cases h

def readOk (s : State) (ctx va : Nat) (bs : List Byte) (p : Nat × Nat) : Bool :=
  let t := (cRead s ctx (BitVec.ofNat 64 p.1) p.2).1
  let pa := (paOf s ctx (BitVec.ofNat 64 p.1)).1
  goes s ctx .read (BitVec.ofNat 64 p.1) && !cohPoison t pa && decide (cohBytes t pa p.2 = sliceList 0 bs (p.1 - va) p.2)

def writeOk (s : State) (ctx : Nat) (p : Nat × Nat) : Bool :=
  goes s ctx .write (BitVec.ofNat 64 p.1) && !frozenSector s ((paOf s ctx (BitVec.ofNat 64 p.1)).1 / 64)

def readStep (ctx : Nat) (s : State) (p : Nat × Nat) : State := (cRead s ctx (BitVec.ofNat 64 p.1) p.2).1
def writeStep (ctx va : Nat) (bs : List Byte) (s : State) (p : Nat × Nat) : State :=
  (vWrite s ctx (BitVec.ofNat 64 p.1) (sliceList 0 bs (p.1 - va) p.2) false).1

/-- Every piece of a list is in order, each from the state that the one before it leaves. -/
def allOk (ok : State → Nat × Nat → Bool) (step : State → Nat × Nat → State) (s : State) : List (Nat × Nat) → Bool
  | [] => true
  | p :: r => ok s p && allOk ok step (step s p) r

theorem allOk_get {ok : State → Nat × Nat → Bool} {step : State → Nat × Nat → State} : ∀ (l : List (Nat × Nat)) (s : State),
    allOk ok step s l = true → ∀ i p, l[i]? = some p →
      ok ((l.take i).foldl step s) p = true ∧ (l.take (i + 1)).foldl step s = step ((l.take i).foldl step s) p
  | [], _, _, _, _, hp => by cases hp
  | q :: r, s, h, i, p, hp => by
    simp only [allOk, Bool.and_eq_true] at h
    cases i with
    | zero => cases hp; exact ⟨h.1, rfl⟩
    | succ i => exact allOk_get r (step s q) h.2 i p hp

def afterReads (s : State) (ctx va n : Nat) : State := (pieces va n).foldl (readStep ctx) s
def afterWrites (s : State) (ctx va : Nat) (bs : List Byte) : State := (pieces va bs.length).foldl (writeStep ctx va bs) s

theorem readsTo {s : State} {ctx va n : Nat} {bs : List Byte} (hn : bs.length = n := by decide +kernel)
    (h : allOk (fun s => readOk s ctx va bs) (readStep ctx) s (pieces va bs.length) = true := by decide +kernel) :
    ReadsTo s ctx va bs (afterReads s ctx va n) := by
  cases hn
  refine ⟨fun i => ((pieces va bs.length).take i).foldl (readStep ctx) s,
    fun i => (paOf (((pieces va bs.length).take i).foldl (readStep ctx) s) ctx (BitVec.ofNat 64 (((pieces va bs.length)[i]?).getD (0, 0)).1)).1,
    fun i => (paOf (((pieces va bs.length).take i).foldl (readStep ctx) s) ctx (BitVec.ofNat 64 (((pieces va bs.length)[i]?).getD (0, 0)).1)).2.1,
    fun i => (paOf (((pieces va bs.length).take i).foldl (readStep ctx) s) ctx (BitVec.ofNat 64 (((pieces va bs.length)[i]?).getD (0, 0)).1)).2.2,
    ⟨rfl, rfl, fun i p hp => ?_⟩, by simp [afterReads]⟩
  have := allOk_get _ _ h i p hp
  simp only [readOk, Bool.and_eq_true, Bool.not_eq_true', decide_eq_true_eq] at this
  simp only [hp, Option.getD_some]
  exact ⟨goes_reaches this.1.1.1, by rw [this.2]; exact this.1.1.2, by rw [this.2]; exact this.1.2, this.2⟩

theorem writesTo {s : State} {ctx va : Nat} {bs : List Byte} 
    (h : allOk (fun s => writeOk s ctx) (writeStep ctx va bs) s (pieces va bs.length) = true := by decide +kernel) :
    WritesTo s ctx va bs (afterWrites s ctx va bs) := by
  refine ⟨fun i => ((pieces va bs.length).take i).foldl (writeStep ctx va bs) s,
    fun i => (paOf (((pieces va bs.length).take i).foldl (writeStep ctx va bs) s) ctx (BitVec.ofNat 64 (((pieces va bs.length)[i]?).getD (0, 0)).1)).1,
    fun i => (paOf (((pieces va bs.length).take i).foldl (writeStep ctx va bs) s) ctx (BitVec.ofNat 64 (((pieces va bs.length)[i]?).getD (0, 0)).1)).2.1,
    fun i => (paOf (((pieces va bs.length).take i).foldl (writeStep ctx va bs) s) ctx (BitVec.ofNat 64 (((pieces va bs.length)[i]?).getD (0, 0)).1)).2.2,
    ⟨rfl, fun i p hp => ?_⟩, by simp [afterWrites]⟩
  have := allOk_get _ _ h i p hp
  simp only [writeOk, Bool.and_eq_true, Bool.not_eq_true'] at this
  simp only [hp, Option.getD_some]
  exact ⟨goes_reaches this.1.1, this.1.2, this.2⟩

/-! ### Witnesses: recorder, dispatch and collectives -/

def ref1 : CmdRef := { ctx := 1, queue := 0, index := 0, lpos := 0 }

def entry0 : LogEntry := { event := 1, die := 0, inj := false, queue := 0, ctx := 1, seq := 0, arg0 := 0, arg1 := 0, arg2 := 0 }

/-- A snapshot of 64 bytes, the header alone, and one below that; a clear, and an injection with one place left. -/
def logged (k : Cmd) : State := { wst k with log0 := [entry0], log1 := [entry0], seq0 := 1, seq1 := 1 }
theorem witness_RecorderAndInjections :
    (∀ n : Bool, let k := k1 0x2A 0x40001000 (if n then 64 else 63) 0 0
      Runs (logged k) ref1 0x2A k ∧ snapParts (logged k) k = [] ∧ (logged k).log0 = entry0 :: [] ∧ (logged k).log1 = entry0 :: []) ∧
    (∃ σ pa cp at_, StoreChain (logged (k1 0x2A 0x40001000 64 0 0)) 1 0x40001000 (List.replicate 64 0) σ pa cp at_ (some 63)) ∧
    Runs (wst (k1 0x2B 0x1F00 0 0 0)) ref1 0x2B (k1 0x2B 0x1F00 0 0 0) ∧
    (let k := k1 0x2C 0x00100A00 0 0 0
     Runs (wst k) ref1 0x2C k ∧ k.w0.toNat % 16 = 0 ∧ (ctxOf (wst k) (k.w0.toNat / 2 ^ 20 % 4096)).state = .active ∧ (wst k).injections.length < 64) :=
  ⟨fun n => ⟨⟨rfl, rfl, rfl, rfl, rfl, .inl rfl⟩, by cases n <;> decide +kernel, rfl, rfl⟩,
    ⟨_, _, _, _, store_one (bs := List.replicate 64 0) (pa := 0x40001000) (cp := 0) (at_ := 0xBC80010008) (by decide)
      (reaches) (by decide +kernel)⟩,
    runs1 .., ⟨runs1 .., by decide +kernel⟩⟩

/-- A run of one token, one expert and one selected expert, its route entry 4 at the module itself (node 5), and its scores at 0. -/
def dd : List DWord := [0x0000000100020000, 0x0001000000000000, 0x40001000, 0x40002000, 0x40003000, 0x40004000, 0x40005000, 0x40006000,
  0x0000004000000040, 0x0001000100000040, 0, 0, 0, 0, 0, 0]
def route4 : Route := { w0 := 0x8001001400000002, w1 := 0, w2 := 0, w3 := 0, loads := 1 }

def dsp (w1 : DWord) (d : List DWord) : State := { st1 with
  cmds := [k1 0x30 0x40007000 w1 0 0], routes := [(4, route4)], fabCfg := [(0, 0x8000000000000005)]
  mem := memPut page1 0x40007000 (d.flatMap fun w => leBytes w.toNat 8) }
def dspRun (combine done : Bool) (sends : List SendPiece) : DispRun :=
  { cmd := ref1, desc := dd, combine := combine, sends := sends, result := 0
    parts := [{ expert := 0, route := route4, count := 1, done := done, asked := 64, rows := [], bad := [] }] }
def dspR (w1 : DWord) (r : DispRun) : State := { dsp w1 dd with dispRuns := [r] }

theorem runs_dsp (w1 : DWord) (d : List DWord) : Runs (dsp w1 d) ref1 0x30 (k1 0x30 0x40007000 w1 0 0) := ⟨rfl, rfl, rfl, rfl, rfl, .inl rfl⟩
theorem runs_dspR (w1 : DWord) (r : DispRun) : Runs (dspR w1 r) ref1 0x30 (k1 0x30 0x40007000 w1 0 0) := ⟨rfl, rfl, rfl, rfl, rfl, .inl rfl⟩

/-- ROUTE_LOAD of route4, and of an entry with a reserved bit. -/
def rld (bad : Bool) : State := { st1 with
  cmds := [k1 0x31 0x40007000 4 1 0], mem := memPut page1 0x40007000 (leBytes (if bad then 0xF001001400000002 else 0x8001001400000002) 8 ++ List.replicate 24 0) }

/-- A request of a part of a run. -/
def request (what : RemoteOf) (offset : Nat) (read : Bool) : Remote :=
  { what := what, ctx := 1, queue := 0, node := 5, window := 0, offset := BitVec.ofNat 40 offset, bytes := 64, pc := 0, read := read }

theorem witness_DispatchRuns :
    (∀ bad : Bool, Runs (rld bad) ref1 0x31 (k1 0x31 0x40007000 4 1 0)) ∧
    (∀ bad : Bool, ReadsTo (rld bad) 1 0x40007000 (leBytes (if bad then 0xF001001400000002 else 0x8001001400000002) 8 ++ List.replicate 24 0)
      (afterReads (rld bad) 1 0x40007000 32)) ∧
    (∀ w0 : Bool, let d := if w0 then dd else 0 :: dd.tail
      Runs (dsp 0 d) ref1 0x30 (k1 0x30 0x40007000 0 0 0) ∧ (∀ r ∈ (dsp 0 d).dispRuns, r.cmd ≠ ref1) ∧ d.length = 16 ∧
      ReadsTo (dsp 0 d) 1 0x40007000 (d.flatMap fun w => leBytes w.toNat 8) (afterReads (dsp 0 d) 1 0x40007000 128)) ∧
    (let r := dspRun false true []
     Runs (dspR 0 r) ref1 0x30 (k1 0x30 0x40007000 0 0 0) ∧ dispRunOf (dspR 0 r) ref1 = some r ∧ r.sends = [] ∧ (∀ p ∈ r.parts, p.done = true) ∧
      (∀ e ∈ (dspR 0 r).remotes, ofRun ref1 e.2.what = false) ∧ (r.parts.map (·.expert)).Nodup) ∧
    (let r := dspRun false false []
     r.parts.find? (fun q => q.expert == 0) = some { expert := 0, route := route4, count := 1, done := false, asked := 64, rows := [], bad := [] } ∧ (ctxOf (dspR 0 r) 1).state = .active ∧
      (match sendRequest (dspR 0 r) (request (.arrival ref1 0) 0 false) typeWrite (leBytes 1 8 ++ List.replicate 56 0) [] with
        | .sent _ => true | _ => false) = true ∧
      (match sendRequest (dspR 0 r) (request (.combine ref1 0 0) 64 false) typeRead [] [] with | .sent _ => true | _ => false) = true) ∧
    (let r := dspRun true true []
     Runs (dspR 1 r) ref1 0x30 (k1 0x30 0x40007000 1 0 0) ∧ (∀ p ∈ r.parts, p.done = true ∧ p.count * dOutRow r.desc ≤ p.asked ∧ p.bad = []) ∧
      ReadsTo (dspR 1 r) 1 0x40003000 (leBytes 0 8 ++ leBytes 0 8) (afterReads (dspR 1 r) 1 0x40003000 16) ∧
      WritesTo (afterReads (dspR 1 r) 1 0x40003000 16) 1 0x40006000 (List.replicate 64 0)
        (afterWrites (afterReads (dspR 1 r) 1 0x40003000 16) 1 0x40006000 (List.replicate 64 0))) ∧
    (let s := { dsp 0x10003 dd with
      epochs := [{ ctx := 1, epoch := 1, run := ref1 }], fills := [(7, { ctx := 1, epoch := 1, entry := 4, arrived := false, confirmed := false, way := 0 })] }
     NMap.risingFrom 0 s.fills = true ∧ NMap.risingFrom 0 s.lines = true ∧ (∃ e ∈ s.epochs, e.ctx = 1 ∧ e.epoch = 1) ∧
      ReadsTo s 1 0x40000100 [0, 0, 0, 0] (afterReads s 1 0x40000100 4)) := by
  refine ⟨fun _ => ⟨rfl, rfl, rfl, rfl, rfl, .inl rfl⟩, fun bad => ?_, fun b => ?_, ?_, ?_, ?_, ?_⟩
  · cases bad
    · exact readsTo
    · exact readsTo
  · refine ⟨runs_dsp _ _, by cases b <;> decide, by cases b <;> decide, ?_⟩
    cases b
    · exact readsTo
    · exact readsTo
  · exact ⟨runs_dspR .., rfl, rfl, by decide +kernel⟩
  · decide +kernel
  · exact ⟨runs_dspR .., by decide, readsTo, writesTo⟩
  · exact ⟨by decide, by decide, by decide, readsTo⟩

/-- A whole routing run: the descriptor, the one score, and the three lists; then the one token row to send. -/
theorem witness_Routing : Runs (dsp 0 dd) ref1 0x30 (k1 0x30 0x40007000 0 0 0) ∧ dispRunOf (dsp 0 dd) ref1 = none ∧ runFault (dsp 0 dd) 1 0 0x40007000 dd = none ∧
    (let τ0 := afterReads (dsp 0 dd) 1 0x40007000 128
     let τ1 := afterReads τ0 1 0x40001000 4
     let p := placeAll dd (fun x => rCap (routeOf (dsp 0 dd) (dRb dd + x))) [{ ranks := rankOfScores [0], gates := gatesOf 0 [0] }]
     let u1 := afterWrites τ1 1 0x40005000 (dcountBytes dd p.1)
     let u2 := afterWrites u1 1 0x40004000 (dlistBytes dd [{ ranks := [0], gates := [0] }] p.2)
     ReadsTo (dsp 0 dd) 1 0x40007000 (dd.flatMap fun w => leBytes w.toNat 8) τ0 ∧ ReadsTo τ0 1 0x40001000 (leBytes 0 4) τ1 ∧
      WritesTo τ1 1 0x40005000 (dcountBytes dd p.1) u1 ∧ WritesTo u1 1 0x40004000 (dlistBytes dd [{ ranks := [0], gates := [0] }] p.2) u2 ∧
      WritesTo u2 1 0x40003000 (clistBytes dd [{ ranks := [0], gates := [0] }] p.2)
        (afterWrites u2 1 0x40003000 (clistBytes dd [{ ranks := [0], gates := [0] }] p.2))) ∧
    (let r := dspRun false false [{ expert := 0, offset := 128, va := 0x40002000, bytes := 64 }]
     dispRunOf (dspR 0 r) ref1 = some r ∧ ReadsTo (dspR 0 r) 1 0x40002000 (List.replicate 64 0) (afterReads (dspR 0 r) 1 0x40002000 64)) :=
  ⟨runs_dsp .., rfl, by decide +kernel,
    ⟨readsTo, readsTo,
      writesTo, writesTo, writesTo⟩,
    rfl, readsTo⟩

/-- An agree run of two members, this one the second, with 6 an alias of the module; and a descriptor with a reserved bit. -/
def cd (rsv : Bool) : List DWord := [if rsv then 0x2000000040010001 else 0x2000000000010001, 0, 0, 0x40001000, 0, 0, 0x40002000, 0]
def clc (op : Byte) (d : List DWord) (w3 : DWord) : State := { st1 with
  cmds := [k1 op 0x40007000 0 (if op = 0x39 then 0x40002000 else 0) w3], fabCfg := [(0, 0x8000000000000005), (4, 0x8006)]
  jobs := [(7, { epoch := 1, cdig := 0, flags := [] })]
  mem := memPut (memPut page1 0x40001000 [6, 0, 5, 0]) 0x40007000 (if op = 0x39 then [5, 0] else d.flatMap fun w => leBytes w.toNat 8) }

theorem witness_CollectiveStarts :
    (∀ rsv : Bool, Runs (clc 0x38 (cd rsv) 0) ref1 0x38 (k1 0x38 0x40007000 0 0 0) ∧ (clc 0x38 (cd rsv) 0).collRuns = [] ∧ (cd rsv).length = 8 ∧
      cMode (cd rsv) ≤ 2) ∧
    (∀ rsv : Bool, ReadsTo (clc 0x38 (cd rsv) 0) 1 0x40007000 ((cd rsv).flatMap fun w => leBytes w.toNat 8) (afterReads (clc 0x38 (cd rsv) 0) 1 0x40007000 64)) ∧
    (let s := clc 0x38 (cd false) 0
     let t0 := afterReads s 1 0x40007000 64
     ReadsTo t0 1 0x40001000 ([6, 5].flatMap fun m => leBytes m 2) (afterReads t0 1 0x40001000 4) ∧ [6, 5][1]? = some (fabNode s) ∧ [6, 5].Nodup ∧
      (ctxOf s 1).job ≠ 0 ∧ (ctxOf s 1).state = .active ∧ 6 ∈ aliasesOf (cfgWord s 4)) ∧
    (let s := clc 0x39 [] 1
     Runs s ref1 0x39 (k1 0x39 0x40007000 0 0x40002000 1) ∧ s.injections = [] ∧ 5 = fabNode s ∧ NMap.find s.jobs 7 ≠ none ∧
      (let t0 := afterReads s 1 0x40007000 2
       let t1 := afterReads t0 1 0x40002000 16
       ReadsTo s 1 0x40007000 (leBytes 5 2) t0 ∧ ReadsTo t0 1 0x40002000 ([(0 : BitVec 128)].flatMap fun x => leBytes x.toNat 16) t1 ∧
        WritesTo t1 1 0x40002010 [0] (afterWrites t1 1 0x40002010 [0]))) ∧
    Runs (clc 0x39 [] 0) ref1 0x39 (k1 0x39 0x40007000 0 0x40002000 0) := by
  refine ⟨fun b => ⟨⟨rfl, rfl, rfl, rfl, rfl, .inl rfl⟩, rfl, rfl, by cases b <;> decide⟩, fun b => ?_, ⟨?_, ?_⟩, ⟨⟨rfl, rfl, rfl, rfl, rfl, .inl rfl⟩,
    rfl, by decide, by decide, ?_⟩, ⟨rfl, rfl, rfl, rfl, rfl, .inl rfl⟩⟩
  · cases b
    · exact readsTo
    · exact readsTo
  · exact readsTo
  · decide +kernel
  · exact ⟨readsTo, readsTo,
      writesTo⟩

def tree0 (mismatch : Bool) : TreeVal :=
  { epoch := 1, cdig := 0, rdig := 0, mismatch := mismatch, poisoned := false, sums := [], digs := [(0, true)] }

/-- A collective packet of job 7, step 9 and MODE, from node 6. -/
def cpk (type : BitVec 6) (mode : BitVec 8) (mismatch : Bool) (payload : List Byte) : Packet :=
  { type := type, vc := 2, dnode := 5, snode := 6, sinc := 1, job := 7, window := 0, len := 0, offset := 9, tag := 0, dinc := 0, status := 0
    opx := mode * 16, scale := 0, arg := 0, payload := payload, poison := [], tree := some (tree0 mismatch), head := some (1, 0) }
def crun (me mode : Nat) (phase : CollPhase) (members : List (BitVec 14)) (buckets : List Bucket) : CollRun :=
  { cmd := ref1, job := 7, step := 9, mode := mode, fmt := 1, bid0 := 0, nb := 2, belems := 64, n := 128, me := me, members := members, src := 0x40001000
    dst := 0x40002000, stab := 0x40003000, init := true, s0 := 0, h0 := 0, epoch := some (1, 0), rdig := 0, phase := phase, kids := [], buckets := buckets
    out := [], fail := 0, aborted := false, injected := false }
def bucket (i : Nat) : Bucket := { index := i, s := 0, acc := [], nf := false, ov := false, status := 0, headIn := true, sum := false, fin := false }
def cst2 (op : Byte) (p : Packet) (runs : List CollRun) (inc : Byte) : State := { clc op [] 0 with inbox := [(3, p)], collRuns := runs, peerInc := [(6, inc)] }

theorem here (op : Byte) (p : Packet) (r : CollRun) (type : Nat) (ht : p.type.toNat = type := by rfl)
    (hs : stalePacket (cst2 op p [r] 1) p = false ∧ runFor (cst2 op p [r] 1) p = some r ∧ r.cmd = ref1 ∧ r.aborted = false ∧ r.out = [] := by decide +kernel) :
    CollHere (cst2 op p [r] 1) p type 3 r (k1 op 0x40007000 0 (if op = 0x39 then 0x40002000 else 0) 0) :=
  ⟨⟨rfl, ht, by simp [cst2, frontPort]⟩, hs.1, hs.2.1, by simp [cst2], by rw [hs.2.2.1]; rfl, rfl, by rw [hs.2.2.1]; rfl, hs.2.2.2.1, hs.2.2.2.2⟩

/-- A stale packet, one whose run has not started, a child's TREE.UP with another child still out, the four ends of a round by TREE.DOWN,
and a relay at the owner of bucket 0. -/
theorem witness_CollectivePackets : (let p := cpk 0x20 0 false []
     PacketHere (cst2 0x38 p [] 2) p 0x20 3 ∧ stalePacket (cst2 0x38 p [] 2) p = true ∧ stalePacket (cst2 0x38 p [] 1) p = false ∧
      runFor (cst2 0x38 p [] 1) p = none) ∧
    (let p := cpk 0x28 2 false []
     let r := crun 0 2 .openUp [5, 6, 7] []
     CollHere (cst2 0x38 p [r] 1) p 0x28 3 r (k1 0x38 0x40007000 0 0 0) ∧ r.members.findIdx? (· == p.snode) = some 1 ∧ 1 ∈ r.children ∧
      ∃ j ∈ r.children, j ≠ 1 ∧ NMap.find r.kids j = none) ∧
    (∀ mismatch : Bool, let p := cpk 0x29 2 mismatch []
     let r := crun 1 2 (if mismatch then .openWait else .roundWait) [6, 5] []
     CollHere (cst2 0x38 p [r] 1) p 0x29 3 r (k1 0x38 0x40007000 0 0 0) ∧ r.children = []) ∧
    (let p := cpk 0x29 3 false []
     let r := crun 1 3 .roundWait [6, 5] []
     CollHere (cst2 0x39 p [r] 1) p 0x29 3 r (k1 0x39 0x40007000 0 0x40002000 0) ∧
      WritesTo (taken (cst2 0x39 p [r] 1) p) 1 0x40001400 [1] (afterWrites (taken (cst2 0x39 p [r] 1) p) 1 0x40001400 [1])) ∧
    (∀ type ∈ [0x20, 0x21, 0x22], let p := cpk (BitVec.ofNat 6 type) 0 false (List.replicate 8 0)
     let r := crun 0 0 .data [5, 6] [bucket 0, bucket 2]
     CollHere (cst2 0x38 p [r] 1) p type 3 r (k1 0x38 0x40007000 0 0 0) ∧ r.buckets.find? (fun x => x.index == 0) = some (bucket 0) ∧ (bucket 0).sum = false ∧
      r.place 0 = r.members.length - 1 ∧ (∀ x ∈ r.buckets, r.place x.index = 0 → x.sum = true) ∧ (∃ x ∈ r.buckets, x.index ≠ 0 ∧ x.sum = false) ∧
      p.head = r.epoch) ∧
    (let p := cpk 0x21 0 false (List.replicate 8 0)
     let s := cst2 0x38 p [crun 0 0 .data [5, 6] [bucket 0, bucket 2]] 1
     ReadsTo (taken s p) 1 0x40001000 [6, 0, 5, 0, 0, 0, 0, 0] (afterReads (taken s p) 1 0x40001000 8)) := by
  refine ⟨⟨⟨rfl, rfl, by decide⟩, by decide +kernel⟩, ⟨here _ _ _ _, by decide +kernel⟩,
    fun b => ⟨?_, by cases b <;> decide⟩, ⟨here 0x39 _ _ _, writesTo⟩, fun t ht => ?_,
    readsTo⟩
  · cases b <;> exact here 0x38 _ _ _
  · simp only [List.mem_cons, List.not_mem_nil, or_false] at ht
    rcases ht with rfl | rfl | rfl <;> exact ⟨here 0x38 _ _ _, by decide +kernel⟩

/-! ### The update class -/

/-- Group 0: kind 0 with no stored moment, over 100 elements, its state region at the start of chip 0's slow tier; of context 1. -/
def ent0 : GroupEntry := [(0, 0x80FF000000001001), (1, 100), (2, 0x80000000)]
def ent1 : GroupEntry := [(0, 0x80FF000000001001), (1, 64), (2, 0x80000000)]
def re0 : RunEntry := { w0 := 0x00FF000000000000, gva := 0x40002000, wva := 0x40003000, rva := 0x40004000 }
def upd (op : Byte) (w0 w1 w2 : DWord) (e : GroupEntry) : State := { st1 with
  cmds := [k1 op w0 w1 w2 0], groups := [(0, e)], chips := [(0, { TierChip.empty with dimmA := 64 })]
  jobs := [(7, { epoch := 1, cdig := 0, flags := [(0, true), (1, false)] })]
  mem := memPut (memPut page1 0xBC80010010 (leBytes 0x100000000FF 8)) 0x40001000 ([re0.w0, re0.gva, re0.wva, re0.rva].flatMap fun w => leBytes w.toNat 8) }
def updr (r : UpdRun) : State := { upd 0x40 0x40001000 1 0 ent0 with updRuns := [r] }
def run0 (phase : UpdPhase) (step : Word) : UpdRun := { cmd := ref1, step := step, list := [re0], phase := phase, pos := [], acc := [], guard := 0 }

theorem runs_upd (op : Byte) (w0 w1 w2 : DWord) (e : GroupEntry) : Runs (upd op w0 w1 w2 e) ref1 op.toNat (k1 op w0 w1 w2 0) :=
  ⟨rfl, rfl, rfl, rfl, rfl, .inl rfl⟩
theorem runs_updr (r : UpdRun) : Runs (updr r) ref1 0x40 (k1 0x40 0x40001000 1 0 0) := ⟨rfl, rfl, rfl, rfl, rfl, .inl rfl⟩

/-- Assigning and releasing, writing (a good image and one with a reserved bit) and reading out an entry of the context, and an entry of
another; a list of one entry that passes and one whose entry fails; the phases of a run. -/
theorem witness_UpdateCommands :
    (∀ w0 : DWord, Runs (upd 0x42 w0 0 0 ent0) ref1 0x42 (k1 0x42 w0 0 0 0) ∧ updHalted (upd 0x42 w0 0 0 ent0) ref1 0 = false ∧
      (upd 0x42 w0 0 0 ent0).heldGroups = []) ∧
    (∃ h ∈ ({ upd 0x42 0 0 0 ent0 with heldGroups := [(0, (ref0 0))] }).heldGroups, h.1 = 0 ∧ h.2 ≠ ref1) ∧
    (∀ w0 : DWord, Runs (upd 0x41 w0 0x40001000 2 ent0) ref1 0x41 (k1 0x41 w0 0x40001000 2 0)) ∧
    (let s := upd 0x41 0 0x40001000 2 ent0
     let t := takeGroups s ref1 [0]
     (groupWord s 0 0).getLsbD 12 = true ∧ (groupWord s 0 0).toNat % 4096 = 1 ∧ (groupWord s 1 0).getLsbD 12 = false ∧
      WritesTo t 1 0x40001000 ((List.range 16).flatMap fun w => leBytes (groupWord s 0 w).toNat 8)
        (afterWrites t 1 0x40001000 ((List.range 16).flatMap fun w => leBytes (groupWord s 0 w).toNat 8)) ∧
      ReadsTo t 1 0x40001000 ((([0x00FF000000000000, 0x40002000, 0x40003000, 0x40004000] : List DWord) ++ List.replicate 12 0).flatMap fun (w : DWord) => leBytes w.toNat 8)
        (afterReads t 1 0x40001000 128) ∧
      groupBad (fun w => if w = 1 then 0x40002000 else groupWord s 0 w) = false ∧ groupBad (fun w => if w = 11 then 1 else groupWord s 0 w) = true) ∧
    (let s := upd 0x40 0x40001000 1 0 ent0
     Runs s ref1 0x40 (k1 0x40 0x40001000 1 0 0) ∧ updHalted s ref1 0 = false ∧ updRunOf s ref1 = none ∧ (ctxOf s 1).job ≠ 0 ∧
      ReadsTo s 1 0x40001000 ([re0].flatMap fun x => [x.w0, x.gva, x.wva, x.rva].flatMap fun w => leBytes w.toNat 8) (afterReads s 1 0x40001000 32) ∧
      entryFault s 1 [] re0 = none ∧ entryFault (upd 0x40 0 1 0 []) 1 [] re0 = some (updateGroupInvalid, 1) ∧
      entryFault (upd 0x40 0 1 0 ((0, 0x1001) :: ent0.tail)) 1 [] re0 = some (updateGroupInvalid, 2) ∧ entryFault s 1 [0] re0 = some (updateGroupInvalid, 3) ∧
      entryFault s 1 [] { re0 with w0 := 0x1000000000000 } = some (updateStateFormat, 1) ∧ entryFault s 1 [] { re0 with rva := 32 } = some (updateStateFormat, 2)) ∧
    (ctxOf (upd 0x40 0 0 0 ent0) 1).job ≠ 0 ∧
    (let s := updr (run0 .hold 0)
     Runs s ref1 0x40 (k1 0x40 0x40001000 1 0 0) ∧ updRunOf s ref1 = some (run0 .hold 0) ∧ s.heldGroups = [] ∧ listFault s 1 [] 0 [re0] = none) ∧
    (∃ h ∈ ({ updr (run0 .hold 0) with heldGroups := [(0, (ref0 0))] }).heldGroups, h.1 ∈ [re0].map entryGid ∧ h.2 ≠ ref1) ∧
    (∀ step : Bool, let s := updr (run0 .agree (if step then 1 else 0))
     updRunOf s ref1 = some (run0 .agree (if step then 1 else 0)) ∧ (ctxOf s 1).state = .active ∧
      finalFlag s (ctxOf s 1).job (if step then 1 else 0) = some (!step)) ∧
    finalFlag (updr (run0 .agree 2)) 7 2 = none ∧
    (let s := updr (run0 .agree 0)
     let rec8 := leBytes (2 ^ 62 + entryGid re0 * 2 ^ 48 + (groupWord s (entryGid re0) 8).toNat % 2 ^ 8 * 2 ^ 40 + (groupWord s (entryGid re0) 7).toNat / 2 ^ 32) 8 ++
      leBytes 0 8 ++ ([12, 13, 14, 15, 10].flatMap fun w => leBytes (groupWord s (entryGid re0) w).toNat 8) ++ leBytes 0 8
     WritesTo s 1 0x40004000 rec8 (afterWrites s 1 0x40004000 rec8)) := by
  refine ⟨fun _ => ⟨runs_upd .., rfl, rfl⟩, by decide, fun _ => runs_upd .., ⟨by decide +kernel, by decide +kernel, by decide +kernel,
    writesTo, readsTo, by decide +kernel⟩,
    ⟨runs_upd .., rfl, rfl, by decide, readsTo, by decide +kernel⟩, by decide, ⟨runs_updr _, rfl, rfl, by decide +kernel⟩, by decide,
    fun b => by cases b <;> decide +kernel, by decide +kernel, writesTo⟩

/-- A state of a command that updates with the poison of a sector of its region. -/
def upass (chunk : Nat) : State := updr { run0 .pass 0 with acc := [(0, { PassAcc.start with chunk := chunk })] }
def okOf {α : Type} (d : α) (r : MRes α) : α := match r with | .ok a => a | _ => d

theorem ok_eq {α : Type} {d : α} {p : State × MRes α} (h : (match p.2 with | .ok _ => true | _ => false) = true := by decide +kernel) : p = (p.1, .ok (okOf d p.2)) := by
  obtain ⟨s, r⟩ := p
  cases r with
  | ok a => rfl
  | fault c v e => cases h
  | wait => cases h

theorem ok_unit {p : State × MRes Unit} (h : (match p.2 with | .ok _ => true | _ => false) = true := by decide +kernel) : p = (p.1, .ok ()) := by
  obtain ⟨s, r⟩ := p
  cases r with
  | ok a => rfl
  | fault c v e => cases h
  | wait => cases h

/-! STATE_MOVE of one chunk, in either direction. -/

def mvw (out : Bool) : DWord := if out then 0 else 0x10000
def mvs (out : Bool) : State := upd 0x43 (mvw out) 0x40005000 0x40007000 ent1
def mvsrc (out : Bool) : Nat := if out then 0x80000000 else 0x40005000
def mvdst (out : Bool) : Nat := if out then 0x40005000 else 0x80000000
def mvj (out : Bool) : State × MRes (List Byte × List Bool) := engineReadN (takeGroups (mvs out) ref1 [0]) 1 0 out (mvsrc out) 256
def mvb (out : Bool) : List Byte × List Bool := okOf ([], []) (mvj out).2
def mvu (out : Bool) : State × MRes Unit := engineWriteN (mvj out).1 1 0 (!out) (mvdst out) (mvb out).1
def mvrun (out : Bool) : UpdRun :=
  { cmd := ref1, step := 0, list := [], phase := .hold, pos := [(0, 256)], guard := 0
    acc := [(0, { PassAcc.start with digM := ((List.range 1).flatMap fun _ => chunksOf 16 (mvb out).1).foldl digestBlock 0 })] }

theorem mv_ok (out : Bool) : mvj out = ((mvj out).1, .ok (mvb out)) ∧ true ∉ (mvb out).2 ∧ mvu out = ((mvu out).1, .ok ()) := by
  cases out
  · exact ⟨ok_eq, by decide +kernel, ok_unit⟩
  · exact ⟨ok_eq, by decide +kernel, ok_unit⟩

theorem mv_digest (out : Bool) :
    (engineWriteN (setUpdRun (mvu out).1 (mvrun out)) 1 0 false 0x40007000 (leBytes (digest (mvb out).1).toNat 16)).2 = .ok () := by
  cases out <;> decide +kernel

/-- An element with a finite and one with an infinite gradient; a chunk of 64 elements with its reads and judged writes; the end of the
group; a move in either direction, with and without its digest. -/
theorem witness_UpdatePass :
    (let p := passOf (groupWord (upass 0) 0) re0 0
     (fmul .rne (gradDecode p.gfmt p.gscl 0x3F800000) p.gmul).toNat / 2 ^ 23 % 256 ≠ 255 ∧
      (fmul .rne (gradDecode p.gfmt p.gscl 0x7F800000) p.gmul).toNat / 2 ^ 23 % 256 = 255) ∧
    (let s := upass 0
     Runs s ref1 0x40 (k1 0x40 0x40001000 1 0 0) ∧ (∃ r, updRunOf s ref1 = some r ∧ r.phase = .pass ∧ (chipList r 0)[NMap.getD r.pos 0 0]? = some re0 ∧
        (NMap.getD r.acc 0 .start).chunk * 64 + 64 < (passOf (groupWord s 0) re0 0).n) ∧ updHalted s ref1 0 = false ∧
      (let j1 := judgeState s 1 0 .write (pieces 0x80000000 256)
       let j2 := judgePieces j1.1 1 .write (pieces 0x40003000 256)
       let j3 := engineReadN j2.1 1 0 true 0x80000000 256
       let j4 := engineReadN j3.1 1 0 false 0x40002000 256
       j1 = (j1.1, .ok (okOf [] j1.2)) ∧ j2 = (j2.1, .ok (okOf [] j2.2)) ∧
        j3 = (j3.1, .ok (okOf ([], []) j3.2)) ∧ j4 = (j4.1, .ok (okOf ([], []) j4.2)) ∧ true ∉ (okOf ([], []) j3.2).2 ∧ true ∉ (okOf ([], []) j4.2).2)) ∧
    (let s := { upass 0 with poison := [0x100000000FF / 64] }
     true ∈ (okOf ([], []) (engineReadN s 1 0 true 0x80000000 256).2).2) ∧
    (let s := upass 0
     let own := fun (t : Target) => decide (regionOf t.pa = .slow 0 ∨ regionOf t.pa = .far 0)
     (okOf [] (judgePieces s 1 .write (pieces 0x80000000 256)).2).all own = true ∧
      (okOf [] (judgePieces s 1 .write (pieces 0x40003000 64)).2).any own = false ∧
      (match (judgePieces s 1 .write (pieces 0x40003000 64)).2 with | .ok ts => ts.length == 1 | _ => false) = true) ∧
    (let s := upass 2
     let p := passOf (groupWord s 0) re0 0
     let a := { PassAcc.start with chunk := 2 }
     p.n ≤ a.chunk * 64 ∧ (let s' := setParams s 0 (entryAfter p (groupWord s 0) a)
       (engineWriteN s' 1 0 false 0x40004000 (resultRecord s' 0 0 a.guard)).2 = .ok ())) ∧
    (∀ out : Bool, Runs (mvs out) ref1 0x43 (k1 0x43 (mvw out) 0x40005000 0x40007000 0) ∧ updHalted (mvs out) ref1 0 = false ∧ (mvw out).getLsbD 16 = !out ∧
      (mvs out).heldGroups = [] ∧ updRunOf (mvs out) ref1 = none ∧ (mvsrc out + 256 ≤ mvdst out ∨ mvdst out + 256 ≤ mvsrc out) ∧
      (let e := groupWord (mvs out) 0
       ((e 1).toNat % 2 ^ 40 + 63) / 64 * chunkBytes (e 0) = 256 ∧ (e 2).toNat % 2 ^ 52 / 64 * 64 = (if out then mvsrc out else mvdst out))) := by
  refine ⟨by decide +kernel, ⟨runs_updr _, ⟨_, rfl, rfl, rfl, by decide +kernel⟩, rfl, ok_eq, ok_eq,
    ok_eq, ok_eq, by decide +kernel⟩, by decide +kernel, by decide +kernel,
    by decide +kernel, fun out => ?_⟩
  cases out
  · exact ⟨runs_upd .., by decide +kernel⟩
  · exact ⟨runs_upd .., by decide +kernel⟩

/-! ### Home slices and channels -/

def line0 : SLine := { dirty := [], poisonOn := [], poisonOff := [], part := 0, way := 0, filled := [0x40, 0x41, 0x42, 0x43] }
def req (op : SliceOp) (agent : Nat := 0) (pa : Nat := 0x1000) : SliceReq :=
  { requester := 1, agent := agent, ctx := 1, part := 1, pa := pa, bytes := 4, cp := 0, op := op, poison := false }
/-- Context 1, with line 0x1000 held; on demand the first 256 KiB are an ordered range of 4 contributors. -/
def slc (ordered : Bool) : State := { st1 with
  lines := [(0x10, line0)], parts := if ordered then [(0, { PartEntry.reset with w3 := 0x4080 })] else [] }
/-- A hundred and sixty sectors of one bank of slice 7. -/
def bankSectors : List Nat := (List.range 10).flatMap fun b =>
  (List.range 16).map fun j => (b * 0x10000000 + (7 ^^^ ((mix (BitVec.ofNat 64 (b * 1024))).toNat % 256)) * 1024) / 64 + j
def bankFull : State := { st1 with misses := bankSectors.map fun k => (k, { fwd := false, kept := false, waiters := [req .read] }) }
def paIn7 : Nat := 0xA0000000 + (7 ^^^ ((mix 10240).toNat % 256)) * 1024
def frozen0 : State := { st1 with tiles := [(0, { tile1 with streams := [(0,
  { kind := 3, d0 := 0, d1 := 0, d2 := 0, d3 := 0, d4 := 0, d5 := 0, d6 := 0, d7 := 0, pc := 0, group := none, st := .active, next := 0, issued := [], failed := []
    frozen := [0x40], seen := [] })] })] }

def wq (r : SliceReq) : Waiting := { num := 0, req := r, joined := [] }
/-- Slice 7 with a full bank, and its queue of that bank full too. -/
def queueFull : State := { bankFull with bankQ := List.replicate 15 (wq { req .read 0 paIn7 with requester := 2 }) }

/-- Requests in a hole, to a frozen sector, for a held line whose sector is or is not dead; misses that join, find a register, meet a full bank
and a full queue; a write, an atomic, and reductions in and out of turn; and a dead hint. -/
theorem witness_Slices : st1.run = .up ∧ regionOf 0xC000000000 = .hole ∧ regionOf 0x1000 = .fast ∧ noFaults st1 = true ∧
    (req .read).pa % 64 + (req .read).bytes ≤ 64 ∧ frozenSector frozen0 0x40 = true ∧ frozenSector (slc true) 0x40 = false ∧
    (∀ o, NSet.has (slc o).dead 0x40 = false ∧ held (slc o) 0x1000 = true ∧ sliceHit (slc o) 0x1000 4 = true ∧ (slc o).misses = [] ∧
      (slc o).bankQ = [] ∧ (slc o).refused = []) ∧ NSet.has [0x40] 0x40 = true ∧ held st1 0x1000 = false ∧ sliceHit st1 0x1000 4 = false ∧
    (let s := { st1 with misses := [(0x40, { fwd := false, kept := false, waiters := [req .read] })] }
     NMap.find s.misses 0x40 ≠ none ∧ waitersUsed s (homeSlice s 0x1000) < 4095) ∧
    (let s := { st1 with refused := [wq (req .read)] }
     ∃ q ∈ s.refused, q.req.requester = (req .read).requester ∧ q.req.pa / 64 = 0x40) ∧
    ((missesOf st1 (homeSlice st1 0x1000)).countP (fun e => !e.2.kept) < 1279 ∧ missesIn st1 (homeSlice st1 0x1000) (bankOf 0x1000) < 160) ∧
    (NMap.find bankFull.misses (paIn7 / 64) = none ∧ homeSlice bankFull paIn7 = 7 ∧ 160 ≤ missesIn bankFull 7 (bankOf paIn7) ∧
      (queueOfReq bankFull (req .read 0 paIn7)).length < 15 ∧ regionOf paIn7 = .fast ∧ bankFull.bankQ = [] ∧ bankFull.refused = []) ∧
    (let s := queueFull
     15 ≤ (queueOfReq s { req .read 0 (paIn7 + 64) with requester := 2 }).length ∧ ∀ q ∈ s.bankQ, q.req.pa / 64 ≠ (paIn7 + 64) / 64) ∧
    atomFn 32 0 0 (1 % 2 ^ 32) 0 ≠ none ∧ reduceOp 1 = true ∧ 0x1000 % (reduceWidths 1).1 = 0 ∧ (reduceWidths 1).2 = 4 ∧ (reduceWidths 1).1 = 4 ∧
    orderedAt (slc false) 0x1000 = none ∧ orderedAt (slc true) 0x1000 = some 4 ∧ NMap.getD (slc true).nexts 0x40 0 = 0 ∧
    waitersUsed (slc true) (homeSlice (slc true) 0x1000) < 4095 := by decide +kernel

/-- Refused requests that find a register, take the one kept for the oldest, and find no place; a transfer for one reader, with and without
a credit; the adder's buffer; and an ordered reduction whose turn has come. -/
theorem witness_SliceQueues :
    (let s := { st1 with refused := [wq (req .read)] }
     NMap.find s.misses 0x40 = none ∧ s.bankQ = [] ∧ noTransfer s (req .read) = false ∧
      (missesOf s (homeSlice s 0x1000)).countP (fun e => !e.2.kept) < 1279 ∧ missesIn s (homeSlice s 0x1000) (bankOf 0x1000) < 160) ∧
    (let r := req .read 0 (paIn7 + 64)
     let s := { bankFull with refused := [wq r] }
     160 ≤ missesIn s 7 (bankOf r.pa) ∧ homeSlice s r.pa = 7 ∧ NMap.find s.misses (r.pa / 64) = none ∧ noTransfer s r = false ∧
      isOldest s (wq r) = true ∧ keptUsed s 7 = false) ∧
    (let r := req .read 0 (paIn7 + 64)
     let s := { queueFull with refused := [{ wq r with num := 1 }] }
     160 ≤ missesIn s 7 (bankOf r.pa) ∧ isOldest s { wq r with num := 1 } = false ∧ 15 ≤ (queueOfReq s r).length ∧
      ∀ w ∈ s.bankQ, w.req.pa / 64 ≠ r.pa / 64) ∧
    (∀ n ∈ [0, 1024], let s := { st1 with
       misses := [(0x40, { fwd := false, kept := false, waiters := [req .read] })], credits := [(homeSlice st1 0x1000 * 64 + 1, n)] }
     (granted s (homeSlice s 0x1000) 1 = true ↔ n = 0) ∧ (creditLeft s (homeSlice s 0x1000) 1 = true ↔ n = 0) ∧
      waitingParts s (homeSlice s 0x1000) = [1] ∧ s.bankQ = []) ∧
    ({ st1 with addBufs := [(0x40, 1)] }).addBufs.find? (fun b => b.1 == 0x40) = some (0x40, 1) ∧
    (let s := { slc true with turns := [req (.reduce 1 0 [0, 0, 0, 0])] }
     s.turns.find? (fun q => q.pa / 64 == 0x40 && q.agent == 0) = some (req (.reduce 1 0 [0, 0, 0, 0])) ∧ (ctxOf s 1).state = .active ∧
      frozenSector s 0x40 = false ∧ noFaults s = true ∧ ∀ q ∈ st1.turns, ¬ (q.pa / 64 = 0x40 ∧ q.agent = 0)) ∧
    (let s := { slc true with ctxs := [(0, Ctx.zero), (1, { ctxOf st1 1 with state := .faulted })] }
     (ctxOf s (req .read).ctx).state = .faulted) := by decide +kernel

/-- Staged entries that a commit applies and refuses for each reason. -/
def staged0 (w0 w1 w2 w3 : DWord) : State := { st1 with
  parts := [(0, { PartEntry.reset with w0 := 0x1810000000000000, w3 := 0x0000000000004080 })], staged := [(5, { w0 := w0, w1 := w1, w2 := w2, w3 := w3 })]
  nexts := [(0, 1)] }

theorem witness_Channels : st1.run = .up ∧ linkUp st1 = true ∧ st1.pcbNext = none ∧ ({ st1 with pcbNext := some (0, PartEntry.reset) }).pcbNext.isSome = true ∧
    (∀ b, b < 32 → missesIn st1 3 b < 10) ∧ (counter st1 2 3 12).toNat % 2 ^ 32 < 2 ^ 32 - 1 ∧
    (let w := fun (x : DWord) hi lo => x.toNat / 2 ^ lo % 2 ^ (hi + 1 - lo)
     let c1 := fun (s : State) (p : Nat) => let e := stagedOf s p
       decide (8 < w e.w0 63 60 ∨ w e.w0 59 53 = 0 ∨ 64 < w e.w0 59 53 ∨ w e.w0 52 49 = 0 ∨ w e.w0 48 0 ≠ 0 ∨ w e.w1 13 0 ≠ 0 ∨ w e.w2 13 0 ≠ 0 ∨
        w e.w3 4 0 ≠ 0 ∨ (w e.w3 13 5 = 0 ∧ w e.w3 33 14 ≠ 0) ∨ 352 < w e.w3 13 5)
     let c2 := fun (s : State) (p : Nat) => decide (8 < w (stagedOf s p).w0 63 60 + (((List.range 63).filter (· ≠ p)).map fun q => w (partOf s q).w0 63 60).sum)
     let ob := fun (s : State) q => w (partOf s q).w3 63 34
     let os := fun (s : State) q => w (partOf s q).w3 33 14
     let size := fun (s : State) (p : Nat) => decide (256 < w (stagedOf s p).w3 33 14 + (((List.range 63).filter (· ≠ p)).map (os s)).sum)
     let high := fun (s : State) (p : Nat) => let e := stagedOf s p
       [(w e.w1 63 34, w e.w1 33 14), (w e.w2 63 34, w e.w2 33 14), (w e.w3 63 34, w e.w3 33 14)].any fun r => decide (r.2 ≠ 0 ∧ 0xBC00000000 / 2 ^ 18 < r.1 + r.2)
     c1 (staged0 0 0 0 0) 5 ∧ (let s := staged0 0x8810000000000000 0 0 0
        ¬ c1 s 5 ∧ c2 s 5) ∧ (let s := staged0 0x0810000000000000 0x3FFFFFFC00004000 0 0
        ¬ c1 s 5 ∧ ¬ c2 s 5 ∧ high s 5) ∧
      (let s := staged0 0x0810000000000000 0 0 0
       ¬ c1 s 5 ∧ ¬ c2 s 5 ∧ ¬ high s 5 ∧ ¬ size s 5 ∧ ¬ 0 < w (stagedOf s 5).w3 33 14 ∧ (partOf s 5).w3 = (stagedOf s 5).w3) ∧
      (let s := { staged0 0 0 0 0 with staged := [(0, PartEntry.reset)] }
       ¬ c1 s 0 ∧ ¬ c2 s 0 ∧ ¬ high s 0 ∧ ¬ size s 0 ∧ ¬ 0 < w (stagedOf s 0).w3 33 14 ∧ (partOf s 0).w3 ≠ (stagedOf s 0).w3 ∧
        ∃ x ∈ s.nexts, ob s 0 ≤ x.1 / 4096 ∧ x.1 / 4096 < ob s 0 + os s 0)) ∧
    patrolEnds st1 0x1000 = false ∧ creditLeft st1 (homeSlice st1 0x1000) 63 = true ∧ 85 < (90 : Int) ∧
    (let s := { st1 with patrol := [(4, [0x40, 0x41, 0x42])], spareRows := [] }
     (NSet.add (NMap.getD st1.patrol 4 []) 0x40).length < 4 ∧ 4 ≤ (NSet.add (NMap.getD s.patrol 4 []) 0x43).length ∧
      NMap.getD s.spareRows (homeSlice s 0x10C0 * 32 + bankOf 0x10C0) 0 < 2 ∧
      2 ≤ NMap.getD ({ s with spareRows := [(homeSlice s 0x10C0 * 32 + bankOf 0x10C0, 2)] }).spareRows (homeSlice s 0x10C0 * 32 + bankOf 0x10C0) 0) ∧
    NSet.has st1.retire (0x1000 / 65536) = false ∧
    (let s := { st1 with chips := [(0, { TierChip.empty with dimmA := 64, dimmB := 64, cxl := 512 }), (1, { TierChip.empty with link := .down, dimmA := 64, slowA := true, dimmB := 64, slowB := true })] }
     (chipOf s 0).link ≠ .down ∧ (chipOf s 1).link = .down ∧ (chipOf s 0).cxl ≠ 0 ∧ (chipOf s 0).cxlLost = false ∧ 0 < farBytes s 0 ∧
      (chipOf s 0).slowA = false ∧ (chipOf s 1).slowA = true ∧ (chipOf s 0).slowB = false ∧ (chipOf s 0).retries < 1024) ∧
    1024 ≤ (chipOf { st1 with chips := [(0, { TierChip.empty with retries := 1024 })] } 0).retries ∧
    (chipOf { st1 with chips := [(0, { TierChip.empty with retries := 1024 })] } 0).link ≠ .down := by decide +kernel

/-! ### The fabric -/

/-- A live buffer of context 1 that covers its first 64 KiB frame, and the receive translation entry for it. -/
def obj1 : Obj := { Obj.empty with state := .live, kind := .buffer, rights := 7, owner := 1, gen := 1, w1 := 0x40000000, w2 := 1 }
def rx1 : Rxt := { w0 := 0xF000100007000000, w1 := 0x10000, w2 := 0x40000000, w3 := 0x00100001 }
def rxBytes (e : Rxt) : List Byte := [e.w0, e.w1, e.w2, e.w3].flatMap fun w => leBytes w.toNat 8
def tab (op : Byte) (w0 w3 : DWord) (bs : List Byte) : State := { st1 with
  cmds := [k1 op w0 0x40001000 0 w3], objs := [(1, obj1)], mem := memPut page1 0x40001000 bs }

/-- Images of the four tables, and entries that fail: a bad code and a bad handle; a table read out; a job's first record and the 4,097th. -/
theorem witness_FabricTables :
    (∀ w0 w3 : DWord, ∀ bs, Runs (tab 0x3A w0 w3 bs) ref1 0x3A (k1 0x3A w0 0x40001000 0 w3)) ∧
    (∀ t : Fin 4, let es : List (List Byte) := if t = 0 then [rxBytes rx1] else if t = 1 then [[1, 0, 0, 0], [2, 0, 0, 0]] else if t = 2 then [[3], [4]]
       else [List.replicate 8 0 ++ leBytes 0x0101000000000020 8 ++ List.replicate 112 0]
     let s := tab 0x3A (BitVec.ofNat 64 t.val) (BitVec.ofNat 64 es.length) es.flatten
     ReadsTo s 1 0x40001000 es.flatten (afterReads s 1 0x40001000 es.flatten.length) ∧ ∀ e ∈ es, imageChk s t.val e = .good) ∧
    (let s := tab 0x3A 0 1 []
     imageChk s 1 [0, 0, 0x10, 0] = .bad ∧ rxtChk s rx1 = .good ∧ rxtChk s { rx1 with w0 := 1 } = .bad ∧ rxtChk s { rx1 with w0 := 0 } = .good ∧
      imageChk s 0 (rxBytes { rx1 with w3 := 0x00100002 }) = .handle badHandle 0x00100002 ∧ (ctxOf s 1).state = .active ∧ (ctxOf s 1).job.toNat = 7 ∧
      checkHandle s 1 0x00100001 { kinds := [.buffer], imports := true, right := some 2 } = none) ∧
    (∀ e ∈ [[0, 0, 0x10, 0], [0, 0, 0, 0]], let es : List (List Byte) := [e]
     ReadsTo (tab 0x3A 1 1 es.flatten) 1 0x40001000 es.flatten (afterReads (tab 0x3A 1 1 es.flatten) 1 0x40001000 4)) ∧
    (let s := tab 0x3A 0x11 2 []
     (0x11 : DWord).getLsbD 4 = true ∧ WritesTo s 1 0x40001000 ((List.range 2).flatMap fun i => tableBytes s 1 i)
      (afterWrites s 1 0x40001000 ((List.range 2).flatMap fun i => tableBytes s 1 i))) ∧
    (∀ w0 : DWord, Runs (tab 0x3B w0 0 []) ref1 0x3B (k1 0x3B w0 0x40001000 0 0)) ∧ NMap.find (tab 0x3B 0 0 []).jobs 7 = none ∧
    ((List.range 4096).map fun i => (i, ({ epoch := 0, cdig := 0, flags := [] } : Job))).length = 4096 := by
  refine ⟨fun _ _ _ => ⟨rfl, rfl, rfl, rfl, rfl, .inl rfl⟩, fun t => ?_, by decide +kernel, fun e he => ?_, ⟨by decide, writesTo⟩,
    fun _ => ⟨rfl, rfl, rfl, rfl, rfl, .inl rfl⟩, rfl, by simp⟩
  · match t with
    | 0 => exact ⟨readsTo, by decide +kernel⟩
    | 1 => exact ⟨readsTo, by decide +kernel⟩
    | 2 => exact ⟨readsTo, by decide +kernel⟩
    | 3 => exact ⟨readsTo, by decide +kernel⟩
  · simp only [List.mem_cons, List.not_mem_nil, or_false] at he
    rcases he with rfl | rfl
    · exact readsTo
    · exact readsTo

def pkt (type : BitVec 6) (vc : BitVec 2) (len : BitVec 6) (opx : BitVec 8) (payload : List Byte) (offset : BitVec 40 := 0) : Packet :=
  { type := type, vc := vc, dnode := 5, snode := 6, sinc := 1, job := 7, window := 0, len := len, offset := offset, tag := 9, dinc := 0, status := 0
    opx := opx, scale := 0, arg := 0, payload := payload, poison := [] }
def flit (seq : BitVec 10) (good : Bool) : Flit := { seq := seq, ack := 0, cvc := 0, cred := 1, good := good, packets := [pkt 1 0 0 0 []] }
def prt (p : Port) : State := { st1 with fabCfg := [(0, 0x8000000000000005)], ports := [(3, p)] }

/-- Masks of lanes that train and do not; ports that train, meet a hello, receive flits in and out of order, and lose a spare lane, a lane
that is replaced, and one lane too many. -/
theorem witness_FabricPorts : ((List.range 9).filter (0x007 : Nat).testBit).length < 4 ∧ 4 ≤ ((List.range 9).filter (0x00F : Nat).testBit).length ∧
    (let s := prt { Port.reset with pstate := .down, training := true }
     s.run = .up ∧ (portOf s 3).pstate = .down ∧ (portOf s 3).training = true ∧ lanesFor 0x1FF = some 0x0FF ∧ lanesFor 0x007 = none) ∧
    (let s := prt { Port.reset with pstate := .trained }
     (portOf s 3).pstate = .trained ∧ fabCv s = true ∧ fabCv st1 = false) ∧
    (let s := prt { Port.reset with pstate := .active }
     (portOf s 3).pstate = .active ∧ s.injections = [] ∧ s.rehomed = [] ∧ (flit 0 true).good = true ∧ (flit 0 true).seq = (portOf s 3).rxSeq ∧
      (flit 1 true).seq ≠ (portOf s 3).rxSeq ∧ (∀ p ∈ (flit 0 true).packets, answers s p.dnode.toNat = true ∧ 1 ≤ p.type.toNat ∧ p.type.toNat ≤ 4 ∧ p.vc = 0) ∧
      (flit 0 true).packets.length < 2 ^ 32 ∧ (counter s 4 3 5).toNat < 2 ^ 63 ∧ (portOf s 3).failed.getLsbD 8 = false ∧ (portOf s 3).lanes.getLsbD 8 = false ∧
      (portOf s 3).lanes.getLsbD 0 = true ∧ lanesFor (~~~((portOf s 3).failed ||| BitVec.ofNat 9 (2 ^ 0))).toNat ≠ none ∧ (portOf s 3).replay = []) ∧
    (let d := portOf (prt { Port.reset with pstate := .active, failed := 0x1E0, lanes := 0x00F }) 3
     d.failed.getLsbD 0 = false ∧ d.lanes.getLsbD 0 = true ∧ lanesFor (~~~(d.failed ||| BitVec.ofNat 9 (2 ^ 0))).toNat ≠ none) ∧
    (let d := portOf (prt { Port.reset with pstate := .active, failed := 0x1F0, lanes := 0x00F }) 3
     d.failed.getLsbD 0 = false ∧ d.lanes.getLsbD 0 = true ∧ lanesFor (~~~(d.failed ||| BitVec.ofNat 9 (2 ^ 0))).toNat = none) := by decide +kernel

/-- A packet in the inbox, a receive translation entry, and a way to answer node 6 by port 3. -/
def box (p : Packet) (e : Rxt) (o : Obj) (rs : NMap Remote) : State := { st1 with
  fabCfg := [(0, 0x8000000000000005)], ports := [(3, { Port.reset with pstate := .active, cred1 := 16 })], nodeRoute := [(6, 8)], rxt := [(0, e)]
  objs := [(1, o)], inbox := [(3, p)], remotes := rs }

theorem packet_here (p : Packet) (e : Rxt) (o : Obj) (rs : NMap Remote) (type : Nat) (ht : p.type.toNat = type) : PacketHere (box p e o rs) p type 3 :=
  ⟨rfl, ht, by simp [box, frontPort]⟩

def readP : Packet := pkt 1 0 0 0 []
def writeP : Packet := pkt 2 0 0 0 [1, 2, 3, 4]
def reduceP : Packet := pkt 3 0 0 1 [1, 0, 0, 0]
def atomicP : Packet := pkt 4 0 0 0 [1, 0, 0, 0]

def remote0 (what : RemoteOf) (read : Bool) : Remote :=
  { what := what, ctx := 1, queue := 0, node := 6, window := 0, offset := 0, bytes := 8, pc := 0, read := read }
/-- A stream of requests to or from another module, of which request 0 has been issued. -/
def strm1 (kind : Nat) : Strm :=
  { kind := kind, d0 := 0, d1 := 0, d2 := 0, d3 := 0, d4 := 0, d5 := 0, d6 := 0, d7 := 0, pc := 0, group := none, st := .active, next := 1, issued := [0]
    failed := [], frozen := [], seen := [] }
def rspS (p : Packet) (q : Remote) (kind : Nat) : State := { box p rx1 obj1 [(9, q)] with tiles := [(0, { tile1 with streams := [(0, strm1 kind)] })] }

theorem witness_FabricPackets :
    (∀ e o rs, PacketHere (box readP e o rs) readP 1 3 ∧ PacketHere (box writeP e o rs) writeP 2 3 ∧ PacketHere (box reduceP e o rs) reduceP 3 3 ∧
      PacketHere (box atomicP e o rs) atomicP 4 3) ∧
    (requestShape readP false = true ∧ requestShape writeP true = true ∧ reduceShape reduceP = true ∧ atomicShape atomicP = true ∧
      requestShape { readP with offset := 1 } false = false) ∧
    (let s := box readP rx1 obj1 []
     let fits := fun (e : Rxt) => e.w0.getLsbD 63 && decide (e.w0.toNat / 2 ^ 24 % 2 ^ 20 = 7 ∧ e.w1.toNat / 2 ^ 40 % 2 ^ 24 * 65536 ≤ 0 ∧
      0 < (e.w1.toNat / 2 ^ 40 % 2 ^ 24 + e.w1.toNat / 2 ^ 16 % 2 ^ 24) * 65536)
     NMap.getD s.peerInc 6 0 = 0 ∧ fits (rxtOf s 0) = true ∧ (∀ k, k < 8 → fits (rxtOf (box readP Rxt.empty obj1 []) k) = false) ∧
      (objOf s 1).state = .live ∧ (objOf s 1).gen.toNat = 1 ∧ (ctxOf s 1).state = .active ∧ (ctxOf s 1).job = readP.job ∧
      (objOf (box readP rx1 Obj.empty []) 1).state ≠ .live ∧ (rxtOf s 0).w0.getLsbD 60 = true ∧ (rxtOf s 0).w0.getLsbD 61 = true ∧
      (rxtOf s 0).w0.getLsbD 62 = true ∧ ({ rx1 with w0 := 0x8000100007000000 } : Rxt).w0.getLsbD 60 = false) ∧
    (let inc := NMap.getD ({ box readP rx1 obj1 [] with peerInc := [(6, 2)] }).peerInc 6 0
     inc ≠ 0 ∧ inc ≠ readP.sinc) ∧
    (∀ p ∈ [readP, writeP, reduceP, atomicP], let x := taken (box p rx1 obj1 []) p
     walk x 1 0x40000000 = .leaf 0x400000FF 2 0xBC80010008 ∧ x.oldPtes = [] ∧ noFaults x = true ∧ pteRmt 0x400000FF = true ∧
      (∀ q ∈ pieces 0x40000000 4, q.1 / 64 ≠ 0xBC80010008 / 64 ∧ frozenSector x (q.1 / 64) = false ∧ NSet.has x.dead (q.1 / 64) = false ∧ orderedAt x q.1 = none)) ∧
    (∀ w : Bool, let x := taken (box readP rx1 obj1 []) readP
     Reaches x 1 (if w then .write else .read) 0x40000000 0x40000000 0 0xBC80010008) ∧
    (let f := fun (p : DWord) => { box readP { rx1 with w2 := p } obj1 [] with mem := memPut page1 0xBC80010018 (leBytes 0x1000000C00000FF 8) }
     (match walk (f 0x80000000) 1 0x80000000 with | .fault c _ => c == pageNotPresent | _ => false) = true ∧
      (match walk (f 0xC0000000) 1 0xC0000000 with | .fault c _ => c != pageNotPresent | _ => false) = true) := by
  refine ⟨fun _ _ _ => ⟨?_, ?_, ?_, ?_⟩, by decide +kernel, by decide +kernel, by decide +kernel, ?_, fun w => by cases w <;> exact goes_reaches,
    by decide +kernel⟩
  iterate 4 exact packet_here _ _ _ _ _ rfl
  intro p hp
  simp only [List.mem_cons, List.not_mem_nil, or_false] at hp
  rcases hp with rfl | rfl | rfl | rfl <;> decide +kernel

/-- Responses: to another incarnation, with an unknown tag, of the wrong kind, and to each kind of issuer, with status 0 and 3. -/
theorem witness_FabricResponses :
    (∀ p e o rs, p.type = 0x10 → PacketHere (box p e o rs) p 0x10 3) ∧ (∀ p e o rs, p.type = 0x11 → PacketHere (box p e o rs) p 0x11 3) ∧
    (∀ p e o rs, p.type = 0x12 → PacketHere (box p e o rs) p 0x12 3) ∧
    (let p := pkt 0x11 1 0 0 []
     p.dinc = (cfgWord (box p rx1 obj1 []) 1).extractLsb' 40 8 ∧ ({ p with dinc := 3 } : Packet).dinc ≠ (cfgWord (box p rx1 obj1 []) 1).extractLsb' 40 8 ∧
      NMap.find (box p rx1 obj1 []).remotes 9 = none ∧ NMap.find (box p rx1 obj1 [(9, remote0 (.msgSend 0 none) false)]).remotes 9 = some (remote0 (.msgSend 0 none) false) ∧
      p.status = 0 ∧ ({ p with status := 3 } : Packet).status ≠ 0) ∧
    (∀ q : Remote, launchOn (box (pkt 0x11 1 0 0 []) rx1 obj1 [(9, q)]) 0 = some launch1) ∧ launch1.ctx = 1 ∧
    (pkt 0x10 1 1 0 (leBytes 77 8)).payload = leBytes 77 8 ∧
    (∀ kind ∈ [4, 5], let s := rspS (pkt 0x11 1 0 0 []) (remote0 (.stream 0 0 0) (kind == 4)) kind
     launchOn s 0 = some launch1 ∧ NMap.find (tileOf s 0).streams 0 = some (strm1 kind) ∧ 0 ∈ (strm1 kind).issued) := by
  refine ⟨fun p e o rs h => packet_here p e o rs _ (by rw [h]; rfl), fun p e o rs h => packet_here p e o rs _ (by rw [h]; rfl),
    fun p e o rs h => packet_here p e o rs _ (by rw [h]; rfl), by decide +kernel, fun _ => rfl, rfl, rfl, by decide +kernel⟩

/-! ### Checking, power, management, boot and the Sovel window -/

def sample0 (bad : Bool) (group : Option Nat) : Sample := { group := group, pc := 0x40000000, part := 0x1200, mask := 3, bad := bad, age := 0 }
def chk (x : Sample) (rung : BitVec 3) : State := { st1 with
  tiles := [(0, { tile1 with samples := [x] })], islands := [(0, { Island.reset with rung := rung })] }

theorem witness_Checking : (∀ b g r, (tileOf (chk (sample0 b g) r) 0).samples = [sample0 b g] ∧ launchOn (chk (sample0 b g) r) 0 = some launch1 ∧
      (chk (sample0 b g) r).run = .up) ∧ (islandOf (chk (sample0 false none) 0) 0).rung.toNat < 6 ∧ 6 ≤ (islandOf (chk (sample0 false none) 6) 0).rung.toNat ∧
    (sample0 true none).bad = true ∧ (sample0 false (some 0)).group ≠ none ∧ (tileOf st1 0).samples = [] ∧
    (let s := { st1 with marked := [1] }
     NSet.has st1.marked 1 = false ∧ (tileOf st1 0).launch ≠ none ∧ NSet.has s.marked 1 = true ∧ (tileOf s 1).launch = none ∧
      (siteMap s (1 / 192)).1.contains (1 % 192) = true ∧ (siteMap s 0).2 ≠ [] ∧ (siteMap { s with spares0 := [] } 0).2 = []) ∧
    (let j : Injection := { det := 0x0E, kind := 0, ctx := 1, target := 0, va := 0 }
     let s := { chk (sample0 true none) 0 with injections := [j] }
     j ∈ s.injections ∧ j.det = 0x0E ∧ j.ctx = launch1.ctx ∧ j.target.toNat = 0) ∧
    noFaults st1 = true ∧ st1.latents = [] ∧
    (let s := { st1 with latents := [{ det := 0x13, kind := 0, target := 5, array := 0, pa := 0 }] }
     (∃ l ∈ s.latents, l.det = 0x13 ∧ l.target = 5) ∧ (islandOf s 5).trips + s.latents.countP (fun l => decide (l.det = 0x13 ∧ l.target = 5)) ≤ 256 ∧
      (counter s 6 5 1).toNat + 256 < 2 ^ 64) ∧
    st1.injections = [] ∧ ([(0, 5), (3, 7)].map (·.1)).Nodup := by
  refine ⟨fun _ _ _ => ⟨rfl, rfl, rfl⟩, by decide +kernel⟩

/-- Measurements on each line of the governor's table, at the reset envelope of 1,100 W and at lower voltages and a lower ceiling. -/
theorem witness_PowerCommands :
    (let p := st1.power
     let eff := min (min (min p.envcap.toNat (74 * 5400 / 100)) (if p.envreq = 0 then p.envcap.toNat else max 1100 (min 2600 p.envreq.toNat)))
        (if p.coolId = 1 then 1100 else p.envcap.toNat)
     let vreq := if p.opreq = 0 then 620 else if p.opreq = 2 then 820 else 750
     eff < 1200 ∧ 550 < p.vcore.toNat ∧ 900 + 50 < eff ∧ p.vcore.toNat < vreq ∧ ¬ p.ceil.toNat < 16) ∧
    ({ Power.reset with vcore := 550 }.vcore.toNat ≤ 550 ∧ { Power.reset with ceil := 9 }.ceil.toNat < 16 ∧ 750 < { Power.reset with vcore := 800 }.vcore.toNat) ∧
    st1.run ≠ .off ∧ { st1 with run := .off }.run = .off ∧ (3200 < 3300 ∧ 1000 < 1001) ∧ (6300 < 6400 ∧ 1000 < 1001) ∧ ((0 : Nat) < 412 ∧ (115 : Int) ≤ 115) ∧
    (9000 ≤ 9000 ∧ 1000 ≤ 1000) ∧ ¬ (3300 < 3300 ∧ 1000 < 1001) ∧ ¬ (6300 < 6300 ∧ 1000 < 1001) ∧ ¬ ((412 : Nat) < 412 ∧ (115 : Int) ≤ 115) ∧
    ¬ (9000 ≤ 8999 ∧ 1000 ≤ 1000) := by decide +kernel

/-- A mailbox request of a type, and one from the board; whether the core has come far enough; a life-cycle state of each kind. What a good
signature or password hash lets through cannot be shown: the cryptographic functions are open (notes/assumptions/3.md). -/
def mbx (type : Byte) (life : Life) : State := { st1 with
  boot := { st1.boot with mbstate := 1, reqBuf := [(0, type)] }, persist := { st1.persist with life := life } }

theorem witness_Management :
    (∀ type ∈ [(1 : Byte), 5], linkUp (mbx type .owned) = true ∧ (mbx type .owned).run = .up ∧ (mbx type .owned).boot.mbstate = 1 ∧
      NMap.getD (mbx type .owned).boot.reqBuf 0 0 = type) ∧
    NMap.getD st1.boot.reqBuf 0 0 ≠ 1 ∧ 8 ≤ st1.mgmt.progStep.toNat ∧ ¬ 8 ≤ ({ st1.mgmt with progStep := 5 } : Mgmt).progStep.toNat ∧ 0x13 ≤ st1.mgmt.progStep.toNat ∧
    (let p := { st1.power with stackT := [(0, 60), (1, 50)], dimmT := [(0, 40)] }
     (∃ e ∈ p.stackT, e.2 = 60) ∧ (∀ e ∈ p.stackT, e.2 ≤ 60) ∧ (∃ e ∈ p.dimmT, e.2 = 40) ∧ ∀ e ∈ p.dimmT, e.2 ≤ 40) ∧
    (1100 ≤ 1100 ∧ 1100 ≤ 2600 ∧ 2600 < 2601) ∧
    transitionOk st1.persist { fromSt := 0, target := 0, devid := 0, ogen := 0, newOwn := 0, rsvZero := false, sets := [] } = false ∧
    (∀ life ∈ [Life.owned, .vendor], (mbx 1 life).persist.life = life) ∧ st1.mgmt.fails < 8 ∧ 8 ≤ ({ st1.mgmt with fails := 8 } : Mgmt).fails ∧
    st1.mgmt.nonce = none ∧
    (st1.persist.ownerCert.length + st1.persist.ownerData.length + 4 ≤ 2 ^ 24 ∧ ({ st1.mgmt with events := [] } : Mgmt).events = [] ∧ st1.mgmt.events = 2 :: [] ∧
      ({ st1.mgmt with events := [1], stopAt := some (6, 2) } : Mgmt).events = 1 :: [] ∧ st1.mgmt.stopAt = none) ∧
    st1.persist.ownerCert = [] ∧ ({ st1.persist with ownerCert := [1] } : Persist).ownerCert ≠ [] ∧ ({ st1 with run := .scrapped } : State).run = .scrapped ∧
    st1.power.mgmtMode = true ∧ ({ st1.power with mgmtMode := false } : Power).mgmtMode = false := by decide +kernel

def boot0 : BootIn := { trials := [], dimms := [none], cxlGiB := [], sovLo := 1, sovHi := 1, wbase := 0, hashKey := 0, interrupted := none }
def img0 : Image := { (default : Image) with magic := 0 }

/-- A sound boot of a scrapped module, of one that holds no whole image, and the states that a recovery fetch meets; an image whose header
fails. That an image passes cannot be shown: the signature functions are open (notes/assumptions/3.md). -/
theorem witness_BootCommands :
    (let p := st1.persist
     let b := boot0
     p.fallback = [] ∧ p.resetPending = false ∧ p.boot ≠ BitVec.allOnes 32 ∧ p.stagedRevoke = none ∧
      p.steplog = [] ∧ b.torn = 0 ∧ b.bridgeBad.Nodup ∧ b.trials = [] ∧ b.interrupted = none ∧ (∀ d ∈ b.dimms, d = none) ∧ b.sovLo.toNat ≤ 1 ∧ 1 ≤ b.sovHi.toNat ∧
      b.wbase.toNat % 2 ^ 35 = 0 ∧ b.wbase.toNat ≤ 2 ^ 47 - 2 ^ 35 ∧ p.life ≠ .owned ∧ p.life ≠ .scrapped) ∧
    ({ st1.persist with life := .scrapped } : Persist).life = .scrapped ∧ ((({ st1.persist with image := none } : Persist).image).map (imageFails st1.persist)).getD (some 1) = some 1 ∧
    imageFails st1.persist img0 = some 1 ∧
    (let s := { st1 with run := .off }
     s.run = .off ∧ s.power.latch = false ∧ (0 : BitVec 2).toNat ≤ 1 ∧ 3550 ≤ 5400 ∧ 5400 ≤ 6300 ∧ s.power.overVolt = false) ∧ st1.run ≠ .off ∧
    (let s := { st1 with run := .recovery }
     s.run = .recovery ∧ linkUp s = true ∧ s.mgmt.rstate = 1 ∧ (1 : DWord).getLsbD 0 = true ∧ ({ s.mgmt with rstate := 2 } : Mgmt).rstate = 2 ∧
      s.persist.staged = none) := by decide +kernel

/-- R424: a header of one section of type 1 at 4 KiB, stepping B0 and security version 7, read byte by byte from the table. -/
theorem test_image_header :
    headerBytes { img0 with magic := 0x4D495647, hver := 1, len := 0x2000, svn := 7, build := 9, nsec := 1, stepg := 0xB0, sections := [(1, 1)] } =
      [0x47, 0x56, 0x49, 0x4D, 1, 0, 0, 0, 0, 0x20, 0, 0, 0, 0, 0, 0, 7, 0, 0, 0, 9, 0, 0, 0, 0xB0, 1, 0, 0, 0, 0, 0, 0, 1, 0, 1, 0, 0, 0] := by decide +kernel

/-- "A DIMM that hangs in training" (13): the sixth unit begun in step 0x0C leaves the progress value at 0x0C00_0005. -/
theorem test_progress_of_the_sixth_unit :
    progressOf { st1 with mgmt := (List.range 6).foldl (fun m _ => progressTo m 0x0C) { st1.mgmt with progStep := 0x0B, progCount := 77 } } = 0x0C000005 := by
  decide +kernel

/-- Sovel windows that go down, retrain on nine, four and three lanes, and lose lanes; accesses of every kind to every part. -/
theorem witness_SovelWindow :
    (let s := { st1 with sovel := { st1.sovel with lstate := 0, held := [{ pa := 0x800000000000, byte := 7, site := none }] } }
     linkUp s = false ∧ s.sovel.dead = false ∧ ({ s.sovel with dead := true } : Sovel).dead = true ∧ s.sovel.wbase = 0 ∧ lanesFor 0x007 = none ∧ lanesFor 0x1FF ≠ none ∧
      (st1.sovel.failed.getLsbD 8 = false ∧ st1.sovel.lanes.getLsbD 8 = false ∧ st1.sovel.lanes.getLsbD 0 = true ∧
        lanesFor (~~~(st1.sovel.failed ||| BitVec.ofNat 9 (2 ^ 0))).toNat ≠ none ∧
        lanesFor (~~~((0x1F0 : BitVec 9) ||| BitVec.ofNat 9 (2 ^ 0))).toNat = none)) ∧
    linkUp st1 = true ∧ st1.run = .up ∧ inDriverPool (0xBC00000000 + 0x80000000) = true ∧ 0x80000000 < 0x400000000 ∧ inDriverPool (0xBC00000000 + 0x480000) = false ∧
    frozenSector st1 ((0xBC00000000 + 0x80000000) / 64) = false ∧
    (let s := { st1 with tiles := [(0, { tile1 with streams := [(0, { strm1 4 with frozen := [0xBC80000000 / 64] })] })] }
     frozenSector s (0xBC80000000 / 64) = true ∧ linkUp s = true) ∧
    (let s := { st1 with run := .recovery, sovel := { st1.sovel with lstate := 3 } }
     linkUp s = true ∧ s.run = .recovery ∧ s.mgmt.rstate = 1) ∧
    noFaults st1 = true ∧ st1.boot.locked = false ∧ st1.boot.mbstate ≠ 1 ∧ leNat (cohBytes st1 (0xBC00000000 + 0x80000000) 8) = 0xBC80010001 ∧
    leNat (cohBytes st1 (0xBC00000000 + 0x80000000) 8) ≠ 0 ∧ 0x80000000 % 64 + 8 ≤ 64 ∧ ((8 = 4 ∨ 8 = 8) ∧ 0x40 % 8 = 0) ∧ ¬ ((3 = 4 ∨ 3 = 8) ∧ 0x40 % 3 = 0) := by
  decide +kernel

/-- A module that has stopped, and a command that is none of those that the statement leaves out. -/
theorem witness_StopPersists : ({ st1 with run := .stop } : State).run = .stop ∧ (∀ b, Instr.nop ref1 ≠ .modReset b) ∧ (∀ ms, Instr.nop ref1 ≠ .powerOff ms) ∧
    (∀ v us, Instr.nop ref1 ≠ .undervoltageTurnOff v us) ∧ (∀ v us, Instr.nop ref1 ≠ .overvoltageTurnOff v us) ∧
    (∀ island tj, Instr.nop ref1 ≠ .thermalTrip island tj) ∧ (∀ v us, Instr.nop ref1 ≠ .breakerTrip v us) ∧ Instr.nop ref1 ≠ .mateShortBreak := by
  refine ⟨rfl, ?_, ?_, ?_, ?_, ?_, ?_, ?_⟩ <;> simp

/-! ### Well-formedness refuses a term for each of its checks -/

def bad : CmdRef := { ctx := 4096, queue := 0, index := 0, lpos := 0 }

theorem test_wf_command : (Instr.nop ref1).wf = true ∧ (Instr.nop bad).wf = false ∧ (Instr.copy { ref1 with queue := 16 }).wf = false ∧
    (Instr.klaunch { ref1 with index := 2 ^ 32 }).wf = false ∧ (Instr.updateRun { ref1 with lpos := 65537 }).wf = false ∧
    (Instr.updateChunk ref1 4).wf = false ∧ (Instr.combinePoll ref1 32768).wf = false := by decide

theorem test_wf_front_end : (Instr.doorbellWrite 4096 0 0 []).wf = false ∧ (Instr.doorbellWrite 1 16 0 []).wf = false ∧
    (Instr.doorbellWrite 1 0 0 [(2 ^ 47, 0)]).wf = false ∧ (Instr.packetParse 1 16).wf = false ∧ (Instr.commandStart (.engine 5)).wf = false ∧
    (Instr.commandStart (.control 0 16)).wf = false ∧ (Instr.arbitrationStarvationGuard 5).wf = false ∧
    (Instr.contextFault 1 { FaultInfo.none with queue := 16 }).wf = false ∧ (Instr.objectRelease 0).wf = false ∧
    (Instr.objectRelease (2 ^ 20)).wf = false ∧ (Instr.contextReachFree 4096).wf = false := by decide

theorem test_wf_tile : (Instr.addi 384 { rd := 1, rs1 := 0, imm := 0 }).wf = false ∧
    (Instr.ld 0 64 { dst := 0, src1 := 0, fn := 0, imm := 0 }).wf = false ∧
    (Instr.halloc 0 (.th 64 { dst := 0, src1 := 0, src2 := 0, src3 := 0, fn := 0, mod := 0, rsv := 0 })).wf = false ∧
    (Instr.batonTry 0 (.th 64 { dst := 0, src1 := 0, src2 := 0, src3 := 0, fn := 0, mod := 0, rsv := 0 })).wf = false ∧ (Instr.freezeAcquire 0 64).wf = false ∧
    (Instr.armedQueueStart 0 16).wf = false ∧ (Instr.islandWindow 412).wf = false := by decide

theorem test_wf_memory : (Instr.sliceRequest { req .read with part := 64 }).wf = false ∧ (Instr.sliceRequest { req .read with pa := 2 ^ 48 }).wf = false ∧
    (Instr.sliceRequest { req .read with ctx := 4096 }).wf = false ∧ (Instr.creditReturn 256).wf = false ∧
    (Instr.channelTransferComplete (2 ^ 42) .clean).wf = false ∧ (Instr.sliceEviction (2 ^ 40)).wf = false ∧ (Instr.refresh 256 0).wf = false ∧
    (Instr.patrolRead (2 ^ 48) .clean).wf = false ∧ (Instr.tierLinkFlitRetry 4).wf = false ∧ (Instr.dimmThermalLimit 8 0).wf = false := by decide

theorem test_wf_links : (Instr.retryRequest 20 0).wf = false ∧ (Instr.laneFailure 0 9).wf = false ∧ (Instr.sovelLaneFailure 9).wf = false ∧
    (Instr.windowRead (2 ^ 35) 8).wf = false ∧ (Instr.registerWrite (2 ^ 32) 0 8 []).wf = false ∧ (Instr.nconsWrite 0 [(2 ^ 47, 1)]).wf = false ∧
    (Instr.modReset boot0).wf = false ∧ (Instr.modReset { boot0 with dimms := List.replicate 8 none, cxlGiB := [0, 0, 0, 0] }).wf = true := by decide

/-! ### Worked examples of the manual -/

/-- R342, "the digest of sixteen zero bytes". -/
theorem test_digest_of_sixteen_zero_bytes : digest (List.replicate 16 0) = 0x4D049BB133111EBBF58476D1CE4E5F2F := by decide +kernel

/-- R230, "one element through a bucket": 0.003 at scale 19 becomes 0x6625, and −0.0012 added to it 0x6360. -/
theorem test_bucket_element : (hopElem 0 19 none 0x3B449BA6).1 = 0x6625 ∧ (hopElem 0 19 (some 0x6625) 0xBA9D4952).1 = 0x6360 := by decide +kernel

/-- R225, "one MXFP8 block": 3.1 at E = 120 is stored as 0x7C, and 3.24 as 0x7D. -/
theorem test_block_element : round .e4m3 .rne false (scaleV 7 (decode .f32 0x40466666)) = 0x7C ∧
    round .e4m3 .rne false (scaleV 7 (decode .f32 0x404F5C29)) = 0x7D := by decide +kernel

/-- R287, "finding a home": the granule index, the bank and the set. -/
theorem test_home : granuleIndex 0x24C359A80 = 0x930D ∧ bankOf 0x24C359A80 = 21 ∧ setOf 0x24C359A80 = 54 := by decide

/-- R303, "one ordered sector": 16,777,216 + 1.0 rounds to even, then −2^24 gives +0 and 1.0 gives 1.0. -/
theorem test_ordered_values : reduceElem 2 0 0x4B800000 0x3F800000 = 0x4B800000 ∧ reduceElem 2 0 0x4B800000 0xCB800000 = 0 ∧
    reduceElem 2 0 0 0x3F800000 = 0x3F800000 := by decide +kernel

/-- R189, "capacity with drop": every expert takes three, and four of the twelve assignments are dropped. -/
theorem test_capacity_with_drop : (placeAll [0x0200000000000000] (fun _ => 3)
      ([[0, 1, 2, 3], [0, 2, 1, 3], [0, 1, 3, 2], [0, 3, 1, 2], [1, 0, 2, 3], [0, 1, 2, 3]].map fun r => { ranks := r, gates := [] })).2.map
        (fun a => (a.token, a.rank, a.expert, a.status, a.slot)) =
      [(0, 0, 0, 0, 0), (1, 0, 0, 0, 1), (2, 0, 0, 0, 2), (3, 0, 0, 2, 0), (4, 0, 1, 0, 0), (5, 0, 0, 2, 0),
        (0, 1, 1, 0, 1), (1, 1, 2, 0, 0), (2, 1, 1, 0, 2), (3, 1, 3, 0, 0), (4, 1, 0, 2, 0), (5, 1, 1, 2, 0)] := by decide +kernel

/-- R454, "the envelope lowered under load": at 2,400 W of 2,600 W the hold count is 5; at 1,800 W of envelope the voltage falls by 10 mV and the
hold count is 0. -/
theorem test_envelope : (match exec (.governorPeriod 2400 4444 5400 60 30) { st1 with power := { st1.power with envcap := 2600, vcore := 750 } } with
      | .next t => decide (t.power.hold = 5 ∧ t.power.vcore = 750) | _ => false) = true ∧
    (match exec (.governorPeriod 2400 4444 5400 60 30) { st1 with power := { st1.power with envcap := 1800, vcore := 750 } } with
      | .next t => decide (t.power.hold = 0 ∧ t.power.vcore = 740) | _ => false) = true := by decide +kernel

/-- R418: the CRC-32 of IEEE 802.3, whose published check value is that of the nine digits. -/
theorem test_crc32 : crc32 [0x31, 0x32, 0x33, 0x34, 0x35, 0x36, 0x37, 0x38, 0x39] = 0xCBF43926 := by decide +kernel

/-- Control-core words by R99 and R100, field by field: ADDI s1, s2, -1; LIM s3, chunk 2; BLTU s4, s5, -2; JAL s1, -1; LD.W;
G.START; END; MFENCE.F; STRM.WAIT's opcode 0x30; an all-zero word, and the reserved opcode 0x1F. -/
theorem test_cc_words :
    ccDecode 7 0b000010_000001_000010_11111111111111 = some (.addi 7 { rd := 1, rs1 := 2, imm := 0x3FFF }) ∧
    ccDecode 7 0b001011_000011_10_00_1010101111001101 = some (.lim 7 { rd := 3, k := 2, rsv := 0, imm16 := 0xABCD }) ∧
    ccDecode 7 0b010100_000100_000101_11111111111110 = some (.bltu 7 { rs1 := 4, rs2 := 5, off := 0x3FFE } none) ∧
    ccDecode 7 0b010110_000001_11111111111111111111 = some (.jal 7 { rd := 1, off := 0xFFFFF }) ∧
    ccDecode 7 0b001101_000110_000111_00000000000100 = some (.ldW 7 { rd := 6, rs1 := 7, imm := 4 }) ∧
    ccDecode 7 0b011000_000001_000010_000011_00000000 = some (.gStart 7 { rd := 1, rs1 := 2, rs2 := 3, fn := 0 }) ∧
    ccDecode 7 0b011010_000000_000000_000000_00000001 = some (.endTile 7 { rd := 0, rs1 := 0, rs2 := 0, fn := 1 }) ∧
    ccDecode 7 0b011010_000000_000000_000000_00000100 = some (.mfenceF 7 (.cc { rd := 0, rs1 := 0, rs2 := 0, fn := 4 })) ∧
    ccDecode 7 0b110000_000001_000010_000011_00010000 = some (.strmWait 7 (.cc { rd := 1, rs1 := 2, rs2 := 3, fn := 0x10 })) ∧
    ccDecode 7 0 = none ∧ ccDecode 7 0b011111_00000000000000000000000000 = none := by decide

/-- Thread words by R103 and R105: an integer ALU instruction, LD with an offset, BRA, TOK.WAIT, EXIT and SREG; an all-zero
word and a reserved opcode. -/
theorem test_th_words :
    thDecode 7 9 0x01_02_03_04_05_06_7_089 = some (.integerAlu 7 9 { dst := 2, src1 := 3, src2 := 4, src3 := 5, fn := 6, mod := 7, rsv := 0x89 }) ∧
    thDecode 7 9 0x08_02_04_06_FFFFFFF8 = some (.ld 7 9 { dst := 2, src1 := 4, fn := 6, imm := 0xFFFFFFF8 }) ∧
    thDecode 7 9 0x10_FF_FF_00_00000010 = some (.bra 7 9 { dst := 0xFF, src1 := 0xFF, fn := 0, imm := 0x10 }) ∧
    thDecode 7 9 0x18_FF_FF_03_0000000F = some (.tokWait 7 9 { dst := 0xFF, src1 := 0xFF, fn := 3, imm := 0xF }) ∧
    thDecode 7 9 0x1C_FF_FF_01_00000000 = some (.exit 7 9 { dst := 0xFF, src1 := 0xFF, fn := 1, imm := 0 }) ∧
    thDecode 7 9 0x1C_05_FF_05_00000002 = some (.sreg 7 9 { dst := 5, src1 := 0xFF, fn := 5, imm := 2 }) ∧
    thDecode 7 9 0 = none ∧ thDecode 7 9 0x3D_00_00_00_00000000 = none := by decide

/-- R349: the first bit of the stream is bit 0 of a symbol; symbols go to the lanes in turn; a marker's twelve symbols; the
levels of the bits 00, 01, 11 and 10. -/
theorem test_wire : symbolsOf (bitsOf [0x01, 0x06, 0xF0, 0x3F, 0x00]) = [0x201, 1, 0x3FF, 0] ∧ dealt 2 1 [1, 2, 3, 4, 5] = [2, 4] ∧
    marker 3 0x10004FF = [0x2A5, 0x15A, 0x2A5, 0x15A, 0x3C3, 0x03C, 3, 1020, 0xFF, 1, 16, 0] ∧
    [(false, false), (false, true), (true, true), (true, false)].map (fun p => pam4 p.1 p.2) = [0, 1, 2, 3] ∧
    levelsOf [0b1011010010] = [1, 0, 3, 2, 1] ∧ ((flitWire 0x3FF 1 2 1 0x80 []).take 4 = [0x80, 0x19, 0xC0, 0xFF]) := by decide +kernel

/-- R347, R349: a message of one 1 has the generator itself as its parity, and a codeword is 544 symbols. -/
theorem test_codeword : (genPoly 30).length = 30 ∧ rsParity (genPoly 30) [1] = genPoly 30 ∧
    (codeword (List.replicate 514 0)).length = 544 := by decide +kernel

end Sys2Proof.Tests
end

section
/-! Facts that the statements about queues and commands share: what a command that runs does, and bytes in and out of
numbers and lists. -/

set_option Elab.async false

namespace Sys2Proof.Machine

/-! ### Commands -/

theorem cmdOf_ref {s : State} {c : CmdRef} {k : Cmd} (h : cmdOf s c = some k) : k.ref = c := by
  simpa using List.find?_some h

/-- A command that may go on has the effect of its opcode. -/
theorem runCmd_runs {s : State} {c : CmdRef} {op : Nat} {k : Cmd} (h : Runs s c op k) (f : State → Cmd → State) :
    runCmd s c op f = f s k := by
  simp [runCmd, h.cmd, h.started, h.opcode, h.stopped, h.ctx]

/-! ### Bytes of lists and numbers -/

theorem sliceList_append {α : Type} (d : α) (l : List α) (pos m n : Nat) :
    sliceList d l pos (m + n) = sliceList d l pos m ++ sliceList d l (pos + m) n := by
  simp [sliceList, List.range_add, Nat.add_assoc]

theorem sliceList_all {α : Type} (d : α) (l : List α) : sliceList d l 0 l.length = l := by
  apply List.ext_getElem
  · simp [sliceList]
  · intro i h1 h2; simp [sliceList, List.getElem?_eq_getElem h2]

/-- A slice of a slice is a slice. -/
theorem sliceList_sliceList {α : Type} (d : α) (l : List α) {a b m n : Nat} (h : b + m ≤ n) :
    sliceList d (sliceList d l a n) b m = sliceList d l (a + b) m := by
  apply List.ext_getElem
  · simp [sliceList]
  · intro i h1 _
    have hi : b + i < n := by simp [sliceList] at h1; omega
    simp [sliceList, List.getElem?_range hi, Nat.add_assoc]

theorem sliceList_map_range {α : Type} (d : α) (f : Nat → α) {a m n : Nat} (h : a + m ≤ n) :
    sliceList d ((List.range n).map f) a m = (List.range m).map fun i => f (a + i) := by
  apply List.ext_getElem
  · simp [sliceList]
  · intro i h1 _
    have hi : a + i < n := by simp [sliceList] at h1; omega
    simp [sliceList, List.getElem?_range hi]

theorem leNat_leBytes (x n : Nat) : leNat (leBytes x n) = x % 256 ^ n := by
  induction n generalizing x with
  | zero => simp [leBytes, leNat, Nat.mod_one]
  | succ n ih =>
    rw [leBytes, leNat, ih, BitVec.toNat_ofNat]
    exact (Nat.mod_mul (a := 256)).symm.trans (by rw [Nat.pow_succ'])

theorem sliceList_head {α : Type} (d : α) (a l : List α) : sliceList d (a ++ l) 0 a.length = a := by
  apply List.ext_getElem
  · simp [sliceList]
  · intro i h1 h2; simp [sliceList, List.getElem?_append, h2]

theorem sliceList_tail {α : Type} (d : α) (a l : List α) (pos n : Nat) :
    sliceList d (a ++ l) (a.length + pos) n = sliceList d l pos n := by
  refine List.map_congr_left fun i _ => ?_
  rw [Nat.add_assoc, List.getElem?_append_right (by omega), Nat.add_sub_cancel_left]

/-- Words of eight bytes, one after another (R8). -/
def wordBytes (ws : List Nat) : List Byte := (ws.map fun x => leBytes x 8).flatten

theorem length_wordBytes (ws : List Nat) : (wordBytes ws).length = 8 * ws.length := by
  induction ws with
  | nil => rfl
  | cons w r ih => rw [wordBytes, List.map_cons, List.flatten_cons, List.length_append, length_leBytes, List.length_cons]; exact
      (congrArg (8 + ·) ih).trans (by omega)

theorem leNat_wordBytes {ws : List Nat} {n x : Nat} (hn : ws[n]? = some x) (hx : x < 2 ^ 64) :
    leNat (sliceList 0 (wordBytes ws) (8 * n) 8) = x := by
  induction ws generalizing n with
  | nil => cases hn
  | cons w r ih =>
    have hw : wordBytes (w :: r) = leBytes w 8 ++ wordBytes r := rfl
    have hl := length_leBytes w 8
    cases n with
    | zero =>
      cases hn
      have := sliceList_head (0 : Byte) (leBytes x 8) (wordBytes r)
      rw [hl] at this
      rw [hw, Nat.mul_zero, this, leNat_leBytes]
      exact Nat.mod_eq_of_lt hx
    | succ n =>
      have := sliceList_tail (0 : Byte) (leBytes w 8) (wordBytes r) (8 * n) 8
      rw [hl] at this
      rw [hw, Nat.mul_succ, Nat.add_comm, this]
      exact ih hn

/-- Bytes that a store has put into memory. -/
theorem memPut_slice (m : NMap Byte) (pa : Nat) (bs : List Byte) {o n : Nat} (h : o + n ≤ bs.length) :
    ((List.range n).map fun j => NMap.getD (memPut m pa bs) (pa + o + j) 0) = sliceList 0 bs o n := by
  refine List.map_congr_left fun j hj => ?_
  rw [List.mem_range] at hj
  have hi : o + j < bs.length := by omega
  rw [Nat.add_assoc, memByte_memPut_inside pa bs hi, List.getElem?_eq_getElem hi, Option.getD_some]

/-! ### Companion writes and notifications -/

theorem companionWrite_frame (s : State) (pa : Nat) (bs : List Byte) :
    ∃ mem sovel, companionWrite s pa bs = { s with mem := mem, sovel := sovel } := by
  unfold companionWrite; split <;> exact ⟨_, _, rfl⟩

theorem testInterrupt_frame (s : State) :
    ∃ mem sovel boot, testInterrupt s = { s with mem := mem, sovel := sovel, boot := boot } := by
  unfold testInterrupt sendInterrupt
  dsimp only
  split
  · split
    · obtain ⟨m, v, h⟩ := companionWrite_frame s (0x800000000000 + s.boot.intaddr.toNat * 4) (leBytes s.boot.intdata.toNat 4)
      exact ⟨m, v, _, by rw [h]⟩
    · exact ⟨_, _, _, rfl⟩
  · exact ⟨_, _, _, rfl⟩

/-- A notification changes memory, what waits for the link, and the bootstrap block. -/
theorem notify_frame (s : State) (type queue ctx : Nat) (seq : Word) (code : Nat) :
    ∃ mem sovel boot, notify s type queue ctx seq code = { s with mem := mem, sovel := sovel, boot := boot } := by
  unfold notify
  dsimp only
  split
  · exact ⟨_, _, _, rfl⟩
  · generalize leBytes _ 8 ++ leBytes _ 8 = bs
    generalize s.boot.nbase.toNat * 16 + s.boot.nprod.toNat % 2 ^ (8 + s.boot.nsize.toNat) * 16 = pa
    obtain ⟨m, v, h⟩ := companionWrite_frame s pa bs
    rw [h]
    obtain ⟨m', v', b', h'⟩ := testInterrupt_frame { s with mem := m, sovel := v, boot := { s.boot with nprod := s.boot.nprod + 1 } }
    exact ⟨m', v', b', h'⟩

end Sys2Proof.Machine
end

section
/-! COPY, FILL, NOP, TIME_MARK and CALL_LIST (R71, R73, R74, R87, R393, R411): a move in blocks of 4 KiB makes the accesses of
the whole range, sector by sector. -/

set_option Elab.async false

namespace Sys2Proof.Machine

/-! ### Pieces -/

@[simp] theorem pieces_zero (a : Nat) : pieces a 0 = [] := by simp [pieces]

/-- What is cut at a sector end is cut there in any case. -/
theorem pieces_append {a m : Nat} (n : Nat) (h : (a + m) % 64 = 0 ∨ m = 0) : pieces a (m + n) = pieces a m ++ pieces (a + m) n := by
  rcases Nat.eq_zero_or_pos m with rfl | hm
  · simp
  rcases Nat.eq_zero_or_pos n with rfl | hn
  · simp
  have h64 : (a + m) % 64 = 0 := by omega
  have hc : (a % 64 + (m + n) + 63) / 64 = (a % 64 + m + 63) / 64 + ((a + m) % 64 + n + 63) / 64 := by omega
  simp only [pieces, if_neg (Nat.pos_iff_ne_zero.1 hm), if_neg (Nat.pos_iff_ne_zero.1 hn), if_neg (show m + n ≠ 0 by omega), hc,
    List.range_add, List.map_append, List.map_map]
  congr 1
  · refine List.map_congr_left fun i hi => ?_
    rw [List.mem_range] at hi
    split <;> simp only [Prod.mk.injEq, true_and] <;> omega
  · refine List.map_congr_left fun i _ => ?_
    simp only [Function.comp, if_neg (show ¬ (a % 64 + m + 63) / 64 + i = 0 by omega)]
    split <;> simp only [Prod.mk.injEq] <;> omega

theorem pieces_one {a n : Nat} (hn : 0 < n) (h : a % 64 + n ≤ 64) : pieces a n = [(a, n)] := by
  have hc : (a % 64 + n + 63) / 64 = 1 := by omega
  simp only [pieces, if_neg (Nat.pos_iff_ne_zero.1 hn), hc, List.range_one, List.map_cons, List.map_nil, if_true]
  congr 2; omega

/-- The first piece reaches up to the sector end. -/
theorem pieces_cons {a n : Nat} (hn : 0 < n) :
    pieces a n = (a, min n (64 - a % 64)) :: pieces (a + min n (64 - a % 64)) (n - min n (64 - a % 64)) := by
  by_cases h : a % 64 + n ≤ 64
  · rw [pieces_one hn h, show min n (64 - a % 64) = n by omega]; simp
  · rw [show min n (64 - a % 64) = 64 - a % 64 by omega]
    conv => lhs; rw [show n = (64 - a % 64) + (n - (64 - a % 64)) by omega]
    rw [pieces_append _ (by omega), pieces_one (by omega) (by omega)]; rfl

/-- The bytes of the pieces in order are the bytes of the range. -/
theorem pieces_flatMap_slice {α : Type} (d : α) (l : List α) {base a : Nat} (n : Nat) (h : base ≤ a) :
    (pieces a n).flatMap (fun p => sliceList d l (p.1 - base) p.2) = sliceList d l (a - base) n := by
  induction n using Nat.strong_induction_on generalizing a with
  | _ n ih =>
    rcases Nat.eq_zero_or_pos n with rfl | hn
    · simp [sliceList]
    · rw [pieces_cons hn, List.flatMap_cons, ih _ (by omega) (by omega)]
      conv => rhs; rw [show n = min n (64 - a % 64) + (n - min n (64 - a % 64)) by omega, sliceList_append]
      congr 2; omega

/-- A block of a range that ends at its end or at a sector end is cut as the range is. -/
theorem pieces_block {dst n pos len : Nat} (h : pos + len ≤ n) (hs : (dst + pos) % 64 = 0 ∨ pos = 0)
    (he : (dst + (pos + len)) % 64 = 0 ∨ pos + len = n) :
    (pieces dst (pos + len)).length = (pieces dst pos).length + (pieces (dst + pos) len).length ∧
    ∀ i p, (pieces (dst + pos) len)[i]? = some p → (pieces dst n)[(pieces dst pos).length + i]? = some p := by
  have h1 := pieces_append (a := dst) len hs
  refine ⟨by simp [h1], fun i p hp => ?_⟩
  have h2 : ∃ r, pieces dst n = pieces dst (pos + len) ++ r := by
    rcases he with he | he
    · exact ⟨_, by rw [← pieces_append (n - (pos + len)) (.inl he)]; congr 1; omega⟩
    · exact ⟨[], by simp [he]⟩
  obtain ⟨r, h2⟩ := h2
  obtain ⟨hi, -⟩ := List.getElem?_eq_some_iff.1 hp
  rw [h2, h1, List.append_assoc, List.getElem?_append_right (by omega), List.getElem?_append_left (by omega)]
  rw [Nat.add_sub_cancel_left, hp]

/-! ### Accesses cut at sector ends -/

theorem mem_pieces_of_get {a n i : Nat} {p : Nat × Nat} (h : (pieces a n)[i]? = some p) :
    p.1 % 64 + p.2 ≤ 64 ∧ a ≤ p.1 ∧ p.1 + p.2 ≤ a + n := mem_pieces (List.mem_of_getElem? h)

theorem toNat_ofNat_mod_64 (x : Nat) : (BitVec.ofNat 64 x).toNat % 64 = x % 64 := by
  rw [BitVec.toNat_ofNat]; omega

/-- An access within a sector that reaches the fast tier stays in its line. -/
theorem reaches_in_line {s : State} {ctx : Nat} {acc : Acc} {x pa cp at_ n : Nat} (h : Reaches s ctx acc (BitVec.ofNat 64 x) pa cp at_)
    (hx : x % 64 + n ≤ 64) : touchesReserved pa n = false ∧ pa % 256 + n ≤ 256 := by
  have h1 := toNat_ofNat_mod_64 x
  have h2 := h.mod
  exact ⟨h.outside (by omega), by omega⟩

/-- What a write of a chain's piece does. -/
theorem storeChain_step {s : State} {ctx va : Nat} {bs : List Byte} {σ : Nat → State} {pa cp at_ : Nat → Nat}
    (h : StoreChain s ctx va bs σ pa cp at_) {i : Nat} {p : Nat × Nat} (hp : (pieces va bs.length)[i]? = some p) :
    vWrite (σ i) ctx (BitVec.ofNat 64 p.1) (sliceList 0 bs (p.1 - va) p.2) false = (σ (i + 1), .ok ()) ∧
    MemoryOnly (σ i) (σ (i + 1)) ∧ BytesKept (σ i) (σ (i + 1)) (pa i) p.2 (at_ i) ∧
    cohBytes (σ (i + 1)) (pa i) p.2 = sliceList 0 bs (p.1 - va) p.2 := by
  obtain ⟨hr, hf, hσ⟩ := h.piece i p hp
  obtain ⟨hn, hl⟩ := reaches_in_line hr (mem_pieces_of_get hp).1
  have hlen := length_sliceList (0 : Byte) bs (p.1 - va) p.2
  obtain ⟨t, hw, hm, hk, hb⟩ := vWrite_reaches (sliceList 0 bs (p.1 - va) p.2) false false hr hf (by rwa [hlen]) (by rwa [hlen])
  rw [hw] at hσ
  rw [hlen] at hk
  refine ⟨by rw [hw, hσ], by rwa [hσ], by rwa [hσ], ?_⟩
  rw [hσ]
  apply List.ext_getElem
  · simp [cohBytes, length_sliceList]
  · intro j h1 h2; simp [cohBytes, hb j h2]

theorem storeChain_stored {s : State} {ctx va : Nat} {bs : List Byte} {σ : Nat → State} {pa cp at_ : Nat → Nat}
    (h : StoreChain s ctx va bs σ pa cp at_) : Stored va bs σ pa at_ := fun _ _ hp => (storeChain_step h hp).2

/-- What a read of a chain's piece does. -/
theorem loadChain_step {s : State} {ctx va n : Nat} {bs : List Byte} {σ : Nat → State} {pa cp at_ : Nat → Nat}
    (h : LoadChain s ctx va n bs σ pa cp at_) {i : Nat} {p : Nat × Nat} (hp : (pieces va n)[i]? = some p) :
    cRead (σ i) ctx (BitVec.ofNat 64 p.1) p.2 = (σ (i + 1), .ok (sliceList 0 bs (p.1 - va) p.2, false)) := by
  obtain ⟨hr, hq, hb, hσ⟩ := h.piece i p hp
  obtain ⟨t, ht, -⟩ := vRead_reaches p.2 false hr (reaches_in_line hr (mem_pieces_of_get hp).1).1
  have hc : cRead (σ i) ctx (BitVec.ofNat 64 p.1) p.2 = (t, .ok (cohBytes t (pa i) p.2, cohPoison t (pa i))) := ht
  rw [hc] at hσ
  rw [hσ] at hq hb ⊢
  rw [hc, hq, hb]

/-- Writes of pieces that each succeed follow one another. -/
theorem vWritePieces_chain (σ : Nat → State) (ctx base : Nat) (bs : List Byte) (poison : Nat → Bool) (ps : List (Nat × Nat)) (j : Nat)
    (h : ∀ i p, ps[i]? = some p → vWrite (σ (j + i)) ctx (BitVec.ofNat 64 p.1) (sliceList 0 bs (p.1 - base) p.2) (poison (p.1 - base)) =
      (σ (j + i + 1), .ok ())) :
    vWritePieces (σ j) ctx base bs poison false none ps = (σ (j + ps.length), .ok ()) := by
  induction ps generalizing j with
  | nil => rfl
  | cons p r ih =>
    have h0 : vWrite (σ j) ctx (BitVec.ofNat 64 p.1) (sliceList 0 bs (p.1 - base) p.2) (poison (p.1 - base)) = (σ (j + 1), .ok ()) :=
      h 0 p rfl
    rw [vWritePieces, h0]
    have := ih (j + 1) fun i q hq => by
      have := h (i + 1) q hq
      rwa [show j + (i + 1) = j + 1 + i by omega] at this
    simp only [this, List.length_cons]
    congr 2; omega

/-- Reads of pieces that each succeed follow one another. -/
theorem cReadPieces_chain (σ : Nat → State) (ctx : Nat) (f : Nat × Nat → List Byte) (ps : List (Nat × Nat)) (j : Nat)
    (h : ∀ i p, ps[i]? = some p → cRead (σ (j + i)) ctx (BitVec.ofNat 64 p.1) p.2 = (σ (j + i + 1), .ok (f p, false))) :
    cReadPieces (σ j) ctx ps = (σ (j + ps.length), .ok (ps.flatMap f, ps.map fun _ => false)) := by
  induction ps generalizing j with
  | nil => rfl
  | cons p r ih =>
    have h0 : cRead (σ j) ctx (BitVec.ofNat 64 p.1) p.2 = (σ (j + 1), .ok (f p, false)) := h 0 p rfl
    rw [cReadPieces, h0]
    have := ih (j + 1) fun i q hq => by
      have := h (i + 1) q hq
      rwa [show j + (i + 1) = j + 1 + i by omega] at this
    simp only [this, List.length_cons, List.flatMap_cons, List.map_cons]
    congr 2; omega

/-- A chain of reads delivers its bytes, without poison. -/
theorem cReadN_chain {s : State} {ctx va n : Nat} {bs : List Byte} {σ : Nat → State} {pa cp at_ : Nat → Nat}
    (h : LoadChain s ctx va n bs σ pa cp at_) :
    cReadN s ctx va n = (σ (pieces va n).length, .ok (bs, (pieces va n).map fun _ => false)) := by
  have hc := cReadPieces_chain σ ctx (fun p => sliceList 0 bs (p.1 - va) p.2) (pieces va n) 0 fun i p hp => by
    rw [Nat.zero_add]; exact loadChain_step h hp
  rw [pieces_flatMap_slice _ _ _ le_rfl, Nat.sub_self, ← h.size, sliceList_all, h.start, h.size, Nat.zero_add] at hc
  exact hc

/-- The write of a block of a chain's range makes the chain's accesses. -/
theorem vWriteN_block {s : State} {ctx dst : Nat} {bs : List Byte} {σ : Nat → State} {pa cp at_ : Nat → Nat}
    (h : StoreChain s ctx dst bs σ pa cp at_) {pos len : Nat} (hl : pos + len ≤ bs.length) (hs : (dst + pos) % 64 = 0 ∨ pos = 0)
    (he : (dst + (pos + len)) % 64 = 0 ∨ pos + len = bs.length) (poison : Nat → Bool) (hp : ∀ o, poison o = false) :
    vWriteN (σ (pieces dst pos).length) ctx (dst + pos) (sliceList 0 bs pos len) poison = (σ (pieces dst (pos + len)).length, .ok ()) := by
  obtain ⟨hlen, hget⟩ := pieces_block hl hs he
  unfold vWriteN
  rw [length_sliceList, vWritePieces_chain, hlen]
  intro i p hi
  obtain ⟨-, h1, h2⟩ := mem_pieces_of_get hi
  rw [hp, sliceList_sliceList 0 bs (by omega), show pos + (p.1 - (dst + pos)) = p.1 - dst by omega]
  exact (storeChain_step h (hget i p hi)).1

/-! ### FILL -/

/-- A fill of a chain's range makes the chain's accesses. -/
theorem fillBlocks_chain {s : State} {ctx dst : Nat} {pat : Word} {n : Nat} {σ : Nat → State} {pa cp at_ : Nat → Nat}
    (h : StoreChain s ctx dst (patternBytes pat 0 n) σ pa cp at_) (fuel pos : Nat) (hp : pos ≤ n)
    (hs : (dst + pos) % 4096 = 0 ∨ pos = 0 ∨ pos = n) (hf : pos = n ∨ (dst + pos) % 4096 + (n - pos) ≤ fuel * 4096) :
    fillBlocks fuel (σ (pieces dst pos).length) ctx dst n pat pos = (σ (pieces dst n).length, .ok ()) := by
  have hn : (patternBytes pat 0 n).length = n := by simp [patternBytes]
  induction fuel generalizing pos with
  | zero => rw [show pos = n by omega]; rfl
  | succ fuel ih =>
    unfold fillBlocks
    by_cases hpos : n ≤ pos
    · rw [if_pos hpos, show pos = n by omega]
    · rw [if_neg hpos]
      have hb : blockLen dst n pos = min (4096 - (dst + pos) % 4096) (n - pos) := rfl
      have hpat : patternBytes pat pos (blockLen dst n pos) = sliceList 0 (patternBytes pat 0 n) pos (blockLen dst n pos) := by
        simp only [patternBytes, Nat.zero_add]
        rw [sliceList_map_range _ _ (by omega)]
      have hw := vWriteN_block h (pos := pos) (len := blockLen dst n pos) (by omega) (by omega) (by omega) (fun _ => false) fun _ => rfl
      rw [hpat, hw]
      exact ih _ (by omega) (by omega) (by omega)

theorem patternBytes_eq (w : DWord) (n : Nat) : patternBytes (BitVec.ofNat 32 (fld w 31 0)) 0 n =
    (List.range n).map fun i => w.extractLsb' (8 * (i % 4)) 8 := by
  refine List.map_congr_left fun i _ => BitVec.eq_of_toNat_eq ?_
  have hi : i % 4 < 4 := Nat.mod_lt _ (by decide)
  simp only [byteOf, fld, field, BitVec.toNat_ofNat, BitVec.extractLsb'_toNat, Nat.shiftRight_eq_div_pow, Nat.zero_add]
  interval_cases i % 4 <;> omega

/-! ### COPY -/

theorem movedPoison_clean (src dst n o : Nat) (ps : List (Nat × Nat)) :
    movedPoison src dst n (ps.map fun _ => false) o = false := by
  simp only [movedPoison, List.any_eq_false]
  rintro ⟨p, q⟩ h
  obtain ⟨x, -, rfl⟩ := List.mem_map.1 (List.of_mem_zip h).2
  simp

theorem overlapBytes_apart (s : State) {src dst n : Nat} (bs : List Byte) (hn : bs.length = n) (h : src + n ≤ dst ∨ dst + n ≤ src) :
    overlapBytes s src dst n 0 bs = (s, bs) := by
  have hb : ∀ e ∈ bs.zipIdx, ¬ (dst ≤ src + 0 + e.2 ∧ src + 0 + e.2 < dst + n) := fun e he => by
    have := List.snd_lt_of_mem_zipIdx he; omega
  unfold overlapBytes
  rw [if_neg]
  simp only [List.any_eq_true, not_exists, not_and_or, Bool.and_eq_true, decide_eq_true_eq]
  exact fun e => (em (e ∈ bs.zipIdx)).elim (fun he => .inr (.inr (not_and_or.1 (hb e he)))) .inl

/-- A copy of one block between ranges apart makes the accesses of its chains. -/
theorem copyBlock_chains {s : State} {ctx src dst n : Nat} {bs : List Byte} {ρ σ : Nat → State} {pa cp at_ pb cq bt : Nat → Nat}
    (hr : LoadChain s ctx src n bs ρ pa cp at_) (hw : StoreChain (ρ (pieces src n).length) ctx dst bs σ pb cq bt)
    (ha : src + n ≤ dst ∨ dst + n ≤ src) : copyBlock s ctx src dst n 0 n = (σ (pieces dst n).length, .ok ()) := by
  have hv := vWriteN_block hw (pos := 0) (len := n) (by rw [hr.size]; omega) (.inr rfl) (.inr (by rw [hr.size]; omega))
    (movedPoison src dst n ((pieces src n).map fun _ => false)) fun o => movedPoison_clean ..
  rw [pieces_zero, List.length_nil, hw.start, ← hr.size, sliceList_all, hr.size, Nat.add_zero, Nat.zero_add] at hv
  unfold copyBlock
  simp only [Nat.add_zero, cReadN_chain hr, overlapBytes_apart _ bs hr.size ha, hv, fromSrc]

/-- The positions of a copy's blocks: its start, then the 4 KiB boundaries of its destination (R87). -/
def copyPos (dst start i : Nat) : Nat := if i = 0 then start else ((dst + start) / 4096 + i) * 4096 - dst

theorem copyPos_succ (dst start i : Nat) :
    copyPos dst start (i + 1) = copyPos dst start i + (4096 - (dst + copyPos dst start i) % 4096) := by
  unfold copyPos
  rw [if_neg (by omega)]
  split
  · rename_i h; subst h; omega
  · have : dst + (((dst + start) / 4096 + i) * 4096 - dst) = ((dst + start) / 4096 + i) * 4096 := by omega
    rw [this]; omega

/-- The blocks of a copy are no more than its fuel. -/
theorem copyPos_fuel {dst start n m : Nat} (h : ∀ i, i < m → copyPos dst start i < n) : m ≤ blocksOf n := by
  unfold blocksOf
  by_cases hm : m ≤ 1
  · omega
  · have := h (m - 1) (by omega)
    rw [copyPos, if_neg (by omega)] at this
    omega

theorem copyBlocks_ended {dst n p : Nat} (h : n ≤ p) (fuel : Nat) (s : State) (ctx src : Nat) :
    copyBlocks fuel s ctx src dst n p = (s, .ok ()) := by
  cases fuel with
  | zero => rfl
  | succ fuel => rw [copyBlocks, if_pos h]

section
variable {ctx src dst n start m : Nat} {σ : Nat → State} (hp : ∀ i, i < m → copyPos dst start i < n) (hm : n ≤ copyPos dst start m)
  (hb : ∀ i, i < m → copyBlock (σ i) ctx src dst n (copyPos dst start i) (min n (copyPos dst start (i + 1)) - copyPos dst start i) =
    (σ (i + 1), .ok ()))
include hp hm hb

/-- Blocks of a copy that each succeed follow one another to the end. -/
theorem copyBlocks_from (d : Nat) : ∀ i fuel, i + d = m → d ≤ fuel →
    copyBlocks fuel (σ i) ctx src dst n (min n (copyPos dst start i)) = (σ m, .ok ()) := by
  induction d with
  | zero =>
    rintro i fuel rfl -
    exact copyBlocks_ended (by rw [Nat.add_zero] at hm; omega) ..
  | succ d ih =>
    intro i fuel hi hf
    obtain ⟨fuel, rfl⟩ : ∃ f, fuel = f + 1 := ⟨fuel - 1, by omega⟩
    have hlt := hp i (by omega)
    have hnext := copyPos_succ dst start i
    have hlen : blockLen dst n (copyPos dst start i) = min n (copyPos dst start (i + 1)) - copyPos dst start i := by
      rw [hnext]; unfold blockLen; omega
    have hend : copyPos dst start i + (min n (copyPos dst start (i + 1)) - copyPos dst start i) = min n (copyPos dst start (i + 1)) := by
      omega
    rw [Nat.min_eq_right hlt.le, copyBlocks, if_neg (Nat.not_le.2 hlt), hlen, hb i (by omega)]
    dsimp only
    rw [hend]
    exact ih (i + 1) fuel (by omega) (by omega)

/-- A copy whose blocks each succeed ends. -/
theorem copyBlocks_all : copyBlocks (blocksOf n) (σ 0) ctx src dst n start = (σ m, .ok ()) := by
  cases m with
  | zero => exact copyBlocks_ended hm ..
  | succ m =>
    have := copyBlocks_from hp hm hb (m + 1) 0 _ (Nat.zero_add _) (copyPos_fuel hp)
    rwa [Nat.min_eq_right (hp 0 (Nat.succ_pos m)).le] at this

end

/-! ### Faults of a copy's first access -/

theorem backed_freeCtr (s : State) (k pa n : Nat) : backed { s with freeCtr := k } pa n = backed s pa n := by
  unfold backed; split <;> rfl

theorem leafForbidden_freeCtr (s : State) (k ctx lvl : Nat) (e : DWord) :
    leafForbidden { s with freeCtr := k } ctx lvl e = leafForbidden s ctx lvl e := by
  have hc : ctxOf { s with freeCtr := k } ctx = ctxOf s ctx := rfl
  simp only [leafForbidden, backed_freeCtr, hc]

theorem walkFrom_freeCtr (s : State) (k ctx va pick n table : Nat) :
    walkFrom { s with freeCtr := k } ctx va pick n table = walkFrom s ctx va pick n table := by
  have hp (lvl at_ : Nat) : pteAt { s with freeCtr := k } ctx va pick lvl at_ = pteAt s ctx va pick lvl at_ := rfl
  have hc (at_ : Nat) : cohPoison { s with freeCtr := k } at_ = cohPoison s at_ := rfl
  induction n generalizing table with
  | zero => rfl
  | succ n ih => simp only [walkFrom, hp, hc, leafForbidden_freeCtr, ih]

/-- A walk depends on no free value. -/
theorem walkPick_freeCtr (s : State) (k ctx : Nat) (va : DWord) (pick : Nat) :
    walkPick { s with freeCtr := k } ctx va pick = walkPick s ctx va pick := by
  have hc : ctxOf { s with freeCtr := k } ctx = ctxOf s ctx := rfl
  unfold walkPick; rw [walkFrom_freeCtr, hc]

theorem takePick_frame (s : State) (b : Bool) : ∃ k, (takePick s b).2 = { s with freeCtr := k } := by
  unfold takePick; split <;> exact ⟨_, rfl⟩

/-- A walk that faults whatever entries it may use ends the access, which has changed memory's bookkeeping alone. -/
theorem cRead_fault {s : State} {ctx code d : Nat} {va : DWord} (hq : noFaults s = true)
    (hw : ∀ pick, walkPick s ctx va pick = .fault code d) (hc : code ≠ poisonConsumed) :
    ∃ u, MemoryOnly s u ∧ ∀ n, cRead s ctx va n = (u, .fault code (va &&& 0xFFFFFFFFFFFFF#64) d) := by
  obtain ⟨k, hk⟩ := takePick_frame s false
  have hm : MemoryOnly s { s with freeCtr := k } := rfl
  refine ⟨_, hm.trans (Quietly.chargeWalk _ ctx va (takePick s false).1 0).only, fun n => ?_⟩
  unfold cRead vRead translate
  simp only [xlatFinding_quiet hq, hk, walkPick_freeCtr, hw, if_neg hc]

theorem cReadN_fault {s u : State} {ctx src len code d : Nat} {v : DWord} (hl : 0 < len)
    (h : ∀ n, cRead s ctx (BitVec.ofNat 64 src) n = (u, .fault code v d)) : cReadN s ctx src len = (u, .fault code v d) := by
  unfold cReadN
  rw [pieces_cons hl, cReadPieces, h]

/-! ### The commands -/

theorem exec_nop {s : State} {c : CmdRef} {k : Cmd} (h : Runs s c 0x01 k) : exec (.nop c) s = .next (done s k 0) := by
  rw [show exec _ s = execNop c s from rfl, execNop, whenUp_up _ h.up, runCmd_runs h]

theorem exec_timeMark {s : State} {c : CmdRef} {k : Cmd} (h : Runs s c 0x02 k) : exec (.timeMark c) s = .next (timeMarkEffect s k) := by
  rw [show exec _ s = execTimeMark c s from rfl, execTimeMark, whenUp_up _ h.up, runCmd_runs h]

theorem exec_callList {s : State} {c : CmdRef} {k : Cmd} (h : Runs s c 0x03 k) : exec (.callList c) s = .next (callListEffect s k) := by
  rw [show exec _ s = execCallList c s from rfl, execCallList, whenUp_up _ h.up, runCmd_runs h]

theorem exec_fill {s : State} {c : CmdRef} {k : Cmd} (h : Runs s c 0x29 k) : exec (.fill c) s = .next (fillEffect s k) := by
  rw [show exec _ s = execFill c s from rfl, execFill, whenUp_up _ h.up, runCmd_runs h]

theorem exec_copy {s : State} {c : CmdRef} {k : Cmd} (h : Runs s c 0x28 k) : exec (.copy c) s = .next (copyEffect s k) := by
  rw [show exec _ s = execCopy c s from rfl, execCopy, whenUp_up _ h.up, runCmd_runs h]

theorem done_zero {s : State} {c : CmdRef} {k : Cmd} (h : k.ref = c) : done s k 0 = finish s c 0 0 0 := by
  rw [done, h]; rfl

/-- The log entry of a TIME_MARK (R411). -/
def markEntry (s : State) (k : Cmd) : LogEntry :=
  { event := 0x01, die := 0, inj := false, queue := BitVec.ofNat 4 k.ref.queue, ctx := BitVec.ofNat 12 k.ref.ctx, seq := s.seq0
    arg0 := k.w0, arg1 := BitVec.ofNat 64 (k.w1.toNat % 2 ^ 32 + k.ref.index % 2 ^ 32 * 2 ^ 32), arg2 := 0 }

/-- The state once die 0 has logged it. -/
def marked (s : State) (k : Cmd) : State :=
  { s with log0 := (s.log0 ++ [markEntry s k]).drop (s.log0.length + 1 - 65536), seq0 := s.seq0 + 1 }

/-- TIME_MARK logs its entry on die 0 and completes. -/
theorem timeMarkEffect_eq (s : State) (k : Cmd) : timeMarkEffect s k = done (marked s k) k 0 := by
  simp [timeMarkEffect, logEvent, marked, markEntry, fld, field, Nat.shiftLeft_eq]

theorem copyEffect_of {s t : State} {c : CmdRef} {k : Cmd} (hr : k.ref = c)
    (h : copyBlocks (blocksOf (k.w2.toNat % 2 ^ 40)) s c.ctx k.w0.toNat k.w1.toNat (k.w2.toNat % 2 ^ 40) k.pos = (t, .ok ())) :
    copyEffect s k = finish t c 0 0 0 := by
  have hn : fld k.w2 39 0 = k.w2.toNat % 2 ^ 40 := by simp [fld, field]
  unfold copyEffect
  simp only [hn, hr, h, endWork]
  exact done_zero hr

theorem fillEffect_chain {s : State} {c : CmdRef} {k : Cmd} {σ : Nat → State} {pa cp at_ : Nat → Nat} (hr : k.ref = c) (hp : k.pos = 0)
    (h : StoreChain s c.ctx k.w0.toNat (patternBytes (BitVec.ofNat 32 (fld k.w2 31 0)) 0 (k.w1.toNat % 2 ^ 40)) σ pa cp at_) :
    fillEffect s k = finish (σ (pieces k.w0.toNat (k.w1.toNat % 2 ^ 40)).length) c 0 0 0 := by
  have hn : fld k.w1 39 0 = k.w1.toNat % 2 ^ 40 := by simp [fld, field]
  have hf := fillBlocks_chain h (blocksOf (k.w1.toNat % 2 ^ 40)) 0 (Nat.zero_le _) (.inr (.inl rfl)) (.inr (by unfold blocksOf; omega))
  rw [pieces_zero, List.length_nil, h.start] at hf
  unfold fillEffect
  simp only [hn, hr, hp, hf, endWork]
  exact done_zero hr

theorem copyEffect_chains {s : State} {c : CmdRef} {k : Cmd} {bs : List Byte} {ρ σ : Nat → State} {pa cp at_ pb cq bt : Nat → Nat}
    (hr : k.ref = c) (hp : k.pos = 0) (hb : k.w1.toNat % 4096 + k.w2.toNat % 2 ^ 40 ≤ 4096)
    (ha : k.w0.toNat + k.w2.toNat % 2 ^ 40 ≤ k.w1.toNat ∨ k.w1.toNat + k.w2.toNat % 2 ^ 40 ≤ k.w0.toNat)
    (hl : LoadChain s c.ctx k.w0.toNat (k.w2.toNat % 2 ^ 40) bs ρ pa cp at_)
    (hs : StoreChain (ρ (pieces k.w0.toNat (k.w2.toNat % 2 ^ 40)).length) c.ctx k.w1.toNat bs σ pb cq bt) :
    copyEffect s k = finish (σ (pieces k.w1.toNat (k.w2.toNat % 2 ^ 40)).length) c 0 0 0 := by
  refine copyEffect_of hr ?_
  generalize k.w2.toNat % 2 ^ 40 = n at *
  rw [hp, blocksOf]
  rcases Nat.eq_zero_or_pos n with rfl | hn
  · rw [copyBlocks, if_pos le_rfl, pieces_zero, List.length_nil, hs.start, pieces_zero, List.length_nil, hl.start]
  · have hlen : blockLen k.w1.toNat n 0 = n := by unfold blockLen; omega
    rw [copyBlocks, if_neg (by omega), hlen, copyBlock_chains hl hs ha]
    simp [copyBlocks]

/-- A copy whose first read faults ends in that fault. -/
theorem copyEffect_fault {s : State} {k : Cmd} {code d : Nat} (hp : k.pos = 0) (hn : 0 < k.w2.toNat % 2 ^ 40) (hq : noFaults s = true)
    (hw : ∀ pick, walkPick s k.ref.ctx k.w0 pick = .fault code d) (hc : code ≠ poisonConsumed) :
    ∃ u, MemoryOnly s u ∧ copyEffect s k = failF u k 0 code (k.w0 &&& 0xFFFFFFFFFFFFF#64) (BitVec.ofNat 64 d) := by
  have hf : fld k.w2 39 0 = k.w2.toNat % 2 ^ 40 := by simp [fld, field]
  generalize hk : k.w2.toNat % 2 ^ 40 = n at *
  have hl : 0 < blockLen k.w1.toNat n 0 := by unfold blockLen; omega
  obtain ⟨u, hm, hr⟩ := cRead_fault hq hw hc
  have hr' : ∀ m, cRead s k.ref.ctx (BitVec.ofNat 64 k.w0.toNat) m = (u, .fault code (k.w0 &&& 0xFFFFFFFFFFFFF#64) d) := by
    simpa using hr
  refine ⟨u, hm, ?_⟩
  unfold copyEffect
  simp only [hf, hp, blocksOf, copyBlocks, copyBlock, if_neg (show ¬ n ≤ 0 by omega), Nat.add_zero, cReadN_fault hl hr', endWork]

/-- Settles O38: a move's blocks, cut at the sector ends of each, make the accesses of the whole range. -/
theorem copiesAndLists : Obligations.CopiesAndLists := by
  refine ⟨fun s c k => ⟨fun h => ?_, fun h => ?_, fun h => ⟨fun hl => ?_, fun l hl hc => ?_⟩⟩, fun s c k σ pa cp at_ h hp hs => ?_,
    fun s c k bs ρ pa cp at_ σ pb cq bt h hp hb ha hl hs => ⟨?_, storeChain_stored hs⟩, fun s c k σ m h h0 hp hm hb => ?_,
    fun s c k code d h hp hn hq hw hc => ?_⟩
  · rw [exec_nop h, done_zero (cmdOf_ref h.cmd)]
  · have hc := cmdOf_ref h.cmd
    refine ⟨marked s k, markEntry s k, by rw [exec_timeMark h, timeMarkEffect_eq, done_zero hc], by rw [marked], by rw [marked], rfl, rfl,
      ?_, ?_, rfl, ?_⟩ <;> rw [markEntry, hc]
  · rw [exec_callList h, callListEffect, cmdOf_ref h.cmd]
    split
    · rename_i l hq; rw [if_neg (hl l hq), done_zero (cmdOf_ref h.cmd)]
    · rw [done_zero (cmdOf_ref h.cmd)]
  · rw [exec_callList h, callListEffect, cmdOf_ref h.cmd, hl]
    simp only [hc, if_true]
  · rw [← patternBytes_eq] at hs
    rw [exec_fill h, fillEffect_chain (cmdOf_ref h.cmd) hp hs]
    rw [patternBytes_eq] at hs
    exact ⟨rfl, storeChain_stored hs⟩
  · rw [exec_copy h, copyEffect_chains (cmdOf_ref h.cmd) hp hb ha hl hs]
  · rw [exec_copy h, copyEffect_of (cmdOf_ref h.cmd) (h0 ▸ copyBlocks_all hp hm hb)]
  · obtain ⟨u, hu, he⟩ := copyEffect_fault hp hn hq (by rwa [cmdOf_ref h.cmd]) hc
    exact ⟨u, hu, by rw [exec_copy h, he]⟩

end Sys2Proof.Machine
end

section
/-! SUPPORT. Arbitration of an engine class (R61 to R63, R72): what a choice among ready commands is, and what starting one
leaves. -/

set_option Elab.async false

namespace Sys2Proof.Machine

/-! ### The choice of R62 -/

/-- b is no better a choice than a: of a lower rank, or later in the round of the same rank. -/
def NoBetter (s : State) (cls : Nat) (b a : Cmd) : Prop :=
  rankOf s b < rankOf s a ∨ (rankOf s b = rankOf s a ∧ rrDist s cls a ≤ rrDist s cls b)

theorem NoBetter.refl (s : State) (cls : Nat) (a : Cmd) : NoBetter s cls a a := .inr ⟨rfl, le_rfl⟩

theorem NoBetter.trans {s : State} {cls : Nat} {a b c : Cmd} (h : NoBetter s cls a b) (k : NoBetter s cls b c) :
    NoBetter s cls a c := by
  unfold NoBetter at *; omega

theorem better_or (s : State) (cls : Nat) (a b : Cmd) : better s cls a b = a ∨ better s cls a b = b := by
  unfold better; repeat' split
  all_goals simp

theorem noBetter_better (s : State) (cls : Nat) (a b : Cmd) :
    NoBetter s cls a (better s cls a b) ∧ NoBetter s cls b (better s cls a b) := by
  unfold better NoBetter; repeat' split
  all_goals omega

/-- A fold of a choice between two takes an element of the list that none of the list beats. -/
theorem foldl_choice {α : Type} (f : α → α → α) (R : α → α → Prop) (refl : ∀ a, R a a)
    (trans : ∀ {a b c}, R a b → R b c → R a c) (or : ∀ a b, f a b = a ∨ f a b = b) (le : ∀ a b, R a (f a b) ∧ R b (f a b))
    (l : List α) (a : α) : l.foldl f a ∈ a :: l ∧ ∀ j ∈ a :: l, R j (l.foldl f a) := by
  induction l generalizing a with
  | nil => simpa using refl a
  | cons b r ih =>
    obtain ⟨hm, hr⟩ := ih (f a b)
    refine ⟨?_, fun j hj => ?_⟩
    · rw [List.foldl_cons]
      rcases List.mem_cons.1 hm with h | h
      · rw [h]; rcases or a b with h | h <;> simp [h]
      · simp [h]
    · have hab := hr (f a b) (by simp)
      rcases List.mem_cons.1 hj with rfl | hj
      · exact trans (le j b).1 hab
      · rcases List.mem_cons.1 hj with rfl | hj
        · exact trans (le a j).2 hab
        · exact hr j (by simp [hj])

/-- The choice among ready commands is one of them, and no other is a better one (R62). -/
theorem chooseReady_best (s : State) (cls : Nat) {l : List Cmd} (h : l ≠ []) :
    ∃ k, chooseReady s cls l = some k ∧ k ∈ l ∧ ∀ j ∈ l, NoBetter s cls j k := by
  cases l with
  | nil => contradiction
  | cons a r =>
    obtain ⟨hm, hr⟩ := foldl_choice (better s cls) (NoBetter s cls) (NoBetter.refl s cls) NoBetter.trans (better_or s cls)
      (noBetter_better s cls) r a
    exact ⟨_, rfl, hm, hr⟩

/-! ### Starved commands (R63) -/

theorem starved_eq_nil {l : List Cmd} : starved l = [] ↔ ∀ k ∈ l, k.passed < 1024 := by
  simp [starved, List.filter_eq_nil_iff]

theorem mem_starved {l : List Cmd} {k : Cmd} : k ∈ starved l ↔ k ∈ l ∧ 1024 ≤ k.passed := by simp [starved]

/-- The guard takes a command that none of its class has been passed over more often than. -/
theorem guardDecision_most {s : State} {cls : Nat} (h : ∃ k ∈ readyOf s cls, 1024 ≤ k.passed) :
    ∃ k ∈ readyOf s cls, guardDecision s cls = takeDecision s cls k (readyOf s cls) ∧
      ∀ j ∈ readyOf s cls, j.passed ≤ k.passed := by
  unfold guardDecision
  dsimp only
  cases hs : starved (readyOf s cls) with
  | nil =>
    obtain ⟨k, hk, hp⟩ := h
    exact absurd (starved_eq_nil.1 hs k hk) (by omega)
  | cons a r =>
    obtain ⟨hm, hr⟩ := foldl_choice (fun a b : Cmd => if a.passed < b.passed then b else a) (fun a b => a.passed ≤ b.passed)
      (fun _ => le_rfl) le_trans (fun a b => by split <;> simp) (fun a b => by split <;> omega) r a
    rw [← hs] at hm hr
    obtain ⟨hk, hp⟩ := mem_starved.1 hm
    refine ⟨_, hk, rfl, fun j hj => ?_⟩
    by_cases hjp : 1024 ≤ j.passed
    · exact hr j (mem_starved.2 ⟨hj, hjp⟩)
    · omega

/-! ### Decisions -/

/-- What a decision of an engine class for k leaves: k has started, the other ready commands count one pass, and the queue
of k is at a command boundary and was served last (R28, R62, R63). -/
structure Decided (s : State) (cls : Nat) (k : Cmd) (t : State) : Prop where
  frame : t = { s with cmds := t.cmds, rr := t.rr, queues := t.queues }
  queue : queueOf t k.ref.ctx k.ref.queue = { queueOf s k.ref.ctx k.ref.queue with keep := none }
  queues : ∀ j, j ≠ qidx k.ref.ctx k.ref.queue → NMap.getD t.queues j Queue.empty = NMap.getD s.queues j Queue.empty
  cmds : t.cmds = s.cmds.map (fun x => if x.ref = k.ref then { x with phase := .started }
    else if ∃ r ∈ readyOf s cls, r.ref = x.ref then { x with passed := x.passed + 1 } else x)
  served : NMap.find t.rr cls = some (queueOf s k.ref.ctx k.ref.queue).slot.toNat

theorem takeDecision_decided (s : State) (cls : Nat) (k : Cmd) :
    Decided s cls k (takeDecision s cls k (readyOf s cls)) where
  frame := rfl
  queue := queueOf_updQueue_same ..
  queues j h := NMap.getD_put_other _ _ _ _ h
  cmds := by simp [takeDecision, atBoundary]
  served := NMap.find_insert_same ..

theorem arbitrate_best {s : State} {cls : Nat} (h : ∀ k ∈ readyOf s cls, k.passed < 1024) (hr : readyOf s cls ≠ []) :
    ∃ k ∈ readyOf s cls, arbitrate s cls = takeDecision s cls k (readyOf s cls) ∧ ∀ j ∈ readyOf s cls, NoBetter s cls j k := by
  obtain ⟨k, hc, hk, hb⟩ := chooseReady_best s cls hr
  exact ⟨k, hk, by simp [arbitrate, starved_eq_nil.2 h, hc], hb⟩

theorem arbitrate_none {s : State} {cls : Nat} (h : readyOf s cls = []) : arbitrate s cls = s := by
  simp [arbitrate, h, starved, chooseReady]

theorem arbitrate_starved {s : State} {cls : Nat} (h : ∃ k ∈ readyOf s cls, 1024 ≤ k.passed) : arbitrate s cls = s := by
  obtain ⟨k, hk, hp⟩ := h
  have : starved (readyOf s cls) ≠ [] := List.ne_nil_of_mem (mem_starved.2 ⟨hk, hp⟩)
  simp [arbitrate, this]

theorem guardDecision_none {s : State} {cls : Nat} (h : ∀ k ∈ readyOf s cls, k.passed < 1024) : guardDecision s cls = s := by
  simp [guardDecision, starved_eq_nil.2 h]

theorem exec_commandStart (w : StartOf) (s : State) : exec (.commandStart w) s = execCommandStart w s := rfl

theorem exec_commandStart_engine {s : State} (h : s.run = .up) (cls : Nat) :
    exec (.commandStart (.engine cls)) s = .next (arbitrate s cls) := by
  rw [exec_commandStart, execCommandStart, whenUp_up _ h]

theorem exec_commandStart_control {s : State} (h : s.run = .up) (ctx queue : Nat) :
    exec (.commandStart (.control ctx queue)) s = .next (startControl s ctx queue) := by
  rw [exec_commandStart, execCommandStart, whenUp_up _ h]

theorem exec_arbitrationStarvationGuard {s : State} (h : s.run = .up) (cls : Nat) :
    exec (.arbitrationStarvationGuard cls) s = .next (guardDecision s cls) := by
  rw [show exec _ s = execArbitrationStarvationGuard cls s from rfl, execArbitrationStarvationGuard, whenUp_up _ h]

/-- Settles O30: the choice of R62 is a fold that keeps the better of two, and the guard's one that keeps the command
passed over more often. -/
theorem arbitration : Obligations.Arbitration := by
  refine ⟨fun s cls up => ⟨fun hp hr => ?_, fun hr => ?_, fun hp => ⟨?_, ?_⟩, fun hp => ?_⟩, fun s ctx queue k up hk hc => ?_⟩
  · obtain ⟨k, hk, ha, hb⟩ := arbitrate_best hp hr
    obtain ⟨frame, queue, queues, cmds, served⟩ := takeDecision_decided s cls k
    exact ⟨_, k, (exec_commandStart_engine up cls).trans (congrArg _ ha), ⟨hk, frame, queue, queues, cmds, served⟩, hb⟩
  · rw [exec_commandStart_engine up, arbitrate_none hr]
  · rw [exec_commandStart_engine up, arbitrate_starved hp]
  · obtain ⟨k, hk, hg, hm⟩ := guardDecision_most hp
    obtain ⟨frame, queue, queues, cmds, served⟩ := takeDecision_decided s cls k
    exact ⟨_, k, (exec_arbitrationStarvationGuard up cls).trans (congrArg _ hg), ⟨hk, frame, queue, queues, cmds, served⟩, hm⟩
  · rw [exec_arbitrationStarvationGuard up, guardDecision_none hp]
  · rw [exec_commandStart_control up]
    simp [startControl, hk, hc, atBoundary, updCmd]

end Sys2Proof.Machine
end

section
/-! Fences and retirement (R68, R78, R79, R82, R84): what a signal leaves of a fence and of the commands that wait on it, and
what a command's completion leaves. -/

set_option Elab.async false

namespace Sys2Proof.Machine

/-! ### What a fence shows (R78, R79) -/

/-- Two fence entries that show the same value, error and code; their counts of waiters may differ. -/
structure SameFence (o p : Obj) : Prop where
  value : p.w1 = o.w1
  err : fenceErr p = fenceErr o
  code : fenceCode p = fenceCode o

theorem SameFence.refl (o : Obj) : SameFence o o := ⟨rfl, rfl, rfl⟩

theorem SameFence.trans {o p r : Obj} (h : SameFence o p) (k : SameFence p r) : SameFence o r :=
  ⟨k.value.trans h.value, k.err.trans h.err, k.code.trans h.code⟩

theorem SameFence.waitEnd {o p : Obj} (h : SameFence o p) (ign : Bool) (v : DWord) : waitEnd p ign v = waitEnd o ign v := by
  unfold Machine.waitEnd fenceValue; rw [h.value, h.err, h.code]

theorem fenceErr_eq (o : Obj) : fenceErr o = o.w2.getLsbD 63 := rfl

theorem fenceCode_eq (o : Obj) : fenceCode o = o.w2.toNat / 2 ^ 48 % 256 := by
  simp [fenceCode, fld, field, Nat.shiftRight_eq_div_pow]

/-- One waiter less leaves what the fence shows. -/
theorem sameFence_lessWaiter {o : Obj} (h : fld o.w2 23 0 ≠ 0) : SameFence o { o with w2 := o.w2 - 1 } := by
  have h24 : o.w2.toNat % 2 ^ 24 ≠ 0 := by simpa [fld, field] using h
  have hs : (o.w2 - 1).toNat = o.w2.toNat - 1 := by bv_omega
  refine ⟨rfl, ?_, ?_⟩
  · have h63 : (o.w2.toNat - 1) / 2 ^ 63 = o.w2.toNat / 2 ^ 63 := by omega
    simp only [fenceErr, bit, Nat.testBit_eq_decide_div_mod_eq, hs, h63]
  · rw [fenceCode_eq, fenceCode_eq, hs]; omega

/-- An error sets ERR, and CODE where there is none. -/
theorem setFenceErr_shows (o : Obj) {e : Nat} (h : e < 256) : fenceErr (setFenceErr o e) = true ∧
    fenceCode (setFenceErr o e) = if fenceCode o = 0 then e else fenceCode o := by
  have hc (p : Obj) : fenceCode p = (p.w2.extractLsb' 48 8).toNat := by
    rw [fenceCode_eq, BitVec.extractLsb'_toNat, Nat.shiftRight_eq_div_pow]
  refine ⟨by simp [fenceErr_eq, setFenceErr], ?_⟩
  have h63 : (0x8000000000000000#64).extractLsb' 48 8 = 0#8 := by decide
  rw [hc, setFenceErr, BitVec.extractLsb'_or, BitVec.extractLsb'_or, h63, BitVec.or_zero]
  split
  · rename_i h0
    have h1 : o.w2.extractLsb' 48 8 = 0#8 := BitVec.eq_of_toNat_eq (by rw [← hc, h0]; rfl)
    rw [h1, BitVec.zero_or, BitVec.extractLsb'_toNat, BitVec.toNat_ofNat, Nat.shiftRight_eq_div_pow, Nat.shiftLeft_eq]
    omega
  · rw [hc]; simp

theorem waitEnd_ok (o : Obj) (ign : Bool) (v : DWord) :
    waitEnd o ign v = .ok ↔ v.toNat ≤ o.w1.toNat ∧ (ign = true ∨ ¬ fenceErr o = true) := by
  unfold waitEnd fenceValue
  cases ign <;> cases fenceErr o <;> by_cases h : v.toNat ≤ o.w1.toNat <;> simp [h]

theorem waitEnd_goesOn (o : Obj) (ign : Bool) (v : DWord) :
    waitEnd o ign v = .goesOn ↔ ¬ v.toNat ≤ o.w1.toNat ∧ ¬ fenceErr o = true := by
  unfold waitEnd fenceValue
  cases ign <;> cases fenceErr o <;> by_cases h : v.toNat ≤ o.w1.toNat <;> simp [h]

theorem waitEnd_error (o : Obj) (ign : Bool) (v : DWord) :
    waitEnd o ign v = .error (fenceCode o) ↔ fenceErr o = true ∧ (ign = false ∨ ¬ v.toNat ≤ o.w1.toNat) := by
  unfold waitEnd fenceValue
  cases ign <;> cases fenceErr o <;> by_cases h : v.toNat ≤ o.w1.toNat <;> simp [h]

/-! ### Ends of waits -/

/-- From s to t waits on fence i have ended: the fence shows what it did, no other entry has changed, and what still waits
on it waited before. -/
structure WaitsEnded (i : Nat) (s t : State) : Prop where
  frame : t = { s with objs := t.objs, cmds := t.cmds, waiting := t.waiting }
  fence : SameFence (objOf s i) (objOf t i)
  others : ∀ j, j ≠ i → objOf t j = objOf s j
  cmds : ∀ k ∈ t.cmds, k.waits = some i → k ∈ s.cmds

theorem WaitsEnded.refl (i : Nat) (s : State) : WaitsEnded i s s := ⟨rfl, .refl _, fun _ _ => rfl, fun _ h _ => h⟩

theorem WaitsEnded.trans {i : Nat} {s t u : State} (h : WaitsEnded i s t) (k : WaitsEnded i t u) : WaitsEnded i s u := by
  refine ⟨?_, h.fence.trans k.fence, fun j hj => (k.others j hj).trans (h.others j hj), fun x hx hw => h.cmds x (k.cmds x hx hw) hw⟩
  have hk := k.frame
  have hh := h.frame
  rw [hk]
  conv => lhs; rw [hh]

theorem ctxOf_waitsEnded {i : Nat} {s t : State} (h : WaitsEnded i s t) (c : Nat) : ctxOf t c = ctxOf s c := by
  rw [show t = _ from h.frame]; rfl

theorem WaitsEnded.dropWaiter (s : State) (i : Nat) : WaitsEnded i s (dropWaiter s i) where
  frame := rfl
  fence := by
    unfold Machine.dropWaiter
    rw [objOf_updObj_same]
    split
    · exact .refl _
    · exact sameFence_lessWaiter ‹_›
  others j h := objOf_updObj_other _ _ _ h
  cmds _ h _ := h

/-- A change of a command that does not set it waiting on the fence. -/
theorem WaitsEnded.updCmd {s : State} {i : Nat} {c : CmdRef} {f : Cmd → Cmd} (h : ∀ k ∈ s.cmds, k.ref = c → (f k).waits ≠ some i) :
    WaitsEnded i s (updCmd s c f) where
  frame := rfl
  fence := .refl _
  others _ _ := rfl
  cmds k hk hw := by
    obtain ⟨x, hx, rfl⟩ := List.mem_map.1 hk
    by_cases hc : (x.ref == c) = true
    · rw [if_pos hc] at hw; exact absurd hw (h x hx (by simpa using hc))
    · rwa [if_neg hc]

theorem WaitsEnded.rejoin (s : State) (i ctx queue : Nat) : WaitsEnded i s (rejoin s ctx queue) := by
  unfold Machine.rejoin
  dsimp only
  split
  · exact .refl i s
  · exact ⟨rfl, .refl _, fun _ _ => rfl, fun _ h _ => h⟩

/-- The command c waits no longer. -/
def noWait (s : State) (c : CmdRef) : State := updCmd s c fun x => { x with waits := none }

theorem noWait_waits {s : State} {c : CmdRef} {k : Cmd} (hk : k ∈ (noWait s c).cmds) (hr : k.ref = c) : k.waits = none := by
  obtain ⟨x, -, rfl⟩ := List.mem_map.1 hk
  by_cases hx : (x.ref == c) = true
  · rw [if_pos hx]
  · rw [if_neg hx] at hr; exact absurd hr (by simpa using hx)

theorem WaitsEnded.noWait (s : State) (i : Nat) (c : CmdRef) : WaitsEnded i s (noWait s c) := .updCmd fun _ _ _ => nofun

/-- A wait that goes on, or of a command that is held, is left (R26, R79). -/
theorem endWait_held {s : State} {i : Nat} {k : Cmd} (hw : k.waits = some i)
    (hk : k.phase ≠ .waiting ∨ (ctxOf s k.ref.ctx).state = .faulted ∨ waitEnd (objOf s i) k.ignerr k.wval = .goesOn) :
    endWait s k = s := by
  unfold endWait
  rw [hw]
  rcases hk with h | h | h
  · cases hp : k.phase with
    | waiting => exact absurd hp h
    | _ => rfl
  · cases k.phase <;> simp [h]
  · cases k.phase <;> simp [h]

/-- A wait that ends leaves its command without a wait. -/
theorem endWait_ends {s : State} {i : Nat} {k : Cmd} (hw : k.waits = some i) (hp : k.phase = .waiting)
    (hf : (ctxOf s k.ref.ctx).state ≠ .faulted) (hg : waitEnd (objOf s i) k.ignerr k.wval ≠ .goesOn) :
    WaitsEnded i (noWait s k.ref) (endWait s k) := by
  have hd := WaitsEnded.dropWaiter (noWait s k.ref) i
  unfold endWait
  simp only [hw, hp, if_neg hf]
  cases hx : waitEnd (objOf s i) k.ignerr k.wval with
  | goesOn => exact absurd hx hg
  | ok => exact hd.trans (.rejoin ..)
  | error code =>
    refine hd.trans (WaitsEnded.trans (.updCmd fun x hx hr h => ?_) (.rejoin ..))
    have := noWait_waits hx hr
    exact absurd (this.symm.trans h) nofun

/-- The end of a wait on a fence, and what it leaves waiting of the command. -/
theorem endWait_ended {s : State} {i : Nat} {k : Cmd} (hw : k.waits = some i) : WaitsEnded i s (endWait s k) ∧
    (k ∈ (endWait s k).cmds → k.phase = .waiting → (ctxOf s k.ref.ctx).state ≠ .faulted →
      waitEnd (objOf s i) k.ignerr k.wval = .goesOn) := by
  by_cases h : k.phase ≠ .waiting ∨ (ctxOf s k.ref.ctx).state = .faulted ∨ waitEnd (objOf s i) k.ignerr k.wval = .goesOn
  · rw [endWait_held hw h]
    refine ⟨.refl i s, fun _ hp hf => ?_⟩
    rcases h with h | h | h
    · contradiction
    · contradiction
    · exact h
  · simp only [not_or, not_not] at h
    obtain ⟨hp, hf, hg⟩ := h
    have he := endWait_ends hw hp hf hg
    refine ⟨(WaitsEnded.noWait s i k.ref).trans he, fun hk _ _ => ?_⟩
    have := noWait_waits (he.cmds k hk hw) rfl
    exact absurd (this.symm.trans hw) nofun

/-- The ends of waits of a list of commands. -/
theorem endWaits_ended {i : Nat} (l : List Cmd) (hl : ∀ k ∈ l, k.waits = some i) (s : State) : WaitsEnded i s (l.foldl endWait s) ∧
    ∀ k ∈ l, k ∈ (l.foldl endWait s).cmds → k.phase = .waiting → (ctxOf s k.ref.ctx).state ≠ .faulted →
      waitEnd (objOf (l.foldl endWait s) i) k.ignerr k.wval = .goesOn := by
  induction l generalizing s with
  | nil => exact ⟨.refl i s, fun k hk => absurd hk List.not_mem_nil⟩
  | cons a r ih =>
    obtain ⟨h1, h2⟩ := endWait_ended (s := s) (hl a (by simp))
    obtain ⟨h3, h4⟩ := ih (fun k hk => hl k (by simp [hk])) (endWait s a)
    rw [List.foldl_cons]
    refine ⟨h1.trans h3, fun k hk hm hp hf => ?_⟩
    rcases List.mem_cons.1 hk with rfl | hk
    · rw [(h1.fence.trans h3.fence).waitEnd]
      exact h2 (h3.cmds k hm (hl k (by simp))) hp hf
    · exact h4 k hk hm hp (by rwa [ctxOf_waitsEnded h1])

/-! ### Signals (R79) -/

/-- What a signal makes of a fence's entry. -/
def signalled (o : Obj) (val : DWord) (err : Option Nat) : Obj :=
  let o := if o.w1.toNat < val.toNat then { o with w1 := val } else o
  match err with
  | some code => setFenceErr o code
  | none => o

theorem signalFence_eq (s : State) (i : Nat) (val : DWord) (err : Option Nat) :
    signalFence s i val err = wakeWaiters (updObj s i fun o => signalled o val err) i := rfl

theorem signalled_value (o : Obj) (val : DWord) (err : Option Nat) :
    (signalled o val err).w1 = if o.w1.toNat < val.toNat then val else o.w1 := by
  unfold signalled; cases err <;> dsimp only [setFenceErr] <;> split <;> rfl

theorem signalled_none (o : Obj) (val : DWord) :
    fenceErr (signalled o val none) = fenceErr o ∧ fenceCode (signalled o val none) = fenceCode o := by
  unfold signalled; dsimp only; split <;> exact ⟨rfl, rfl⟩

theorem signalled_some (o : Obj) (val : DWord) {e : Nat} (h : e < 256) : fenceErr (signalled o val (some e)) = true ∧
    fenceCode (signalled o val (some e)) = if fenceCode o = 0 then e else fenceCode o := by
  unfold signalled; dsimp only; split
  · exact setFenceErr_shows { o with w1 := val } h
  · exact setFenceErr_shows o h

/-- What a signal leaves: the entry as signalled, but for its count of waiters, and no wait that it ends. -/
theorem signalFence_ended (s : State) (i : Nat) (val : DWord) (err : Option Nat) :
    WaitsEnded i (updObj s i fun o => signalled o val err) (signalFence s i val err) ∧
    ∀ k ∈ (signalFence s i val err).cmds, k.waits = some i → k.phase = .waiting → (ctxOf s k.ref.ctx).state ≠ .faulted →
      waitEnd (objOf (signalFence s i val err) i) k.ignerr k.wval = .goesOn := by
  rw [signalFence_eq, wakeWaiters]
  obtain ⟨h1, h2⟩ := endWaits_ended (i := i) ((updObj s i fun o => signalled o val err).cmds.filter fun k => k.waits == some i)
    (fun k hk => by simpa using (List.mem_filter.1 hk).2) (updObj s i fun o => signalled o val err)
  exact ⟨h1, fun k hk hw => h2 k (List.mem_filter.2 ⟨h1.cmds k hk hw, by simp [hw]⟩) hk⟩

theorem signalFence_sameFence (s : State) (i : Nat) (val : DWord) (err : Option Nat) :
    SameFence (signalled (objOf s i) val err) (objOf (signalFence s i val err) i) := by
  have := (signalFence_ended s i val err).1.fence
  rwa [objOf_updObj_same] at this

/-! ### What retirement touches (R82, R84) -/

theorem tryBind_frame {s t : State} {qi : Nat} (h : tryBind s qi = some t) :
    ∃ queues free, t = { s with queues := queues, freeCtr := free } := by
  unfold tryBind at h
  split at h
  · cases h; exact ⟨_, _, rfl⟩
  · split at h
    · cases h; exact ⟨_, s.freeCtr, rfl⟩
    · cases h

theorem bindFromWait_frame (s : State) :
    ∃ queues free waiting, bindFromWait s = { s with queues := queues, freeCtr := free, waiting := waiting } := by
  unfold bindFromWait
  split
  · exact ⟨s.queues, s.freeCtr, s.waiting, rfl⟩
  · split
    · exact ⟨s.queues, s.freeCtr, _, rfl⟩
    · split
      · rename_i h
        obtain ⟨q, f, rfl⟩ := tryBind_frame h
        exact ⟨q, f, _, rfl⟩
      · exact ⟨s.queues, s.freeCtr, s.waiting, rfl⟩

theorem endHalts_frame (s : State) (p : Halt → Bool) : ∃ queues halts, endHalts s p = { s with queues := queues, halts := halts } := by
  have key (l left : List Halt) (u : State) : ∃ queues, l.foldl (fun s h =>
      if (queueOf s h.ctx h.queue).qstate = .halted ∧ !(left.any fun k => k.ctx == h.ctx && k.queue == h.queue) then
        setQueue s h.ctx h.queue { queueOf s h.ctx h.queue with qstate := .enabled }
      else s) u = { u with queues := queues } := by
    induction l generalizing u with
    | nil => exact ⟨_, rfl⟩
    | cons h r ih =>
      rw [List.foldl_cons]
      split
      · obtain ⟨q, hq⟩ := ih (setQueue u h.ctx h.queue { queueOf u h.ctx h.queue with qstate := .enabled })
        exact ⟨q, hq⟩
      · exact ih u
  obtain ⟨q, hq⟩ := key (s.halts.filter p) (s.halts.filter fun h => !p h) { s with halts := s.halts.filter fun h => !p h }
  exact ⟨q, _, hq⟩

theorem writeCompletion_frame (s : State) (k : Cmd) : ∃ mem sovel boot queues,
    writeCompletion s k = { s with mem := mem, sovel := sovel, boot := boot, queues := queues } := by
  unfold writeCompletion
  dsimp only
  generalize (ringsOf s _).2.2.2 + _ = pa
  obtain ⟨m, v, h⟩ := companionWrite_frame s pa (completionRecord k)
  rw [h]
  split
  · generalize hu : setQueue _ _ _ _ = u
    obtain ⟨m', v', b', h'⟩ := notify_frame u 3 k.ref.queue k.ref.ctx ((queueOf s k.ref.ctx k.ref.queue).cprod + 1) 0
    rw [h', ← hu]
    exact ⟨_, _, _, _, rfl⟩
  · exact ⟨_, _, s.boot, _, rfl⟩

theorem endUpdate_frame (s : State) (c : CmdRef) : ∃ queues halts held runs,
    endUpdate s c = { s with queues := queues, halts := halts, heldGroups := held, updRuns := runs } := by
  unfold endUpdate
  dsimp only
  obtain ⟨q, h, e⟩ := endHalts_frame { s with heldGroups := s.heldGroups.filter fun h => h.2 != c, updRuns := s.updRuns.filter fun r => r.cmd != c }
    fun (h : Halt) => match h.what with
      | .update d _ => d == c
      | .stream .. => false
  exact ⟨q, h, _, _, e⟩

/-- The last started command of a queue leaves it at a command boundary (R28). -/
def leaveBoundary (s : State) (c : CmdRef) : State :=
  if (queueCmds s c.ctx c.queue).any fun x => x.phase == .started then s else atBoundary s c

theorem leaveBoundary_frame (s : State) (c : CmdRef) : ∃ queues, leaveBoundary s c = { s with queues := queues } := by
  unfold leaveBoundary; split
  · exact ⟨s.queues, rfl⟩
  · exact ⟨_, rfl⟩

/-- A command, and its finished collective run, are gone (R84, R376). -/
def withoutCmd (s : State) (c : CmdRef) : State := { s with
  cmds := s.cmds.filter fun x => x.ref != c
  collRuns := s.collRuns.filter fun r => !(r.cmd == c && r.phase == .finished && r.out.isEmpty) }

theorem retire_eq (s : State) (k : Cmd) : retire s k = bindFromWait (leaveBoundary (withoutCmd
    (endUpdate (dropRefs (writeCompletion (signalOf s k) k) k.refs) k.ref) k.ref) k.ref) := rfl

/-- What follows the record of a completion leaves the objects alone but for its references, and the command is gone. -/
theorem retire_leaves (s : State) (k : Cmd) : (∀ x ∈ (retire s k).cmds, x.ref ≠ k.ref) ∧
    (k.refs = [] → (retire s k).objs = (signalOf s k).objs) := by
  rw [retire_eq]
  generalize hu : dropRefs (writeCompletion (signalOf s k) k) k.refs = u
  obtain ⟨q, hl, hg, hr, he⟩ := endUpdate_frame u k.ref
  obtain ⟨q2, hq⟩ := leaveBoundary_frame (withoutCmd (endUpdate u k.ref) k.ref) k.ref
  obtain ⟨q3, f, w, hb⟩ := bindFromWait_frame (leaveBoundary (withoutCmd (endUpdate u k.ref) k.ref) k.ref)
  rw [hb, hq, he]
  refine ⟨fun x hx => by simpa using (List.mem_filter.1 hx).2, fun h => ?_⟩
  obtain ⟨m, v, b, q4, hw⟩ := writeCompletion_frame (signalOf s k) k
  show u.objs = _
  rw [← hu, h, hw]
  rfl

/-! ### The completion record (R82) -/

/-- The four words of a completion record. -/
def recordWords (k : Cmd) : List Nat :=
  [k.status.toNat * 2 ^ 56 + k.code.toNat * 2 ^ 48 + k.ref.queue % 16 * 2 ^ 44 + k.ref.ctx % 4096 * 2 ^ 32 + k.tag.toNat,
    k.ref.lpos % 2 ^ 32 * 2 ^ 32 + k.ref.index % 2 ^ 32, k.result.toNat, 0]

theorem completionRecord_eq (k : Cmd) : completionRecord k = wordBytes (recordWords k) := by
  simp [completionRecord, wordBytes, recordWords, Nat.shiftLeft_eq]

theorem completionRecord_length (k : Cmd) : (completionRecord k).length = 32 := by rw [completionRecord_eq, length_wordBytes]; rfl

theorem recordWords_lt {k : Cmd} {x : Nat} (h : x ∈ recordWords k) : x < 2 ^ 64 := by
  have h0 := k.status.isLt
  have h1 := k.code.isLt
  have h2 := k.tag.isLt
  have h3 := k.result.isLt
  simp only [recordWords, List.mem_cons, List.not_mem_nil, or_false] at h
  omega

/-- The words in memory where a record has been stored. -/
theorem recordWord_memPut (m : NMap Byte) (pa : Nat) (k : Cmd) {n x : Nat} (h : (recordWords k)[n]? = some x) :
    leNat ((List.range 8).map fun j => NMap.getD (memPut m pa (completionRecord k)) (pa + 8 * n + j) 0) = x := by
  obtain ⟨hn, -⟩ := List.getElem?_eq_some_iff.1 h
  rw [completionRecord_eq, memPut_slice, leNat_wordBytes h (recordWords_lt (List.mem_of_getElem? h))]
  rw [length_wordBytes]; omega

/-! ### A plain completion -/

/-- The place of the next completion record of a queue (R82). -/
def recordPlace (s : State) (c : CmdRef) : Nat :=
  let q := queueOf s c.ctx c.queue
  (ringsOf s q).2.2.2 + q.cprod.toNat % 2 ^ (6 + (ringsOf s q).2.2.1) * 32

/-- A completion record written and counted. -/
def recorded (s : State) (k : Cmd) : State :=
  setQueue { s with mem := memPut s.mem (recordPlace s k.ref) (completionRecord k) } k.ref.ctx k.ref.queue
    { queueOf s k.ref.ctx k.ref.queue with
      cprod := (queueOf s k.ref.ctx k.ref.queue).cprod + 1
      retired := (queueOf s k.ref.ctx k.ref.queue).retired + 1
      outst := (queueOf s k.ref.ctx k.ref.queue).outst - 1 }

theorem writeCompletion_plain {s : State} {k : Cmd} (up : linkUp s = true) (hn : k.notify = false) :
    writeCompletion s k = recorded s k := by
  simp only [writeCompletion, companionWrite, up, hn, Bool.false_eq_true, if_false, if_true]; rfl

theorem endUpdate_none {s : State} (c : CmdRef) (hg : s.heldGroups = []) (hu : s.updRuns = []) (hh : s.halts = []) :
    endUpdate s c = s := by
  cases s; simp_all [endUpdate, endHalts]

/-- A completion that has no fence to signal, no notification to send and no reference to drop, and that no other work waits
for, writes the record and counts it. -/
theorem retire_plain {s : State} {k : Cmd} (up : linkUp s = true) (hf : k.sfence = 0) (hn : k.notify = false) (hr : k.refs = [])
    (hw : s.waiting = []) (hg : s.heldGroups = []) (hu : s.updRuns = []) (hh : s.halts = []) (hc : s.collRuns = []) :
    retire s k = leaveBoundary { recorded s k with cmds := s.cmds.filter fun x => x.ref != k.ref } k.ref := by
  have hs : signalOf s k = s := by simp [signalOf, hf]
  have hd : withoutCmd (recorded s k) k.ref = { recorded s k with cmds := s.cmds.filter fun x => x.ref != k.ref } := by
    have hr : (recorded s k).collRuns = [] := hc
    rw [withoutCmd, hr, List.filter_nil, ← hr]; rfl
  rw [retire_eq, hs, writeCompletion_plain up hn, hr, dropRefs, List.foldl_nil,
    endUpdate_none (s := recorded s k) k.ref hg hu hh, hd]
  obtain ⟨q, hl⟩ := leaveBoundary_frame { recorded s k with cmds := s.cmds.filter fun x => x.ref != k.ref } k.ref
  have hwait : (leaveBoundary { recorded s k with cmds := s.cmds.filter fun x => x.ref != k.ref } k.ref).waiting = [] := by
    rw [hl]; exact hw
  rw [bindFromWait, hwait]

theorem leaveBoundary_queue (s : State) (c : CmdRef) : queueOf (leaveBoundary s c) c.ctx c.queue =
    { queueOf s c.ctx c.queue with
      keep := if s.cmds.any fun x => x.ref.ctx == c.ctx && x.ref.queue == c.queue && x.phase == .started
        then (queueOf s c.ctx c.queue).keep else none } := by
  unfold leaveBoundary queueCmds
  rw [List.any_filter]
  split
  · rfl
  · rw [atBoundary, queueOf_updQueue_same]

theorem exec_commandCompletion {s : State} (h : s.run = .up) (c : CmdRef) :
    exec (.commandCompletion c) s = .next (complete s c) := by
  rw [show exec _ s = execCommandCompletion c s from rfl, execCommandCompletion, whenUp_up _ h]

theorem complete_held {s : State} {c : CmdRef} {k : Cmd} (hc : cmdOf s c = some k) (hp : k.phase = .done)
    (hf : (ctxOf s c.ctx).state = .faulted) : complete s c = s := by
  simp [complete, hc, hp, hf]

theorem complete_retires {s : State} {c : CmdRef} {k : Cmd} (hc : cmdOf s c = some k) (hp : k.phase = .done)
    (hl : k.opcode ≠ 0x03 ∨ k.ref.lpos ≠ 0 ∨ listedLeft s c = false) (hf : (ctxOf s c.ctx).state ≠ .faulted) :
    complete s c = retire s k := by
  have : ¬ (k.opcode = 0x03 ∧ k.ref.lpos = 0 ∧ listedLeft s c = true) := by
    rintro ⟨h1, h2, h3⟩; simp [h1, h2, h3] at hl
  unfold complete
  simp only [hc, hp, if_neg hf, if_neg this]

/-- The fence of a completed command has been signalled when it has retired. -/
theorem retire_signals {s : State} {k : Cmd} (hf : k.sfence ≠ 0) (hs : k.status = 0) (he : k.errSignal = 0) (hr : k.refs = [])
    (hst : fenceStands s k.sfence = true) : (objOf (retire s k) (originOf s (hIndex k.sfence))).w1 =
      if (objOf s (originOf s (hIndex k.sfence))).w1.toNat < k.sval.toNat then k.sval
      else (objOf s (originOf s (hIndex k.sfence))).w1 := by
  have hsig : signalOf s k = signalFence s (originOf s (hIndex k.sfence)) k.sval none := by
    rw [signalOf, if_neg (by simpa [hst] using hf)]; simp [hs, he]
  rw [objOf_congr ((retire_leaves s k).2 hr), hsig, (signalFence_sameFence ..).value, signalled_value]

/-- What a plain completion leaves. -/
theorem retire_plain_leaves {s t : State} {k : Cmd}
    (ht : t = leaveBoundary { recorded s k with cmds := s.cmds.filter fun x => x.ref != k.ref } k.ref) :
    t = { s with mem := t.mem, queues := t.queues, cmds := s.cmds.filter (fun x => x.ref != k.ref) } ∧
    (∀ a, memByte t a = NMap.getD (memPut s.mem (recordPlace s k.ref) (completionRecord k)) a 0) ∧
    queueOf t k.ref.ctx k.ref.queue = { queueOf s k.ref.ctx k.ref.queue with
      cprod := (queueOf s k.ref.ctx k.ref.queue).cprod + 1
      retired := (queueOf s k.ref.ctx k.ref.queue).retired + 1
      outst := (queueOf s k.ref.ctx k.ref.queue).outst - 1
      keep := if t.cmds.any fun x => x.ref.ctx == k.ref.ctx && x.ref.queue == k.ref.queue && x.phase == .started
        then (queueOf s k.ref.ctx k.ref.queue).keep else none } := by
  obtain ⟨q, hl⟩ := leaveBoundary_frame { recorded s k with cmds := s.cmds.filter fun x => x.ref != k.ref } k.ref
  have hq := leaveBoundary_queue { recorded s k with cmds := s.cmds.filter fun x => x.ref != k.ref } k.ref
  have hr : queueOf { recorded s k with cmds := s.cmds.filter fun x => x.ref != k.ref } k.ref.ctx k.ref.queue =
    queueOf (recorded s k) k.ref.ctx k.ref.queue := rfl
  rw [← ht, hr, recorded, queueOf_setQueue_same] at hq
  rw [hl] at ht
  refine ⟨by rw [ht]; rfl, fun a => by rw [ht]; rfl, ?_⟩
  rw [hq, ht]

/-- Settles O31: a signal ends each wait of the fence as it then stands, and what follows it in a retirement touches neither the
fences nor the record. -/
theorem retirement : Obligations.Retirement := by
  refine ⟨fun s c k up link hc hp hl hf hcoll hsf hn hr hw hg hu hh hq hx => ?_,
    fun s c k up hc hp hl => ⟨fun hf => ?_, fun hf => ?_⟩, fun s i val err => ⟨?_, fun j hj => ?_, fun h => ?_, fun e h he => ?_, ?_⟩,
    fun o ign v => ⟨?_, ?_, ?_⟩⟩
  · obtain rfl := cmdOf_ref hc
    obtain ⟨frame, mem, queue⟩ := retire_plain_leaves (s := s) (k := k) rfl
    have word (n x : Nat) (h : (recordWords k)[n]? = some x) := (congrArg leNat (List.map_congr_left fun j _ => mem _)).trans
      (recordWord_memPut s.mem (recordPlace s k.ref) k h)
    refine ⟨_, by rw [exec_commandCompletion up, complete_retires hc hp hl hf, retire_plain link hsf hn hr hw hg hu hh hcoll],
      frame, queue, fun a ha => ?_, ?_, word 1 _ rfl, word 2 _ rfl, word 3 _ rfl⟩
    · have ha : ¬ (recordPlace s k.ref ≤ a ∧ a < recordPlace s k.ref + 32) := ha
      rw [mem, memByte_memPut_outside _ _ (by rw [completionRecord_length]; omega)]; rfl
    · have := word 0 _ rfl
      rwa [Nat.mod_eq_of_lt hq, Nat.mod_eq_of_lt hx] at this
  · rw [exec_commandCompletion up, complete_held hc hp hf]
  · obtain rfl := cmdOf_ref hc
    refine ⟨_, by rw [exec_commandCompletion up, complete_retires hc hp hl hf], (retire_leaves s k).1, fun h1 h2 h3 h4 h5 => ?_⟩
    exact retire_signals h1 h2 h3 h4 h5
  · rw [(signalFence_sameFence ..).value, signalled_value]
  · rw [(signalFence_ended s i val err).1.others j hj, objOf_updObj_other _ _ _ hj]
  · subst h
    have h := signalFence_sameFence s i val none
    obtain ⟨h1, h2⟩ := signalled_none (objOf s i) val
    exact ⟨h.err.trans h1, h.code.trans h2⟩
  · subst h
    have h := signalFence_sameFence s i val (some e)
    obtain ⟨h1, h2⟩ := signalled_some (objOf s i) val he
    exact ⟨h.err.trans h1, h.code.trans h2⟩
  · exact (signalFence_ended s i val err).2
  · exact waitEnd_ok o ign v
  · exact waitEnd_goesOn o ign v
  · rw [← fenceCode_eq]; exact waitEnd_error o ign v

end Sys2Proof.Machine
end

section
/-! Launches (R75, R94, R95, R97, R98, R250, R389, R400): the tiles that KLAUNCH takes, the state in which each starts, and the
end of a tile's part. -/

set_option Elab.async false

namespace Sys2Proof.Machine

/-! ### The tiles of a launch (R95) -/

/-- A tile site that a launch may take (R95, R399). -/
def tileFree (s : State) (site : Nat) : Bool := (tileOf s site).launch.isNone && !NSet.has s.marked site

theorem tileFree_iff (s : State) (site : Nat) :
    tileFree s site = true ↔ (tileOf s site).launch = none ∧ NSet.has s.marked site = false := by
  simp [tileFree]

theorem mem_freeTiles {s : State} {die : Nat} {e : Nat × Nat} (h : e ∈ freeTiles s die) :
    (dieMap s die)[e.2]? = some e.1 ∧ tileFree s e.1 = true :=
  ⟨List.mem_zipIdx_iff_getElem?.1 (List.mem_filter.1 h).1, (List.mem_filter.1 h).2⟩

theorem freeTiles_sites_sublist (s : State) (die : Nat) : ((freeTiles s die).map (·.1)).Sublist (dieMap s die) := by
  conv => rhs; rw [← List.zipIdx_map_fst 0 (dieMap s die)]
  exact List.filter_sublist.map _

theorem length_freeTiles (s : State) (die : Nat) : (freeTiles s die).length = (dieMap s die).countP (tileFree s) := by
  conv => rhs; rw [← List.zipIdx_map_fst 0 (dieMap s die), List.countP_map]
  rw [List.countP_eq_length_filter]; rfl

/-- The share of die 0 in a launch of n tiles, by its die selector and the free tiles of the dies (R95). -/
def dieShare (n sel f0 f1 : Nat) : Nat :=
  if sel = 1 then n else if sel = 2 then 0 else if sel = 3 then (n + 1) / 2 else if f1 ≤ f0 then min n f0 else n - min n f1

theorem chooseTiles_eq (s : State) (n sel : Nat) :
    chooseTiles s n sel =
      let n0 := dieShare n sel (freeTiles s 0).length (freeTiles s 1).length
      if n0 ≤ (freeTiles s 0).length ∧ n - n0 ≤ (freeTiles s 1).length then
        some ((freeTiles s 0).take n0 ++ (freeTiles s 1).take (n - n0)) else none := by
  have h3 : n - (n + 1) / 2 = n / 2 := by omega
  have h0 : n - (n - min n (freeTiles s 1).length) = min n (freeTiles s 1).length := by omega
  unfold chooseTiles dieShare
  split
  · simp
  · simp
  · simp [h3]
  · rename_i h1 h2 h3
    simp only [if_neg h1, if_neg h2, if_neg h3]
    split <;> simp [h0]

/-- The tiles chosen: as many as asked for, those of die 0 first, each free and with its logical number. -/
structure Chosen (s : State) (n n0 : Nat) (l : List (Nat × Nat)) : Prop where
  length : l.length = n
  nodup : (l.map (·.1)).Nodup
  free : ∀ e ∈ l, tileFree s e.1 = true
  die : ∀ i e, l[i]? = some e → if i < n0 then s.map0[e.2]? = some e.1 else 192 ≤ e.1 ∧ s.map1[e.2]? = some (e.1 - 192)

theorem chosen_take {s : State} {n n0 : Nat} (h0 : n0 ≤ (freeTiles s 0).length) (h1 : n - n0 ≤ (freeTiles s 1).length) (hn : n0 ≤ n)
    (hd : (s.map0 ++ s.map1.map (· + 192)).Nodup) : Chosen s n n0 ((freeTiles s 0).take n0 ++ (freeTiles s 1).take (n - n0)) where
  length := by simp; omega
  nodup := by
    rw [List.map_append]
    exact hd.sublist ((((List.take_sublist ..).map _).trans (freeTiles_sites_sublist s 0)).append
      (((List.take_sublist ..).map _).trans (freeTiles_sites_sublist s 1)))
  free e he := by
    rcases List.mem_append.1 he with h | h
    · exact (mem_freeTiles (List.mem_of_mem_take h)).2
    · exact (mem_freeTiles (List.mem_of_mem_take h)).2
  die i e he := by
    have hl : ((freeTiles s 0).take n0).length = n0 := by simp; omega
    split
    · rw [List.getElem?_append_left (by omega)] at he
      exact (mem_freeTiles (List.mem_of_mem_take (List.mem_of_getElem? he))).1
    · rw [List.getElem?_append_right (by omega)] at he
      have := (mem_freeTiles (List.mem_of_mem_take (List.mem_of_getElem? he))).1
      obtain ⟨y, hy, hx⟩ : ∃ y, s.map1[e.2]? = some y ∧ y + 192 = e.1 := by simpa [dieMap] using this
      exact ⟨by omega, by rw [← hx, Nat.add_sub_cancel]; exact hy⟩

/-! ### A tile at its start (R94, R97, R246) -/

/-- A tile at the start of a launch, free values taken from number free on. -/
def startedTile (k : Cmd) (t : Tile) (free site index logical : Nat) : Tile :=
  { clearedTile t k.ref.ctx free with
    launch := some k.ref, index := index, logical := logical, ccPc := k.w0, ccRegs := startRegs k site index logical }

theorem applyRepair_none {s : State} {site : Nat} (h : repairPend (repairOf s site) = false) : applyRepair s site = s := by
  simp [applyRepair, h]

theorem startTile_eq {s : State} (k : Cmd) (site index logical : Nat) (h : repairPend (repairOf s site) = false) :
    startTile k s site index logical =
      setTile { s with freeCtr := s.freeCtr + junkSpan } site (startedTile k (tileOf s site) s.freeCtr site index logical) :=
  applyRepair_none h

/-- Starting on the sites of a list changes their tiles alone, each to its start. -/
theorem startTiles_leaves (k : Cmd) (l : List (Nat × Nat)) (s : State) (index : Nat) (hd : (l.map (·.1)).Nodup)
    (h : ∀ site, repairPend (repairOf s site) = false) :
    let t := startTiles k s index l
    (∃ tiles free, t = { s with tiles := tiles, freeCtr := free }) ∧ (∀ x, x ∉ l.map (·.1) → tileOf t x = tileOf s x) ∧
    ∀ i e, l[i]? = some e → ∃ free, tileOf t e.1 = startedTile k (tileOf s e.1) free e.1 (index + i) e.2 := by
  induction l generalizing s index with
  | nil => exact ⟨⟨_, _, rfl⟩, fun _ _ => rfl, fun _ _ h => by cases h⟩
  | cons a r ih =>
    obtain ⟨site, logical⟩ := a
    rw [List.map_cons, List.nodup_cons] at hd
    have hs := startTile_eq (s := s) k site index logical (h site)
    obtain ⟨⟨tiles, free, hf⟩, ho, hi⟩ := ih (startTile k s site index logical) (index + 1) hd.2 (by rw [hs]; exact h)
    have hother {x : Nat} (hx : x ≠ site) : tileOf (startTile k s site index logical) x = tileOf s x := by
      rw [hs, tileOf_setTile_other _ _ _ hx]; rfl
    rw [startTiles]
    refine ⟨⟨tiles, free, by rw [hf, hs]; rfl⟩, fun x hx => ?_, fun i e he => ?_⟩
    · rw [List.map_cons, List.mem_cons, not_or] at hx
      rw [ho x hx.2, hother hx.1]
    · cases i with
      | zero =>
        cases he
        refine ⟨s.freeCtr, ?_⟩
        rw [ho site hd.1, hs, tileOf_setTile_same]; rfl
      | succ i =>
        have he : r[i]? = some e := he
        obtain ⟨free, hx⟩ := hi i e he
        have hne : e.1 ≠ site := fun h => hd.1 (h ▸ List.mem_map_of_mem (f := (·.1)) (List.mem_of_getElem? he))
        exact ⟨free, by rw [hx, hother hne, Nat.add_right_comm]; rfl⟩

/-- What a tile that a launch takes holds: nothing, but for what a launch of the same context may have left in its store and its
vector registers. -/
theorem clearedTile_holds (t : Tile) (ctx free : Nat) : ∃ store junk poison vec,
    clearedTile t ctx free = { Tile.empty with
      array := { MatArray.empty with lastAct := t.array.lastAct, holdLeft := t.array.holdLeft }, sampleCount := t.sampleCount
      lastCtx := some ctx, store := store, storeJunk := junk, storePoison := poison, vec := vec } ∧
    vec.queue = [] ∧ vec.vl = 0 ∧ (t.lastCtx ≠ some ctx → store = [] ∧ junk = none ∧ vec = .reset) := by
  unfold clearedTile
  dsimp only
  split
  · exact ⟨_, _, _, _, rfl, rfl, rfl, fun h => absurd ‹_› h⟩
  · exact ⟨_, _, _, _, rfl, rfl, rfl, fun _ => ⟨rfl, rfl, rfl⟩⟩

/-- The registers of a list, each with its value, as a core without poison holds them. -/
def regsOf (l : List (Nat × Nat)) : NMap T64 :=
  l.filterMap fun e => if e.2 = 0 then none else some (e.1, { val := BitVec.ofNat 64 e.2, poison := false })

theorem getD_regsOf_absent {l : List (Nat × Nat)} {r : Nat} (h : ∀ e ∈ l, e.1 ≠ r) : NMap.getD (regsOf l) r T64.zero = T64.zero := by
  induction l with
  | nil => rfl
  | cons e l ih =>
    have ih := ih fun x hx => h x (List.mem_cons_of_mem _ hx)
    have he := h e List.mem_cons_self
    by_cases hv : e.2 = 0
    · rw [show regsOf (e :: l) = regsOf l by simp [regsOf, hv], ih]
    · rw [show regsOf (e :: l) = (e.1, { val := BitVec.ofNat 64 e.2, poison := false }) :: regsOf l by simp [regsOf, hv],
        NMap.getD, NMap.find, if_neg he]
      exact ih

theorem getD_regsOf_cons {j : Nat} {l : List (Nat × Nat)} (h : ∀ e ∈ l, e.1 ≠ j) (v r : Nat) :
    NMap.getD (regsOf ((j, v) :: l)) r T64.zero =
      if j = r then { val := BitVec.ofNat 64 v, poison := false } else NMap.getD (regsOf l) r T64.zero := by
  by_cases hv : v = 0
  · rw [show regsOf ((j, v) :: l) = regsOf l by simp [regsOf, hv]]
    split
    · rename_i hj; rw [← hj, getD_regsOf_absent h, hv]; rfl
    · rfl
  · by_cases hj : j = r <;> simp [regsOf, hv, hj, NMap.getD, NMap.find]

/-- The registers in which a control core starts (R97). -/
theorem getD_startRegs (k : Cmd) (site index logical r : Nat) : NMap.getD (startRegs k site index logical) r T64.zero =
    { val := if r = 1 then k.w1 else if r = 2 then BitVec.ofNat 64 index else if r = 3 then BitVec.ofNat 64 (klTiles k)
        else if r = 4 then BitVec.ofNat 64 (site / 192 * 256 + logical) else 0, poison := false } := by
  rw [show startRegs k site index logical =
      regsOf [(1, k.w1.toNat), (2, index), (3, klTiles k), (4, site / 192 * 256 + logical)] from rfl,
    getD_regsOf_cons (by simp), getD_regsOf_cons (by simp), getD_regsOf_cons (by simp), getD_regsOf_cons (by simp),
    BitVec.ofNat_toNat, BitVec.setWidth_eq]
  simp only [eq_comm (a := r)]
  split_ifs <;> rfl

/-! ### KLAUNCH -/

theorem launchTooBig_iff (s : State) (k : Cmd) : launchTooBig s k = false ↔
    klGroups k ≤ 64 ∧ klGroups k * roundUp (klRegs k) 8 ≤ 4096 ∧ klStore k ≤ 1536 ∧ klTiles k ≤ s.map0.length + s.map1.length ∧
      (klSel k = 1 → klTiles k ≤ s.map0.length) ∧ (klSel k = 2 → klTiles k ≤ s.map1.length) ∧
      (klSel k = 3 → (klTiles k + 1) / 2 ≤ s.map0.length ∧ klTiles k / 2 ≤ s.map1.length) := by
  simp [launchTooBig, and_assoc]

theorem exec_klaunch {s : State} {c : CmdRef} {k : Cmd} (h : Runs s c 0x20 k) : exec (.klaunch c) s = .next (klaunchEffect s k) := by
  rw [show exec _ s = execKlaunch c s from rfl, execKlaunch, whenUp_up _ h.up, runCmd_runs h]

/-- The launch that a KLAUNCH starts on the sites of a list. -/
def launchOf (k : Cmd) (l : List (Nat × Nat)) : Launch :=
  { cmd := k.ref, ctx := k.ref.ctx, sites := l.map (·.1), groups := klGroups k, regs := klRegs k, store := klStore k, code := k.w0
    arg := k.w1, ended := [], saved := [] }

/-- The three ends of a KLAUNCH that has no launch yet. -/
theorem klaunchEffect_eq {s : State} {k : Cmd} (h : ∀ l ∈ s.launches, l.cmd ≠ k.ref) : klaunchEffect s k =
    if launchTooBig s k = true then failC s k 0 launchResources 0 0
    else match chooseTiles s (klTiles k) (klSel k) with
      | none => s
      | some l => { startTiles k s 0 l with launches := (startTiles k s 0 l).launches ++ [launchOf k l] } := by
  have : (s.launches.any fun l => l.cmd == k.ref) = false := by simpa using h
  simp only [klaunchEffect, this, Bool.false_eq_true, if_false]
  rfl

/-- The operands of a KLAUNCH (R73). -/
theorem klaunch_fields (k : Cmd) : klTiles k = k.w2.toNat % 512 ∧ klGroups k = k.w2.toNat / 512 % 128 ∧
    klRegs k = k.w2.toNat / 2 ^ 16 % 256 ∧ klStore k = k.w2.toNat / 2 ^ 32 % 2 ^ 11 ∧ klSel k = k.w3.toNat % 4 := by
  simp [klTiles, klGroups, klRegs, klStore, klSel, fld, field, Nat.shiftRight_eq_div_pow]

theorem count_free0 (s : State) : (freeTiles s 0).length = s.map0.countP (tileFree s) := by
  rw [length_freeTiles]; rfl

theorem count_free1 (s : State) : (freeTiles s 1).length = s.map1.countP fun x => tileFree s (x + 192) := by
  rw [length_freeTiles, dieMap, if_neg (by decide), List.countP_map]; rfl

theorem dieShare_le {n sel f0 f1 : Nat} : dieShare n sel f0 f1 ≤ n := by
  unfold dieShare; repeat' split
  all_goals omega

theorem klaunch_fails {s : State} {k : Cmd} (h : ∀ l ∈ s.launches, l.cmd ≠ k.ref) (hb : launchTooBig s k = true) :
    klaunchEffect s k = failC s k 0 launchResources 0 0 := by
  rw [klaunchEffect_eq h, if_pos hb]

/-- While too few tiles are free a KLAUNCH waits (R95). -/
theorem klaunch_waits {s : State} {k : Cmd} (h : ∀ l ∈ s.launches, l.cmd ≠ k.ref) (hb : launchTooBig s k = false)
    (hf : let n0 := dieShare (klTiles k) (klSel k) (freeTiles s 0).length (freeTiles s 1).length
      (freeTiles s 0).length < n0 ∨ (freeTiles s 1).length < klTiles k - n0) : klaunchEffect s k = s := by
  rw [klaunchEffect_eq h, hb, chooseTiles_eq]
  dsimp only at hf ⊢
  rw [if_neg Bool.false_ne_true, if_neg (by omega)]

/-- Where enough tiles are free a KLAUNCH starts on the ones chosen. -/
theorem klaunch_starts {s : State} {k : Cmd} (h : ∀ l ∈ s.launches, l.cmd ≠ k.ref) (hb : launchTooBig s k = false) {n0 : Nat}
    (hn : n0 = dieShare (klTiles k) (klSel k) (freeTiles s 0).length (freeTiles s 1).length)
    (h0 : n0 ≤ (freeTiles s 0).length) (h1 : klTiles k - n0 ≤ (freeTiles s 1).length) (hd : (s.map0 ++ s.map1.map (· + 192)).Nodup) :
    ∃ l, Chosen s (klTiles k) n0 l ∧
      klaunchEffect s k = { startTiles k s 0 l with launches := (startTiles k s 0 l).launches ++ [launchOf k l] } := by
  refine ⟨_, chosen_take h0 h1 (hn ▸ dieShare_le) hd, ?_⟩
  rw [klaunchEffect_eq h, hb, chooseTiles_eq]
  dsimp only
  rw [← hn, if_neg Bool.false_ne_true, if_pos ⟨h0, h1⟩]

/-- The tile that a launch has started. -/
theorem startedTile_holds (k : Cmd) (t : Tile) (free site index logical : Nat) : let u := startedTile k t free site index logical
    u.l1 = [] ∧ u.icache = [] ∧ u.groups = [] ∧ u.bqs = [] ∧ u.streams = [] ∧ u.msgs = [] ∧ u.vec.queue = [] ∧ u.vec.vl = 0 ∧
    (∀ r, r < 4 → (accOf u.array r).kind = .empty ∧ (accOf u.array r).cells = []) ∧
    (t.lastCtx ≠ some k.ref.ctx → (∀ a, storeByte u a = 0) ∧ u.vec.regs = [] ∧ u.vec.junk = none) := by
  obtain ⟨store, junk, poison, vec, hc, hq, hv, hz⟩ := clearedTile_holds t k.ref.ctx free
  unfold startedTile
  rw [hc]
  refine ⟨rfl, rfl, rfl, rfl, rfl, rfl, hq, hv, fun r hr => ?_, fun hl => ?_⟩
  · interval_cases r <;> exact ⟨rfl, rfl⟩
  · obtain ⟨rfl, rfl, rfl⟩ := hz hl
    exact ⟨fun a => rfl, rfl, rfl⟩

theorem ccReg_startedTile (k : Cmd) (t : Tile) (free site index logical r : Nat) :
    ccReg (startedTile k t free site index logical) r =
      { val := if r = 1 then k.w1 else if r = 2 then BitVec.ofNat 64 index else if r = 3 then BitVec.ofNat 64 (klTiles k)
          else if r = 4 then BitVec.ofNat 64 (site / 192 * 256 + logical) else 0, poison := false } := by
  unfold ccReg
  split
  · rename_i h; subst h; rfl
  · exact getD_startRegs k site index logical r

/-! ### END (R98, R250, R389) -/

theorem cmdOf_updCmd {f : Cmd → Cmd} (h : ∀ k, (f k).ref = k.ref) (s : State) (c : CmdRef) :
    cmdOf (updCmd s c f) c = (cmdOf s c).map f := by
  have hp : ((fun x : Cmd => x.ref == c) ∘ fun x => if x.ref == c then f x else x) = fun x => x.ref == c := by
    funext x
    simp only [Function.comp]
    split
    · rw [h]
    · rfl
  unfold cmdOf updCmd
  rw [List.find?_map, hp]
  cases hk : s.cmds.find? fun x => x.ref == c with
  | none => rfl
  | some k =>
    have hc : (k.ref == c) = true := List.find?_some (p := fun x : Cmd => x.ref == c) hk
    rw [Option.map_some, Option.map_some, if_pos hc]

/-- END waits for nothing. -/
theorem endBlocked_free {s : State} {site : Nat} (hg : ∀ g, g < 64 → (groupOf (tileOf s site) g).running = false)
    (hv : (tileOf s site).vec.queue = []) (ha : (tileOf s site).array.accepted = []) (hst : (tileOf s site).streams = [])
    (hm : (tileOf s site).msgs = []) (hd : (tileOf s site).deferred = []) (hb : (tileOf s site).bqs = []) (hr : s.remotes = [])
    (hl : redsLeft s site = []) : endBlocked s site = false := by
  have hrun : runningMask (tileOf s site) = 0 := by
    unfold runningMask
    rw [List.sum_eq_zero]
    intro x hx
    obtain ⟨g, hg', rfl⟩ := List.mem_map.1 hx
    rw [hg g (List.mem_range.1 hg')]; rfl
  simp [endBlocked, hrun, hv, ha, hst, msgsInFlight, hm, hd, hb, hr, turnsLeft, hl]

/-- The end of a tile's part changes its tile, the commands and the launches. -/
theorem endPart_frame (s : State) (l : Launch) (site : Nat) : ∃ cmds launches,
    endPart s l site = { updTile s site freeTile with cmds := cmds, launches := launches } := by
  unfold endPart
  dsimp only
  split
  · exact ⟨_, _, rfl⟩
  · exact ⟨s.cmds, _, rfl⟩

/-- With its last part the launch is gone and its command completes; without it the part has ended. -/
theorem endPart_launch (s : State) (l : Launch) (site : Nat) :
    let t := endPart s l site
    let ended := NSet.add l.ended (tileOf s site).index
    if l.sites.length ≤ ended.length then
      (∀ k ∈ t.launches, k.cmd ≠ l.cmd) ∧
        ∀ k, cmdOf s l.cmd = some k → cmdOf t l.cmd = some { k with phase := .done, status := 0, code := 0, result := 0 }
    else t.cmds = s.cmds ∧ ∀ k ∈ t.launches, k.cmd = l.cmd → k.ended = ended := by
  have hi : (tileOf (updTile s site freeTile) site).index = (tileOf s site).index := by rw [tileOf_updTile_same]; rfl
  unfold endPart
  simp only [hi]
  split
  · refine ⟨fun k hk => by simpa using (List.mem_filter.1 hk).2, fun k hk => ?_⟩
    exact (cmdOf_updCmd (by intro; rfl) _ l.cmd).trans (congrArg _ hk)
  · refine ⟨rfl, fun k hk hc => ?_⟩
    obtain ⟨x, -, rfl⟩ := List.mem_map.1 hk
    by_cases hx : (x.cmd == l.cmd) = true
    · rw [if_pos hx]
    · rw [if_neg hx] at hc; exact absurd hc (by simpa using hx)

theorem exec_endTile {s s1 : State} {site : Nat} {l : Launch} {pc : DWord} {f : CrF} (h : CcReady false s site l pc s1)
    (hl : sysLegal f 0x01 = true) (hb : endBlocked s1 site = false) (hs : (tileOf s1 site).samples = []) :
    exec (.endTile site f) s = .next (ccRetire (endPart s1 l site) l site (pc + 4)) := by
  rw [show exec _ s = execEndTile site f s from rfl, execEndTile, whenUp_up _ h.up, ccStep_ready h nofun hl]
  simp [hb, hs, ccFinish]

/-- What the end of a tile's part leaves once END has retired. -/
theorem endPart_retired {s t : State} {l : Launch} {site : Nat} {pc : DWord}
    (h : CcRetired (endPart s l site) t l site 0 T64.zero pc) :
    (∃ tiles counters, t = { endPart s l site with tiles := tiles, counters := counters }) ∧ (∀ k, k ≠ site → tileOf t k = tileOf s k) ∧
    (tileOf t site).launch = none ∧ (tileOf t site).groups = [] ∧ (tileOf t site).store = (tileOf s site).store := by
  obtain ⟨cmds, launches, he⟩ := endPart_frame s l site
  have ht (k : Nat) : tileOf (endPart s l site) k = tileOf (updTile s site freeTile) k := by rw [he]; rfl
  refine ⟨h.frame, fun k hk => by rw [h.tiles k hk, ht, tileOf_updTile_other _ _ _ hk], ?_⟩
  rw [h.tile, ht, tileOf_updTile_same]
  exact ⟨rfl, rfl, rfl⟩

/-- Every part of a launch that KLAUNCH has started (R94, R95, R97). -/
theorem klaunch_tiles {s : State} {k : Cmd} {n0 : Nat} {l : List (Nat × Nat)} (hl : Chosen s (klTiles k) n0 l)
    (hmap : ∀ x ∈ s.map0, x < 192) {i x : Nat} (hx : (l.map (·.1))[i]? = some x) :
    ∃ logical, l[i]? = some (x, logical) ∧ tileFree s x = true ∧ (x < 192 ↔ i < n0) ∧
      (x < 192 → s.map0[logical]? = some x) ∧ (192 ≤ x → s.map1[logical]? = some (x - 192)) := by
  rw [List.getElem?_map] at hx
  obtain ⟨⟨y, logical⟩, he, rfl⟩ := Option.map_eq_some_iff.1 hx
  have hdie := hl.die i _ he
  have hfree := hl.free _ (List.mem_of_getElem? he)
  refine ⟨logical, he, hfree, ?_⟩
  split at hdie
  · next hi =>
    have hlt := hmap _ (List.mem_of_getElem? hdie)
    exact ⟨by simp_all, fun _ => hdie, fun h => absurd hlt (Nat.not_lt.2 h)⟩
  · next hi =>
    obtain ⟨hge, hm⟩ := hdie
    exact ⟨⟨fun h => absurd hge (Nat.not_le.2 h), fun h => absurd h hi⟩, fun h => absurd hge (Nat.not_le.2 h), fun _ => hm⟩

/-- Settles O37: the free tiles of each die are a sublist of its map, so that the chosen ones are apart and each starts as it stood; END
that waits for nothing frees its tile and counts its part. -/
theorem launchAndEnd : Obligations.LaunchAndEnd := by
  refine ⟨fun s c k h hl => ⟨fun hfit => ?_, fun hfit hfew => ?_, fun hfit h0 h1 hd hmap hrep => ?_⟩,
    fun s site l pc s1 f h hfn hrd hr1 hr2 hg hv ha hst hm hd hb hs hr hred => ?_⟩
  · obtain rfl := cmdOf_ref h.cmd
    obtain ⟨hn, hgr, hre, hst, hse⟩ := klaunch_fields k
    simp only [← hn, ← hgr, ← hre, ← hst, ← hse, ← launchTooBig_iff, Bool.not_eq_false] at hfit
    rw [exec_klaunch h, klaunch_fails hl hfit]
  · obtain rfl := cmdOf_ref h.cmd
    obtain ⟨hn, hgr, hre, hst, hse⟩ := klaunch_fields k
    simp only [← hn, ← hgr, ← hre, ← hst, ← hse, ← launchTooBig_iff] at hfit hfew
    rw [exec_klaunch h, klaunch_waits hl hfit (by rw [count_free0, count_free1]; exact hfew)]
  · obtain rfl := cmdOf_ref h.cmd
    obtain ⟨hn, hgr, hre, hst, hse⟩ := klaunch_fields k
    simp only [← hn, ← hgr, ← hre, ← hst, ← hse, ← launchTooBig_iff] at hfit h0 h1 ⊢
    obtain ⟨l, hc, hstart⟩ := klaunch_starts hl hfit (by rw [count_free0, count_free1]; rfl) (h0.trans_eq (count_free0 s).symm)
      (h1.trans_eq (count_free1 s).symm) hd
    obtain ⟨⟨tiles, free, hs⟩, hother, hparts⟩ := startTiles_leaves k l s 0 hc.nodup hrep
    refine ⟨_, launchOf k l, (exec_klaunch h).trans (congrArg _ hstart), by rw [hs], rfl, rfl, rfl, rfl, rfl, rfl, rfl, rfl,
      (List.length_map ..).trans hc.length, fun i x hx => ?_, hother, fun i x hx => ?_⟩
    · obtain ⟨logical, -, hf, hdie, -⟩ := klaunch_tiles hc hmap hx
      exact ⟨(tileFree_iff s x).1 hf, hdie⟩
    · obtain ⟨logical, he, -, -, hm0, hm1⟩ := klaunch_tiles hc hmap hx
      obtain ⟨free, hu⟩ := hparts i _ he
      rw [Nat.zero_add] at hu
      obtain ⟨hl1, hic, hgroups, hbqs, hstr, hmsgs, hq, hvl, hacc, hstore⟩ := startedTile_holds k (tileOf s x) free x i logical
      have hu : tileOf { startTiles k s 0 l with launches := (startTiles k s 0 l).launches ++ [launchOf k l] } x = _ := hu
      rw [hu]
      exact ⟨rfl, rfl, rfl, hl1, hic, hgroups, hbqs, hstr, hmsgs, hq, hvl, hm0, hm1,
        fun r _ => ccReg_startedTile k (tileOf s x) free x i logical r, hacc, hstore⟩
  · have hb := endBlocked_free hg hv ha hst hm hd hb hr hred
    have hret := ccRetire_plain (endPart s1 l site) l site (pc + 4)
    obtain ⟨⟨tiles, counters, hf⟩, hother, hlaunch, hgroups, hstore⟩ := endPart_retired hret
    obtain ⟨cmds, launches, he⟩ := endPart_frame s1 l site
    refine ⟨_, exec_endTile h (by simp [sysLegal, hfn, hrd, hr1, hr2]) hb hs, hother, ?_, ?_, hlaunch, hgroups, hstore, ?_⟩
    · rw [hf, he]; rfl
    · rw [hf, he]; rfl
    · rw [hf]
      exact endPart_launch s1 l site

end Sys2Proof.Machine
end

section
/-! The command front end (R66, R67, R69, R71 to R76): doorbells, slots, and what the parsing of a ring packet leaves. -/

set_option Elab.async false

namespace Sys2Proof.Machine

/-! ### Doorbells (R67, R69) -/

theorem exec_doorbellWrite {s : State} (h : s.run = .up) (hl : linkUp s = true) {ctx queue : Nat} (hc : ctx < 4096) (hq : queue < 16)
    (data : DWord) (stores : List (Nat × Byte)) :
    exec (.doorbellWrite ctx queue data stores) s = .next (doorbell (companionStores s stores) ctx queue data) := by
  rw [show exec _ s = execDoorbellWrite ctx queue data stores s from rfl, execDoorbellWrite, whenUp_up _ h, if_pos ⟨hl, hc, hq⟩]

theorem ofNat_fld_low (x : DWord) : BitVec.ofNat 32 (fld x 31 0) = x.extractLsb' 0 32 := by
  apply BitVec.eq_of_toNat_eq
  simp [fld, field]

theorem qidx_split (qi : Nat) : qidx (qi / 16) (qi % 16) = qi := by unfold qidx; omega

theorem qidx_ctx {ctx queue : Nat} (h : queue < 16) : qidx ctx queue / 16 = ctx ∧ qidx ctx queue % 16 = queue := by unfold qidx; omega

/-- A queue that a doorbell may ring (R69). -/
def Serves (s : State) (ctx queue : Nat) : Prop :=
  let q := queueOf s ctx queue
  let st := (ctxOf s ctx).state
  (st = .active ∨ st = .suspended ∨ st = .faulted) ∧ q.qstate ≠ .disabled ∧ q.bootRings = false ∧ ringMarked s q = false

/-- A queue that its doorbell has rung, with its new TAIL. -/
def rung (s : State) (ctx queue : Nat) (tail : Word) : State :=
  let s := setQueue s ctx queue { queueOf s ctx queue with tail := tail }
  let s := { s with bells := s.bells.filter (· != qidx ctx queue) ++ [qidx ctx queue] }
  if ctx = 0 ∧ queue = 0 then { s with boot := { s.boot with locked := true } } else s

theorem doorbell_serves {s : State} {ctx queue : Nat} (h : Serves s ctx queue) (data : DWord) :
    let q := queueOf s ctx queue
    let tail : Word := data.extractLsb' 0 32
    doorbell s ctx queue data =
      if (tail - q.tail).toNat ≥ 2 ^ 31 then s
      else if (tail - q.head).toNat > 2 ^ (6 + (ringsOf s q).1) then notify s 5 queue ctx tail 0
      else bindQueue (rung s ctx queue tail) (qidx ctx queue) := by
  obtain ⟨hstate, henabled, hrings, hmarked⟩ := h
  have hst : ¬ ((ctxOf s ctx).state = .killing ∨ (ctxOf s ctx).state = .scrubbing ∨ (ctxOf s ctx).state = .free ∨
      (queueOf s ctx queue).qstate = .disabled) := by
    rintro (h | h | h | h)
    iterate 3 rcases hstate with k | k | k <;> rw [k] at h <;> cases h
    exact henabled h
  unfold doorbell
  dsimp only
  rw [ofNat_fld_low, if_neg hst, if_neg (ne_true_of_eq_false hmarked), if_neg fun hb => ne_true_of_eq_false hrings hb.1]
  rfl

theorem doorbell_rejects {s : State} {ctx queue : Nat} (h : (ctxOf s ctx).state = .free ∨ (ctxOf s ctx).state = .killing ∨
      (ctxOf s ctx).state = .scrubbing ∨ (queueOf s ctx queue).qstate = .disabled ∨ ringMarked s (queueOf s ctx queue) = true)
    (data : DWord) : doorbell s ctx queue data = notify s 5 queue ctx (data.extractLsb' 0 32) 0 := by
  unfold doorbell
  simp only [ofNat_fld_low]
  split
  · rfl
  · next hn =>
    have hm : ringMarked s (queueOf s ctx queue) = true := by tauto
    rw [if_pos hm]

theorem rung_frame (s : State) (ctx queue : Nat) (tail : Word) : ∃ queues boot, rung s ctx queue tail =
    { s with queues := queues, boot := boot, bells := s.bells.filter (· != qidx ctx queue) ++ [qidx ctx queue] } := by
  unfold rung
  dsimp only
  split <;> exact ⟨_, _, rfl⟩

theorem queueOf_rung (s : State) (ctx queue : Nat) (tail : Word) :
    queueOf (rung s ctx queue tail) ctx queue = { queueOf s ctx queue with tail := tail } := by
  have h := queueOf_setQueue_same s ctx queue { queueOf s ctx queue with tail := tail }
  unfold rung
  dsimp only
  split <;> exact h

/-! ### Resident slots (R66) -/

/-- Of more slots than are in use one is free. -/
theorem freeSlot_free {s : State} (h : (usedSlots s).length < 16384) :
    ∃ x, freeSlot s = some x ∧ x < 16384 ∧ x ∉ usedSlots s := by
  unfold freeSlot
  dsimp only
  rw [if_neg (by omega)]
  generalize (Config.freeWord s.freeCtr).toNat = start
  generalize hl : ((List.range ((usedSlots s).length + 1)).map fun i => (start + i) % 16384) = l
  have hlen : l.length = (usedSlots s).length + 1 := by rw [← hl]; simp
  have hnd : l.Nodup := by
    rw [← hl]
    refine List.nodup_range.map_on fun i hi j hj h => ?_
    rw [List.mem_range] at hi hj
    omega
  cases hf : l.find? fun x => !(usedSlots s).contains x with
  | none =>
    have hsub : l ⊆ usedSlots s := fun x hx => by simpa using List.find?_eq_none.1 hf x hx
    have := (List.subperm_of_subset hnd hsub).length_le
    omega
  | some x =>
    have hx : x ∈ l := List.mem_of_find?_eq_some hf
    rw [← hl] at hx
    obtain ⟨i, -, rfl⟩ := List.mem_map.1 hx
    exact ⟨_, rfl, Nat.mod_lt _ (by decide), by simpa using List.find?_some hf⟩

/-- A queue that was not bound is, and keeps all but its slot. -/
theorem tryBind_binds {s t : State} {qi : Nat} (h : tryBind s qi = some t) (hb : (queueOf s (qi / 16) (qi % 16)).bound = false) :
    let r := queueOf t (qi / 16) (qi % 16)
    r.bound = true ∧ r = { queueOf s (qi / 16) (qi % 16) with bound := r.bound, slot := r.slot } := by
  unfold tryBind at h
  split at h
  · cases h
    dsimp only
    rw [queueOf_updQueue_same]
    exact ⟨rfl, rfl⟩
  · split at h
    · next v hv =>
      cases h
      have he := List.find?_some hv
      have hne : qidx (qi / 16) (qi % 16) ≠ qidx (v / 16) (v % 16) := fun hq => by
        rw [qidx_split, qidx_split] at hq
        subst hq
        simp [evictable, hb] at he
      dsimp only
      rw [queueOf_updQueue_same, updQueue, queueOf_setQueue_other _ _ _ _ hne]
      exact ⟨rfl, rfl⟩
    · cases h

theorem bindQueue_frame (s : State) (qi : Nat) : ∃ queues free waiting,
    bindQueue s qi = { s with queues := queues, freeCtr := free, waiting := waiting } := by
  unfold bindQueue
  dsimp only
  split
  · exact ⟨s.queues, s.freeCtr, s.waiting, rfl⟩
  · split
    · next ht =>
      obtain ⟨q, f, rfl⟩ := tryBind_frame ht
      exact ⟨q, f, _, rfl⟩
    · split
      · exact ⟨s.queues, s.freeCtr, s.waiting, rfl⟩
      · exact ⟨s.queues, s.freeCtr, _, rfl⟩

/-- The queue keeps all but its slot; an enabled one is bound or waits for a slot. -/
theorem bindQueue_binds (s : State) (qi : Nat) :
    let t := bindQueue s qi
    let q := queueOf s (qi / 16) (qi % 16)
    let r := queueOf t (qi / 16) (qi % 16)
    r = { q with bound := r.bound, slot := r.slot } ∧ (q.qstate = .enabled → r.bound = true ∨ qi ∈ t.waiting) ∧
      (q.bound = true → r.bound = true) := by
  unfold bindQueue
  dsimp only
  by_cases hk : (queueOf s (qi / 16) (qi % 16)).bound = true ∨ (queueOf s (qi / 16) (qi % 16)).qstate ≠ .enabled
  · rw [if_pos hk]
    exact ⟨rfl, fun he => .inl (hk.resolve_right fun h => h he), fun h => h⟩
  · rw [if_neg hk]
    have hb : (queueOf s (qi / 16) (qi % 16)).bound = false := by simpa using fun h => hk (.inl h)
    split
    · next t ht =>
      obtain ⟨hbound, hr⟩ := tryBind_binds ht hb
      exact ⟨hr, fun _ => .inl hbound, fun _ => hbound⟩
    · split
      · next hw => exact ⟨rfl, fun _ => .inr (by simpa using hw), fun h => h⟩
      · exact ⟨rfl, fun _ => .inr (List.mem_append_right _ List.mem_cons_self), fun h => h⟩

/-- What a doorbell that moves TAIL leaves (R66, R67, R69). -/
theorem doorbell_rings {s : State} {ctx queue : Nat} (hq : queue < 16) (tail : Word) :
    let t := bindQueue (rung s ctx queue tail) (qidx ctx queue)
    let q := queueOf s ctx queue
    let r := queueOf t ctx queue
    (t.mem = s.mem ∧ t.cmds = s.cmds ∧ t.ctxs = s.ctxs ∧ t.bells = s.bells.filter (· != qidx ctx queue) ++ [qidx ctx queue]) ∧
    r = { q with tail := tail, bound := r.bound, slot := r.slot } ∧
    (q.qstate = .enabled → r.bound = true ∨ qidx ctx queue ∈ t.waiting) ∧ (q.bound = true → r.bound = true) := by
  have hb := bindQueue_binds (rung s ctx queue tail) (qidx ctx queue)
  rw [(qidx_ctx hq).1, (qidx_ctx hq).2, queueOf_rung] at hb
  obtain ⟨queues, free, waiting, hf⟩ := bindQueue_frame (rung s ctx queue tail) (qidx ctx queue)
  obtain ⟨queues', boot, hr⟩ := rung_frame s ctx queue tail
  refine ⟨?_, hb⟩
  rw [hf, hr]
  exact ⟨rfl, rfl, rfl, rfl⟩

theorem exec_queueBindFromWait {s : State} (h : s.run = .up) : exec .queueBindFromWait s = .next (bindFromWait s) := by
  rw [show exec _ s = execQueueBindFromWait s from rfl, execQueueBindFromWait, whenUp_up _ h]

theorem bindFromWait_bound {s : State} {qi : Nat} {r : List Nat} (h : s.waiting = qi :: r)
    (hb : (queueOf s (qi / 16) (qi % 16)).bound = true) : bindFromWait s = { s with waiting := r } := by
  simp [bindFromWait, h, hb]

/-- Where a slot is free the head of the waiting list takes it (R66). -/
theorem bindFromWait_takes {s : State} {qi : Nat} {r : List Nat} (h : s.waiting = qi :: r)
    (hb : (queueOf s (qi / 16) (qi % 16)).bound = false) (hu : (usedSlots s).length < 16384) :
    ∃ slot, slot < 16384 ∧ slot ∉ usedSlots s ∧ bindFromWait s =
      updQueue { s with waiting := r, freeCtr := s.freeCtr + 1 } (qi / 16) (qi % 16) fun q =>
        { q with bound := true, slot := BitVec.ofNat 14 slot } := by
  obtain ⟨slot, hs, hlt, hnot⟩ := freeSlot_free hu
  have hs : freeSlot { s with waiting := r } = some slot := hs
  refine ⟨slot, hlt, hnot, ?_⟩
  simp only [bindFromWait, h, hb, Bool.false_eq_true, if_false, tryBind, hs]
  rfl

end Sys2Proof.Machine
end

section
/-! Packets (R8, R71 to R76, R85): the fields of a packet, the references of a command, the fault of a packet, and what the parsing
of a ring packet leaves. -/

set_option Elab.async false

namespace Sys2Proof.Machine

/-! ### Fields of a packet (R8, R71) -/

/-- Word n of the packet at addr. -/
def packetWord (s : State) (addr n : Nat) : DWord := BitVec.ofNat 64 (leNat (cohBytes s (addr + 8 * n) 8))

theorem ofBytes_coh (s : State) (addr : Nat) : RawPacket.ofBytes (cohBytes s addr 64) =
    { hdr := packetWord s addr 0, fences := packetWord s addr 1, wval := packetWord s addr 2, sval := packetWord s addr 3
      w0 := packetWord s addr 4, w1 := packetWord s addr 5, w2 := packetWord s addr 6, w3 := packetWord s addr 7 } := by
  have h {n : Nat} (hn : n < 8) : BitVec.ofNat 64 (leNat (sliceList 0 (cohBytes s addr 64) (8 * n) 8)) = packetWord s addr n := by
    rw [cohBytes, sliceList_map_range _ _ (by omega), packetWord, cohBytes]
    simp only [Nat.add_assoc]
  unfold RawPacket.ofBytes
  simp only [h (show 0 < 8 by omega), h (show 1 < 8 by omega), h (show 2 < 8 by omega), h (show 3 < 8 by omega),
    h (show 4 < 8 by omega), h (show 5 < 8 by omega), h (show 6 < 8 by omega), h (show 7 < 8 by omega)]

/-- The top byte of eight is the last (R8). -/
theorem topByte_word (s : State) (addr : Nat) : BitVec.ofNat 8 (fld (packetWord s addr 0) 63 56) = cohByte s (addr + 7) := by
  have h : leNat (cohBytes s addr 8) / 2 ^ 56 = (cohByte s (addr + 7)).toNat ∧ leNat (cohBytes s addr 8) < 2 ^ 64 := by
    have h0 := (cohByte s addr).isLt
    have h1 := (cohByte s (addr + 1)).isLt
    have h2 := (cohByte s (addr + 2)).isLt
    have h3 := (cohByte s (addr + 3)).isLt
    have h4 := (cohByte s (addr + 4)).isLt
    have h5 := (cohByte s (addr + 5)).isLt
    have h6 := (cohByte s (addr + 6)).isLt
    have h7 := (cohByte s (addr + 7)).isLt
    simp only [cohBytes, List.range, List.range.loop, List.map, leNat, Nat.add_zero]
    omega
  apply BitVec.eq_of_toNat_eq
  rw [BitVec.toNat_ofNat, fld, field, packetWord, Nat.mul_zero, Nat.add_zero, BitVec.toNat_ofNat, Nat.mod_eq_of_lt h.2,
    Nat.shiftRight_eq_div_pow, h.1]
  have := (cohByte s (addr + 7)).isLt
  omega

/-- The fields of the command that a packet at addr stands for. -/
structure Spells (s : State) (c : CmdRef) (addr : Nat) (k : Cmd) : Prop where
  ref : k.ref = c
  order : k.order = s.cmdCtr
  place : k.pktAddr = BitVec.ofNat 64 addr
  opcode : k.opcode = cohByte s (addr + 7)
  w0 : k.w0 = packetWord s addr 4
  w1 : k.w1 = packetWord s addr 5
  w2 : k.w2 = packetWord s addr 6
  w3 : k.w3 = packetWord s addr 7
  wval : k.wval = packetWord s addr 2
  sval : k.sval = packetWord s addr 3
  tag : k.tag = (packetWord s addr 0).extractLsb' 0 32
  notify : k.notify = (packetWord s addr 0).getLsbD 55
  serial : k.serial = (packetWord s addr 0).getLsbD 54
  ignerr : k.ignerr = (packetWord s addr 0).getLsbD 53

theorem newCmd_spells (s : State) (c : CmdRef) (addr : Nat) :
    Spells s c addr (newCmd s c addr (RawPacket.ofBytes (cohBytes s addr 64))) := by
  rw [ofBytes_coh]
  exact ⟨rfl, rfl, rfl, topByte_word s addr, rfl, rfl, rfl, rfl, rfl, rfl, ofNat_fld_low _, rfl, rfl, rfl⟩

/-- The fate of a command leaves what its packet spells. -/
theorem Spells.of_same {s : State} {c : CmdRef} {addr : Nat} {k j : Cmd} (h : Spells s c addr k)
    (hj : j = { k with
      wfence := j.wfence, sfence := j.sfence, refs := j.refs, waits := j.waits, phase := j.phase, status := j.status, code := j.code }) :
    Spells s c addr j := by
  rw [hj]
  exact ⟨h.ref, h.order, h.place, h.opcode, h.w0, h.w1, h.w2, h.w3, h.wval, h.sval, h.tag, h.notify, h.serial, h.ignerr⟩

/-! ### References (R43) -/

/-- One more of the objects of a list, each once, is in flight. -/
theorem addRefs_adds (s : State) (l : List Nat) (hd : l.Nodup) :
    (addRefs s l).queues = s.queues ∧ (addRefs s l).ctxs = s.ctxs ∧ (addRefs s l).mem = s.mem ∧
    ∀ i, (objOf (addRefs s l) i).inflight = (objOf s i).inflight + if i ∈ l then 1 else 0 := by
  induction l generalizing s with
  | nil => exact ⟨rfl, rfl, rfl, fun i => by simp [addRefs]⟩
  | cons a r ih =>
    rw [List.nodup_cons] at hd
    obtain ⟨hqueues, hctxs, hmem, hi⟩ := ih (updObj s a fun o => { o with inflight := o.inflight + 1 }) hd.2
    refine ⟨hqueues, hctxs, hmem, fun i => (hi i).trans ?_⟩
    by_cases h : i = a
    · subst h
      simp [hd.1]
    · rw [objOf_updObj_other _ _ _ h]
      simp [h]

theorem nodup_distinct (hs l : List Nat) (h : l.Nodup) :
    (hs.foldl (fun l i => if l.contains i then l else l ++ [i]) l).Nodup := by
  induction hs generalizing l with
  | nil => exact h
  | cons a r ih =>
    refine ih _ ?_
    dsimp only
    split
    · exact h
    · next hc => exact List.nodup_append.2 ⟨h, List.nodup_singleton _, by
        rintro x hx y hy rfl
        rw [List.mem_singleton.1 hy] at hx
        exact hc (List.contains_iff_mem.2 hx)⟩

theorem packetRefs_nodup (s : State) (ctx : Nat) (q : Queue) (p : RawPacket) : (packetRefs s ctx q p).Nodup :=
  nodup_distinct _ _ List.nodup_nil

/-! ### Fault records (R56, R57) -/

/-- The tables of commands, queues and contexts stand. -/
structure TablesKept (s t : State) : Prop where
  cmds : t.cmds = s.cmds
  order : t.cmdCtr = s.cmdCtr
  queues : t.queues = s.queues
  ctxs : t.ctxs = s.ctxs

theorem TablesKept.refl (s : State) : TablesKept s s := ⟨rfl, rfl, rfl, rfl⟩

theorem TablesKept.trans {s t u : State} (h : TablesKept s t) (k : TablesKept t u) : TablesKept s u :=
  ⟨k.cmds.trans h.cmds, k.order.trans h.order, k.queues.trans h.queues, k.ctxs.trans h.ctxs⟩

theorem TablesKept.of_memoryOnly {s t : State} (h : MemoryOnly s t) : TablesKept s t := by
  rw [show t = _ from h]; exact ⟨rfl, rfl, rfl, rfl⟩

theorem TablesKept.notify (s : State) (type queue ctx : Nat) (seq : Word) (code : Nat) : TablesKept s (notify s type queue ctx seq code) := by
  obtain ⟨m, v, b, h⟩ := notify_frame s type queue ctx seq code
  rw [h]; exact ⟨rfl, rfl, rfl, rfl⟩

theorem TablesKept.cohWrite (s : State) (pa : Nat) (bs : List Byte) (poison alloc : Bool) (part : Nat) :
    TablesKept s (cohWrite s pa bs poison alloc part) := by
  by_cases h : regionOf pa = .sovel
  · obtain ⟨m, v, hw⟩ := companionWrite_frame s pa bs
    rw [show Machine.cohWrite s pa bs poison alloc part = companionWrite s pa bs by rw [Machine.cohWrite, h], hw]
    exact ⟨rfl, rfl, rfl, rfl⟩
  · exact .of_memoryOnly (.cohWrite s pa bs poison alloc part h)

theorem TablesKept.physWrite (s : State) (pa : Nat) (bs : List Byte) (part : Nat) : TablesKept s (physWrite s pa bs part) := by
  unfold Machine.physWrite
  induction pieces pa bs.length generalizing s with
  | nil => exact .refl s
  | cons p r ih => exact (TablesKept.cohWrite ..).trans (ih _)

/-- A fault record takes the next FSEQ of its context, whose state stands (R57). -/
structure Recorded (s t : State) (ctx : Nat) : Prop where
  cmds : t.cmds = s.cmds
  order : t.cmdCtr = s.cmdCtr
  queues : t.queues = s.queues
  fseq : (ctxOf t ctx).fseq = (ctxOf s ctx).fseq + 1
  state : (ctxOf t ctx).state = (ctxOf s ctx).state

/-- The record is written between what keeps the tables. -/
theorem Recorded.of_updCtx {s t u : State} {ctx : Nat} {f : Ctx → Ctx} (h : TablesKept s t) (k : TablesKept (updCtx t ctx f) u)
    (hf : ∀ d, (f d).fseq = d.fseq + 1 ∧ (f d).state = d.state) : Recorded s u ctx where
  cmds := k.cmds.trans h.cmds
  order := k.order.trans h.order
  queues := k.queues.trans h.queues
  fseq := by rw [ctxOf_congr k.ctxs, ctxOf_updCtx_same, (hf _).1, ctxOf_congr h.ctxs]
  state := by rw [ctxOf_congr k.ctxs, ctxOf_updCtx_same, (hf _).2, ctxOf_congr h.ctxs]

theorem writeFaultRecord_recorded (s : State) (ctx : Nat) (cls : FClass) (f : FaultInfo) :
    Recorded s (writeFaultRecord s ctx cls f) ctx := by
  unfold writeFaultRecord
  dsimp only
  generalize (if (ctxOf s ctx).frset then 2 ^ (6 + (ctxOf s ctx).frsize.toNat) else 0) = size
  split
  · refine .of_updCtx (f := fun d => { d with frprod := d.frprod + 1, fseq := d.fseq + 1 }) ?_ (.notify ..) fun _ => ⟨rfl, rfl⟩
    split
    · exact .physWrite ..
    · exact .refl s
  · exact .of_updCtx (f := fun d => { d with frlost := d.frlost + 1, fseq := d.fseq + 1 }) (.refl s) (.notify ..) fun _ => ⟨rfl, rfl⟩

/-- A class C fault is recorded, and its context goes on (R56). -/
theorem raiseFault_c_recorded (s : State) (ctx : Nat) (f : FaultInfo) : Recorded s (raiseFault s ctx .c f) ctx := by
  have hb := TablesKept.of_memoryOnly (.bump s 5 ctx 7 1)
  have hr := writeFaultRecord_recorded (bump s 5 ctx 7 1) ctx .c f
  exact ⟨hr.cmds.trans hb.cmds, hr.order.trans hb.order, hr.queues.trans hb.queues,
    hr.fseq.trans (by rw [ctxOf_congr hb.ctxs]), hr.state.trans (by rw [ctxOf_congr hb.ctxs])⟩

/-! ### Parsing of a ring packet (R71, R72, R76, R79, R85) -/

/-- The packet at HEAD of a queue's ring, and the command that it stands for. -/
def ringAddr (s : State) (q : Queue) : Nat := (ringsOf s q).2.1 + q.head.toNat % 2 ^ (6 + (ringsOf s q).1) * 64

def ringRef (ctx queue : Nat) (q : Queue) : CmdRef := { ctx := ctx, queue := queue, index := q.head.toNat, lpos := 0 }

def ringPacket (s : State) (q : Queue) : RawPacket := RawPacket.ofBytes (cohBytes s (ringAddr s q) 64)

/-- The packet is parsed, and HEAD goes past it. -/
def pastPacket (s : State) (c : CmdRef) (addr : Nat) (p : RawPacket) : State :=
  updQueue (parsePacket s c addr p) c.ctx c.queue fun q => { q with head := q.head + 1 }

theorem exec_packetParse {s : State} (h : s.run = .up) (ctx queue : Nat) : exec (.packetParse ctx queue) s = .next (parseNext s ctx queue) := by
  rw [show exec _ s = execPacketParse ctx queue s from rfl, execPacketParse, whenUp_up _ h]

theorem parseNext_ring {s : State} {ctx queue : Nat} (h : mayParse s ctx queue = true) (hl : (queueOf s ctx queue).lists = none) :
    parseNext s ctx queue = parseRing s ctx queue := by
  rw [parseNext, if_pos h, hl]

theorem parseRing_empty {s : State} {ctx queue : Nat} (h : (queueOf s ctx queue).head = (queueOf s ctx queue).tail) :
    parseRing s ctx queue = s := by
  unfold parseRing
  dsimp only
  rw [if_pos h]

section
variable {s : State} {ctx queue : Nat} (hne : (queueOf s ctx queue).head ≠ (queueOf s ctx queue).tail)
include hne

theorem parseRing_eq : parseRing s ctx queue =
    let q := queueOf s ctx queue
    let c := ringRef ctx queue q
    if cohPoison s (ringAddr s q) then poisonedPacket s c (ringAddr s q)
    else if refsFull s c (ringPacket s q) then s
    else pastPacket s c (ringAddr s q) (ringPacket s q) := by
  unfold parseRing
  dsimp only
  rw [if_neg hne]
  rfl

theorem parseRing_poisoned (hp : cohPoison s (ringAddr s (queueOf s ctx queue)) = true) :
    parseRing s ctx queue = poisonedPacket s (ringRef ctx queue (queueOf s ctx queue)) (ringAddr s (queueOf s ctx queue)) := by
  rw [parseRing_eq hne]
  dsimp only
  rw [if_pos hp]

theorem parseRing_full (hp : cohPoison s (ringAddr s (queueOf s ctx queue)) = false)
    (hf : refsFull s (ringRef ctx queue (queueOf s ctx queue)) (ringPacket s (queueOf s ctx queue)) = true) :
    parseRing s ctx queue = s := by
  rw [parseRing_eq hne]
  dsimp only
  rw [if_neg (ne_true_of_eq_false hp), if_pos hf]

theorem parseRing_packet (hp : cohPoison s (ringAddr s (queueOf s ctx queue)) = false)
    (hf : refsFull s (ringRef ctx queue (queueOf s ctx queue)) (ringPacket s (queueOf s ctx queue)) = false) :
    parseRing s ctx queue = pastPacket s (ringRef ctx queue (queueOf s ctx queue)) (ringAddr s (queueOf s ctx queue))
      (ringPacket s (queueOf s ctx queue)) := by
  rw [parseRing_eq hne]
  dsimp only
  rw [if_neg (ne_true_of_eq_false hp), if_neg (ne_true_of_eq_false hf)]

end

@[simp] theorem enterCmd_ctxs (s : State) (k : Cmd) : (enterCmd s k).ctxs = s.ctxs := rfl
@[simp] theorem enterCmd_objs (s : State) (k : Cmd) : (enterCmd s k).objs = s.objs := rfl
@[simp] theorem enterCmd_mem (s : State) (k : Cmd) : (enterCmd s k).mem = s.mem := rfl

@[simp] theorem ctxOf_updQueue (s : State) (c q : Nat) (f : Queue → Queue) (k : Nat) : ctxOf (updQueue s c q f) k = ctxOf s k :=
  ctxOf_congr (updQueue_ctxs ..) k

@[simp] theorem objOf_updQueue (s : State) (c q : Nat) (f : Queue → Queue) (i : Nat) : objOf (updQueue s c q f) i = objOf s i :=
  objOf_congr (updQueue_objs ..) i

@[simp] theorem ctxOf_enterCmd (s : State) (k : Cmd) (c : Nat) : ctxOf (enterCmd s k) c = ctxOf s c := ctxOf_congr (enterCmd_ctxs ..) c

@[simp] theorem objOf_enterCmd (s : State) (k : Cmd) (i : Nat) : objOf (enterCmd s k) i = objOf s i := objOf_congr (enterCmd_objs ..) i

/-- A command has entered its queue, and HEAD has gone past its packet. -/
structure Entered (s t : State) (k : Cmd) : Prop where
  cmd : k ∈ t.cmds
  head : (queueOf t k.ref.ctx k.ref.queue).head = (queueOf s k.ref.ctx k.ref.queue).head + 1
  outst : (queueOf t k.ref.ctx k.ref.queue).outst = (queueOf s k.ref.ctx k.ref.queue).outst + 1

theorem entered_enterCmd {s u : State} {k : Cmd} {c : CmdRef} (hk : k.ref = c) (h : u.queues = s.queues) :
    Entered s (updQueue (enterCmd u k) c.ctx c.queue fun q => { q with head := q.head + 1 }) k := by
  subst hk
  have hq : queueOf { u with cmds := u.cmds ++ [k], cmdCtr := u.cmdCtr + 1 } k.ref.ctx k.ref.queue = queueOf s k.ref.ctx k.ref.queue := by
    show NMap.getD u.queues _ _ = _
    rw [h]; rfl
  refine ⟨List.mem_append_right _ List.mem_cons_self, ?_, ?_⟩ <;>
    rw [queueOf_updQueue_same, enterCmd, queueOf_updQueue_same, hq]

/-- As the lists of its queue change, the command has entered it. -/
theorem Entered.updLists {s u : State} {k : Cmd} {c : CmdRef} (hk : k.ref = c) (l : Option ListParse)
    (h : Entered s (updQueue u c.ctx c.queue fun q => { q with head := q.head + 1 }) k) :
    Entered s (updQueue (updQueue u c.ctx c.queue fun q => { q with lists := l }) c.ctx c.queue fun q => { q with head := q.head + 1 }) k := by
  subst hk
  obtain ⟨hcmd, hhead, houtst⟩ := h
  rw [queueOf_updQueue_same] at hhead houtst
  refine ⟨hcmd, ?_, ?_⟩
  · rw [queueOf_updQueue_same, queueOf_updQueue_same]; exact hhead
  · rw [queueOf_updQueue_same, queueOf_updQueue_same]; exact houtst

theorem Entered.spelled {s t : State} {k : Cmd} {c : CmdRef} {addr : Nat} (h : Entered s t k) (hs : Spells s c addr k) :
    k ∈ t.cmds ∧ k.ref = c ∧ k.order = s.cmdCtr ∧ k.pktAddr = BitVec.ofNat 64 addr ∧
      k.opcode = cohByte s (addr + 7) ∧ k.w0 = packetWord s addr 4 ∧ k.w1 = packetWord s addr 5 ∧ k.w2 = packetWord s addr 6 ∧
      k.w3 = packetWord s addr 7 ∧ k.wval = packetWord s addr 2 ∧ k.sval = packetWord s addr 3 ∧
      k.tag = (packetWord s addr 0).extractLsb' 0 32 ∧ k.notify = (packetWord s addr 0).getLsbD 55 ∧
      k.serial = (packetWord s addr 0).getLsbD 54 ∧ k.ignerr = (packetWord s addr 0).getLsbD 53 ∧
      (queueOf t c.ctx c.queue).head = (queueOf s c.ctx c.queue).head + 1 ∧
      (queueOf t c.ctx c.queue).outst = (queueOf s c.ctx c.queue).outst + 1 := by
  obtain ⟨hcmd, hhead, houtst⟩ := h
  rw [hs.ref] at hhead houtst
  exact ⟨hcmd, hs.ref, hs.order, hs.place, hs.opcode, hs.w0, hs.w1, hs.w2, hs.w3, hs.wval, hs.sval, hs.tag, hs.notify, hs.serial,
    hs.ignerr, hhead, houtst⟩

/-- Where an abort has won a packet, its command retires ABORTED (R85). -/
theorem parsePacket_doomed {s : State} {c : CmdRef} (h : c ∈ s.doomed) (addr : Nat) (p : RawPacket) :
    parsePacket s c addr p = enterCmd { s with doomed := s.doomed.filter (· != c) }
      { newCmd s c addr p with
        wfence := 0, sfence := usableSfence s c.ctx p, phase := .done, status := 1, code := BitVec.ofNat 8 opAborted } := by
  unfold parsePacket
  dsimp only
  rw [if_pos (List.contains_iff_mem.2 h)]
  rfl

/-- The command of a packet that has failed a check. -/
def failedCmd (s : State) (c : CmdRef) (addr : Nat) (p : RawPacket) (code : Nat) : Cmd :=
  { newCmd s c addr p with
    wfence := 0, sfence := usableSfence s c.ctx p, phase := .done, status := 2, code := BitVec.ofNat 8 code }

theorem parsePacket_fails {s : State} {c : CmdRef} (h : c ∉ s.doomed) (addr : Nat) {p : RawPacket} {code : Nat} {operand detail : DWord}
    (hf : packetFault s c.ctx (queueOf s c.ctx c.queue) p (c.lpos != 0) = some (code, operand, detail)) :
    parsePacket s c addr p =
      let f := unitFault s 0 (failedCmd s c addr p code) code operand detail
      enterCmd (raiseFault f.2 c.ctx .c f.1) (failedCmd s c addr p code) := by
  unfold parsePacket
  dsimp only
  rw [if_neg (fun hc => h (List.contains_iff_mem.1 hc)), hf]
  rfl

/-- The command of a packet without a wait fence that has passed its checks. -/
def passedCmd (s : State) (c : CmdRef) (addr : Nat) (p : RawPacket) : Cmd :=
  { newCmd s c addr p with refs := packetRefs s c.ctx (queueOf s c.ctx c.queue) p, waits := none }

theorem parsePacket_passes {s : State} {c : CmdRef} (h : c ∉ s.doomed) (addr : Nat) {p : RawPacket}
    (hf : packetFault s c.ctx (queueOf s c.ctx c.queue) p (c.lpos != 0) = none) (hw : p.wfence = 0) :
    let u := enterCmd (addRefs s (packetRefs s c.ctx (queueOf s c.ctx c.queue) p)) (passedCmd s c addr p)
    parsePacket s c addr p = u ∨ ∃ l, parsePacket s c addr p = updQueue u c.ctx c.queue fun q => { q with lists := l } := by
  unfold parsePacket
  dsimp only
  rw [if_neg (fun hc => h (List.contains_iff_mem.1 hc)), hf]
  simp only [if_pos hw]
  split
  · exact .inr ⟨_, rfl⟩
  · exact .inl rfl

/-! ### The statement -/

theorem poisonedPacket_ring (s : State) (ctx queue addr : Nat) (q : Queue) : ∃ die : BitVec 1,
    poisonedPacket s (ringRef ctx queue q) addr = raiseFault { s with freeCtr := s.freeCtr + 1 } ctx .f
      { code := 0x40, queue := queue, operand := 0, die := die, unit := 0, tile := 0, group := 0, loc := BitVec.ofNat 64 addr
        mask := 0, detail := 0x03 } := ⟨_, rfl⟩

theorem refsFull_fault {s : State} {c : CmdRef} {p : RawPacket} {e : Nat × DWord × DWord}
    (h : packetFault s c.ctx (queueOf s c.ctx c.queue) p (c.lpos != 0) = some e) : refsFull s c p = false := by
  simp [refsFull, h]

section
variable {s : State} {c : CmdRef} {addr : Nat} {p : RawPacket} (hs : Spells s c addr (newCmd s c addr p))
include hs

theorem pastPacket_doomed (hd : c ∈ s.doomed) : ∃ k, Entered s (pastPacket s c addr p) k ∧ Spells s c addr k ∧
    k.phase = .done ∧ k.status = 1 ∧ k.code = BitVec.ofNat 8 opAborted ∧
    (pastPacket s c addr p).doomed = s.doomed.filter (· != c) := by
  unfold pastPacket
  rw [parsePacket_doomed hd]
  exact ⟨_, entered_enterCmd (c := c) rfl rfl, hs.of_same rfl, rfl, rfl, rfl, rfl⟩

theorem pastPacket_fails (hd : c ∉ s.doomed) {code : Nat} {operand detail : DWord}
    (hf : packetFault s c.ctx (queueOf s c.ctx c.queue) p (c.lpos != 0) = some (code, operand, detail)) :
    ∃ k, Entered s (pastPacket s c addr p) k ∧ Spells s c addr k ∧
      k.phase = .done ∧ k.status = 2 ∧ k.code = BitVec.ofNat 8 code ∧ k.refs = [] ∧
      (ctxOf (pastPacket s c addr p) c.ctx).fseq = (ctxOf s c.ctx).fseq + 1 ∧
      (ctxOf (pastPacket s c addr p) c.ctx).state = (ctxOf s c.ctx).state := by
  unfold pastPacket
  rw [parsePacket_fails hd _ hf]
  dsimp only
  have hr := raiseFault_c_recorded (unitFault s 0 (failedCmd s c addr p code) code operand detail).2 c.ctx
    (unitFault s 0 (failedCmd s c addr p code) code operand detail).1
  rw [ctxOf_updQueue, ctxOf_enterCmd]
  exact ⟨_, entered_enterCmd (c := c) rfl hr.queues, hs.of_same rfl, rfl, rfl, rfl, rfl, hr.fseq, hr.state⟩

theorem pastPacket_passes (hd : c ∉ s.doomed)
    (hf : packetFault s c.ctx (queueOf s c.ctx c.queue) p (c.lpos != 0) = none) (hw : p.wfence = 0) :
    ∃ k, Entered s (pastPacket s c addr p) k ∧ Spells s c addr k ∧
      k.phase = .waiting ∧ k.waits = none ∧ k.refs = packetRefs s c.ctx (queueOf s c.ctx c.queue) p ∧
      (∀ i, (objOf (pastPacket s c addr p) i).inflight = (objOf s i).inflight + if i ∈ k.refs then 1 else 0) ∧
      (pastPacket s c addr p).ctxs = s.ctxs ∧ (pastPacket s c addr p).mem = s.mem := by
  obtain ⟨hqueues, hctxs, hmem, hin⟩ := addRefs_adds s _ (packetRefs_nodup s c.ctx (queueOf s c.ctx c.queue) p)
  have hparse := parsePacket_passes hd addr hf hw
  generalize addRefs s (packetRefs s c.ctx (queueOf s c.ctx c.queue) p) = u at *
  have hent := entered_enterCmd (k := passedCmd s c addr p) (c := c) rfl hqueues
  refine ⟨passedCmd s c addr p, ?_, hs.of_same rfl, rfl, rfl, rfl, ?_⟩
  all_goals
    unfold pastPacket
    rcases hparse with h | ⟨l, h⟩ <;> rw [h]
  · exact hent
  · exact hent.updLists (c := c) rfl l
  · simp only [objOf_updQueue, objOf_enterCmd, updQueue_ctxs, enterCmd_ctxs, updQueue_mem, enterCmd_mem]
    exact ⟨hin, hctxs, hmem⟩
  · simp only [objOf_updQueue, objOf_enterCmd, updQueue_ctxs, enterCmd_ctxs, updQueue_mem, enterCmd_mem]
    exact ⟨hin, hctxs, hmem⟩

end

/-- Settles O29: a doorbell changes its queue and the slots alone; the packet at HEAD enters as the fate that its first failing check, its
abort or its references give it. -/
theorem frontEnd : Obligations.FrontEnd := by
  refine ⟨fun s ctx queue data stores up link hc hq => ?_, fun s up => ⟨fun hw => ?_, fun qi r hw => ⟨fun hb => ?_, fun hb hu => ?_⟩⟩,
    fun s ctx queue up hc hq => ⟨fun he hl => ?_, fun hm => ?_, fun hm hl hne => ?_⟩⟩
  · rw [exec_doorbellWrite up link hc hq]
    refine ⟨?_, ?_, ?_, fun hr => congrArg _ (doorbell_rejects (s := companionStores s stores) hr data)⟩
    · intro hs ⟨hnew, hroom⟩
      obtain ⟨⟨hmem, hcmds, hctxs, hbells⟩, hr⟩ := doorbell_rings (s := companionStores s stores) (ctx := ctx) hq (data.extractLsb' 0 32)
      exact ⟨_, congrArg _ ((doorbell_serves (s := companionStores s stores) hs data).trans
        ((if_neg (Nat.not_le.2 hnew)).trans (if_neg (Nat.not_lt.2 hroom)))), hmem, hcmds, hctxs, hbells, hr⟩
    · intro hs hold
      exact congrArg _ ((doorbell_serves (s := companionStores s stores) hs data).trans (if_pos hold))
    · intro hs hnew hfar
      exact congrArg _ ((doorbell_serves (s := companionStores s stores) hs data).trans ((if_neg (Nat.not_le.2 hnew)).trans (if_pos hfar)))
  · rw [exec_queueBindFromWait up, bindFromWait, hw]
  · rw [exec_queueBindFromWait up, bindFromWait_bound hw hb]
  · obtain ⟨slot, hlt, hnot, ht⟩ := bindFromWait_takes hw hb hu
    refine ⟨_, (exec_queueBindFromWait up).trans (congrArg _ ht), rfl, ?_, ?_, fun k hk => ?_, rfl⟩
    · dsimp only
      rw [queueOf_updQueue_same]; rfl
    · rw [queueOf_updQueue_same]
      rwa [BitVec.toNat_ofNat, Nat.mod_eq_of_lt hlt]
    · exact NMap.getD_put_other _ _ _ _ (by rwa [qidx_split])
  · rw [exec_packetParse up]
    by_cases hm : mayParse s ctx queue = true
    · rw [parseNext_ring hm hl, parseRing_empty he]
    · rw [parseNext, if_neg hm]
  · rw [exec_packetParse up, parseNext, if_neg (ne_true_of_eq_false hm)]
  · rw [exec_packetParse up, parseNext_ring hm hl]
    refine ⟨fun hp => ?_, fun hp hd hf => ?_, fun hp hd code operand detail hf => ?_, fun hp hd hpf hf hw => ?_, fun hp hf => ?_⟩
    · rw [parseRing_poisoned hne hp]
      obtain ⟨die, hdie⟩ := poisonedPacket_ring s ctx queue (ringAddr s (queueOf s ctx queue)) (queueOf s ctx queue)
      exact ⟨die, congrArg _ hdie⟩
    · obtain ⟨k, hent, hsp, hk⟩ := pastPacket_doomed (newCmd_spells s _ _) hd
      exact ⟨_, k, congrArg _ (parseRing_packet hne hp hf), hent.spelled hsp, hk⟩
    · obtain ⟨k, hent, hsp, hk⟩ := pastPacket_fails (newCmd_spells s _ _) hd hf
      exact ⟨_, k, congrArg _ (parseRing_packet hne hp (refsFull_fault hf)), hent.spelled hsp, hk⟩
    · obtain ⟨k, hent, hsp, hphase, hwaits, hrefs, hin, hctxs, hmem⟩ := pastPacket_passes (newCmd_spells s _ _) hd hpf hw
      exact ⟨_, k, congrArg _ (parseRing_packet hne hp hf), hent.spelled hsp, hphase, hwaits, hrefs, hin, hctxs, hmem⟩
    · rw [parseRing_full hne hp hf]

end Sys2Proof.Machine
end

section
/-! Sums of powers of two as sets of bits, and the integer functions of R106 on bit vectors. -/

set_option Elab.async false

namespace Sys2Proof.Machine

/-! ### Sums of powers of two -/

/-- The bits of a sum of distinct powers of two are its exponents. -/
theorem testBit_sum_two_pow {l : List Nat} (h : l.Nodup) (j : Nat) : ((l.map fun i => 2 ^ i).sum).testBit j = decide (j ∈ l) := by
  have hp := l.mergeSort_perm (· ≤ ·)
  have hs : (l.mergeSort (· ≤ ·)).SortedLT :=
    (List.Pairwise.and (List.pairwise_mergeSort' (· ≤ ·) l) (hp.nodup_iff.2 h)).imp (fun ⟨a, b⟩ => lt_of_le_of_ne a b) |>.sortedLT
  rw [← (hp.map _).sum_eq, Bool.eq_iff_iff, ← Nat.mem_bitIndices, Nat.bitIndices_sum_map_two_pow hs, hp.mem_iff, decide_eq_true_iff]

theorem sum_ite_two_pow (l : List Nat) (p : Nat → Bool) (e : Nat → Nat) :
    (l.map fun i => if p i then 2 ^ e i else 0).sum = (((l.filter p).map e).map fun i => 2 ^ i).sum := by
  induction l with
  | nil => rfl
  | cons i r ih => by_cases h : p i <;> simp [h, ih]

/-! ### Words as numbers -/

section
variable {w : Nat}

theorem toSigned_toNat (hw : 0 < w) (a : BitVec w) : toSigned w a.toNat = a.toInt := by
  have hp := Nat.two_pow_pred_mul_two hw
  have h : a.toNat < 2 ^ (w - 1) ↔ 2 * a.toNat < 2 ^ w := by omega
  simp only [toSigned, Nat.mod_eq_of_lt a.isLt, BitVec.toInt_eq_toNat_cond, h]
  norm_cast
  rw [Nat.mod_eq_of_lt a.isLt]

theorem ofNat_ofSigned (x : Int) : BitVec.ofNat w (ofSigned w x) = BitVec.ofInt w x := by
  apply BitVec.eq_of_toNat_eq
  have h := Int.emod_lt_of_pos x (show (0 : Int) < 2 ^ w by positivity)
  have hn := Int.emod_nonneg x (show (2 : Int) ^ w ≠ 0 by positivity)
  rw [BitVec.toNat_ofNat, BitVec.toNat_ofInt, ofSigned]
  push_cast
  apply Nat.mod_eq_of_lt
  zify
  rwa [Int.toNat_of_nonneg hn]

theorem popCount_eq_countP (x n : Nat) : popCount x n = (List.range n).countP x.testBit := by
  induction n with
  | zero => rfl
  | succ n ih => rw [popCount, ih, List.range_succ, List.countP_append, List.countP_singleton, Nat.add_comm]

/-- Bit j of a number with its low w bits reversed. -/
theorem testBit_brev (x : Nat) {j : Nat} (h : j < w) : (brev w x).testBit j = x.testBit (w - 1 - j) := by
  have hi : ∀ i ∈ (List.range w).filter x.testBit, i < w := fun i hi => List.mem_range.1 (List.mem_filter.1 hi).1
  have hn : (((List.range w).filter x.testBit).map (w - 1 - ·)).Nodup :=
    List.Nodup.map_on (fun a ha b hb e => by have := hi a ha; have := hi b hb; omega) (List.nodup_range.filter _)
  rw [brev, sum_ite_two_pow, testBit_sum_two_pow hn, Bool.eq_iff_iff, decide_eq_true_iff, List.mem_map]
  refine ⟨fun ⟨i, hm, e⟩ => ?_, fun ht => ⟨w - 1 - j, List.mem_filter.2 ⟨List.mem_range.2 (by omega), ht⟩, by omega⟩⟩
  have := hi i hm
  rw [show w - 1 - j = i by omega]
  exact (List.mem_filter.1 hm).2

theorem ofNat_brev (a : BitVec w) : BitVec.ofNat w (brev w a.toNat) = a.reverse := by
  apply BitVec.eq_of_getLsbD_eq
  intro j hj
  rw [BitVec.getLsbD_ofNat, testBit_brev _ hj, BitVec.getLsbD_reverse, BitVec.getMsbD_eq_getLsbD]
  rfl

theorem toNat_eq_zero_iff (a : BitVec w) : a.toNat = 0 ↔ a = 0 := by rw [← BitVec.toNat_inj]; simp

theorem toInt_le_iff_sle (a b : BitVec w) : a.toInt ≤ b.toInt ↔ a.sle b = true := BitVec.sle_iff_toInt_le.symm

theorem toInt_lt_iff_slt (a b : BitVec w) : a.toInt < b.toInt ↔ a.slt b = true := BitVec.slt_iff_toInt_lt.symm

theorem toNat_le_iff_ule (a b : BitVec w) : a.toNat ≤ b.toNat ↔ a.ule b = true := by simp [BitVec.ule]

theorem toNat_lt_iff_ult (a b : BitVec w) : a.toNat < b.toNat ↔ a.ult b = true := by simp [BitVec.ult]

/-- The quotient that overflows (R106): the least value by −1. -/
theorem ofInt_tdiv_overflow (hw : 0 < w) :
    BitVec.ofInt w ((BitVec.intMin w).toInt.tdiv (BitVec.allOnes w).toInt) = BitVec.intMin w := by
  have h : 2 ^ (w - 1) < 2 ^ w := Nat.pow_lt_pow_right (by omega) (by omega)
  rw [BitVec.toInt_intMin, BitVec.toInt_allOnes, if_pos hw, Nat.mod_eq_of_lt h]
  apply BitVec.eq_of_toNat_eq
  rw [BitVec.toNat_ofInt, BitVec.toNat_intMin, Int.neg_tdiv, Int.tdiv_neg, neg_neg, Int.tdiv_one]
  norm_cast

theorem toInt_tmod_overflow (hw : 0 < w) : (BitVec.intMin w).toInt.tmod (BitVec.allOnes w).toInt = 0 := by
  rw [BitVec.toInt_allOnes, if_pos hw, Int.tmod_neg, Int.tmod_one]

theorem ofInt_sshiftRight (a : BitVec w) (n : Nat) : BitVec.ofInt w (a.toInt / 2 ^ n) = a.sshiftRight n := by
  rw [← BitVec.ofInt_toInt (x := a.sshiftRight n), BitVec.toInt_sshiftRight, Int.shiftRight_eq_div_pow]
  norm_cast

/-! ### The functions -/

theorem ofNat_sub_mod (a b : BitVec w) : BitVec.ofNat w ((a.toNat + 2 ^ w - b.toNat) % 2 ^ w) = a - b := by
  apply BitVec.eq_of_toNat_eq
  have := a.isLt
  have := b.isLt
  rw [BitVec.toNat_ofNat, BitVec.toNat_sub, Nat.mod_mod, show a.toNat + 2 ^ w - b.toNat = 2 ^ w - b.toNat + a.toNat by omega]

theorem ofNat_toNat (a : BitVec w) : BitVec.ofNat w a.toNat = a := by rw [BitVec.ofNat_toNat, BitVec.setWidth_eq]

theorem ofNat_mod (n : Nat) : BitVec.ofNat w (n % 2 ^ w) = BitVec.ofNat w n :=
  BitVec.eq_of_toNat_eq (by rw [BitVec.toNat_ofNat, BitVec.toNat_ofNat, Nat.mod_mod])

theorem ofNat_andNot (a b : BitVec w) : BitVec.ofNat w (a.toNat &&& (2 ^ w - 1 - b.toNat)) = a &&& ~~~b := by
  rw [BitVec.ofNat_and, ofNat_toNat, ← BitVec.toNat_not, ofNat_toNat]

theorem ofNat_bool (p : Prop) [Decidable p] : BitVec.ofNat w (if p then 1 else 0) = if p then 1 else 0 := by split <;> rfl

theorem ofNat_choice (a b : BitVec w) (p : Prop) [Decidable p] :
    BitVec.ofNat w (if p then a.toNat else b.toNat) = if p then a else b := by split <;> simp

theorem ofNat_allOnes : BitVec.ofNat w (2 ^ w - 1) = BitVec.allOnes w :=
  BitVec.eq_of_toNat_eq (by rw [BitVec.toNat_ofNat, BitVec.toNat_allOnes, Nat.mod_eq_of_lt (by have := Nat.two_pow_pos w; omega)])

/-- Signed division with its two special results (R106). -/
theorem ofNat_quotient (hw : 0 < w) (a b : BitVec w) :
    BitVec.ofNat w (if b.toNat = 0 then 2 ^ w - 1 else ofSigned w (a.toInt.tdiv b.toInt)) =
      if b = 0 then BitVec.allOnes w
      else if a = BitVec.intMin w ∧ b = BitVec.allOnes w then BitVec.intMin w else BitVec.ofInt w (a.toInt.tdiv b.toInt) := by
  simp only [toNat_eq_zero_iff]
  split
  · exact ofNat_allOnes
  · rw [ofNat_ofSigned]
    split
    · rename_i h; rw [h.1, h.2, ofInt_tdiv_overflow hw]
    · rfl

/-- The signed remainder with its two special results (R106). -/
theorem ofNat_remainder (hw : 0 < w) (a b : BitVec w) :
    BitVec.ofNat w (if b.toNat = 0 then a.toNat else ofSigned w (a.toInt.tmod b.toInt)) =
      if b = 0 then a else if a = BitVec.intMin w ∧ b = BitVec.allOnes w then 0 else BitVec.ofInt w (a.toInt.tmod b.toInt) := by
  simp only [toNat_eq_zero_iff]
  split
  · simp
  · rw [ofNat_ofSigned]
    split
    · rename_i h; rw [h.1, h.2, toInt_tmod_overflow hw]; rfl
    · rfl

end

/-- Settles O1: each function on numbers is the function on bit vectors of that width. -/
theorem integerFunctions : Obligations.IntegerFunctions := by
  intro w hw a b c
  have h0 : 0 < w := by omega
  simp only [intFn, Option.map_some, Option.some.injEq, toSigned_toNat h0, toInt_le_iff_sle, toInt_lt_iff_slt, toNat_le_iff_ule,
    toNat_lt_iff_ult, ofNat_bool, ofNat_choice, BitVec.toNat_inj]
  refine ⟨?_, ofNat_sub_mod a b, ?_, ?_, trivial, ?_, ofNat_quotient h0 a b, ?_, ofNat_remainder h0 a b, ?_, ?_, ?_, ?_,
    ofNat_andNot a b, ?_, ?_, ?_, trivial, trivial, ?_, ?_, ?_, ?_, ofNat_brev a, trivial, ?_, trivial, trivial, trivial, trivial, ?_⟩
  · rw [ofNat_mod, BitVec.ofNat_add, ofNat_toNat, ofNat_toNat]
  · rw [ofNat_mod, BitVec.ofNat_mul, ofNat_toNat, ofNat_toNat]
  · rw [ofNat_ofSigned]; norm_cast
  · rw [ofNat_mod, BitVec.ofNat_add, BitVec.ofNat_mul, ofNat_toNat, ofNat_toNat, ofNat_toNat]
  · rw [apply_ite (BitVec.ofNat w), ofNat_allOnes, ← BitVec.toNat_udiv, ofNat_toNat]; simp only [toNat_eq_zero_iff]
  · rw [apply_ite (BitVec.ofNat w), ← BitVec.toNat_umod, ofNat_toNat, ofNat_toNat]; simp only [toNat_eq_zero_iff]
  · rw [BitVec.ofNat_and, ofNat_toNat, ofNat_toNat]
  · rw [BitVec.ofNat_or, ofNat_toNat, ofNat_toNat]
  · rw [BitVec.ofNat_xor, ofNat_toNat, ofNat_toNat]
  · rw [← BitVec.toNat_shiftLeft, ofNat_toNat]
  · rw [← BitVec.toNat_ushiftRight, ofNat_toNat]
  · rw [ofNat_ofSigned, ofInt_sshiftRight]
  · rw [Nat.min_def, ofNat_choice]; simp only [toNat_le_iff_ule]
  · rw [Nat.max_def, ofNat_choice]; simp only [toNat_le_iff_ule]
  · simp only [clz, toNat_eq_zero_iff]
  · rw [popCount_eq_countP]; rfl
  · rw [apply_ite (BitVec.ofNat w)]; rfl
  · simp only [toNat_eq_zero_iff, ite_not]

end Sys2Proof.Machine
end

section
/-! The control core (R99 to R102): arithmetic, memory accesses, branches and group control. -/

set_option Elab.async false

namespace Sys2Proof.Machine

/-! ### Arithmetic (R99, R100) -/

/-- A small immediate of CI is itself, sign-extended. -/
theorem immCi_small {f : CiF} (h : f.imm.toNat < 64) : (immCi f).toNat % 64 = f.imm.toNat := by
  rw [immCi, BitVec.signExtend_eq_setWidth_of_msb_false, BitVec.toNat_setWidth]
  · omega
  · rw [BitVec.msb_eq_decide, decide_eq_false_iff_not]; omega

theorem shiftLegal_small {f : CiF} (h : f.imm.toNat < 64) : shiftLegal f = true := by
  rw [shiftLegal, Nat.div_eq_of_lt h]; rfl

/-- LIM replaces chunk K and keeps the others (R99). -/
theorem getLsbD_limVal (v : DWord) (k : BitVec 2) (imm : BitVec 16) {j : Nat} (h : j < 64) :
    (limVal v k.toNat imm).getLsbD j = if j / 16 = k.toNat then imm.getLsbD (j % 16) else v.getLsbD j := by
  have hm : (0xFFFF#64).getLsbD (j - 16 * k.toNat) = decide (j - 16 * k.toNat < 16) := by
    rw [show (0xFFFF#64) = (BitVec.allOnes 16).setWidth 64 from rfl, BitVec.getLsbD_setWidth, BitVec.getLsbD_allOnes]
    simp; omega
  simp only [limVal, BitVec.getLsbD_or, BitVec.getLsbD_and, BitVec.getLsbD_not, BitVec.getLsbD_shiftLeft, BitVec.getLsbD_setWidth,
    BitVec.zeroExtend, hm, h, decide_true, Bool.true_and]
  by_cases hk : j / 16 = k.toNat
  · have h1 : ¬ j < 16 * k.toNat := by omega
    have h2 : j - 16 * k.toNat = j % 16 := by omega
    have h3 : j % 16 < 16 := Nat.mod_lt _ (by omega)
    simp [hk, h1, h2, h3, show j % 16 < 64 by omega]
  · by_cases h1 : j < 16 * k.toNat
    · simp [hk, h1]
    · have h2 : ¬ j - 16 * k.toNat < 16 := by omega
      simp [hk, h1, h2, BitVec.getLsbD_of_ge imm _ (Nat.not_lt.1 h2)]

section
variable {s s1 : State} {site : Nat} {l : Launch} {pc : DWord}

/-- A row with an immediate retires with its result in RD. -/
theorem ccImm_retires (h : CcReady true s site l pc s1) {legal : Bool} (hl : legal = true) (op : DWord → DWord → DWord) (f : CiF) :
    ∃ t, whenUp s (fun s => ccStep (srcs := [f.rs1.toNat]) s site legal true fun _ s t _ => ccImmOut op f site s t) = .next t ∧
      CcRetired s1 t l site f.rd.toNat
        { val := op (ccReg (tileOf s1 site) f.rs1.toNat).val (immCi f), poison := (ccReg (tileOf s1 site) f.rs1.toNat).poison } (pc + 4) :=
  cc_retires h (fun _ => rfl) hl _ _ rfl

/-- CC_ALU on the functions that R100 defines. -/
theorem ccAluLegal_of {f : CrF} (h1 : f.fn.toNat ≤ 0x1D) (h2 : f.fn.toNat ≠ 0x05) (h3 : intArity f.fn.toNat = 1 → f.rs2 = 0) :
    ccAluLegal f = true := by
  have h : intArity f.fn.toNat = 2 ∨ intArity f.fn.toNat = 1 := by
    unfold intArity; rw [if_neg (by omega)]; split <;> simp
  rcases h with h | h
  · simp [ccAluLegal, h1, h2, h]
  · simp [ccAluLegal, h1, h2, h, h3 h]

end

/-- Settles O2: each row of the class is a register write of the frame ccStep. -/
theorem controlArithmetic : Obligations.ControlArithmetic := by
  intro s site l pc s1 h
  refine ⟨fun f v h1 h2 h3 hv => ?_, fun f => ⟨ccImm_retires h rfl (· + ·) f, ccImm_retires h rfl (· &&& ·) f, ccImm_retires h rfl (· ||| ·) f,
    ccImm_retires h rfl (· ^^^ ·) f, ccImm_retires h rfl (fun a b => b2w (a.slt b)) f, ccImm_retires h rfl (fun a b => b2w (a.ult b)) f,
    fun hi => ?_⟩, fun f hr j hj => ?_⟩
  · refine cc_retires h (fun _ => rfl) (ccAluLegal_of h1 h2 h3) (fun _ s t _ => ccAluOut f site s t) _ ?_
    simp only [ccAluOut, hv]; rfl
  · have hl := shiftLegal_small hi
    have h0 := immCi_small hi
    refine ⟨?_, ?_, ?_⟩
    · have := ccImm_retires h hl (fun a b => a <<< (b.toNat % 64)) f
      rwa [h0] at this
    · have := ccImm_retires h hl (fun a b => a >>> (b.toNat % 64)) f
      rwa [h0] at this
    · have := ccImm_retires h hl (fun a b => a.sshiftRight (b.toNat % 64)) f
      rwa [h0] at this
  · exact ⟨_, cc_retires h (fun _ => rfl) (by rw [hr]; rfl) _ _ rfl, getLsbD_limVal _ f.k _ hj⟩

end Sys2Proof.Machine
end

section
/-! Accesses of a tile through its L1 (R288, R289): what a load and a store change, and the bytes that they move. -/

set_option Elab.async false

namespace Sys2Proof

open Machine

/-! ### What a tile's access may change -/

theorem TileMemoryOnly.of_memory {site : Nat} {s t : State} (h : MemoryOnly s t) : TileMemoryOnly site s t :=
  ⟨⟨t, t.tiles, h, rfl⟩, fun k _ => tileOf_memoryOnly h k, by rw [tileOf_memoryOnly h]⟩

theorem TileMemoryOnly.refl (site : Nat) (s : State) : TileMemoryOnly site s s := .of_memory (.refl s)

theorem TileMemoryOnly.trans {site : Nat} {s t v : State} (h : TileMemoryOnly site s t) (k : TileMemoryOnly site t v) :
    TileMemoryOnly site s v := by
  obtain ⟨⟨u, tiles, hu, rfl⟩, ho, ht⟩ := h
  obtain ⟨⟨u', tiles', hu', rfl⟩, ho', ht'⟩ := k
  refine ⟨⟨{ u' with tiles := s.tiles }, tiles', ?_, rfl⟩, fun k hk => (ho' k hk).trans (ho k hk), ?_⟩
  · unfold MemoryOnly at *
    rw [hu']
    conv => lhs; rw [hu]
  · rw [ht', ht]

/-- An update of the tile's L1 and of the misses it waits for. -/
theorem TileMemoryOnly.updTile {site : Nat} (s : State) {f : Tile → Tile}
    (h : f (tileOf s site) = { tileOf s site with l1 := (f (tileOf s site)).l1, l1Miss := (f (tileOf s site)).l1Miss }) :
    TileMemoryOnly site s (updTile s site f) :=
  ⟨⟨s, _, .refl s, rfl⟩, fun _ hk => tileOf_updTile_other s site f hk, by rw [tileOf_updTile_same]; exact h⟩

theorem TileMemoryOnly.noFaults {site : Nat} {s t : State} (h : TileMemoryOnly site s t) : noFaults t = noFaults s := by
  obtain ⟨⟨u, tiles, hu, rfl⟩, -, -⟩ := h
  exact (noFaults_memoryOnly hu : _)

theorem TileMemoryOnly.groupOf {site : Nat} {s t : State} (h : TileMemoryOnly site s t) (g : Nat) :
    groupOf (tileOf t site) g = groupOf (tileOf s site) g := by rw [h.2.2]; rfl

/-- Nothing of memory has changed from s to t, but the L1 of a tile, the misses it waits for and the count of free values. -/
structure CacheOnly (site : Nat) (s t : State) : Prop where
  only : TileMemoryOnly site s t
  mem : t.mem = s.mem
  lines : t.lines = s.lines
  poison : t.poison = s.poison
  dead : t.dead = s.dead

theorem CacheOnly.refl (site : Nat) (s : State) : CacheOnly site s s := ⟨.refl site s, rfl, rfl, rfl, rfl⟩

theorem CacheOnly.trans {site : Nat} {s t u : State} (h : CacheOnly site s t) (k : CacheOnly site t u) : CacheOnly site s u :=
  ⟨h.only.trans k.only, k.mem.trans h.mem, k.lines.trans h.lines, k.poison.trans h.poison, k.dead.trans h.dead⟩

theorem CacheOnly.free (site : Nat) (s : State) (c : Nat) : CacheOnly site s { s with freeCtr := c } :=
  ⟨.of_memory rfl, rfl, rfl, rfl, rfl⟩

theorem CacheOnly.updTile {site : Nat} (s : State) {f : Tile → Tile}
    (h : f (tileOf s site) = { tileOf s site with l1 := (f (tileOf s site)).l1, l1Miss := (f (tileOf s site)).l1Miss }) :
    CacheOnly site s (updTile s site f) := ⟨.updTile s h, rfl, rfl, rfl, rfl⟩

theorem CacheOnly.cohByte {site : Nat} {s t : State} (h : CacheOnly site s t) (a : Nat) : cohByte t a = cohByte s a :=
  cohByte_congr h.mem h.lines a

theorem CacheOnly.cohBytes {site : Nat} {s t : State} (h : CacheOnly site s t) (a n : Nat) : cohBytes t a n = cohBytes s a n := by
  simp only [Machine.cohBytes, h.cohByte]

theorem CacheOnly.cohPoison {site : Nat} {s t : State} (h : CacheOnly site s t) (a : Nat) : cohPoison t a = cohPoison s a := by
  simp only [Machine.cohPoison, h.lines, h.poison]

/-! ### The L1 -/

theorem readAt_free (s : State) (pa n : Nat) : ∃ c, (readAt s pa n).1 = { s with freeCtr := c } := by
  unfold readAt
  split
  · exact ⟨_, rfl⟩
  · split <;> exact ⟨_, rfl⟩

theorem cacheInsert_free (s : State) (m : NMap Sector) (n k : Nat) (sec : Sector) :
    ∃ c, (cacheInsert s m n k sec).2 = { s with freeCtr := c } := by
  unfold cacheInsert
  dsimp only
  split <;> exact ⟨_, rfl⟩

/-- Filling a sector into the L1 changes the L1 and free values. -/
theorem l1Fill_eq (s : State) (site pa : Nat) :
    ∃ c l, l1Fill s site pa = updTile { s with freeCtr := c } site fun t => { t with l1 := l } := by
  unfold l1Fill
  dsimp only
  obtain ⟨c, h⟩ := readAt_free s (pa / 64 * 64) 64
  rw [h]
  obtain ⟨d, k⟩ := cacheInsert_free { s with freeCtr := c } (tileOf { s with freeCtr := c } site).l1 1024 (pa / 64)
    { data := (readAt s (pa / 64 * 64) 64).2.1, poison := (readAt s (pa / 64 * 64) 64).2.2 }
  rw [k]
  exact ⟨d, _, rfl⟩

theorem CacheOnly.l1Fill (s : State) (site pa : Nat) : CacheOnly site s (l1Fill s site pa) := by
  obtain ⟨c, l, h⟩ := l1Fill_eq s site pa
  rw [h]
  exact (CacheOnly.free site s c).trans (.updTile _ rfl)

theorem l1Miss_l1Fill (s : State) (site pa : Nat) : (tileOf (l1Fill s site pa) site).l1Miss = (tileOf s site).l1Miss := by
  obtain ⟨c, l, h⟩ := l1Fill_eq s site pa
  rw [h, tileOf_updTile_same]; rfl

theorem CacheOnly.l1Update (s : State) (site pa : Nat) (bs : List Byte) (poison : Bool) :
    CacheOnly site s (l1Update s site pa bs poison) := by
  unfold Machine.l1Update
  split
  · exact .refl site s
  · exact .updTile s rfl

theorem CacheOnly.l1Drop (s : State) (site pa : Nat) : CacheOnly site s (l1Drop s site pa) := .updTile s rfl

theorem CacheOnly.takeMiss (s : State) (site g k : Nat) : CacheOnly site s (Machine.updTile s site fun t => Machine.takeMiss t g k) :=
  .updTile s (by unfold Machine.takeMiss; split <;> rfl)

/-- Where no detector has anything to meet, a load takes at most a free value to choose between a copy in the L1 and a
miss. -/
theorem l1Held_quiet {s : State} (h : noFaults s = true) (site ctx pa n : Nat) :
    ∃ c o, l1Held s site ctx pa n = ({ s with freeCtr := c }, o) ∧
      ∀ sec, o = some sec → NMap.find (tileOf s site).l1 (pa / 64) = some sec := by
  unfold l1Held
  cases hf : NMap.find (tileOf s site).l1 (pa / 64) with
  | none => exact ⟨s.freeCtr, none, rfl, fun _ h => by cases h⟩
  | some sec =>
    dsimp only
    rw [fireTile_none h]
    dsimp only
    split
    · exact ⟨s.freeCtr, some sec, rfl, fun _ h => h⟩
    · refine ⟨s.freeCtr + 1, _, rfl, fun x hx => ?_⟩
      split at hx
      · exact hx
      · cases hx

/-! ### Loads and stores of a tile -/

/-- A load of a tile that reaches the fast tier: what it changes, and where its bytes come from. -/
theorem tileLoad_loads {s : State} {site ctx : Nat} {va : DWord} {pa cp at_ : Nat} (n : Nat)
    (h : Reaches s ctx .read va pa cp at_) (hn : touchesReserved pa n = false) :
    ∃ s' bs p miss, tileLoad s site ctx va n = (s', .ok ((bs, p), miss)) ∧ TileMemoryOnly site s s' ∧
      BytesKept s s' 0 0 at_ ∧ Loaded s s' site pa cp n bs p ∧ bs.length = n ∧
      (tileOf s' site).l1Miss = (tileOf s site).l1Miss := by
  obtain ⟨e, s1, ht, hq⟩ := translate_reaches h
  have htile := tileOf_memoryOnly hq.only site
  have hk0 : noFaults s1 = true := (noFaults_memoryOnly hq.only).trans h.quiet
  have held : ∃ c o, (if cp = 0 then l1Held s1 site ctx pa n else (s1, none)) = ({ s1 with freeCtr := c }, o) ∧
      ∀ sec, o = some sec → cp = 0 ∧ NMap.find (tileOf s site).l1 (pa / 64) = some sec := by
    split
    · obtain ⟨c, o, he, ho⟩ := l1Held_quiet hk0 site ctx pa n
      exact ⟨c, o, he, fun sec hs => ⟨‹_›, htile ▸ ho sec hs⟩⟩
    · exact ⟨s1.freeCtr, none, rfl, fun _ h => by cases h⟩
  obtain ⟨c, o, he, ho⟩ := held
  have hc : Quietly s1 { s1 with freeCtr := c } at_ := .of_eq rfl rfl fun _ => rfl
  have hc := hq.trans hc
  unfold tileLoad
  simp only [ht, he]
  cases o with
  | some sec =>
    obtain ⟨h0, hs⟩ := ho sec rfl
    exact ⟨_, _, _, _, rfl, .of_memory hc.only, fun a _ ha => hc.bytes a ha, .inr ⟨sec, h0, hs, rfl, rfl⟩, length_sliceList .., by
      rw [tileOf_memoryOnly hc.only]⟩
  | none =>
    obtain ⟨s2, hr, hk⟩ := readTarget_fast (s := { s1 with freeCtr := c }) (ctx := ctx) (t := ⟨pa, cp, e⟩) (va := va) (n := n) false at_
      hk0 h.fast (hc.not_dead h.live) hn
    have hk := hc.trans hk
    have hf : CacheOnly site s2 (if cp = 0 then l1Fill s2 site pa else s2) := by
      split
      · exact .l1Fill ..
      · exact .refl ..
    have hm : (tileOf (if cp = 0 then l1Fill s2 site pa else s2) site).l1Miss = (tileOf s2 site).l1Miss := by
      split
      · exact l1Miss_l1Fill ..
      · rfl
    simp only [hr]
    refine ⟨_, _, _, _, rfl, (TileMemoryOnly.of_memory hk.only).trans hf.only, fun a _ ha => (hf.cohByte a).trans (hk.bytes a ha),
      .inl ⟨(hf.cohBytes pa n).symm, (hf.cohPoison pa).symm⟩, by simp [cohBytes], hm.trans ?_⟩
    rw [tileOf_memoryOnly hk.only]

/-- A store of a tile that reaches the fast tier: what it changes, and the bytes it leaves. -/
theorem tileStore_stores {s : State} {site ctx : Nat} {issuer : Option Nat} {va : DWord} {pa cp at_ : Nat} (bs : List Byte)
    (poison : Bool) (h : Reaches s ctx .write va pa cp at_) (hf : frozenSector s (pa / 64) = false)
    (hn : va.toNat % 64 + bs.length ≤ 64) :
    ∃ s', tileStore s site issuer ctx va bs poison = (s', .ok ()) ∧ TileMemoryOnly site s s' ∧
      BytesKept s s' pa bs.length at_ ∧ cohBytes s' pa bs.length = bs := by
  have hm := h.mod
  obtain ⟨s', he, hs, hb, hi⟩ := tileStore_reaches (site := site) (issuer := issuer) bs poison h hf (h.outside hn) (by omega)
  have hc := CacheOnly.l1Update s' site pa bs poison
  refine ⟨_, he, (TileMemoryOnly.of_memory hs).trans hc.only, fun a h1 h2 => (hc.cohByte a).trans (hb a h1 h2), ?_⟩
  rw [hc.cohBytes]
  exact List.ext_getElem (by simp [cohBytes]) fun i h1 h2 => by simpa [cohBytes] using hi i h2

/-- An access aligned to its size lies within one sector. -/
theorem aligned_in_sector {a n : Nat} (hn : n ∣ 64) (h : a % n = 0) : a % 64 + n ≤ 64 := by
  obtain ⟨k, hk⟩ := hn
  obtain ⟨q, rfl⟩ := Nat.dvd_of_mod_eq_zero h
  have hq : q % k < k := Nat.mod_lt _ (by rcases Nat.eq_zero_or_pos k with rfl | h0 <;> omega)
  calc n * q % 64 + n = n * (q % k + 1) := by rw [hk, Nat.mul_mod_mul_left, Nat.mul_succ]
    _ ≤ n * k := Nat.mul_le_mul_left n hq
    _ = 64 := hk.symm

end Sys2Proof

namespace Sys2Proof.Machine

/-! ### LD and ST of the control core (R99, R100) -/

theorem getElem_leBytes (x n : Nat) {j : Nat} (h : j < (leBytes x n).length) : (leBytes x n)[j] = BitVec.ofNat 8 (x / 256 ^ j) := by
  induction n generalizing x j with
  | zero => simp [leBytes] at h
  | succ n ih =>
    cases j with
    | zero => simp [leBytes]
    | succ j => simp only [leBytes, List.getElem_cons_succ, ih, Nat.pow_succ', Nat.div_div_eq_div_mul]

/-- The bytes of a word, lowest first (R8). -/
theorem ofNat_div_byte {w : Nat} (x : BitVec w) (j : Nat) : BitVec.ofNat 8 (x.toNat / 256 ^ j) = x.extractLsb' (8 * j) 8 := by
  apply BitVec.eq_of_toNat_eq
  rw [BitVec.toNat_ofNat, BitVec.extractLsb'_toNat, Nat.shiftRight_eq_div_pow, Nat.pow_mul]

section
variable {s s1 : State} {site : Nat} {l : Launch} {pc : DWord}

/-- A row that is defined and writes one register after its effect on memory retires. -/
theorem cc_writes_in {s2 : State} {past legal spec : Bool} {rd : Nat} {v : T64} (h : CcReady past s site l pc s1)
    (hs : past = true → spec = true) (hl : legal = true) (f : Launch → State → Tile → DWord → CcOut) (srcs : List Nat)
    (hf : f l s1 (tileOf s1 site) pc = ccWrite s2 site rd v) :
    ∃ t, whenUp s (fun s => ccStep s site legal spec f srcs) = .next t ∧ CcRetired s2 t l site rd v (pc + 4) := by
  refine ⟨_, whenUp_up _ h.up, ?_⟩
  rw [ccStep_ready h hs hl, hf]
  exact ccRetire_retired s2 l site rd v (pc + 4)

/-- A row that is defined and faults does nothing else. -/
theorem cc_faults {s2 : State} {past legal spec : Bool} {unit code : Nat} {operand detail : DWord} (h : CcReady past s site l pc s1)
    (hs : past = true → spec = true) (hl : legal = true) (f : Launch → State → Tile → DWord → CcOut) (srcs : List Nat)
    (hf : f l s1 (tileOf s1 site) pc = .fault s2 unit code operand detail) :
    whenUp s (fun s => ccStep s site legal spec f srcs) = .next (tileFault s2 l site unit code operand pc detail) := by
  rw [whenUp_up _ h.up, ccStep_ready h hs hl, hf]; rfl

/-- The address of an access: RS1 + IMM. -/
def ccVa (s : State) (site : Nat) (f : CiF) : DWord := (ccReg (tileOf s site) f.rs1.toNat).val + f.imm.signExtend 64

variable {f : CiF} {n pa cp at_ : Nat}

/-- A load of n bytes, zero-extended. -/
theorem ccLoad_retires (h : CcReady false s site l pc s1) (hn : n ∣ 64)
    (hp : (ccReg (tileOf s1 site) f.rs1.toNat).poison = false) (hr : Reaches s1 l.ctx .read (ccVa s1 site f) pa cp at_)
    (hm : missFull (tileOf s1 site) = false) (ha : (ccVa s1 site f).toNat % n = 0) :
    ∃ t s2 bs p, whenUp s (fun s => ccStep (srcs := [f.rs1.toNat]) s site true false fun l s t _ => ccLoadOut f n site l s t) = .next t ∧
      TileMemoryOnly site s1 s2 ∧ BytesKept s1 s2 0 0 at_ ∧ Loaded s1 s2 site pa cp n bs p ∧
      CcRetired s2 t l site f.rd.toNat { val := BitVec.ofNat 64 (leNat bs), poison := p } (pc + 4) := by
  obtain ⟨s2, bs, p, miss, he, ho, hb, hl, -, -⟩ := tileLoad_loads (site := site) n hr (hr.outside (aligned_in_sector hn ha))
  unfold ccVa at he ha
  obtain ⟨t, ht, hc⟩ := cc_writes_in (s2 := s2) (v := t64 (leNat bs) p) (rd := f.rd.toNat) h (fun h => by cases h) rfl
    (fun l s t _ => ccLoadOut f n site l s t) [f.rs1.toNat] (by simp [-BitVec.toNat_add, ccLoadOut, ccAddr, immCi, hp, ha, he, hm])
  exact ⟨t, s2, bs, p, ht, ho, hb, hl, hc⟩

/-- A store of the low n bytes of RD. -/
theorem ccStore_retires (h : CcReady false s site l pc s1) (hn : n ∣ 64)
    (hp : (ccReg (tileOf s1 site) f.rs1.toNat).poison = false) (hr : Reaches s1 l.ctx .write (ccVa s1 site f) pa cp at_)
    (hf : frozenSector s1 (pa / 64) = false) (ha : (ccVa s1 site f).toNat % n = 0) :
    ∃ t s2, whenUp s (fun s => ccStep (srcs := [f.rs1.toNat, f.rd.toNat]) s site true false fun l s t _ => ccStoreOut f n site l s t) = .next t ∧
      TileMemoryOnly site s1 s2 ∧ BytesKept s1 s2 pa n at_ ∧
      (∀ j, j < n → cohByte s2 (pa + j) = (ccReg (tileOf s1 site) f.rd.toNat).val.extractLsb' (8 * j) 8) ∧
      CcRetired s2 t l site 0 T64.zero (pc + 4) := by
  let d := ccReg (tileOf s1 site) f.rd.toNat
  have hlen := length_leBytes d.val.toNat n
  obtain ⟨s2, he, ho, hb, hi⟩ := tileStore_stores (site := site) (issuer := none) (leBytes d.val.toNat n) d.poison hr hf
    (by rw [hlen]; exact aligned_in_sector hn ha)
  rw [hlen] at hb hi
  unfold ccVa at he ha
  obtain ⟨t, ht, hc⟩ := cc_retires_in (s2 := s2) h (fun h => by cases h) rfl
    (fun l s t _ => ccStoreOut f n site l s t) [f.rs1.toNat, f.rd.toNat] (by simp [-BitVec.toNat_add, ccStoreOut, ccAddr, immCi, hp, ha, d, he])
  refine ⟨t, s2, ht, ho, hb, fun j hj => ?_, hc⟩
  have hj' : j < (leBytes d.val.toNat n).length := by rwa [hlen]
  calc cohByte s2 (pa + j) = (cohBytes s2 pa n)[j]'(by simpa [cohBytes] using hj) := by simp [cohBytes]
    _ = (leBytes d.val.toNat n)[j] := by simp only [hi]
    _ = d.val.extractLsb' (8 * j) 8 := by rw [getElem_leBytes, ofNat_div_byte]

/-- A load or a store that is not aligned to its size faults. -/
theorem ccLoad_misaligned (h : CcReady false s site l pc s1) (hp : (ccReg (tileOf s1 site) f.rs1.toNat).poison = false)
    (ha : (ccVa s1 site f).toNat % n ≠ 0) :
    whenUp s (fun s => ccStep (srcs := [f.rs1.toNat]) s site true false fun l s t _ => ccLoadOut f n site l s t) =
      .next (tileFault s1 l site 1 misaligned (ccVa s1 site f &&& 0xFFFFFFFFFFFFF#64) pc 0) := by
  unfold ccVa at *
  exact cc_faults h (fun h => by cases h) rfl _ _ (by simp [-BitVec.toNat_add, ccLoadOut, ccAddr, immCi, hp, ha])

theorem ccStore_misaligned (h : CcReady false s site l pc s1) (hp : (ccReg (tileOf s1 site) f.rs1.toNat).poison = false)
    (ha : (ccVa s1 site f).toNat % n ≠ 0) :
    whenUp s (fun s => ccStep (srcs := [f.rs1.toNat, f.rd.toNat]) s site true false fun l s t _ => ccStoreOut f n site l s t) =
      .next (tileFault s1 l site 1 misaligned (ccVa s1 site f &&& 0xFFFFFFFFFFFFF#64) pc 0) := by
  unfold ccVa at *
  exact cc_faults h (fun h => by cases h) rfl _ _ (by simp [-BitVec.toNat_add, ccStoreOut, ccAddr, immCi, hp, ha])

theorem jalr_misaligned (h : CcReady false s site l pc s1) (hp : (ccReg (tileOf s1 site) f.rs1.toNat).poison = false)
    (ha : (ccVa s1 site f).toNat % 4 ≠ 0) (pred : Option DWord) :
    exec (.jalr site f pred) s = .next (tileFault s1 l site 1 misaligned (ccVa s1 site f &&& 0xFFFFFFFFFFFFF#64) pc 0) := by
  unfold ccVa at *
  exact cc_faults h (fun h => by cases h) rfl _ _ (by simp [-BitVec.toNat_add, ccAddr, immCi, hp, ha])

end

/-- Settles O3: the accesses reach the fast tier through the tile's L1, and an access that is not aligned faults before it. -/
theorem controlMemory : Obligations.ControlMemory := by
  have h8 : 8 ∣ 64 := ⟨8, rfl⟩
  have h4 : 4 ∣ 64 := ⟨16, rfl⟩
  refine ⟨fun s site l pc s1 f pa cp at_ h hp hr hm => ?_, fun s site l pc s1 f pa cp at_ h hp hr hf => ?_, fun s site l pc s1 f h hp => ?_⟩
  · exact ⟨ccLoad_retires h h8 hp hr hm, ccLoad_retires h h4 hp hr hm⟩
  · exact ⟨ccStore_retires h h8 hp hr hf, ccStore_retires h h4 hp hr hf⟩
  · exact ⟨fun ha => ⟨ccLoad_misaligned h hp ha, ccStore_misaligned h hp ha⟩,
      fun ha => ⟨ccLoad_misaligned h hp ha, ccStore_misaligned h hp ha, jalr_misaligned h hp ha none⟩⟩

end Sys2Proof.Machine
end

section
/-! Branches and jumps of the control core, with prediction and resolution (R100, R102). -/

set_option Elab.async false

namespace Sys2Proof.Machine

theorem satAdd_zero {w : Nat} (a : BitVec w) : satAdd a 0 = a := by simp [satAdd, a.isLt]

/-- A bumped counter has risen by the count, saturating (R406). -/
theorem counter_bump (s : State) (t i w n : Nat) :
    counter (bump s t i w n) t i w = satAdd (counter s t i w) (BitVec.ofNat 64 (min n (2 ^ 64 - 1))) := by
  unfold bump
  split
  · rename_i h; subst h; exact (satAdd_zero _).symm
  · rw [counter_setCounter_same]

section
variable {s s1 s2 : State} {site : Nat} {l : Launch} {pc dest : DWord}

/-- A row that is defined and goes on elsewhere retires there. -/
theorem cc_jumps {past legal spec : Bool} (h : CcReady past s site l pc s1) (hs : past = true → spec = true) (hl : legal = true)
    (f : Launch → State → Tile → DWord → CcOut) (srcs : List Nat) (hf : f l s1 (tileOf s1 site) pc = .jump s2 dest) :
    whenUp s (fun s => ccStep s site legal spec f srcs) = .next (ccRetire s2 l site dest) := by
  rw [whenUp_up _ h.up, ccStep_ready h hs hl, hf]; rfl

/-- A branch without a guess goes to its target. -/
theorem ccBranch_goes (h : CcReady false s site l pc s1) (f : CbF) (cond : DWord → DWord → Bool)
    (h1 : (ccReg (tileOf s1 site) f.rs1.toNat).poison = false) (h2 : (ccReg (tileOf s1 site) f.rs2.toNat).poison = false)
    {c : Bool} (hc : cond (ccReg (tileOf s1 site) f.rs1.toNat).val (ccReg (tileOf s1 site) f.rs2.toNat).val = c) :
    ∃ t, whenUp s (fun s => ccStep (srcs := [f.rs1.toNat, f.rs2.toNat]) s site true false fun _ s t pc => ccBranchOut cond f none site s t pc) =
        .next t ∧ CcRetired s1 t l site 0 T64.zero (if c then pc + f.off.signExtend 64 * 4 else pc + 4) :=
  ⟨_, cc_jumps h (fun h => by cases h) rfl _ _ (by simp only [ccBranchOut, h1, h2, hc]; rfl), ccRetire_plain ..⟩

/-- Past a predicted branch the core goes on at the guess, the branch's own retirement held back. -/
theorem ccRetire_guess (s : State) (l : Launch) (site : Nat) (c : CcSpec) (guess : DWord) :
    ccRetire (updTile s site fun x => { x with spec := some c }) l site guess =
      updTile (updTile s site fun x => { x with spec := some c }) site fun x =>
        { x with ccPc := guess, spec := some { c with done := c.done + 1 } } := by
  simp only [ccRetire, tileOf_updTile_same]

theorem ccBranch_guesses (h : CcReady false s site l pc s1) (f : CbF) (cond : DWord → DWord → Bool) (guess : DWord)
    (h1 : (ccReg (tileOf s1 site) f.rs1.toNat).poison = false) (h2 : (ccReg (tileOf s1 site) f.rs2.toNat).poison = false) :
    let target := if cond (ccReg (tileOf s1 site) f.rs1.toNat).val (ccReg (tileOf s1 site) f.rs2.toNat).val
      then pc + f.off.signExtend 64 * 4 else pc + 4
    let regs := (tileOf s1 site).ccRegs
    ∃ t, whenUp s (fun s => ccStep (srcs := [f.rs1.toNat, f.rs2.toNat]) s site true false fun _ s t pc =>
        ccBranchOut cond f (some guess) site s t pc) = .next t ∧ (tileOf t site).ccPc = guess ∧ (tileOf t site).ccRegs = regs ∧
      (tileOf t site).spec = some { regs := regs, target := target, guess := guess, done := 1 } ∧ t.mem = s1.mem ∧ t.lines = s1.lines := by
  intro target regs
  refine ⟨_, cc_jumps h (fun h => by cases h) rfl _ _
    (s2 := updTile s1 site fun x => { x with spec := some { regs := regs, target := target, guess := guess, done := 0 } })
    (dest := guess) (by simp only [ccBranchOut, h1, h2]; rfl), ?_⟩
  rw [ccRetire_guess, tileOf_updTile_same, tileOf_updTile_same]
  exact ⟨rfl, rfl, rfl, rfl, rfl⟩

/-- What counting retired instructions of the control core leaves: its samples have aged, and the counters have risen. -/
theorem ccCount_counts (s : State) (l : Launch) (site n : Nat) (f : Tile → Tile) :
    let u := ccCount (updTile s site f) l site n
    (∃ tiles counters, u = { s with tiles := tiles, counters := counters }) ∧ (∀ k, k ≠ site → tileOf u k = tileOf s k) ∧
      tileOf u site = ageSamples (f (tileOf s site)) none n ∧
      (site < 384 → counter u 1 site 0 = satAdd (counter s 1 site 0) (BitVec.ofNat 64 (min n (2 ^ 64 - 1)))) := by
  intro u
  refine ⟨((TilesCounters.updTile s site f).trans (.updTile ..)).trans ((TilesCounters.bump ..).trans (.bump ..)), fun k hk => ?_, ?_, fun hs => ?_⟩
  · simp [u, ccCount, tileOf_updTile_other _ _ _ hk]
  · simp [u, ccCount]
  · have : counter u 1 site 0 = counter (bump (updTile (updTile s site f) site fun t => ageSamples t none n) 1 site 0 n) 1 site 0 :=
      bump_counters_other _ _ _ _ _ (by unfold ckey; omega)
    rw [this, counter_bump]; rfl

/-- CC_BRANCH_RESOLVE on an unresolved branch (R102). -/
theorem ccBranchResolve_resolves {c : CcSpec} (hup : s.run = .up) (hl : runningLaunch s site = some l) (hc : (tileOf s site).spec = some c) :
    exec (.ccBranchResolve site) s = .next (if c.guess = c.target then ccCount (updTile s site fun t => { t with spec := none }) l site c.done
      else ccCount (updTile s site fun t => { t with spec := none, ccRegs := c.regs, ccPc := c.target }) l site 1) := by
  show execCcBranchResolve site s = _
  rw [execCcBranchResolve, whenUp_up _ hup]
  simp only [hl, hc]

end

/-- Settles O4: a branch without a guess is a jump of the frame ccStep; past a guess the registers before it are kept, and the
resolution counts what the branch held back. -/
theorem branches : Obligations.Branches := by
  refine ⟨fun s site l pc s1 h => ⟨fun f h1 h2 => ?_, fun f => ?_, fun f hp ha => ?_⟩, fun s site l pc s1 guess f h h1 h2 _ => ?_,
    fun s site l c hup hl hc => ?_⟩
  · refine ⟨ccBranch_goes h f (· == ·) h1 h2 rfl, ccBranch_goes h f (· != ·) h1 h2 rfl, ccBranch_goes h f (fun a b => a.slt b) h1 h2 rfl,
      ccBranch_goes h f (fun a b => !a.slt b) h1 h2 ?_, ccBranch_goes h f (fun a b => a.ult b) h1 h2 rfl,
      ccBranch_goes h f (fun a b => !a.ult b) h1 h2 ?_⟩
    · exact BitVec.sle_eq_not_slt.symm
    · rw [BitVec.ule, BitVec.ult, ← decide_not, decide_eq_decide, Nat.not_lt]
  · exact ⟨_, cc_jumps h (fun h => by cases h) rfl _ _ rfl, ccRetire_retired ..⟩
  · exact ⟨_, cc_jumps h (fun h => by cases h) rfl _ _ (by simp only [ccAddr, immCi, hp, ha]; rfl), ccRetire_retired ..⟩
  · have := ccBranch_guesses h f (· == ·) guess h1 h2
    simp only [beq_iff_eq] at this
    exact this
  · dsimp only
    refine ⟨_, ccBranchResolve_resolves hup hl hc, ?_⟩
    by_cases hg : c.guess = c.target
    · rw [if_pos hg, if_pos hg, if_pos hg]; exact ccCount_counts s l site c.done _
    · rw [if_neg hg, if_neg hg, if_neg hg]; exact ccCount_counts s l site 1 _

end Sys2Proof.Machine
end

section
/-! Group control of the control core (R100, R101, R111): the groups that run, and how G.START starts them. -/

set_option Elab.async false

namespace Sys2Proof.Machine

/-! ### The groups that run -/

/-- G.STAT's mask has a bit for each group that runs. -/
theorem testBit_runningMask (t : Tile) (g : Nat) : (runningMask t).testBit g = (decide (g < 64) && (groupOf t g).running) := by
  have h := sum_ite_two_pow (List.range 64) (fun g => (groupOf t g).running) id
  rw [List.map_id] at h
  refine (congrArg (·.testBit g) h).trans ((testBit_sum_two_pow (List.nodup_range.filter _) g).trans ?_)
  simp [List.mem_filter, Bool.decide_and]

/-- Two numbers have no bit in common. -/
theorem and_eq_zero_iff (a b : Nat) : a &&& b = 0 ↔ ∀ i, a.testBit i = true → b.testBit i = false := by
  constructor
  · intro h i ha
    have := congrArg (·.testBit i) h
    simpa [ha] using this
  · intro h
    refine Nat.eq_of_testBit_eq fun i => ?_
    rw [Nat.testBit_and, Nat.zero_testBit]
    cases ha : a.testBit i with
    | false => rfl
    | true => rw [h i ha]; rfl

/-- No group that a mask names runs. -/
theorem runningMask_and (t : Tile) (m : DWord) :
    runningMask t &&& m.toNat = 0 ↔ ∀ g, g < 64 → m.getLsbD g = true → (groupOf t g).running = false := by
  simp only [Nat.and_comm (runningMask t), and_eq_zero_iff, testBit_runningMask, Bool.and_eq_false_iff, decide_eq_false_iff_not]
  refine forall_congr' fun g => ⟨fun h hg hm => ?_, fun h hm => ?_⟩
  · exact (h hm).resolve_left (not_not_intro hg)
  · by_cases hg : g < 64
    · exact .inr (h hg hm)
    · exact .inl hg

/-! ### The state in which a group starts (R111) -/

theorem find_append {β : Type} (a b : NMap β) (k : Nat) : NMap.find (a ++ b) k = (NMap.find a k).or (NMap.find b k) := by
  induction a with
  | nil => rfl
  | cons e r ih =>
    obtain ⟨j, v⟩ := e
    rw [List.cons_append, NMap.find, NMap.find]
    split
    · rfl
    · exact ih

/-- A table that lists no entry of a key. -/
theorem find_none {β : Type} {m : NMap β} {k : Nat} (h : ∀ e ∈ m, e.1 ≠ k) : NMap.find m k = none := by
  induction m with
  | nil => rfl
  | cons e r ih =>
    obtain ⟨j, v⟩ := e
    rw [NMap.find, if_neg (h (j, v) List.mem_cons_self)]
    exact ih fun e he => h e (List.mem_cons_of_mem _ he)

/-- A table made of blocks of 256 keys. -/
theorem find_blocks {β : Type} (b : Nat → NMap β) (hb : ∀ i, ∀ e ∈ b i, e.1 / 256 = i) (n k : Nat) :
    NMap.find ((List.range n).map b).flatten k = if k / 256 < n then NMap.find (b (k / 256)) k else none := by
  induction n with
  | zero => rfl
  | succ n ih =>
    rw [List.range_succ, List.map_append, List.flatten_append, find_append, ih]
    simp only [List.map_cons, List.map_nil, List.flatten_cons, List.flatten_nil, List.append_nil]
    by_cases h : k / 256 = n
    · rw [if_neg (by omega), if_pos (by omega), h]; rfl
    · rw [find_none (m := b n) fun e he hk => h (by rw [← hk]; exact hb n e he), Option.or_none]
      exact if_congr (by omega) rfl rfl

/-- The value of register r of lane i of a group that starts (R111). -/
def startReg (l : Launch) (g : Nat) (arg : T64) (i r : Nat) : T32 :=
  if l.regs ≤ r then T32.zero
  else if r = 0 then { val := BitVec.ofNat 32 i, poison := false }
  else if r = 1 then { val := BitVec.ofNat 32 g, poison := false }
  else if r = 2 then { val := arg.val.extractLsb' 0 32, poison := arg.poison }
  else if r = 3 then { val := arg.val.extractLsb' 32 32, poison := arg.poison }
  else T32.zero

theorem ofNat_fld_high (x : DWord) : BitVec.ofNat 32 (fld x 63 32) = x.extractLsb' 32 32 := by
  apply BitVec.eq_of_toNat_eq
  simp [fld, field]

/-- What the list of a lane's first registers gives for one of them: nothing where it reads zero. -/
theorem find_startRegs (reg : Nat → Option (Nat × T32)) (base : Nat) (v : Nat → T32) (p : Nat → Prop) [DecidablePred p]
    (h : ∀ r, r < 4 → reg r = if p r ∧ v r ≠ T32.zero then some (base + r, v r) else none) (r : Nat) :
    NMap.getD ([0, 1, 2, 3].filterMap reg) (base + r) T32.zero = if r < 4 ∧ p r then v r else T32.zero := by
  have key (l : List Nat) (hl : ∀ q ∈ l, q < 4) : NMap.getD (l.filterMap reg) (base + r) T32.zero = if r ∈ l ∧ p r then v r else T32.zero := by
    induction l with
    | nil => simp
    | cons q t ih =>
      have ih := ih fun x hx => hl x (List.mem_cons_of_mem _ hx)
      rw [List.filterMap_cons, h q (hl q List.mem_cons_self)]
      by_cases hq : p q ∧ v q ≠ T32.zero
      · rw [if_pos hq]
        by_cases hr : r = q
        · subst hr; simp [NMap.getD, NMap.find, hq.1]
        · have : NMap.getD ((base + q, v q) :: t.filterMap reg) (base + r) T32.zero = NMap.getD (t.filterMap reg) (base + r) T32.zero := by
            simp [NMap.getD, NMap.find, Ne.symm hr]
          simp only [this, ih, List.mem_cons, hr, false_or]
      · rw [if_neg hq]
        dsimp only
        rw [ih]
        by_cases hr : r = q
        · subst hr
          have : ¬ p r ∨ v r = T32.zero := by rw [not_and_or, not_not] at hq; exact hq
          rcases this with hp | hv
          · simp [hp]
          · split <;> split <;> simp_all
        · simp only [List.mem_cons, hr, false_or]
  rw [key _ (by decide)]
  have : r ∈ [0, 1, 2, 3] ↔ r < 4 := by simp; omega
  simp only [this]

theorem treg_startGroup (l : Launch) (g : Nat) (entry : DWord) (arg : T64) (tokens : BitVec 8) {i r : Nat} (hi : i < 32) (hr : r < 255) :
    treg (startGroup l g entry arg tokens) i r = startReg l g arg i r := by
  unfold treg startGroup
  rw [if_neg (by omega)]
  dsimp only
  rw [NMap.getD, find_blocks, if_pos (by omega), show (i * 256 + r) / 256 = i by omega]
  · refine (find_startRegs _ (i * 256) (fun r => match r with
      | 0 => { val := BitVec.ofNat 32 i, poison := false }
      | 1 => { val := BitVec.ofNat 32 g, poison := false }
      | 2 => { val := BitVec.ofNat 32 (fld arg.val 31 0), poison := arg.poison }
      | _ => { val := BitVec.ofNat 32 (fld arg.val 63 32), poison := arg.poison }) (· < l.regs) (fun r _ => rfl) r).trans ?_
    unfold startReg
    by_cases h : l.regs ≤ r
    · rw [if_pos h, if_neg (by omega)]
    · rw [if_neg h]
      match r, Nat.lt_of_not_le h with
      | 0, h => simp [h]
      | 1, h => simp [h]
      | 2, h => simp [h, ofNat_fld_low]
      | 3, h => simp [h, ofNat_fld_high]
      | r + 4, _ => simp
  · intro j e he
    obtain ⟨q, hq, h⟩ := List.mem_filterMap.1 he
    obtain ⟨-, h⟩ := Option.ite_none_right_eq_some.1 h
    cases h
    have : q < 4 := by simp at hq; omega
    show (j * 256 + q) / 256 = j
    omega

theorem lanePc_startGroup (l : Launch) (g : Nat) (entry : DWord) (arg : T64) (tokens : BitVec 8) {i : Nat} (hi : i < 32) :
    lanePc (startGroup l g entry arg tokens) i = entry := by
  have find (n : Nat) : NMap.find ((List.range n).map fun i => (i, entry)) i = if i < n then some entry else none := by
    induction n with
    | zero => rfl
    | succ n ih =>
      rw [List.range_succ, List.map_append, find_append, ih]
      by_cases h : i = n
      · subst h; simp [NMap.find]
      · simp only [List.map_cons, List.map_nil, NMap.find, Ne.symm h, if_false, Option.or_none]
        exact if_congr (by omega) rfl rfl
  unfold lanePc startGroup
  dsimp only
  split
  · rename_i h; rw [h]; rfl
  · rw [NMap.getD, find, if_pos hi]

/-! ### G.START (R101) -/

/-- What becomes of a tile whose groups of a list start: each is as it starts, tokens kept, and the others stay. -/
structure Started (l : Launch) (entry : DWord) (arg : T64) (gs : List Nat) (t u : Tile) : Prop where
  frame : u = { t with groups := u.groups, active := u.active, eligible := u.eligible, bars := u.bars }
  others : ∀ k, k ∉ gs → groupOf u k = groupOf t k
  started : ∀ k, k ∈ gs → ∃ p w, groupOf u k = { startGroup l k entry arg (groupOf t k).tokens with parked := p, waitsOn := w }

theorem groupOf_makeEligible_other (t : Tile) {g k : Nat} (h : k ≠ g) : groupOf (makeEligible t g) k = groupOf t k := by
  unfold makeEligible
  split
  · rfl
  · exact groupOf_setGroup_other t _ h

theorem groupOf_makeEligible_same (t : Tile) (g : Nat) : ∃ p w, groupOf (makeEligible t g) g = { groupOf t g with parked := p, waitsOn := w } := by
  unfold makeEligible
  split
  · exact ⟨_, _, rfl⟩
  · exact ⟨false, none, groupOf_setGroup_same t g _⟩

theorem makeEligible_frame (t : Tile) (g : Nat) :
    makeEligible t g = { t with groups := (makeEligible t g).groups, active := (makeEligible t g).active, eligible := (makeEligible t g).eligible } := by
  unfold makeEligible
  split <;> rfl

theorem groupOf_leaveSets (t : Tile) (g k : Nat) : groupOf (leaveSets t g) k = groupOf t k := rfl

theorem Started.one (l : Launch) (entry : DWord) (arg : T64) (t : Tile) (g : Nat) :
    Started l entry arg [g] t (startInTile t l g entry arg) := by
  unfold startInTile
  refine ⟨?_, fun k hk => ?_, fun k hk => ?_⟩
  · rw [makeEligible_frame]; rfl
  · have hk : k ≠ g := fun e => hk (e ▸ List.mem_cons_self)
    rw [groupOf_makeEligible_other _ hk, groupOf_leaveSets, groupOf_setGroup_other _ _ hk]
    rfl
  · obtain rfl : k = g := by simpa using hk
    obtain ⟨p, w, h⟩ := groupOf_makeEligible_same (leaveSets (setGroup (noArrivals t k) k (startGroup l k entry arg (groupOf (noArrivals t k) k).tokens)) k) k
    rw [groupOf_leaveSets, groupOf_setGroup_same] at h
    exact ⟨p, w, h⟩

/-- Groups none of which runs all start. -/
theorem startGroups_started (l : Launch) (entry : DWord) (arg : T64) {gs : List Nat} (hn : gs.Nodup) (t : Tile)
    (hr : ∀ g ∈ gs, (groupOf t g).running = false) :
    ∃ u, startGroups t l entry arg gs = (u, []) ∧ Started l entry arg gs t u := by
  induction gs generalizing t with
  | nil => exact ⟨t, rfl, rfl, fun _ _ => rfl, fun k hk => by cases hk⟩
  | cons g r ih =>
    obtain ⟨hg, hn⟩ := List.nodup_cons.1 hn
    have h1 := Started.one l entry arg t g
    have hother k (hk : k ∈ r) : groupOf (startInTile t l g entry arg) k = groupOf t k :=
      h1.others k fun e => hg (by rw [← List.mem_singleton.1 e]; exact hk)
    obtain ⟨u, hu, h2⟩ := ih hn (startInTile t l g entry arg) fun k hk => by
      rw [hother k hk]; exact hr k (List.mem_cons_of_mem _ hk)
    refine ⟨u, ?_, ?_, fun k hk => ?_, fun k hk => ?_⟩
    · rw [startGroups, hr g List.mem_cons_self]; exact hu
    · rw [h2.frame, h1.frame]
    · rw [List.mem_cons, not_or] at hk
      rw [h2.others k hk.2, h1.others k (by simpa using hk.1)]
    · by_cases hk' : k ∈ r
      · rw [← hother k hk']; exact h2.started k hk'
      · obtain rfl := (List.mem_cons.1 hk).resolve_right hk'
        rw [h2.others k hk']; exact h1.started k List.mem_cons_self

/-- The tile of a control core that retires. -/
theorem tileOf_ccRetire (s : State) (l : Launch) (site : Nat) (pc : DWord) :
    tileOf (ccRetire s l site pc) site = { ccAged (tileOf s site) with ccPc := pc } := by
  unfold ccRetire
  cases hs : (tileOf s site).spec with
  | none => simp [ccCount, ccAged, hs, ageSamples]
  | some c => simp [ccAged, hs]

theorem groupOf_ccAged (t : Tile) (k : Nat) : groupOf (ccAged t) k = groupOf t k := by
  unfold ccAged; split <;> rfl

theorem ccAged_ccRegs (t : Tile) : (ccAged t).ccRegs = t.ccRegs := by
  unfold ccAged; split <;> rfl

/-- Groups that G.START's mask names below GROUPS. -/
theorem mem_startList (m : DWord) (n g : Nat) : g ∈ (setBits m.toNat 64).filter (· < n) ↔ m.getLsbD g = true ∧ g < n := by
  have h : m.getLsbD g = true → g < 64 := BitVec.lt_of_getLsbD
  simp only [setBits, List.mem_filter, List.mem_range, decide_eq_true_eq]
  exact ⟨fun ⟨⟨_, hb⟩, hn⟩ => ⟨hb, hn⟩, fun ⟨hb, hn⟩ => ⟨⟨h hb, hb⟩, hn⟩⟩

section
variable {s s1 : State} {site : Nat} {l : Launch} {pc : DWord} {f : CrF}

/-- A row that is defined does what its body says. -/
theorem cc_steps {past legal spec : Bool} (h : CcReady past s site l pc s1) (hs : past = true → spec = true) (hl : legal = true)
    (f : Launch → State → Tile → DWord → CcOut) (srcs : List Nat) :
    whenUp s (fun s => ccStep s site legal spec f srcs) = .next (ccFinish l site pc (f l s1 (tileOf s1 site) pc)) := by
  rw [whenUp_up _ h.up, ccStep_ready h hs hl]

/-- G.START with its registers clean, the vector queue empty and no group of its mask running starts them all and retires. -/
theorem gStart_starts (h : CcReady false s site l pc s1) (hfn : f.fn = 0x00) (hm : (ccReg (tileOf s1 site) f.rd.toNat).poison = false)
    (he : (ccReg (tileOf s1 site) f.rs1.toNat).poison = false) (ha : (ccReg (tileOf s1 site) f.rs1.toNat).val.toNat % 8 = 0)
    (hv : (tileOf s1 site).vec.queue = []) (hl : (tileOf s1 site).startLeft = none)
    (hr : ∀ g, (ccReg (tileOf s1 site) f.rd.toNat).val.getLsbD g = true → g < l.groups → (groupOf (tileOf s1 site) g).running = false) :
    ∃ u, Started l (ccReg (tileOf s1 site) f.rs1.toNat).val (ccReg (tileOf s1 site) f.rs2.toNat)
        ((setBits (ccReg (tileOf s1 site) f.rd.toNat).val.toNat 64).filter (· < l.groups)) (tileOf s1 site) u ∧
      exec (.gStart site f) s = .next (ccRetire (setTile s1 site { u with startLeft := none }) l site (pc + 4)) := by
  obtain ⟨u, hu, hs⟩ := startGroups_started l (ccReg (tileOf s1 site) f.rs1.toNat).val (ccReg (tileOf s1 site) f.rs2.toNat)
    ((List.nodup_range.filter _).filter _ : ((setBits (ccReg (tileOf s1 site) f.rd.toNat).val.toNat 64).filter (· < l.groups)).Nodup)
    (tileOf s1 site) fun g hg => by obtain ⟨hb, hn⟩ := (mem_startList _ _ g).1 hg; exact hr g hb hn
  refine ⟨u, hs, ?_⟩
  have hout : gStartOut f site l s1 (tileOf s1 site) = .next (setTile s1 site { u with startLeft := none }) := by
    unfold gStartOut
    dsimp only
    rw [hm, he, hl, if_neg (by decide), if_neg (not_not_intro ha), if_neg (not_not_intro hv), Option.getD_none]
    erw [hu]
  have hlegal : (f.fn == 0x00) = true := by rw [hfn]; rfl
  exact (cc_steps h (fun h => by cases h) hlegal _ _).trans (congrArg (fun o => Host.Outcome.next (ccFinish l site pc o)) hout)

end

/-- Settles O5: the masks are sums of powers of two, and G.START starts the groups of its mask one after another. -/
theorem groupStarts : Obligations.GroupStarts := by
  refine ⟨fun s site l pc s1 f h => ⟨fun h1 h2 h3 hp => ?_, fun h1 h2 h3 => ?_, fun h1 h2 h3 hv => ?_, fun h1 h2 h3 h4 => ?_⟩,
    fun s site l pc s1 f h hfn hm he ha hv hl hr => ?_⟩
  · have hlegal : (f.fn == 0x01 && f.rd == 0 && f.rs2 == 0) = true := by rw [h1, h2, h3]; rfl
    constructor
    · intro hz
      have hz := (runningMask_and (tileOf s1 site) _).2 hz
      exact cc_retires_in h (fun h => by cases h) hlegal _ _ (by simp only [hp, hz]; rfl)
    · rintro ⟨g, hg, hb, hrun⟩
      have hz : ¬ runningMask (tileOf s1 site) &&& (ccReg (tileOf s1 site) f.rs1.toNat).val.toNat = 0 := fun hz => by
        exact Bool.false_ne_true (((runningMask_and (tileOf s1 site) _).1 hz g hg hb).symm.trans hrun)
      refine (cc_steps h (fun h => by cases h) hlegal _ _).trans ?_
      simp only [hp, hz]
      rfl
  · obtain ⟨t, ht, hc⟩ := cc_retires (v := t64 (runningMask (tileOf s1 site)) false) (rd := f.rd.toNat) h (fun h => by cases h)
      (show (f.fn == 0x02 && f.rs1 == 0 && f.rs2 == 0) = true by rw [h1, h2, h3]; rfl)
      (fun _ s t _ => ccWrite s site f.rd.toNat (t64 (runningMask t) false)) [] rfl
    refine ⟨t, _, ht, hc, fun g hg => ?_⟩
    rw [BitVec.getLsbD_ofNat, testBit_runningMask]
    simp [hg]
  · have hbit : ((ccReg (tileOf s1 site) f.rs1.toNat).val == 1) = (ccReg (tileOf s1 site) f.rs1.toNat).val.getLsbD 0 := by
      generalize (ccReg (tileOf s1 site) f.rs1.toNat).val = v at hv
      obtain h | h : v.toNat = 0 ∨ v.toNat = 1 := by omega
      · obtain rfl : v = 0 := BitVec.eq_of_toNat_eq h
        rfl
      · obtain rfl : v = 1 := BitVec.eq_of_toNat_eq h
        rfl
    refine cc_retires_in h (fun h => by cases h) (show (f.fn == 0x03 && f.rd == 0 && f.rs2 == 0) = true by rw [h1, h2, h3]; rfl) _ _ ?_
    simp only [← hbit, Nat.not_le.2 hv, if_false]
  · exact cc_retires_in h (fun h => by cases h) (show sysLegal f 0x00 = true by simp [sysLegal, h1, h2, h3, h4]) _ _ rfl
  · obtain ⟨u, hs, ht⟩ := gStart_starts h hfn hm he ha hv hl hr
    have htile := tileOf_ccRetire (setTile s1 site { u with startLeft := none }) l site (pc + 4)
    have hret := ccRetire_plain (setTile s1 site { u with startLeft := none }) l site (pc + 4)
    rw [tileOf_setTile_same] at htile
    obtain ⟨tiles, counters, hfr⟩ := hret.frame
    refine ⟨_, ht, ?_, ?_, fun k hk => ?_, ?_, ?_, fun g => ?_⟩
    · rw [htile]
    · rw [htile]; dsimp only; rw [ccAged_ccRegs, hs.frame]
    · rw [hret.tiles k hk, tileOf_setTile_other _ _ _ hk]
    · rw [hfr]; rfl
    · rw [hfr]; rfl
    · have hg : groupOf (tileOf (ccRetire (setTile s1 site { u with startLeft := none }) l site (pc + 4)) site) g = groupOf u g := by
        rw [htile]; exact groupOf_ccAged { u with startLeft := none } g
      dsimp only
      rw [hg]
      split
      · rename_i hg
        obtain ⟨p, w, hx⟩ := hs.started g ((mem_startList _ _ g).2 hg)
        rw [hx]
        refine ⟨rfl, rfl, rfl, rfl, rfl, fun i hi => ⟨lanePc_startGroup l g (ccReg (tileOf s1 site) f.rs1.toNat).val (ccReg (tileOf s1 site) f.rs2.toNat)
          (groupOf (tileOf s1 site) g).tokens hi, rfl, fun r hr => treg_startGroup l g (ccReg (tileOf s1 site) f.rs1.toNat).val
          (ccReg (tileOf s1 site) f.rs2.toNat) (groupOf (tileOf s1 site) g).tokens hi hr⟩⟩
      · rename_i hg
        rw [hs.others g fun hm => hg ((mem_startList _ _ g).1 hm)]

end Sys2Proof.Machine
end

section
/-! Arithmetic of a thread group (R104 to R108, R112): results fit their registers, and each lane has its own. -/

set_option Elab.async false

namespace Sys2Proof.Machine

/-! ### Results fit (R106, R108) -/

theorem ite_below {p : Prop} [Decidable p] {x y n : Nat} (hx : x < n) (hy : y < n) : (if p then x else y) < n := by
  split <;> assumption

theorem ofSigned_lt (w : Nat) (x : Int) : ofSigned w x < 2 ^ w := by
  have h : (0 : Int) < 2 ^ w := by positivity
  have := Int.emod_lt_of_pos x h
  have := Int.emod_nonneg x h.ne'
  unfold ofSigned
  zify
  omega

theorem brev_lt (w x : Nat) : brev w x < 2 ^ w := by
  refine Nat.lt_pow_two_of_testBit _ fun i hi => ?_
  unfold brev
  rw [sum_ite_two_pow (List.range w) x.testBit (w - 1 - ·), testBit_sum_two_pow]
  · simp only [decide_eq_false_iff_not, List.mem_map, List.mem_filter, List.mem_range]
    rintro ⟨j, ⟨hj, -⟩, rfl⟩
    omega
  · refine (List.nodup_range.filter _).map_on fun a ha b hb h => ?_
    simp only [List.mem_filter, List.mem_range] at ha hb
    omega

theorem popCount_le (x n : Nat) : popCount x n ≤ n := by
  rw [popCount_eq_countP]
  simpa using List.countP_le_length (p := x.testBit) (l := List.range n)

/-- The result of an integer function on operands of its width has its width (R106). -/
theorem intFn_lt {w a b c : Nat} (hw : w = 32 ∨ w = 64) (ha : a < 2 ^ w) (hb : b < 2 ^ w) (fn : Nat) :
    (intFn w fn a b c).getD 0 < 2 ^ w := by
  have hm : 0 < 2 ^ w := Nat.two_pow_pos w
  have hmod x : x % 2 ^ w < 2 ^ w := Nat.mod_lt _ hm
  have hlog : w < 2 ^ w := Nat.lt_two_pow_self
  have hone : 1 < 2 ^ w := Nat.one_lt_two_pow (by omega)
  have hmax : 2 ^ w - 1 < 2 ^ w := by omega
  have hsig := ofSigned_lt w
  have hdiv x y (h : x < 2 ^ w) : x / y < 2 ^ w := (Nat.div_le_self x y).trans_lt h
  have hrem x y (h : x < 2 ^ w) : x % y < 2 ^ w := (Nat.mod_le x y).trans_lt h
  have hch (p : Prop) [Decidable p] {x y : Nat} (hx : x < 2 ^ w) (hy : y < 2 ^ w) : (if p then x else y) < 2 ^ w := ite_below hx hy
  unfold intFn
  dsimp only
  split <;> dsimp only [Option.getD_some, Option.getD_none]
  exacts [hmod _, hmod _, hmod _, hsig _, Nat.div_lt_of_lt_mul (Nat.mul_lt_mul'' ha hb), hmod _, hch _ hmax (hsig _),
    hch _ hmax (hdiv _ _ ha), hch _ ha (hsig _), hch _ ha (hrem _ _ ha), Nat.and_lt_two_pow a hb, Nat.or_lt_two_pow ha hb,
    Nat.xor_lt_two_pow ha hb, Nat.and_lt_two_pow a (by omega), hmod _, by rw [Nat.shiftRight_eq_div_pow]; exact hdiv _ _ ha, hsig _,
    hch _ ha hb, hch _ hb ha, (Nat.min_le_left a b).trans_lt ha, Nat.max_lt.2 ⟨ha, hb⟩, hch _ hlog (by omega),
    (popCount_le a w).trans_lt hlog, brev_lt w a, hch _ hone hm, hch _ hm hone, hch _ hone hm, hch _ hone hm, hch _ hone hm,
    hch _ hone hm, hch _ ha hb, hm]

/-- Rounding to a multiple of 2^q leaves at most mant + 1 bits, where 2^q is the last place that a format has there. -/
theorem roundAt_le (mode : RMode) (neg st : Bool) (m : Nat) (e q : Int) (p : Nat) (h : e + Nat.log2 m ≤ q + p) :
    (roundAt mode neg m e st q).1 ≤ 2 ^ (p + 1) := by
  have hm : m < 2 ^ (Nat.log2 m + 1) := Nat.lt_log2_self
  unfold roundAt
  split
  · rename_i hq
    rw [Nat.shiftLeft_eq]
    calc m * 2 ^ (e - q).toNat ≤ 2 ^ (Nat.log2 m + 1) * 2 ^ (e - q).toNat := Nat.mul_le_mul_right _ hm.le
      _ = 2 ^ (Nat.log2 m + 1 + (e - q).toNat) := (pow_add ..).symm
      _ ≤ 2 ^ (p + 1) := Nat.pow_le_pow_right (by decide) (by omega)
  · rename_i hq
    have hlt : m >>> (q - e).toNat < 2 ^ (p + 1) := by
      rw [Nat.shiftRight_eq_div_pow]
      refine Nat.div_lt_of_lt_mul (hm.trans_le ?_)
      rw [← pow_add]
      exact Nat.pow_le_pow_right (by decide) (by omega)
    dsimp only
    split <;> omega

/-- The magnitude bits of an exponent place that a format has, and of the place above its largest. -/
theorem place_lt {f : Fmt} {k : Nat} (h : (k : Int) ≤ f.emax + f.bias + 1) : k * 2 ^ f.mant < 2 ^ 31 := by
  have hf : (f.emax + f.bias + 1).toNat * 2 ^ f.mant < 2 ^ 31 := by cases f <;> decide
  exact (Nat.mul_le_mul_right _ (by omega)).trans_lt hf

theorem encodeMag_lt {f : Fmt} {n : Nat} {q : Int} (hn : n ≤ 2 ^ (f.mant + 1)) (hq : q ≤ f.emax - f.mant) :
    encodeMag f n q < 2 ^ 31 := by
  have hpow : 2 ^ (f.mant + 1) = 2 * 2 ^ f.mant := pow_succ' ..
  have hmant : 2 ^ f.mant < 2 ^ 31 := Nat.pow_lt_pow_right (by decide) (by cases f <;> decide)
  have hemax : 0 ≤ f.emax + f.bias := by cases f <;> decide
  unfold encodeMag
  by_cases h : n = 2 ^ (f.mant + 1)
  · have hhalf : n / 2 - 2 ^ f.mant = 0 := by omega
    simp only [if_pos h, show ¬ n / 2 < 2 ^ f.mant by omega, if_false, hhalf, Nat.shiftLeft_eq, Nat.add_zero]
    exact place_lt (by omega)
  · simp only [if_neg h, Nat.shiftLeft_eq]
    split
    · omega
    have := place_lt (f := f) (k := (q + f.mant + f.bias).toNat + 1) (by omega)
    rw [Nat.succ_mul] at this
    omega

theorem withSign_lt {f : Fmt} (neg : Bool) {m : Nat} (h : m < 2 ^ 31) : withSign f neg m < 2 ^ 32 := by
  have : 2 ^ (f.bits - 1) ≤ 2 ^ 31 := Nat.pow_le_pow_right (by decide) (by cases f <;> decide)
  unfold withSign
  split <;> omega

theorem maxFin_lt (f : Fmt) : f.maxFin < 2 ^ 31 := by cases f <;> decide

theorem inf_lt {f : Fmt} {i : Nat} (h : f.inf = some i) : i < 2 ^ 31 := by
  cases f <;> cases h <;> decide

theorem round_inf_lt (f : Fmt) (mode : RMode) (sat neg : Bool) : round f mode sat (.inf neg) < 2 ^ 32 := by
  unfold round
  dsimp only
  split
  · rename_i hi; exact withSign_lt neg (inf_lt hi)
  · exact ite_below (by decide) (withSign_lt neg (maxFin_lt f))

theorem overflow_lt (f : Fmt) (mode : RMode) (sat neg : Bool) : overflow f mode sat neg < 2 ^ 32 :=
  ite_below (withSign_lt neg (maxFin_lt f)) (round_inf_lt f mode sat neg)

/-- A value rounded to a format fits 32 bits. -/
theorem round_lt (f : Fmt) (mode : RMode) (sat : Bool) (v : Val) : round f mode sat v < 2 ^ 32 := by
  cases v with
  | nan => exact (show f.nan < 2 ^ 32 by cases f <;> decide)
  | inf neg => exact round_inf_lt ..
  | fin neg m e st =>
    unfold round
    dsimp only
    refine ite_below (withSign_lt neg (by decide)) ?_
    generalize hq : (if e + (Nat.log2 m : Int) < 1 - (f.bias : Int) then 1 - (f.bias : Int) else e + (Nat.log2 m : Int)) - f.mant = q
    have hn := roundAt_le mode neg st m e q f.mant (by split at hq <;> omega)
    have henc (h : q ≤ f.emax - f.mant) : withSign f neg (encodeMag f (roundAt mode neg m e st q).1 q) < 2 ^ 32 :=
      withSign_lt neg (encodeMag_lt hn h)
    have hover := overflow_lt f mode sat neg
    have hmax := withSign_lt (f := f) neg (maxFin_lt f)
    split
    · split
      · exact ite_below hover (ite_below hover hmax)
      · rename_i h; exact henc (by simp at h; omega)
    · split
      · exact hover
      · rename_i h; exact henc (by simp at h; omega)

/-! ### Each lane has its own result -/

/-- A lane's result of w bits in dst; with sr the lane counts a stochastic conversion (R216). -/
def resLane (dst w : Nat) (sr : Bool) (v : TGroup → Nat → Nat × Bool) (x : TGroup) (i : Nat) : TGroup :=
  { setRes x i dst w (v x i).1 (v x i).2 with
    srCount := if sr then NMap.put 0 x.srCount i (NMap.getD x.srCount i 0 + 1) else x.srCount }

/-- A lane's result depends on nothing of the group but the lane's registers and its count of stochastic conversions. -/
def OwnLane (v : TGroup → Nat → Nat × Bool) : Prop :=
  ∀ y z i, (∀ k, k < 256 → treg y i k = treg z i k) → NMap.getD y.srCount i 0 = NMap.getD z.srCount i 0 → v y i = v z i

section
variable {dst w : Nat} {sr : Bool} {v : TGroup → Nat → Nat × Bool}

theorem treg_resLane (x : TGroup) (i j k : Nat) :
    treg (resLane dst w sr v x i) j k = treg (setRes x i dst w (v x i).1 (v x i).2) j k := rfl

theorem resLane_frame (x : TGroup) (i : Nat) : resLane dst w sr v x i =
    { x with regs := (resLane dst w sr v x i).regs, srCount := (resLane dst w sr v x i).srCount } := by
  unfold resLane
  rw [setRes_frame]

theorem srCount_resLane (x : TGroup) (i j : Nat) : NMap.getD (resLane dst w sr v x i).srCount j 0 =
    NMap.getD x.srCount j 0 + if sr ∧ j = i then 1 else 0 := by
  unfold resLane
  cases sr with
  | false => simp
  | true =>
    by_cases h : j = i
    · subst h; simp
    · simp [h, NMap.getD_put_other _ _ _ _ h]

/-- The results of every lane of a list: each lane's as if it were alone. -/
theorem eachLane_resLane (hd : dst < 256) (hw : w = 32 ∨ w = 64) (hv : OwnLane v) (x : TGroup) {lanes : List Nat} (hn : lanes.Nodup) :
    let y := eachLane x lanes (resLane dst w sr v)
    y = { x with regs := y.regs, srCount := if sr then y.srCount else x.srCount } ∧
      (∀ i k, k < 256 → ¬ (i ∈ lanes ∧ dst ≤ k ∧ k < dst + w / 32) → treg y i k = treg x i k) ∧
      (∀ i, NMap.getD y.srCount i 0 = NMap.getD x.srCount i 0 + if sr ∧ i ∈ lanes then 1 else 0) ∧
      ∀ i ∈ lanes, ∀ k, k < 256 → treg y i k = treg (setRes x i dst w (v x i).1 (v x i).2) i k := by
  induction lanes generalizing x with
  | nil => exact ⟨by cases sr <;> rfl, fun _ _ _ _ => rfl, fun i => by simp [eachLane], by simp⟩
  | cons j r ih =>
    obtain ⟨hj, hr⟩ := List.nodup_cons.1 hn
    obtain ⟨h1, h2, h3, h4⟩ := ih (resLane dst w sr v x j) hr
    have e : eachLane x (j :: r) (resLane dst w sr v) = eachLane (resLane dst w sr v x j) r (resLane dst w sr v) := rfl
    have hother i k (hk : k < 256) (h : ¬ (i = j ∧ dst ≤ k ∧ k < dst + w / 32)) : treg (resLane dst w sr v x j) i k = treg x i k :=
      setRes_other x _ hd hk h hw
    have hcount i (h : i ≠ j) : NMap.getD (resLane dst w sr v x j).srCount i 0 = NMap.getD x.srCount i 0 := by
      rw [srCount_resLane]; simp [h]
    rw [e]
    refine ⟨?_, fun i k hk h => ?_, fun i => ?_, fun i hi k hk => ?_⟩
    · rw [h1, resLane_frame x j]
      cases sr <;> rfl
    · rw [List.mem_cons, or_and_right, not_or] at h
      rw [h2 i k hk h.2, hother i k hk h.1]
    · rw [h3, srCount_resLane, Nat.add_assoc]
      by_cases hi : i = j
      · subst hi; simp [hj]
      · simp [hi]
    · rcases List.mem_cons.1 hi with rfl | hm
      · rw [h2 i k hk fun h => hj h.1]; rfl
      · have hij : i ≠ j := fun e => hj (e ▸ hm)
        have hregs k (hk : k < 256) : treg (resLane dst w sr v x j) i k = treg x i k := hother i k hk fun h => hij h.1
        rw [h4 i hm k hk, hv _ x i hregs (hcount i hij)]
        exact setRes_own _ _ _ hd hk (hregs k hk) hw

end

section
variable {s s1 : State} {site g : Nat} {l : Launch} {lanes : List Nat} {pc : DWord} {opOk : Launch → Bool}
  {uses : List RegUse} {unused : List Nat} {dst : BitVec 8} {w : Nat}

/-- A row whose effect is a result in each lane retires with those results, and changes nothing else. -/
theorem th_results (h : ThReady s site g l lanes pc s1) (hl : opOk l = true) (hw : w = 32 ∨ w = 64)
    (hf : ThFields s site g l lanes ({ r := dst.toNat, n := w / 32 } :: uses) unused (some { r := dst.toNat, n := w / 32 }))
    (sr : Bool) {v : TGroup → Nat → Nat × Bool} (hv : OwnLane v)
    (hlt : ∀ i, (v (groupOf (tileOf s1 site) g) i).1 < 2 ^ w) (f : ThEnv → State → TGroup → ThOut) (unit : Nat)
    (hs : f { launch := l, site := site, g := g, lanes := lanes, pc := pc } s1 (groupOf (tileOf s1 site) g) =
      .next (putGroup (countSample s1 { launch := l, site := site, g := g, lanes := lanes, pc := pc }) site g
        (eachLane (groupOf (tileOf s1 site) g) lanes (resLane dst.toNat w sr v)))) :
    let x := groupOf (tileOf s1 site) g
    ∃ t y, whenUp s (fun s => thStep s site g opOk ({ r := dst.toNat, n := w / 32 } :: uses) unused
        (some { r := dst.toNat, n := w / 32 }) f unit) = .next t ∧
      ThRetired s1 t l site g lanes y (fun _ => pc + 8) ∧
      y = { x with regs := y.regs, srCount := if sr then y.srCount else x.srCount } ∧
      (∀ i k, k < 255 → ¬ (i ∈ lanes ∧ dst.toNat ≤ k ∧ k < dst.toNat + w / 32) → treg y i k = treg x i k) ∧
      (∀ i, NMap.getD y.srCount i 0 = NMap.getD x.srCount i 0 + if sr ∧ i ∈ lanes then 1 else 0) ∧
      (dst ≠ 255 → ∀ i ∈ lanes, getSrc y i dst.toNat w = v x i) := by
  have hn : lanes.Nodup := h.leading ▸ leadingSet_nodup _
  obtain ⟨h1, h2, h3, h4⟩ := eachLane_resLane (sr := sr) dst.isLt hw hv (groupOf (tileOf s1 site) g) hn
  obtain ⟨t, ht, hr⟩ := th_retires h hl hf f unit hs ((Worked.countSample s1 _).putGroup _)
  refine ⟨t, _, ht, hr, h1, fun i k hk => h2 i k (by omega), h3, fun hd i hi => ?_⟩
  have hd : dst.toNat ≠ 255 := fun e => hd (BitVec.eq_of_toNat_eq e)
  have hfit : dst.toNat + w / 32 ≤ 255 := (hf.legal _ List.mem_cons_self).2.resolve_left hd
  rw [getSrc_congr dst.isLt (h4 i hi)]
  exact getSrc_setRes _ _ _ _ _ _ hw hfit (hlt i)

end

/-! ### The four classes -/

theorem resLane_false (dst w : Nat) (v : TGroup → Nat → Nat × Bool) (x : TGroup) (i : Nat) :
    resLane dst w false v x i = setRes x i dst w (v x i).1 (v x i).2 := by
  unfold resLane
  rw [setRes_frame]
  rfl

theorem getSrc_lt (x : TGroup) (i r : Nat) {w : Nat} (hw : w = 32 ∨ w = 64) : (getSrc x i r w).1 < 2 ^ w := by
  rcases hw with rfl | rfl
  · exact (treg x i r).val.isLt
  · exact (tpair x i r).val.isLt

theorem intWidth_cases (fn : Nat) : intWidth fn = 32 ∨ intWidth fn = 64 := by unfold intWidth; split <;> simp

theorem intWidth_eq (fn : Nat) : intWidth fn = if fn < 128 then 32 else 64 := by unfold intWidth; split <;> split <;> omega

theorem intArity_cases (fn : Nat) : intArity fn = 1 ∨ intArity fn = 2 ∨ intArity fn = 3 := by
  unfold intArity; split <;> [skip; split] <;> simp

theorem floatArity_cases (fn : Nat) : floatArity fn = 1 ∨ floatArity fn = 2 ∨ floatArity fn = 3 := by
  unfold floatArity; split <;> [skip; split] <;> simp

/-- Source k of n of a lane. -/
def srcArg (n k : Nat) (r : BitVec 8) (w : Nat) (x : TGroup) (i : Nat) : Nat × Bool :=
  if k ≤ n then getSrc x i r.toNat w else (0, false)

theorem OwnLane.srcArg (n k : Nat) (r : BitVec 8) (w : Nat) : OwnLane (srcArg n k r w) := by
  intro y z i h _
  unfold Machine.srcArg
  rw [getSrc_congr r.isLt h]

theorem srcArg_lt (n k : Nat) (r : BitVec 8) {w : Nat} (hw : w = 32 ∨ w = 64) (x : TGroup) (i : Nat) : (srcArg n k r w x i).1 < 2 ^ w :=
  by unfold srcArg; split; exacts [getSrc_lt x i _ hw, Nat.two_pow_pos w]

/-- A result from three sources of a lane. -/
def lane3 (n : Nat) (r1 r2 r3 : BitVec 8) (w : Nat) (fn : Nat → Nat → Nat → Nat) (x : TGroup) (i : Nat) : Nat × Bool :=
  let a := srcArg n 1 r1 w x i
  let b := srcArg n 2 r2 w x i
  let c := srcArg n 3 r3 w x i
  (fn a.1 b.1 c.1, a.2 || b.2 || c.2)

theorem OwnLane.lane3 (n : Nat) (r1 r2 r3 : BitVec 8) (w : Nat) (fn : Nat → Nat → Nat → Nat) : OwnLane (lane3 n r1 r2 r3 w fn) := by
  intro y z i h hc
  unfold Machine.lane3
  rw [OwnLane.srcArg n 1 r1 w y z i h hc, OwnLane.srcArg n 2 r2 w y z i h hc, OwnLane.srcArg n 3 r3 w y z i h hc]

/-- The integer ALU's result in a lane. -/
def intVal (f : TrF) : TGroup → Nat → Nat × Bool :=
  lane3 (intArity (f.fn.toNat % 128)) f.src1 f.src2 f.src3 (intWidth f.fn.toNat)
    fun a b c => (intFn (intWidth f.fn.toNat) (f.fn.toNat % 128) a b c).getD 0

theorem intVal_lt (f : TrF) (x : TGroup) (i : Nat) : (intVal f x i).1 < 2 ^ intWidth f.fn.toNat :=
  intFn_lt (intWidth_cases _) (srcArg_lt _ 1 f.src1 (intWidth_cases _) x i) (srcArg_lt _ 2 f.src2 (intWidth_cases _) x i) _

theorem intLane_eq (f : TrF) : intLane f = resLane f.dst.toNat (intWidth f.fn.toNat) false (intVal f) := by
  funext x i
  rw [resLane_false]
  have hk := intArity_cases (f.fn.toNat % 128)
  have h1 : 1 ≤ intArity (f.fn.toNat % 128) := by omega
  have h3 : intArity (f.fn.toNat % 128) = 3 ↔ 3 ≤ intArity (f.fn.toNat % 128) := by omega
  simp only [intLane, intVal, lane3, srcArg, h1, if_true, h3]

/-- The result in a lane of the integer ALU with an immediate. -/
def intImmVal (f : TiF) (x : TGroup) (i : Nat) : Nat × Bool :=
  let a := getSrc x i f.src1.toNat (intWidth f.fn.toNat)
  ((intFn (intWidth f.fn.toNat) (f.fn.toNat % 128) a.1 (f.imm.signExtend (intWidth f.fn.toNat)).toNat 0).getD 0, a.2)

theorem OwnLane.intImmVal (f : TiF) : OwnLane (intImmVal f) := by
  intro y z i h _
  unfold Machine.intImmVal
  rw [getSrc_congr f.src1.isLt h]

theorem intImmVal_lt (f : TiF) (x : TGroup) (i : Nat) : (intImmVal f x i).1 < 2 ^ intWidth f.fn.toNat :=
  intFn_lt (intWidth_cases _) (getSrc_lt x i _ (intWidth_cases _)) (BitVec.isLt _) _

theorem intImmLane_eq (f : TiF) : intImmLane f = resLane f.dst.toNat (intWidth f.fn.toNat) false (intImmVal f) := by
  funext x i
  have himm : (immTi f).toNat % 2 ^ intWidth f.fn.toNat = (f.imm.signExtend (intWidth f.fn.toNat)).toNat := by
    unfold immTi
    rcases intWidth_cases f.fn.toNat with h | h <;> rw [h]
    · rw [← BitVec.toNat_setWidth]
      exact congrArg _ (BitVec.eq_of_getLsbD_eq fun j hj => by
        simp [BitVec.getElem_signExtend, hj, hj.trans (by decide : 32 < 64)])
    · exact Nat.mod_eq_of_lt (BitVec.isLt _)
  simp only [resLane_false, intImmLane, intImmVal, himm]

/-- The float functions return on every operand or on none. -/
theorem floatFn_isSome (fn : Nat) (m m' : RMode) (a b c a' b' c' : Word) :
    (floatFn fn m a b c).isSome = (floatFn fn m' a' b' c').isSome := by
  simp only [floatFn, Option.isSome_map]
  unfold fltFn
  dsimp only
  split <;> simp only [Option.isSome_some, Option.isSome_none]

/-- The float ALU's result in a lane. -/
def floatVal (f : TrF) : TGroup → Nat → Nat × Bool :=
  lane3 (floatArity f.fn.toNat) f.src1 f.src2 f.src3 32 fun a b c =>
    ((floatFn f.fn.toNat (RMode.ofCode (f.mod.toNat % 4)) (BitVec.ofNat 32 a) (BitVec.ofNat 32 b) (BitVec.ofNat 32 c)).getD 0).toNat

theorem word_srcArg (n k : Nat) (r : BitVec 8) (x : TGroup) (i : Nat) :
    BitVec.ofNat 32 (srcArg n k r 32 x i).1 = (if k ≤ n then treg x i r.toNat else T32.zero).val := by
  unfold srcArg
  split
  · exact ofNat_toNat _
  · rfl

theorem poison_srcArg (n k : Nat) (r : BitVec 8) (x : TGroup) (i : Nat) :
    (srcArg n k r 32 x i).2 = (if k ≤ n then treg x i r.toNat else T32.zero).poison := by
  unfold srcArg
  split <;> rfl

theorem floatLane_eq (f : TrF) : floatLane f = resLane f.dst.toNat 32 false (floatVal f) := by
  funext x i
  rw [resLane_false]
  have hk := floatArity_cases f.fn.toNat
  have h1 : 1 ≤ floatArity f.fn.toNat := by omega
  have h3 : floatArity f.fn.toNat = 3 ↔ 3 ≤ floatArity f.fn.toNat := by omega
  simp only [floatLane, floatVal, lane3, word_srcArg, poison_srcArg, h1, if_true, h3, setRes, ofNat_toNat]
  rfl

/-- A conversion's result in a lane. -/
def convVal (f : TrF) (src dst : CFmt) (seed : DWord) (tile g : Nat) (x : TGroup) (i : Nat) : Nat × Bool :=
  (convert src dst (convMode f seed tile g x i) (8 ≤ f.mod.toNat) ((treg x i f.src1.toNat).val.toNat % 2 ^ src.bits),
    (treg x i f.src1.toNat).poison)

theorem OwnLane.convVal (f : TrF) (src dst : CFmt) (seed : DWord) (tile g : Nat) : OwnLane (convVal f src dst seed tile g) := by
  intro y z i h hc
  unfold Machine.convVal convMode
  rw [hc, h _ f.src1.isLt]

theorem clampInt_le (x : Int) {lo hi : Int} (h : lo ≤ hi) : clampInt x lo hi ≤ hi := by
  unfold clampInt
  split
  · exact h
  · split <;> omega

theorem toIntRange_le {lo hi : Int} (h : lo ≤ hi) (h0 : 0 ≤ hi) (mode : RMode) (v : Val) : toIntRange mode lo hi v ≤ hi := by
  cases v with
  | nan => exact h0
  | inf n => cases n; exacts [le_refl hi, h]
  | fin n m e st => exact clampInt_le _ h

theorem convert_lt (src dst : CFmt) (mode : RMode) (sat : Bool) (b : Nat) : convert src dst mode sat b < 2 ^ 32 := by
  cases dst with
  | flt f => exact round_lt ..
  | i32 => exact ofSigned_lt ..
  | u32 =>
    have h : toIntRange mode 0 4294967295 (src.value b) ≤ 4294967295 := toIntRange_le (by decide) (by decide) mode _
    exact (Int.toNat_le_toNat h).trans_lt (by decide)

theorem convLane_eq (f : TrF) {src dst : CFmt} (hs : CFmt.ofCode (f.fn.toNat / 16) = some src)
    (hd : CFmt.ofCode (f.fn.toNat % 16) = some dst) (seed : DWord) (tile g : Nat) :
    convLane f seed tile g = resLane f.dst.toNat 32 (f.mod.toNat % 8 == 4) (convVal f src dst seed tile g) := by
  funext x i
  unfold convLane resLane convVal
  simp only [hs, hd, setRes, show ¬ (32 = 64) by decide, if_false, beq_iff_eq]
  split
  · rfl
  · rw [setTreg_frame]

/-- The float ALU's encodings: a defined function, and a rounding mode where it rounds, zero otherwise. -/
theorem floatLegal_of {f : TrF} (hrsv : f.rsv = 0) (hfn : (floatFn f.fn.toNat .rne 0 0 0).isSome = true)
    (hmod : if f.fn.toNat ≤ 0x05 ∨ (0x0A ≤ f.fn.toNat ∧ f.fn.toNat ≤ 0x0C) then f.mod.toNat < 4 else f.mod = 0) : floatLegal f = true := by
  have hr : (floatRounds f.fn.toNat = true) = (f.fn.toNat ≤ 0x05 ∨ (0x0A ≤ f.fn.toNat ∧ f.fn.toNat ≤ 0x0C)) := by
    simp [floatRounds]
  unfold floatLegal
  simp only [hr]
  rw [hfn]
  split at hmod
  · rename_i h; simp [trClean, hrsv, hmod, h]
  · rename_i h; simp [trClean, hrsv, hmod, h]

/-- Settles O6: each class gives every lane a result of its own, which fits its registers. -/
theorem threadArithmetic : Obligations.ThreadArithmetic := by
  intro s site g l lanes pc s1 h
  refine ⟨fun f hrsv hmod hfn hf => ?_, fun f hfn hfn5 hf => ?_, fun f hrsv v hmod hf hv => ?_, fun f src dst hrsv hmod hne hsrc hdst hf => ?_⟩
  · rw [← intWidth_eq] at hf ⊢
    have hlegal : (trClean f && f.mod == 0 && decide (f.fn.toNat % 128 ≤ 0x1E)) = true := by simp [trClean, hrsv, hmod, hfn]
    exact th_results h (opOk := fun _ => trClean f && f.mod == 0 && decide (f.fn.toNat % 128 ≤ 0x1E)) hlegal (intWidth_cases _) hf
      false (v := intVal f) (OwnLane.lane3 _ _ _ _ _ _) (intVal_lt f _)
      (fun e s x => .next (putGroup (countSample s e) site g (eachLane x e.lanes (intLane f)))) 2 (by rw [← intLane_eq])
  · rw [← intWidth_eq] at hf ⊢
    have hlegal : (decide (f.fn.toNat % 128 ≤ 0x1D) && f.fn.toNat % 128 != 0x05) = true := by simp [hfn, hfn5]
    exact th_results h (opOk := fun _ => decide (f.fn.toNat % 128 ≤ 0x1D) && f.fn.toNat % 128 != 0x05) hlegal (intWidth_cases _) hf
      false (OwnLane.intImmVal f) (intImmVal_lt f _)
      (fun e s x => .next (putGroup (countSample s e) site g (eachLane x e.lanes (intImmLane f)))) 2 (by rw [← intImmLane_eq])
  · have hfn : (floatFn f.fn.toNat .rne 0 0 0).isSome = true := by
      rw [floatFn_isSome, hv 0]; rfl
    have hlegal := floatLegal_of hrsv hfn hmod
    obtain ⟨t, y, ht, hr, h1, h2, h3, h4⟩ := th_results h (opOk := fun _ => floatLegal f) hlegal (.inl rfl) hf
      false (v := floatVal f) (OwnLane.lane3 _ _ _ _ _ _) (fun i => BitVec.isLt _)
      (fun e s x => .next (putGroup (countSample s e) site g (eachLane x e.lanes (floatLane f)))) 2 (by rw [← floatLane_eq])
    refine ⟨t, y, ht, hr, h1, h2, h3, fun hd i hi => (h4 hd i hi).trans ?_⟩
    have hmod4 : f.mod.toNat % 4 = f.mod.toNat := Nat.mod_eq_of_lt (by split at hmod; exacts [hmod, by simp [hmod]])
    unfold floatVal lane3
    simp only [word_srcArg, poison_srcArg, hmod4]
    rw [hv i]
    rfl
  · have hlegal : convLegal f = true := by
      have : f.fn.toNat / 16 ≠ f.fn.toNat % 16 := fun e => hne (Option.some.inj (by rw [← hsrc, ← hdst, e]))
      simp [convLegal, trClean, hrsv, hsrc, hdst, this, hmod]
    exact th_results h (opOk := fun _ => convLegal f) hlegal (.inl rfl) hf (f.mod.toNat % 8 == 4)
      (OwnLane.convVal f src dst (ctxOf s1 l.ctx).seed (tileOf s1 site).index g) (fun i => convert_lt ..)
      (fun e s x => .next (putGroup (countSample s e) site g
        (eachLane x e.lanes (convLane f (ctxOf s e.launch.ctx).seed (tileOf s site).index g)))) 2 (by rw [← convLane_eq f hsrc hdst])

end Sys2Proof.Machine

end

section
/-! Illegal encodings of thread instructions (R104, R105). -/

set_option Elab.async false

namespace Sys2Proof.Machine

section
variable {s s1 : State} {site g : Nat} {l : Launch} {lanes : List Nat} {pc : DWord} {opOk : Launch → Bool}
  {uses : List RegUse} {unused : List Nat}

/-- A reserved encoding faults. -/
theorem th_reserved (h : ThReady s site g l lanes pc s1) (hl : opOk l = false) (uses : List RegUse) (unused : List Nat)
    (dst : Option RegUse) (f : ThEnv → State → TGroup → ThOut) :
    whenUp s (fun s => thStep s site g opOk uses unused dst f) =
      .next (tileFault s1 l site 2 illegalInstruction pc pc 0 g (maskOf lanes)) := by
  rw [whenUp_up _ h.up, thStep_illegal h]
  rw [hl]; rfl

/-- A register field that is not legal for REGS faults. -/
theorem th_badField (h : ThReady s site g l lanes pc s1) {u : RegUse} (hu : u ∈ uses) (hn : u.n ≤ 2)
    (hb : u.r ≠ 255 ∧ (l.regs < u.r + u.n ∨ u.r % u.n ≠ 0)) (opOk : Launch → Bool) (unused : List Nat)
    (dst : Option RegUse) (f : ThEnv → State → TGroup → ThOut) :
    whenUp s (fun s => thStep s site g opOk uses unused dst f) =
      .next (tileFault s1 l site 2 illegalInstruction pc pc 0 g (maskOf lanes)) := by
  have hok : RegUse.ok l.regs u = false := by
    unfold RegUse.ok
    rw [if_neg (by omega)]
    simp only [Bool.or_eq_false_iff, beq_eq_false_iff_ne, Bool.and_eq_false_iff, decide_eq_false_iff_not, Nat.not_le]
    exact hb
  have hall : uses.all (RegUse.ok l.regs) = false := List.all_eq_false.2 ⟨u, hu, by simp [hok]⟩
  rw [whenUp_up _ h.up, thStep_illegal h]
  rw [hall, Bool.and_false]; rfl

/-- A field that must hold 0xFF and does not faults. -/
theorem th_usedField (h : ThReady s site g l lanes pc s1) {r : Nat} (hr : r ∈ unused) (hb : r ≠ 255) (opOk : Launch → Bool)
    (uses : List RegUse) (dst : Option RegUse) (f : ThEnv → State → TGroup → ThOut) :
    whenUp s (fun s => thStep s site g opOk uses unused dst f) =
      .next (tileFault s1 l site 2 illegalInstruction pc pc 0 g (maskOf lanes)) := by
  have hall : unused.all (· == 255) = false := List.all_eq_false.2 ⟨r, hr, by simpa using hb⟩
  rw [whenUp_up _ h.up, thStep_illegal h]
  rw [hall, Bool.and_false]

end

theorem toNat_ne_255 {r : BitVec 8} (h : r ≠ 255) : r.toNat ≠ 255 := fun e => h (BitVec.eq_of_toNat_eq e)

theorem trClean_reserved {f : TrF} (h : f.rsv ≠ 0) : trClean f = false := beq_eq_false_iff_ne.2 h

theorem floatFn_reserved {fn : Nat} (h : 0x13 < fn) (mode : RMode) (a b c : Word) : floatFn fn mode a b c = none := by
  unfold floatFn fltFn
  dsimp only
  split
  case h_18 => rfl
  all_goals omega

/-- Settles O7: each encoding fails one of the checks made at issue. -/
theorem threadIllegal : Obligations.ThreadIllegal := by
  intro s site g l lanes pc s1 h
  refine ⟨fun f hf => ?_, fun f hf => ?_, fun f hf => ?_, fun f hf => ?_, fun f hf => ?_, fun f hf => ?_, fun f hf => ?_,
    fun f hfn hf => ?_, fun f hfn hf => ?_, fun f hfn hf => ?_⟩
  · have hw : (if f.fn.toNat < 128 then 1 else 2) = intWidth f.fn.toNat / 32 := by rw [intWidth_eq]; split <;> rfl
    have hn : intWidth f.fn.toNat / 32 ≤ 2 := by rw [← hw]; split <;> decide
    have hres (hl : (trClean f && f.mod == 0 && decide (f.fn.toNat % 128 ≤ 0x1E)) = false) :=
      th_reserved h (opOk := fun _ => trClean f && f.mod == 0 && decide (f.fn.toNat % 128 ≤ 0x1E)) hl
    rw [hw] at hf
    rcases hf with hf | hf | hf | hf | hf
    · exact hres (by rw [trClean_reserved hf]; rfl) _ _ _ _
    · exact hres (by rw [beq_eq_false_iff_ne.2 hf, Bool.and_false]; rfl) _ _ _ _
    · exact hres (by rw [decide_eq_false (Nat.not_le.2 hf), Bool.and_false]) _ _ _ _
    · exact th_badField h (u := ru f.dst (intWidth f.fn.toNat / 32)) (by simp) hn hf _ _ _ _
    · exact th_badField h (u := ru f.src1 (intWidth f.fn.toNat / 32)) (by simp) hn hf _ _ _ _
  · refine th_reserved h ?_ _ _ _ _
    rcases hf with hf | hf <;> simp [hf]
  · have hres (hl : floatLegal f = false) := th_reserved h (opOk := fun _ => floatLegal f) hl
    rcases hf with hf | hf | hf | hf
    · exact hres (by simp [floatLegal, trClean_reserved hf]) _ _ _ _
    · exact hres (by simp [floatLegal, floatFn_reserved hf]) _ _ _ _
    · have hz : f.mod ≠ 0 := fun e => by rw [e] at hf; exact absurd hf (by decide)
      refine hres ?_ _ _ _ _
      unfold floatLegal
      rw [decide_eq_false (Nat.not_lt.2 hf), beq_eq_false_iff_ne.2 hz, ite_self, Bool.and_false]
    · exact th_badField h (u := ru f.dst 1) (by simp) (by decide : 1 ≤ 2) hf _ _ _ _
  · have hres (hl : convLegal f = false) := th_reserved h (opOk := fun _ => convLegal f) hl
    rcases hf with hf | hf | hf | hf | hf
    · exact hres (by simp [convLegal, trClean_reserved hf]) _ _ _ _
    · exact hres (by simp [convLegal]; omega) _ _ _ _
    · exact hres (by simp [convLegal, hf]) _ _ _ _
    · exact th_usedField h (r := f.src2.toNat) (by simp) (toNat_ne_255 hf) _ _ _ _
    · exact th_usedField h (r := f.src3.toNat) (by simp) (toNat_ne_255 hf) _ _ _ _
  · rcases hf with hf | hf
    · exact th_reserved h (by simp [loadCode, hf]) _ _ _ _
    · exact th_badField h (u := ru f.src1 2) (by simp) (le_refl 2) hf _ _ _ _
  · have hres (hl : storeCode f.fn.toNat = false) := th_reserved h (opOk := fun _ => storeCode f.fn.toNat) hl
    rcases hf with hf | hf | hf | hf
    · exact hres (by simp [storeCode]; omega) _ _ _ _
    · exact hres (by simp [storeCode, hf]) _ _ _ _
    · exact hres (by simp [storeCode, hf]) _ _ _ _
    · exact th_badField h (u := ru f.src1 2) (by simp) (le_refl 2) hf _ _ _ _
  · have hres (hl : atomLegal f = false) := th_reserved h (opOk := fun _ => atomLegal f) hl
    rcases hf with hf | hf | hf | ⟨hf, hcas⟩
    · exact hres (by simp [atomLegal, trClean_reserved hf]) _ _ _ _
    · exact hres (by unfold atomLegal; rw [beq_eq_false_iff_ne.2 hf, Bool.and_false]; rfl) _ _ _ _
    · exact hres (by simp [atomLegal, hf, intWidth, atomFn]) _ _ _ _
    · exact th_usedField h (r := f.src3.toNat) (by simp [hcas]) (toNat_ne_255 hf) _ _ _ _
  · exact th_reserved h (by rw [beq_eq_false_iff_ne.2 hf, Bool.and_false]) _ _ _ _
  · exact th_reserved h (by simp [hf]) _ _ _ _
  · exact th_reserved h (by simp [hf]) _ _ _ _

end Sys2Proof.Machine
end

section
/-! The bytes of consecutive registers (R103, R109), and the loads of a thread group. -/

set_option Elab.async false

namespace Sys2Proof.Machine

/-! ### Bytes of registers -/

theorem leNat_lt (bs : List Byte) : leNat bs < 256 ^ bs.length := by
  induction bs with
  | nil => decide
  | cons b r ih =>
    have := b.isLt
    rw [leNat, List.length_cons, Nat.pow_succ]
    omega

theorem leBytes_leNat (bs : List Byte) : leBytes (leNat bs) bs.length = bs := by
  induction bs with
  | nil => rfl
  | cons b r ih =>
    have hb := b.isLt
    rw [leNat, List.length_cons, leBytes]
    congr 1
    · apply BitVec.eq_of_toNat_eq
      rw [BitVec.toNat_ofNat]
      omega
    · rw [show (b.toNat + 256 * leNat r) / 256 = leNat r by omega, ih]

theorem leNat_zeros (n : Nat) : leNat (List.replicate n 0) = 0 := by
  induction n with
  | zero => rfl
  | succ n ih => rw [List.replicate_succ, leNat, ih]; rfl

/-- Cut into words of four bytes, a list of bytes is those words one after another. -/
theorem flatten_words (bs : List Byte) (m : Nat) :
    ((List.range m).map fun j => (bs.drop (4 * j)).take 4).flatten = bs.take (4 * m) := by
  induction m with
  | zero => simp
  | succ m ih => rw [List.range_succ, List.map_append, List.flatten_append, ih, Nat.mul_succ, List.take_add]; simp

/-- A register of a lane after bytes have been written from register r on. -/
theorem treg_setTbytes (x : TGroup) (i : Nat) {r : Nat} (bs : List Byte) (p : Bool) (hr : r = 255 ∨ r + (bs.length + 3) / 4 ≤ 255)
    (j : Nat) {k : Nat} (hk : k < 256) : treg (setTbytes x i r bs p) j k =
      if j = i ∧ r ≠ 255 ∧ r ≤ k ∧ k < r + (bs.length + 3) / 4 then
        { val := BitVec.ofNat 32 (leNat ((bs.drop (4 * (k - r))).take 4)), poison := p }
      else treg x j k := by
  unfold setTbytes
  by_cases h255 : r = 255
  · simp [h255]
  have hr := hr.resolve_left h255
  rw [if_neg h255]
  generalize (bs.length + 3) / 4 = m at hr
  induction m with
  | zero => rw [if_neg (by omega)]; rfl
  | succ m ih =>
    rw [List.range_succ, List.foldl_append, List.foldl_cons, List.foldl_nil, treg_setTreg _ _ (by omega) hk, ih (by omega)]
    by_cases h : j = i ∧ k = r + m
    · obtain ⟨rfl, rfl⟩ := h
      rw [if_pos ⟨rfl, rfl, by omega⟩, if_pos ⟨rfl, h255, by omega, by omega⟩, Nat.add_sub_cancel_left]
    · rw [if_neg fun e => h ⟨e.1, e.2.1⟩]
      exact if_congr (by omega) rfl rfl

/-- The other registers. -/
theorem setTbytes_other (x : TGroup) {i r m j k : Nat} {bs : List Byte} (p : Bool) (hl : bs.length = 4 * m) (hr : r = 255 ∨ r + m ≤ 255)
    (hk : k < 256) (h : ¬ (j = i ∧ r ≤ k ∧ k < r + m)) : treg (setTbytes x i r bs p) j k = treg x j k := by
  have hw : (bs.length + 3) / 4 = m := by omega
  rw [treg_setTbytes x i bs p (by rw [hw]; exact hr) j hk, hw, if_neg fun hc => h ⟨hc.1, hc.2.2⟩]

theorem setTbytes_frame (x : TGroup) (i r : Nat) (bs : List Byte) (p : Bool) :
    setTbytes x i r bs p = { x with regs := (setTbytes x i r bs p).regs } := by
  unfold setTbytes
  split
  · rfl
  · induction (bs.length + 3) / 4 with
    | zero => rfl
    | succ m ih => rw [List.range_succ, List.foldl_append, List.foldl_cons, List.foldl_nil, setTreg_frame, ih]

/-- Registers that hold the words of a list of bytes read as those bytes. -/
theorem tbytes_of_words {y : TGroup} {i r m : Nat} {bs : List Byte} {p : Bool} (hr : r ≠ 255) (hm : 0 < m) (hl : bs.length = 4 * m)
    (h : ∀ j, j < m → treg y i (r + j) = { val := BitVec.ofNat 32 (leNat ((bs.drop (4 * j)).take 4)), poison := p }) :
    tbytes y i r (4 * m) = (bs, p) := by
  have hwords : ((List.range m).map fun j => if r = 255 then T32.zero else treg y i (r + j)) =
      (List.range m).map fun j => { val := BitVec.ofNat 32 (leNat ((bs.drop (4 * j)).take 4)), poison := p } :=
    List.map_congr_left fun j hj => by rw [if_neg hr, h j (List.mem_range.1 hj)]
  have hbytes (j : Nat) (hj : j ∈ List.range m) :
      leBytes (BitVec.ofNat 32 (leNat ((bs.drop (4 * j)).take 4))).toNat 4 = (bs.drop (4 * j)).take 4 := by
    have hj := List.mem_range.1 hj
    have hlen : ((bs.drop (4 * j)).take 4).length = 4 := by rw [List.length_take, List.length_drop]; omega
    have hlt := leNat_lt ((bs.drop (4 * j)).take 4)
    rw [hlen] at hlt
    rw [BitVec.toNat_ofNat, Nat.mod_eq_of_lt (show _ < 2 ^ 32 from hlt)]
    have hb := leBytes_leNat ((bs.drop (4 * j)).take 4)
    rwa [hlen] at hb
  unfold tbytes
  dsimp only
  rw [show (4 * m + 3) / 4 = m by omega, hwords, List.map_map]
  refine Prod.ext ?_ ?_
  · show List.take _ (List.map (fun j => leBytes (BitVec.ofNat 32 (leNat ((bs.drop (4 * j)).take 4))).toNat 4) _).flatten = bs
    rw [List.map_congr_left hbytes, flatten_words, List.take_take, Nat.min_self, ← hl, List.take_length]
  · rw [Bool.eq_iff_iff, List.any_eq_true]
    simp only [List.mem_map, List.mem_range]
    exact ⟨fun ⟨_, ⟨_, _, e⟩, hx⟩ => by rw [← e] at hx; exact hx, fun hp => ⟨_, ⟨0, hm, rfl⟩, hp⟩⟩

theorem tbytes_setTbytes (x : TGroup) (i : Nat) {r m : Nat} {bs : List Byte} (p : Bool) (hr : r + m ≤ 255) (hm : 0 < m)
    (hl : bs.length = 4 * m) : tbytes (setTbytes x i r bs p) i r (4 * m) = (bs, p) := by
  have hw : (bs.length + 3) / 4 = m := by omega
  refine tbytes_of_words (by omega) hm hl fun j hj => ?_
  rw [treg_setTbytes x i bs p (by omega) i (by omega), if_pos ⟨rfl, by omega, by omega, by omega⟩, Nat.add_sub_cancel_left]

theorem tbytes_congr {y z : TGroup} {i r n : Nat} (hr : r = 255 ∨ r + (n + 3) / 4 ≤ 255) (h : ∀ k, k < 256 → treg y i k = treg z i k) :
    tbytes y i r n = tbytes z i r n := by
  have hwords : ((List.range ((n + 3) / 4)).map fun j => if r = 255 then T32.zero else treg y i (r + j)) =
      (List.range ((n + 3) / 4)).map fun j => if r = 255 then T32.zero else treg z i (r + j) :=
    List.map_congr_left fun j hj => by
      have := List.mem_range.1 hj
      split
      · rfl
      · exact h _ (by omega)
  unfold tbytes
  dsimp only
  rw [hwords]

theorem tpair_congr {y z : TGroup} {i r : Nat} (hr : r < 256) (h : ∀ k, k < 256 → treg y i k = treg z i k) : tpair y i r = tpair z i r := by
  unfold tpair
  by_cases h255 : r = 255
  · simp [h255]
  · rw [h r hr, h (r + 1) (by omega)]

/-! ### Sizes of accesses (R109) -/

theorem fn_cases {fn : BitVec 8} (h : fn.toNat ≤ 6) : fn = 0 ∨ fn = 1 ∨ fn = 2 ∨ fn = 3 ∨ fn = 4 ∨ fn = 5 ∨ fn = 6 := by bv_omega

theorem sizeCode_dvd {fn : BitVec 8} (h : fn.toNat ≤ 6) : (sizeCode fn.toNat).1 ∣ 64 := by
  rcases fn_cases h with rfl | rfl | rfl | rfl | rfl | rfl | rfl <;> decide

theorem sizeCode_pos {fn : BitVec 8} (h : fn.toNat ≤ 6) : 0 < (sizeCode fn.toNat).1 := Nat.pos_of_dvd_of_pos (sizeCode_dvd h) (by decide)

/-- The register bytes of loaded bytes: narrow values extended to 32 bits (R109). -/
def regBytes (fn : BitVec 8) (bs : List Byte) : List Byte :=
  let n := (sizeCode fn.toNat).1
  if n = 1 ∧ fn = 1#8 ∨ n = 2 ∧ fn = 3#8
    then leBytes (BitVec.ofInt 32 (toSigned (8 * n) (leNat bs))).toNat 4 else leBytes (leNat bs) (4 * ((n + 3) / 4))

theorem ofSigned_eq (w : Nat) (x : Int) : ofSigned w x = (BitVec.ofInt w x).toNat := by
  rw [← ofNat_ofSigned, BitVec.toNat_ofNat, Nat.mod_eq_of_lt (ofSigned_lt w x)]

theorem extend_eq {fn : BitVec 8} (h : fn.toNat ≤ 6) {bs : List Byte} (hl : bs.length = (sizeCode fn.toNat).1) :
    extend fn.toNat bs = regBytes fn bs := by
  have hwide (n : Nat) (hn : bs.length = n) : bs = leBytes (leNat bs) n := by rw [← hn, leBytes_leNat]
  unfold extend regBytes
  rcases fn_cases h with rfl | rfl | rfl | rfl | rfl | rfl | rfl
  · rfl
  · simp [sizeCode, ofSigned_eq]
  · rfl
  · simp [sizeCode, ofSigned_eq]
  · exact hwide 4 hl
  · exact hwide 8 hl
  · exact hwide 16 hl

theorem length_regBytes {fn : BitVec 8} (h : fn.toNat ≤ 6) (bs : List Byte) :
    (regBytes fn bs).length = 4 * (((sizeCode fn.toNat).1 + 3) / 4) := by
  unfold regBytes
  rcases fn_cases h with rfl | rfl | rfl | rfl | rfl | rfl | rfl <;> exact length_leBytes ..

/-! ### Retiring after an access -/

/-- A row that is defined and goes on from another state at the next instruction retires there. -/
theorem th_retires_from {s s1 s2 s3 : State} {site g : Nat} {l : Launch} {lanes : List Nat} {pc : DWord} {opOk : Launch → Bool}
    {uses : List RegUse} {unused : List Nat} {dst : Option RegUse} {y : TGroup} (h : ThReady s site g l lanes pc s1)
    (hl : opOk l = true) (hf : ThFields s site g l lanes uses unused dst) (f : ThEnv → State → TGroup → ThOut) (unit : Nat)
    (hs : f { launch := l, site := site, g := g, lanes := lanes, pc := pc } s1 (groupOf (tileOf s1 site) g) = .next s3)
    (hw : Worked s2 s3 site g y) :
    ∃ t, whenUp s (fun s => thStep s site g opOk uses unused dst f unit) = .next t ∧
      ThRetired s2 t l site g lanes y fun _ => pc + 8 := by
  refine ⟨_, whenUp_up _ h.up, ?_⟩
  rw [thStep_ready h hl hf, hs]
  exact thRetire_retired hw _

/-- A lane's group with the loaded bytes in its registers, and a miss that it waits for. -/
structure LaneLoaded (x y : TGroup) (lanes : List Nat) (r n : Nat) : Prop where
  frame : y = { x with regs := y.regs, missPend := y.missPend }
  regs : ∀ i k, k < 256 → ¬ (i ∈ lanes ∧ r ≤ k ∧ k < r + n) → treg y i k = treg x i k

theorem after_succ (access : State → Nat → State) (s : State) (i : Nat) (r : List Nat) (k : Nat) :
    after access s (i :: r) (k + 1) = after access (access s i) r k := rfl

/-- What the load of a lane leaves (R289). -/
def ldAfter (site ctx g n : Nat) (va : Nat → DWord) (s : State) (i : Nat) : State :=
  match tileLoad s site ctx (va i) n with
  | (u, .ok (_, true)) => updTile u site fun t => takeMiss t g ((va i).toNat / 64)
  | (u, _) => u

theorem laneAddr_congr {f : TiF} {y z : TGroup} {i : Nat} (h : ∀ k, k < 256 → treg y i k = treg z i k) : laneAddr f y i = laneAddr f z i := by
  unfold laneAddr
  rw [tpair_congr f.src1.isLt h]

section
variable {f : TiF} {e : ThEnv} {va : Nat → DWord} {pa cp at_ : Nat → Nat}

/-- The group of a lane whose load has come: its bytes in registers, or on their way where the load has missed. -/
def ldGroup (f : TiF) (x : TGroup) (i : Nat) (bs : List Byte) (p miss : Bool) : TGroup :=
  let x := setTbytes x i f.dst.toNat (extend f.fn.toNat bs) p
  if miss ∧ f.dst.toNat ≠ 255 then
    { x with missPend := (List.range (sizeRegs f.fn.toNat)).foldl (fun l k => NSet.add l (i * 256 + f.dst.toNat + k)) x.missPend }
  else x

theorem treg_ldGroup (x : TGroup) (i : Nat) (bs : List Byte) (p miss : Bool) (j k : Nat) :
    treg (ldGroup f x i bs p miss) j k = treg (setTbytes x i f.dst.toNat (extend f.fn.toNat bs) p) j k := by
  unfold ldGroup
  dsimp only
  split <;> rfl

theorem ldGroup_frame (x : TGroup) (i : Nat) (bs : List Byte) (p miss : Bool) : ldGroup f x i bs p miss =
    { x with regs := (ldGroup f x i bs p miss).regs, missPend := (ldGroup f x i bs p miss).missPend } := by
  unfold ldGroup
  dsimp only
  split <;> rw [setTbytes_frame]

/-- One lane of LD. -/
theorem ldLanes_cons (hfn : f.fn.toNat ≤ 6) {s : State} {x : TGroup} {i : Nat} {pa cp at_ : Nat} {va : DWord} (r : List Nat)
    (ha : laneAddr f x i = { val := va, poison := false }) (hal : va.toNat % (sizeCode f.fn.toNat).1 = 0)
    (hr : Reaches s e.launch.ctx .read va pa cp at_) (hm : missFull (tileOf s e.site) = false) :
    ∃ t bs p miss, ldAfter e.site e.launch.ctx e.g (sizeCode f.fn.toNat).1 (fun _ => va) s i = t ∧
      ldLanes f e s x (i :: r) = ldLanes f e t (ldGroup f x i bs p miss) r ∧ TileMemoryOnly e.site s t ∧ BytesKept s t 0 0 at_ ∧
      Loaded s t e.site pa cp (sizeCode f.fn.toNat).1 bs p ∧ bs.length = (sizeCode f.fn.toNat).1 := by
  obtain ⟨s', bs, p, miss, he, ho, hb, hl, hlen, hmiss⟩ := tileLoad_loads (site := e.site) (sizeCode f.fn.toNat).1 hr
    (hr.outside (aligned_in_sector (sizeCode_dvd hfn) hal))
  have hfull : missFull (tileOf s' e.site) = false := by unfold missFull at hm ⊢; rw [hmiss]; exact hm
  unfold ldAfter
  rw [ldLanes]
  cases miss with
  | false =>
    refine ⟨s', bs, p, false, by rw [he], ?_, ho, hb, hl, hlen⟩
    simp [-BitVec.toNat_add, ha, he, hal, ldGroup]
  | true =>
    have hc := CacheOnly.takeMiss s' e.site e.g (va.toNat / 64)
    refine ⟨_, bs, p, true, by rw [he], ?_, ho.trans hc.only, fun a h1 h2 => (hc.cohByte a).trans (hb a h1 h2), ?_, hlen⟩
    · simp only [ha, he, hal, hfull, ldGroup]
      by_cases h255 : f.dst.toNat = 255 <;> simp [h255]
    · rcases hl with ⟨h1, h2⟩ | hl
      · exact .inl ⟨h1.trans (hc.cohBytes ..).symm, h2.trans (hc.cohPoison _).symm⟩
      · exact .inr hl

/-- LD lane by lane: each lane from the state that the one before it leaves. -/
theorem ldLanes_loads (hfn : f.fn.toNat ≤ 6) {regs : Nat} (hregs : regs = ((sizeCode f.fn.toNat).1 + 3) / 4)
    (hd : f.dst.toNat = 255 ∨ f.dst.toNat + regs ≤ 255) {lanes : List Nat} (hn : lanes.Nodup) (s : State) (x : TGroup)
    (ha : ∀ i ∈ lanes, laneAddr f x i = { val := va i, poison := false } ∧ (va i).toNat % (sizeCode f.fn.toNat).1 = 0)
    (hr : let σ := after (ldAfter e.site e.launch.ctx e.g (sizeCode f.fn.toNat).1 va) s lanes
      ∀ k i, lanes[k]? = some i → Reaches (σ k) e.launch.ctx .read (va i) (pa i) (cp i) (at_ i) ∧ missFull (tileOf (σ k) e.site) = false) :
    let n := (sizeCode f.fn.toNat).1
    let σ := after (ldAfter e.site e.launch.ctx e.g n va) s lanes
    ∃ y, ldLanes f e s x lanes = .next (putGroup (σ lanes.length) e.site e.g y) ∧ LaneLoaded x y lanes f.dst.toNat regs ∧
      TileMemoryOnly e.site s (σ lanes.length) ∧
      ∀ k i, lanes[k]? = some i → TileMemoryOnly e.site (σ k) (σ (k + 1)) ∧ BytesKept (σ k) (σ (k + 1)) 0 0 (at_ i) ∧
        ∃ bs p, Loaded (σ k) (σ (k + 1)) e.site (pa i) (cp i) n bs p ∧
          (f.dst.toNat ≠ 255 → tbytes y i f.dst.toNat (4 * regs) = (regBytes f.fn bs, p)) := by
  induction lanes generalizing s x with
  | nil => exact ⟨x, rfl, ⟨rfl, fun _ _ _ _ => rfl⟩, .refl e.site s, fun k i h => by simp at h⟩
  | cons i r ih =>
    obtain ⟨hi, hnr⟩ := List.nodup_cons.1 hn
    obtain ⟨hai, hali⟩ := ha i List.mem_cons_self
    obtain ⟨hri, hmi⟩ := hr 0 i rfl
    obtain ⟨t, bs, p, miss, ht, hstep, ho, hb, hl, hlen⟩ := ldLanes_cons (s := s) hfn r hai hali hri hmi
    have ht' : ldAfter e.site e.launch.ctx e.g (sizeCode f.fn.toNat).1 va s i = t := ht
    have hext := extend_eq hfn hlen
    have hlenr : (extend f.fn.toNat bs).length = 4 * regs := by rw [hext, length_regBytes hfn, hregs]
    have hpos : 0 < regs := by have := sizeCode_pos hfn; omega
    have hother j k (hk : k < 256) (h : ¬ (j = i ∧ f.dst.toNat ≤ k ∧ k < f.dst.toNat + regs)) :
        treg (ldGroup f x i bs p miss) j k = treg x j k := by
      rw [treg_ldGroup, setTbytes_other x p hlenr hd hk h]
    obtain ⟨y, hy, hload, hall, hlanes⟩ := ih hnr t (ldGroup f x i bs p miss) (fun j hj => by
        rw [laneAddr_congr fun k hk => hother j k hk fun h => hi (h.1 ▸ hj)]
        exact ha j (List.mem_cons_of_mem _ hj))
      (fun k j hk => by
        have := hr (k + 1) j hk
        rwa [after_succ, ht'] at this)
    refine ⟨y, ?_, ⟨?_, fun j k hk h => ?_⟩, ?_, fun k j hk => ?_⟩
    · rw [hstep, hy, List.length_cons, after_succ, ht']
    · rw [hload.frame, ldGroup_frame]
    · rw [List.mem_cons, or_and_right, not_or] at h
      rw [hload.regs j k hk h.2, hother j k hk h.1]
    · rw [List.length_cons, after_succ, ht']; exact ho.trans hall
    · cases k with
      | zero =>
        obtain rfl : i = j := by simpa using hk
        rw [show after (ldAfter e.site e.launch.ctx e.g (sizeCode f.fn.toNat).1 va) s (i :: r) 0 = s from rfl,
          show after (ldAfter e.site e.launch.ctx e.g (sizeCode f.fn.toNat).1 va) s (i :: r) (0 + 1) = t from ht']
        refine ⟨ho, hb, bs, p, hl, fun h255 => ?_⟩
        rw [tbytes_congr (z := setTbytes x i f.dst.toNat (extend f.fn.toNat bs) p) (by omega) fun k hk => by
          rw [hload.regs i k hk fun h => hi h.1, treg_ldGroup], ← hext]
        exact tbytes_setTbytes x i p (hd.resolve_left h255) hpos hlenr
      | succ k =>
        rw [after_succ, after_succ, ht']
        exact hlanes k j hk

end

/-! ### Loads of the tile store (R109) -/

theorem insert_insert {β : Type} (m : NMap β) (k : Nat) (v w : β) : NMap.insert (NMap.insert m k v) k w = NMap.insert m k w := by
  induction m with
  | nil => simp [NMap.insert]
  | cons e r ih =>
    obtain ⟨j, u⟩ := e
    by_cases h1 : k < j
    · simp [NMap.insert, h1]
    · by_cases h2 : k = j
      · simp [NMap.insert, h2]
      · simp [NMap.insert, h1, h2, ih]

theorem toNat_satAdd {w : Nat} (a b : BitVec w) : (satAdd a b).toNat = min (a.toNat + b.toNat) (2 ^ w - 1) := by
  have := Nat.two_pow_pos w
  unfold satAdd
  split
  · rw [BitVec.toNat_add, Nat.mod_eq_of_lt ‹_›]; omega
  · rw [BitVec.toNat_allOnes]; omega

/-- A counter that rises once and then n times more rises n + 1 times. -/
theorem bump_bump (s : State) (t i w n : Nat) : bump (bump s t i w 1) t i w n = bump s t i w (n + 1) := by
  have hne (a : DWord) {n : Nat} (hn : 0 < n) : satAdd a (BitVec.ofNat 64 (min n (2 ^ 64 - 1))) ≠ 0 := fun e => by
    have := congrArg BitVec.toNat e
    rw [toNat_satAdd, BitVec.toNat_ofNat, Nat.mod_eq_of_lt (by omega)] at this
    simp only [BitVec.ofNat_eq_ofNat, BitVec.toNat_ofNat, Nat.zero_mod] at this
    omega
  rcases Nat.eq_zero_or_pos n with rfl | hn
  · rfl
  · have hsum (a : DWord) : satAdd (satAdd a (BitVec.ofNat 64 (min 1 (2 ^ 64 - 1)))) (BitVec.ofNat 64 (min n (2 ^ 64 - 1))) =
        satAdd a (BitVec.ofNat 64 (min (n + 1) (2 ^ 64 - 1))) := by
      apply BitVec.eq_of_toNat_eq
      have := a.isLt
      rw [toNat_satAdd, toNat_satAdd, toNat_satAdd, BitVec.toNat_ofNat, BitVec.toNat_ofNat, BitVec.toNat_ofNat,
        Nat.mod_eq_of_lt (by omega), Nat.mod_eq_of_lt (by omega), Nat.mod_eq_of_lt (by omega)]
      omega
    have h1 : bump s t i w 1 = setCounter s t i w (satAdd (counter s t i w) (BitVec.ofNat 64 (min 1 (2 ^ 64 - 1)))) := rfl
    rw [bump, if_neg (by omega), counter_bump, hsum, h1, bump, if_neg (by omega)]
    unfold setCounter NMap.put
    rw [if_neg (hne _ (by omega)), if_neg (hne _ (by omega)), if_neg (hne _ (by omega))]
    dsimp only
    rw [insert_insert]

theorem storeFinding_quiet {s : State} (h : noFaults s = true) (ctx site off : Nat) : storeFinding s ctx site off = s := by
  unfold storeFinding
  rw [fireTile_none h]

theorem tsRead_inside {s : State} (h : noFaults s = true) {l : Launch} {site off n : Nat} (hn : 0 < n) (hs : off % 64 + n ≤ 64)
    (hin : off + n ≤ l.store * 1024) : tsRead s l site off n =
      (s, ((List.range n).map fun j => storeByte (tileOf s site) (off + j), NSet.has (tileOf s site).storePoison (off / 64))) := by
  unfold tsRead storeBytes
  rw [if_pos hin, storeFinding_quiet h, pieces_one hn hs]
  dsimp only
  rw [List.any_cons, List.any_nil, Bool.or_false]

theorem tsRead_outside (s : State) {l : Launch} {site off n : Nat} (hin : l.store * 1024 < off + n) :
    tsRead s l site off n = (bump s 1 site 10 1, (List.replicate n 0, false)) := by
  unfold tsRead storeBytes
  rw [if_neg (by omega)]

theorem regBytes_zeros {fn : BitVec 8} (h : fn.toNat ≤ 6) (n : Nat) :
    regBytes fn (List.replicate n 0) = leBytes 0 (4 * (((sizeCode fn.toNat).1 + 3) / 4)) := by
  unfold regBytes
  rw [leNat_zeros]
  rcases fn_cases h with rfl | rfl | rfl | rfl | rfl | rfl | rfl <;> decide

theorem laneOff_congr {f : TiF} {y z : TGroup} {i : Nat} (h : ∀ k, k < 256 → treg y i k = treg z i k) : laneOff f y i = laneOff f z i := by
  unfold laneOff
  rw [h _ f.src1.isLt]

section
variable {f : TiF} {e : ThEnv} {off : Nat → Nat}

/-- What LDS loads in a lane: the bytes of the allocation, or zeros beyond it. -/
def ldsBytes (l : Launch) (t : Tile) (n off : Nat) : List Byte × Bool :=
  if off + n ≤ l.store * 1024 then ((List.range n).map fun j => storeByte t (off + j), NSet.has t.storePoison (off / 64))
  else (List.replicate n 0, false)

theorem regBytes_ldsBytes {fn : BitVec 8} (h : fn.toNat ≤ 6) (l : Launch) (t : Tile) (off : Nat) : let n := (sizeCode fn.toNat).1
    (regBytes fn (ldsBytes l t n off).1, (ldsBytes l t n off).2) =
      if off + n ≤ l.store * 1024 then
        (regBytes fn ((List.range n).map fun j => storeByte t (off + j)), NSet.has t.storePoison (off / 64))
      else (leBytes 0 (4 * ((n + 3) / 4)), false) := by
  unfold ldsBytes
  dsimp only
  split
  · rfl
  · rw [regBytes_zeros h]

/-- LDS lane by lane. -/
theorem ldsLanes_loads (hfn : f.fn.toNat ≤ 6) {regs : Nat} (hregs : regs = ((sizeCode f.fn.toNat).1 + 3) / 4)
    (hd : f.dst.toNat = 255 ∨ f.dst.toNat + regs ≤ 255) {lanes : List Nat} (hn : lanes.Nodup) {s : State} (hq : noFaults s = true) (x : TGroup)
    (ha : ∀ i ∈ lanes, laneOff f x i = (off i, false) ∧ off i % (sizeCode f.fn.toNat).1 = 0) :
    let n := (sizeCode f.fn.toNat).1
    ∃ y, ldsLanes f e s x lanes = .next (putGroup (bump s 1 e.site 10
        (lanes.filter fun i => e.launch.store * 1024 < off i + n).length) e.site e.g y) ∧
      y = { x with regs := y.regs } ∧
      (∀ i k, k < 256 → ¬ (i ∈ lanes ∧ f.dst.toNat ≤ k ∧ k < f.dst.toNat + regs) → treg y i k = treg x i k) ∧
      ∀ i ∈ lanes, f.dst.toNat ≠ 255 → tbytes y i f.dst.toNat (4 * regs) =
        (regBytes f.fn (ldsBytes e.launch (tileOf s e.site) n (off i)).1, (ldsBytes e.launch (tileOf s e.site) n (off i)).2) := by
  induction lanes generalizing s x with
  | nil => exact ⟨x, rfl, rfl, fun _ _ _ _ => rfl, by simp⟩
  | cons i r ih =>
    obtain ⟨hi, hnr⟩ := List.nodup_cons.1 hn
    obtain ⟨hai, hali⟩ := ha i List.mem_cons_self
    have hsec := aligned_in_sector (sizeCode_dvd hfn) hali
    generalize hv : ldsBytes e.launch (tileOf s e.site) (sizeCode f.fn.toNat).1 (off i) = v
    have hlen : v.1.length = (sizeCode f.fn.toNat).1 := by rw [← hv]; unfold ldsBytes; split <;> simp
    have hext := extend_eq hfn hlen
    have hlenr : (extend f.fn.toNat v.1).length = 4 * regs := by rw [hext, length_regBytes hfn, hregs]
    have hpos : 0 < regs := by have := sizeCode_pos hfn; omega
    have hother j k (hk : k < 256) (h : ¬ (j = i ∧ f.dst.toNat ≤ k ∧ k < f.dst.toNat + regs)) :
        treg (setTbytes x i f.dst.toNat (extend f.fn.toNat v.1) v.2) j k = treg x j k :=
      setTbytes_other x _ hlenr hd hk h
    have hread : ∃ s', tsRead s e.launch e.site (off i) (sizeCode f.fn.toNat).1 = (s', v) ∧ noFaults s' = true ∧
        tileOf s' e.site = tileOf s e.site ∧ ∀ m, bump s' 1 e.site 10 m =
          bump s 1 e.site 10 (m + if e.launch.store * 1024 < off i + (sizeCode f.fn.toNat).1 then 1 else 0) := by
      rw [← hv]
      unfold ldsBytes
      by_cases hin : off i + (sizeCode f.fn.toNat).1 ≤ e.launch.store * 1024
      · rw [tsRead_inside hq (sizeCode_pos hfn) hsec hin, if_pos hin, if_neg (by omega)]
        exact ⟨s, rfl, hq, rfl, fun _ => rfl⟩
      · rw [tsRead_outside s (by omega), if_neg hin, if_pos (by omega)]
        exact ⟨_, rfl, hq, tileOf_bump .., fun m => bump_bump s 1 e.site 10 m⟩
    obtain ⟨s', hs', hq', ht', hb'⟩ := hread
    obtain ⟨y, hy, hframe, hregs', hlanes⟩ := ih hnr hq' (setTbytes x i f.dst.toNat (extend f.fn.toNat v.1) v.2) (fun j hj => by
        rw [laneOff_congr fun k hk => hother j k hk fun h => hi (h.1 ▸ hj)]
        exact ha j (List.mem_cons_of_mem _ hj))
    refine ⟨y, ?_, ?_, fun j k hk h => ?_, fun j hj h255 => ?_⟩
    · rw [ldsLanes]
      simp only [hai, hali, hs', Bool.false_eq_true, if_false, ne_eq, not_true_eq_false]
      rw [hy, hb', List.filter_cons]
      by_cases hc : e.launch.store * 1024 < off i + (sizeCode f.fn.toNat).1
      · rw [if_pos hc, if_pos (decide_eq_true hc), List.length_cons]
      · rw [if_neg hc, if_neg (by simpa using hc), Nat.add_zero]
    · rw [hframe, setTbytes_frame]
    · rw [List.mem_cons, or_and_right, not_or] at h
      rw [hregs' j k hk h.2, hother j k hk h.1]
    · rcases List.mem_cons.1 hj with rfl | hm
      · rw [tbytes_congr (z := setTbytes x j f.dst.toNat (extend f.fn.toNat v.1) v.2) (by omega) fun k hk => hregs' j k hk fun h => hi h.1,
          hv, ← hext]
        exact tbytes_setTbytes x j v.2 (hd.resolve_left h255) hpos hlenr
      · rw [← ht']; exact hlanes j hm h255

end

/-- Settles O8: a lane's load changes no register of another lane, so each lane loads from where the lane before it left the memory. -/
theorem threadLoads : Obligations.ThreadLoads := by
  intro s site g l lanes pc s1 f h hfn
  have hn : lanes.Nodup := h.leading ▸ leadingSet_nodup _
  have hlegal : loadCode f.fn.toNat = true := decide_eq_true hfn
  have hval (i : Nat) (x : T64) (hp : x.poison = false) (v : DWord) : ({ val := x.val + v, poison := x.poison } : T64) = { val := x.val + v, poison := false } := by
    rw [hp]
  refine ⟨fun hf pa cp at_ ha hr => ?_, fun hf ha => ?_⟩
  · have hd := (hf.legal _ List.mem_cons_self).2
    obtain ⟨y, hy, hload, hall, hlanes⟩ := ldLanes_loads (f := f) (e := { launch := l, site := site, g := g, lanes := lanes, pc := pc })
      hfn rfl hd hn s1 (groupOf (tileOf s1 site) g) (fun i hi => ⟨hval i _ (ha i hi).1 _, (ha i hi).2⟩) hr
    obtain ⟨t, ht, hret⟩ := th_retires_from h (opOk := fun _ => loadCode f.fn.toNat) hlegal hf
      (fun e s x => ldLanes f e s x e.lanes) 2 hy ((Worked.refl _ site g).putGroup y)
    exact ⟨t, y, ht, hret, hload.frame, fun i k hk => hload.regs i k (by omega), fun k i hk => by
      obtain ⟨h1, h2, bs, p, h3, h4⟩ := hlanes k i hk
      exact ⟨h1, h2, bs, p, h3, fun hd => h4 (toNat_ne_255 hd)⟩⟩
  · have hd := (hf.legal _ List.mem_cons_self).2
    obtain ⟨y, hy, hframe, hregs, hlanes⟩ := ldsLanes_loads (f := f) (e := { launch := l, site := site, g := g, lanes := lanes, pc := pc })
      hfn rfl hd hn h.quiet (groupOf (tileOf s1 site) g) (fun i hi => ⟨Prod.ext rfl (ha i hi).1, (ha i hi).2⟩)
    obtain ⟨t, ht, hret⟩ := th_retires_from h (opOk := fun _ => loadCode f.fn.toNat) hlegal hf
      (fun e s x => ldsLanes f e s x e.lanes) 2 hy ((Worked.refl _ site g).putGroup y)
    exact ⟨t, y, _, ht, hret, rfl, hframe, fun i k hk => hregs i k (by omega), fun i hi hd =>
      (hlanes i hi (toNat_ne_255 hd)).trans (regBytes_ldsBytes hfn ..)⟩

end Sys2Proof.Machine
end

section
/-! The stores of a thread group, in memory and in the tile store (R109, R289). -/

set_option Elab.async false

namespace Sys2Proof.Machine

theorem length_tbytes (x : TGroup) (i r n : Nat) : (tbytes x i r n).1.length = n := by
  have h (ws : List T32) : ((ws.map fun w => leBytes w.val.toNat 4).flatten).length = 4 * ws.length := by
    induction ws with
    | nil => rfl
    | cons w r ih => rw [List.map_cons, List.flatten_cons, List.length_append, ih, length_leBytes, List.length_cons]; omega
  unfold tbytes
  dsimp only
  rw [List.length_take, h, List.length_map, List.length_range]
  omega

/-! ### Stores to memory -/

/-- The state after the store of a lane (R289). -/
def stAfter (site ctx g : Nat) (va : Nat → DWord) (data : Nat → List Byte × Bool) (s : State) (i : Nat) : State :=
  (tileStore s site (some (g * 32 + i)) ctx (va i) (data i).1 (data i).2).1

section
variable {f : TiF} {e : ThEnv} {va : Nat → DWord} {pa cp at_ : Nat → Nat}

/-- ST lane by lane: each lane from the state that the one before it leaves. -/
theorem stLanes_stores {n : Nat} (hn : n = (sizeCode f.fn.toNat).1) (hdvd : n ∣ 64) {x : TGroup} {lanes : List Nat} (s : State)
    (ha : ∀ i ∈ lanes, laneAddr f x i = { val := va i, poison := false } ∧ (va i).toNat % n = 0)
    (hr : let σ := after (stAfter e.site e.launch.ctx e.g va fun i => tbytes x i f.dst.toNat n) s lanes
      ∀ k i, lanes[k]? = some i → Reaches (σ k) e.launch.ctx .write (va i) (pa i) (cp i) (at_ i) ∧ frozenSector (σ k) (pa i / 64) = false) :
    let σ := after (stAfter e.site e.launch.ctx e.g va fun i => tbytes x i f.dst.toNat n) s lanes
    stLanes f e s x lanes = .next (σ lanes.length) ∧ TileMemoryOnly e.site s (σ lanes.length) ∧
      ∀ k i, lanes[k]? = some i → TileMemoryOnly e.site (σ k) (σ (k + 1)) ∧ BytesKept (σ k) (σ (k + 1)) (pa i) n (at_ i) ∧
        cohBytes (σ (k + 1)) (pa i) n = (tbytes x i f.dst.toNat n).1 := by
  induction lanes generalizing s with
  | nil => exact ⟨rfl, .refl e.site s, fun k i h => by simp at h⟩
  | cons i r ih =>
    obtain ⟨hai, hali⟩ := ha i List.mem_cons_self
    obtain ⟨hri, hfi⟩ := hr 0 i rfl
    have hlen := length_tbytes x i f.dst.toNat n
    obtain ⟨t, he, ho, hb, hc⟩ := tileStore_stores (site := e.site) (issuer := some (e.g * 32 + i)) (s := s) (tbytes x i f.dst.toNat n).1
      (tbytes x i f.dst.toNat n).2 hri hfi (by rw [hlen]; exact aligned_in_sector hdvd hali)
    rw [hlen] at hb hc
    have ht : stAfter e.site e.launch.ctx e.g va (fun i => tbytes x i f.dst.toNat n) s i = t := by unfold stAfter; rw [he]
    obtain ⟨hst, hall, hlanes⟩ := ih t (fun j hj => ha j (List.mem_cons_of_mem _ hj)) (fun k j hk => by
      have := hr (k + 1) j hk
      rwa [after_succ, ht] at this)
    refine ⟨?_, ?_, fun k j hk => ?_⟩
    · rw [List.length_cons, after_succ, ht, ← hst, stLanes, ← hn]
      simp [-BitVec.toNat_add, hai, hali, he]
    · rw [List.length_cons, after_succ, ht]; exact ho.trans hall
    · cases k with
      | zero =>
        obtain rfl : i = j := by simpa using hk
        rw [show after (stAfter e.site e.launch.ctx e.g va fun i => tbytes x i f.dst.toNat n) s (i :: r) (0 + 1) = t from ht]
        exact ⟨ho, hb, hc⟩
      | succ k =>
        rw [after_succ, after_succ, ht]
        exact hlanes k j hk

end

/-! ### Stores to the tile store -/

theorem junkByte_junkByte (junk : Option Nat) (k : Nat) (b : Byte) : junkByte junk k (junkByte junk k b) = b := by
  unfold junkByte
  cases junk with
  | none => rfl
  | some n => dsimp only; rw [BitVec.xor_assoc, BitVec.xor_self, BitVec.xor_zero]

/-- A byte of the tile store after bytes have been put at off. -/
theorem storeByte_tsPut (t : Tile) (off : Nat) (bs : List Byte) (p : Bool) (a : Nat) : storeByte (tsPut t off bs p) a =
    if off ≤ a ∧ a < off + bs.length then (bs[a - off]?).getD 0 else storeByte t a := by
  have hlen : (bs.zipIdx.map fun b => junkByte t.storeJunk (off + b.2) b.1).length = bs.length := by simp
  show junkByte t.storeJunk a (NMap.getD (memPut t.store off _) a 0) = _
  split
  · rename_i h
    obtain ⟨j, rfl⟩ := Nat.exists_eq_add_of_le h.1
    have hj : j < bs.length := by omega
    rw [memByte_memPut_inside off _ (by rw [hlen]; exact hj), List.getElem_map, List.getElem_zipIdx, Nat.add_sub_cancel_left,
      List.getElem?_eq_getElem hj]
    simp only [Nat.zero_add, junkByte_junkByte, Option.getD_some]
  · rename_i h
    rw [memByte_memPut_outside off _ (by rw [hlen]; omega)]
    rfl

section
variable {f : TiF} {e : ThEnv} {off : Nat → Nat}

/-- From s to t a lane list has stored n bytes each at its offset in the tile store, those beyond the allocation counted. -/
structure StsDone (s t : State) (l : Launch) (site n : Nat) (lanes : List Nat) (off : Nat → Nat) (data : Nat → List Byte) : Prop where
  frame : TilesCounters s t
  tiles : ∀ k, k ≠ site → tileOf t k = tileOf s k
  tile : tileOf t site = { tileOf s site with store := (tileOf t site).store, storePoison := (tileOf t site).storePoison }
  counters : t.counters = (bump s 1 site 10 (lanes.filter fun i => l.store * 1024 < off i + n).length).counters
  bytes : ∀ a, storeByte (tileOf t site) a =
    match lanes.reverse.find? fun i => decide (off i + n ≤ l.store * 1024 ∧ off i ≤ a ∧ a < off i + n) with
    | some i => ((data i)[a - off i]?).getD 0
    | none => storeByte (tileOf s site) a

theorem bump_counters_congr {s u : State} (h : u.counters = s.counters) (t i w n : Nat) :
    (bump u t i w n).counters = (bump s t i w n).counters := by
  unfold bump
  split
  · exact h
  · unfold setCounter counter
    dsimp only
    rw [h]

theorem find_reverse_cons {α : Type} (p : α → Bool) (i : α) (r : List α) :
    (i :: r).reverse.find? p = (r.reverse.find? p).or (if p i then some i else none) := by
  rw [List.reverse_cons, List.find?_append, List.find?_cons]
  cases p i <;> rfl

theorem StsDone.cons {s u t : State} {l : Launch} {site n i : Nat} {r : List Nat} {data : Nat → List Byte} {p : Bool}
    (hlen : (data i).length = n) (hu : tsWrite s l site (off i) (data i) p = u) (h : StsDone u t l site n r off data) :
    StsDone s t l site n (i :: r) off data := by
  have hfind a := find_reverse_cons (fun i => decide (off i + n ≤ l.store * 1024 ∧ off i ≤ a ∧ a < off i + n)) i r
  unfold tsWrite storeBytes at hu
  rw [hlen] at hu
  by_cases hin : off i + n ≤ l.store * 1024
  · rw [if_pos hin] at hu
    subst hu
    have htile := tileOf_updTile_same s site fun t => tsPut t (off i) (data i) p
    constructor
    · exact (TilesCounters.updTile ..).trans h.frame
    · intro k hk; rw [h.tiles k hk, tileOf_updTile_other _ _ _ hk]
    · rw [h.tile, htile]; rfl
    · rw [h.counters, List.filter_cons_of_neg (by simpa using hin)]
      refine bump_counters_congr ?_ ..
      rfl
    · intro a
      rw [h.bytes a, hfind a, htile, storeByte_tsPut, hlen]
      cases r.reverse.find? fun i => decide (off i + n ≤ l.store * 1024 ∧ off i ≤ a ∧ a < off i + n) with
      | some j => rfl
      | none =>
        by_cases ha : off i ≤ a ∧ a < off i + n
        · rw [if_pos ha, Option.none_or, if_pos (decide_eq_true ⟨hin, ha⟩)]
        · rw [if_neg ha, Option.none_or, if_neg fun hc => ha (of_decide_eq_true hc).2]
  · rw [if_neg hin] at hu
    subst hu
    constructor
    · exact (TilesCounters.bump ..).trans h.frame
    · intro k hk; rw [h.tiles k hk, tileOf_bump]
    · rw [h.tile, tileOf_bump]
    · rw [h.counters, bump_bump, List.filter_cons_of_pos (by simpa using hin), List.length_cons]
    · intro a
      rw [h.bytes a, hfind a, tileOf_bump]
      cases r.reverse.find? fun i => decide (off i + n ≤ l.store * 1024 ∧ off i ≤ a ∧ a < off i + n) with
      | some j => rfl
      | none => rw [Option.none_or, if_neg fun hc => hin (of_decide_eq_true hc).1]

/-- STS lane by lane. -/
theorem stsLanes_stores {n : Nat} (hn : n = (sizeCode f.fn.toNat).1) {x : TGroup} {lanes : List Nat} (s : State)
    (ha : ∀ i ∈ lanes, laneOff f x i = (off i, false) ∧ off i % n = 0) :
    ∃ t, stsLanes f e s x lanes = .next t ∧ StsDone s t e.launch e.site n lanes off fun i => (tbytes x i f.dst.toNat n).1 := by
  induction lanes generalizing s with
  | nil => exact ⟨s, rfl, .refl s, fun _ _ => rfl, rfl, rfl, fun _ => rfl⟩
  | cons i r ih =>
    obtain ⟨hai, hali⟩ := ha i List.mem_cons_self
    obtain ⟨t, ht, hd⟩ := ih (tsWrite s e.launch e.site (off i) (tbytes x i f.dst.toNat n).1 (tbytes x i f.dst.toNat n).2)
      fun j hj => ha j (List.mem_cons_of_mem _ hj)
    refine ⟨t, ?_, .cons (length_tbytes ..) rfl hd⟩
    rw [← ht, stsLanes, ← hn]
    simp [hai, hali]

end

/-- Settles O9: a lane's store leaves the registers, so each lane stores from where the lane before it left the memory; of two
stores to one byte of the tile store the later lane's stays. -/
theorem threadStores : Obligations.ThreadStores := by
  intro s site g l lanes pc s1 f h hfn h1 h3
  have hlegal : storeCode f.fn.toNat = true := by
    rcases fn_cases hfn with e | e | e | e | e | e | e
    · rw [e]; rfl
    · exact absurd e h1
    · rw [e]; rfl
    · exact absurd e h3
    all_goals rw [e]; rfl
  refine ⟨fun hf pa cp at_ ha hr => ?_, fun hf ha => ?_⟩
  · obtain ⟨hst, hall, hlanes⟩ := stLanes_stores (f := f) (e := { launch := l, site := site, g := g, lanes := lanes, pc := pc })
      rfl (sizeCode_dvd hfn) s1 (fun i hi => ⟨congrArg (T64.mk _) (ha i hi).1, (ha i hi).2⟩) hr
    obtain ⟨t, ht, hret⟩ := th_retires_from h (opOk := fun _ => storeCode f.fn.toNat) hlegal hf
      (fun e s x => stLanes f e s x e.lanes) 2 hst (Worked.refl _ site g)
    rw [hall.groupOf] at hret
    exact ⟨t, ht, hret, hlanes⟩
  · obtain ⟨s2, hst, hd⟩ := stsLanes_stores (f := f) (e := { launch := l, site := site, g := g, lanes := lanes, pc := pc })
      rfl s1 (fun i hi => ⟨Prod.ext rfl (ha i hi).1, (ha i hi).2⟩)
    obtain ⟨t, ht, hret⟩ := th_retires_from h (opOk := fun _ => storeCode f.fn.toNat) hlegal hf
      (fun e s x => stsLanes f e s x e.lanes) 2 hst (Worked.refl _ site g)
    have hg : groupOf (tileOf s2 site) g = groupOf (tileOf s1 site) g := by rw [hd.tile]; rfl
    rw [hg] at hret
    exact ⟨t, s2, ht, hret, hd.frame, hd.tiles, hd.tile, fun k => by rw [hd.counters]; rfl, hd.bytes⟩

end Sys2Proof.Machine
end

section
/-! A fetch leaves the tiles but their instruction caches (R131): what the detectors find on its way changes no group. -/

set_option Elab.async false

namespace Sys2Proof.Machine

/-! ### What detectors find -/

theorem tiles_memoryOnly {s t : State} (h : MemoryOnly s t) : t.tiles = s.tiles := by rw [h]

theorem foldl_tiles {α : Type} (f : State → α → State) (h : ∀ s a, (f s a).tiles = s.tiles) (l : List α) (s : State) :
    (l.foldl f s).tiles = s.tiles := by
  induction l generalizing s with
  | nil => rfl
  | cons a r ih => rw [List.foldl_cons, ih, h]

theorem injectionDie_tiles (s : State) (i : Injection) : (injectionDie s i).2.tiles = s.tiles := by
  unfold injectionDie
  dsimp only
  split_ifs
  all_goals try rfl
  split <;> rfl

theorem fireInjection_tiles {s t : State} {p : Injection → Bool} {i : Injection} (h : fireInjection s p = some (i, t)) : t.tiles = s.tiles := by
  unfold fireInjection at h
  split at h
  · cases h
    simp only [bumpLife, logInjectionOn, logEvent_tiles, injectionDie_tiles]
  · cases h

theorem meet_tiles {s : State} {n : Latent → Bool} {p : Injection → Bool} {m : Met} (h : meet s n p = some m) : m.s.tiles = s.tiles := by
  unfold meet at h
  split at h
  · cases h; rfl
  · split at h
    · rename_i hf; cases h; exact fireInjection_tiles hf
    · cases h

theorem lifeFinding_tiles (m : Met) (s : State) (die word : Nat) : (lifeFinding m s die word).tiles = s.tiles := by
  unfold lifeFinding; split <;> rfl

theorem moduleStop_tiles (s : State) (die det : Nat) (loc : DWord) (inj : Bool) : (moduleStop s die det loc inj).tiles = s.tiles := by
  simp only [moduleStop, addStep, logEvent_tiles]

theorem spareWay_tiles (s : State) (slice way : Nat) : (spareWay s slice way).tiles = s.tiles := by
  have hev : ((linesInWay s slice way).foldl evictLine s).tiles = s.tiles :=
    foldl_tiles _ (fun s a => tiles_memoryOnly ((MemoryOnly.writeBack s a).trans (.dropFill ..))) _ s
  unfold spareWay
  dsimp only
  split
  · split
    · simp only [logEvent_tiles, bumpLife, hev]
    · simp only [renumberWay, hev]
  · rfl

theorem trigger_tiles (s : State) (island trig : Nat) (loc : DWord) (what : Failing) : (trigger s island trig loc what).tiles = s.tiles := by
  have hspare (s : State) : (spareFailing s island what).tiles = s.tiles := by
    unfold spareFailing
    cases what with
    | cell row col => dsimp only; unfold decideSubst; dsimp only; split_ifs <;> rfl
    | site => dsimp only; split <;> rfl
    | way slice way => exact spareWay_tiles ..
  have hlog (s : State) (a b c : DWord) : (logEvent (bump s 6 island 2 1) (islandDie island) 0x06 0 0 a b c).tiles = s.tiles :=
    (logEvent_tiles ..).trans (bump_tiles ..)
  unfold trigger
  dsimp only
  split
  · split <;> simp only [keepIsland, setIsland_tiles, hlog]
  · rw [hspare, hlog]

theorem arrayFinding_tiles (m : Met) (s : State) (island : Nat) (what : Latent → Failing) :
    (arrayFinding m s island what).tiles = s.tiles := by
  unfold arrayFinding
  split
  · unfold noteStorage
    dsimp only
    split
    · exact trigger_tiles ..
    · rfl
  · rfl

theorem markRetire_tiles (s : State) (pa det : Nat) : (markRetire s pa det).tiles = s.tiles := by
  unfold markRetire
  dsimp only
  split
  · rfl
  · rw [logEvent_tiles]
    dsimp only [bumpLife]
    split
    · rfl
    · rfl
    · rw [bump_tiles]

theorem repairRow_tiles (s : State) (pa : Nat) : (repairRow s pa).tiles = s.tiles := by
  unfold repairRow
  dsimp only
  split <;> split
  · simp only [logRepair, logEvent_tiles, takeBool]
  · simp only [markRetire_tiles, takeBool]
  · simp only [logRepair, logEvent_tiles, bump_tiles]
  · exact markRetire_tiles ..

theorem countFinding_tiles (s : State) (pa word : Nat) : (countFinding s pa word).tiles = s.tiles := by
  unfold countFinding; split <;> exact bump_tiles ..

theorem noteCorrectable_tiles (s : State) (pa : Nat) : (noteCorrectable s pa).tiles = s.tiles := by
  unfold noteCorrectable
  dsimp only
  split
  · simp only [repairRow_tiles, bumpLife, countFinding_tiles]
  · exact countFinding_tiles ..

theorem noteUncorrectable_tiles (s : State) (pa : Nat) : (noteUncorrectable s pa).tiles = s.tiles :=
  (markRetire_tiles ..).trans (countFinding_tiles ..)

theorem poisonSector_tiles (s : State) (pa : Nat) : (poisonSector s pa).tiles = s.tiles := by
  unfold poisonSector; dsimp only; split <;> rfl

theorem memoryFinding_tiles (s : State) (ctx pa : Nat) : (memoryFinding s ctx pa).tiles = s.tiles := by
  unfold memoryFinding
  dsimp only
  split
  · rfl
  · rename_i m hm
    refine Eq.trans ?_ (meet_tiles hm)
    split
    · split
      · exact noteCorrectable_tiles ..
      · exact countFinding_tiles ..
    · split
      · exact noteUncorrectable_tiles ..
      · exact (poisonSector_tiles ..).trans (countFinding_tiles ..)

theorem tagFinding_tiles (s : State) (ctx pa : Nat) : (tagFinding s ctx pa).tiles = s.tiles := by
  unfold tagFinding
  dsimp only
  split
  · rfl
  · rename_i m hm
    refine Eq.trans ?_ (meet_tiles hm)
    split
    · exact (lifeFinding_tiles ..).trans (bump_tiles ..)
    · exact (moduleStop_tiles ..).trans ((lifeFinding_tiles ..).trans (bump_tiles ..))

theorem dataFinding_tiles (s : State) (ctx pa part : Nat) : (dataFinding s ctx pa part).tiles = s.tiles := by
  unfold dataFinding
  split
  · rfl
  · dsimp only
    split
    · rfl
    · rename_i m hm
      have hlife (word die w : Nat) : (lifeFinding m (bump m.s 2 (homeSlice s pa) word 1) die w).tiles = s.tiles :=
        (lifeFinding_tiles ..).trans ((bump_tiles ..).trans (meet_tiles hm))
      split
      · exact (arrayFinding_tiles ..).trans (hlife ..)
      · split
        · exact (poisonSector_tiles ..).trans (hlife ..)
        · exact (tiles_memoryOnly (MemoryOnly.useCredits ..)).trans (hlife ..)

theorem readHome_tiles (s : State) (ctx pa n cp part : Nat) : (readHome s ctx pa n cp part).tiles = s.tiles := by
  have hhome : (homeFindings s ctx pa part).tiles = s.tiles := by
    unfold homeFindings
    split
    · rfl
    · exact (dataFinding_tiles ..).trans (tagFinding_tiles ..)
  unfold readHome
  dsimp only
  split
  · exact tiles_memoryOnly (MemoryOnly.touchRead ..)
  · split
    · refine (tiles_memoryOnly (MemoryOnly.touchRead ..)).trans ?_
      split
      · exact hhome
      · exact (memoryFinding_tiles ..).trans hhome
    · split
      · split
        · rfl
        · exact memoryFinding_tiles ..
      · split
        · rfl
        · exact memoryFinding_tiles ..
      · rfl

theorem tierTraffic_tiles (s : State) (c : Nat) : (tierTraffic s c).tiles = s.tiles := by
  have hretry (s : State) : (tierRetry s c).tiles = s.tiles := by
    unfold tierRetry
    dsimp only
    split
    · simp only [setChip_tiles, bump_tiles]
    · simp only [retrainTier, logTierFree, logTier, logEvent_tiles, takeFree, takeBool, setChip_tiles, bump_tiles]
  have hflit : (tierFlit s c).tiles = s.tiles := rfl
  unfold tierTraffic
  dsimp only
  split
  · rfl
  · split
    · rename_i m hm; exact (hretry _).trans ((meet_tiles hm).trans hflit)
    · exact hflit

theorem linkFindings_tiles (s : State) (pa : Nat) : (linkFindings s pa).tiles = s.tiles := by
  have hnear : State.tiles (if noFaults s then s else
      match meet s (fun l => l.det.toNat == 0x0F && l.target == homeSlice s pa) fun i => i.det.toNat == 0x0F && i.target.toNat == homeSlice s pa with
      | some m => m.s
      | none => s) = s.tiles := by
    split
    · rfl
    · split
      · rename_i m hm; exact meet_tiles hm
      · rfl
  unfold linkFindings
  split
  · exact tierTraffic_tiles ..
  · exact tierTraffic_tiles ..
  · exact hnear
  · exact hnear
  · exact hnear
  · rfl

/-! ### Translation and fetch -/

theorem cohWrite_tiles (s : State) (pa : Nat) (bs : List Byte) (poison alloc : Bool) (part : Nat) :
    (cohWrite s pa bs poison alloc part).tiles = s.tiles := by
  unfold cohWrite
  split
  · unfold companionWrite; split <;> rfl
  · split
    · rfl
    · have h := tiles_memoryOnly ((MemoryOnly.beforeWrite s pa alloc part).trans (.storeSector _ pa bs poison part))
      dsimp only
      split
      · exact (tiles_memoryOnly (MemoryOnly.keepOld ..)).trans h
      · exact h

theorem translate_tiles (s : State) (ctx : Nat) (acc : Acc) (va : DWord) : (translate s ctx acc va).1.tiles = s.tiles := by
  have hx : (xlatFinding s ctx va).1.tiles = s.tiles := by
    unfold xlatFinding
    split
    · rfl
    · split
      · rfl
      · rename_i m hm; exact meet_tiles hm
  have hp (s : State) (b : Bool) : (takePick s b).2.tiles = s.tiles := by unfold takePick; split <;> rfl
  have hc (s : State) (pick : Nat) : (chargeWalk s ctx va pick).tiles = s.tiles := by
    unfold chargeWalk
    split
    · rfl
    · split
      · rfl
      · exact foldl_tiles _ (fun s a => tiles_memoryOnly (MemoryOnly.touchRead ..)) _ s
  have hw (s : State) (at_ : Nat) (e : DWord) : (setAD s ctx acc at_ e).tiles = s.tiles := by
    unfold setAD
    generalize e ||| (if acc = .write then 0x60#64 else 0x20#64) = e'
    dsimp only
    split
    · rfl
    · exact (foldl_tiles _ (fun s p => cohWrite_tiles ..) _ _).trans (tiles_memoryOnly (MemoryOnly.touchWrite ..))
  have h := (hc (takePick (xlatFinding s ctx va).1 (xlatFinding s ctx va).2).2
    (takePick (xlatFinding s ctx va).1 (xlatFinding s ctx va).2).1).trans ((hp _ _).trans hx)
  unfold translate
  dsimp only
  split
  · exact h
  · split
    · split
      · exact (hw ..).trans h
      · exact h
    · exact h

theorem readTarget_tiles (s : State) (ctx : Nat) (t : Target) (va : DWord) (n : Nat) (pass near : Bool) :
    (readTarget s ctx t va n pass near).1.tiles = s.tiles := by
  have hr (s : State) : (readAt s t.pa n).1.tiles = s.tiles := by
    obtain ⟨c, h⟩ := readAt_free s t.pa n
    rw [h]
  unfold readTarget
  dsimp only
  split
  · rfl
  · split
    · rfl
    · refine (hr _).trans ((readHome_tiles ..).trans ?_)
      split
      · rfl
      · exact linkFindings_tiles ..

/-- From s to t nothing of a tile has changed but its instruction cache. -/
def CodeOnly (s t : State) : Prop := ∀ k, tileOf t k = { tileOf s k with icache := (tileOf t k).icache }

theorem CodeOnly.of_tiles {s t : State} (h : t.tiles = s.tiles) : CodeOnly s t := fun k => by rw [tileOf_congr h]

theorem CodeOnly.trans {s t u : State} (h : CodeOnly s t) (k : CodeOnly t u) : CodeOnly s u := fun i => by rw [k i, h i]

theorem CodeOnly.icFill (s : State) (site ctx : Nat) (t : Target) (pc : DWord) : CodeOnly s (icFill s site ctx t pc).1 := by
  have h := readTarget_tiles s ctx { t with pa := t.pa / 64 * 64 } pc 64 false false
  unfold Machine.icFill
  split
  · rename_i u bs p he
    rw [he] at h
    obtain ⟨c, hc⟩ := cacheInsert_free u (tileOf u site).icache 256 (t.pa / 64) { data := bs, poison := p }
    dsimp only
    rw [hc]
    refine (CodeOnly.of_tiles h).trans fun k => ?_
    by_cases hk : k = site
    · subst hk; rw [tileOf_updTile_same]; rfl
    · rw [tileOf_updTile_other _ _ _ hk]; rfl
  · rename_i he; rw [he] at h; exact .of_tiles h
  · rename_i he; rw [he] at h; exact .of_tiles h

/-- A fetch changes nothing of a tile but its instruction cache. -/
theorem CodeOnly.fetch (s : State) (site ctx : Nat) (pc : DWord) (n : Nat) : CodeOnly s (fetch s site ctx pc n).1 := by
  have ht := translate_tiles s ctx .fetch pc
  have hdone (s : State) (pa : Nat) (missed : Bool) (sec : Sector) : (fetched s pa n pc missed sec).1 = s := by
    unfold fetched; split <;> rfl
  unfold Machine.fetch
  split
  · exact .of_tiles rfl
  · split
    · rename_i u t he
      rw [he] at ht
      have hheld : (icHeld u site t.pa).1.tiles = u.tiles := by
        unfold icHeld; split <;> [rfl; split] <;> rfl
      refine (CodeOnly.of_tiles ht).trans ?_
      split
      · rename_i hh; rw [hh] at hheld; rw [hdone]; exact .of_tiles hheld
      · rename_i v hh
        rw [hh] at hheld
        have hfill := CodeOnly.icFill v site ctx t pc
        refine (CodeOnly.of_tiles hheld).trans ?_
        split
        · rename_i hi; rw [hi] at hfill; rw [hdone]; exact hfill
        · rename_i hi; rw [hi] at hfill; exact hfill
        · rename_i hi; rw [hi] at hfill; exact hfill
    · rename_i he; rw [he] at ht; exact .of_tiles ht
    · rename_i he; rw [he] at ht; exact .of_tiles ht

/-- The group that a ready instruction finds is the one that it was fetched for. -/
theorem groupOf_ready {s s1 : State} {site g : Nat} {l : Launch} {lanes : List Nat} {pc : DWord}
    (h : ThReady s site g l lanes pc s1) (k : Nat) : groupOf (tileOf s1 site) k = groupOf (tileOf s site) k := by
  obtain ⟨w, hw, -, -⟩ := h.fetched
  have := CodeOnly.fetch s site l.ctx pc 8
  rw [hw] at this
  rw [this site]; rfl

/-- What is fetched stands at a multiple of 8. -/
theorem pc_ready {s s1 : State} {site g : Nat} {l : Launch} {lanes : List Nat} {pc : DWord}
    (h : ThReady s site g l lanes pc s1) : pc.toNat % 8 = 0 := by
  obtain ⟨w, hw, -, -⟩ := h.fetched
  by_contra hc
  rw [fetch, if_pos hc] at hw
  cases hw

end Sys2Proof.Machine
end

section
/-! Branches, calls, returns, NOP, SREG and EXIT of a thread group (R110, R115, R117, R120). -/

set_option Elab.async false

namespace Sys2Proof.Machine

section
variable {s s1 s2 s3 : State} {site g : Nat} {l : Launch} {lanes : List Nat} {pc : DWord} {opOk : Launch → Bool}
  {uses : List RegUse} {unused : List Nat} {dst : Option RegUse} {y : TGroup}

/-- A row that is defined and sends its lanes elsewhere retires there. -/
theorem th_jumps (h : ThReady s site g l lanes pc s1) (hl : opOk l = true) (hf : ThFields s site g l lanes uses unused dst)
    (f : ThEnv → State → TGroup → ThOut) (unit : Nat) {dest : Nat → DWord}
    (hs : f { launch := l, site := site, g := g, lanes := lanes, pc := pc } s1 (groupOf (tileOf s1 site) g) = .jumps s3 dest)
    (hw : Worked s2 s3 site g y) :
    ∃ t, whenUp s (fun s => thStep s site g opOk uses unused dst f unit) = .next t ∧ ThRetired s2 t l site g lanes y dest := by
  refine ⟨_, whenUp_up _ h.up, ?_⟩
  rw [thStep_ready h hl hf, hs]
  exact thRetire_retired hw _

/-- A row that is defined and faults in the thread unit does nothing else. -/
theorem th_faults (h : ThReady s site g l lanes pc s1) (hl : opOk l = true) (hf : ThFields s site g l lanes uses unused dst)
    (f : ThEnv → State → TGroup → ThOut) (unit : Nat) {code : Nat} {operand detail : DWord}
    (hs : f { launch := l, site := site, g := g, lanes := lanes, pc := pc } s1 (groupOf (tileOf s1 site) g) = .fault s2 2 code operand detail) :
    whenUp s (fun s => thStep s site g opOk uses unused dst f unit) =
      .next (tileFault s2 l site 2 code operand pc detail g (maskOf lanes)) := by
  rw [whenUp_up _ h.up, thStep_ready h hl hf, hs]
  rfl

end

/-! ### Branches -/

theorem brGo_goes (s : State) {lanes : List Nat} {target : Nat → DWord} (h : ∀ i ∈ lanes, (target i).toNat % 8 = 0) :
    brGo s lanes target = .jumps s target := by
  have : lanes.find? (fun i => (target i).toNat % 8 != 0) = none := List.find?_eq_none.2 fun i hi => by simp [h i hi]
  unfold brGo
  rw [this]

theorem brGo_faults (s : State) {i : Nat} (r : List Nat) {target : Nat → DWord} (h : (target i).toNat % 8 ≠ 0) :
    brGo s (i :: r) target = .fault s 2 misaligned (vaOperand (target i)) 0 := by
  unfold brGo
  rw [List.find?_cons_of_pos (p := fun i => (target i).toNat % 8 != 0) (bne_iff_ne.2 h)]

theorem callOut_goes (s : State) {e : ThEnv} {target : Nat → DWord} (h : ∀ i ∈ e.lanes, (target i).toNat % 8 = 0) (r : Nat) (x : TGroup) :
    callOut r e s x target = .jumps (putGroup s e.site e.g (eachLane x e.lanes (enterCall e r))) target := by
  unfold callOut
  rw [brGo_goes s h]

theorem anyPoison_clean {x : TGroup} {lanes : List Nat} {r : Nat} (h : ∀ i ∈ lanes, (treg x i r).poison = false) :
    anyPoison x lanes { r := r, n := 1 } = false := by
  refine List.any_eq_false.2 fun i hi => ?_
  simp [h i hi]

theorem anyPoison_pair_clean {x : TGroup} {lanes : List Nat} {r : Nat} (h : ∀ i ∈ lanes, (tpair x i r).poison = false) :
    anyPoison x lanes { r := r, n := 2 } = false := by
  refine List.any_eq_false.2 fun i hi => ?_
  have hp := h i hi
  unfold tpair at hp
  by_cases h255 : r = 255
  · simp [h255]
  · simp only [h255, if_false, Bool.or_eq_false_iff] at hp
    simp [List.range_succ, hp.1, hp.2]

/-- A lane's call and return: registers of the lane, and its depth. -/
structure DepthDone (x y : TGroup) (lanes : List Nat) (r : Nat) (d : Nat → Nat) (v : T64) : Prop where
  frame : y = { x with regs := y.regs, depths := y.depths }
  depths : ∀ j, callDepth y j = if j ∈ lanes then d (callDepth x j) else callDepth x j
  regs : ∀ j k, k < 255 → ¬ (j ∈ lanes ∧ r ≤ k ∧ k < r + 2) → treg y j k = treg x j k
  pair : r ≠ 255 → ∀ j ∈ lanes, tpair y j r = v

theorem tpair_setTpair (x : TGroup) (i : Nat) {r : Nat} (v : T64) (hr : r + 2 ≤ 255) : tpair (setTpair x i r v) i r = v := by
  have h := getSrc_setRes x i r 64 v.val.toNat v.poison (.inr rfl) hr v.val.isLt
  unfold getSrc setRes at h
  rw [if_pos rfl, if_pos rfl, ofNat_toNat] at h
  obtain ⟨h1, h2⟩ := Prod.mk.inj h
  cases hv : tpair (setTpair x i r v) i r with
  | mk a b => rw [hv] at h1 h2; cases v; simp_all [BitVec.toNat_inj]

theorem enterCalls (e : ThEnv) {r : Nat} (hr : r = 255 ∨ r + 2 ≤ 255) (x : TGroup) {lanes : List Nat} (hn : lanes.Nodup) :
    DepthDone x (eachLane x lanes (enterCall e r)) lanes r (· + 1) { val := e.pc + 8, poison := false } := by
  induction lanes generalizing x with
  | nil => exact ⟨rfl, fun _ => rfl, fun _ _ _ _ => rfl, by simp⟩
  | cons i t ih =>
    obtain ⟨hi, hn⟩ := List.nodup_cons.1 hn
    have h := ih (enterCall e r x i) hn
    have hreg j k (hk : k < 256) : treg (enterCall e r x i) j k = treg (setTpair x i r { val := e.pc + 8, poison := false }) j k := rfl
    have hother j k (hk : k < 256) (hc : ¬ (j = i ∧ r ≤ k ∧ k < r + 2)) : treg (enterCall e r x i) j k = treg x j k := by
      rw [hreg j k hk, treg_setTpair _ _ (by omega) hk, if_neg]
      rintro ⟨h1, -, -, h2⟩
      exact hc ⟨h1, by omega, by omega⟩
    have hdepth j : callDepth (enterCall e r x i) j = if j = i then callDepth x j + 1 else callDepth x j := by
      have hd j : callDepth (setTpair x i r { val := e.pc + 8, poison := false }) j = callDepth x j := by rw [setTpair_frame]; rfl
      have hput : callDepth (enterCall e r x i) j = NMap.getD (NMap.put 0 (setTpair x i r { val := e.pc + 8, poison := false }).depths i
        (callDepth (setTpair x i r { val := e.pc + 8, poison := false }) i + 1)) j 0 := rfl
      rw [hput, hd]
      by_cases hj : j = i
      · subst hj; rw [NMap.getD_put_same, if_pos rfl]
      · rw [NMap.getD_put_other _ _ _ _ hj, if_neg hj]; exact hd j
    have e1 : eachLane x (i :: t) (enterCall e r) = eachLane (enterCall e r x i) t (enterCall e r) := rfl
    rw [e1]
    refine ⟨?_, fun j => ?_, fun j k hk hc => ?_, fun h255 j hj => ?_⟩
    · rw [h.frame]
      unfold enterCall
      dsimp only
      rw [setTpair_frame]
    · rw [h.depths, hdepth]
      by_cases hj : j = i
      · subst hj; simp [hi]
      · simp [hj]
    · rw [List.mem_cons, or_and_right, not_or] at hc
      rw [h.regs j k hk hc.2, hother j k (by omega) hc.1]
    · rcases List.mem_cons.1 hj with rfl | hm
      · have hr := hr.resolve_left h255
        rw [← tpair_setTpair x j { val := e.pc + 8, poison := false } hr]
        unfold tpair
        rw [if_neg h255, if_neg h255, h.regs j r (by omega) fun hc => hi hc.1, h.regs j (r + 1) (by omega) fun hc => hi hc.1]
        rfl
      · exact h.pair h255 j hm

theorem leaveCalls (x : TGroup) {lanes : List Nat} (hn : lanes.Nodup) (v : T64) :
    DepthDone x (eachLane x lanes fun x i => { x with depths := NMap.put 0 x.depths i (callDepth x i - 1) }) lanes 255 (· - 1) v := by
  induction lanes generalizing x with
  | nil => exact ⟨rfl, fun _ => rfl, fun _ _ _ _ => rfl, by simp⟩
  | cons i t ih =>
    obtain ⟨hi, hn⟩ := List.nodup_cons.1 hn
    have h := ih { x with depths := NMap.put 0 x.depths i (callDepth x i - 1) } hn
    refine ⟨h.frame, fun j => ?_, fun j k hk _ => h.regs j k hk (by omega), fun h => absurd rfl h⟩
    refine (h.depths j).trans ?_
    by_cases hj : j = i
    · subst hj; simp [hi, callDepth]
    · simp [hj, callDepth, NMap.getD_put_other _ _ _ _ hj]

/-! ### SREG -/

theorem LaneEffect.setTreg {r : Nat} (hr : r < 256) (v : Nat → T32) : LaneEffect fun x i => setTreg x i r (v i) := by
  constructor
  · intro y i; exact setTreg_frame ..
  · intro y i j k hk hj; rw [treg_setTreg _ _ hr hk, if_neg fun h => hj h.1]
  · intro y z i h k hk; rw [treg_setTreg _ _ hr hk, treg_setTreg _ _ hr hk, h k hk]

/-- A value of its own in one register of each lane. -/
theorem eachLane_setTreg (x : TGroup) {lanes : List Nat} (hn : lanes.Nodup) {r : Nat} (hr : r < 256) (v : Nat → T32) :
    OnlyRegs x (eachLane x lanes fun x i => setTreg x i r (v i)) lanes r 1 ∧
      (r ≠ 255 → ∀ i ∈ lanes, treg (eachLane x lanes fun x i => setTreg x i r (v i)) i r = v i) := by
  obtain ⟨h1, h2, h3⟩ := eachLane_lanes (LaneEffect.setTreg hr v) x hn
  refine ⟨⟨h1, fun i k hk h => ?_⟩, fun h255 i hi => ?_⟩
  · by_cases hi : i ∈ lanes
    · rw [h2 i hi k hk, treg_setTreg _ _ hr hk, if_neg fun e => h ⟨hi, by omega, by omega⟩]
    · exact h3 i hi k hk
  · rw [h2 i hi r hr, treg_setTreg _ _ hr hr, if_pos ⟨rfl, rfl, h255⟩]

/-! ### EXIT (R110, R120) -/

theorem tileOf_thRetire (s : State) (l : Launch) (site g : Nat) (lanes : List Nat) (pc : Nat → DWord) :
    tileOf (thRetire s l site g lanes pc) site = countDecision (parkIdle
      (setGroup (ageSamples (tileOf s site) (some g)) g (goneOn (groupOf (tileOf s site) g) lanes pc)) g) := by simp [thRetire]

/-- A group that leaves the active set to wait is in neither set. -/
theorem park_leaves (t : Tile) (g : Nat) (w : GWait) :
    (park t g w).active.contains g = false ∧ (park t g w).eligible.contains g = false := by
  have ha : g ∉ t.active.filter (· != g) := by simp
  have he : g ∉ t.eligible.filter (· != g) := by simp
  unfold park promote
  dsimp only
  constructor
  · rw [← Bool.not_eq_true, List.contains_iff_mem, List.mem_append, not_or]
    exact ⟨ha, fun h => he (List.mem_of_mem_take h)⟩
  · rw [← Bool.not_eq_true, List.contains_iff_mem]
    exact fun h => he (List.mem_of_mem_drop h)

/-- A tile without open barrier phases has nothing to complete. -/
theorem settle_quiet {t : Tile} (hb : t.bars = []) (hp : ∀ k, (groupOf t k).gphase = none) : settle t = t := by
  have hg (l : List Nat) : l.foldl settleGroup t = t := by
    induction l with
    | nil => rfl
    | cons k r ih => rw [List.foldl_cons, settleGroup, hp k]; exact ih
  have ht (b : Nat) : settleTileOnce t b = t := by rw [settleTileOnce, hb]; rfl
  have hbs (l : List Nat) : l.foldl (fun t b => settleTileOnce (settleTileOnce t b) b) t = t := by
    induction l with
    | nil => rfl
    | cons b r ih => rw [List.foldl_cons, ht, ht]; exact ih
  unfold settle
  rw [hg]
  exact hbs _

theorem judge_quiet {s : State} {site : Nat} (l : Launch) (hb : (tileOf s site).bars = []) (hp : ∀ k, (groupOf (tileOf s site) k).gphase = none) :
    judge s l site = s := by
  have h1 : (List.range 64).find? (fun g => (groupOf (tileOf s site) g).gphase.isSome && allWait (tileOf s site) [g]) = none :=
    List.find?_eq_none.2 fun g _ => by simp [hp g]
  unfold judge divergent
  rw [h1, hb]
  rfl

/-- The group after its lanes have exited. -/
def exitedGroup (x : TGroup) (lanes : List Nat) : TGroup :=
  if x.exited ||| maskOf lanes = 0xFFFFFFFF then
    { x with exited := x.exited ||| maskOf lanes, running := false, region := none, gphase := none, barWait := [], sentinel := 0
             parked := false, runAhead := false }
  else { x with exited := x.exited ||| maskOf lanes }

theorem groupOf_exitLanes_same (t : Tile) (g : Nat) (lanes : List Nat) : groupOf (exitLanes t g lanes) g = exitedGroup (groupOf t g) lanes := by
  unfold exitLanes exitedGroup
  dsimp only
  split
  · rw [groupOf_leaveSets, groupOf_setGroup_same]
  · rw [groupOf_setGroup_same]

theorem groupOf_exitLanes_other (t : Tile) {g k : Nat} (lanes : List Nat) (h : k ≠ g) : groupOf (exitLanes t g lanes) k = groupOf t k := by
  unfold exitLanes
  dsimp only
  split
  · rw [groupOf_leaveSets, groupOf_setGroup_other _ _ h]
  · rw [groupOf_setGroup_other _ _ h]

theorem bars_exitLanes (t : Tile) (g : Nat) (lanes : List Nat) : (exitLanes t g lanes).bars = t.bars := by
  unfold exitLanes
  dsimp only
  split <;> rfl

/-- A group whose threads have all exited has no thread that can run. -/
theorem goingLanes_exited {x : TGroup} (h : x.exited = 0xFFFFFFFF) : goingLanes x = [] := by
  unfold goingLanes
  rw [h, List.filter_eq_nil_iff]
  intro i hi
  have hbit : ∀ i < 32, Nat.testBit (0xFFFFFFFF : Word).toNat i = true := by decide
  rw [hbit i (List.mem_range.1 hi)]
  exact Bool.false_ne_true

section
variable {s s1 : State} {site g : Nat} {l : Launch} {lanes : List Nat} {pc : DWord} {f : TiF}

/-- EXIT where no barrier phase is open. -/
theorem exit_exits (h : ThReady s site g l lanes pc s1) (hfn : f.fn = 1) (hb : (tileOf s1 site).bars = [])
    (hp : ∀ k, (groupOf (tileOf s1 site) k).gphase = none)
    (hf : ThFields s site g l lanes [] [f.dst.toNat, f.src1.toNat] none) :
    exec (.exit site g f) s = .next (thRetire (setTile s1 site (exitLanes (tileOf s1 site) g lanes)) l site g lanes fun _ => pc + 8) := by
  have hbars : (exitLanes (tileOf s1 site) g lanes).bars = [] := (bars_exitLanes ..).trans hb
  have hphase k : (groupOf (exitLanes (tileOf s1 site) g lanes) k).gphase = none := by
    by_cases hk : k = g
    · subst hk
      rw [groupOf_exitLanes_same]
      unfold exitedGroup
      split
      · rfl
      · exact hp k
    · rw [groupOf_exitLanes_other _ _ hk]; exact hp k
  have hsettle := settle_quiet hbars hphase
  have hjudge : judge (setTile s1 site (exitLanes (tileOf s1 site) g lanes)) l site = setTile s1 site (exitLanes (tileOf s1 site) g lanes) :=
    judge_quiet l (by rw [tileOf_setTile_same]; exact hbars) (by rw [tileOf_setTile_same]; exact hphase)
  have hlegal : (f.fn == 1) = true := by rw [hfn]; rfl
  show execExit site g f s = _
  rw [execExit, whenUp_up _ h.up, thStep_ready h hlegal hf, barRetire, hsettle, hjudge]
  rfl

end

/-- Settles O10: targets are judged before anything is written, and a tile without open phases has nothing to settle at an exit. -/
theorem threadControl : Obligations.ThreadControl := by
  refine ⟨fun s site g l lanes pc s1 f h => ?_, fun s site g l lanes pc s1 f h => ⟨fun hfn hf => ?_, fun hfn himm hf => ?_⟩,
    fun s site g l lanes pc s1 f h hfn hb hp hf => ?_⟩
  · have hn : lanes.Nodup := h.leading ▸ leadingSet_nodup _
    have hpc : (pc + 8).toNat % 8 = 0 := by have := pc_ready h; bv_omega
    have hx := Worked.refl s1 site g
    refine ⟨fun hfn hf hrel => ?_, fun hfn hf hrel hc => ?_, fun hfn hf hrel hc => ?_, fun hfn hf hrel => ?_, fun hfn himm hf hc ha => ?_,
      fun hfn hf hc ha => ?_, fun hfn hf hc ha => ?_, fun hfn hf hrel => ?_⟩
    · exact th_jumps h (opOk := fun _ => f.fn == 0) (by rw [hfn]; rfl) hf
        (fun e s _ => brGo s e.lanes fun _ => relTarget f e) 2 (brGo_goes s1 fun i _ => hrel) hx
    · refine th_jumps h (opOk := fun _ => f.fn == 1) (by rw [hfn]; rfl) hf (fun e s x => condOut f true e s x) 2 ?_ hx
      unfold condOut ru
      rw [anyPoison_clean hc]
      simp only [beq_iff_eq]
      exact brGo_goes s1 fun i _ => by split <;> assumption
    · refine th_jumps h (opOk := fun _ => f.fn == 2) (by rw [hfn]; rfl) hf (fun e s x => condOut f false e s x) 2 ?_ hx
      unfold condOut ru
      rw [anyPoison_clean hc]
      simp only [beq_eq_false_iff_ne, ne_eq, ite_not]
      exact brGo_goes s1 fun i _ => by split <;> assumption
    · have hd := enterCalls { launch := l, site := site, g := g, lanes := lanes, pc := pc } (hf.legal _ List.mem_cons_self).2
        (groupOf (tileOf s1 site) g) hn
      obtain ⟨t, ht, hr⟩ := th_jumps h (opOk := fun _ => f.fn == 3) (by rw [hfn]; rfl) hf
        (fun e s x => callOut f.dst.toNat e s x fun _ => relTarget f e) 2 (callOut_goes s1 (fun i _ => hrel) _ _) (hx.putGroup _)
      exact ⟨t, _, ht, hr, hd.frame, hd.depths, hd.regs, fun h255 => hd.pair (toNat_ne_255 h255)⟩
    · have hd := enterCalls { launch := l, site := site, g := g, lanes := lanes, pc := pc } (hf.legal _ List.mem_cons_self).2
        (groupOf (tileOf s1 site) g) hn
      obtain ⟨t, ht, hr⟩ := th_jumps h (opOk := fun _ => f.fn == 4 && f.imm == 0) (by rw [hfn, himm]; rfl) hf
        (fun e s x => if anyPoison x e.lanes (ru f.src1 2) then .fault s 2 poisonConsumed 0 0x01
          else callOut f.dst.toNat e s x fun i => (tpair x i f.src1.toNat).val) 2
        (by unfold ru; rw [anyPoison_pair_clean hc]; exact callOut_goes s1 ha _ _) (hx.putGroup _)
      exact ⟨t, _, ht, hr, hd.frame, hd.depths, hd.regs, fun h255 => hd.pair (toNat_ne_255 h255)⟩
    · exact th_jumps h (opOk := fun _ => f.fn == 5) (by rw [hfn]; rfl) hf
        (fun e s x => if anyPoison x e.lanes (ru f.src1 2) then .fault s 2 poisonConsumed 0 0x01
          else brGo s e.lanes fun i => (tpair x i f.src1.toNat).val) 2
        (by unfold ru; rw [anyPoison_pair_clean hc]; exact brGo_goes s1 ha) hx
    · have h255 : f.dst.toNat = 255 := hf.zero _ (by simp)
      have hd := leaveCalls (groupOf (tileOf s1 site) g) hn { val := pc + 8, poison := false }
      rw [← h255] at hd
      obtain ⟨t, ht, hr⟩ := th_jumps h (opOk := fun _ => f.fn == 6) (by rw [hfn]; rfl) hf
        (fun e s x => if anyPoison x e.lanes (ru f.src1 2) then .fault s 2 poisonConsumed 0 0x01
          else match brGo s e.lanes fun i => (tpair x i f.src1.toNat).val with
            | .jumps s t => .jumps (putGroup s site g (eachLane x e.lanes fun x i =>
                { x with depths := NMap.put 0 x.depths i (callDepth x i - 1) })) t
            | o => o) 2
        (by unfold ru; rw [anyPoison_pair_clean hc, brGo_goes s1 ha]; rfl) (hx.putGroup _)
      exact ⟨t, _, ht, hr, hd.frame, hd.depths, hd.regs, fun hne => hd.pair (toNat_ne_255 hne)⟩
    · obtain ⟨i, r, hi, -⟩ := h.first
      refine th_faults h (opOk := fun _ => f.fn == 0) (by rw [hfn]; rfl) hf (fun e s _ => brGo s e.lanes fun _ => relTarget f e) 2 ?_
      dsimp only
      rw [hi]
      exact brGo_faults s1 r hrel
  · exact th_retires_from h (opOk := fun _ => f.fn == 0) (by rw [hfn]; rfl) hf (fun _ s _ => .next s) 2 rfl (.refl ..)
  · have hn : lanes.Nodup := h.leading ▸ leadingSet_nodup _
    obtain ⟨h1, h2⟩ := eachLane_setTreg (groupOf (tileOf s1 site) g) hn f.dst.isLt fun i =>
      { val := BitVec.ofNat 32 (sregVal l (tileOf s1 site) site g i f.imm.toNat), poison := false }
    obtain ⟨t, ht, hr⟩ := th_retires_from h (opOk := fun _ => f.fn == 5 && decide (f.imm.toNat ≤ 4)) (by simp [hfn, himm]) hf
      (fun e s x => .next (putGroup s site g (eachLane x e.lanes fun x i =>
        setTreg x i f.dst.toNat
          { val := BitVec.ofNat 32 (sregVal e.launch (tileOf s site) site g i f.imm.toNat), poison := false }))) 2 rfl ((Worked.refl ..).putGroup _)
    refine ⟨t, _, ht, hr, h1, fun hd i hi => (h2 (toNat_ne_255 hd) i hi).trans ?_⟩
    have hcases : f.imm = 0 ∨ f.imm = 1 ∨ f.imm = 2 ∨ f.imm = 3 ∨ f.imm = 4 := by bv_omega
    rcases hcases with e | e | e | e | e <;> rw [e] <;> rfl
  · have hret := thRetire_retired (l := l) (lanes := lanes) (Worked.refl (setTile s1 site (exitLanes (tileOf s1 site) g lanes)) site g) fun _ => pc + 8
    refine ⟨_, exit_exits h hfn hb (fun k => (hp k).1) hf, ?_, fun k hk => ?_, fun k hk => ?_, ?_⟩
    · obtain ⟨tiles, counters, hfr⟩ := hret.frame
      exact ⟨tiles, counters, hfr⟩
    · rw [hret.tiles k hk, tileOf_setTile_other _ _ _ hk]
    · rw [hret.others k hk, tileOf_setTile_same, groupOf_exitLanes_other _ _ hk, if_pos (hp k).2]
      rfl
    · have hgroup := hret.group
      rw [tileOf_setTile_same, groupOf_exitLanes_same] at hgroup
      dsimp only
      by_cases hall : (groupOf (tileOf s1 site) g).exited ||| maskOf lanes = 0xFFFFFFFF
      · have hy : exitedGroup (groupOf (tileOf s1 site) g) lanes = _ := if_pos hall
        rw [hy] at hgroup
        have hgone : goingLanes (goneOn (exitedGroup (groupOf (tileOf s1 site) g) lanes) lanes fun _ => pc + 8) = [] :=
          goingLanes_exited (by rw [hy]; exact hall)
        have htile := tileOf_thRetire (setTile s1 site (exitLanes (tileOf s1 site) g lanes)) l site g lanes fun _ => pc + 8
        rw [tileOf_setTile_same, groupOf_exitLanes_same, parkIdle, groupOf_setGroup_same, if_pos hgone] at htile
        obtain ⟨ha, he⟩ := park_leaves (setGroup (ageSamples (exitLanes (tileOf s1 site) g lanes) (some g)) g
          (goneOn (exitedGroup (groupOf (tileOf s1 site) g) lanes) lanes fun _ => pc + 8)) g .other
        rw [if_pos hall]
        refine ⟨by rw [hgroup], by rw [hgroup], by rw [hgroup], by rw [hgroup], by rw [hgroup], ?_, ?_⟩
        · rw [htile]; exact ha
        · rw [htile]; exact he
      · have hy : exitedGroup (groupOf (tileOf s1 site) g) lanes = _ := if_neg hall
        rw [hy] at hgroup
        rw [if_neg hall]
        refine ⟨by rw [hgroup], by rw [hgroup], by rw [hgroup], ?_⟩
        rw [hgroup]
        exact (congrArg TGroup.running (groupOf_ready h g)).trans h.running

end Sys2Proof.Machine
end

section
/-! Fences of three scopes (R98, R292, R370). -/

set_option Elab.async false

namespace Sys2Proof.Machine

/-- Nothing that a fence of a scope waits for is left of the issuers. -/
def Drained (s : State) (site scope : Nat) (who : List (Option Nat)) : Prop :=
  (∀ m ∈ (tileOf s site).msgs, m.issuer ∉ who) ∧ (1 ≤ scope → ∀ i ∈ who,
      (∀ r ∈ redsLeft s site, issuedBy r i = false) ∧ ∀ h ∈ s.sovel.held, h.site ≠ some (site, i)) ∧
    (scope = 2 → ∀ e ∈ s.remotes, ∀ i ∈ who, e.2.what ≠ .msgSend site i ∧ ∀ reg, e.2.what ≠ .msgGet site i reg)

theorem remotesLeft_none {s : State} {site : Nat} {i : Option Nat}
    (h : ∀ e ∈ s.remotes, e.2.what ≠ .msgSend site i ∧ ∀ reg, e.2.what ≠ .msgGet site i reg) : remotesLeft s site i = false := by
  refine List.any_eq_false.2 fun e he => ?_
  obtain ⟨h1, h2⟩ := h e he
  split
  · rename_i st j hw
    rw [hw] at h1
    intro hc
    simp only [Bool.and_eq_true, beq_iff_eq] at hc
    exact h1 (by rw [hc.1, hc.2])
  · rename_i st j reg hw
    have h2 := h2 reg
    rw [hw] at h2
    intro hc
    simp only [Bool.and_eq_true, beq_iff_eq] at hc
    exact h2 (by rw [hc.1, hc.2])
  · exact Bool.false_ne_true

theorem fenceBlocked_drained {s : State} {site scope : Nat} {who : List (Option Nat)} (h : Drained s site scope who) :
    fenceBlocked s site scope who = false := by
  obtain ⟨hm, hr, hf⟩ := h
  refine List.any_eq_false.2 fun i hi => ?_
  have h1 : messagesLeft (tileOf s site) i = false :=
    List.any_eq_false.2 fun m hmem hc => hm m hmem (by rw [beq_iff_eq.1 hc]; exact hi)
  have h2 : (decide (1 ≤ scope) && ((redsLeft s site).any (issuedBy · i) || s.sovel.held.any fun h => h.site == some (site, i))) = false := by
    by_cases hs : 1 ≤ scope
    · obtain ⟨hred, hheld⟩ := hr hs i hi
      rw [List.any_eq_false.2 fun r hr => by rw [hred r hr]; exact Bool.false_ne_true,
        List.any_eq_false.2 fun x hx hc => hheld x hx (beq_iff_eq.1 hc)]
      exact Bool.and_false _
    · rw [decide_eq_false hs]; rfl
  have h3 : (scope == 2 && remotesLeft s site i) = false := by
    by_cases hs : scope = 2
    · rw [remotesLeft_none fun e he => hf hs e he i hi, Bool.and_false]
    · rw [beq_eq_false_iff_ne.2 hs]; rfl
  rw [h1, h2, h3]
  exact Bool.false_ne_true

/-- A fence of the control core. -/
theorem ccFence_retires {s s1 : State} {site : Nat} {l : Launch} {pc : DWord} {f : CrF} (h : CcReady false s site l pc s1)
    (hq : (tileOf s1 site).vec.queue = []) {scope ccFn : Nat} (thFn : Nat) (hl : sysLegal f ccFn = true) (hd : Drained s1 site scope [none]) :
    ∃ t, whenUp s (fun s => fenceStep s site (.cc f) ccFn thFn scope) = .next t ∧
      CcRetired (fenceDone s1 site scope) t l site 0 T64.zero (pc + 4) := by
  have hb := fenceBlocked_drained hd
  exact cc_retires_in h (fun h => by cases h) hl (fun _ s t _ =>
    if t.vec.queue ≠ [] ∨ fenceBlocked s site scope [none] then .wait s else .next (fenceDone s site scope)) [] (by simp [hq, hb])

/-- A fence of a thread group. -/
theorem thFence_retires {s s1 : State} {site g : Nat} {l : Launch} {lanes : List Nat} {pc : DWord} {f : TiF}
    (h : ThReady s site g l lanes pc s1) (hf : ThFields s site g l lanes [] [f.dst.toNat, f.src1.toNat] none) {scope thFn : Nat} (ccFn : Nat)
    (hl : f.fn.toNat = thFn) (hd : Drained s1 site scope (lanes.map fun k => some (g * 32 + k))) :
    ∃ t, whenUp s (fun s => fenceStep s site (.th g f) ccFn thFn scope) = .next t ∧
      ThRetired (fenceDone s1 site scope) t l site g lanes (groupOf (tileOf s1 site) g) fun _ => pc + 8 := by
  have hb := fenceBlocked_drained hd
  have hgroup : groupOf (tileOf (fenceDone s1 site scope) site) g = groupOf (tileOf s1 site) g := by
    unfold fenceDone
    split
    · rfl
    · unfold l1Clear; rw [tileOf_updTile_same]; rfl
  rw [← hgroup]
  exact th_retires_from h (opOk := fun _ => f.fn.toNat == thFn) (beq_iff_eq.2 hl) hf (fun e s _ =>
    if fenceBlocked s site scope (e.lanes.map fun i => some (g * 32 + i)) then .wait none else .next (fenceDone s site scope)) 2
    (by simp [hb]) (Worked.refl ..)

/-- Settles O12: a fence that has nothing left to wait for does its effect and retires. -/
theorem fences : Obligations.Fences := by
  refine ⟨fun s site l pc s1 f h hq h1 h2 h3 => ⟨fun hfn hd => ?_, fun hfn hd => ?_, fun hfn hd => ?_⟩,
    fun s site g l lanes pc s1 f h hf => ⟨fun hfn hd => ?_, fun hfn hd => ?_, fun hfn hd => ?_⟩⟩
  · exact ccFence_retires h hq 2 (by simp [sysLegal, hfn, h1, h2, h3]) hd
  · exact ccFence_retires h hq 3 (by simp [sysLegal, hfn, h1, h2, h3]) hd
  · exact ccFence_retires h hq 4 (by simp [sysLegal, hfn, h1, h2, h3]) hd
  · exact thFence_retires h hf 2 (by rw [hfn]; rfl) hd
  · exact thFence_retires h hf 3 (by rw [hfn]; rfl) hd
  · exact thFence_retires h hf 4 (by rw [hfn]; rfl) hd

end Sys2Proof.Machine
end

section
/-! Barriers of a thread group and of a tile, and waits for tokens (R119 to R122, R125). -/

set_option Elab.async false

namespace Sys2Proof.Machine

/-! ### Masks of lanes -/

theorem maskOf_append (l : List Nat) {i : Nat} (hn : (l ++ [i]).Nodup) :
    maskOf (l ++ [i]) = maskOf l ||| BitVec.ofNat 32 (2 ^ i) := by
  have hl : l.Nodup := hn.of_append_left
  have hi : i ∉ l := fun h => (List.nodup_append.1 hn).2.2 i h i (List.mem_singleton_self i) rfl
  unfold maskOf
  rw [← BitVec.ofNat_or]
  congr 1
  refine Nat.eq_of_testBit_eq fun j => ?_
  rw [Nat.testBit_or, testBit_sum_two_pow hn, testBit_sum_two_pow hl, Nat.testBit_two_pow]
  simp [Bool.decide_or, eq_comm]

theorem testBit_maskOf {l : List Nat} (hn : l.Nodup) {i : Nat} (hi : i < 32) : (maskOf l).toNat.testBit i = decide (i ∈ l) := by
  unfold maskOf
  rw [BitVec.toNat_ofNat, Nat.testBit_mod_two_pow, testBit_sum_two_pow hn, decide_eq_true hi, Bool.true_and]

/-! ### LanesWait lanes -/

/-- The waits of a group: one for each lane of a list, at one barrier. -/
structure LanesWait (m : NMap BarWait) (lanes : List Nat) (bar : Option Nat) (pc : DWord) : Prop where
  lanes : ∀ i, (NMap.find m i).isSome = decide (i ∈ lanes)
  waits : ∀ e ∈ m, e.2.bar = bar ∧ e.2.pc = pc ∧ e.2.early = false

theorem mem_insert {β : Type} {m : NMap β} {k : Nat} {v : β} {e : Nat × β} (h : e ∈ NMap.insert m k v) : e = (k, v) ∨ e ∈ m := by
  induction m with
  | nil => exact .inl (by simpa [NMap.insert] using h)
  | cons a r ih =>
    obtain ⟨j, w⟩ := a
    unfold NMap.insert at h
    split at h
    · exact (List.mem_cons.1 h).imp id id
    · split at h
      · exact (List.mem_cons.1 h).imp id fun h => List.mem_cons_of_mem _ h
      · rcases List.mem_cons.1 h with h | h
        · exact .inr (h ▸ List.mem_cons_self)
        · exact (ih h).imp id fun h => List.mem_cons_of_mem _ h

theorem mem_of_find {β : Type} {m : NMap β} {k : Nat} {v : β} (h : NMap.find m k = some v) : (k, v) ∈ m := by
  induction m with
  | nil => cases h
  | cons a r ih =>
    obtain ⟨j, w⟩ := a
    unfold NMap.find at h
    split at h
    · rename_i hj; cases h; subst hj; exact List.mem_cons_self
    · exact List.mem_cons_of_mem _ (ih h)

theorem LanesWait.nil (bar : Option Nat) (pc : DWord) : LanesWait [] [] bar pc := ⟨fun _ => rfl, by simp⟩

theorem LanesWait.snoc {m : NMap BarWait} {lanes : List Nat} {bar : Option Nat} {pc : DWord} (h : LanesWait m lanes bar pc) (i : Nat)
    (w : BarWait) (hw : w.bar = bar ∧ w.pc = pc ∧ w.early = false) : LanesWait (NMap.insert m i w) (lanes ++ [i]) bar pc := by
  refine ⟨fun j => ?_, fun e he => ?_⟩
  · by_cases hj : j = i
    · subst hj; simp
    · rw [NMap.find_insert_other _ _ hj, h.lanes j]; simp [hj]
  · rcases mem_insert he with rfl | he
    · exact hw
    · exact h.waits e he

theorem LanesWait.of_mem {m : NMap BarWait} {lanes : List Nat} {bar : Option Nat} {pc : DWord} (h : LanesWait m lanes bar pc) {i : Nat}
    (hi : i ∈ lanes) : ∃ w, NMap.find m i = some w ∧ w.bar = bar ∧ w.pc = pc := by
  obtain ⟨w, hw⟩ := Option.isSome_iff_exists.1 ((h.lanes i).trans (decide_eq_true hi))
  obtain ⟨h1, h2, -⟩ := h.waits _ (mem_of_find hw)
  exact ⟨w, hw, h1, h2⟩

theorem LanesWait.eq_nil {m : NMap BarWait} {bar : Option Nat} {pc : DWord} (h : LanesWait m [] bar pc) : m = [] := by
  cases m with
  | nil => rfl
  | cons e r => have := h.lanes e.1; simp [NMap.find] at this

/-- From t to u lanes of group g have arrived at a barrier; those that wait do so there. -/
structure ArrivedAt (t u : Tile) (g : Nat) (lanes : List Nat) (bar : Option Nat) (pc : DWord) (wait : Bool) : Prop where
  frame : u = { t with groups := u.groups, bars := u.bars, arrivals := u.arrivals }
  others : ∀ k, k ≠ g → groupOf u k = groupOf t k
  group : groupOf u g = { groupOf t g with barWait := (groupOf u g).barWait, gphase := (groupOf u g).gphase }
  waits : LanesWait (groupOf u g).barWait (if wait then lanes else []) bar pc

theorem groupOf_beginWait_same (t : Tile) (g i : Nat) (bar : Option Nat) (pc : DWord) (early arv : Bool) :
    groupOf (beginWait t g i bar pc early arv) g = { groupOf t g with
      barWait := NMap.insert (groupOf t g).barWait i { bar := bar, pc := pc, order := t.arrivals, early := early, arv := arv } } :=
  groupOf_setGroup_same ..

theorem groupOf_beginWait_other (t : Tile) {g k : Nat} (i : Nat) (bar : Option Nat) (pc : DWord) (early arv : Bool) (h : k ≠ g) :
    groupOf (beginWait t g i bar pc early arv) k = groupOf t k := groupOf_setGroup_other _ _ h

/-- Lanes arrive at the group barrier. -/
theorem arriveGroups {t : Tile} {g : Nat} (pc : DWord) (hp : (groupOf t g).gphase = none) (hw : (groupOf t g).barWait = [])
    (lanes : List Nat) (hn : lanes.Nodup) :
    let u := lanes.foldl (arriveGroup g pc) t
    ArrivedAt t u g lanes none pc true ∧ u.bars = t.bars ∧
      (groupOf u g).gphase = if lanes = [] then none else some { pc := pc, arrived := maskOf lanes } := by
  induction lanes using List.reverseRecOn with
  | nil => exact ⟨⟨rfl, fun _ _ => rfl, rfl, by rw [List.foldl_nil, hw]; exact .nil ..⟩, rfl, hp⟩
  | append_singleton l i ih =>
    obtain ⟨ha, hb, hg⟩ := ih hn.of_append_left
    rw [List.foldl_append, List.foldl_cons, List.foldl_nil]
    generalize l.foldl (arriveGroup g pc) t = u at ha hb hg
    have hphase : ∃ x', arriveGroup g pc u i = beginWait (setGroup u g x') g i none pc false false ∧
        x' = { groupOf u g with gphase := some { pc := pc, arrived := maskOf (l ++ [i]) } } := by
      unfold arriveGroup
      dsimp only
      rw [hg, maskOf_append l hn]
      by_cases hl : l = []
      · subst hl
        exact ⟨_, rfl, by simp [maskOf]⟩
      · rw [if_neg hl]
        exact ⟨_, rfl, by simp⟩
    obtain ⟨x', hu, rfl⟩ := hphase
    rw [hu]
    have hgroup := groupOf_beginWait_same (setGroup u g { groupOf u g with gphase := some { pc := pc, arrived := maskOf (l ++ [i]) } })
      g i none pc false false
    rw [groupOf_setGroup_same] at hgroup
    refine ⟨⟨?_, fun k hk => ?_, ?_, ?_⟩, hb, ?_⟩
    · conv => lhs; unfold beginWait setGroup; rw [ha.frame]
      rfl
    · rw [groupOf_beginWait_other _ _ _ _ _ _ hk, groupOf_setGroup_other _ _ hk, ha.others k hk]
    · rw [hgroup, ha.group]
    · rw [hgroup]
      exact ha.waits.snoc i _ ⟨rfl, rfl, rfl⟩
    · rw [hgroup, if_neg (by simp)]

/-- The open phases of a tile barrier at which lanes of one group have arrived. -/
def onePhase (g b : Nat) (mask : DWord) (lanes : List Nat) : NMap TPhase :=
  if lanes = [] then [] else [(b, { mask := mask, arrived := [(g, maskOf lanes)], nextMask := 0, nextArr := [] })]

/-- One lane arrives at a tile barrier where lanes of its group alone have arrived. -/
theorem arriveTile_arrives {t u : Tile} {g b i : Nat} {pc mask : DWord} {arv : Bool} {l : List Nat} (hm : mask.toNat.testBit g = true)
    (hi : i < 32) (hn : (l ++ [i]).Nodup) (ha : ArrivedAt t u g l (some b) pc !arv) (hb : u.bars = onePhase g b mask l)
    (hp : (groupOf u g).gphase = (groupOf t g).gphase) :
    ∃ v, arriveTile g b pc mask arv u i = .inr v ∧ ArrivedAt t v g (l ++ [i]) (some b) pc !arv ∧
      v.bars = onePhase g b mask (l ++ [i]) ∧ (groupOf v g).gphase = (groupOf t g).gphase := by
  have hnot : i ∉ l := fun h => (List.nodup_append.1 hn).2.2 i h i (List.mem_singleton_self i) rfl
  have harr : arriveTile g b pc mask arv u i = .inr (if arv then { u with bars := onePhase g b mask (l ++ [i]) }
      else beginWait { u with bars := onePhase g b mask (l ++ [i]) } g i (some b) pc false false) := by
    have hne : l ++ [i] ≠ [] := by simp
    unfold arriveTile
    rw [hb]
    unfold onePhase
    rw [if_neg hne, maskOf_append l hn]
    by_cases hl : l = []
    · subst hl
      simp only [if_true, NMap.find_nil, hm]
      simp [maskOf, addArrival, arrivedOf, NMap.insert]
    · have hbit : (arrivedOf [(g, maskOf l)] g).toNat.testBit i = false := by
        have : arrivedOf [(g, maskOf l)] g = maskOf l := by simp [arrivedOf, NMap.getD, NMap.find]
        rw [this, testBit_maskOf hn.of_append_left hi, decide_eq_false hnot]
      rw [if_neg hl]
      simp only [NMap.find, if_true, hbit, hm, and_self]
      simp [addArrival, arrivedOf, NMap.insert, NMap.getD, NMap.find]
  refine ⟨_, harr, ?_⟩
  cases arv with
  | true => exact ⟨⟨by rw [if_pos rfl, ha.frame], ha.others, ha.group, ha.waits⟩, rfl, hp⟩
  | false =>
    have hgroup := groupOf_beginWait_same { u with bars := onePhase g b mask (l ++ [i]) } g i (some b) pc false false
    rw [if_neg Bool.false_ne_true]
    refine ⟨⟨?_, fun k hk => ?_, ?_, ?_⟩, rfl, ?_⟩
    · conv => lhs; unfold beginWait setGroup; rw [ha.frame]
      rfl
    · rw [groupOf_beginWait_other _ _ _ _ _ _ hk]; exact ha.others k hk
    · rw [hgroup]
      conv => lhs; rw [show groupOf { u with bars := onePhase g b mask (l ++ [i]) } g = groupOf u g from rfl, ha.group]
      rfl
    · rw [hgroup]
      exact ha.waits.snoc i _ ⟨rfl, rfl, rfl⟩
    · rw [hgroup]; exact hp

/-- Lanes of a group arrive at a tile barrier with one mask. -/
theorem tileArrivals_arrive {t : Tile} {e : ThEnv} {x : TGroup} {f : TiF} {b : Nat} {mask : DWord} {arv : Bool}
    (hm : mask.toNat.testBit e.g = true) (r : List Nat) (hx : ∀ i ∈ r, i < 32 ∧ (tpair x i f.src1.toNat).val = mask) (l : List Nat) (u : Tile)
    (hn : (l ++ r).Nodup) (ha : ArrivedAt t u e.g l (some b) e.pc !arv) (hb : u.bars = onePhase e.g b mask l)
    (hp : (groupOf u e.g).gphase = (groupOf t e.g).gphase) :
    ∃ v, tileArrivals f b arv e x u r = .inr v ∧ ArrivedAt t v e.g (l ++ r) (some b) e.pc !arv ∧
      v.bars = onePhase e.g b mask (l ++ r) ∧ (groupOf v e.g).gphase = (groupOf t e.g).gphase := by
  induction r generalizing l u with
  | nil => exact ⟨u, rfl, by rwa [List.append_nil], by rwa [List.append_nil], hp⟩
  | cons i r ih =>
    obtain ⟨hi, hv⟩ := hx i List.mem_cons_self
    have hassoc : l ++ i :: r = l ++ [i] ++ r := by simp
    rw [hassoc] at hn ⊢
    obtain ⟨v, hv', ha', hb', hp'⟩ := arriveTile_arrives hm hi hn.of_append_left ha hb hp
    obtain ⟨w, hw, h⟩ := ih (fun j hj => hx j (List.mem_cons_of_mem _ hj)) (l ++ [i]) v hn ha' hb' hp'
    refine ⟨w, ?_, h⟩
    rw [tileArrivals, hv, hv']
    exact hw

/-! ### The end of a phase -/

/-- A fold of which one step alone does anything. -/
theorem foldl_only {α : Type} (f : α → Nat → α) {g : Nat} {t : α} (h1 : ∀ k, k ≠ g → f t k = t) (h2 : ∀ k, k ≠ g → f (f t g) k = f t g)
    {l : List Nat} (hn : l.Nodup) (hg : g ∈ l) : l.foldl f t = f t g := by
  have hstay (u : α) (r : List Nat) (hu : ∀ k ∈ r, f u k = u) : r.foldl f u = u := by
    induction r with
    | nil => rfl
    | cons k r ih => rw [List.foldl_cons, hu k List.mem_cons_self]; exact ih fun k hk => hu k (List.mem_cons_of_mem _ hk)
  induction l with
  | nil => cases hg
  | cons k r ih =>
    obtain ⟨hk, hn⟩ := List.nodup_cons.1 hn
    by_cases hkg : k = g
    · subst hkg
      rw [List.foldl_cons, hstay _ r fun j hj => h2 j fun e => hk (e ▸ hj)]
    · rw [List.foldl_cons, h1 k hkg]
      exact ih hn ((List.mem_cons.1 hg).resolve_left (Ne.symm hkg))

/-- From t to u the waits of group g have ended. -/
structure Released (t u : Tile) (g : Nat) : Prop where
  frame : u = { t with groups := u.groups, active := u.active, eligible := u.eligible }
  others : ∀ k, k ≠ g → groupOf u k = groupOf t k
  group : ∃ n p w, groupOf u g = { groupOf t g with barWait := [], sentinel := n, parked := p, waitsOn := w }

/-- Waits all of which a condition picks end. -/
theorem releaseWaits_all {t : Tile} {g : Nat} {p : BarWait → Bool} (h : ∀ e ∈ (groupOf t g).barWait, p e.2 = true) :
    Released t (releaseWaits t g p) g := by
  by_cases hw : (groupOf t g).barWait = []
  · have hstay : releaseWaits t g p = t := by unfold releaseWaits; dsimp only; rw [hw]; rfl
    rw [hstay]
    exact ⟨rfl, fun _ _ => rfl, (groupOf t g).sentinel, (groupOf t g).parked, (groupOf t g).waitsOn, by rw [← hw]⟩
  · have hany : ((groupOf t g).barWait.any fun e => p e.2) = true := by
      obtain ⟨e, r, he⟩ := List.exists_cons_of_ne_nil hw
      exact List.any_eq_true.2 ⟨e, by rw [he]; exact List.mem_cons_self, h e (by rw [he]; exact List.mem_cons_self)⟩
    have hnone : ((groupOf t g).barWait.filter fun (e : Nat × BarWait) => !p e.2) = [] :=
      List.filter_eq_nil_iff.2 fun e he => by simp [h e he]
    unfold releaseWaits
    dsimp only
    rw [hany, hnone, if_pos rfl]
    split
    · exact ⟨rfl, fun k hk => groupOf_setGroup_other _ _ hk, _, _, _, groupOf_setGroup_same ..⟩
    · obtain ⟨q, w, hq⟩ := groupOf_makeEligible_same (setGroup t g { groupOf t g with barWait := [], sentinel := 0 }) g
      refine ⟨?_, fun k hk => ?_, 0, q, w, ?_⟩
      · rw [makeEligible_frame]; rfl
      · rw [groupOf_makeEligible_other _ hk, groupOf_setGroup_other _ _ hk]
      · rw [hq, groupOf_setGroup_same]

theorem releaseWaits_none {t : Tile} {g : Nat} (p : BarWait → Bool) (h : (groupOf t g).barWait = []) : releaseWaits t g p = t := by
  unfold releaseWaits; dsimp only; rw [h]; rfl

/-- From t to u the phase of group g, or of a tile barrier that names it alone, has completed. -/
structure Completed (t u : Tile) (g : Nat) : Prop where
  frame : u = { t with groups := u.groups, active := u.active, eligible := u.eligible, bars := u.bars }
  others : ∀ k, k ≠ g → groupOf u k = groupOf t k
  group : ∃ n p w, groupOf u g = { groupOf t g with barWait := [], gphase := none, sentinel := n, parked := p, waitsOn := w }
  bars : u.bars = []

/-- Lanes of which a live one has not come. -/
theorem not_arrived {x : TGroup} {lanes : List Nat} (hn : lanes.Nodup) {j : Nat} (hj : j ∈ liveLanes x) (hnot : j ∉ lanes) :
    ((liveLanes x).all fun i => (maskOf lanes).toNat.testBit i) = false := by
  have hlt : j < 32 := List.mem_range.1 (List.mem_filter.1 hj).1
  exact List.all_eq_false.2 ⟨j, hj, by rw [testBit_maskOf hn hlt, decide_eq_false hnot]; exact Bool.false_ne_true⟩

theorem all_arrived {x : TGroup} {lanes : List Nat} (hn : lanes.Nodup) (h : ∀ j ∈ liveLanes x, j ∈ lanes) :
    ((liveLanes x).all fun i => (maskOf lanes).toNat.testBit i) = true :=
  List.all_eq_true.2 fun j hj => by
    rw [testBit_maskOf hn (List.mem_range.1 (List.mem_filter.1 hj).1), decide_eq_true (h j hj)]

theorem settleGroup_none {t : Tile} {k : Nat} (h : (groupOf t k).gphase = none) : settleGroup t k = t := by
  unfold settleGroup; dsimp only; rw [h]

theorem settleTile_none {t : Tile} {b : Nat} (h : NMap.find t.bars b = none) : settleTileOnce t b = t := by
  unfold settleTileOnce; rw [h]

theorem settleTiles_none {t : Tile} (h : t.bars = []) (l : List Nat) :
    l.foldl (fun t b => settleTileOnce (settleTileOnce t b) b) t = t := by
  have hb (b : Nat) : settleTileOnce t b = t := settleTile_none (by rw [h]; rfl)
  induction l with
  | nil => rfl
  | cons b r ih => rw [List.foldl_cons, hb, hb]; exact ih

/-- The group barrier completes when every live thread has come. -/
theorem settle_group {t : Tile} {g : Nat} {lanes : List Nat} {pc : DWord} (hg : g < 64) (hb : t.bars = [])
    (hothers : ∀ k, k ≠ g → (groupOf t k).gphase = none) (hphase : (groupOf t g).gphase = some { pc := pc, arrived := maskOf lanes })
    (hwait : LanesWait (groupOf t g).barWait lanes none pc) (hn : lanes.Nodup) (hall : ∀ j ∈ liveLanes (groupOf t g), j ∈ lanes) :
    Completed t (settle t) g := by
  have hrel := releaseWaits_all (t := setGroup t g { groupOf t g with gphase := none }) (g := g)
    (p := fun w => w.bar.isNone && w.pc == pc) fun e he => by
      rw [groupOf_setGroup_same] at he
      obtain ⟨h1, h2, -⟩ := hwait.waits e he
      simp [h1, h2]
  have hone : settleGroup t g = releaseWaits (setGroup t g { groupOf t g with gphase := none }) g fun w => w.bar.isNone && w.pc == pc := by
    unfold settleGroup
    dsimp only
    rw [hphase]
    exact if_pos (all_arrived hn hall)
  have hdone : Completed t (settleGroup t g) g := by
    rw [hone]
    obtain ⟨n, p, w, hgr⟩ := hrel.group
    rw [groupOf_setGroup_same] at hgr
    refine ⟨?_, fun k hk => ?_, ⟨n, p, w, hgr⟩, ?_⟩
    · rw [hrel.frame]; rfl
    · rw [hrel.others k hk, groupOf_setGroup_other _ _ hk]
    · rw [hrel.frame]; exact hb
  obtain ⟨n, p, w, hgr⟩ := hdone.group
  have hfold : (List.range 64).foldl settleGroup t = settleGroup t g :=
    foldl_only settleGroup (fun k hk => settleGroup_none (hothers k hk))
      (fun k hk => settleGroup_none (by rw [hdone.others k hk]; exact hothers k hk)) List.nodup_range (List.mem_range.2 hg)
  unfold settle
  dsimp only
  rw [hfold, settleTiles_none hdone.bars]
  exact hdone

/-- The group barrier stays open while a live thread has not come. -/
theorem settle_group_open {t : Tile} {g j : Nat} {lanes : List Nat} {pc : DWord} (hb : t.bars = [])
    (hothers : ∀ k, k ≠ g → (groupOf t k).gphase = none) (hphase : (groupOf t g).gphase = some { pc := pc, arrived := maskOf lanes })
    (hn : lanes.Nodup) (hj : j ∈ liveLanes (groupOf t g)) (hnot : j ∉ lanes) : settle t = t := by
  have hstep k : settleGroup t k = t := by
    by_cases hk : k = g
    · subst hk
      unfold settleGroup
      dsimp only
      rw [hphase]
      exact if_neg fun h => Bool.false_ne_true ((not_arrived hn hj hnot).symm.trans h)
    · exact settleGroup_none (hothers k hk)
  have hfold (l : List Nat) : l.foldl settleGroup t = t := by
    induction l with
    | nil => rfl
    | cons k r ih => rw [List.foldl_cons, hstep]; exact ih
  unfold settle
  dsimp only
  rw [hfold, settleTiles_none hb]

/-- Nothing is divergent while every open phase waits for a thread that can still come. -/
theorem judge_open {s : State} (l : Launch) {site g j : Nat} (hothers : ∀ k, k ≠ g → (groupOf (tileOf s site) k).gphase = none)
    (hj : j ∈ liveLanes (groupOf (tileOf s site) g)) (hw : NMap.find (groupOf (tileOf s site) g).barWait j = none)
    (hb : ∀ e ∈ (tileOf s site).bars, g ∈ namedGroups (tileOf s site) e.2.mask) : judge s l site = s := by
  have hall {gs : List Nat} (hg : g ∈ gs) : allWait (tileOf s site) gs = false :=
    List.all_eq_false.2 ⟨g, hg, by
      rw [Bool.not_eq_true]
      exact List.all_eq_false.2 ⟨j, hj, by rw [hw]; exact Bool.false_ne_true⟩⟩
  have h1 : (List.range 64).find? (fun g => (groupOf (tileOf s site) g).gphase.isSome && allWait (tileOf s site) [g]) = none :=
    List.find?_eq_none.2 fun k _ => by
      by_cases hk : k = g
      · subst hk; rw [hall List.mem_cons_self, Bool.and_false]; exact Bool.false_ne_true
      · rw [hothers k hk]; exact Bool.false_ne_true
  have h2 : (tileOf s site).bars.find? (fun e => allWait (tileOf s site) (namedGroups (tileOf s site) e.2.mask) && !tileArrived (tileOf s site) e.2) = none :=
    List.find?_eq_none.2 fun e he => by rw [hall (hb e he)]; exact Bool.false_ne_true
  unfold judge divergent
  rw [h1]
  dsimp only
  rw [h2]

theorem takeEarly_none {x : TGroup} (b : Nat) (h : x.barWait = []) : takeEarly x b = x := by
  unfold takeEarly; rw [h]; cases x; cases h; rfl

/-- The groups that the mask of a phase names: g alone, the others not running. -/
theorem namedGroups_alone {t : Tile} {mask : DWord} {g : Nat} (hg : g < 64) (hm : mask.toNat.testBit g = true) (hr : (groupOf t g).running = true)
    (halone : ∀ k, k < 64 → mask.toNat.testBit k = true → k ≠ g → (groupOf t k).running = false) (k : Nat) :
    k ∈ namedGroups t mask ↔ k = g := by
  unfold namedGroups
  rw [List.mem_filter, List.mem_range, Bool.and_eq_true]
  constructor
  · rintro ⟨h1, h2, h3⟩
    by_contra hk
    rw [halone k h1 h2 hk] at h3
    cases h3
  · rintro rfl
    exact ⟨hg, hm, hr⟩

theorem tileArrived_alone {t : Tile} {mask : DWord} {g : Nat} {lanes : List Nat} (hnamed : ∀ k, k ∈ namedGroups t mask ↔ k = g) :
    tileArrived t { mask := mask, arrived := [(g, maskOf lanes)], nextMask := 0, nextArr := [] } =
      (liveLanes (groupOf t g)).all fun i => (maskOf lanes).toNat.testBit i := by
  have harr : arrivedOf [(g, maskOf lanes)] g = maskOf lanes := by simp [arrivedOf, NMap.getD, NMap.find]
  unfold tileArrived
  dsimp only
  rw [Bool.eq_iff_iff, List.all_eq_true]
  constructor
  · intro h
    have := h g ((hnamed g).2 rfl)
    rwa [harr] at this
  · intro h k hk
    obtain rfl := (hnamed k).1 hk
    rwa [harr]

theorem settleGroups_none {t : Tile} (h : ∀ k, (groupOf t k).gphase = none) (l : List Nat) : l.foldl settleGroup t = t := by
  induction l with
  | nil => rfl
  | cons k r ih => rw [List.foldl_cons, settleGroup_none (h k)]; exact ih

/-- The tile barrier that names group g alone completes when every live thread of g has come. -/
theorem settleTile_completes {t : Tile} {g b : Nat} {lanes : List Nat} {mask pc : DWord} {wait : Bool} (hg : g < 64)
    (hb : t.bars = [(b, { mask := mask, arrived := [(g, maskOf lanes)], nextMask := 0, nextArr := [] })])
    (hphase : ∀ k, (groupOf t k).gphase = none) (hothers : ∀ k, k ≠ g → (groupOf t k).barWait = [])
    (hwait : LanesWait (groupOf t g).barWait (if wait then lanes else []) (some b) pc) (hnamed : ∀ k, k ∈ namedGroups t mask ↔ k = g)
    (hn : lanes.Nodup) (hall : ∀ j ∈ liveLanes (groupOf t g), j ∈ lanes) : Completed t (settleTileOnce t b) g := by
  have hrel := releaseWaits_all (t := t) (g := g) (p := fun w => w.bar == some b && (!w.early || w.arv)) fun e he => by
    obtain ⟨h1, -, h3⟩ := hwait.waits e he
    simp [h1, h3]
  obtain ⟨n, p, w, hgr⟩ := hrel.group
  have hfold : (List.range 64).foldl (fun t g => releaseWaits t g fun w => w.bar == some b && (!w.early || w.arv)) t =
      releaseWaits t g fun w => w.bar == some b && (!w.early || w.arv) :=
    foldl_only _ (fun k hk => releaseWaits_none _ (hothers k hk)) (fun k hk => releaseWaits_none _ (by rw [hrel.others k hk]; exact hothers k hk))
      List.nodup_range (List.mem_range.2 hg)
  have hone : settleTileOnce t b = { releaseWaits t g (fun w => w.bar == some b && (!w.early || w.arv)) with
      groups := (releaseWaits t g fun w => w.bar == some b && (!w.early || w.arv)).groups.map fun e => (e.1, takeEarly e.2 b), bars := [] } := by
    have hfind : NMap.find t.bars b = some { mask := mask, arrived := [(g, maskOf lanes)], nextMask := 0, nextArr := [] } := by
      rw [hb, NMap.find, if_pos rfl]
    have herase : NMap.erase t.bars b = [] := by rw [hb]; simp [NMap.erase]
    unfold settleTileOnce
    rw [hfind]
    dsimp only
    have hbars : (releaseWaits t g fun w => w.bar == some b && (!w.early || w.arv)).bars = t.bars := by rw [hrel.frame]
    rw [if_pos ((tileArrived_alone hnamed).trans (all_arrived hn hall)), hfold, if_pos rfl, hbars, herase]
  have hwaits k : (groupOf (releaseWaits t g fun w => w.bar == some b && (!w.early || w.arv)) k).barWait = [] := by
    by_cases hk : k = g
    · subst hk; rw [hgr]
    · rw [hrel.others k hk]; exact hothers k hk
  have hgroup k : groupOf (settleTileOnce t b) k = groupOf (releaseWaits t g fun w => w.bar == some b && (!w.early || w.arv)) k := by
    rw [hone]
    exact (NMap.getD_map _ (fun x => takeEarly x b) k TGroup.empty).trans (takeEarly_none b (hwaits k))
  refine ⟨?_, fun k hk => (hgroup k).trans (hrel.others k hk), ⟨n, p, w, ?_⟩, by rw [hone]⟩
  · rw [hone, hrel.frame]
  · rw [hgroup, hgr, ← hphase g]

theorem settle_tile {t : Tile} {g b : Nat} {lanes : List Nat} {mask pc : DWord} {wait : Bool} (hg : g < 64) (hb16 : b < 16)
    (hb : t.bars = [(b, { mask := mask, arrived := [(g, maskOf lanes)], nextMask := 0, nextArr := [] })])
    (hphase : ∀ k, (groupOf t k).gphase = none) (hothers : ∀ k, k ≠ g → (groupOf t k).barWait = [])
    (hwait : LanesWait (groupOf t g).barWait (if wait then lanes else []) (some b) pc) (hnamed : ∀ k, k ∈ namedGroups t mask ↔ k = g)
    (hn : lanes.Nodup) (hall : ∀ j ∈ liveLanes (groupOf t g), j ∈ lanes) : Completed t (settle t) g := by
  have hdone := settleTile_completes hg hb hphase hothers hwait hnamed hn hall
  have hend k : settleTileOnce (settleTileOnce t b) k = settleTileOnce t b := settleTile_none (by rw [hdone.bars]; rfl)
  have hother {k} (hk : k ≠ b) : settleTileOnce t k = t := settleTile_none (by rw [hb, NMap.find, if_neg (Ne.symm hk)]; rfl)
  have hfold : (List.range 16).foldl (fun t b => settleTileOnce (settleTileOnce t b) b) t = settleTileOnce t b := by
    rw [foldl_only (fun t b => settleTileOnce (settleTileOnce t b) b) (g := b) (fun k hk => by rw [hother hk, hother hk])
      (fun k _ => by rw [hend, hend, hend]) List.nodup_range (List.mem_range.2 hb16), hend]
  unfold settle
  dsimp only
  rw [settleGroups_none hphase, hfold]
  exact hdone

/-- The tile barrier stays open while a live thread of the group has not come. -/
theorem settle_tile_open {t : Tile} {g b j : Nat} {lanes : List Nat} {mask : DWord}
    (hb : t.bars = [(b, { mask := mask, arrived := [(g, maskOf lanes)], nextMask := 0, nextArr := [] })])
    (hphase : ∀ k, (groupOf t k).gphase = none) (hnamed : ∀ k, k ∈ namedGroups t mask ↔ k = g)
    (hn : lanes.Nodup) (hj : j ∈ liveLanes (groupOf t g)) (hnot : j ∉ lanes) : settle t = t := by
  have hstep k : settleTileOnce t k = t := by
    unfold settleTileOnce
    rw [hb, NMap.find]
    split
    · rfl
    · rename_i p hp
      split at hp
      · cases hp
        exact if_neg fun h => Bool.false_ne_true (((tileArrived_alone hnamed).trans (not_arrived hn hj hnot)).symm.trans h)
      · cases hp
  have hfold (l : List Nat) : l.foldl (fun t b => settleTileOnce (settleTileOnce t b) b) t = t := by
    induction l with
    | nil => rfl
    | cons k r ih => rw [List.foldl_cons, hstep, hstep]; exact ih
  unfold settle
  dsimp only
  rw [settleGroups_none hphase, hfold]

/-! ### The barrier instructions -/

section
variable {s s1 : State} {site g : Nat} {l : Launch} {lanes : List Nat} {pc : DWord} {f : TiF}

/-- A tile without open phases and with no thread that waits. -/
def NoPhases (t : Tile) : Prop := t.bars = [] ∧ ∀ k, (groupOf t k).gphase = none ∧ (groupOf t k).barWait = []

/-- A barrier instruction has retired and left the tile v. -/
structure BarDone (s1 t : State) (site g : Nat) (lanes : List Nat) (pc : DWord) (v : Tile) : Prop where
  kept : t.run = s1.run ∧ t.ctxs = s1.ctxs ∧ t.mem = s1.mem ∧ (groupOf (tileOf t site) g).regs = (groupOf (tileOf s1 site) g).regs
  goes : ∀ i ∈ lanes, lanePc (groupOf (tileOf t site) g) i = pc + 8
  bars : (tileOf t site).bars = v.bars
  barWait : (groupOf (tileOf t site) g).barWait = (groupOf v g).barWait
  gphase : (groupOf (tileOf t site) g).gphase = (groupOf v g).gphase

theorem barDone_of_retired {t : State} {v : Tile} (hr : (groupOf v g).regs = (groupOf (tileOf s1 site) g).regs)
    (h : ThRetired (setTile s1 site v) t l site g lanes (groupOf v g) fun _ => pc + 8) : BarDone s1 t site g lanes pc v := by
  have hgroup := h.group
  have htile := h.tile
  rw [tileOf_setTile_same] at htile
  obtain ⟨tiles, counters, hf⟩ := h.frame
  refine ⟨⟨by rw [hf]; rfl, by rw [hf]; rfl, by rw [hf]; rfl, by rw [hgroup]; exact hr⟩, fun i hi => ?_, by rw [htile], by rw [hgroup],
    by rw [hgroup]⟩
  rw [h.pcs, if_pos hi]

/-- A barrier whose arrivals leave the tile v, where nothing is divergent. -/
theorem bar_retires {opOk : Launch → Bool} {uses : List RegUse} {unused : List Nat} {dst : Option RegUse} {v : Tile}
    (h : ThReady s site g l lanes pc s1) (hl : opOk l = true) (hf : ThFields s site g l lanes uses unused dst)
    (o : ThEnv → State → TGroup → ThOut) (hr : (groupOf v g).regs = (groupOf (tileOf s1 site) g).regs)
    (hj : judge (setTile s1 site v) l site = setTile s1 site v)
    (ho : o { launch := l, site := site, g := g, lanes := lanes, pc := pc } s1 (groupOf (tileOf s1 site) g) =
      .jumps (judge (setTile s1 site v) l site) fun _ => pc + 8) :
    ∃ t, whenUp s (fun s => thStep s site g opOk uses unused dst o) = .next t ∧ BarDone s1 t site g lanes pc v := by
  have hgroup : groupOf (tileOf (setTile s1 site v) site) g = groupOf v g := by rw [tileOf_setTile_same]
  have hw := Worked.refl (setTile s1 site v) site g
  rw [hgroup] at hw
  obtain ⟨t, ht, hret⟩ := th_jumps h hl hf o 2 (ho.trans (by rw [hj])) hw
  exact ⟨t, ht, barDone_of_retired hr hret⟩

theorem liveLanes_ready (h : ThReady s site g l lanes pc s1) (hw : (groupOf (tileOf s1 site) g).barWait = []) :
    lanes.Nodup ∧ ∀ i ∈ lanes, i ∈ liveLanes (groupOf (tileOf s1 site) g) := by
  refine ⟨h.leading ▸ leadingSet_nodup _, fun i hi => ?_⟩
  rw [← h.leading, ← groupOf_ready h g, leadingSet] at hi
  have hgo := List.mem_of_mem_filter hi
  unfold goingLanes at hgo
  rw [hw] at hgo
  simpa [liveLanes] using hgo

/-- Lanes that are not all the live lanes of a group leave one out. -/
theorem lane_left {x : TGroup} (h : leadingSet x = lanes) (hw : x.barWait = []) (hne : lanes ≠ liveLanes x) :
    ∃ j ∈ liveLanes x, j ∉ lanes := by
  by_contra hc
  push Not at hc
  refine hne (h.symm.trans ?_)
  have hgo : goingLanes x = liveLanes x := by unfold goingLanes liveLanes; rw [hw]; simp
  unfold leadingSet at h ⊢
  rw [hgo] at h ⊢
  exact List.filter_eq_self.2 fun j hj => by
    have := hc j hj
    rw [← h] at this
    exact (List.mem_filter.1 this).2

/-- BAR.G: the tile that the arrivals leave. -/
theorem barG_settles (h : ThReady s site g l lanes pc s1) (hg : g < 64) (hno : NoPhases (tileOf s1 site)) :
    let x := groupOf (tileOf s1 site) g
    let v := settle (lanes.foldl (arriveGroup g pc) (tileOf s1 site))
    (groupOf v g).regs = x.regs ∧ judge (setTile s1 site v) l site = setTile s1 site v ∧
      if lanes = liveLanes x then (groupOf v g).gphase = none ∧ (groupOf v g).barWait = []
      else LanesWait (groupOf v g).barWait lanes none pc ∧ (groupOf v g).gphase = some { pc := pc, arrived := maskOf lanes } := by
  obtain ⟨hbars, hno⟩ := hno
  obtain ⟨hn, hlive⟩ := liveLanes_ready h (hno g).2
  have hne : lanes ≠ [] := by obtain ⟨i, r, hi, -⟩ := h.first; rw [hi]; simp
  obtain ⟨ha, hb, hp⟩ := arriveGroups (g := g) pc (hno g).1 (hno g).2 lanes hn
  dsimp only at ha hb hp ⊢
  generalize lanes.foldl (arriveGroup g pc) (tileOf s1 site) = u at ha hb hp ⊢
  rw [if_neg hne] at hp
  rw [hbars] at hb
  have hothers k (hk : k ≠ g) : (groupOf u k).gphase = none := by rw [ha.others k hk]; exact (hno k).1
  have hsame : liveLanes (groupOf u g) = liveLanes (groupOf (tileOf s1 site) g) := by rw [ha.group]; rfl
  by_cases hall : lanes = liveLanes (groupOf (tileOf s1 site) g)
  · have hdone := settle_group hg hb hothers hp ha.waits hn fun j hj => by rwa [hsame, ← hall] at hj
    obtain ⟨n, p, w, hgr⟩ := hdone.group
    rw [if_pos hall]
    refine ⟨by rw [hgr, ha.group], judge_quiet l (by rw [tileOf_setTile_same]; exact hdone.bars) fun k => ?_, by rw [hgr], by rw [hgr]⟩
    rw [tileOf_setTile_same]
    by_cases hk : k = g
    · subst hk; rw [hgr]
    · rw [hdone.others k hk]; exact hothers k hk
  · obtain ⟨j, hj, hnot⟩ := lane_left ((congrArg leadingSet (groupOf_ready h g)).trans h.leading) (hno g).2 hall
    rw [if_neg hall, settle_group_open hb hothers hp hn (hsame ▸ hj) hnot]
    refine ⟨by rw [ha.group], judge_open (g := g) (j := j) l ?_ ?_ ?_ ?_, ha.waits, hp⟩ <;> rw [tileOf_setTile_same]
    · exact hothers
    · exact hsame ▸ hj
    · have := ha.waits.lanes j
      rwa [if_pos rfl, decide_eq_false hnot, Option.isSome_eq_false_iff, Option.isNone_iff_eq_none] at this
    · rw [hb]; simp

/-- BAR.T and BAR.T.ARV of a group that the mask names alone: the tile that the arrivals leave. -/
theorem barT_settles (h : ThReady s site g l lanes pc s1) (hg : g < 64) (hno : NoPhases (tileOf s1 site)) (hb16 : f.imm.toNat < 16)
    {mask : DWord} (hp : ∀ i ∈ lanes, tpair (groupOf (tileOf s1 site) g) i f.src1.toNat = { val := mask, poison := false })
    (hm : mask.toNat.testBit g = true)
    (halone : ∀ k, k < 64 → mask.toNat.testBit k = true → k ≠ g → (groupOf (tileOf s1 site) k).running = false) (arv : Bool) :
    let x := groupOf (tileOf s1 site) g
    ∃ v, barTOut f arv { launch := l, site := site, g := g, lanes := lanes, pc := pc } s1 x =
        .jumps (judge (setTile s1 site v) l site) (fun _ => pc + 8) ∧
      (groupOf v g).regs = x.regs ∧ judge (setTile s1 site v) l site = setTile s1 site v ∧
      if lanes = liveLanes x then v.bars = [] ∧ (groupOf v g).barWait = []
      else v.bars = [(f.imm.toNat, { mask := mask, arrived := [(g, maskOf lanes)], nextMask := 0, nextArr := [] })] ∧
        LanesWait (groupOf v g).barWait (if !arv then lanes else []) (some f.imm.toNat) pc := by
  obtain ⟨hbars, hno⟩ := hno
  obtain ⟨hn, hlive⟩ := liveLanes_ready h (hno g).2
  have hne : lanes ≠ [] := by obtain ⟨i, r, hi, -⟩ := h.first; rw [hi]; simp
  have hlane i (hi : i ∈ lanes) : i < 32 ∧ (tpair (groupOf (tileOf s1 site) g) i f.src1.toNat).val = mask :=
    ⟨List.mem_range.1 (List.mem_filter.1 (hlive i hi)).1, by rw [hp i hi]⟩
  have h0 : ArrivedAt (tileOf s1 site) (tileOf s1 site) g [] (some f.imm.toNat) pc !arv :=
    ⟨rfl, fun _ _ => rfl, rfl, by rw [(hno g).2, ite_self]; exact .nil ..⟩
  obtain ⟨u, hu, ha, hb, hph⟩ := tileArrivals_arrive (e := { launch := l, site := site, g := g, lanes := lanes, pc := pc }) hm lanes hlane []
    (tileOf s1 site) (by simpa using hn) h0 hbars rfl
  rw [List.nil_append] at ha hb
  have hb : u.bars = [(f.imm.toNat, { mask := mask, arrived := [(g, maskOf lanes)], nextMask := 0, nextArr := [] })] := by
    rw [hb, onePhase, if_neg hne]
  have hphase k : (groupOf u k).gphase = none := by
    by_cases hk : k = g
    · subst hk; exact hph.trans (hno k).1
    · rw [ha.others k hk]; exact (hno k).1
  have hsame : liveLanes (groupOf u g) = liveLanes (groupOf (tileOf s1 site) g) := by rw [ha.group]; rfl
  have hnamed := namedGroups_alone (t := u) hg hm
    (by rw [ha.group]; exact (congrArg TGroup.running (groupOf_ready h g)).trans h.running)
    fun k h1 h2 hk => by rw [ha.others k hk]; exact halone k h1 h2 hk
  refine ⟨settle u, ?_, ?_⟩
  · unfold barTOut ru
    rw [anyPoison_pair_clean fun i hi => by rw [hp i hi], Nat.mod_eq_of_lt hb16, hu]
    rfl
  by_cases hall : lanes = liveLanes (groupOf (tileOf s1 site) g)
  · have hdone := settle_tile hg hb16 hb hphase (fun k hk => by rw [ha.others k hk]; exact (hno k).2) ha.waits hnamed hn
      fun j hj => by rwa [hsame, ← hall] at hj
    obtain ⟨n, p, w, hgr⟩ := hdone.group
    rw [if_pos hall]
    refine ⟨by rw [hgr, ha.group], judge_quiet l (by rw [tileOf_setTile_same]; exact hdone.bars) fun k => ?_, hdone.bars, by rw [hgr]⟩
    rw [tileOf_setTile_same]
    by_cases hk : k = g
    · subst hk; rw [hgr]
    · rw [hdone.others k hk]; exact hphase k
  · obtain ⟨j, hj, hnot⟩ := lane_left ((congrArg leadingSet (groupOf_ready h g)).trans h.leading) (hno g).2 hall
    rw [if_neg hall, settle_tile_open hb hphase hnamed hn (hsame ▸ hj) hnot]
    refine ⟨by rw [ha.group], judge_open (g := g) (j := j) l ?_ ?_ ?_ ?_, hb, ha.waits⟩ <;> rw [tileOf_setTile_same]
    · exact fun k _ => hphase k
    · exact hsame ▸ hj
    · have := ha.waits.lanes j
      have hj' : j ∉ (if !arv then lanes else []) := by split <;> simp [hnot]
      rwa [decide_eq_false hj', Option.isSome_eq_false_iff, Option.isNone_iff_eq_none] at this
    · rw [hb]
      intro e he
      rw [List.mem_singleton.1 he]
      exact (hnamed g).2 rfl

/-- BAR.T and BAR.T.ARV of a group that the mask names alone. -/
theorem barT_done {opOk : Launch → Bool} {unused : List Nat} (h : ThReady s site g l lanes pc s1) (hg : g < 64)
    (hno : NoPhases (tileOf s1 site)) (hb16 : f.imm.toNat < 16) {mask : DWord}
    (hp : ∀ i ∈ lanes, tpair (groupOf (tileOf s1 site) g) i f.src1.toNat = { val := mask, poison := false })
    (hm : mask.toNat.testBit g = true)
    (halone : ∀ k, k < 64 → mask.toNat.testBit k = true → k ≠ g → (groupOf (tileOf s1 site) k).running = false) (arv : Bool)
    (hl : opOk l = true) (hf : ThFields s site g l lanes [ru f.src1 2] unused none) :
    ∃ t, whenUp s (fun s => thStep s site g opOk [ru f.src1 2] unused none (barTOut f arv)) = .next t ∧
      (t.run = s1.run ∧ t.ctxs = s1.ctxs ∧ t.mem = s1.mem ∧ (groupOf (tileOf t site) g).regs = (groupOf (tileOf s1 site) g).regs) ∧
      (∀ i ∈ lanes, lanePc (groupOf (tileOf t site) g) i = pc + 8) ∧
      if lanes = liveLanes (groupOf (tileOf s1 site) g) then (tileOf t site).bars = [] ∧ (groupOf (tileOf t site) g).barWait = []
      else (∃ p, NMap.find (tileOf t site).bars f.imm.toNat = some p ∧ p.mask = mask ∧ arrivedOf p.arrived g = maskOf lanes) ∧
        if arv then (groupOf (tileOf t site) g).barWait = []
        else ∀ i ∈ lanes, ∃ w, NMap.find (groupOf (tileOf t site) g).barWait i = some w ∧ w.bar = some f.imm.toNat ∧ w.pc = pc := by
  obtain ⟨v, ho, hr, hj, hv⟩ := barT_settles h hg hno hb16 hp hm halone arv
  obtain ⟨t, ht, hd⟩ := bar_retires h hl hf (barTOut f arv) hr hj ho
  refine ⟨t, ht, hd.kept, hd.goes, ?_⟩
  rw [hd.bars, hd.barWait]
  by_cases hall : lanes = liveLanes (groupOf (tileOf s1 site) g)
  · rw [if_pos hall] at hv ⊢
    exact hv
  · rw [if_neg hall] at hv ⊢
    obtain ⟨hb, hw⟩ := hv
    refine ⟨⟨_, by rw [hb, NMap.find, if_pos rfl], rfl, by simp [arrivedOf, NMap.getD, NMap.find]⟩, ?_⟩
    cases arv with
    | false => exact fun i hi => hw.of_mem hi
    | true =>
      exact hw.eq_nil

/-- A tile barrier whose mask does not name the group. -/
theorem barT_diverges (h : ThReady s site g l lanes pc s1) (hb : (tileOf s1 site).bars = []) {mask : DWord}
    (hp : ∀ i ∈ lanes, tpair (groupOf (tileOf s1 site) g) i f.src1.toNat = { val := mask, poison := false })
    (hm : mask.toNat.testBit g = false) (arv : Bool) :
    barTOut f arv { launch := l, site := site, g := g, lanes := lanes, pc := pc } s1 (groupOf (tileOf s1 site) g) =
      .fault s1 2 barrierDivergence (vaOperand pc) mask := by
  obtain ⟨i, r, hi, -⟩ := h.first
  have hpi := hp i (by rw [hi]; exact List.mem_cons_self)
  have hcome : tileArrivals f (f.imm.toNat % 16) arv { launch := l, site := site, g := g, lanes := lanes, pc := pc }
      (groupOf (tileOf s1 site) g) (tileOf s1 site) lanes = .inl mask := by
    rw [hi, tileArrivals, hpi, arriveTile, hb, NMap.find_nil]
    simp [hm]
  unfold barTOut ru
  rw [anyPoison_pair_clean fun i hi => by rw [hp i hi]]
  rw [hcome]
  rfl

/-- Whether a token of the mask is pending. -/
theorem tokensPending_iff (x : TGroup) (hi : f.imm.toNat < 256) :
    tokensPending x f = false ↔ ∀ k, k < 8 → f.imm.getLsbD k = true → x.tokens.getLsbD k = false := by
  unfold tokensPending
  rw [bne_eq_false_iff_eq, Nat.and_comm, and_eq_zero_iff]
  refine ⟨fun h k _ hk => h k hk, fun h k hk => h k ?_ hk⟩
  by_contra hc
  have := Nat.testBit_lt_two_pow (Nat.lt_of_lt_of_le hi (Nat.pow_le_pow_right Nat.two_pos (Nat.le_of_not_lt hc) : 2 ^ 8 ≤ 2 ^ k))
  rw [hk] at this
  cases this

end

/-- Settles O13: the arrivals of a leading set leave one phase, which either completes or waits for a thread that can still come, so that
nothing is divergent. -/
theorem barriersAndTokens : Obligations.BarriersAndTokens := by
  refine ⟨fun s site g l lanes pc s1 f h hg hbars hno => ⟨fun hfn himm hf => ?_, fun hfn himm hf hclean => ?_⟩,
    fun s site g l lanes pc s1 f h himm => ⟨fun hfn hf => ⟨fun hc => ?_, fun hc => ?_⟩, fun hfn hf => ?_⟩⟩
  · obtain ⟨hr, hj, hv⟩ := barG_settles h hg ⟨hbars, hno⟩
    obtain ⟨t, ht, hd⟩ := bar_retires h (opOk := fun _ => f.fn == 0 && f.imm == 0) (by rw [hfn, himm]; rfl) hf
      (fun e s _ => barRetire s e (e.lanes.foldl (arriveGroup g e.pc) (tileOf s site))) hr hj rfl
    refine ⟨t, ht, hd.kept, hd.goes, ?_⟩
    rw [hd.gphase, hd.barWait]
    by_cases hall : lanes = liveLanes (groupOf (tileOf s1 site) g)
    · rw [if_pos hall] at hv ⊢
      exact hv
    · rw [if_neg hall] at hv ⊢
      obtain ⟨hw, hp⟩ := hv
      exact ⟨fun i hi => by rw [hd.barWait]; exact hw.of_mem hi, hp⟩
  · refine ⟨fun hm halone => ?_, fun hm => ?_⟩
    · rcases hfn with hfn | hfn
      · obtain ⟨t, ht, hkept, hgoes, hv⟩ := barT_done h hg ⟨hbars, hno⟩ himm hclean hm halone false
          (opOk := fun _ => f.fn == 1 && decide (f.imm.toNat < 16)) (by simp [hfn, himm]) hf
        rw [if_pos hfn]
        refine ⟨t, ht, hkept, hgoes, ?_⟩
        simp only [if_pos hfn]
        exact hv
      · obtain ⟨t, ht, hkept, hgoes, hv⟩ := barT_done h hg ⟨hbars, hno⟩ himm hclean hm halone true
          (opOk := fun _ => f.fn == 2 && decide (f.imm.toNat < 16)) (by simp [hfn, himm]) hf
        have h1 : ¬ f.fn = 1 := by rw [hfn]; decide
        rw [if_neg h1]
        refine ⟨t, ht, hkept, hgoes, ?_⟩
        simp only [if_neg h1]
        exact hv
    · rcases hfn with hfn | hfn
      · rw [if_pos hfn]
        exact th_faults h (opOk := fun _ => f.fn == 1 && decide (f.imm.toNat < 16)) (by simp [hfn, himm]) hf (barTOut f false) 2
          (barT_diverges h hbars hclean hm false)
      · rw [if_neg (by rw [hfn]; decide)]
        exact th_faults h (opOk := fun _ => f.fn == 2 && decide (f.imm.toNat < 16)) (by simp [hfn, himm]) hf (barTOut f true) 2
          (barT_diverges h hbars hclean hm true)
  · exact th_retires_from h (opOk := fun _ => f.fn == 3 && decide (f.imm.toNat < 256)) (by simp [hfn, himm]) hf (fun _ s x =>
      if tokensPending x f then .wait (some (.tokens f.imm.toNat)) else .next s) 2
      (by rw [(tokensPending_iff _ himm).2 hc]; rfl) (.refl ..)
  · have hpend : tokensPending (groupOf (tileOf s1 site) g) f = true := by
      rw [← Bool.not_eq_false]; exact fun e => hc ((tokensPending_iff _ himm).1 e)
    show execTokWait site g f s = _
    rw [execTokWait, whenUp_up _ h.up, thStep_ready h (by simp [hfn, himm]) hf, hpend]
    rfl
  · have hn : lanes.Nodup := h.leading ▸ leadingSet_nodup _
    obtain ⟨h1, h2⟩ := eachLane_setTreg (groupOf (tileOf s1 site) g) hn f.dst.isLt fun _ =>
      { val := if tokensPending (groupOf (tileOf s1 site) g) f then 0 else 1, poison := false }
    obtain ⟨t, ht, hr⟩ := th_retires_from h (opOk := fun _ => f.fn == 4 && decide (f.imm.toNat < 256)) (by simp [hfn, himm]) hf
      (fun e s x => .next (putGroup s site g (eachLane x e.lanes fun y i =>
        setTreg y i f.dst.toNat { val := if tokensPending x f then 0 else 1, poison := false }))) 2 rfl ((Worked.refl ..).putGroup _)
    refine ⟨t, _, ht, hr, h1, fun hd i hi => ⟨fun hc => ?_, fun hc => ?_⟩⟩ <;> rw [h2 (toNat_ne_255 hd) i hi]
    · rw [(tokensPending_iff _ himm).2 hc]; rfl
    · rw [if_pos]
      rw [← Bool.not_eq_false]
      exact fun e => hc ((tokensPending_iff _ himm).1 e)

end Sys2Proof.Machine
end

section
/-! The stall sentinel, prefetches of run-ahead, and the return of a miss (R124, R128 to R130). -/

set_option Elab.async false

namespace Sys2Proof.Machine

/-! ### What a prefetch may change -/

/-- From s to t nothing has changed but what a prefetch changes: a flit of a tier link, what the slices and the L1 of the site
hold, and translation table entries. -/
def Prefetched (site : Nat) (s t : State) : Prop := (∃ chips, TileMemoryOnly site { s with chips := chips } t) ∧ DataKept s t

theorem Prefetched.of_tile {site : Nat} {s t : State} (h : TileMemoryOnly site s t) (hd : DataKept s t) : Prefetched site s t :=
  ⟨⟨s.chips, h⟩, hd⟩

theorem Prefetched.refl (site : Nat) (s : State) : Prefetched site s s := .of_tile (.refl site s) fun _ _ => rfl

theorem Prefetched.of_cache {site : Nat} {s t : State} (h : CacheOnly site s t) : Prefetched site s t :=
  .of_tile h.only fun a _ => h.cohByte a

theorem Prefetched.of_memory {site : Nat} {s t : State} (h : MemoryOnly s t) (hd : DataKept s t) : Prefetched site s t :=
  .of_tile (.of_memory h) hd

theorem tileMemoryOnly_chips {site : Nat} {s t : State} (h : TileMemoryOnly site s t) (c : NMap TierChip) :
    TileMemoryOnly site { s with chips := c } { t with chips := c } := by
  obtain ⟨⟨u, tiles, hu, rfl⟩, ho, ht⟩ := h
  refine ⟨⟨{ u with chips := c }, tiles, ?_, rfl⟩, ho, ht⟩
  unfold MemoryOnly at *
  conv => lhs; rw [hu]

theorem Prefetched.trans {site : Nat} {s t u : State} (h : Prefetched site s t) (k : Prefetched site t u) : Prefetched site s u := by
  obtain ⟨⟨c, h⟩, hd⟩ := h
  obtain ⟨⟨c', k⟩, kd⟩ := k
  exact ⟨⟨c', (tileMemoryOnly_chips h c').trans k⟩, fun a ha => (kd a ha).trans (hd a ha)⟩

theorem Prefetched.noFaults {site : Nat} {s t : State} (h : Prefetched site s t) : noFaults t = noFaults s := by
  obtain ⟨⟨c, h⟩, -⟩ := h
  exact h.noFaults

theorem Prefetched.tiles {site : Nat} {s t : State} (h : Prefetched site s t) : (∀ k, k ≠ site → tileOf t k = tileOf s k) ∧
    tileOf t site = { tileOf s site with l1 := (tileOf t site).l1, l1Miss := (tileOf t site).l1Miss } := by
  obtain ⟨⟨c, -, ho, ht⟩, -⟩ := h
  exact ⟨ho, ht⟩

theorem Prefetched.ctxs {site : Nat} {s t : State} (h : Prefetched site s t) : t.ctxs = s.ctxs := by
  obtain ⟨⟨c, ⟨u, tiles, hu, rfl⟩, -, -⟩, -⟩ := h
  rw [hu]

theorem Prefetched.foldl {α : Type} {site : Nat} (f : State → α → State) (hf : ∀ s a, Machine.noFaults s = true → Prefetched site s (f s a))
    (l : List α) {s : State} (h : Machine.noFaults s = true) : Prefetched site s (l.foldl f s) := by
  induction l generalizing s with
  | nil => exact .refl ..
  | cons a r ih => exact (hf s a h).trans (ih ((hf s a h).noFaults.trans h))

/-- Where no detector has anything to meet, none meets anything. -/
theorem meet_none {s : State} (h : noFaults s = true) (n : Latent → Bool) (p : Injection → Bool) : meet s n p = none := by
  simp only [Machine.noFaults, Bool.and_eq_true, List.isEmpty_iff] at h
  unfold meet fireInjection
  rw [h.1, h.2]
  rfl

/-- A tier link carries a flit. -/
theorem tierTraffic_quiet {s : State} (h : noFaults s = true) (c : Nat) : ∃ chips, tierTraffic s c = { s with chips := chips } := by
  have hq : Machine.noFaults (tierFlit s c) = true := h
  unfold tierTraffic
  dsimp only
  rw [meet_none hq]
  split
  · exact ⟨s.chips, rfl⟩
  · exact ⟨_, rfl⟩

theorem linkFindings_chips {s : State} (h : noFaults s = true) (pa : Nat) : ∃ chips, linkFindings s pa = { s with chips := chips } := by
  have hnear : (if noFaults s then s else
      match meet s (fun l => l.det.toNat == 0x0F && l.target == homeSlice s pa) fun i => i.det.toNat == 0x0F && i.target.toNat == homeSlice s pa with
      | some m => m.s
      | none => s) = s := if_pos h
  unfold linkFindings
  split
  · exact tierTraffic_quiet h _
  · exact tierTraffic_quiet h _
  · exact ⟨s.chips, hnear⟩
  · exact ⟨s.chips, hnear⟩
  · exact ⟨s.chips, hnear⟩
  · exact ⟨s.chips, rfl⟩

/-- A sector comes from its home. -/
theorem Prefetched.home {s : State} (h : Machine.noFaults s = true) (site pa ctx at_ n cp part : Nat) :
    Prefetched site s (readHome (linkFindings s pa) ctx at_ n cp part) := by
  obtain ⟨chips, hl⟩ := linkFindings_chips h pa
  rw [hl, readHome_quiet (s := { s with chips := chips }) h]
  exact ⟨⟨chips, .of_memory (.touchRead ..)⟩, fun a _ => (cohByte_touchRead _ _ _ _ _ a).trans (cohByte_congr rfl rfl a)⟩

/-! ### Run-ahead -/

section
variable {l : Launch} {site g : Nat} {demand : List (Nat × Nat)}

theorem aheadPrefetch_prefetched (ctx : Nat) (a : Ahead) (va : DWord) (h : noFaults a.s = true) :
    Prefetched site a.s (aheadPrefetch site g ctx demand a va).s := by
  unfold aheadPrefetch
  split
  · exact .refl ..
  · rename_i t _
    split
    · exact .refl ..
    · split
      · exact .refl ..
      · rename_i tile htile
        obtain ⟨miss, rfl⟩ : ∃ m, tile = { tileOf a.s site with l1Miss := m } := by
          unfold aheadRoom at htile
          dsimp only at htile
          split at htile
          · cases htile; exact ⟨_, rfl⟩
          · split at htile <;> cases htile
            exact ⟨_, rfl⟩
        have hset : CacheOnly site a.s (setTile a.s site (takeMiss { tileOf a.s site with l1Miss := miss } g (va.toNat / 64))) := by
          refine CacheOnly.updTile a.s (f := fun t => takeMiss { t with l1Miss := miss } g (va.toNat / 64)) ?_
          unfold takeMiss
          dsimp only
          split <;> rfl
        have hs := Prefetched.of_cache hset
        have hhome := Prefetched.home (hs.noFaults.trans h) site t.pa ctx (t.pa / 64 * 64) 64 t.cp
          (ctxPart (setTile a.s site (takeMiss { tileOf a.s site with l1Miss := miss } g (va.toNat / 64))) ctx)
        have hbump (u : State) : Prefetched site u (bump u 5 ctx 6 1) :=
          .of_memory (.bump ..) fun a _ => cohByte_congr (by simp) (by simp) a
        exact (hs.trans hhome).trans ((Prefetched.of_cache (.l1Fill _ site t.pa)).trans (hbump _))

theorem aheadAlu_s (a : Ahead) (lanes : List Nat) (dst : RegUse) (srcs : List RegUse) (f : TGroup → Nat → TGroup) :
    (aheadAlu a lanes dst srcs f).s = a.s := by
  unfold aheadAlu
  induction lanes generalizing a with
  | nil => rfl
  | cons i r ih => rw [List.foldl_cons, ih]

theorem aheadLoad_prefetched (ctx : Nat) (x : TGroup) (f : TiF) (d : RegUse) (lanes : List Nat) (a : Ahead) (h : noFaults a.s = true) :
    Prefetched site a.s (lanes.foldl (fun b i =>
      let b := aheadPrefetch site g ctx demand b (laneAddr f x i).val
      { b with unknown := markKnown b.unknown i d false }) a).s := by
  induction lanes generalizing a with
  | nil => exact .refl ..
  | cons i r ih =>
    have hp := aheadPrefetch_prefetched (site := site) (g := g) (demand := demand) ctx a (laneAddr f x i).val h
    exact hp.trans (ih { aheadPrefetch site g ctx demand a (laneAddr f x i).val with
      unknown := markKnown (aheadPrefetch site g ctx demand a (laneAddr f x i).val).unknown i d false } (hp.noFaults.trans h))

/-- A run-ahead instruction: the module changes by prefetches alone. -/
theorem aheadStep_prefetched {a b : Ahead} (hb : aheadStep l site g demand a = some b) (h : noFaults a.s = true) : Prefetched site a.s b.s := by
  have keep {c : Ahead} (hc : c.s = a.s) : Prefetched site a.s c.s := by rw [hc]; exact .refl ..
  have alu {c : Ahead} {p : Bool} (hb : (if p then some c else none) = some b) (hc : c.s = a.s) : Prefetched site a.s b.s := by
    split at hb <;> cases hb
    exact keep hc
  unfold aheadStep at hb
  split at hb
  · cases hb
  · dsimp only at hb
    split at hb
    · cases hb
    · split at hb
      · exact alu hb (aheadAlu_s ..)
      · exact alu hb (aheadAlu_s ..)
      · exact alu hb (aheadAlu_s ..)
      · exact alu hb (aheadAlu_s ..)
      · split at hb <;> cases hb
        exact aheadLoad_prefetched _ _ _ _ _ _ h
      · exact alu hb (aheadAlu_s ..)
      · split at hb
        · cases hb
        · split at hb
          · exact alu hb rfl
          · split at hb
            · exact alu hb rfl
            · cases hb
      · split at hb
        · exact alu hb rfl
        · split at hb <;> cases hb
          exact keep (aheadAlu_s a _ _ _ _)
      · cases hb

theorem aheadRun_prefetched (n : Nat) (a : Ahead) (h : noFaults a.s = true) : Prefetched site a.s (aheadRun l site g demand n a) := by
  induction n generalizing a with
  | zero => exact .refl ..
  | succ n ih =>
    unfold aheadRun
    split
    · rename_i b hb
      have hp := aheadStep_prefetched hb h
      exact hp.trans (ih b (hp.noFaults.trans h))
    · exact .refl ..

theorem aheadRun_from {s : State} (n : Nat) (x : TGroup) (unknown : List Nat) (h : noFaults s = true) :
    Prefetched site s (aheadRun l site g demand n { s := s, x := x, unknown := unknown }) :=
  aheadRun_prefetched n { s := s, x := x, unknown := unknown } h

end

/-- A group that enters run-ahead. -/
theorem putGroup_runAhead (s : State) (site g : Nat) (x : TGroup) (hx : x = groupOf (tileOf s site) g) (k : Nat) :
    groupOf (tileOf (putGroup s site g { x with runAhead := true }) site) k = { groupOf (tileOf s site) k with
      runAhead := (groupOf (tileOf (putGroup s site g { x with runAhead := true }) site) k).runAhead } := by
  unfold putGroup
  rw [tileOf_updTile_same]
  by_cases hk : k = g
  · subst hk; rw [groupOf_setGroup_same, hx]
  · rw [groupOf_setGroup_other _ _ hk]

/-! ### The return of a miss -/

theorem mem_promote {t : Tile} {g : Nat} (h : g ∈ t.active ∨ g ∈ t.eligible) : g ∈ (promote t).active ∨ g ∈ (promote t).eligible := by
  unfold promote
  dsimp only
  rw [List.mem_append]
  rcases h with h | h
  · exact .inl (.inl h)
  · rw [← List.take_append_drop (8 - t.active.length) t.eligible, List.mem_append] at h
    exact h.elim (fun h => .inl (.inr h)) .inr

/-- A group that has become eligible stands in one of the sets. -/
theorem mem_makeEligible (t : Tile) (g : Nat) : g ∈ (makeEligible t g).active ∨ g ∈ (makeEligible t g).eligible := by
  unfold makeEligible
  split
  · rename_i h; simpa using h
  · exact mem_promote (.inr (List.mem_append_right _ (List.mem_singleton_self g)))

theorem makeEligible_keeps {t : Tile} {g : Nat} (k : Nat) (h : g ∈ t.active ∨ g ∈ t.eligible) :
    g ∈ (makeEligible t k).active ∨ g ∈ (makeEligible t k).eligible := by
  unfold makeEligible
  split
  · exact h
  · exact mem_promote (h.imp id fun h => List.mem_append_left _ h)

/-- Waking one group of a tile (R115). -/
def wakeOne (s : State) (site : Nat) (t : Tile) (g : Nat) : Tile :=
  if (groupOf t g).running && (groupOf t g).parked && waitOver s site g then makeEligible t g else t

theorem tileOf_wake (s : State) (site : Nat) : tileOf (wake s site) site = (List.range 64).foldl (wakeOne s site) (tileOf s site) :=
  tileOf_updTile_same ..

theorem groupOf_wakes (s : State) (site g : Nat) (l : List Nat) (t : Tile) :
    ∃ p w, groupOf (l.foldl (wakeOne s site) t) g = { groupOf t g with parked := p, waitsOn := w } := by
  induction l generalizing t with
  | nil => exact ⟨_, _, rfl⟩
  | cons k r ih =>
    obtain ⟨p, w, h⟩ := ih (wakeOne s site t k)
    refine ⟨p, w, h.trans ?_⟩
    unfold wakeOne
    split
    · by_cases hk : g = k
      · subst hk
        obtain ⟨p', w', h'⟩ := groupOf_makeEligible_same t g
        rw [h']
      · rw [groupOf_makeEligible_other _ hk]
    · rfl

theorem wakes_keep {s : State} {site g : Nat} (l : List Nat) {t : Tile} (h : g ∈ t.active ∨ g ∈ t.eligible) :
    g ∈ (l.foldl (wakeOne s site) t).active ∨ g ∈ (l.foldl (wakeOne s site) t).eligible := by
  induction l generalizing t with
  | nil => exact h
  | cons k r ih =>
    refine ih ?_
    unfold wakeOne
    split
    · exact makeEligible_keeps k h
    · exact h

/-- A group whose wait has ended becomes eligible. -/
theorem wakes_group {s : State} {site g : Nat} {l : List Nat} (hg : g ∈ l) {t : Tile}
    (h : ((groupOf t g).running && (groupOf t g).parked && waitOver s site g) = true) :
    g ∈ (l.foldl (wakeOne s site) t).active ∨ g ∈ (l.foldl (wakeOne s site) t).eligible := by
  induction l generalizing t with
  | nil => cases hg
  | cons k r ih =>
    rw [List.foldl_cons]
    by_cases hk : g = k
    · subst hk
      refine wakes_keep r ?_
      unfold wakeOne
      rw [if_pos h]
      exact mem_makeEligible t g
    · refine ih ((List.mem_cons.1 hg).resolve_left hk) ?_
      have hsame : groupOf (wakeOne s site t k) g = groupOf t g := by
        unfold wakeOne
        split
        · exact groupOf_makeEligible_other _ hk
        · rfl
      rw [hsame]
      exact h

/-- A tile whose group has its missing registers. -/
def missBack (t : Tile) (g : Nat) (x : TGroup) : Tile :=
  { setGroup t g { x with missPend := [], runAhead := false } with l1Miss := t.l1Miss.filter (·.1 != g) }

/-- The tile wakes a group whose missing registers are there. -/
theorem wake_returns {s : State} {site g : Nat} {x : TGroup} (hx : groupOf (tileOf s site) g = { x with missPend := [], runAhead := false }) :
    let t := wake s site
    let y := groupOf (tileOf t site) g
    y.missPend = [] ∧ y.regs = x.regs ∧ y.runAhead = false ∧
      (x.running = true → x.parked = true → g < 64 →
        (∃ uses dst, x.waitsOn = some (.regs uses dst) ∧ regBusy { x with missPend := [] } (leadingSet x) uses dst = false) →
        (tileOf t site).active.contains g = true ∨ (tileOf t site).eligible.contains g = true) := by
  obtain ⟨p, w, h⟩ := groupOf_wakes s site g (List.range 64) (tileOf s site)
  rw [hx] at h
  dsimp only
  rw [tileOf_wake, h]
  refine ⟨rfl, rfl, rfl, fun hr hp hg hw => ?_⟩
  obtain ⟨uses, dst, hon, hbusy⟩ := hw
  have hover : waitOver s site g = true := by
    unfold waitOver
    dsimp only
    rw [hx, hon]
    dsimp only
    rw [Bool.not_eq_true']
    exact hbusy
  rw [List.contains_iff_mem, List.contains_iff_mem]
  exact wakes_group (List.mem_range.2 hg) (by rw [hover, hx, hr, hp]; rfl)

theorem missReturn_returns {s : State} {site g : Nat} (hrem : s.remotes = []) :
    let x := groupOf (tileOf s site) g
    let left := x.missPend.filter fun k => (getKeys s site g).contains k
    let t := if x.missPend = left ∧ (tileOf s site).l1Miss.all (·.1 != g) then s
      else wake (updTile s site fun t =>
        { setGroup t g { x with missPend := left, runAhead := false } with l1Miss := t.l1Miss.filter (·.1 != g) }) site
    let y := groupOf (tileOf t site) g
    y.missPend = [] ∧ y.regs = x.regs ∧ (x.missPend ≠ [] → y.runAhead = false) ∧
      (x.missPend ≠ [] → x.running = true → x.parked = true → g < 64 →
        (∃ uses dst, x.waitsOn = some (.regs uses dst) ∧ regBusy { x with missPend := [] } (leadingSet x) uses dst = false) →
        (tileOf t site).active.contains g = true ∨ (tileOf t site).eligible.contains g = true) := by
  have hkeys : getKeys s site g = [] := by unfold getKeys; rw [hrem]; rfl
  have hleft (l : List Nat) : (l.filter fun k => (getKeys s site g).contains k) = [] := by
    rw [hkeys]; exact List.filter_eq_nil_iff.2 fun k _ => by simp
  dsimp only
  rw [hleft]
  split
  · rename_i h
    exact ⟨h.1, rfl, fun hc => absurd h.1 hc, fun hc => absurd h.1 hc⟩
  · have hgroup : groupOf (tileOf (updTile s site fun t => missBack t g (groupOf (tileOf s site) g)) site) g =
        { groupOf (tileOf s site) g with missPend := [], runAhead := false } := by
      rw [tileOf_updTile_same]; exact groupOf_setGroup_same ..
    have hback := wake_returns hgroup
    exact ⟨hback.1, hback.2.1, fun _ => hback.2.2.1, fun _ => hback.2.2.2⟩

/-- A group that has entered run-ahead. -/
theorem runAhead_enters {s t : State} {site g : Nat}
    (h : Prefetched site (takeFree (bump (putGroup s site g { groupOf (tileOf s site) g with runAhead := true }) 1 site 11 1)).2 t) :
    DataKept s t ∧ t.ctxs = s.ctxs ∧ (∀ k, k ≠ site → tileOf t k = tileOf s k) ∧
      tileOf t site = { tileOf s site with l1 := (tileOf t site).l1, l1Miss := (tileOf t site).l1Miss, groups := (tileOf t site).groups } ∧
      ∀ k, groupOf (tileOf t site) k = { groupOf (tileOf s site) k with runAhead := (groupOf (tileOf t site) k).runAhead } := by
  obtain ⟨ho, ht⟩ := h.tiles
  have htile k : tileOf (takeFree (bump (putGroup s site g { groupOf (tileOf s site) g with runAhead := true }) 1 site 11 1)).2 k =
    tileOf (putGroup s site g { groupOf (tileOf s site) g with runAhead := true }) k := tileOf_congr (bump_tiles ..) k
  rw [htile] at ht
  refine ⟨fun a ha => (h.2 a ha).trans (cohByte_congr (bump_mem ..) (bump_lines ..) a), h.ctxs.trans (bump_ctxs ..), fun k hk => ?_, ?_, fun k => ?_⟩
  · rw [ho k hk, htile, putGroup, tileOf_updTile_other _ _ _ hk]
  · conv => lhs; rw [ht, putGroup, tileOf_updTile_same]
    rw [ht, putGroup, tileOf_updTile_same]
    rfl
  · have hk : groupOf (tileOf t site) k = groupOf (tileOf (putGroup s site g { groupOf (tileOf s site) g with runAhead := true }) site) k := by
      rw [ht]; rfl
    rw [hk]
    exact putGroup_runAhead s site g _ rfl k

/-! ### The sentinel -/

/-- The earlier of the waiting threads seen so far and one more. -/
def earlier (b : Option Waiter) (x : Waiter) : Option Waiter :=
  match b with
  | none => some x
  | some y => if x.w.order < y.w.order then some x else some y

theorem earliest_least {l : List Waiter} {y : Waiter} (h : y ∈ l) :
    ∃ x ∈ l, earliest l = some x ∧ x.w.order ≤ y.w.order := by
  have key (l : List Waiter) (b : Waiter) : ∃ x, l.foldl earlier (some b) = some x ∧ (x = b ∨ x ∈ l) ∧ x.w.order ≤ b.w.order ∧
      ∀ z ∈ l, x.w.order ≤ z.w.order := by
    induction l generalizing b with
    | nil => exact ⟨b, rfl, .inl rfl, le_rfl, by simp⟩
    | cons c r ih =>
      rw [List.foldl_cons, earlier]
      by_cases hc : c.w.order < b.w.order
      · rw [if_pos hc]
        obtain ⟨x, hx, hm, hle, hall⟩ := ih c
        refine ⟨x, hx, .inr ?_, hle.trans hc.le, fun z hz => ?_⟩
        · rcases hm with rfl | hm
          · exact List.mem_cons_self
          · exact List.mem_cons_of_mem _ hm
        · rcases List.mem_cons.1 hz with rfl | hz
          · exact hle
          · exact hall z hz
      · rw [if_neg hc]
        obtain ⟨x, hx, hm, hle, hall⟩ := ih b
        refine ⟨x, hx, hm.imp id fun h => List.mem_cons_of_mem _ h, hle, fun z hz => ?_⟩
        rcases List.mem_cons.1 hz with rfl | hz
        · exact hle.trans (Nat.le_of_not_lt hc)
        · exact hall z hz
  cases l with
  | nil => cases h
  | cons a r =>
    obtain ⟨x, hx, hm, hle, hall⟩ := key r a
    refine ⟨x, List.mem_cons.2 hm, hx, ?_⟩
    rcases List.mem_cons.1 h with rfl | h
    · exact hle
    · exact hall y h

/-- The earliest of a group's waiting threads. -/
theorem earliest_waiter {t : Tile} {g i : Nat} {w : BarWait} (hi : NMap.find (groupOf t g).barWait i = some w)
    (hw : ∀ j v, (j, v) ∈ (groupOf t g).barWait → v = w ∨ w.order < v.order) :
    ∃ x, earliest (waitersOf t g) = some x ∧ x.w = w ∧ x.g = g := by
  obtain ⟨x, hx, he, hle⟩ := earliest_least (List.mem_map_of_mem (f := fun e => (⟨g, e.1, e.2⟩ : Waiter)) (mem_of_find hi))
  obtain ⟨e, hm, rfl⟩ := List.mem_map.1 hx
  refine ⟨_, he, ?_, rfl⟩
  rcases hw e.1 e.2 hm with h | h
  · exact h
  · exact absurd hle (Nat.not_le_of_lt h)

theorem sentinel_faults {s : State} {site g : Nat} {l : Launch} (hl : runningLaunch s site = some l) (hu : s.run = .up)
    (hs : 16777216 ≤ (groupOf (tileOf s site) g).sentinel) {i : Nat} {w : BarWait} (hi : NMap.find (groupOf (tileOf s site) g).barWait i = some w)
    (hw : ∀ j v, (j, v) ∈ (groupOf (tileOf s site) g).barWait → v = w ∨ w.order < v.order) :
    exec (.groupStalledSentinel site g) s = .next (tileFault s l site 2 groupStalled (vaOperand w.pc) w.pc 0 g
      (maskOf ((groupOf (tileOf s site) g).barWait.map (·.1)))) := by
  obtain ⟨x, he, hxw, hxg⟩ := earliest_waiter hi hw
  have hmap : (waitersOf (tileOf s site) g).map (·.i) = (groupOf (tileOf s site) g).barWait.map (·.1) := by
    unfold waitersOf; rw [List.map_map]; rfl
  show execGroupStalledSentinel site g s = _
  rw [execGroupStalledSentinel, whenUp_up _ hu, hl]
  dsimp only
  rw [if_neg (Nat.not_lt_of_le hs), he]
  dsimp only
  rw [hxw, hmap]

/-- Settles O14: run-ahead is a chain of prefetches, and the tile wakes each group whose wait has ended. -/
theorem stallsAndRunAhead : Obligations.StallsAndRunAhead := by
  refine ⟨fun s site g l hu hl => ⟨fun hlt => ?_, fun i w hs hi hw => sentinel_faults hl hu hs hi hw⟩, fun s site g hu hq => ?_,
    fun s site g hu hrem => ?_⟩
  · show execGroupStalledSentinel site g s = _
    rw [execGroupStalledSentinel, whenUp_up _ hu, hl]
    exact congrArg Host.Outcome.next (if_pos hlt)
  · have hstay : DataKept s s ∧ s.ctxs = s.ctxs ∧ (∀ k, k ≠ site → tileOf s k = tileOf s k) ∧
        tileOf s site = { tileOf s site with l1 := (tileOf s site).l1, l1Miss := (tileOf s site).l1Miss, groups := (tileOf s site).groups } ∧
        ∀ k, groupOf (tileOf s site) k = { groupOf (tileOf s site) k with runAhead := (groupOf (tileOf s site) k).runAhead } :=
      ⟨fun _ _ => rfl, rfl, fun _ _ => rfl, rfl, fun _ => rfl⟩
    show ∃ t, execRunAheadEnter site g s = _ ∧ _
    rw [execRunAheadEnter, whenUp_up _ hu]
    refine ⟨_, rfl, ?_⟩
    split
    · exact hstay
    · dsimp only
      split
      · exact hstay
      · refine runAhead_enters (g := g) ?_
        refine aheadRun_from _ _ _ ?_
        have hkept {u : State} (h1 : u.injections = s.injections) (h2 : u.latents = s.latents) : noFaults u = true := by
          rw [← hq, noFaults, noFaults, h1, h2]
        exact hkept (bump_injections ..) (bump_latents ..)
  · show ∃ t, execL1MissReturn site g s = _ ∧ _
    rw [execL1MissReturn, whenUp_up _ hu]
    exact ⟨_, rfl, missReturn_returns hrem⟩

end Sys2Proof.Machine
end

section
/-! Issue of matrix instructions and matrix regions (R126, R127, R141 to R148, R168). -/

set_option Elab.async false

namespace Sys2Proof.Machine

/-! ### Checks -/

theorem firstChk_ok {l : List MatChk} (h : ∀ c ∈ l, c = .ok) : firstChk l = .ok := by
  induction l with
  | nil => rfl
  | cons c r ih =>
    rw [h c List.mem_cons_self, firstChk]
    exact ih fun d hd => h d (List.mem_cons_of_mem _ hd)

theorem chkIf_ok {bad : Bool} (h : bad = false) (reason : Nat) : chkIf bad reason = .ok := by rw [h]; rfl

theorem offChk_ok {v : T32} (h : v.val.toNat % 64 = 0) : offChk v = .ok := if_neg (not_not.2 h)

theorem kindChk_false {z : Bool} {k q : AccKind} (h : z = true ∨ k = .empty ∨ k = q) : (!z && k != .empty && k != q) = false := by
  rcases h with rfl | rfl | rfl <;> simp

theorem tokenChk_ok {x : TGroup} {token : Nat} (h : x.tokens.getLsbD token = false) : tokenChk x token = .ok := by
  have h : x.tokens.toNat.testBit token = false := h
  rw [tokenChk, h]; rfl

theorem poisonChk_ok {bad : Bool} (h : bad = false) : poisonChk bad = .ok := by rw [h]; rfl

section
variable {s s1 s2 s3 : State} {site g : Nat} {l : Launch} {lanes : List Nat} {pc : DWord} {us : List RegUse} {dst : Option RegUse} {y : TGroup}

/-! ### The step of a matrix instruction -/

/-- The registers that the array's scheduler looks at are those of the fields, where they are legal. -/
theorem matUses_legal (h : ThReady s site g l lanes pc s1) (hf : ThFields s site g l lanes us [] dst) : matUses s site us = us := by
  unfold matUses
  rw [h.launch]
  exact List.filter_eq_self.2 fun u hu => (hf.legal u hu).1

theorem mat_retires (h : ThReady s site g l lanes pc s1) (hf : ThFields s site g l lanes us [] dst) (o : ThEnv → State → TGroup → ThOut)
    (hs : o { launch := l, site := site, g := g, lanes := lanes, pc := pc } s1 (groupOf (tileOf s1 site) g) = .next s3)
    (hw : Worked s2 s3 site g y) :
    ∃ t, whenUp s (fun s => matStep s site g us dst o) = .next t ∧ ThRetired s2 t l site g lanes y fun _ => pc + 8 := by
  obtain ⟨t, ht, hr⟩ := th_retires_from h (opOk := fun _ => true) rfl hf o 3 hs hw
  refine ⟨t, ?_, hr⟩
  rw [whenUp_up _ h.up] at ht ⊢
  rw [matStep, matUses_legal h hf]
  exact ht

theorem mat_faults (h : ThReady s site g l lanes pc s1) (hf : ThFields s site g l lanes us [] dst) (o : ThEnv → State → TGroup → ThOut)
    {code : Nat} {operand detail : DWord} {mask : Word}
    (hs : o { launch := l, site := site, g := g, lanes := lanes, pc := pc } s1 (groupOf (tileOf s1 site) g) =
      .faultMask s1 3 code operand detail mask) :
    whenUp s (fun s => matStep s site g us dst o) = .next (tileFault s1 l site 3 code operand pc detail g mask) := by
  rw [whenUp_up _ h.up, matStep, matUses_legal h hf, thStep_ready h rfl hf, hs]
  rfl

/-! ### Acceptance -/

/-- The group of an accepted instruction. -/
def acceptedGroup (x : TGroup) (m : MatInst) (binds : List RegBind) : TGroup :=
  { x with tokens := x.tokens ||| BitVec.ofNat 8 (2 ^ m.token), matCount := x.matCount + 1, bound := x.bound ++ binds }

/-- The module when the array has the instruction and its group has not gone on; n sectors were out of range. -/
def acceptedIn (s : State) (l : Launch) (site n : Nat) (m : MatInst) : State :=
  bump (bump (updTile (bump s 1 site 10 n) site fun t => { t with array := { t.array with accepted := t.array.accepted ++ [m] } })
    1 site 1 1) 5 l.ctx 1 1

theorem tileOf_acceptedIn (s : State) (l : Launch) (site n : Nat) (m : MatInst) (k : Nat) : tileOf (acceptedIn s l site n m) k =
    if k = site then { tileOf s site with array := { (tileOf s site).array with accepted := (tileOf s site).array.accepted ++ [m] } }
    else tileOf s k := by
  unfold acceptedIn
  rw [tileOf_bump, tileOf_bump]
  by_cases hk : k = site
  · subst hk; rw [if_pos rfl, tileOf_updTile_same, tileOf_bump]
  · rw [if_neg hk, tileOf_updTile_other _ _ _ hk, tileOf_bump]

/-- The array accepts an instruction. -/
theorem accept_worked (s : State) (l : Launch) (site g n : Nat) (lanes : List Nat) (pc : DWord) (m : MatInst) (binds : List RegBind)
    (hroom : (tileOf s site).array.accepted.length < 16) :
    let x := groupOf (tileOf s site) g
    ∃ s3, accept (bump s 1 site 10 n) { launch := l, site := site, g := g, lanes := lanes, pc := pc } x m binds = .next s3 ∧
      Worked (acceptedIn s l site n m) s3 site g (acceptedGroup x m binds) := by
  have hlt : ¬ 16 ≤ (tileOf (bump s 1 site 10 n) site).array.accepted.length := by rw [tileOf_bump]; omega
  refine ⟨_, if_neg hlt, ?_⟩
  have htile := tileOf_acceptedIn s l site n m site
  rw [if_pos rfl] at htile
  dsimp only
  constructor
  · exact ⟨_, _, rfl⟩
  · intro k hk
    rw [tileOf_acceptedIn, if_neg hk, tileOf_bump, tileOf_bump, tileOf_updTile_other _ _ _ hk, tileOf_bump]
  · rw [htile, tileOf_bump, tileOf_bump, tileOf_updTile_same, tileOf_bump]; rfl
  · intro k hk
    rw [htile, tileOf_bump, tileOf_bump, tileOf_updTile_same, tileOf_bump]
    exact groupOf_setGroup_other _ _ hk
  · rw [tileOf_bump, tileOf_bump, tileOf_updTile_same, tileOf_bump]
    exact groupOf_setGroup_same ..
  · intro k _
    rfl

theorem counter_acceptedIn (s : State) (l : Launch) {site : Nat} (hs : site < 384) (n : Nat) (m : MatInst) :
    counter (acceptedIn s l site n m) 1 site 1 = satAdd (counter s 1 site 1) 1 := by
  have h1 : counter (acceptedIn s l site n m) 1 site 1 = counter (bump (bump s 1 site 10 n) 1 site 1 1) 1 site 1 :=
    bump_counters_other _ _ _ _ _ (by unfold ckey; omega)
  have h2 : counter (bump s 1 site 10 n) 1 site 1 = counter s 1 site 1 := bump_counters_other _ _ _ _ _ (by unfold ckey; omega)
  rw [h1, counter_bump_one, h2]

/-- An instruction that its checks pass and the array has room for issues. -/
theorem mat_issues (h : ThReady s site g l lanes pc s1) (hf : ThFields s site g l lanes us [] dst) (o : ThEnv → State → TGroup → ThOut)
    (hroom : (tileOf s1 site).array.accepted.length < 16) (n : Nat) (m : MatInst) (binds : List RegBind)
    (ho : o { launch := l, site := site, g := g, lanes := lanes, pc := pc } s1 (groupOf (tileOf s1 site) g) =
      accept (bump s1 1 site 10 n) { launch := l, site := site, g := g, lanes := lanes, pc := pc } (groupOf (tileOf s1 site) g) m binds)
    (hm : m.group = g ∧ m.pc = pc ∧ m.count = (groupOf (tileOf s1 site) g).matCount ∧ m.fed = 0) :
    ∃ t, whenUp s (fun s => matStep s site g us dst o) = .next t ∧ MatIssued s1 t l site g lanes pc m binds := by
  obtain ⟨s3, ha, hw⟩ := accept_worked s1 l site g n lanes pc m binds hroom
  obtain ⟨t, ht, hr⟩ := mat_retires h hf o (ho.trans ha) hw
  have htile := tileOf_acceptedIn s1 l site n m
  refine ⟨t, ht, hm, acceptedIn s1 l site n m, _, ?_, fun k hk => (htile k).trans (if_neg hk), (htile site).trans (if_pos rfl),
    fun hs => counter_acceptedIn s1 l hs n m, hr, rfl⟩
  exact ((TilesCounters.bump ..).trans (.updTile ..)).trans ((TilesCounters.bump ..).trans (.bump ..))

/-- As mat_issues, where no operand was out of range. -/
theorem mat_issues_plain (h : ThReady s site g l lanes pc s1) (hf : ThFields s site g l lanes us [] dst) (o : ThEnv → State → TGroup → ThOut)
    (hroom : (tileOf s1 site).array.accepted.length < 16) (m : MatInst) (binds : List RegBind)
    (ho : o { launch := l, site := site, g := g, lanes := lanes, pc := pc } s1 (groupOf (tileOf s1 site) g) =
      accept s1 { launch := l, site := site, g := g, lanes := lanes, pc := pc } (groupOf (tileOf s1 site) g) m binds)
    (hm : m.group = g ∧ m.pc = pc ∧ m.count = (groupOf (tileOf s1 site) g).matCount ∧ m.fed = 0) :
    ∃ t, whenUp s (fun s => matStep s site g us dst o) = .next t ∧ MatIssued s1 t l site g lanes pc m binds :=
  mat_issues h hf o hroom 0 m binds ho hm

/-! ### The instructions -/

variable {f : TrF} {i : Nat} {r : List Nat}

theorem regBad_legal (hf : ThFields s site g l lanes us [] dst) {q : BitVec 8} (hq : ru q 1 ∈ us) : regBad l.regs q = false := by
  rw [regBad, (hf.legal _ hq).1]; rfl

theorem capture_bump (hq : noFaults s = true) (e : ThEnv) (m : MatInst) (fa fb aOff bOff : Nat) :
    ∃ n, (capture s e m fa fb aOff bOff).1 = bump s 1 e.site 10 n := by
  unfold capture
  rw [storeFinding_quiet hq]
  exact ⟨_, rfl⟩

theorem mma_accepts (hroom : (tileOf s1 site).array.accepted.length < 16) (hq : noFaults s1 = true)
    (hf : ThFields s site g l (i :: r) [ru f.src1 1, ru f.src2 1, ru f.src3 2] [] none) (set : Nat) :
    let x := groupOf (tileOf s1 site) g
    let a := treg x i f.src1.toNat
    let b := treg x i f.src2.toNat
    let o := optsOf x i f.src3
    let fa := f.fn.toNat / 16
    let fb := f.fn.toNat % 16
    let z := f.mod.toNat % 2 == 1
    let k := kindAhead (tileOf s1 site).array set
    let e : ThEnv := { launch := l, site := site, g := g, lanes := i :: r, pc := pc }
    let m := newInst e x (.mma (BitVec.ofNat 4 fa) (BitVec.ofNat 4 fb) z a.val.toNat b.val.toNat) set o.val (f.mod.toNat / 2) (BitVec.ofNat 32 (2 ^ i))
    f.dst = 255 → f.rsv = 0 → x.tokens.getLsbD (f.mod.toNat / 2) = false → pairOk fa fb = true → o.poison = false →
      mmaOptsBad fa o.val = false → (a.poison = false ∧ a.val.toNat % 64 = 0) → (b.poison = false ∧ b.val.toNat % 64 = 0) →
      (z = true ∨ k = .empty ∨ k = mmaKind fa) →
      ∃ n, mmaOut set f e s1 x = accept (bump s1 1 site 10 n) e x (capture s1 e m fa fb a.val.toNat b.val.toNat).2 [] := by
  intro x a b o fa fb z k e m hdst hrsv htok hpair ho hopts ha hb hk
  obtain ⟨n, hn⟩ := capture_bump hq e m fa fb a.val.toNat b.val.toNat
  refine ⟨n, (congrArg (fun c => matOut _ _ _ _ c _) (firstChk_ok ?_)).trans ?_⟩
  · simp only [List.forall_mem_cons]
    refine ⟨chkIf_ok ?_ _, chkIf_ok ?_ _, chkIf_ok ?_ _, tokenChk_ok htok, poisonChk_ok ?_, chkIf_ok hopts _, chkIf_ok ?_ _, offChk_ok ha.2,
      offChk_ok hb.2, by simp⟩
    · rw [hdst, hrsv]; rfl
    · rw [regBad_legal hf (by simp), regBad_legal hf (by simp), (hf.legal (ru f.src3 2) (by simp)).1]; rfl
    · rw [hpair]; rfl
    · exact Bool.or_eq_false_iff.2 ⟨Bool.or_eq_false_iff.2 ⟨ho, ha.1⟩, hb.1⟩
    · exact kindChk_false hk
  · exact (if_neg (Nat.not_le_of_lt hroom)).trans
      (congrArg (fun u => accept u e x (capture s1 e m fa fb a.val.toNat b.val.toNat).2 []) hn)

theorem mdrain_accepts (hf : ThFields s site g l (i :: r) [ru f.src1 1, ru f.src3 2] [] none) :
    let x := groupOf (tileOf s1 site) g
    let a := treg x i f.src1.toNat
    let o := optsOf x i f.src3
    let fmt := f.fn.toNat % 16
    let set := f.fn.toNat / 16 % 4
    let e : ThEnv := { launch := l, site := site, g := g, lanes := i :: r, pc := pc }
    f.dst = 255 → f.rsv = 0 → x.tokens.getLsbD (f.mod.toNat / 2) = false → f.src2 = 255 → f.fn.toNat < 128 → drainFmt fmt = true →
      o.poison = false → drainOptsBad o.val = false → (a.poison = false ∧ a.val.toNat % 64 = 0) →
      drainAllowed (kindAhead (tileOf s1 site).array set) fmt = true →
      mdrainOut f e s1 x = accept s1 e x (newInst e x (.mdrain (BitVec.ofNat 4 fmt) (f.fn.toNat / 64 == 1) (f.mod.toNat % 2 == 1) a.val.toNat)
        set o.val (f.mod.toNat / 2) (BitVec.ofNat 32 (2 ^ i))) [] := by
  intro x a o fmt set e hdst hrsv htok hsrc2 hfn hfmt ho hopts ha hallow
  have hlisted : listedFmt fmt = true := by
    simp only [drainFmt, listedFmt, Bool.or_eq_true, decide_eq_true_eq, beq_iff_eq] at hfmt ⊢
    omega
  have hclr : f.fn.toNat / 64 % 2 = f.fn.toNat / 64 := by omega
  refine (congrArg (fun c => matOut _ _ _ _ c _) (firstChk_ok ?_)).trans ?_
  · simp only [List.forall_mem_cons]
    refine ⟨chkIf_ok ?_ _, chkIf_ok ?_ _, chkIf_ok ?_ _, tokenChk_ok htok, poisonChk_ok ?_, chkIf_ok hopts _, chkIf_ok ?_ _, offChk_ok ha.2, by simp⟩
    · rw [hdst, hrsv, hsrc2, decide_eq_false (by omega)]; rfl
    · rw [regBad_legal hf (by simp), (hf.legal (ru f.src3 2) (by simp)).1]; rfl
    · exact (congrArg not hlisted).trans rfl
    · exact Bool.or_eq_false_iff.2 ⟨ho, ha.1⟩
    · exact (congrArg not hallow).trans rfl
  · show accept s1 e x (newInst e x (.mdrain _ (f.fn.toNat / 64 % 2 == 1) _ _) _ _ _ _) [] = _
    rw [hclr]
    rfl

theorem mzero_accepts : 
    let x := groupOf (tileOf s1 site) g
    let e : ThEnv := { launch := l, site := site, g := g, lanes := i :: r, pc := pc }
    f.dst = 255 → f.rsv = 0 → x.tokens.getLsbD (f.mod.toNat / 2) = false → f.src1 = 255 → f.src2 = 255 → f.src3 = 255 → f.fn.toNat < 16 →
      f.mod.toNat % 2 = 0 →
      mzeroOut f e s1 x = accept s1 e x (newInst e x (.mzero (BitVec.ofNat 4 f.fn.toNat)) 0 0 (f.mod.toNat / 2) (BitVec.ofNat 32 (2 ^ i))) [] := by
  intro x e hdst hrsv htok h1 h2 h3 hfn hmod
  refine (congrArg (fun c => matOut _ _ _ _ c _) (firstChk_ok ?_)).trans rfl
  simp only [List.forall_mem_cons]
  refine ⟨chkIf_ok ?_ _, tokenChk_ok htok, by simp⟩
  rw [hdst, hrsv, h1, h2, h3, hmod, decide_eq_false (by omega)]; rfl

theorem mload_accepts (hf : ThFields s site g l (i :: r) [ru f.src1 1] [] none) :
    let x := groupOf (tileOf s1 site) g
    let a := treg x i f.src1.toNat
    let fmt := f.fn.toNat % 16
    let set := f.fn.toNat / 16 % 4
    let int := decide (128 ≤ f.fn.toNat)
    let k := kindAhead (tileOf s1 site).array set
    let e : ThEnv := { launch := l, site := site, g := g, lanes := i :: r, pc := pc }
    f.dst = 255 → f.rsv = 0 → x.tokens.getLsbD (f.mod.toNat / 2) = false → f.src2 = 255 → f.src3 = 255 → f.fn.toNat / 64 % 2 = 0 →
      f.mod.toNat % 2 = 0 → (fmt = 15 ∨ (int = false ∧ (fmt = 0 ∨ fmt = 8))) → (a.poison = false ∧ a.val.toNat % 64 = 0) →
      (k = .empty ∨ k = loadKind fmt int) →
      mloadOut f e s1 x = accept s1 e x (newInst e x (.mload (BitVec.ofNat 4 fmt) int a.val.toNat)
        set 0 (f.mod.toNat / 2) (BitVec.ofNat 32 (2 ^ i))) [] := by
  intro x a fmt set int k e hdst hrsv htok h2 h3 hbit hmod hfmt ha hk
  have hint : (int && fmt != 15) = false := by
    rcases hfmt with h | ⟨h, -⟩
    · rw [h]; simp
    · rw [h]; rfl
  have hcode : fmt = 15 ∨ fmt = 0 ∨ fmt = 8 := hfmt.imp id And.right
  refine (congrArg (fun c => matOut _ _ _ _ c _) (firstChk_ok ?_)).trans rfl
  simp only [List.forall_mem_cons]
  refine ⟨chkIf_ok ?_ _, chkIf_ok (regBad_legal hf (by simp)) _, chkIf_ok ?_ _, tokenChk_ok htok, poisonChk_ok ha.1, chkIf_ok ?_ _, chkIf_ok ?_ _,
    offChk_ok ha.2, by simp⟩
  · rw [hdst, hrsv, h2, h3, hbit, hmod]; exact hint
  · have : listedFmt fmt = true := by rcases hcode with h | h | h <;> rw [h] <;> rfl
    exact (congrArg not this).trans rfl
  · have : (fmt == 0 || fmt == 8 || fmt == 15) = true := by rcases hcode with h | h | h <;> rw [h] <;> rfl
    exact (congrArg not this).trans rfl
  · exact kindChk_false (z := false) (.inr hk)

end

/-- Settles O15: every check of the array passes, so that it takes the instruction. -/
theorem matrixIssue : Obligations.MatrixIssue := by
  intro s site g l lanes pc s1 f h hroom
  obtain ⟨i, r, rfl, -⟩ := h.first
  intro x i' token a b opts ahead use offset issues hdst hrsv htok
  refine ⟨fun set hf hpair hpo hopts ha hb hk => ?_, fun hf h2 hfn hfmt hpo hopts ha hallow => ?_, fun hf h1 h2 h3 hfn hmod => ?_,
    fun hf h2 h3 hbit hmod hfmt ha hk => ?_⟩
  · obtain ⟨n, hn⟩ := mma_accepts hroom h.quiet hf set.toNat hdst hrsv htok hpair hpo hopts ha hb hk
    obtain ⟨t, ht, hi⟩ := mat_issues h hf (mmaOut set.toNat f) hroom n _ _ hn ⟨rfl, rfl, rfl, rfl⟩
    exact ⟨t, _, ht, rfl, rfl, rfl, rfl, hi⟩
  · obtain ⟨t, ht, hi⟩ := mat_issues_plain h hf (mdrainOut f) hroom _ _ (mdrain_accepts hf hdst hrsv htok h2 hfn hfmt hpo hopts ha hallow)
      ⟨rfl, rfl, rfl, rfl⟩
    exact ⟨t, _, ht, rfl, rfl, rfl, rfl, hi⟩
  · obtain ⟨t, ht, hi⟩ := mat_issues_plain h hf (mzeroOut f) hroom _ _ (mzero_accepts hdst hrsv htok h1 h2 h3 hfn hmod) ⟨rfl, rfl, rfl, rfl⟩
    exact ⟨t, _, ht, rfl, rfl, rfl, rfl, hi⟩
  · obtain ⟨t, ht, hi⟩ := mat_issues_plain h hf (mloadOut f) hroom _ _ (mload_accepts hf hdst hrsv htok h2 h3 hbit hmod hfmt ha hk)
      ⟨rfl, rfl, rfl, rfl⟩
    exact ⟨t, _, ht, rfl, rfl, rfl, rfl, hi⟩

end Sys2Proof.Machine
end

section
/-! Matrix regions, and the group-wide moves of accumulator fragments (R127, R145, R146, R168). -/

set_option Elab.async false

namespace Sys2Proof.Machine

section
variable {s s1 : State} {site g : Nat} {l : Launch} {lanes : List Nat} {pc : DWord} {f : TrF}

/-! ### MREG.OPEN and MREG.CLOSE -/

/-- The reserved fields of MREG.OPEN and MREG.CLOSE. -/
structure RegionFields (f : TrF) (fn : BitVec 8) : Prop where
  fields : f.src1 = 255 ∧ f.src2 = 255 ∧ f.src3 = 255 ∧ f.dst = 255 ∧ f.mod = 0 ∧ f.rsv = 0
  fn : f.fn = fn

/-- MREG.OPEN and MREG.CLOSE with legal fields: what the region says decides. -/
theorem regionOut_fields {opens : Bool} (hf : RegionFields f (if opens then 0 else 1)) (e : ThEnv) (s : State) (x : TGroup) :
    regionOut opens f e s x = matOut s e (maskOf e.lanes) 0
      (firstChk [match x.region with
        | none => if opens then .ok else .fault matrixRegion (vaOperand e.pc) 2
        | some m => if opens then .fault matrixRegion (vaOperand e.pc) 1
          else if m = maskOf e.lanes then .ok else .fault matrixDivergent (vaOperand e.pc) m.toNat])
      (.next (putGroup s e.site e.g { x with region := if opens then some (maskOf e.lanes) else none })) := by
  obtain ⟨⟨h1, h2, h3, h4, h5, h6⟩, hfn⟩ := hf
  unfold regionOut
  rw [chkIf_ok (by rw [h1, h2, h3, h4, h5, h6, hfn]; cases opens <;> rfl)]
  rfl

/-- The region opens or closes. -/
theorem region_moves (h : ThReady s site g l lanes pc s1) (hf : ThFields s site g l lanes [] [] none) (o : ThEnv → State → TGroup → ThOut)
    {region : Option Word} (ho : o { launch := l, site := site, g := g, lanes := lanes, pc := pc } s1 (groupOf (tileOf s1 site) g) =
      .next (putGroup s1 site g { groupOf (tileOf s1 site) g with region := region })) :
    ∃ t, whenUp s (fun s => matStep s site g [] none o) = .next t ∧
      ThRetired s1 t l site g lanes { groupOf (tileOf s1 site) g with region := region } fun _ => pc + 8 :=
  mat_retires h hf o ho ((Worked.refl ..).putGroup _)

/-! ### MACC.ST.G and MACC.LD.G -/

/-- A register field of a fragment is legal. -/
theorem fragment_fields {base : BitVec 8} {fmt : Nat} {store : Bool} (h4 : base.toNat % 4 = 0) (hr : base.toNat + fragRegs fmt ≤ l.regs)
    (h255 : base.toNat + fragRegs fmt ≤ 255)
    (hbusy : regBusy (groupOf (tileOf s site) g) lanes [ru base (fragRegs fmt)] (if store then some (ru base (fragRegs fmt)) else none) = false) :
    ThFields s site g l lanes [ru base (fragRegs fmt)] [] (if store then some (ru base (fragRegs fmt)) else none) := by
  refine ⟨fun u hu => ?_, by simp, hbusy⟩
  obtain rfl := List.mem_singleton.1 hu
  have hn : 2 < fragRegs fmt := by unfold fragRegs; split <;> decide
  refine ⟨?_, .inr h255⟩
  unfold RegUse.ok ru
  dsimp only
  rw [if_pos hn, h4, decide_eq_true hr]
  simp

/-- The fields of a group-wide move are legal. -/
structure MoveFields (s1 : State) (site g : Nat) (l : Launch) (f : TrF) (store : Bool) : Prop where
  other : (if store then f.src1 else f.dst) = 255
  src2 : f.src2 = 255
  src3 : f.src3 = 255
  rsv : f.rsv = 0
  fn : f.fn.toNat < 64
  mod : f.mod.toNat % 2 = 0
  token : (groupOf (tileOf s1 site) g).tokens.getLsbD (f.mod.toNat / 2) = false
  aligned : (if store then f.dst else f.src1).toNat % 4 = 0
  inside : (if store then f.dst else f.src1).toNat + fragRegs (f.fn.toNat % 4) ≤ l.regs

theorem MoveFields.reserved {store : Bool} (hf : MoveFields s1 site g l f store) :
    chkIf ((if store then f.src1 else f.dst) != 0xFF || f.src2 != 0xFF || f.src3 != 0xFF || f.rsv != 0 ||
      decide (f.fn.toNat ≥ 64) || f.mod.toNat % 2 == 1) 6 = .ok :=
  chkIf_ok (by rw [hf.other, hf.src2, hf.src3, hf.rsv, hf.mod, decide_eq_false (Nat.not_le_of_lt hf.fn)]; rfl) 6

theorem MoveFields.range {store : Bool} (hf : MoveFields s1 site g l f store) :
    chkIf (fragBad l.regs (if store then f.dst else f.src1) (f.fn.toNat % 4)) 5 = .ok :=
  chkIf_ok (by rw [fragBad, hf.aligned, decide_eq_false (Nat.not_lt_of_le hf.inside)]; rfl) 5

/-- The kind of its set allows a group-wide move. -/
def moveAllowed (store : Bool) (fmt : Nat) (k : AccKind) : Prop :=
  if store then k = .empty ∨ fmt = 0 ∨ (fmt = 3 ∧ k = .int) ∨ ((fmt = 1 ∨ fmt = 2) ∧ k = .float)
  else k = .empty ∨ k = if fmt = 3 then .int else .float

/-- The instruction that a group-wide move issues. -/
def moveInst (store : Bool) (f : TrF) (e : ThEnv) (x : TGroup) : MatInst :=
  let base := if store then f.dst else f.src1
  let frag := f.fn.toNat / 4 % 4
  let fmt := BitVec.ofNat 2 (f.fn.toNat % 4)
  newInst e x (if store then .stG frag fmt base.toNat else .ldG frag fmt base.toNat) (f.fn.toNat / 16 % 4) 0 (f.mod.toNat / 2) (maskOf e.lanes)

theorem moveChk_ok {fmt : Nat} (hfmt : fmt < 4) {k : AccKind} {store : Bool} (h : moveAllowed store fmt k) :
    (if store then chkIf (!(k == .empty || (if fmt = 3 then k == .int else if fmt = 0 then true else k == .float))) 4
     else chkIf (k != .empty && k != (if fmt = 3 then .int else .float)) 3) = .ok := by
  unfold moveAllowed at h
  cases store with
  | false =>
    refine chkIf_ok ?_ 3
    exact kindChk_false (z := false) (.inr h)
  | true =>
    refine chkIf_ok ?_ 4
    rcases h with rfl | rfl | ⟨rfl, rfl⟩ | ⟨rfl | rfl, rfl⟩
    · rfl
    · simp
    · simp
    · simp
    · simp

/-- A group-wide move in its region issues. -/
theorem macc_accepts {store : Bool} (hf : MoveFields s1 site g l f store)
    (hr : (groupOf (tileOf s1 site) g).region = some (maskOf lanes))
    (hk : moveAllowed store (f.fn.toNat % 4) (kindAhead (tileOf s1 site).array (f.fn.toNat / 16 % 4))) :
    let x := groupOf (tileOf s1 site) g
    let e : ThEnv := { launch := l, site := site, g := g, lanes := lanes, pc := pc }
    maccOut store f e s1 x = accept s1 e x (moveInst store f e x)
      [{ token := f.mod.toNat / 2, dst := store, lo := (if store then f.dst else f.src1).toNat, n := fragRegs (f.fn.toNat % 4), mask := maskOf lanes }] := by
  intro x e
  have hregion : (match regionChk x (maskOf e.lanes) with
      | .fault code _ d => MatChk.fault code (vaOperand e.pc) d
      | c => c) = .ok := by
    have : regionChk x (maskOf lanes) = .ok := by rw [regionChk, hr]; exact if_pos rfl
    rw [this]
  refine (congrArg (fun c => matOut _ _ _ _ c _) (firstChk_ok ?_)).trans rfl
  simp only [List.forall_mem_cons]
  exact ⟨hf.reserved, hf.range, hregion, tokenChk_ok hf.token, moveChk_ok (Nat.mod_lt _ (by decide)) hk, by simp⟩

/-- A group-wide move outside its region faults. -/
theorem macc_diverges {store : Bool} (hf : MoveFields s1 site g l f store) {code d : Nat}
    (hr : regionChk (groupOf (tileOf s1 site) g) (maskOf lanes) = .fault code 0 d) :
    maccOut store f { launch := l, site := site, g := g, lanes := lanes, pc := pc } s1 (groupOf (tileOf s1 site) g) =
      .faultMask s1 3 code (vaOperand pc) (BitVec.ofNat 64 d) (maskOf lanes) := by
  have hthird {a b c : MatChk} {operand : DWord} (q : List MatChk) (ha : a = .ok) (hb : b = .ok) (hc : c = .fault code operand d) :
      firstChk (a :: b :: c :: q) = .fault code operand d := by rw [ha, hb, hc]; rfl
  refine (congrArg (fun c => matOut _ _ _ _ c _) (hthird _ hf.reserved hf.range ?_)).trans rfl
  rw [hr]

/-- A group-wide move whose fields are legal: what the region says decides. -/
theorem macc_steps {store : Bool} (h : ThReady s site g l lanes pc s1) (hroom : (tileOf s1 site).array.accepted.length < 16)
    (hf : MoveFields s1 site g l f store) (h255 : (if store then f.dst else f.src1).toNat + fragRegs (f.fn.toNat % 4) ≤ 255)
    (hbusy : regBusy (groupOf (tileOf s site) g) lanes [ru (if store then f.dst else f.src1) (fragRegs (f.fn.toNat % 4))]
      (if store then some (ru (if store then f.dst else f.src1) (fragRegs (f.fn.toNat % 4))) else none) = false)
    (hk : moveAllowed store (f.fn.toNat % 4) (kindAhead (tileOf s1 site).array (f.fn.toNat / 16 % 4))) :
    let x := groupOf (tileOf s1 site) g
    let base := if store then f.dst else f.src1
    let u := ru base (fragRegs (f.fn.toNat % 4))
    let run := whenUp s fun s => matStep s site g [u] (if store then some u else none) (maccOut store f)
    let m := moveInst store f { launch := l, site := site, g := g, lanes := lanes, pc := pc } x
    let fault := fun code (d : Nat) => run = .next (tileFault s1 l site 3 code (vaOperand pc) pc (BitVec.ofNat 64 d) g (maskOf lanes))
    (x.region = some (maskOf lanes) → ∃ t, run = .next t ∧ MatIssued s1 t l site g lanes pc m
      [{ token := f.mod.toNat / 2, dst := store, lo := base.toNat, n := fragRegs (f.fn.toNat % 4), mask := maskOf lanes }]) ∧
    (x.region = none → fault matrixRegion 0) ∧ (∀ k, x.region = some k → k ≠ maskOf lanes → fault matrixDivergent k.toNat) := by
  have hfields := fragment_fields (store := store) hf.aligned hf.inside h255 hbusy
  refine ⟨fun hr => ?_, fun hr => ?_, fun k hr hne => ?_⟩
  · exact mat_issues_plain h hfields (maccOut store f) hroom _ _ (macc_accepts hf hr hk) ⟨rfl, rfl, rfl, rfl⟩
  · exact mat_faults h hfields (maccOut store f) (macc_diverges hf (by rw [regionChk, hr]))
  · exact mat_faults h hfields (maccOut store f) (macc_diverges hf (by rw [regionChk, hr]; exact if_neg hne))

end

/-- Settles O16: with legal fields the region decides: it opens, closes, lets the moves issue or faults. -/
theorem matrixRegions : Obligations.MatrixRegions := by
  intro s site g l lanes pc s1 f h
  refine ⟨fun hnone hfn hf => ⟨fun hr => ?_, fun hr => ?_⟩, fun hnone hfn hf => ⟨fun hr => ?_, fun hr => ?_, fun m hr hne => ?_⟩,
    fun hroom h2 h3 hrsv hfn hmod htok => ⟨fun hother hk h4 hin h255 hbusy => ?_, fun hother hk h4 hin h255 hbusy => ?_⟩⟩
  · exact region_moves h hf (regionOut true f) (by rw [regionOut_fields (opens := true) ⟨hnone, hfn⟩, hr]; rfl)
  · obtain ⟨m, hm⟩ := Option.ne_none_iff_exists'.1 hr
    exact mat_faults h hf (regionOut true f) (by rw [regionOut_fields (opens := true) ⟨hnone, hfn⟩, hm]; rfl)
  · exact region_moves h hf (regionOut false f) (by
      rw [regionOut_fields (opens := false) ⟨hnone, hfn⟩, hr]
      dsimp only
      rw [if_neg Bool.false_ne_true, if_pos rfl]
      rfl)
  · exact mat_faults h hf (regionOut false f) (by rw [regionOut_fields (opens := false) ⟨hnone, hfn⟩, hr]; rfl)
  · exact mat_faults h hf (regionOut false f) (by
      rw [regionOut_fields (opens := false) ⟨hnone, hfn⟩, hr]
      dsimp only
      rw [if_neg Bool.false_ne_true, if_neg hne]
      rfl)
  · have hset : f.fn.toNat / 16 % 4 = f.fn.toNat / 16 := by omega
    have hfields : MoveFields s1 site g l f true := ⟨hother, h2, h3, hrsv, hfn, hmod, htok, h4, hin⟩
    obtain ⟨ha, hb⟩ := macc_steps h hroom hfields h255 hbusy (by rw [hset]; exact hk)
    refine ⟨fun hr => ?_, hb⟩
    obtain ⟨t, ht, hi⟩ := ha hr
    exact ⟨t, _, ht, rfl, hset, rfl, rfl, hi⟩
  · have hset : f.fn.toNat / 16 % 4 = f.fn.toNat / 16 := by omega
    have hfields : MoveFields s1 site g l f false := ⟨hother, h2, h3, hrsv, hfn, hmod, htok, h4, hin⟩
    obtain ⟨ha, hb⟩ := macc_steps h hroom hfields h255 hbusy (by rw [hset]; exact hk)
    refine ⟨fun hr => ?_, hb⟩
    obtain ⟨t, ht, hi⟩ := ha hr
    exact ⟨t, _, ht, rfl, hset, rfl, rfl, hi⟩

end Sys2Proof.Machine
end

section
/-! Prefetches and atomics of a thread group (R109, R299). -/

set_option Elab.async false

namespace Sys2Proof.Machine

/-! ### Translation where no detector has anything to meet -/

/-- A walk ends at an entry of a driver pool, at a multiple of 8. -/
theorem walkPick_entry {s : State} {ctx pick : Nat} {va : DWord} {e : DWord} {lvl at_ : Nat} (h : walkPick s ctx va pick = .leaf e lvl at_) :
    inDriverPool at_ = true ∧ at_ % 8 = 0 := by
  have key (n table : Nat) (ht : table % 8 = 0) (h : walkFrom s ctx va.toNat pick n table = .leaf e lvl at_) :
      inDriverPool at_ = true ∧ at_ % 8 = 0 := by
    induction n generalizing table with
    | zero => cases h
    | succ n ih =>
      unfold walkFrom at h
      dsimp only at h
      split at h
      · cases h
      · rename_i hpool
        split at h
        · cases h
        · split at h
          · cases h
          · split at h
            · cases h
            · split at h
              · split at h
                · cases h
                · cases h
                  exact ⟨by simpa using hpool, by omega⟩
              · exact ih _ (by unfold pteNext; omega) h
  unfold walkPick at h
  split at h
  · cases h
  · split at h
    · cases h
    · exact key _ _ (by omega) h

/-- A byte outside the driver pools lies outside a table entry of one. -/
theorem outside_entry {at_ a : Nat} (h : inDriverPool at_ = true ∧ at_ % 8 = 0) (ha : inDriverPool a = false) : a < at_ ∨ at_ + 8 ≤ a := by
  obtain ⟨h, hm⟩ := h
  simp only [inDriverPool, decide_eq_true_eq, decide_eq_false_iff_not] at h ha
  omega

/-- A translation changes memory's bookkeeping and table entries alone. -/
theorem translate_prefetched {s : State} (h : noFaults s = true) (site ctx : Nat) (acc : Acc) (va : DWord) :
    Prefetched site s (translate s ctx acc va).1 := by
  have hpick : Prefetched site s (takePick s false).2 := by
    unfold takePick; split <;> exact .of_memory rfl fun _ _ => rfl
  have hcharge := Quietly.chargeWalk (takePick s false).2 ctx va (takePick s false).1
  have hwalk := hpick.trans (.of_memory (hcharge 0).only fun a ha => by
    by_cases h8 : a < 8
    · exact (hcharge 8).bytes a (.inl h8)
    · exact (hcharge 0).bytes a (.inr (by omega)))
  unfold translate
  rw [xlatFinding_quiet h]
  dsimp only
  split
  · exact hwalk
  · rename_i e lvl at_ hw
    split
    · have hentry := walkPick_entry hw
      have hset (u : State) (p : Prop) [Decidable p] : Prefetched site u (if p then setAD u ctx acc at_ e else u) := by
        split
        · exact .of_memory (.setAD _ _ _ _ _ hentry.1) fun a ha => cohByte_setAD_outside _ _ _ _ _ (outside_entry hentry ha)
        · exact .refl ..
      have hremember (u : State) : Prefetched site u (rememberXlat u ctx va e lvl) := .of_memory rfl fun _ _ => rfl
      exact (hwalk.trans (hset _ _)).trans (hremember _)
    · exact hwalk

/-! ### PREF (R109) -/

theorem prefetchLine_prefetched {s : State} (h : noFaults s = true) (site g ctx : Nat) (va : DWord) (intoL1 : Bool) :
    Prefetched site s (prefetchLine s site g ctx va intoL1) := by
  unfold prefetchLine
  split
  · exact .refl ..
  · rename_i t _
    split
    · exact .refl ..
    · have htr := translate_prefetched h site ctx .read va
      refine htr.trans (Prefetched.foldl _ (fun u o hu => ?_) _ (htr.noFaults.trans h))
      have hhome (cp : Nat) := Prefetched.home hu site (t.pa / 256 * 256 + o) ctx (t.pa / 256 * 256 + o) 64 cp (ctxPart u ctx)
      dsimp only
      split
      · exact .refl ..
      · split
        · split
          · exact .refl ..
          · exact (hhome _).trans ((Prefetched.of_cache (.l1Fill ..)).trans (.of_cache (.takeMiss ..)))
        · exact hhome _

section
variable {s s1 : State} {site g : Nat} {l : Launch} {lanes : List Nat} {pc : DWord}

theorem pref_retires {f : TiF} (h : ThReady s site g l lanes pc s1) (hfn : f.fn.toNat ≤ 1)
    (hf : ThFields s site g l lanes [ru f.src1 2] [f.dst.toNat] none) :
    ∃ t s2, exec (.pref site g f) s = .next t ∧ ThRetired s2 t l site g lanes (groupOf (tileOf s1 site) g) (fun _ => pc + 8) ∧
      Prefetched site s1 s2 := by
  have hall : Prefetched site s1 (lanes.foldl (fun s i =>
      let a := laneAddr f (groupOf (tileOf s1 site) g) i
      if a.poison then s else prefetchLine s site g l.ctx a.val (f.fn == 0)) s1) :=
    Prefetched.foldl _ (fun u i hu => by
      dsimp only
      split
      · exact .refl ..
      · exact prefetchLine_prefetched hu ..) _ h.quiet
  have hgroup := congrArg (groupOf · g) hall.tiles.2
  obtain ⟨t, ht, hr⟩ := th_retires_from h (opOk := fun _ => decide (f.fn.toNat ≤ 1)) (decide_eq_true hfn) hf (fun e s x =>
      .next (e.lanes.foldl (fun s i =>
        let a := laneAddr f x i
        if a.poison then s else prefetchLine s site g e.launch.ctx a.val (f.fn == 0)) s)) 2 rfl (.refl ..)
  refine ⟨t, _, ht, ?_, hall⟩
  dsimp only at hgroup
  rw [hgroup] at hr
  exact hr

end

/-! ### Atomics at their home -/

/-- A read-modify-write that reaches the fast tier, in a sector that no stream holds frozen. -/
theorem rmwTarget_reaches {s : State} {ctx : Nat} {va : DWord} {pa cp at_ : Nat} (h : Reaches s ctx .write va pa cp at_)
    (hf : frozenSector s (pa / 64) = false) :
    ∃ u t, rmwTarget s ctx va = (u, .ok t) ∧ t.pa = pa ∧ Quietly s u at_ := by
  obtain ⟨e, u, ht, hq⟩ := translate_reaches h
  refine ⟨u, { pa := pa, cp := cp, leaf := e }, ?_, rfl, hq⟩
  unfold rmwTarget rmwJudge
  rw [ht]
  dsimp only
  rw [(frozenSector_memoryOnly hq.only _).trans hf, hq.not_dead h.live, h.fast,
    linkFindings_quiet ((noFaults_memoryOnly hq.only).trans h.quiet) h.fast]
  simp

theorem Quietly.endFill (s : State) (line word at_ : Nat) : Quietly s (endFill s line word) at_ :=
  .of_eq (.endFill ..) (endFill_dead ..) fun a => cohByte_congr (endFill_mem ..) (endFill_lines ..) a

theorem cohByte_rmwBack (s : State) (pa part a : Nat) : cohByte (rmwBack s pa part) a = cohByte s a := by
  unfold rmwBack
  split
  · exact cohByte_congr (useCredits_mem ..) (useCredits_lines ..) a
  · rfl

theorem MemoryOnly.rmwBack (s : State) (pa part : Nat) : MemoryOnly s (rmwBack s pa part) := by
  unfold Machine.rmwBack
  split
  · exact MemoryOnly.useCredits ..
  · exact MemoryOnly.refl s

/-- The bytes that a write leaves are those written. -/
theorem cohBytes_of_bytes {s : State} {pa : Nat} {bs : List Byte} (h : ∀ i (hi : i < bs.length), cohByte s (pa + i) = bs[i]) :
    cohBytes s pa bs.length = bs :=
  List.ext_getElem (by simp [cohBytes]) fun i h1 h2 => by simpa [cohBytes] using h i h2

/-- A write of n bytes at an address of the fast tier. -/
theorem cohWrite_writes {s : State} {pa n v : Nat} (hr : regionOf pa = .fast) (hb : pa % 256 + n ≤ 256) (poison alloc : Bool) (part : Nat) :
    let t := cohWrite s pa (leBytes v n) poison alloc part
    MemoryOnly s t ∧ (∀ a, (a < pa ∨ pa + n ≤ a) → cohByte t a = cohByte s a) ∧ cohBytes t pa n = leBytes v n := by
  have hlen := length_leBytes v n
  refine ⟨.cohWrite _ _ _ _ _ _ (fast_not_sovel hr), fun a ha => cohByte_cohWrite_outside _ _ _ _ _ _ (by rw [hlen]; exact hb) (by rw [hlen]; exact ha), ?_⟩
  have := cohBytes_of_bytes (s := cohWrite s pa (leBytes v n) poison alloc part) (pa := pa) (bs := leBytes v n) fun i hi =>
    cohByte_cohWrite_inside _ _ _ _ _ _ (by rw [hlen]; exact hb) (fast_not_sovel hr) (fast_not_lost hr _) hi
  rwa [hlen] at this

/-- An atomic at the fast tier: the old value is read at its home in the state s2, and the new one written in s3. -/
theorem atomicTarget_fast {u : State} {ctx n : Nat} {t : Target} (hq : noFaults u = true) (hr : regionOf t.pa = .fast)
    (hn : touchesReserved t.pa n = false) (hb : t.pa % 256 + n ≤ 256) (fn v cmp : Nat) (poison : Bool) :
    ∃ s2 s3, let old := leNat (cohBytes s2 t.pa n)
      atomicTarget u ctx t n fn v cmp poison = (s3, .ok (old, cohPoison s2 t.pa)) ∧ (∀ at_, Quietly u s2 at_) ∧ MemoryOnly s2 s3 ∧
      (∀ a, (a < t.pa ∨ t.pa + n ≤ a) → cohByte s3 a = cohByte s2 a) ∧
      cohBytes s3 t.pa n = leBytes ((atomFn (8 * n) fn old v cmp).getD old) n := by
  have hqe : noFaults (endFill u (t.pa / 256) 4) = true := (noFaults_memoryOnly (.endFill ..)).trans hq
  let s2 := touchRead (endFill u (t.pa / 256) 4) t.pa n 1 (ctxPart u ctx)
  have hread : readAt (readHome (endFill u (t.pa / 256) 4) ctx t.pa n 1 (ctxPart u ctx)) t.pa n = (s2, (cohBytes s2 t.pa n, cohPoison s2 t.pa)) := by
    rw [readHome_quiet hqe, readAt, fast_not_lost hr, hn]
    simp [s2]
  obtain ⟨hm, ho, hi⟩ := cohWrite_writes (s := rmwBack s2 t.pa (ctxPart u ctx)) (n := n)
    (v := (atomFn (8 * n) fn (leNat (cohBytes s2 t.pa n)) v cmp).getD (leNat (cohBytes s2 t.pa n))) hr hb
    (poison || cohPoison s2 t.pa) false (ctxPart u ctx)
  refine ⟨s2, _, ?_, fun at_ => (Quietly.endFill ..).trans (.touchRead ..), (MemoryOnly.rmwBack ..).trans hm,
    fun a ha => (ho a ha).trans (cohByte_rmwBack ..), hi⟩
  have hs : ¬ (regionOf t.pa = .sovel ∧ poison = true) := fun h => fast_not_sovel hr h.1
  unfold atomicTarget
  rw [if_neg hs]
  dsimp only
  rw [hread]

/-- From s to t a lane has done an atomic on n bytes at pa: s2 is the state in which it has read the old value. -/
structure AtomDone (s s2 t : State) (site pa n w fn at_ v c old : Nat) : Prop where
  all : TileMemoryOnly site s t
  read : MemoryOnly s s2
  readKept : BytesKept s s2 0 0 at_
  value : old = leNat (cohBytes s2 pa n)
  kept : BytesKept s2 t pa n at_
  new : ∃ new, atomFn w fn old v c = some new ∧ cohBytes t pa n = leBytes new n
  dropped : NMap.find (tileOf t site).l1 (pa / 64) = none

/-- What an atomic of a lane leaves (R109, R289). -/
def atomAfter (site ctx n fn : Nat) (va : Nat → DWord) (v c : Nat → Nat × Bool) (pa : Nat → Nat) (s : State) (i : Nat) : State :=
  l1Drop (atomicAt s ctx (va i) n fn (v i).1 (c i).1 ((v i).2 || (c i).2)).1 site (pa i)

/-- An atomic of a lane that reaches the fast tier. -/
theorem atomicAt_reaches {s : State} {ctx n w fn : Nat} {va : DWord} {pa cp at_ : Nat} (site : Nat) (h : Reaches s ctx .write va pa cp at_)
    (hf : frozenSector s (pa / 64) = false) (hn : n ∣ 64) (hw : 8 * n = w) (ha : va.toNat % n = 0) (hfn : ∀ old v c, (atomFn w fn old v c).isSome = true)
    (v c : Nat) (poison : Bool) :
    ∃ u t s2 s3, rmwTarget s ctx va = (u, .ok t) ∧ t.pa = pa ∧
      atomicTarget u ctx t n fn v c poison = (s3, .ok (leNat (cohBytes s2 pa n), cohPoison s2 pa)) ∧
      AtomDone s s2 (l1Drop s3 site pa) site pa n w fn at_ v c (leNat (cohBytes s2 pa n)) := by
  have hsec := aligned_in_sector hn ha
  have hmod := h.mod
  obtain ⟨u, t, ht, rfl, hq⟩ := rmwTarget_reaches h hf
  obtain ⟨s2, s3, he, hq2, hm, ho, hi⟩ := atomicTarget_fast (ctx := ctx) (n := n) ((noFaults_memoryOnly hq.only).trans h.quiet) h.fast (h.outside hsec)
    (by omega) fn v c poison
  have hread := hq.trans (hq2 at_)
  have hdrop := CacheOnly.l1Drop s3 site t.pa
  obtain ⟨new, hnew⟩ := Option.isSome_iff_exists.1 (hfn (leNat (cohBytes s2 t.pa n)) v c)
  refine ⟨u, t, s2, s3, ht, rfl, he, (TileMemoryOnly.of_memory (hread.only.trans hm)).trans hdrop.only, hread.only,
    fun a _ ha => hread.bytes a ha, rfl, fun a ha _ => (hdrop.cohByte a).trans (ho a ha), ⟨new, hnew, ?_⟩, ?_⟩
  · rw [hdrop.cohBytes, hi, hw, hnew]; rfl
  · rw [l1Drop, tileOf_updTile_same]; exact NMap.find_erase_same ..

section
variable {f : TrF} {e : ThEnv} {va : Nat → DWord} {v c : Nat → Nat × Bool} {pa cp at_ : Nat → Nat} {w fn : Nat}

/-- The operands that lanes of a group give an atomic. -/
def AtomOperands (f : TrF) (w fn : Nat) (va : Nat → DWord) (v c : Nat → Nat × Bool) (x : TGroup) (i : Nat) : Prop :=
  tpair x i f.src1.toNat = { val := va i, poison := false } ∧ getSrc x i f.src2.toNat w = v i ∧
    (if fn = 9 then getSrc x i f.src3.toNat w else (0, false)) = c i

theorem AtomOperands.congr {x y : TGroup} {i : Nat} (h : AtomOperands f w fn va v c x i) (hk : ∀ k, k < 256 → treg y i k = treg x i k) :
    AtomOperands f w fn va v c y i := by
  obtain ⟨h1, h2, h3⟩ := h
  refine ⟨(tpair_congr f.src1.isLt hk).trans h1, (getSrc_congr f.src2.isLt hk).trans h2, ?_⟩
  rw [getSrc_congr f.src3.isLt hk]
  exact h3

/-- One lane of ATOM. -/
theorem atomLanes_cons {s : State} {x : TGroup} {i : Nat} (r : List Nat) (hw : w = intWidth f.fn.toNat) (hfn : fn = f.fn.toNat % 128)
    (hsome : ∀ old v c, (atomFn w fn old v c).isSome = true) (ho : AtomOperands f w fn va v c x i) (ha : (va i).toNat % (w / 8) = 0)
    (hr : Reaches s e.launch.ctx .write (va i) (pa i) (cp i) (at_ i)) (hf : frozenSector s (pa i / 64) = false) :
    ∃ s2 t old, atomAfter e.site e.launch.ctx (w / 8) fn va v c pa s i = t ∧
      atomLanes f e s x (i :: r) = atomLanes f e t (setRes x i f.dst.toNat w old (cohPoison s2 (pa i))) r ∧
      AtomDone s s2 t e.site (pa i) (w / 8) w fn (at_ i) (v i).1 (c i).1 old ∧ old < 2 ^ w := by
  obtain ⟨h1, h2, h3⟩ := ho
  have hcases := intWidth_cases f.fn.toNat
  rw [← hw] at hcases
  have hdvd : w / 8 ∣ 64 := by rcases hcases with h | h <;> rw [h] <;> decide
  have h8 : 8 * (w / 8) = w := by omega
  obtain ⟨u, t, s2, s3, ht, hpa, he, hd⟩ := atomicAt_reaches e.site hr hf hdvd h8 ha hsome (v i).1 (c i).1 ((v i).2 || (c i).2)
  refine ⟨s2, _, _, ?_, ?_, hd, ?_⟩
  · unfold atomAfter atomicAt
    rw [ht]
    dsimp only
    rw [he]
  · rw [atomLanes, ← hw, ← hfn]
    rw [h1, h2, h3, if_neg Bool.false_ne_true, if_neg (not_not.2 ha), ht]
    dsimp only
    rw [he, hpa]
  · have hlt := leNat_lt (cohBytes s2 (pa i) (w / 8))
    have hlen : (cohBytes s2 (pa i) (w / 8)).length = w / 8 := by simp [cohBytes]
    rw [hlen, show (256 : Nat) = 2 ^ 8 from rfl, ← pow_mul, h8] at hlt
    exact hlt

/-- ATOM lane by lane: each lane from the state that the one before it leaves. -/
theorem atomLanes_runs (hw : w = intWidth f.fn.toNat) (hfn : fn = f.fn.toNat % 128) (hsome : ∀ old v c, (atomFn w fn old v c).isSome = true)
    (hd : f.dst.toNat = 255 ∨ f.dst.toNat + w / 32 ≤ 255) {lanes : List Nat} (hn : lanes.Nodup) (s : State) (x : TGroup)
    (ho : ∀ i ∈ lanes, AtomOperands f w fn va v c x i ∧ (va i).toNat % (w / 8) = 0)
    (hr : let σ := after (atomAfter e.site e.launch.ctx (w / 8) fn va v c pa) s lanes
      ∀ k i, lanes[k]? = some i → Reaches (σ k) e.launch.ctx .write (va i) (pa i) (cp i) (at_ i) ∧ frozenSector (σ k) (pa i / 64) = false) :
    let σ := after (atomAfter e.site e.launch.ctx (w / 8) fn va v c pa) s lanes
    ∃ y, atomLanes f e s x lanes = .next (putGroup (σ lanes.length) e.site e.g y) ∧ OnlyRegs x y lanes f.dst.toNat (w / 32) ∧
      TileMemoryOnly e.site s (σ lanes.length) ∧
      ∀ k i, lanes[k]? = some i → ∃ s2 old, AtomDone (σ k) s2 (σ (k + 1)) e.site (pa i) (w / 8) w fn (at_ i) (v i).1 (c i).1 old ∧
        (f.dst.toNat ≠ 255 → getSrc y i f.dst.toNat w = (old, cohPoison s2 (pa i))) := by
  have hcases := intWidth_cases f.fn.toNat
  rw [← hw] at hcases
  induction lanes generalizing s x with
  | nil => exact ⟨x, rfl, ⟨rfl, fun _ _ _ _ => rfl⟩, .refl e.site s, fun k i h => by simp at h⟩
  | cons i r ih =>
    obtain ⟨hi, hnr⟩ := List.nodup_cons.1 hn
    obtain ⟨hoi, hai⟩ := ho i List.mem_cons_self
    obtain ⟨hri, hfi⟩ := hr 0 i rfl
    obtain ⟨s2, t, old, ht, hstep, hdone, hlt⟩ := atomLanes_cons (s := s) (e := e) r hw hfn hsome hoi hai hri hfi
    have ht : atomAfter e.site e.launch.ctx (w / 8) fn va v c pa s i = t := ht
    have hother j k (hk : k < 256) (h : ¬ (j = i ∧ f.dst.toNat ≤ k ∧ k < f.dst.toNat + w / 32)) :
        treg (setRes x i f.dst.toNat w old (cohPoison s2 (pa i))) j k = treg x j k := setRes_other x _ f.dst.isLt hk h hcases
    obtain ⟨y, hy, hregs, hall, hlanes⟩ := ih hnr t (setRes x i f.dst.toNat w old (cohPoison s2 (pa i))) (fun j hj => by
        obtain ⟨hoj, haj⟩ := ho j (List.mem_cons_of_mem _ hj)
        exact ⟨hoj.congr fun k hk => hother j k hk fun h => hi (h.1 ▸ hj), haj⟩)
      (fun k j hk => by
        have := hr (k + 1) j hk
        rwa [after_succ, ht] at this)
    refine ⟨y, ?_, ⟨?_, fun j k hk h => ?_⟩, ?_, fun k j hk => ?_⟩
    · rw [hstep, hy, List.length_cons, after_succ, ht]
    · rw [hregs.frame, setRes_frame]
    · rw [List.mem_cons, or_and_right, not_or] at h
      rw [hregs.regs j k hk h.2, hother j k hk h.1]
    · rw [List.length_cons, after_succ, ht]; exact hdone.all.trans hall
    · cases k with
      | zero =>
        obtain rfl : i = j := by simpa using hk
        rw [show after (atomAfter e.site e.launch.ctx (w / 8) fn va v c pa) s (i :: r) 0 = s from rfl,
          show after (atomAfter e.site e.launch.ctx (w / 8) fn va v c pa) s (i :: r) (0 + 1) = t from ht]
        refine ⟨s2, old, hdone, fun h255 => ?_⟩
        rw [getSrc_congr (z := setRes x i f.dst.toNat w old (cohPoison s2 (pa i))) f.dst.isLt fun k hk => hregs.regs i k hk fun h => hi h.1]
        exact getSrc_setRes x i f.dst.toNat w old _ hcases (hd.resolve_left h255) hlt
      | succ k =>
        rw [after_succ, after_succ, ht]
        exact hlanes k j hk

end

end Sys2Proof.Machine
end

section
/-! Reductions of a thread group (R299 to R303). -/

set_option Elab.async false

namespace Sys2Proof.Machine

/-! ### What a reduction changes at its home -/

theorem fast_lt {pa : Nat} (h : regionOf pa = .fast) : pa < 0xBC00000000 := by
  unfold regionOf at h
  split at h
  · assumption
  · split at h
    · cases h
    · repeat' split at h
      all_goals cases h

theorem cohByte_bump (s : State) (t i w n a : Nat) : cohByte (bump s t i w n) a = cohByte s a := cohByte_congr (bump_mem ..) (bump_lines ..) a

theorem cohByte_useCredits (s : State) (c p n a : Nat) : cohByte (useCredits s c p n) a = cohByte s a :=
  cohByte_congr (useCredits_mem ..) (useCredits_lines ..) a

/-- Memory's bookkeeping has changed from s to t, and no byte. -/
def BytesSame (s t : State) : Prop := MemoryOnly s t ∧ ∀ a, cohByte t a = cohByte s a

theorem BytesSame.trans {s t u : State} (h : BytesSame s t) (k : BytesSame t u) : BytesSame s u :=
  ⟨h.1.trans k.1, fun a => (k.2 a).trans (h.2 a)⟩

theorem BytesSame.refl (s : State) : BytesSame s s := ⟨.refl s, fun _ => rfl⟩

theorem BytesSame.bump (s : State) (t i w n : Nat) : BytesSame s (bump s t i w n) := ⟨.bump .., fun _ => cohByte_bump ..⟩

theorem BytesSame.useCredits (s : State) (c p n : Nat) : BytesSame s (useCredits s c p n) := ⟨.useCredits .., fun _ => cohByte_useCredits ..⟩

theorem takeEntry_same (s : State) (pa part : Nat) : BytesSame s (takeEntry s pa part) := by
  have hfill (u : State) : BytesSame u (fillSector u pa) := ⟨.fillSector .., fun _ => cohByte_fillSector ..⟩
  have hlist (u : State) (l : List Nat) : BytesSame u { u with redBufs := l } := ⟨rfl, fun _ => rfl⟩
  unfold takeEntry
  dsimp only
  split
  · exact (BytesSame.bump ..).trans ((hlist _ _).trans (.bump ..))
  · exact (((BytesSame.bump ..).trans (.useCredits ..)).trans (hfill _)).trans ((hlist _ _).trans (.bump ..))

theorem takeAdder_same (s : State) (pa part : Nat) : BytesSame s (takeAdder s pa part) := by
  have hlist (u : State) (l : List (Nat × Nat)) : BytesSame u { u with addBufs := l } := ⟨rfl, fun _ => rfl⟩
  have hflush (u : State) (b : Nat × Nat) : BytesSame u (adderFlush u b) := (hlist u _).trans (.useCredits ..)
  have hcount := (BytesSame.bump s 2 (homeSlice s pa) 1 1).trans (.bump _ 2 (homeSlice s pa) 6 1)
  unfold takeAdder
  dsimp only
  split
  · exact hcount
  · refine BytesSame.trans ?_ ((hlist _ _).trans (.useCredits ..))
    split
    · exact hcount
    · split
      · exact hcount.trans (hflush ..)
      · exact hcount

/-- Taking a buffer for a reduction changes no byte (R300, R301). -/
theorem takeBuf_same (s : State) (pa part : Nat) : BytesSame s (takeBuf s pa part) := by
  unfold takeBuf
  split
  · split
    · exact takeEntry_same ..
    · exact takeAdder_same ..
  · exact .refl s

/-! ### Contributions, one at a time -/

/-- The value after a contribution (R299). -/
def redStep (w fn old v : Nat) : Nat := (atomFn w fn old v 0).getD 0

/-- The value after the contributions of lanes, in their order. -/
def redFold (w fn : Nat) (work : List RedLane) (old : Nat) : Nat := work.foldl (fun old l => redStep w fn old (l.val.toNat % 2 ^ w)) old

/-- From s to t the contributions of work have been made: each at its address, in their order. -/
structure Reduced (n w fn : Nat) (work : List RedLane) (s t : State) : Prop where
  only : MemoryOnly s t
  value : ∀ p, p % n = 0 → cohNat t p n = redFold w fn (work.filter (·.pa == p)) (cohNat s p n)
  kept : ∀ a, (∀ l ∈ work, a < l.pa ∨ l.pa + n ≤ a) → cohByte t a = cohByte s a

theorem Reduced.of_same {n w fn : Nat} {s t : State} (h : BytesSame s t) : Reduced n w fn [] s t :=
  ⟨h.1, fun p _ => by unfold cohNat cohBytes; simp only [h.2]; rfl, fun a _ => h.2 a⟩

theorem Reduced.append {n w fn : Nat} {l m : List RedLane} {s t u : State} (h : Reduced n w fn l s t) (k : Reduced n w fn m t u) :
    Reduced n w fn (l ++ m) s u := by
  refine ⟨h.only.trans k.only, fun p hp => ?_, fun a ha => ?_⟩
  · rw [k.value p hp, h.value p hp, List.filter_append, redFold, redFold, redFold, List.foldl_append]
  · exact (k.kept a fun q hq => ha q (List.mem_append_right _ hq)).trans (h.kept a fun q hq => ha q (List.mem_append_left _ hq))

/-- The function of a reduction gives values of its width. -/
theorem redStep_lt {w fn old v : Nat} (ho : old < 2 ^ w) (hv : v < 2 ^ w) (hfn : fn ≤ 6 ∨ (fn = 0x10 ∧ w = 32)) : redStep w fn old v < 2 ^ w := by
  unfold redStep
  rcases hfn with h | ⟨rfl, rfl⟩
  · have hcases : fn = 0 ∨ fn = 1 ∨ fn = 2 ∨ fn = 3 ∨ fn = 4 ∨ fn = 5 ∨ fn = 6 := by omega
    rcases hcases with rfl | rfl | rfl | rfl | rfl | rfl | rfl
    · exact Nat.mod_lt _ (Nat.two_pow_pos w)
    · exact ite_below ho hv
    · exact ite_below hv ho
    · exact (Nat.min_le_left ..).trans_lt ho
    · exact Nat.max_lt.2 ⟨ho, hv⟩
    · exact Nat.and_lt_two_pow _ hv
    · exact Nat.or_lt_two_pow ho hv
  · exact (fadd .rne (BitVec.ofNat 32 old) (BitVec.ofNat 32 v)).isLt

theorem cohNat_lt (s : State) (p : Nat) {n w : Nat} (hw : 8 * n = w) : cohNat s p n < 2 ^ w := by
  have hlt := leNat_lt (cohBytes s p n)
  rwa [show (cohBytes s p n).length = n by simp [cohBytes], show (256 : Nat) = 2 ^ 8 from rfl, ← pow_mul, hw] at hlt

/-- One contribution. -/
theorem Reduced.one {n w fn : Nat} (s : State) (l : RedLane) (poison : Bool) (part : Nat) (hw : 8 * n = w) (hn : n ∣ 64) (hr : regionOf l.pa = .fast)
    (ha : l.pa % n = 0) (hfn : fn ≤ 6 ∨ (fn = 0x10 ∧ w = 32)) :
    Reduced n w fn [l] s (rmwWrite s l.pa n (redStep w fn (cohNat s l.pa n) (l.val.toNat % 2 ^ w)) poison part) := by
  have hsec := aligned_in_sector hn ha
  obtain ⟨hm, ho, hi⟩ := cohWrite_writes (s := s) (pa := l.pa) (n := n) (v := redStep w fn (cohNat s l.pa n) (l.val.toNat % 2 ^ w)) hr (by omega)
    (poison || cohPoison s l.pa) false part
  refine ⟨hm, fun p hp => ?_, fun a ha => ho a (ha l (List.mem_singleton_self l))⟩
  by_cases hpl : l.pa = p
  · subst hpl
    have hlt := redStep_lt (cohNat_lt s l.pa hw) (Nat.mod_lt l.val.toNat (Nat.two_pow_pos w)) hfn
    rw [cohNat, rmwWrite, hi, leNat_leBytes, show (256 : Nat) = 2 ^ 8 from rfl, ← pow_mul, hw, Nat.mod_eq_of_lt hlt]
    simp [redFold]
  · have hdisjoint (i : Nat) (hi : i < n) : p + i < l.pa ∨ l.pa + n ≤ p + i := by
      obtain ⟨a, rfl⟩ := Nat.dvd_of_mod_eq_zero hp
      obtain ⟨b, hb⟩ := Nat.dvd_of_mod_eq_zero ha
      rw [hb] at hpl ⊢
      rcases Nat.lt_trichotomy b a with h | h | h
      · have := Nat.mul_le_mul_left n (Nat.succ_le_of_lt h)
        rw [Nat.mul_succ] at this
        exact .inr (by omega)
      · exact absurd (by rw [h]) hpl
      · have := Nat.mul_le_mul_left n (Nat.succ_le_of_lt h)
        rw [Nat.mul_succ] at this
        exact .inl (by omega)
    have hbytes : cohBytes (rmwWrite s l.pa n (redStep w fn (cohNat s l.pa n) (l.val.toNat % 2 ^ w)) poison part) p n = cohBytes s p n :=
      List.map_congr_left fun i hi => ho _ (hdisjoint i (List.mem_range.1 hi))
    rw [cohNat, hbytes]
    simp [redFold, hpl, cohNat]

section
variable {n w fn : Nat}

/-- Contributions in their order. -/
theorem Reduced.foldl (work : List RedLane) (s : State) (poison : Bool) (part : Nat) (hw : 8 * n = w) (hn : n ∣ 64)
    (hr : ∀ l ∈ work, regionOf l.pa = .fast ∧ l.pa % n = 0) (hfn : fn ≤ 6 ∨ (fn = 0x10 ∧ w = 32)) :
    Reduced n w fn work s (work.foldl (fun s l => rmwWrite s l.pa n (redStep w fn (cohNat s l.pa n) (l.val.toNat % 2 ^ w)) poison part) s) := by
  induction work generalizing s with
  | nil => exact .of_same (.refl s)
  | cons l r ih =>
    obtain ⟨hl, ha⟩ := hr l List.mem_cons_self
    exact (Reduced.one s l poison part hw hn hl ha hfn).append (ih _ fun m hm => hr m (List.mem_cons_of_mem _ hm))

/-! ### The request of a sector -/

/-- An ordered range is a matter of the partitions (R303). -/
theorem orderedAt_congr {s t : State} (h : t.parts = s.parts) {p q : Nat} (hp : q >>> 18 = p >>> 18) : orderedAt t q = orderedAt s p := by
  have hpart k : partOf t k = partOf s k := by unfold partOf; rw [h]
  unfold orderedAt
  simp only [hpart, hp]

/-- A request of the contributions of lanes to a sector outside the ordered ranges. -/
theorem takeReduce_reduces {s : State} {req : SliceReq} {fn8 : BitVec 8} {work : List RedLane} (hq : noFaults s = true)
    (ho : orderedAt s req.pa = none) (hop : req.op = .reduceLanes fn8 (work.map fun l => (l.pa % 64, l.val)))
    (hsec : ∀ l ∈ work, l.pa / 64 = req.pa / 64) (hw : w = if fn8.toNat < 128 then 32 else 64) (hf : fn = fn8.toNat % 128)
    (hr : ∀ l ∈ work, regionOf l.pa = .fast ∧ l.pa % (w / 8) = 0) (hfn : fn ≤ 6 ∨ (fn = 0x10 ∧ w = 32)) :
    Reduced (w / 8) w fn work s (takeReduce s req) := by
  have hwidth : w = 32 ∨ w = 64 := by rw [hw]; split <;> simp
  have h8 : 8 * (w / 8) = w := by omega
  have hn : (if fn8.toNat ≥ 128 then 8 else 4) = w / 8 := by rw [hw]; split <;> split <;> omega
  have hqe : noFaults (endFill s (req.pa / 256) 4) = true := (noFaults_memoryOnly (.endFill ..)).trans hq
  have hfind : homeFindings (endFill s (req.pa / 256) 4) req.ctx req.pa req.part = endFill s (req.pa / 256) 4 := by
    unfold homeFindings; rw [hqe]; rfl
  have hbuf : BytesSame s (takeBuf (endFill s (req.pa / 256) 4) req.pa req.part) :=
    BytesSame.trans ⟨.endFill .., fun a => cohByte_congr (endFill_mem ..) (endFill_lines ..) a⟩ (takeBuf_same ..)
  have hadd := Reduced.foldl (fn := fn) work (takeBuf (endFill s (req.pa / 256) 4) req.pa req.part) req.poison req.part h8
    (by rcases hwidth with h | h <;> rw [h] <;> decide) hr hfn
  have hplace (l : RedLane) (hl : l ∈ work) : req.pa / 64 * 64 + l.pa % 64 = l.pa := by rw [← hsec l hl]; omega
  have happly : takeReduce s req = work.foldl (fun s l => rmwWrite s l.pa (w / 8) (redStep w fn (cohNat s l.pa (w / 8)) (l.val.toNat % 2 ^ w))
      req.poison req.part) (takeBuf (endFill s (req.pa / 256) 4) req.pa req.part) := by
    unfold takeReduce
    rw [ho]
    dsimp only
    unfold applyReduce
    rw [hop, hfind]
    dsimp only
    rw [hn, h8, List.foldl_map, ← hf]
    refine List.foldl_ext _ _ _ fun u l hl => ?_
    dsimp only
    rw [hplace l hl]
    rfl
  rw [happly]
  exact (Reduced.of_same hbuf).append hadd

/-! ### The requests of a reduction -/

/-- The sectors that lanes reach, each once. -/
theorem sectors_spec (work : List RedLane) (acc : List Nat) (hn : acc.Nodup) :
    let l := work.foldl (fun l w => if l.contains (w.pa / 64) then l else l ++ [w.pa / 64]) acc
    l.Nodup ∧ ∀ k, k ∈ l ↔ k ∈ acc ∨ ∃ w ∈ work, w.pa / 64 = k := by
  induction work generalizing acc with
  | nil => exact ⟨hn, by simp⟩
  | cons w r ih =>
    rw [List.foldl_cons]
    by_cases hc : acc.contains (w.pa / 64) = true
    · rw [if_pos hc]
      obtain ⟨h1, h2⟩ := ih acc hn
      refine ⟨h1, fun k => (h2 k).trans ?_⟩
      have hm : w.pa / 64 ∈ acc := by simpa using hc
      constructor
      · rintro (h | ⟨v, hv, hk⟩)
        · exact .inl h
        · exact .inr ⟨v, List.mem_cons_of_mem _ hv, hk⟩
      · rintro (h | ⟨v, hv, rfl⟩)
        · exact .inl h
        · rcases List.mem_cons.1 hv with rfl | hv
          · exact .inl hm
          · exact .inr ⟨v, hv, rfl⟩
    · rw [if_neg hc]
      have hm : w.pa / 64 ∉ acc := by simpa using hc
      obtain ⟨h1, h2⟩ := ih (acc ++ [w.pa / 64]) (hn.append (List.nodup_singleton _) (by simpa using hm))
      refine ⟨h1, fun k => (h2 k).trans ?_⟩
      simp [or_assoc, eq_comm]

/-- Contributions at one place, sector by sector, are those at it. -/
theorem filter_sectors (work : List RedLane) (p : Nat) (sectors : List Nat) (hn : sectors.Nodup) :
    (sectors.flatMap fun k => work.filter fun l => l.pa / 64 == k).filter (·.pa == p) =
      if p / 64 ∈ sectors then work.filter (·.pa == p) else [] := by
  have hone (k : Nat) : (work.filter fun l => l.pa / 64 == k).filter (·.pa == p) = if p / 64 = k then work.filter (·.pa == p) else [] := by
    rw [List.filter_filter]
    by_cases hk : p / 64 = k
    · rw [if_pos hk]
      refine List.filter_congr fun l _ => ?_
      by_cases hl : l.pa = p
      · simp [hl, hk]
      · simp [hl]
    · rw [if_neg hk]
      refine List.filter_eq_nil_iff.2 fun l _ => ?_
      by_cases hl : l.pa = p
      · simp [hl, hk]
      · simp [hl]
  induction sectors with
  | nil => rfl
  | cons k r ih =>
    obtain ⟨hk, hn⟩ := List.nodup_cons.1 hn
    rw [List.flatMap_cons, List.filter_append, hone, ih hn]
    by_cases hp : p / 64 = k
    · subst hp
      simp [hk]
    · simp [hp]

end

section
variable {f : TrF} {e : ThEnv} {w fn : Nat}

/-- The request of the lanes of work that reach sector k. -/
def redRequest (f : TrF) (e : ThEnv) (work : List RedLane) (s : State) (k : Nat) : SliceReq :=
  let mine := work.filter fun w => w.pa / 64 == k
  let va := match mine with
    | w :: _ => w.va
    | [] => 0
  { requester := e.site, agent := (tileOf s e.site).index, ctx := e.launch.ctx,
    part := (settingOf s e.launch.ctx e.launch.cmd.queue).part.toNat, pa := k * 64, bytes := 64, cp := 0,
    op := .reduceLanes f.fn (mine.map fun w => (w.pa % 64, w.val)), poison := mine.any (·.bad),
    info := tileFaultInfo e.launch e.site 2 0 va e.pc 0 e.g (maskOf (mine.map (·.lane))) }

theorem sendReductions_eq (s : State) (work : List RedLane) : sendReductions f e s work =
    (work.foldl (fun l w => if l.contains (w.pa / 64) then l else l ++ [w.pa / 64]) []).foldl
      (fun s k => takeReduce s (redRequest f e work s k)) s := rfl

/-- The requests of a reduction, sector by sector. -/
theorem requests_reduce (hw : w = if f.fn.toNat < 128 then 32 else 64) (hf : fn = f.fn.toNat % 128) (hfn : fn ≤ 6 ∨ (fn = 0x10 ∧ w = 32))
    (work : List RedLane) (hr : ∀ l ∈ work, regionOf l.pa = .fast ∧ l.pa % (w / 8) = 0) (sectors : List Nat)
    (hsec : ∀ k ∈ sectors, ∃ l ∈ work, l.pa / 64 = k) (s : State) (hq : noFaults s = true) (ho : ∀ l ∈ work, orderedAt s l.pa = none) :
    Reduced (w / 8) w fn (sectors.flatMap fun k => work.filter fun l => l.pa / 64 == k) s
      (sectors.foldl (fun s k => takeReduce s (redRequest f e work s k)) s) := by
  induction sectors generalizing s with
  | nil => exact .of_same (.refl s)
  | cons k r ih =>
    obtain ⟨l, hl, hk⟩ := hsec k List.mem_cons_self
    have hone : Reduced (w / 8) w fn (work.filter fun l => l.pa / 64 == k) s (takeReduce s (redRequest f e work s k)) := by
      have hpa : (redRequest f e work s k).pa = k * 64 := rfl
      refine takeReduce_reduces hq ?_ rfl (fun m hm => ?_) hw hf (fun m hm => hr m (List.mem_of_mem_filter hm)) hfn
      · rw [hpa, ← ho l hl]
        exact orderedAt_congr rfl (by rw [Nat.shiftRight_eq_div_pow, Nat.shiftRight_eq_div_pow]; omega)
      · rw [hpa, beq_iff_eq.1 (List.mem_filter.1 hm).2]; omega
    have honly := hone.only
    exact hone.append (ih (fun j hj => hsec j (List.mem_cons_of_mem _ hj)) _ ((noFaults_memoryOnly honly).trans hq) fun m hm => by
      rw [← ho m hm]; exact orderedAt_congr (by rw [honly]) rfl)

/-- What the requests of a reduction leave. -/
theorem sendReductions_reduces (hw : w = if f.fn.toNat < 128 then 32 else 64) (hf : fn = f.fn.toNat % 128)
    (hfn : fn ≤ 6 ∨ (fn = 0x10 ∧ w = 32)) (work : List RedLane) (hr : ∀ l ∈ work, regionOf l.pa = .fast ∧ l.pa % (w / 8) = 0) {s : State}
    (hq : noFaults s = true) (ho : ∀ l ∈ work, orderedAt s l.pa = none) :
    let t := sendReductions f e s work
    MemoryOnly s t ∧ (∀ l ∈ work, cohNat t l.pa (w / 8) = redFold w fn (work.filter (·.pa == l.pa)) (cohNat s l.pa (w / 8))) ∧
      ∀ a, (∀ l ∈ work, a < l.pa ∨ l.pa + w / 8 ≤ a) → cohByte t a = cohByte s a := by
  obtain ⟨hn, hmem⟩ := sectors_spec work [] List.nodup_nil
  have hred := requests_reduce (e := e) hw hf hfn work hr _ (fun k hk => ((hmem k).1 hk).resolve_left List.not_mem_nil) s hq ho
  rw [sendReductions_eq]
  dsimp only
  refine ⟨hred.only, fun l hl => ?_, fun a ha => hred.kept a fun m hm => ?_⟩
  · rw [hred.value l.pa (hr l hl).2, filter_sectors work l.pa _ hn, if_pos ((hmem _).2 (.inr ⟨l, hl, rfl⟩))]
  · obtain ⟨k, -, hk⟩ := List.mem_flatMap.1 hm
    exact ha m (List.mem_of_mem_filter hk)

/-- A lane's part of a reduction. -/
def redLane (va : Nat → DWord) (pa : Nat → Nat) (v : Nat → Nat × Bool) (i : Nat) : RedLane :=
  { va := va i, pa := pa i, lane := i, val := BitVec.ofNat 64 (v i).1, bad := (v i).2 }

/-- What the judgement of a lane's part leaves (R289, R303). -/
def redAfter (site ctx : Nat) (va : Nat → DWord) (pa : Nat → Nat) (s : State) (i : Nat) : State :=
  l1Drop (rmwTarget s ctx (va i)).1 site (pa i)

variable {va : Nat → DWord} {pa cp at_ : Nat → Nat} {v : Nat → Nat × Bool}

/-- The lanes of a reduction are judged one after another, and then its requests are sent. -/
theorem redLanes_sends (hw : w = intWidth f.fn.toNat) {x : TGroup} (lanes : List Nat) (s : State) (work : List RedLane)
    (ho : ∀ i ∈ lanes, tpair x i f.src1.toNat = { val := va i, poison := false } ∧ getSrc x i f.src2.toNat w = v i ∧ (va i).toNat % (w / 8) = 0)
    (hr : let σ := after (redAfter e.site e.launch.ctx va pa) s lanes
      ∀ k i, lanes[k]? = some i → Reaches (σ k) e.launch.ctx .write (va i) (pa i) (cp i) (at_ i) ∧ frozenSector (σ k) (pa i / 64) = false) :
    let t := after (redAfter e.site e.launch.ctx va pa) s lanes lanes.length
    redLanes f e s x lanes work = .next (sendReductions f e t (work ++ lanes.map (redLane va pa v))) ∧ TileMemoryOnly e.site s t ∧ DataKept s t := by
  induction lanes generalizing s work with
  | nil => exact ⟨by rw [List.map_nil, List.append_nil]; rfl, .refl .., fun _ _ => rfl⟩
  | cons i r ih =>
    obtain ⟨h1, h2, ha⟩ := ho i List.mem_cons_self
    obtain ⟨hri, hfi⟩ := hr 0 i rfl
    have hri : Reaches s e.launch.ctx .write (va i) (pa i) (cp i) (at_ i) := hri
    obtain ⟨u, t, ht, hpa, hq⟩ := rmwTarget_reaches hri hfi
    have hafter : redAfter e.site e.launch.ctx va pa s i = l1Drop u e.site (pa i) := by
      have hu : (rmwTarget s e.launch.ctx (va i)).1 = u := by rw [ht]
      rw [redAfter, hu]
    obtain ⟨hstep, hall, hkept⟩ := ih (l1Drop u e.site (pa i)) (work ++ [redLane va pa v i]) (fun j hj => ho j (List.mem_cons_of_mem _ hj))
      (fun k j hk => by
        have := hr (k + 1) j hk
        rwa [after_succ, hafter] at this)
    have hdrop := CacheOnly.l1Drop u e.site (pa i)
    obtain ⟨el, lvl, hwalk, -, -⟩ := hri.leaf
    refine ⟨?_, ?_, fun a hpool => ?_⟩ <;> rw [List.length_cons, after_succ, hafter]
    · have hs : ¬ (regionOf (pa i) = .sovel ∧ (v i).2 = true) := fun h => fast_not_sovel hri.fast h.1
      rw [redLanes, ← hw]
      rw [h1, h2, if_neg Bool.false_ne_true, if_neg (not_not.2 ha), ht]
      dsimp only
      rw [hpa, if_neg hs]
      refine Eq.trans hstep ?_
      rw [List.append_assoc]
      rfl
    · exact ((TileMemoryOnly.of_memory hq.only).trans hdrop.only).trans hall
    · exact (hkept a hpool).trans ((hdrop.cohByte a).trans (hq.bytes a (outside_entry (walkPick_entry hwalk) hpool)))

end

theorem parts_tileMemoryOnly {site : Nat} {s t : State} (h : TileMemoryOnly site s t) : t.parts = s.parts := by
  obtain ⟨⟨u, tiles, hu, rfl⟩, -, -⟩ := h
  rw [hu]

/-- Contributions of lanes at one place, as their values say. -/
theorem redFold_lanes {w fn : Nat} (va : Nat → DWord) (pa : Nat → Nat) {v : Nat → Nat × Bool} (lanes : List Nat) (hw : w = 32 ∨ w = 64)
    (hv : ∀ i ∈ lanes, (v i).1 < 2 ^ w) (p old : Nat) :
    redFold w fn ((lanes.map (redLane va pa v)).filter (·.pa == p)) old =
      (lanes.filter fun j => pa j == p).foldl (fun old j => redStep w fn old (v j).1) old := by
  have hfilter : (lanes.map (redLane va pa v)).filter (·.pa == p) = (lanes.filter fun j => pa j == p).map (redLane va pa v) := List.filter_map ..
  rw [hfilter, redFold, List.foldl_map]
  refine List.foldl_ext _ _ _ fun b j hj => ?_
  have hlt := hv j (List.mem_of_mem_filter hj)
  have h64 : 2 ^ w ≤ 2 ^ 64 := Nat.pow_le_pow_right Nat.two_pos (by omega)
  show redStep w fn b ((BitVec.ofNat 64 (v j).1).toNat % 2 ^ w) = _
  rw [BitVec.toNat_ofNat, Nat.mod_eq_of_lt (hlt.trans_le h64), Nat.mod_eq_of_lt hlt]

/-- A reduction of lanes that reach the fast tier outside the ordered ranges. -/
theorem redLanes_reduces {f : TrF} {e : ThEnv} {w fn : Nat} {va : Nat → DWord} {pa cp at_ : Nat → Nat} {v : Nat → Nat × Bool}
    (hw : w = intWidth f.fn.toNat) (hf : fn = f.fn.toNat % 128) (hfn : fn ≤ 6 ∨ (fn = 0x10 ∧ w = 32)) {x : TGroup} {lanes : List Nat} {s : State}
    (hq : noFaults s = true)
    (ho : ∀ i ∈ lanes, tpair x i f.src1.toNat = { val := va i, poison := false } ∧ getSrc x i f.src2.toNat w = v i ∧ (va i).toNat % (w / 8) = 0)
    (hord : ∀ i ∈ lanes, orderedAt s (pa i) = none)
    (hr : let σ := after (redAfter e.site e.launch.ctx va pa) s lanes
      ∀ k i, lanes[k]? = some i → Reaches (σ k) e.launch.ctx .write (va i) (pa i) (cp i) (at_ i) ∧ frozenSector (σ k) (pa i / 64) = false) :
    ∃ t, redLanes f e s x lanes [] = .next t ∧ TileMemoryOnly e.site s t ∧
      (∀ i ∈ lanes, cohNat t (pa i) (w / 8) =
        (lanes.filter fun j => pa j == pa i).foldl (fun old j => redStep w fn old (v j).1) (cohNat s (pa i) (w / 8))) ∧
      ∀ a, inDriverPool a = false → (∀ i ∈ lanes, a < pa i ∨ pa i + w / 8 ≤ a) → cohByte t a = cohByte s a := by
  have hcases := intWidth_cases f.fn.toNat
  rw [← hw] at hcases
  have hpa (i : Nat) (hi : i ∈ lanes) : regionOf (pa i) = .fast ∧ pa i % (w / 8) = 0 := by
    obtain ⟨k, hk⟩ := List.getElem?_of_mem hi
    obtain ⟨hri, -⟩ := hr k i hk
    have hmod := hri.mod
    have ha := (ho i hi).2.2
    refine ⟨hri.fast, ?_⟩
    rcases hcases with h | h <;> rw [h] at ha ⊢ <;> omega
  have hbyte (i : Nat) (hi : i ∈ lanes) (j : Nat) (hj : j < 8) : inDriverPool (pa i + j) = false := by
    have := fast_lt (hpa i hi).1
    simp only [inDriverPool, decide_eq_false_iff_not]
    omega
  obtain ⟨hsend, hall, hkept⟩ := redLanes_sends hw lanes s [] ho hr
  rw [List.nil_append] at hsend
  generalize after (redAfter e.site e.launch.ctx va pa) s lanes lanes.length = u at hsend hall hkept
  obtain ⟨hm, hval, hbytes⟩ := sendReductions_reduces (e := e) (hw.trans (intWidth_eq _)) hf hfn (lanes.map (redLane va pa v)) (fun m hm => by
      obtain ⟨i, hi, rfl⟩ := List.mem_map.1 hm
      exact hpa i hi) (hall.noFaults.trans hq) (fun m hm => by
      obtain ⟨i, hi, rfl⟩ := List.mem_map.1 hm
      exact (orderedAt_congr (parts_tileMemoryOnly hall) rfl).trans (hord i hi))
  refine ⟨_, hsend, hall.trans (.of_memory hm), fun i hi => ?_, fun a hpool ha => ?_⟩
  · have hold : cohNat u (pa i) (w / 8) = cohNat s (pa i) (w / 8) :=
      congrArg leNat (List.map_congr_left fun j hj => hkept _ (hbyte i hi j (by have := List.mem_range.1 hj; omega)))
    have hv := hval _ (List.mem_map_of_mem hi)
    rw [redFold_lanes va pa lanes hcases (fun j hj => by rw [← (ho j hj).2.1]; exact getSrc_lt x j _ hcases)] at hv
    refine hv.trans ?_
    rw [← hold]
    rfl
  · refine (hbytes a fun m hm => ?_).trans (hkept a hpool)
    obtain ⟨i, hi, rfl⟩ := List.mem_map.1 hm
    exact ha i hi

/-! ### ATOM -/

theorem atomFn_isSome {w fn : Nat} (h : fn ≤ 9 ∨ (fn = 0x10 ∧ w = 32)) (old v c : Nat) : (atomFn w fn old v c).isSome = true := by
  rcases h with h | ⟨rfl, rfl⟩
  · have hcases : fn = 0 ∨ fn = 1 ∨ fn = 2 ∨ fn = 3 ∨ fn = 4 ∨ fn = 5 ∨ fn = 6 ∨ fn = 7 ∨ fn = 8 ∨ fn = 9 := by omega
    rcases hcases with rfl | rfl | rfl | rfl | rfl | rfl | rfl | rfl | rfl | rfl <;> rfl
  · rfl

theorem atomLegal_fields {f : TrF} (hrsv : f.rsv = 0) (hmod : f.mod = 0)
    (h : f.fn.toNat % 128 ≤ 9 ∨ (f.fn.toNat % 128 = 0x10 ∧ intWidth f.fn.toNat = 32)) : atomLegal f = true := by
  unfold atomLegal trClean
  rw [hrsv, hmod, atomFn_isSome h]
  rfl

theorem tpair_clean {x : TGroup} {i r : Nat} (h : (tpair x i r).poison = false) : tpair x i r = { val := (tpair x i r).val, poison := false } := by
  rw [← h]

/-- ATOM with legal fields does what its lanes do, and retires. -/
theorem atom_retires {s s1 s2 s3 : State} {site g : Nat} {l : Launch} {lanes : List Nat} {pc : DWord} {f : TrF} {y : TGroup} {w : Nat}
    (h : ThReady s site g l lanes pc s1) (hl : atomLegal f = true) (hw : w = intWidth f.fn.toNat)
    (hf : ThFields s site g l lanes
      (ru f.dst (w / 32) :: ([ru f.src1 2, ru f.src2 (w / 32)] ++ if f.fn.toNat % 128 = 9 then [ru f.src3 (w / 32)] else []))
      (if f.fn.toNat % 128 = 9 then [] else [f.src3.toNat]) (some (ru f.dst (w / 32))))
    (hs : (if isReduction f then redLanes f { launch := l, site := site, g := g, lanes := lanes, pc := pc } s1 (groupOf (tileOf s1 site) g) lanes []
      else atomLanes f { launch := l, site := site, g := g, lanes := lanes, pc := pc } s1 (groupOf (tileOf s1 site) g) lanes) = .next s3)
    (hd : Worked s2 s3 site g y) :
    ∃ t, exec (.atom site g f) s = .next t ∧ ThRetired s2 t l site g lanes y fun _ => pc + 8 := by
  subst hw
  obtain ⟨t, ht, hr⟩ := th_retires_from h (opOk := fun _ => atomLegal f) hl hf
    (fun e s x => if isReduction f then redLanes f e s x e.lanes [] else atomLanes f e s x e.lanes) 2 hs hd
  refine ⟨t, ?_, hr⟩
  show execAtom site g f s = _
  unfold execAtom
  simp only [beq_iff_eq]
  exact ht

theorem isReduction_iff (f : TrF) : isReduction f = true ↔
    f.dst.toNat = 255 ∧ f.fn.toNat % 128 ≠ 7 ∧ f.fn.toNat % 128 ≠ 8 ∧ f.fn.toNat % 128 ≠ 9 := by
  simp [isReduction, and_assoc]

/-- Settles O11: an atomic reads and writes at its home lane by lane; a reduction sends one request for each sector, whose contributions come in
lane order; a prefetch is translated where it would not fault. -/
theorem threadAtomics : Obligations.ThreadAtomics := by
  intro s site g l lanes pc s1 h
  have hn : lanes.Nodup := h.leading ▸ leadingSet_nodup _
  refine ⟨fun f pa cp at_ hrsv hmod hfn hdst hf hclean hreach => ?_, fun f pa cp at_ hrsv hmod hdst h3 hfn hf hclean hreach => ?_, fun f hfn hf => ?_⟩
  · have hwidth := intWidth_eq f.fn.toNat
    simp only [← hwidth] at *
    have hnot : ¬ isReduction f = true := fun hc => by
      obtain ⟨h1, h7, h8, h9⟩ := (isReduction_iff f).1 hc
      rcases hdst with hd | hd | hd | hd
      · exact toNat_ne_255 hd h1
      · exact h7 hd
      · exact h8 hd
      · exact h9 hd
    obtain ⟨y, hy, hregs, hall, hlanes⟩ := atomLanes_runs (e := { launch := l, site := site, g := g, lanes := lanes, pc := pc }) (f := f) rfl rfl
      (atomFn_isSome hfn) (hf.legal _ List.mem_cons_self).2 hn s1 (groupOf (tileOf s1 site) g)
      (fun i hi => ⟨⟨tpair_clean (hclean i hi).1, rfl, rfl⟩, (hclean i hi).2⟩) hreach
    obtain ⟨t, ht, hr⟩ := atom_retires h (atomLegal_fields hrsv hmod hfn) rfl hf ((if_neg hnot).trans hy) ((Worked.refl _ site g).putGroup y)
    refine ⟨t, y, ht, hr, hregs, fun k i hk => ?_⟩
    obtain ⟨s2, old, hdone, hres⟩ := hlanes k i hk
    exact ⟨s2, old, hdone.all, hdone.read, hdone.readKept, hdone.value, hdone.kept, hdone.new, hdone.dropped, fun h255 => hres (toNat_ne_255 h255)⟩
  · have hwidth := intWidth_eq f.fn.toNat
    simp only [← hwidth] at *
    have h9 : f.fn.toNat % 128 ≠ 9 := by omega
    have hd255 : f.dst.toNat = 255 := by rw [hdst]; rfl
    have hyes : isReduction f = true := (isReduction_iff f).2 ⟨hd255, by omega, by omega, h9⟩
    obtain ⟨s2, hsend, hall, hval, hkept⟩ := redLanes_reduces (e := { launch := l, site := site, g := g, lanes := lanes, pc := pc }) (f := f) rfl rfl
      hfn (v := fun i => getSrc (groupOf (tileOf s1 site) g) i f.src2.toNat (intWidth f.fn.toNat)) h.quiet
      (fun i hi => ⟨tpair_clean (hclean i hi).1, rfl, (hclean i hi).2.1⟩) (fun i hi => (hclean i hi).2.2) hreach
    obtain ⟨t, ht, hr⟩ := atom_retires h (atomLegal_fields hrsv hmod (hfn.imp (fun h => by omega) id)) rfl
      (by rw [if_neg h9, if_neg h9]; exact hf) ((if_pos hyes).trans hsend) (Worked.refl _ site g)
    rw [hall.groupOf g] at hr
    exact ⟨t, s2, ht, hr, hall, hval, hkept⟩
  · obtain ⟨t, s2, ht, hr, ⟨hc, hd⟩⟩ := pref_retires h hfn hf
    exact ⟨t, s2, ht, hr, hc, hd⟩

end Sys2Proof.Machine
end

section
/-! The stream engine (R266 to R268, R273, R274): freezes, the issue of requests, the data they move, and completion. -/

set_option Elab.async false

namespace Sys2Proof.Machine

theorem fld_eq (x : DWord) (hi lo : Nat) : fld x hi lo = x.toNat / 2 ^ lo % 2 ^ (hi + 1 - lo) := by
  unfold fld field
  rw [Nat.shiftRight_eq_div_pow]

/-! ### What a step of the stream engine may change -/

/-- From s to t nothing has changed but streams and tile-store bytes of the tile at a site. -/
structure StreamMoved (site : Nat) (s t : State) : Prop where
  frame : ∃ tiles, t = { s with tiles := tiles }
  others : ∀ j, j ≠ site → tileOf t j = tileOf s j
  tile : tileOf t site = { tileOf s site with
    streams := (tileOf t site).streams, store := (tileOf t site).store, storePoison := (tileOf t site).storePoison }

theorem StreamMoved.refl (site : Nat) (s : State) : StreamMoved site s s := ⟨⟨_, rfl⟩, fun _ _ => rfl, rfl⟩

theorem StreamMoved.trans {site : Nat} {s t u : State} (h : StreamMoved site s t) (k : StreamMoved site t u) : StreamMoved site s u := by
  obtain ⟨⟨m, rfl⟩, ho, ht⟩ := h
  obtain ⟨⟨n, rfl⟩, ho', ht'⟩ := k
  exact ⟨⟨n, rfl⟩, fun j hj => (ho' j hj).trans (ho j hj), by rw [ht', ht]⟩

theorem StreamMoved.updTile {site : Nat} (s : State) {f : Tile → Tile} (h : f (tileOf s site) = { tileOf s site with
    streams := (f (tileOf s site)).streams, store := (f (tileOf s site)).store, storePoison := (f (tileOf s site)).storePoison }) :
    StreamMoved site s (updTile s site f) :=
  ⟨⟨_, rfl⟩, fun _ hj => tileOf_updTile_other s site f hj, by rw [tileOf_updTile_same]; exact h⟩

theorem StreamMoved.setStrm (s : State) (site k : Nat) (x : Strm) : StreamMoved site s (setStrm s site k x) := .updTile s rfl

/-- A memory operation after a move of the tile is one before it. -/
theorem StreamMoved.memory_first {site : Nat} {s t u : State} (h : StreamMoved site s t) (hm : MemoryOnly t u) :
    MemoryOnly s { u with tiles := s.tiles } := by
  obtain ⟨⟨n, rfl⟩, -, -⟩ := h
  unfold MemoryOnly at *
  conv => lhs; rw [hm]

theorem StreamMoved.then_memory {site : Nat} {s t u : State} (h : StreamMoved site s t) (hm : MemoryOnly t u) :
    StreamMoved site { u with tiles := s.tiles } u := by
  refine ⟨⟨u.tiles, rfl⟩, fun j hj => (tileOf_memoryOnly hm j).trans (h.others j hj), ?_⟩
  rw [tileOf_memoryOnly hm]
  exact h.tile

theorem find_setStrm_same (s : State) (site k : Nat) (x : Strm) : NMap.find (tileOf (setStrm s site k x) site).streams k = some x := by
  unfold setStrm
  rw [tileOf_updTile_same]
  exact NMap.find_insert_same ..

theorem storeByte_setStrm (s : State) (site k : Nat) (x : Strm) (a : Nat) :
    storeByte (tileOf (setStrm s site k x) site) a = storeByte (tileOf s site) a := by
  unfold setStrm
  rw [tileOf_updTile_same]
  rfl

section
variable {s : State} {site k : Nat} {l : Launch} {x : Strm}

/-! ### Freezes -/

theorem freezeAcquire_runs (hup : s.run = .up) (hl : runningLaunch s site = some l) (hx : NMap.find (tileOf s site).streams k = some x)
    (hw : x.st = .waitFreeze) : exec (.freezeAcquire site k) s = .next (takeFreeze s l site k x) := by
  show execFreezeAcquire site k s = _
  unfold execFreezeAcquire
  rw [whenUp_up _ hup]
  simp only [hl, hx, if_pos hw]

/-! ### Issue -/

theorem findSome_unique {α β : Type} {f : α → Option β} {l : List α} {v : β} (hall : ∀ a ∈ l, ∀ w, f a = some w → w = v)
    (hone : ∃ a ∈ l, f a = some v) : l.findSome? f = some v := by
  cases h : l.findSome? f with
  | none =>
    obtain ⟨a, ha, hf⟩ := hone
    rw [List.findSome?_eq_none_iff.1 h a ha] at hf
    cases hf
  | some w =>
    obtain ⟨a, ha, hf⟩ := List.exists_of_findSome?_eq_some h
    rw [hall a ha w hf]

theorem issued_sum_one (k : Nat) (x : Strm) : (([(k, x)] : NMap Strm).map fun e => e.2.issued.length).sum = x.issued.length := by simp

/-- The one stream of a tile that has a request to issue is next. -/
theorem nextTag_one {t : Tile} (ht : t.streams = [(k, x)]) (hk : k < 64) (hi : x.issued.length < 1536) (hw : wantTag x = true) :
    nextTag t = some (k, x) := by
  unfold nextTag
  rw [ht, issued_sum_one, if_neg (by omega)]
  refine findSome_unique (fun j _ w hj => ?_) ⟨k, List.mem_map.2 ⟨(k + 64 - t.strmRr % 64) % 64, List.mem_range.2 (Nat.mod_lt _ (by decide)), by omega⟩, ?_⟩
  · by_cases hjk : k = j
    · subst hjk
      simp only [NMap.find, if_true] at hj
      split at hj
      · exact (Option.some.inj hj).symm
      · cases hj
    · simp [NMap.find, hjk] at hj
  · simp [NMap.find, hw]

theorem wantTag_of_row (hst : x.st = .active) (hn : x.next / 2 ^ 24 ≤ x.d3.toNat / 2 ^ 24 % 2 ^ 20) : wantTag x = true := by
  have hrows : x.rows = x.d3.toNat / 2 ^ 24 % 2 ^ 20 + 1 := congrArg (· + 1) (fld_eq x.d3 43 24)
  unfold wantTag Strm.allIssued reqRow
  rw [hst, hrows, decide_eq_false (by omega)]
  rfl

theorem rowBytes_eq (x : Strm) : x.rowBytes = x.d3.toNat % 2 ^ 24 := rfl

/-- The next request in source order: in its row, or at the start of the row after. -/
theorem reqAfter_eq (x : Strm) (r : Nat) : x.reqAfter r =
    if r % 2 ^ 24 + x.reqBytes r < x.d3.toNat % 2 ^ 24 then r + x.reqBytes r else (r / 2 ^ 24 + 1) * 2 ^ 24 := by
  have hrow : r / 2 ^ 24 * 2 ^ 24 + (r % 2 ^ 24 + x.reqBytes r) = r + x.reqBytes r := by omega
  unfold Strm.reqAfter reqRow reqByte
  rw [rowBytes_eq, ← hrow]
  rfl

theorem streamRequestIssue_full (hup : s.run = .up) (hl : runningLaunch s site = some l)
    (h : 1536 ≤ ((tileOf s site).streams.map fun e => e.2.issued.length).sum) : exec (.streamRequestIssue site) s = .next s := by
  show execStreamRequestIssue site s = _
  unfold execStreamRequestIssue
  rw [whenUp_up _ hup]
  have hn : nextTag (tileOf s site) = none := by unfold nextTag; rw [if_pos h]
  simp only [hl, hn]

theorem streamRequestIssue_issues (hup : s.run = .up) (hl : runningLaunch s site = some l) (ht : (tileOf s site).streams = [(k, x)]) (hk : k < 64)
    (hst : x.st = .active) (hi : x.issued.length < 1536) (hn : x.next / 2 ^ 24 ≤ x.d3.toNat / 2 ^ 24 % 2 ^ 20) (hkind : x.kind ≤ 3) :
    exec (.streamRequestIssue site) s = .next (setStrm (updTile s site fun t => { t with strmRr := (k + 1) % 64 }) site k
      { x with next := x.reqAfter x.next, issued := x.issued ++ [x.next] }) := by
  show execStreamRequestIssue site s = _
  unfold execStreamRequestIssue
  rw [whenUp_up _ hup]
  simp only [hl, nextTag_one ht hk hi (wantTag_of_row hst hn)]
  unfold issueReq
  simp only [if_pos hkind]

end

/-! ### Bytes of a request in a tile store -/

/-- The bytes of pieces written to a tile store, each in its turn, where the allocation holds them all. -/
theorem tsWrites_pieces {l : Launch} {site off : Nat} (bs : List Byte) (bad : Nat × Nat → Bool) (n : Nat) {a : Nat} (s : State) (ha : off ≤ a)
    (hin : a + n ≤ l.store * 1024) :
    let u := (pieces a n).foldl (fun s p => tsWrite s l site p.1 (sliceList 0 bs (p.1 - off) p.2) (bad p)) s
    StreamMoved site s u ∧ (tileOf u site).streams = (tileOf s site).streams ∧
      ∀ j, storeByte (tileOf u site) j = if a ≤ j ∧ j < a + n then (bs[j - off]?).getD 0 else storeByte (tileOf s site) j := by
  induction n using Nat.strong_induction_on generalizing a s with
  | _ n ih =>
    rcases Nat.eq_zero_or_pos n with rfl | hn
    · rw [pieces_zero]
      exact ⟨.refl site s, rfl, fun j => (if_neg (by omega)).symm⟩
    · have hm : 0 < min n (64 - a % 64) ∧ min n (64 - a % 64) ≤ n := by omega
      rw [pieces_cons hn, List.foldl_cons]
      generalize min n (64 - a % 64) = m at hm
      have hw : tsWrite s l site a (sliceList 0 bs (a - off) m) (bad (a, m)) =
          updTile s site fun t => tsPut t a (sliceList 0 bs (a - off) m) (bad (a, m)) := by
        unfold tsWrite storeBytes
        rw [length_sliceList, if_pos (by omega)]
      obtain ⟨hmove, hstr, hbytes⟩ := ih (n - m) (by omega) (a := a + m) (tsWrite s l site a (sliceList 0 bs (a - off) m) (bad (a, m))) (by omega) (by omega)
      refine ⟨StreamMoved.trans (hw ▸ .updTile s rfl) hmove, hstr.trans (by rw [hw, tileOf_updTile_same]; rfl), fun j => ?_⟩
      rw [hbytes j, hw, tileOf_updTile_same, storeByte_tsPut, length_sliceList]
      by_cases h1 : a ≤ j ∧ j < a + m
      · rw [if_neg (by omega), if_pos h1, if_pos (by omega), sliceList, List.getElem?_map, List.getElem?_range (by omega)]
        simp only [Option.map_some, Option.getD_some]
        congr 3; omega
      · by_cases h2 : a ≤ j ∧ j < a + n
        · rw [if_pos (by omega), if_pos h2]
        · rw [if_neg (by omega), if_neg h1, if_neg h2]

/-- The bytes of a request that arrive at a tile store. -/
theorem storePieces_stores {s : State} {l : Launch} {site off : Nat} (src : Nat) (bs : List Byte) (bad : List Bool)
    (hin : off + bs.length ≤ l.store * 1024) : let u := storePieces s l site off src bs bad
    StreamMoved site s u ∧ (tileOf u site).streams = (tileOf s site).streams ∧
      ∀ j, storeByte (tileOf u site) j = if off ≤ j ∧ j < off + bs.length then (bs[j - off]?).getD 0 else storeByte (tileOf s site) j :=
  tsWrites_pieces bs _ bs.length s le_rfl hin

section
variable {s t v : State} {site k r : Nat} {l : Launch} {x y : Strm} {sec : Sector}

/-! ### A request that is performed -/

theorem streamRequestComplete_runs (hup : s.run = .up) (hl : runningLaunch s site = some l) (hx : NMap.find (tileOf s site).streams k = some x)
    (hr : r ∈ x.issued) (hkind : x.kind ≤ 3) : exec (.streamRequestComplete site k r) s = .next (completeReq s l site k x r) := by
  show execStreamRequestComplete site k r s = _
  unfold execStreamRequestComplete
  rw [whenUp_up _ hup]
  simp only [hl, hx, if_pos (show x.kind ≤ 3 ∧ x.issued.contains r = true from ⟨hkind, List.contains_iff_mem.2 hr⟩)]

/-- A stream that sends no dead hint only frees the request's tag. -/
theorem reqDone_frees (hx : NMap.find (tileOf s site).streams k = some x) (hh : x.sHint = 2 → x.kind ≠ 0 ∧ x.kind ≠ 3) :
    reqDone s l site k r = setStrm s site k { x with issued := x.issued.filter (· != r) } := by
  unfold reqDone
  simp only [hx]
  exact if_neg fun h => h.2.1.elim (hh h.1).1 (hh h.1).2

/-- A request of a local kind stays in its source sector. -/
theorem reqBytes_in_sector (hk : x.kind ≤ 3) (r : Nat) : (x.srcAddr r).toNat % 64 + x.reqBytes r ≤ 64 := by
  have h5 : x.kind ≠ 5 := by omega
  have h4 : ¬ (x.kind = 4 ∨ x.kind = 5) := by omega
  unfold Strm.reqBytes
  rw [if_neg h5, if_neg h4]
  dsimp only
  omega

theorem deadPref_other (hk : x.kind ≠ 3) : deadPref s l.ctx x r = false := by
  unfold deadPref
  rw [beq_eq_false_iff_ne.2 hk, Bool.false_and]

/-- A request of kind 0 whose source sector is there moves its bytes to the tile store, and its tag is free. -/
theorem completeReq_stores (hk : x.kind = 0) (hs : sourceSector s l site k x (x.srcAddr r) = (t, .ok sec))
    (hy : NMap.find (tileOf t site).streams k = some y) (hh : y.sHint ≠ 2) (hin : (x.dstAddr r).toNat + x.reqBytes r ≤ l.store * 1024) :
    let u := completeReq s l site k x r
    StreamMoved site t u ∧ NMap.find (tileOf u site).streams k = some { y with issued := y.issued.filter (· != r) } ∧
      ∀ a, storeByte (tileOf u site) a = if (x.dstAddr r).toNat ≤ a ∧ a < (x.dstAddr r).toNat + x.reqBytes r
        then (sec.data[(x.srcAddr r).toNat % 64 + (a - (x.dstAddr r).toNat)]?).getD 0 else storeByte (tileOf t site) a := by
  obtain ⟨hmove, hstr, hbytes⟩ := storePieces_stores (s := t) (l := l) (site := site) (x.srcAddr r).toNat
    (sliceList 0 sec.data ((x.srcAddr r).toNat % 64) (x.reqBytes r)) [sec.poison] (by rwa [length_sliceList])
  have hu : completeReq s l site k x r = setStrm (storePieces t l site (x.dstAddr r).toNat (x.srcAddr r).toNat
      (sliceList 0 sec.data ((x.srcAddr r).toNat % 64) (x.reqBytes r)) [sec.poison]) site k { y with issued := y.issued.filter (· != r) } := by
    unfold completeReq moveReq
    rw [deadPref_other (by omega), hs, hk]
    exact reqDone_frees (hstr ▸ hy) fun h => absurd h hh
  dsimp only
  rw [hu]
  refine ⟨hmove.trans (.setStrm ..), find_setStrm_same .., fun a => ?_⟩
  rw [storeByte_setStrm, hbytes a, length_sliceList]
  split
  · rw [sliceList, List.getElem?_map, List.getElem?_range (by omega)]
    rfl
  · rfl

/-! ### The source sector -/

theorem sourceSector_seen {a : DWord} (h : NMap.find x.seen (a.toNat / 64) = some sec) : sourceSector s l site k x a = (s, .ok sec) := by
  unfold sourceSector
  rw [h]

/-- A stream that has read the source sector at an address, and keeps it (R267). -/
def keepSector (x : Strm) (a : DWord) (sec : Sector) : Strm := { x with seen := NMap.insert x.seen (a.toNat / 64) sec }

/-- A sector that is read for the first time is kept. -/
theorem sourceSector_reads {a : DWord} (hx : NMap.find (tileOf v site).streams k = some x) (hseen : NMap.find x.seen (a.toNat / 64) = none)
    (hr : readSector s l site x a = (v, .ok sec)) :
    sourceSector s l site k x a = (setStrm v site k (keepSector x a sec), .ok sec) := by
  unfold sourceSector
  rw [hseen, hr]
  simp only [hx]
  rfl

theorem cohPoison_sector (s : State) (pa : Nat) : cohPoison s (pa / 64 * 64) = cohPoison s pa := by
  unfold cohPoison
  rw [show pa / 64 * 64 / 256 = pa / 256 by omega, Nat.mul_div_cancel _ (by decide)]

theorem fast_of_lt {pa : Nat} (h : pa < 0xBC00000000) : regionOf pa = .fast := by
  unfold regionOf
  rw [if_pos h]

/-- The source sector of a stream from memory, as the home slices answer. -/
theorem readSector_reaches {a : DWord} {pa cp at_ : Nat} (hk : x.kind = 0) (h : Reaches s l.ctx .read a pa cp at_) :
    ∃ v, readSector s l site x a = (v, .ok { data := cohBytes v (pa / 64 * 64) 64, poison := cohPoison v pa }) ∧
      MemoryOnly s v ∧ BytesKept s v 0 0 at_ := by
  have hlt := fast_lt h.fast
  obtain ⟨e, s1, ht, hq⟩ := translate_reaches h
  obtain ⟨s2, hr, hk2⟩ := readTarget_fast (s := s1) (ctx := l.ctx) (t := ⟨pa / 64 * 64, cp, e⟩) (va := a) (n := 64) (x.sHint == 1) at_
    ((noFaults_memoryOnly hq.only).trans h.quiet) (fast_of_lt (pa := pa / 64 * 64) (by omega))
    (by rw [Nat.mul_div_cancel _ (by decide)]; exact hq.not_dead h.live)
    (by simp only [touchesReserved, decide_eq_false_iff_not]; omega)
  have hq2 := hq.trans hk2
  refine ⟨s2, ?_, hq2.only, fun b _ hb => hq2.bytes b hb⟩
  unfold readSector
  rw [hk, if_neg (by decide), ht]
  dsimp only
  rw [hr]
  dsimp only
  rw [cohPoison_sector]

/-- The source sector of a stream from the tile's own store. -/
theorem readSector_store {a : DWord} (hk : x.kind = 1) (hq : noFaults s = true) (hin : a.toNat < l.store * 1024) :
    readSector s l site x a = (s, .ok { data := (List.range 64).map fun j => storeByte (tileOf s site) (a.toNat / 64 * 64 + j),
                                        poison := NSet.has (tileOf s site).storePoison (a.toNat / 64) }) := by
  unfold readSector
  rw [hk, if_pos (by decide), tsRead_inside hq (by decide) (by omega) (by omega), Nat.mul_div_cancel _ (by decide)]

end

section
variable {s : State} {site k r : Nat} {l : Launch} {x : Strm}

/-! ### Requests that read memory, and requests that write it -/

theorem getD_map_range {β : Type} (f : Nat → β) (d : β) {n i : Nat} (h : i < n) : (((List.range n).map f)[i]?).getD d = f i := by
  rw [List.getElem?_map, List.getElem?_range h]
  rfl

theorem completeReq_gets {pa cp at_ : Nat} (hx : NMap.find (tileOf s site).streams k = some x) (hk : x.kind = 0) (hh : x.sHint ≠ 2)
    (hin : (x.dstAddr r).toNat + x.reqBytes r ≤ l.store * 1024) (hseen : NMap.find x.seen ((x.srcAddr r).toNat / 64) = none)
    (h : Reaches s l.ctx .read (x.srcAddr r) pa cp at_) :
    let u := completeReq s l site k x r
    ∃ v, MemoryOnly s v ∧ BytesKept s v 0 0 at_ ∧ StreamMoved site v u ∧
      (∀ a, storeByte (tileOf u site) a = if (x.dstAddr r).toNat ≤ a ∧ a < (x.dstAddr r).toNat + x.reqBytes r
        then cohByte v (pa + (a - (x.dstAddr r).toNat)) else storeByte (tileOf s site) a) ∧
      NMap.find (tileOf u site).streams k = some { x with
        issued := x.issued.filter (· != r)
        seen := NMap.insert x.seen ((x.srcAddr r).toNat / 64) { data := cohBytes v (pa / 64 * 64) 64, poison := cohPoison v pa } } := by
  obtain ⟨v, hr, hm, hb⟩ := readSector_reaches (site := site) hk h
  have hsec := sourceSector_reads ((tileOf_memoryOnly hm site).symm ▸ hx) hseen hr
  obtain ⟨hmove, hstr, hbytes⟩ := completeReq_stores hk hsec (find_setStrm_same ..) hh hin
  refine ⟨v, hm, hb, (StreamMoved.setStrm ..).trans hmove, fun a => ?_, hstr⟩
  have hmod := h.mod
  have hle := reqBytes_in_sector (x := x) (by omega) r
  rw [hbytes a, storeByte_setStrm, tileOf_memoryOnly hm]
  split
  · rw [cohBytes, getD_map_range _ _ (by omega)]
    congr 1
    omega
  · rfl

theorem mem_of_mem_erase {β : Type} {m : NMap β} {k : Nat} {e : Nat × β} (h : e ∈ NMap.erase m k) : e ∈ m := by
  induction m with
  | nil => exact h
  | cons a r ih =>
    obtain ⟨j, w⟩ := a
    unfold NMap.erase at h
    split at h
    · exact List.mem_cons_of_mem _ (ih h)
    · exact List.mem_cons.2 ((List.mem_cons.1 h).imp id ih)

theorem mem_of_mem_put {β : Type} [DecidableEq β] {d v : β} {m : NMap β} {k : Nat} {e : Nat × β} (h : e ∈ NMap.put d m k v) :
    e = (k, v) ∨ e ∈ m := by
  unfold NMap.put at h
  split at h
  · exact .inr (mem_of_mem_erase h)
  · exact mem_insert h

/-- What holds of the tile that is written, and of every tile listed before, holds of every tile listed after. -/
theorem forall_updTile {P : Tile → Prop} {f : Tile → Tile} (h : ∀ e ∈ s.tiles, P e.2) (hf : P (f (tileOf s site))) :
    ∀ e ∈ (updTile s site f).tiles, P e.2 := by
  intro e he
  rcases mem_of_mem_put he with rfl | he
  · exact hf
  · exact h e he

theorem forall_tileOf {P : Tile → Prop} (h : ∀ e ∈ s.tiles, P e.2) (h0 : P Tile.empty) (a : Nat) : P (tileOf s a) := by
  unfold tileOf NMap.getD
  split
  · rename_i hf; exact h _ (mem_of_find hf)
  · exact h0

/-- A stream that keeps the sectors it holds frozen freezes no other. -/
theorem frozenSector_setStrm {z : Strm} {q : Nat} (hx : NMap.find (tileOf s site).streams k = some x) (hz : z.frozen = x.frozen)
    (h : frozenSector s q = false) : frozenSector (setStrm s site k z) q = false := by
  unfold frozenSector allTiles at *
  rw [List.any_append, Bool.or_eq_false_iff, List.any_map] at h ⊢
  refine ⟨List.any_eq_false.2 ?_, h.2⟩
  have hall := List.any_eq_false.1 h.1
  have hsite := forall_tileOf (P := fun t => ¬ (t.streams.any fun x => NSet.has x.2.frozen q) = true) hall (by simp [Tile.empty]) site
  refine forall_updTile (P := fun t => ¬ (t.streams.any fun x => NSet.has x.2.frozen q) = true) hall ?_
  rw [Bool.not_eq_true, List.any_eq_false] at hsite ⊢
  intro e he
  rcases mem_insert he with rfl | he
  · exact hz ▸ hsite _ (mem_of_find hx)
  · exact hsite e he

theorem reaches_setStrm {acc : Acc} {ctx pa cp at_ : Nat} {va : DWord} (h : Reaches s ctx acc va pa cp at_) (z : Strm) :
    Reaches (setStrm s site k z) ctx acc va pa cp at_ := ⟨h.leaf, h.current, h.quiet, h.fast, h.live⟩

/-- One sector's bytes, written in one piece. -/
theorem vWritePieces_one {u v : State} {ctx : Nat} {a : DWord} {bs : List Byte} {poison : Nat → Bool} {pass : Bool} (hn : 0 < bs.length)
    (hs : a.toNat % 64 + bs.length ≤ 64) (h : vWrite u ctx a bs (poison 0) pass none = (v, .ok ())) :
    vWritePieces u ctx a.toNat bs poison pass none (pieces a.toNat bs.length) = (v, .ok ()) := by
  rw [pieces_one hn hs]
  unfold vWritePieces
  dsimp only
  rw [Nat.sub_self, sliceList_all, BitVec.ofNat_toNat, BitVec.setWidth_eq, h]
  rfl

/-- A request of kind 1 moves bytes of the tile's store to memory. -/
theorem completeReq_puts {pa cp at_ : Nat} (hx : NMap.find (tileOf s site).streams k = some x) (hk : x.kind = 1)
    (h : Reaches s l.ctx .write (x.dstAddr r) pa cp at_) (hf : frozenSector s (pa / 64) = false) (hs : pa % 64 + x.reqBytes r ≤ 64)
    (hin : (x.srcAddr r).toNat + x.reqBytes r ≤ l.store * 1024) (hn : 0 < x.reqBytes r)
    (hseen : NMap.find x.seen ((x.srcAddr r).toNat / 64) = none) :
    let u := completeReq s l site k x r
    ∃ v, MemoryOnly s v ∧ BytesKept s v pa (x.reqBytes r) at_ ∧
      cohBytes v pa (x.reqBytes r) = (List.range (x.reqBytes r)).map (fun j => storeByte (tileOf s site) ((x.srcAddr r).toNat + j)) ∧
      StreamMoved site v u ∧ (∀ a, storeByte (tileOf u site) a = storeByte (tileOf s site) a) ∧
      NMap.find (tileOf u site).streams k = some { x with
        issued := x.issued.filter (· != r)
        seen := NMap.insert x.seen ((x.srcAddr r).toNat / 64)
          { data := (List.range 64).map fun j => storeByte (tileOf s site) ((x.srcAddr r).toNat / 64 * 64 + j)
            poison := NSet.has (tileOf s site).storePoison ((x.srcAddr r).toNat / 64) } } := by
  have hmod := h.mod
  have hsrc := reqBytes_in_sector (x := x) (by omega) r
  have hsec := sourceSector_reads hx hseen (readSector_store (l := l) hk h.quiet (by omega))
  have hbs : sliceList (0 : Byte) ((List.range 64).map fun j => storeByte (tileOf s site) ((x.srcAddr r).toNat / 64 * 64 + j))
      ((x.srcAddr r).toNat % 64) (x.reqBytes r) = (List.range (x.reqBytes r)).map fun j => storeByte (tileOf s site) ((x.srcAddr r).toNat + j) := by
    rw [sliceList_map_range _ _ hsrc]
    exact List.map_congr_left fun j _ => by rw [← Nat.add_assoc, Nat.div_add_mod']
  have hlen : ((List.range (x.reqBytes r)).map fun j => storeByte (tileOf s site) ((x.srcAddr r).toNat + j)).length = x.reqBytes r := by simp
  generalize ((List.range (x.reqBytes r)).map fun j => storeByte (tileOf s site) ((x.srcAddr r).toNat + j)) = bs at hbs hlen ⊢
  generalize (List.range 64).map (fun j => storeByte (tileOf s site) ((x.srcAddr r).toNat / 64 * 64 + j)) = data at hsec hbs ⊢
  let z := keepSector x (x.srcAddr r) { data := data, poison := NSet.has (tileOf s site).storePoison ((x.srcAddr r).toNat / 64) }
  obtain ⟨w, hw, hm, hb, hbytes⟩ := vWrite_reaches bs (NSet.has (tileOf s site).storePoison ((x.srcAddr r).toNat / 64)) (x.dHint == 1)
    (reaches_setStrm (site := site) (k := k) h z) (frozenSector_setStrm (z := z) hx rfl hf) (by rw [hlen]; exact h.outside (by omega)) (by omega)
  have hu : completeReq s l site k x r = setStrm w site k { z with issued := z.issued.filter (· != r) } := by
    unfold completeReq moveReq
    rw [deadPref_other (by omega), hsec]
    simp only [Bool.false_eq_true, if_false]
    rw [hk, hbs, vWritePieces_one (by omega) (by omega) hw]
    exact reqDone_frees ((tileOf_memoryOnly hm site).symm ▸ find_setStrm_same ..) fun _ => ⟨by rw [show z.kind = 1 from hk]; decide, by rw [show z.kind = 1 from hk]; decide⟩
  have hmove := StreamMoved.setStrm s site k z
  dsimp only
  rw [hu]
  refine ⟨{ w with tiles := s.tiles }, hmove.memory_first hm, hlen ▸ hb, hlen ▸ cohBytes_of_bytes (s := w) hbytes, (hmove.then_memory hm).trans (.setStrm ..), fun a => ?_,
    find_setStrm_same ..⟩
  rw [storeByte_setStrm, tileOf_memoryOnly hm, storeByte_setStrm]

end

/-! ### Groups that are woken -/

/-- Waking groups changes which of them are parked, and the sets that they stand in, alone. -/
theorem wakes_frame (s : State) (site : Nat) (l : List Nat) (t : Tile) : let u := l.foldl (wakeOne s site) t
    u = { t with groups := u.groups, active := u.active, eligible := u.eligible } := by
  induction l generalizing t with
  | nil => rfl
  | cons g r ih =>
    dsimp only
    rw [List.foldl_cons, ih (wakeOne s site t g)]
    unfold wakeOne
    split
    · rw [makeEligible_frame]
    · rfl

theorem wake_eq (s : State) (site : Nat) : wake s site = updTile s site fun t => (List.range 64).foldl (wakeOne s site) t := rfl

theorem wake_frame (s : State) (site a : Nat) : tileOf (wake s site) a = { tileOf s a with
    groups := (tileOf (wake s site) a).groups, active := (tileOf (wake s site) a).active, eligible := (tileOf (wake s site) a).eligible } := by
  by_cases ha : a = site
  · subst ha
    rw [tileOf_wake]
    exact wakes_frame ..
  · rw [show tileOf (wake s site) a = tileOf s a from tileOf_updTile_other _ _ _ ha]

@[simp] theorem streams_wake (s : State) (site a : Nat) : (tileOf (wake s site) a).streams = (tileOf s a).streams := by rw [wake_frame]
@[simp] theorem deferred_wake (s : State) (site a : Nat) : (tileOf (wake s site) a).deferred = (tileOf s a).deferred := by rw [wake_frame]
@[simp] theorem index_wake (s : State) (site a : Nat) : (tileOf (wake s site) a).index = (tileOf s a).index := by rw [wake_frame]
@[simp] theorem bqOf_wake (s : State) (site a q : Nat) : bqOf (tileOf (wake s site) a) q = bqOf (tileOf s a) q := by
  unfold bqOf
  rw [wake_frame]

/-! ### Batons that wait -/

section
variable {s : State} {site k dest q : Nat} {b : T64}

/-- No baton of the tile has met the full queue q of dest before the one with number o. -/
def NoneBefore (dest q o : Nat) (t : Tile) : Prop := ∀ e ∈ t.deferred, ¬ (e.site == dest && e.queue == q && decide (e.order < o)) = true

theorem deferredBefore_iff {o : Nat} : deferredBefore s dest q o = false ↔ ∀ e ∈ s.tiles, NoneBefore dest q o e.2 := by
  unfold deferredBefore NoneBefore
  simp only [List.any_eq_false, Bool.not_eq_true]

/-- A tile that gets no further deferred baton leaves the order of those that wait. -/
theorem deferredBefore_updTile {f : Tile → Tile} {o : Nat} (hf : (f (tileOf s site)).deferred = (tileOf s site).deferred)
    (h : deferredBefore s dest q o = false) : deferredBefore (updTile s site f) dest q o = false := by
  rw [deferredBefore_iff] at h ⊢
  refine forall_updTile h ?_
  unfold NoneBefore
  rw [hf]
  exact forall_tileOf h (fun _ h => nomatch h) site

theorem deferredBefore_congr {t : State} (h : t.tiles = s.tiles) (a q o : Nat) : deferredBefore t a q o = deferredBefore s a q o := by
  unfold deferredBefore
  rw [h]

theorem deferredBefore_wake {o : Nat} (a : Nat) (h : deferredBefore s dest q o = false) : deferredBefore (wake s a) dest q o = false := by
  rw [wake_eq]
  exact deferredBefore_updTile (by rw [wakes_frame]) h

theorem bqOf_updTile {f : Tile → Tile} (hf : (f (tileOf s site)).bqs = (tileOf s site).bqs) (a q : Nat) :
    bqOf (tileOf (updTile s site f) a) q = bqOf (tileOf s a) q := by
  unfold bqOf
  by_cases ha : a = site
  · rw [ha, tileOf_updTile_same, hf]
  · rw [tileOf_updTile_other _ _ _ ha]

theorem bqOf_setBq_same (t : Tile) (q : Nat) (x : BQueue) : bqOf (setBq t q x) q = x := NMap.getD_put_same ..

/-- A baton for a queue with room is posted, and the stream's slot is free. -/
theorem postOrDefer_room (hb : deferredBefore s dest q s.reqCtr = false) (hroom : (bqOf (tileOf s dest) q).items.length < 64) :
    postOrDefer s site (some k) dest q b =
      wake (dropStrm (wake (updTile s dest fun t => setBq t q { bqOf (tileOf s dest) q with items := (bqOf (tileOf s dest) q).items ++ [b] }) dest) site k) site := by
  unfold postOrDefer postBaton
  simp only [hb, Bool.false_eq_true, if_false, if_pos hroom]
  rfl

/-- A baton for a full queue waits at the tile of its stream. -/
theorem postOrDefer_full (hb : deferredBefore s dest q s.reqCtr = false) (hfull : 64 ≤ (bqOf (tileOf s dest) q).items.length) :
    let u := postOrDefer s site (some k) dest q b
    bqOf (tileOf u dest) q = bqOf (tileOf s dest) q ∧ (tileOf u site).streams = (tileOf s site).streams ∧
      (tileOf u site).deferred = (tileOf s site).deferred ++ [{ slot := some k, site := dest, queue := q, baton := b, order := s.reqCtr }] := by
  have hu : postOrDefer s site (some k) dest q b = updTile { s with reqCtr := s.reqCtr + 1 } site fun t =>
      { t with deferred := t.deferred ++ [{ slot := some k, site := dest, queue := q, baton := b, order := s.reqCtr }] } := by
    unfold postOrDefer postBaton
    simp only [hb, Bool.false_eq_true, if_false, if_neg (Nat.not_lt.2 hfull)]
  dsimp only
  rw [hu, tileOf_updTile_same]
  exact ⟨bqOf_updTile (s := { s with reqCtr := s.reqCtr + 1 }) rfl dest q, rfl, rfl⟩

/-! ### What the completion of a stream leaves as it was -/

/-- From s to t the bytes of memory, the counters and every other stream of the tile at a site are as before. -/
structure OthersKept (site k : Nat) (s t : State) : Prop where
  mem : t.mem = s.mem
  counters : t.counters = s.counters
  streams : ∀ j, j ≠ k → NMap.find (tileOf t site).streams j = NMap.find (tileOf s site).streams j

theorem OthersKept.trans {t u : State} (h : OthersKept site k s t) (h' : OthersKept site k t u) : OthersKept site k s u :=
  ⟨h'.mem.trans h.mem, h'.counters.trans h.counters, fun j hj => (h'.streams j hj).trans (h.streams j hj)⟩

theorem OthersKept.updTile {f : Tile → Tile} (a : Nat)
    (h : ∀ j, j ≠ k → NMap.find (f (tileOf s a)).streams j = NMap.find (tileOf s a).streams j) : OthersKept site k s (Machine.updTile s a f) := by
  refine ⟨rfl, rfl, fun j hj => ?_⟩
  by_cases ha : site = a
  · subst ha
    rw [tileOf_updTile_same]
    exact h j hj
  · rw [tileOf_updTile_other _ _ _ ha]

theorem OthersKept.wake (s : State) (site k a : Nat) : OthersKept site k s (Machine.wake s a) := by
  rw [wake_eq]
  exact .updTile a fun _ _ => by rw [wakes_frame]

theorem OthersKept.setStrm (s : State) (site k : Nat) (x : Strm) : OthersKept site k s (Machine.setStrm s site k x) :=
  .updTile site fun _ hj => NMap.find_insert_other _ _ hj

theorem OthersKept.dropStrm (s : State) (site k : Nat) : OthersKept site k s (Machine.dropStrm s site k) :=
  .updTile site fun _ hj => NMap.find_erase_other _ hj

theorem OthersKept.postOrDefer (s : State) (site k dest q : Nat) (b : T64) : OthersKept site k s (Machine.postOrDefer s site (some k) dest q b) := by
  unfold Machine.postOrDefer
  dsimp only
  split
  · rename_i t ht
    split at ht
    · cases ht
    · unfold postBaton at ht
      dsimp only at ht
      split at ht
      · cases ht
        exact (((OthersKept.updTile dest fun _ _ => rfl).trans (.wake ..)).trans (.dropStrm ..)).trans (.wake ..)
      · cases ht
  · exact ⟨rfl, rfl, (OthersKept.updTile (s := { s with reqCtr := s.reqCtr + 1 }) site fun _ _ => rfl).streams⟩

end

/-! ### Completion -/

section
variable {s : State} {site k : Nat} {l : Launch} {x : Strm}

/-- The stream has ended its moves: its freeze ends, its bytes are counted, and groups that waited for it wake. -/
def movedState (s : State) (l : Launch) (site k : Nat) (x : Strm) : State :=
  wake (bump (setStrm s site k { x with frozen := [], st := .posting }) 5 l.ctx 8 (x.rows * x.rowBytes)) site

theorem finishStrm_eq (s : State) (l : Launch) (site k : Nat) (x : Strm) : finishStrm s l site k x =
    if x.bp then
      match l.sites[fld x.d5 58 50]? with
      | some dest => postOrDefer (movedState s l site k x) site (some k) dest (fld x.d5 62 59) (strmBaton (tileOf (movedState s l site k x) site).index x)
      | none => wake (dropStrm (movedState s l site k x) site k) site
    else wake (dropStrm (movedState s l site k x) site k) site := rfl

theorem find_movedState (s : State) (l : Launch) (site k : Nat) (x : Strm) :
    NMap.find (tileOf (movedState s l site k x) site).streams k = some { x with frozen := [], st := .posting } := by
  unfold movedState
  rw [streams_wake, tileOf_bump]
  exact find_setStrm_same ..

theorem movedState_index (s : State) (l : Launch) (site k : Nat) (x : Strm) : (tileOf (movedState s l site k x) site).index = (tileOf s site).index := by
  unfold movedState setStrm
  rw [index_wake, tileOf_bump, tileOf_updTile_same]

theorem bqOf_setStrm (s : State) (site k : Nat) (x : Strm) (a q : Nat) : bqOf (tileOf (setStrm s site k x) a) q = bqOf (tileOf s a) q :=
  bqOf_updTile rfl a q

theorem bqOf_dropStrm (s : State) (site k a q : Nat) : bqOf (tileOf (dropStrm s site k) a) q = bqOf (tileOf s a) q := bqOf_updTile rfl a q

theorem find_dropStrm (s : State) (site k : Nat) : NMap.find (tileOf (dropStrm s site k) site).streams k = none := by
  unfold dropStrm
  rw [tileOf_updTile_same]
  exact NMap.find_erase_same ..

theorem bqOf_movedState (s : State) (l : Launch) (site k : Nat) (x : Strm) (a q : Nat) :
    bqOf (tileOf (movedState s l site k x) a) q = bqOf (tileOf s a) q := by
  unfold movedState
  rw [bqOf_wake, tileOf_bump, bqOf_setStrm]

theorem deferredBefore_movedState {dest q o : Nat} (x : Strm) (h : deferredBefore s dest q o = false) :
    deferredBefore (movedState s l site k x) dest q o = false := by
  refine deferredBefore_wake site ?_
  rw [deferredBefore_congr (bump_tiles ..)]
  exact deferredBefore_updTile rfl h

theorem movedState_deferred (s : State) (l : Launch) (site k : Nat) (x : Strm) :
    (tileOf (movedState s l site k x) site).deferred = (tileOf s site).deferred := by
  unfold movedState setStrm
  rw [deferred_wake, tileOf_bump, tileOf_updTile_same]

theorem movedState_reqCtr (s : State) (l : Launch) (site k : Nat) (x : Strm) : (movedState s l site k x).reqCtr = s.reqCtr := by
  unfold movedState setStrm
  rw [wake_eq, updTile_reqCtr, bump_reqCtr, updTile_reqCtr]

/-- The bytes of the stream are counted, whatever becomes of its baton; memory and the other streams stay. -/
theorem finishStrm_counts (s : State) (l : Launch) (site k : Nat) (x : Strm) : let u := finishStrm s l site k x
    counter u 5 l.ctx 8 = satAdd (counter s 5 l.ctx 8) (BitVec.ofNat 64 (min (x.rows * x.rowBytes) (2 ^ 64 - 1))) ∧ u.mem = s.mem ∧
      ∀ j, j ≠ k → NMap.find (tileOf u site).streams j = NMap.find (tileOf s site).streams j := by
  have hset := OthersKept.setStrm s site k { x with frozen := [], st := .posting }
  have hend : OthersKept site k (bump (setStrm s site k { x with frozen := [], st := .posting }) 5 l.ctx 8 (x.rows * x.rowBytes))
      (finishStrm s l site k x) := by
    refine OthersKept.trans (t := movedState s l site k x) (.wake ..) ?_
    rw [finishStrm_eq]
    split
    · split
      · exact .postOrDefer ..
      · exact (OthersKept.dropStrm ..).trans (.wake ..)
    · exact (OthersKept.dropStrm ..).trans (.wake ..)
  refine ⟨?_, hend.mem.trans ((bump_mem ..).trans hset.mem), fun j hj => (hend.streams j hj).trans ?_⟩
  · have hc : counter (setStrm s site k { x with frozen := [], st := .posting }) 5 l.ctx 8 = counter s 5 l.ctx 8 := rfl
    rw [← hc, ← counter_bump]
    unfold counter
    rw [hend.counters]
  · rw [tileOf_bump]
    exact hset.streams j hj

/-- A stream without a baton frees its slot. -/
theorem finishStrm_quiet (hbp : x.bp = false) : let u := finishStrm s l site k x
    NMap.find (tileOf u site).streams k = none ∧ ∀ a q, bqOf (tileOf u a) q = bqOf (tileOf s a) q := by
  rw [finishStrm_eq, hbp]
  simp only [Bool.false_eq_true, if_false]
  exact ⟨by rw [streams_wake, find_dropStrm], fun a q => by rw [bqOf_wake, bqOf_dropStrm, bqOf_movedState]⟩

theorem finishStrm_baton {dest : Nat} (hbp : x.bp = true) (hd : l.sites[fld x.d5 58 50]? = some dest) : finishStrm s l site k x =
    postOrDefer (movedState s l site k x) site (some k) dest (fld x.d5 62 59) (strmBaton (tileOf s site).index x) := by
  rw [finishStrm_eq, hbp, hd, movedState_index, if_pos rfl]

/-- The baton of a stream goes to a queue with room, and its slot is free. -/
theorem finishStrm_posts {dest : Nat} (hbp : x.bp = true) (hd : l.sites[fld x.d5 58 50]? = some dest)
    (hb : deferredBefore s dest (fld x.d5 62 59) s.reqCtr = false) (hroom : (bqOf (tileOf s dest) (fld x.d5 62 59)).items.length < 64) :
    let u := finishStrm s l site k x
    (bqOf (tileOf u dest) (fld x.d5 62 59)).items = (bqOf (tileOf s dest) (fld x.d5 62 59)).items ++ [strmBaton (tileOf s site).index x] ∧
      NMap.find (tileOf u site).streams k = none := by
  rw [finishStrm_baton hbp hd, postOrDefer_room (by rw [movedState_reqCtr]; exact deferredBefore_movedState x hb) (by rwa [bqOf_movedState])]
  refine ⟨?_, by rw [streams_wake, find_dropStrm]⟩
  rw [bqOf_wake, bqOf_dropStrm, bqOf_wake, tileOf_updTile_same, bqOf_setBq_same, bqOf_movedState]

/-- At a full queue the baton of a stream waits, and its stream keeps the slot. -/
theorem finishStrm_defers {dest : Nat} (hbp : x.bp = true) (hd : l.sites[fld x.d5 58 50]? = some dest)
    (hb : deferredBefore s dest (fld x.d5 62 59) s.reqCtr = false) (hfull : 64 ≤ (bqOf (tileOf s dest) (fld x.d5 62 59)).items.length) :
    let u := finishStrm s l site k x
    bqOf (tileOf u dest) (fld x.d5 62 59) = bqOf (tileOf s dest) (fld x.d5 62 59) ∧
      (tileOf u site).deferred = (tileOf s site).deferred ++
        [{ slot := some k, site := dest, queue := fld x.d5 62 59, baton := strmBaton (tileOf s site).index x, order := s.reqCtr }] ∧
      NMap.find (tileOf u site).streams k = some { x with frozen := [], st := .posting } := by
  obtain ⟨hbq, hstr, hdef⟩ := postOrDefer_full (s := movedState s l site k x) (site := site) (k := k) (b := strmBaton (tileOf s site).index x)
    (by rw [movedState_reqCtr]; exact deferredBefore_movedState x hb) (by rwa [bqOf_movedState])
  rw [movedState_deferred, movedState_reqCtr] at hdef
  rw [finishStrm_baton hbp hd]
  exact ⟨hbq.trans (bqOf_movedState ..), hdef, by rw [hstr, find_movedState]⟩

theorem streamComplete_runs (hup : s.run = .up) (hl : runningLaunch s site = some l) (hx : NMap.find (tileOf s site).streams k = some x)
    (hst : x.st = .active) (hm : x.moved = true) : exec (.streamComplete site k) s = .next (finishStrm s l site k x) := by
  show execStreamComplete site k s = _
  unfold execStreamComplete
  rw [whenUp_up _ hup]
  simp only [hl, hx, if_pos (show x.st = .active ∧ x.moved = true from ⟨hst, hm⟩)]

end

/-- Settles O26: each of the four steps by its own rule; a stored byte is that of the source sector, as the home slices answered or as
the stream keeps it. -/
theorem streamEngine : Obligations.StreamEngine := by
  intro s site l hup hl hq
  refine ⟨fun k x hx => ⟨fun hw hfree => ?_, fun hw hfull => ?_⟩,
    ⟨streamRequestIssue_full hup hl, fun k x ht hk hst hi hn hkind => ?_⟩,
    fun k x r pa cp at_ hx hr => ⟨fun hk hh hin hn hseen hreach => ?_, fun sec hk hh hin hn hseen hlen => ?_, fun hk hreach hf hs hin hn hseen => ?_⟩,
    fun k x hx hst hm => ?_⟩
  · rw [freezeAcquire_runs hup hl hx hw, takeFreeze, if_pos hfree]
  · rw [freezeAcquire_runs hup hl hx hw, takeFreeze, if_neg (by omega)]
  · refine ⟨_, streamRequestIssue_issues hup hl ht hk hst hi hn hkind, ⟨_, rfl⟩, fun j hj => ?_, ?_, ?_⟩
    · unfold setStrm
      rw [tileOf_updTile_other _ _ _ hj, tileOf_updTile_other _ _ _ hj]
    · unfold setStrm
      rw [tileOf_updTile_same, tileOf_updTile_same]
    · rw [find_setStrm_same, reqAfter_eq]
  · obtain ⟨v, hm, hb, hmove, hbytes, hstr⟩ := completeReq_gets hx hk hh hin hseen hreach
    exact ⟨_, v, streamRequestComplete_runs hup hl hx hr (by omega), hm, hb, hmove.frame,
      ⟨fun j hj => (hmove.others j hj).trans (tileOf_memoryOnly hm j), tileOf_memoryOnly hm site ▸ hmove.tile⟩, hbytes, hstr⟩
  · obtain ⟨hmove, hstr, hbytes⟩ := completeReq_stores (l := l) (r := r) hk (sourceSector_seen hseen) hx hh hin
    exact ⟨_, streamRequestComplete_runs hup hl hx hr (by omega), hmove.frame, ⟨hmove.others, hmove.tile⟩, hbytes, hstr⟩
  · obtain ⟨v, hm, hb, hnew, hmove, hbytes, hstr⟩ := completeReq_puts hx hk hreach hf hs hin hn hseen
    exact ⟨_, v, streamRequestComplete_runs hup hl hx hr (by omega), hm, hb, hnew, hmove.frame,
      ⟨fun j hj => (hmove.others j hj).trans (tileOf_memoryOnly hm j), tileOf_memoryOnly hm site ▸ hmove.tile⟩, hbytes, hstr⟩
  · obtain ⟨hcount, hmem, hothers⟩ := finishStrm_counts s l site k x
    refine ⟨_, streamComplete_runs hup hl hx hst hm, fun _ _ => hcount, hmem, hothers, finishStrm_quiet, fun dest hbp hd hb => ?_⟩
    have hdest : fld x.d5 58 50 = x.d5.toNat / 2 ^ 50 % 512 := fld_eq ..
    have hqueue : fld x.d5 62 59 = x.d5.toNat / 2 ^ 59 % 16 := fld_eq ..
    dsimp only
    rw [← hdest] at hd
    rw [← hqueue] at hb ⊢
    exact ⟨finishStrm_posts hbp hd hb, finishStrm_defers hbp hd hb⟩

end Sys2Proof.Machine
end
